-- ==== Sys2Proof/Word.lean ====
section
/-! DEFINITION. The word types of the Rinvar V54 and the byte memory every store of the machine is held in. -/

namespace Sys2Proof

/-- One byte (R9). -/
abbrev Byte := BitVec 8

/-- A 32-bit instruction word (R119). -/
abbrev IWord := BitVec 32

/-- A scalar slot, a state register, an address (R39, R276). -/
abbrev Word := BitVec 64

/-- A register index as the encodings carry it: concat of the high field and the first word's field (R121). -/
abbrev Reg := BitVec 8

/-- A hart slot of a cell (R5). -/
abbrev Slot := Fin 16

/-- A byte memory: (address, byte) pairs, addresses strictly rising, no byte equal to what an unlisted address reads as. -/
abbrev Mem := List Host.Cell

end Sys2Proof
end

