-- ==== Sys2Proof/Syntax.lean ====
section
/-! DEFINITION. The instructions and the steps of the module: one constructor per row of spec/opcode_table.json. -/

namespace Sys2Proof

/-- Element width of a vector instruction, and the widths of `sext` and `zext` (R159, R205). -/
inductive EW where
  | w8 | w16 | w32 | w64
  deriving DecidableEq, Repr

/-- Width code of `ld`, `st`, `ldl` and `stl` (R127). -/
inductive MW where
  | i8 | n8 | i16 | n16 | i32 | n32 | x64
  deriving DecidableEq, Repr

/-- Width code of major 0x1E (R195). -/
inductive SW where
  | n32 | i32 | x64
  deriving DecidableEq, Repr

/-- Scope of an access (R120). -/
inductive Scope where
  | cell | die | module | system
  deriving DecidableEq, Repr

/-- The wide floating formats (R146). -/
inductive FF where
  | f16 | bf16 | f32 | f64
  deriving DecidableEq, Repr

/-- Rounding mode (R120). -/
inductive Rm where
  | rne | rtz | rup | rdn | rst
  deriving DecidableEq, Repr

/-- An element format as an fmt code names it (R125); a binary8 format by P, N (unsigned) and E (extended). -/
inductive Fmt where
  | int (signed : Bool) (w : EW)
  | wide (f : FF)
  | b8 (p : BitVec 3) (n e : Bool)
  deriving DecidableEq, Repr

/-- The storage format of `tpack` and `tunpk`: W 0 binary6, 1 binary4 (R246). -/
structure StFmt where
  w : Bool
  e : Bool
  n : Bool
  p : BitVec 3
  deriving DecidableEq, Repr

/-- The memory operand of R127: base, optional index register with its shift, byte offset. -/
structure MemOp where
  base  : Reg
  index : Option (Reg × BitVec 2)
  imm   : Word
  deriving DecidableEq, Repr

/-- The two forms of `view` (R288): a scalar source, or word 3. -/
inductive ViewOp where
  | reg (a : Reg)
  | imm (v : IWord)
  deriving DecidableEq, Repr

/-- The tag of an on-die line: ASID, generation and virtual address divided by 128 (R105). -/
structure LineKey where
  asid : Nat
  gen  : Nat
  line : Nat
  deriving DecidableEq, Repr

/-- The six virtual channels (R381). -/
inductive VC where
  | rsp | fwd | lat | req | fld | bulk
  deriving DecidableEq, Repr

/-- What a packet carries (R381): a miss of a hart and its data, `tbar` messages; requests, `stfer` attempts, requests to homes, agents and
Chucks, service requests; data, acknowledgements, unblocks, `stfer` answers, credits of peer pieces, records; what homes, slices and agents
send out; copy pieces and their line traffic; what fields send. -/
inductive MsgKind where
  | miss | tbar
  | request | attempt | homeRequest | agentMiss | node | service
  | data | ack | unblock | answer | pieceCredit | record
  | forward | invalidation | grant | recall | publish | agentDrop
  | piece | bulkLine
  | gather | siteLoad | fieldRequest | phase
  deriving DecidableEq, Repr

/-- A packet of the network (R378): the number of its message (the model's own), its kind, payload bytes, launch and team where it is addressed
to a team, the sender's die and incarnation, the source port and the target ports it still has to reach (several for a multicast, R384). -/
structure Packet where
  id      : Nat
  kind    : MsgKind
  payload : Nat
  team    : Option (Nat × Nat)
  die     : Nat
  inc     : Nat
  src     : Nat
  dsts    : List Nat
  deriving DecidableEq, Repr

/-- The instructions of the Vukel set (R132, R133) and, after them, the steps of the module that opcode_table.json lists. -/
inductive Instr where
  -- major 0x01
  | add (d a b : Reg) | sub (d a b : Reg) | mul (d a b : Reg) | mulh (d a b : Reg) | mulhn (d a b : Reg)
  | div (d a b : Reg) | divn (d a b : Reg) | rem (d a b : Reg) | remn (d a b : Reg)
  | and (d a b : Reg) | or (d a b : Reg) | xor (d a b : Reg) | andn (d a b : Reg) | orn (d a b : Reg)
  | shl (d a b : Reg) | shr (d a b : Reg) | sra (d a b : Reg) | rol (d a b : Reg) | ror (d a b : Reg)
  | min (d a b : Reg) | max (d a b : Reg) | minn (d a b : Reg) | maxn (d a b : Reg)
  | ceq (d a b : Reg) | cne (d a b : Reg) | clt (d a b : Reg) | cle (d a b : Reg) | cltn (d a b : Reg) | clen (d a b : Reg)
  -- majors 0x02 to 0x0A
  | addi (d a : Reg) (imm : Word) | li (d : Reg) (imm : Word)
  | abs (d a : Reg) | clz (d a : Reg) | ctz (d a : Reg) | popc (d a : Reg)
  | sext (w : EW) (d a : Reg) | zext (w : EW) (d a : Reg)
  | bext (d a : Reg) (pos len1 : BitVec 6) | bins (d a : Reg) (pos len1 : BitVec 6)
  | sel (d a b c : Reg) | lea (d : Reg) (m : MemOp)
  | shlImm (d a : Reg) (k : BitVec 6) | shrImm (d a : Reg) (k : BitVec 6) | sraImm (d a : Reg) (k : BitVec 6)
  | rolImm (d a : Reg) (k : BitVec 6) | rorImm (d a : Reg) (k : BitVec 6)
  -- major 0x0E
  | ldfeK (try_ : Bool) (d a : Reg) (off : Word) | ldfeE (try_ : Bool) (d a : Reg) (off : Word)
  | stfe (try_ : Bool) (d a : Reg) (off : Word) | stfer (try_ : Bool) (d a : Reg)
  | feset (a : Reg) (off : Word) | feclr (a : Reg) (off : Word)
  -- majors 0x0F to 0x17
  | loop (a : Reg) (off : Word)
  | beq (a b : Reg) (off : Word) | bne (a b : Reg) (off : Word) | blt (a b : Reg) (off : Word)
  | bge (a b : Reg) (off : Word) | bltn (a b : Reg) (off : Word) | bgen (a b : Reg) (off : Word)
  | call (d : Reg) (off : Word) | calli (d a : Reg)
  -- majors 0x18 to 0x1F
  | ld (w : MW) (d : Reg) (m : MemOp) | st (w : MW) (d : Reg) (m : MemOp)
  | ldl (w : MW) (d : Reg) (m : MemOp) | stl (w : MW) (d : Reg) (m : MemOp)
  | ldv (d a : Reg) (off : Word) | stv (d a : Reg) (off : Word)
  | ldvl (d a : Reg) (off : Word) | stvl (d a : Reg) (off : Word)
  | ldvs (w : EW) (d a b : Reg) | vgat (w : EW) (d a b : Reg) | vsca (w : EW) (d a b : Reg) | pf (a : Reg) (off : Word)
  | amoAdd (sc : Scope) (d a b : Reg) | amoAnd (sc : Scope) (d a b : Reg) | amoOr (sc : Scope) (d a b : Reg)
  | amoXor (sc : Scope) (d a b : Reg) | amoMin (sc : Scope) (d a b : Reg) | amoMax (sc : Scope) (d a b : Reg)
  | amoMinn (sc : Scope) (d a b : Reg) | amoMaxn (sc : Scope) (d a b : Reg) | amoSwp (sc : Scope) (d a b : Reg)
  | amoCas (sc : Scope) (d a b : Reg)
  | ldAcq (w : SW) (sc : Scope) (d a : Reg) (off : Word) | stRel (w : SW) (sc : Scope) (d a : Reg) (off : Word)
  | ldStr (w : SW) (sc : Scope) (d a : Reg) (off : Word) | stStr (w : SW) (sc : Scope) (d a : Reg) (off : Word)
  | fence (sc : Scope) | fenceAcq (sc : Scope) | fenceRel (sc : Scope)
  -- major 0x20
  | vadd (w : EW) (d a b : Reg) | vsub (w : EW) (d a b : Reg) | vmul (w : EW) (d a b : Reg) | vmac (w : EW) (d a b : Reg)
  | vmin (w : EW) (d a b : Reg) | vmax (w : EW) (d a b : Reg) | vand (w : EW) (d a b : Reg) | vor (w : EW) (d a b : Reg)
  | vxor (w : EW) (d a b : Reg) | vshl (w : EW) (d a b : Reg) | vshr (w : EW) (d a b : Reg) | vsra (w : EW) (d a b : Reg)
  | vabs (w : EW) (d a : Reg) | vneg (w : EW) (d a : Reg) | vminU (w : EW) (d a b : Reg) | vmaxU (w : EW) (d a b : Reg)
  -- major 0x21
  | vcmpEq (w : EW) (d a b : Reg) | vcmpNe (w : EW) (d a b : Reg) | vcmpLt (w : EW) (d a b : Reg)
  | vcmpLe (w : EW) (d a b : Reg) | vcmpLtU (w : EW) (d a b : Reg) | vcmpLeU (w : EW) (d a b : Reg)
  | vsel (w : EW) (d a b c : Reg)
  | mand (w : EW) (d a b : Reg) | mor (w : EW) (d a b : Reg) | mnot (w : EW) (d a : Reg) | mpopc (w : EW) (d a : Reg)
  -- major 0x22
  | vperm (w : EW) (d a b : Reg) | vbcast (w : EW) (d a : Reg) | vextr (w : EW) (d a b : Reg) | vins (w : EW) (d a b : Reg)
  | vslideUp (w : EW) (d a b : Reg) | vslideDn (w : EW) (d a b : Reg) | vzipLo (w : EW) (d a b : Reg)
  | vzipHi (w : EW) (d a b : Reg) | vunzipEv (w : EW) (d a b : Reg) | vunzipOd (w : EW) (d a b : Reg)
  -- major 0x23
  | vredsum (w : EW) (d a : Reg) | vredmax (w : EW) (d a : Reg) | vredmin (w : EW) (d a : Reg)
  | vredmaxU (w : EW) (d a : Reg) | vredminU (w : EW) (d a : Reg)
  -- major 0x24
  | vfadd (f : FF) (rm : Rm) (sat : Bool) (d a b : Reg) | vfsub (f : FF) (rm : Rm) (sat : Bool) (d a b : Reg)
  | vfmul (f : FF) (rm : Rm) (sat : Bool) (d a b : Reg) | vfma (f : FF) (rm : Rm) (d a b : Reg)
  | vfmax (f : FF) (d a b : Reg) | vfmin (f : FF) (d a b : Reg)
  | vfrcp (f : FF) (rm : Rm) (sat : Bool) (d a : Reg) | vfexp2 (f : FF) (rm : Rm) (sat : Bool) (d a : Reg)
  | vfredsum (f : FF) (rm : Rm) (sat : Bool) (d a : Reg) | vfredmax (f : FF) (d a : Reg) | vfredmin (f : FF) (d a : Reg)
  | vfcmpEq (f : FF) (d a b : Reg) | vfcmpLt (f : FF) (d a b : Reg) | vfcmpLe (f : FF) (d a b : Reg) | vfcmpUn (f : FF) (d a b : Reg)
  -- majors 0x25 to 0x27
  | vcvt (td ts : Fmt) (rm : Rm) (sat : Bool) (d a : Reg) (part : BitVec 2)
  | vquant (tb : Fmt) (ts : FF) (rm : Rm) (sat : Bool) (d a b : Reg)
  | vdeq (td : FF) (tb : Fmt) (d a : Reg) (part : BitVec 2) | vsclg (d a : Reg) | vscls (d a : Reg)
  -- majors 0x28 to 0x2B
  | fadd (f : FF) (rm : Rm) (sat : Bool) (d a b : Reg) | fsub (f : FF) (rm : Rm) (sat : Bool) (d a b : Reg)
  | fmul (f : FF) (rm : Rm) (sat : Bool) (d a b : Reg) | fdiv (f : FF) (rm : Rm) (sat : Bool) (d a b : Reg)
  | fmin (f : FF) (d a b : Reg) | fmax (f : FF) (d a b : Reg) | fsgn (f : FF) (d a b : Reg)
  | fsqrt (f : FF) (rm : Rm) (sat : Bool) (d a : Reg) | fabs (f : FF) (d a : Reg) | fneg (f : FF) (d a : Reg)
  | fclass (f : FF) (d a : Reg) | frnd (f : FF) (rm : Rm) (d a : Reg)
  | fma (f : FF) (rm : Rm) (d a b c : Reg) | fms (f : FF) (rm : Rm) (d a b c : Reg) | fnma (f : FF) (rm : Rm) (d a b c : Reg)
  | fcmpEq (f : FF) (d a b : Reg) | fcmpLt (f : FF) (d a b : Reg) | fcmpLe (f : FF) (d a b : Reg) | fcmpUn (f : FF) (d a b : Reg)
  | fcmpNe (f : FF) (d a b : Reg)
  | fcvt (td ts : Fmt) (rm : Rm) (sat : Bool) (d a : Reg)
  -- major 0x30
  | mlds (d a : Reg) | mswp | mstr (d a b : Reg) | macz (a : Reg) | macrd (d a b : Reg) | mfmt (a : Reg) | mstat (d : Reg) | mwait
  -- majors 0x38 to 0x3D
  | tend | tcopy (d a b : Reg) | tpack (f : StFmt) (d a b : Reg) | tunpk (f : StFmt) (d a b : Reg)
  | bini (a : Reg) | bexp (a b : Reg) | barv (d a b : Reg) | bwait (try_ : Bool) (d a b : Reg) | btest (d a : Reg)
  | waitw | tabt (a : Reg) | tspawn (d a : Reg) | evget (d a : Reg) | tbar (try_ : Bool) (d a b : Reg)
  | yield | sleep (a : Reg) | tick (d : Reg)
  -- major 0x3E
  | fdecl (d a : Reg) | fstart (d a : Reg) | fstop (d a b : Reg) | fpause (d a : Reg) | fphase (d a b : Reg)
  | fwaitb (try_ : Bool) (d a b : Reg) | sget (d a b : Reg) | sput (a : Reg) | snap (d a : Reg) | cplc (d a b : Reg)
  | fmig (d a : Reg) | rng (d : Reg) | rngf (d a : Reg) | bern (d a b : Reg) | samp (d a b : Reg)
  -- major 0x3F
  | trap (k : BitVec 6) | eret | stget (d : Reg) (n : BitVec 12) | stset (d : Reg) (n : BitVec 12) | stswp (d : Reg) (n : BitVec 12)
  | ienb (d : Reg) | idis (d : Reg) | wfi | pool (d : Reg) (src dst : BitVec 3) (m : BitVec 5) | poolq (d : Reg) (sel : BitVec 6)
  | view (o : ViewOp) | cln (a : Reg) | inv (a : Reg) | clnp (a : Reg)
  | ptstGrant (a b : Reg) | ptstRetract (a b : Reg) | ptstHold (a b : Reg) | ptstMove (a b : Reg)
  | genb (d a : Reg) | launch (d a : Reg) | fsvc (d a b : Reg)
  | mapDone (die e : Nat) | replayPage (die asid : Nat) (page : Nat) | replayAll (die : Nat)
  | halt | ident (d : Reg) (sel : BitVec 6)
  -- the hart's and the cell's own steps; c is a cell number, k a slot
  | instructionFetch (c : Nat) (k : Slot) | codeLineFill (c : Nat) (k : Slot) | waitComplete (c : Nat) (k : Slot)
  | interruptTaken (c : Nat) (k : Slot) | timerPending (c : Nat) (k : Slot) | fwlLimit (c : Nat) (k : Slot)
  | stferResend (c : Nat) (k : Slot) | stferAttempt (c : Nat) (k : Slot) | stferAnswer (c : Nat) (k : Slot)
  | rlimExpire (c : Nat) (k : Slot) | slotCapApply (c : Nat) | dividerChange (c : Nat)
  | matrixStart (c : Nat) | matrixRetire (c : Nat) | matrixPieceCredit (c : Nat)
  | copyStart (c : Nat) | copyPieceIssue (c : Nat) | pushPerform (c : Nat) | copyPieceCredit (c : Nat)
  | copyGlobalFault (c : Nat) | packBlock (c : Nat)
  | writeCheck (c : Nat) (k : Slot) | replayCheckFault (c : Nat) (k : Slot)
  -- coherence: die is a directory number 0 to 54
  | wordReturn (c : Nat) (l : LineKey) | cacheEvict (c : Nat) (l : LineKey) | forcedPublish (c : Nat)
  | gets (die : Nat) (l : LineKey) | getm (die : Nat) (l : LineKey) | upg (die : Nat) (l : LineKey) | pute (die : Nat) (l : LineKey)
  | fwdGets (die : Nat) (l : LineKey) | fwdGetm (die : Nat) (l : LineKey) | invAck (die : Nat) (l : LineKey)
  | data (die : Nat) (l : LineKey) | unblock (die : Nat) (l : LineKey) | placeRequest (die slice entry : Nat) (l : LineKey)
  | placeGrant (home slice : Nat) | writeBack (die : Nat) (l : LineKey) | wback (die : Nat) (l : LineKey)
  | recallLine (die : Nat) (l : LineKey)
  -- translation
  | translationWalk (asid page : Nat) | agentDrop (ptLine : Nat) | retractDrain | heldRetry (c : Nat) (k : Slot)
  | pageFault (c : Nat) (k : Slot) (va kind : Nat) (park : Bool) | generationScrub (asid : Nat)
  -- the graph engine
  | dispatch (lead : Nat) | chuckStart (c : Nat) (k : Slot) | recordWrite (lead : Nat) | taskAbort (c : Nat) (k : Slot) (reason : Nat)
  | starvationRecord (launch team : Nat) | launchDrained (launch : Nat) | spawnAdd (launch : Nat)
  | tbarComplete (launch team : Nat) (word : IWord) | gangStart (launch : Nat)
  -- the pool
  | poolHandshake (c : Nat) | matDrainTimeout (c : Nat) | localRelocation (c : Nat) | poolSwitch (c : Nat)
  -- fields: launch, team and handle name a field
  | fieldRequestServe (c : Nat) | fieldAnswer (c : Nat) (k : Slot) | spindleHand (c : Nat)
  | phaseBarrier (launch team handle : Nat) | fieldMove (launch team handle : Nat) | backgroundCopy (c : Nat)
  | fieldWriteBack (launch team handle : Nat)
  -- the network
  | routerGrant (node out : Nat) | packetArrival (node inp : Nat) (p : Packet) | teamDelivery (c : Nat)
  | staleDrop (receiver : Nat) (p : Packet)
  -- failure, power and heat
  | dieDeclare (die : Nat) | dieRejoin (die : Nat)
  | rctlWrite (die rail : Nat) (v : Word) | railChangeDone (die rail : Nat) | cpwrWrite (c : Nat) (v : Word) | dpwrWrite (die : Nat) (v : Word)
  | currentWindow (die rail : Nat) (isense : Nat) | autoClockStep (die rail : Nat) | mpwrWindow (pnow : Nat)
  | sensorReading (die sensor : Nat) (raw : Int) | thermalLevel (die : Nat) | saveLadderStep (die : Nat) | dropLadderStep (die : Nat)
  | comparatorTrip (die : Nat) | thermalRecovery (die : Nat) | hotSpotMove (launch team : Nat) (x0 y0 : Nat)
  -- launches and swaps
  | swapOut (launch team : Nat) (save done : Nat) | swapGraceExpire (launch team : Nat)
  | swapIn (launch team : Nat) (save done x0 y0 : Nat) | launchEnd (launch : Nat) (done : Nat) | launchAccept (desc : List Word)
  -- the Headstock, links and hosts
  | hsqRead | boot | measureExtend (stage flags : IWord) (d : BitVec 256) | attestQuote (nonce : BitVec 256)
  | slctlWrite (l : Nat) (v : Word) | linkStateChange (l : Nat) (up : Bool) (lanes rate peer : Nat) | txtailWrite (l : Nat) (v : BitVec 16)
  | linkEntryReceive (l : Nat) (entry : List Byte) | sqt (q : Nat) (v : BitVec 16) | cqh (q : Nat) (v : BitVec 16) | qcfg (q : Nat) (v : Word)
  | hostSubmission (q : Nat) (entry : List Word) (host : List Byte) | hostCompletion (q : Nat)
  | inboundDma (port : Nat) (write : Bool) (pa : Nat) (bytes : List Byte)
  | operatingPointPatch (vcode m : Nat) | powerLimitPatch (watts : Nat) | retiredDies (dies : List Nat) | snsWrite (die : Nat) (v : Word)
  | registerWrite (addr : Nat) (v : Word) | illegalEncoding (w : IWord)
  | invalidation (die : Nat) (l : LineKey) | ackCount (die : Nat) (l : LineKey)
  | teamInterrupt (launch team : Nat) | pciePortEvent (port : Nat) | linkControlFlit (l : Nat) (rxhead : BitVec 16)
  deriving DecidableEq, Repr

end Sys2Proof
end

