-- ==== Sys2Proof/WellFormed.lean ====
section
/-! DEFINITION. Which instructions the encodings of the Vukel set can hold (R119 to R135). -/

namespace Sys2Proof

/-- The index fits the six bits of the first word, so no high bits stand in word 2 (R121). -/
def small (r : Reg) : Bool := r.toNat < 64

/-- The value is its own low `n` bits read signed. -/
def fitsSigned (n : Nat) (x : Word) : Bool := (x.setWidth n).signExtend 64 == x

/-- The immediate fits word 3, read sign-extended (R120). -/
def fits32 (x : Word) : Bool := fitsSigned 32 x

/-- A byte offset of a branch (R128): a multiple of 4 that word 3 can hold. -/
def branchOff (x : Word) : Bool := fits32 x && x.toNat % 4 == 0

/-- A binary8 format with a precision that exists (R125), or any other format. -/
def Fmt.legal : Fmt → Bool
  | .b8 p _ _ => p != 0
  | _ => true

/-- The width of one element of a format, in bits (R219). -/
def Fmt.bits : Fmt → Nat
  | .int _ .w8 => 8
  | .int _ .w16 => 16
  | .int _ .w32 => 32
  | .int _ .w64 => 64
  | .wide .f16 => 16
  | .wide .bf16 => 16
  | .wide .f32 => 32
  | .wide .f64 => 64
  | .b8 _ _ _ => 8

def Fmt.isInt : Fmt → Bool
  | .int _ _ => true
  | _ => false

def Fmt.isB8 : Fmt → Bool
  | .b8 _ _ _ => true
  | _ => false

/-- Stochastic rounding exists into every format but f64 and the integers (R148). -/
def Fmt.rounds (td : Fmt) (rm : Rm) : Bool := rm != .rst || !(td.isInt || td == .wide .f64)

/-- The scalar form of the same rule (R175, R181). -/
def FF.rounds (f : FF) (rm : Rm) : Bool := rm != .rst || f != .f64

/-- A storage format: binary6 with P 1 to 5, binary4 with P 1 to 3 (R246). -/
def StFmt.legal (f : StFmt) : Bool := f.p != 0 && f.p.toNat ≤ (if f.w then 3 else 5)

/-- A memory operand of R127: word 3 holds its offset, and a base without an index carries no shift. -/
def MemOp.legal (m : MemOp) : Bool := fits32 m.imm

/-- The formats and the part of `vcvt` (R219). -/
def vcvtLegal (td ts : Fmt) (rm : Rm) (part : BitVec 2) : Bool :=
  td.legal && ts.legal && td.rounds rm && td != .wide .f64 && ts != .wide .f64 &&
  (if td.bits == ts.bits then part == 0
   else if td.bits > ts.bits then part.toNat < td.bits / ts.bits
   else part.toNat < ts.bits / td.bits) &&
  td.bits < 8 * ts.bits && ts.bits < 8 * td.bits

/-- The part of `vdeq`: two for the 16-bit destinations, four for f32 (R222). -/
def vdeqLegal (td : FF) (tb : Fmt) (part : BitVec 2) : Bool :=
  td != .f64 && tb.isB8 && tb.legal && (td == .f32 || part.toNat < 2)

/-- True of the instructions that some word sequence encodes. The steps of the hardware have no words. -/
def Instr.wellFormed : Instr → Bool
  | .add _ _ _ | .sub _ _ _ | .mul _ _ _ | .mulh _ _ _ | .mulhn _ _ _ | .div _ _ _ | .divn _ _ _ | .rem _ _ _
  | .remn _ _ _ | .and _ _ _ | .or _ _ _ | .xor _ _ _ | .andn _ _ _ | .orn _ _ _ | .shl _ _ _ | .shr _ _ _
  | .sra _ _ _ | .rol _ _ _ | .ror _ _ _ | .min _ _ _ | .max _ _ _ | .minn _ _ _ | .maxn _ _ _ | .ceq _ _ _
  | .cne _ _ _ | .clt _ _ _ | .cle _ _ _ | .cltn _ _ _ | .clen _ _ _ => true
  | .addi d a imm => fits32 imm || (small d && small a)
  | .li d imm => fits32 imm || small d
  | .abs _ _ | .clz _ _ | .ctz _ _ | .popc _ _ => true
  | .sext w _ _ | .zext w _ _ => w != .w64
  | .bext _ _ p l | .bins _ _ p l => p.toNat + l.toNat + 1 ≤ 64
  | .sel _ _ _ _ => true
  | .lea _ m => m.legal
  | .shlImm _ _ _ | .shrImm _ _ _ | .sraImm _ _ _ | .rolImm _ _ _ | .rorImm _ _ _ => true
  | .ldfeK _ _ _ off | .ldfeE _ _ _ off | .stfe _ _ _ off => fits32 off
  | .stfer _ _ _ => true
  | .feset _ off | .feclr _ off => fits32 off
  | .loop _ off => branchOff off
  | .beq _ _ off | .bne _ _ off | .blt _ _ off | .bge _ _ off | .bltn _ _ off | .bgen _ _ off => branchOff off
  | .call _ off => branchOff off
  | .calli _ _ => true
  | .ld _ _ m | .st _ _ m | .ldl _ _ m | .stl _ _ m => m.legal
  | .ldv _ _ off | .stv _ _ off | .ldvl _ _ off | .stvl _ _ off => fits32 off
  | .ldvs _ _ _ _ | .vgat _ _ _ _ | .vsca _ _ _ _ => true
  | .pf _ off => fits32 off
  | .amoAdd _ _ _ _ | .amoAnd _ _ _ _ | .amoOr _ _ _ _ | .amoXor _ _ _ _ | .amoMin _ _ _ _ | .amoMax _ _ _ _
  | .amoMinn _ _ _ _ | .amoMaxn _ _ _ _ | .amoSwp _ _ _ _ | .amoCas _ _ _ _ => true
  | .ldAcq _ _ _ _ off | .stRel _ _ _ _ off | .ldStr _ _ _ _ off | .stStr _ _ _ _ off => fits32 off
  | .fence _ | .fenceAcq _ | .fenceRel _ => true
  | .vadd _ _ _ _ | .vsub _ _ _ _ | .vmul _ _ _ _ | .vmac _ _ _ _ | .vmin _ _ _ _ | .vmax _ _ _ _ | .vand _ _ _ _
  | .vor _ _ _ _ | .vxor _ _ _ _ | .vshl _ _ _ _ | .vshr _ _ _ _ | .vsra _ _ _ _ | .vabs _ _ _ | .vneg _ _ _
  | .vminU _ _ _ _ | .vmaxU _ _ _ _ => true
  | .vcmpEq _ _ _ _ | .vcmpNe _ _ _ _ | .vcmpLt _ _ _ _ | .vcmpLe _ _ _ _ | .vcmpLtU _ _ _ _ | .vcmpLeU _ _ _ _
  | .vsel _ _ _ _ _ | .mand _ _ _ _ | .mor _ _ _ _ | .mnot _ _ _ | .mpopc _ _ _ => true
  | .vperm _ _ _ _ | .vbcast _ _ _ | .vextr _ _ _ _ | .vins _ _ _ _ | .vslideUp _ _ _ _ | .vslideDn _ _ _ _
  | .vzipLo _ _ _ _ | .vzipHi _ _ _ _ | .vunzipEv _ _ _ _ | .vunzipOd _ _ _ _ => true
  | .vredsum _ _ _ | .vredmax _ _ _ | .vredmin _ _ _ | .vredmaxU _ _ _ | .vredminU _ _ _ => true
  | .vfadd f _ _ _ _ _ | .vfsub f _ _ _ _ _ | .vfmul f _ _ _ _ _ | .vfma f _ _ _ _ | .vfmax f _ _ _ | .vfmin f _ _ _
  | .vfrcp f _ _ _ _ | .vfexp2 f _ _ _ _ | .vfredsum f _ _ _ _ | .vfredmax f _ _ | .vfredmin f _ _
  | .vfcmpEq f _ _ _ | .vfcmpLt f _ _ _ | .vfcmpLe f _ _ _ | .vfcmpUn f _ _ _ => f != .f64
  | .vcvt td ts rm _ _ _ part => vcvtLegal td ts rm part
  | .vquant tb ts _ _ _ _ _ => tb.isB8 && tb.legal && ts != .f64
  | .vdeq td tb _ _ part => vdeqLegal td tb part
  | .vsclg _ _ | .vscls _ _ => true
  | .fadd f rm _ _ _ _ | .fsub f rm _ _ _ _ | .fmul f rm _ _ _ _ | .fdiv f rm _ _ _ _ | .fsqrt f rm _ _ _
  | .frnd f rm _ _ | .fma f rm _ _ _ _ | .fms f rm _ _ _ _ | .fnma f rm _ _ _ _ => f.rounds rm
  | .fmin _ _ _ _ | .fmax _ _ _ _ | .fsgn _ _ _ _ | .fabs _ _ _ | .fneg _ _ _ | .fclass _ _ _ => true
  | .fcmpEq _ _ _ _ | .fcmpLt _ _ _ _ | .fcmpLe _ _ _ _ | .fcmpUn _ _ _ _ | .fcmpNe _ _ _ _ => true
  | .fcvt td ts rm _ _ _ => td.legal && ts.legal && td.rounds rm
  | .mlds d a => small d && small a
  | .mswp => true
  | .mstr d a b | .macrd d a b => small d && small a && small b
  | .macz a | .mfmt a => small a
  | .mstat d => small d
  | .mwait | .tend => true
  | .tcopy d a b => small d && small a && small b
  | .tpack f d a b | .tunpk f d a b => f.legal && small d && small a && small b
  | .bini a => small a
  | .bexp a b => small a && small b
  | .barv d a b => small d && small a && small b
  | .bwait t d a b | .tbar t d a b => small d && small a && small b && (t || d == 0)
  | .btest d a => small d && small a
  | .waitw | .yield => true
  | .tabt a | .sleep a => small a
  | .tspawn d a | .evget d a => small d && small a
  | .tick d => small d
  | .fdecl d a | .fstart d a | .fpause d a | .snap d a | .fmig d a | .rngf d a => small d && small a
  | .fstop d a b | .fphase d a b | .sget d a b | .cplc d a b | .bern d a b | .samp d a b => small d && small a && small b
  | .fwaitb _ d a b => small d && small a && small b
  | .sput a => small a
  | .rng d => small d
  | .trap _ | .eret | .wfi | .halt => true
  | .stget d _ | .stset d _ | .stswp d _ => small d
  | .ienb d | .idis d => small d
  | .pool d _ _ _ => small d
  | .poolq d n => small d && n.toNat ≤ 8
  | .view (.reg a) => small a
  | .view (.imm v) => v.toNat < 2 ^ 30
  | .cln a | .inv a | .clnp a => small a
  | .ptstGrant a b | .ptstRetract a b | .ptstHold a b | .ptstMove a b => small a && small b
  | .genb d a | .launch d a => small d && small a
  | .fsvc d a b => small d && small a && small b
  | .ident d n => small d && n.toNat ≤ 1
  | _ => false

/-- An instruction some word sequence encodes. -/
abbrev Instr.WellFormed (i : Instr) : Prop := i.wellFormed = true

end Sys2Proof
end

