-- ==== Sys2Proof/Decode.lean ====
section
/-! DEFINITION. The decoder of the Vukel set (R119 to R135), and after it the encoder that writes the shortest form (R130). -/

namespace Sys2Proof

/-- Why a word sequence is no instruction (R135). -/
inductive Reject where
  /-- The sequence ends before the length its first word gives (R119). -/
  | truncated
  /-- L = 0b11, which no major accepts (R132). -/
  | length
  /-- The major is reserved (R132). -/
  | major
  /-- A reserved operation code, a form the major does not take, or a field outside its limits (R135). -/
  | field
  deriving DecidableEq, Repr

/-- The fields of the words of one instruction (R119, R120); a word the form does not have leaves its fields zero. -/
structure Fields where
  l     : BitVec 2 := 0
  major : BitVec 6 := 0
  d     : BitVec 6 := 0
  a     : BitVec 6 := 0
  b     : BitVec 6 := 0
  minor : BitVec 6 := 0
  c     : BitVec 8 := 0
  dh    : BitVec 2 := 0
  ah    : BitVec 2 := 0
  bh    : BitVec 2 := 0
  scope : BitVec 2 := 0
  fmt   : BitVec 6 := 0
  rm    : BitVec 3 := 0
  sat   : BitVec 1 := 0
  wait  : BitVec 2 := 0
  top   : BitVec 4 := 0
  w3    : IWord := 0
  lit   : Word := 0
  deriving DecidableEq, Repr

/-- `n` bits of `x` from bit `s` on. -/
def bitsAt (x s n : Nat) : BitVec n := BitVec.ofNat n (x / 2 ^ s)

/-- The fields of the first word (R119). -/
def Fields.first (w : IWord) : Fields :=
  ⟨bitsAt w.toNat 0 2, bitsAt w.toNat 2 6, bitsAt w.toNat 8 6, bitsAt w.toNat 14 6, bitsAt w.toNat 20 6,
   bitsAt w.toNat 26 6, 0, 0, 0, 0, 0, 0, 0, 0, 0, 0, 0, 0⟩

/-- The fields of words 1 to 3 of the extended form (R120). -/
def Fields.extended (w x y : IWord) : Fields :=
  ⟨bitsAt w.toNat 0 2, bitsAt w.toNat 2 6, bitsAt w.toNat 8 6, bitsAt w.toNat 14 6, bitsAt w.toNat 20 6,
   bitsAt w.toNat 26 6, bitsAt x.toNat 0 8, bitsAt x.toNat 8 2, bitsAt x.toNat 10 2, bitsAt x.toNat 12 2,
   bitsAt x.toNat 14 2, bitsAt x.toNat 16 6, bitsAt x.toNat 22 3, bitsAt x.toNat 25 1, bitsAt x.toNat 26 2,
   bitsAt x.toNat 28 4, y, 0⟩

/-- The number of words of an instruction, by the L of its first word (R119). -/
def lengthWords (w : IWord) : Nat :=
  match w.toNat % 4 with
  | 0 => 1
  | 3 => 5
  | _ => 3

/-- The fields of the instruction at the head of a word list. L = 0b11 is no form of any major. -/
def split : List IWord → Except Reject Fields
  | [] => .error .truncated
  | w :: ws =>
    match w.toNat % 4, ws with
    | 0, _ => .ok (Fields.first w)
    | 1, x :: y :: _ => .ok (Fields.extended w x y)
    | 2, x :: y :: _ => .ok (Fields.mk (bitsAt w.toNat 0 2) (bitsAt w.toNat 2 6) (bitsAt w.toNat 8 6) (bitsAt w.toNat 14 6)
        (bitsAt w.toNat 20 6) (bitsAt w.toNat 26 6) 0 0 0 0 0 0 0 0 0 0 0 (BitVec.ofNat 64 (x.toNat + 2 ^ 32 * y.toNat)))
    | 3, _ :: _ :: _ :: _ :: _ => .error .length
    | _, _ => .error .truncated

namespace Fields

/-- The destination index (R121). -/
def rd (f : Fields) : Reg := BitVec.ofNat 8 (f.d.toNat + 64 * f.dh.toNat)

/-- The first source index (R121). -/
def ra (f : Fields) : Reg := BitVec.ofNat 8 (f.a.toNat + 64 * f.ah.toNat)

/-- The second source index (R121). -/
def rb (f : Fields) : Reg := BitVec.ofNat 8 (f.b.toNat + 64 * f.bh.toNat)

/-- Word 3 read sign-extended (R120). -/
def imm3 (f : Fields) : Word := f.w3.signExtend 64

/-- The form is the one-word or the extended one. -/
def formX (f : Fields) : Bool := f.l == 0 || f.l == 1

/-- No modifier and no third source stand in word 2, and its reserved bits are zero. -/
def noMods (f : Fields) : Bool :=
  f.c == 0 && f.scope == 0 && f.fmt == 0 && f.rm == 0 && f.sat == 0 && f.wait == 0 && f.top == 0

/-- A major that takes no modifier and no word 3 (R132 "none"). -/
def plain (f : Fields) : Bool := f.formX && f.noMods && f.w3 == 0 && f.lit == 0

/-- Such a major whose index fields have no high bits (R226, R240, R255, R275). -/
def plain6 (f : Fields) : Bool := f.plain && f.dh == 0 && f.ah == 0 && f.bh == 0

def noD (f : Fields) : Bool := f.d == 0 && f.dh == 0
def noA (f : Fields) : Bool := f.a == 0 && f.ah == 0
def noB (f : Fields) : Bool := f.b == 0 && f.bh == 0

end Fields

/-- `x` when the guard holds. -/
def when {α : Type} (g : Bool) (x : Option α) : Option α := if g then x else none

/-! Codes of the modifiers. -/

def ewOf (n : Nat) : Option EW := [EW.w8, .w16, .w32, .w64][n]?

def EW.code : EW → Nat
  | .w8 => 0 | .w16 => 1 | .w32 => 2 | .w64 => 3

/-- The bits of an element width (R159, R202). -/
def EW.bits : EW → Nat
  | .w8 => 8 | .w16 => 16 | .w32 => 32 | .w64 => 64

def mwOf (n : Nat) : Option MW := [MW.i8, .n8, .i16, .n16, .i32, .n32, .x64][n]?

def MW.code : MW → Nat
  | .i8 => 0 | .n8 => 1 | .i16 => 2 | .n16 => 3 | .i32 => 4 | .n32 => 5 | .x64 => 6

/-- Bytes of a width code (R127). -/
def MW.bytes : MW → Nat
  | .i8 => 1 | .n8 => 1 | .i16 => 2 | .n16 => 2 | .i32 => 4 | .n32 => 4 | .x64 => 8

def swOf (n : Nat) : Option SW := [SW.n32, .i32, .x64][n]?

def SW.code : SW → Nat
  | .n32 => 0 | .i32 => 1 | .x64 => 2

/-- Bytes of an access of major 0x1E (R195). -/
def SW.bytes : SW → Nat
  | .n32 => 4 | .i32 => 4 | .x64 => 8

def scopeOf (b : BitVec 2) : Scope :=
  match b.toNat with
  | 0 => .cell
  | 1 => .die
  | 2 => .module
  | _ => .system

def Scope.code : Scope → BitVec 2
  | .cell => 0 | .die => 1 | .module => 2 | .system => 3

def ffOf (n : Nat) : Option FF := [FF.f16, .bf16, .f32, .f64][n]?

def FF.code : FF → Nat
  | .f16 => 0 | .bf16 => 1 | .f32 => 2 | .f64 => 3

def rmOf (b : BitVec 3) : Option Rm := [Rm.rne, .rtz, .rup, .rdn, .rst][b.toNat]?

def Rm.code : Rm → BitVec 3
  | .rne => 0 | .rtz => 1 | .rup => 2 | .rdn => 3 | .rst => 4

/-- The format an fmt code names (R125); 0x00, the reserved codes and P = 0 name none. -/
def fmtOf (b : BitVec 6) : Option Fmt :=
  if 32 ≤ b.toNat then
    let p : BitVec 3 := BitVec.ofNat 3 b.toNat
    if p == 0 then none else some (.b8 p (b.getLsbD 3) (b.getLsbD 4))
  else
    [none, some (Fmt.int true .w8), some (.int true .w16), some (.int true .w32), some (.int true .w64),
     some (.int false .w8), some (.int false .w16), some (.int false .w32), some (.int false .w64),
     some (.wide .f16), some (.wide .bf16), some (.wide .f32), some (.wide .f64)].getD b.toNat none

def Fmt.code : Fmt → BitVec 6
  | .int s w => BitVec.ofNat 6 (1 + w.code + (if s then 0 else 4))
  | .wide f => BitVec.ofNat 6 (9 + f.code)
  | .b8 p n e => BitVec.ofNat 6 (32 + p.toNat + (if n then 8 else 0) + (if e then 16 else 0))

/-- The element width of majors 0x20 to 0x23: the minor in the one-word form, fmt 0x01 to 0x04 in the extended form (R205). -/
def elemWidth (f : Fields) : Option EW :=
  if f.l == 0 then ewOf (f.minor.toNat / 16)
  else when (f.minor.toNat / 16 == 0 && f.fmt != 0) (when (f.fmt.toNat ≤ 4) (ewOf (f.fmt.toNat - 1)))

/-- The wide format of majors 0x24, 0x28 and 0x2A: minor bits [27:26], or fmt in the extended form (R175, R214). -/
def wideFmt (f : Fields) : Option FF :=
  if f.l == 0 then ffOf (f.minor.toNat % 4)
  else when (f.minor.toNat % 4 == 0 && 9 ≤ f.fmt.toNat) (ffOf (f.fmt.toNat - 9))

/-- The scope of a major whose minor holds it from bit `s` of the minor on: word 2's in the extended form (R121). -/
def scopeAt (f : Fields) (s : Nat) : Option Scope :=
  if f.l == 0 then some (scopeOf (bitsAt f.minor.toNat s 2))
  else when (bitsAt f.minor.toNat s 2 == 0) (some (scopeOf f.scope))

/-- The wait field: 0b00, or 0b01 for `.try` (R120). -/
def waitOf (f : Fields) : Option Bool :=
  if f.wait == 0 then some false else when (f.wait == 1) (some true)

/-- An offset in b, scaled, or in word 3 with b and bh zero (R127, R192, R195, R198). -/
def scaledOff (f : Fields) (scale : Nat) : Option Word :=
  if f.l == 0 then some (BitVec.ofNat 64 (f.b.toNat * scale)) else when f.noB (some f.imm3)

/-- The memory operand of R127, for an access of `w` bytes. -/
def memOp (f : Fields) (w : Nat) : Option MemOp :=
  let k : BitVec 2 := bitsAt f.minor.toNat 3 2
  if f.minor.toNat / 32 == 1 then
    some ⟨f.ra, some (f.rb, k), if f.l == 0 then 0 else f.imm3⟩
  else when (k == 0) ((scaledOff f w).map fun o => ⟨f.ra, none, o⟩)

/-- The byte offset of a branch or a `loop`: q over d and the minor, or word 3 (R128). -/
def branchOffset (f : Fields) : Option Word :=
  if f.l == 0 then some (BitVec.signExtend 64 (BitVec.ofNat 14 (4 * (f.d.toNat + 64 * f.minor.toNat))))
  else when (f.noD && f.minor == 0 && f.w3.toNat % 4 == 0) (some f.imm3)

/-! One decoder per major, in the order of R132. -/

abbrev RRR := Reg → Reg → Reg → Instr

def aluOps : List RRR :=
  [.add, .sub, .mul, .mulh, .mulhn, .div, .divn, .rem, .remn, .and, .or, .xor, .andn, .orn, .shl, .shr, .sra, .rol, .ror,
   .min, .max, .minn, .maxn, .ceq, .cne, .clt, .cle, .cltn, .clen]

def decAlu (f : Fields) : Option Instr :=
  when f.plain ((aluOps[f.minor.toNat]?).map fun k => k f.rd f.ra f.rb)

def decAddi (f : Fields) : Option Instr :=
  when (f.noB && f.noMods) <|
    if f.l == 0 then some (.addi f.rd f.ra (f.minor.signExtend 64))
    else if f.l == 1 then when (f.minor == 0) (some (.addi f.rd f.ra f.imm3))
    else when (f.minor == 0) (some (.addi f.rd f.ra f.lit))

def decLi (f : Fields) : Option Instr :=
  when (f.noA && f.noMods) <|
    if f.l == 0 then some (.li f.rd (BitVec.signExtend 64 (BitVec.ofNat 12 (f.b.toNat + 64 * f.minor.toNat))))
    else if f.l == 1 then when (f.minor == 0 && f.noB) (some (.li f.rd f.imm3))
    else when (f.minor == 0 && f.noB) (some (.li f.rd f.lit))

def unaryOps : List (Reg → Reg → Instr) := [.abs, .clz, .ctz, .popc]

def decUnary (f : Fields) : Option Instr :=
  when (f.plain && f.noB) ((unaryOps[f.minor.toNat]?).map fun k => k f.rd f.ra)

def decExtend (f : Fields) : Option Instr :=
  when (f.plain && f.noB && f.minor.toNat < 8 && f.minor.toNat % 4 != 3) <|
    (ewOf (f.minor.toNat % 4)).map fun w => if f.minor.toNat / 4 == 0 then .sext w f.rd f.ra else .zext w f.rd f.ra

def decField (ins : Bool) (f : Fields) : Option Instr :=
  when (f.plain && f.bh == 0 && f.b.toNat + f.minor.toNat + 1 ≤ 64) <|
    some (if ins then .bins f.rd f.ra f.b f.minor else .bext f.rd f.ra f.b f.minor)

def decSel (f : Fields) : Option Instr :=
  when (f.l == 1 && f.minor == 0 && f.scope == 0 && f.fmt == 0 && f.rm == 0 && f.sat == 0 && f.wait == 0 && f.top == 0 &&
    f.w3 == 0) (some (.sel f.rd f.ra f.rb f.c))

def decLea (f : Fields) : Option Instr :=
  when (f.formX && f.noMods && f.minor.toNat % 8 == 0) ((memOp f 1).map fun m => .lea f.rd m)

def shiftOps : List (Reg → Reg → BitVec 6 → Instr) := [.shlImm, .shrImm, .sraImm, .rolImm, .rorImm]

def decShiftImm (f : Fields) : Option Instr :=
  when (f.formX && f.noMods && f.bh == 0) <|
    (shiftOps[f.b.toNat]?).bind fun k =>
      if f.l == 0 then some (k f.rd f.ra f.minor)
      else when (f.minor == 0 && f.w3.toNat < 64) (some (k f.rd f.ra (f.w3.setWidth 6)))

def decFullEmpty (f : Fields) : Option Instr :=
  when (f.formX && f.c == 0 && f.scope == 0 && f.fmt == 0 && f.rm == 0 && f.sat == 0 && f.top == 0) <|
    (waitOf f).bind fun t =>
      match f.minor.toNat with
      | 0 => (scaledOff f 8).map fun o => .ldfeK t f.rd f.ra o
      | 1 => (scaledOff f 8).map fun o => .ldfeE t f.rd f.ra o
      | 2 => (scaledOff f 8).map fun o => .stfe t f.rd f.ra o
      | 3 => when (f.noB && f.w3 == 0) (some (.stfer t f.rd f.ra))
      | 4 => when (f.noD && !t) ((scaledOff f 8).map fun o => .feset f.ra o)
      | 5 => when (f.noD && !t) ((scaledOff f 8).map fun o => .feclr f.ra o)
      | _ => none

def decLoop (f : Fields) : Option Instr :=
  when (f.formX && f.noMods && f.noB) ((branchOffset f).map fun o => .loop f.ra o)

def branchOps : List (Reg → Reg → Word → Instr) := [.beq, .bne, .blt, .bge, .bltn, .bgen]

def decBranch (f : Fields) : Option Instr :=
  when (f.formX && f.noMods) <|
    (branchOps[f.major.toNat - 0x10]?).bind fun k => (branchOffset f).map fun o => k f.ra f.rb o

def decCall (f : Fields) : Option Instr :=
  when (f.formX && f.noMods) <|
    if f.l == 0 then
      some (.call f.rd (BitVec.signExtend 64 (BitVec.ofNat 20 (4 * (f.a.toNat + 64 * f.b.toNat + 4096 * f.minor.toNat)))))
    else when (f.noA && f.noB && f.minor == 0 && f.w3.toNat % 4 == 0) (some (.call f.rd f.imm3))

def decCalli (f : Fields) : Option Instr :=
  when (f.plain && f.noB && f.minor == 0) (some (.calli f.rd f.ra))

def memOps : List (MW → Reg → MemOp → Instr) := [.ld, .st, .ldl, .stl]

def decMem (f : Fields) : Option Instr :=
  when (f.formX && f.noMods) <|
    (memOps[f.major.toNat - 0x18]?).bind fun k =>
      (mwOf (f.minor.toNat % 8)).bind fun w => (memOp f w.bytes).map fun m => k w f.rd m

def decVmem (f : Fields) : Option Instr :=
  when (f.formX && f.noMods && f.minor.toNat < 32) <|
    let w := f.minor.toNat / 8
    match f.minor.toNat % 8 with
    | 0 => when (w == 0) ((scaledOff f 64).map fun o => .ldv f.rd f.ra o)
    | 1 => when (w == 0) ((scaledOff f 64).map fun o => .stv f.rd f.ra o)
    | 2 => when (w == 0) ((scaledOff f 64).map fun o => .ldvl f.rd f.ra o)
    | 3 => when (w == 0) ((scaledOff f 64).map fun o => .stvl f.rd f.ra o)
    | 4 => when (f.w3 == 0) ((ewOf w).map fun e => .ldvs e f.rd f.ra f.rb)
    | 5 => when (f.w3 == 0) ((ewOf w).map fun e => .vgat e f.rd f.ra f.rb)
    | 6 => when (f.w3 == 0) ((ewOf w).map fun e => .vsca e f.rd f.ra f.rb)
    | _ => when (w == 0 && f.noD) ((scaledOff f 128).map fun o => .pf f.ra o)

def amoOps : List (Scope → Reg → Reg → Reg → Instr) :=
  [.amoAdd, .amoAnd, .amoOr, .amoXor, .amoMin, .amoMax, .amoMinn, .amoMaxn, .amoSwp, .amoCas]

/-- Word 2 holds a scope and no other modifier. -/
def Fields.scopeOnly (f : Fields) : Bool :=
  f.formX && f.c == 0 && f.fmt == 0 && f.rm == 0 && f.sat == 0 && f.wait == 0 && f.top == 0

def decAmo (f : Fields) : Option Instr :=
  when (f.scopeOnly && f.w3 == 0) <|
    (amoOps[f.minor.toNat % 16]?).bind fun k => (scopeAt f 4).map fun s => k s f.rd f.ra f.rb

def strongOps : List (SW → Scope → Reg → Reg → Word → Instr) := [.ldAcq, .stRel, .ldStr, .stStr]

def decStrong (f : Fields) : Option Instr :=
  when f.scopeOnly <|
    (strongOps[f.minor.toNat / 4 % 4]?).bind fun k =>
      (swOf (f.minor.toNat / 16)).bind fun w =>
        (scopeAt f 0).bind fun s => (scaledOff f w.bytes).map fun o => k w s f.rd f.ra o

def fenceOps : List (Scope → Instr) := [.fence, .fenceAcq, .fenceRel]

def decFence (f : Fields) : Option Instr :=
  when (f.scopeOnly && f.noD && f.noA && f.noB && f.w3 == 0) <|
    (fenceOps[f.minor.toNat / 4]?).bind fun k => (scopeAt f 0).map k

abbrev WRRR := EW → Reg → Reg → Reg → Instr
abbrev WRR := EW → Reg → Reg → Instr

/-- A table entry: the operation reads b, or leaves it zero. -/
inductive VOp where
  | rrr (k : WRRR)
  | rr (k : WRR)

def VOp.make (o : VOp) (w : EW) (f : Fields) : Option Instr :=
  match o with
  | .rrr k => some (k w f.rd f.ra f.rb)
  | .rr k => when f.noB (some (k w f.rd f.ra))

def vintOps : List VOp :=
  [.rrr .vadd, .rrr .vsub, .rrr .vmul, .rrr .vmac, .rrr .vmin, .rrr .vmax, .rrr .vand, .rrr .vor, .rrr .vxor, .rrr .vshl,
   .rrr .vshr, .rrr .vsra, .rr .vabs, .rr .vneg, .rrr .vminU, .rrr .vmaxU]

def varrOps : List VOp :=
  [.rrr .vperm, .rr .vbcast, .rrr .vextr, .rrr .vins, .rrr .vslideUp, .rrr .vslideDn, .rrr .vzipLo, .rrr .vzipHi,
   .rrr .vunzipEv, .rrr .vunzipOd]

def vredOps : List VOp := [.rr .vredsum, .rr .vredmax, .rr .vredmin, .rr .vredmaxU, .rr .vredminU]

/-- Word 2 holds an fmt and no other modifier but the third source. -/
def Fields.fmtOnly (f : Fields) : Bool :=
  f.formX && f.scope == 0 && f.rm == 0 && f.sat == 0 && f.wait == 0 && f.top == 0 && f.w3 == 0

def decVop (ops : List VOp) (f : Fields) : Option Instr :=
  when (f.fmtOnly && f.c == 0) <|
    (ops[f.minor.toNat % 16]?).bind fun o => (elemWidth f).bind fun w => o.make w f

def maskOps : List VOp :=
  [.rrr .vcmpEq, .rrr .vcmpNe, .rrr .vcmpLt, .rrr .vcmpLe, .rrr .vcmpLtU, .rrr .vcmpLeU]

def maskOps2 : List VOp := [.rrr .mand, .rrr .mor, .rr .mnot, .rr .mpopc]

def decMask (f : Fields) : Option Instr :=
  let o := f.minor.toNat % 16
  when f.fmtOnly <|
    if o == 6 then when (f.l == 1) ((elemWidth f).map fun w => .vsel w f.rd f.ra f.rb f.c)
    else when (f.c == 0) <|
      (if o < 6 then maskOps[o]? else maskOps2[o - 7]?).bind fun k => (elemWidth f).bind fun w => k.make w f

/-- Rounding mode and saturation of a floating major: rne and 0 in the one-word form. -/
def Fields.float (f : Fields) : Bool :=
  f.formX && f.c == 0 && f.scope == 0 && f.wait == 0 && f.top == 0 && f.w3 == 0

/-- A floating operation: the modifiers it takes and whether it reads b. -/
inductive FOp where
  | rrr (k : FF → Rm → Bool → Reg → Reg → Reg → Instr)
  | rr (k : FF → Rm → Bool → Reg → Reg → Instr)
  | rrrRm (k : FF → Rm → Reg → Reg → Reg → Instr)
  | rrRm (k : FF → Rm → Reg → Reg → Instr)
  | rrrNone (k : FF → Reg → Reg → Reg → Instr)
  | rrNone (k : FF → Reg → Reg → Instr)

def FOp.make (o : FOp) (t : FF) (m : Rm) (f : Fields) : Option Instr :=
  let s := f.sat == 1
  match o with
  | .rrr k => some (k t m s f.rd f.ra f.rb)
  | .rr k => when f.noB (some (k t m s f.rd f.ra))
  | .rrrRm k => when (!s) (some (k t m f.rd f.ra f.rb))
  | .rrRm k => when (!s && f.noB) (some (k t m f.rd f.ra))
  | .rrrNone k => when (!s && m == .rne) (some (k t f.rd f.ra f.rb))
  | .rrNone k => when (!s && m == .rne && f.noB) (some (k t f.rd f.ra))

def vfOps : List FOp :=
  [.rrr .vfadd, .rrr .vfsub, .rrr .vfmul, .rrrRm .vfma, .rrrNone .vfmax, .rrrNone .vfmin, .rr .vfrcp, .rr .vfexp2,
   .rr .vfredsum, .rrNone .vfredmax, .rrNone .vfredmin, .rrrNone .vfcmpEq, .rrrNone .vfcmpLt, .rrrNone .vfcmpLe,
   .rrrNone .vfcmpUn]

def sfOps : List FOp :=
  [.rrr .fadd, .rrr .fsub, .rrr .fmul, .rrr .fdiv, .rrrNone .fmin, .rrrNone .fmax, .rrrNone .fsgn, .rr .fsqrt, .rrNone .fabs,
   .rrNone .fneg, .rrNone .fclass, .rrRm .frnd]

def cmpOps : List FOp :=
  [.rrrNone .fcmpEq, .rrrNone .fcmpLt, .rrrNone .fcmpLe, .rrrNone .fcmpUn, .rrrNone .fcmpNe]

def decFloat (ops : List FOp) (vector : Bool) (f : Fields) : Option Instr :=
  when f.float <|
    (ops[f.minor.toNat / 4]?).bind fun o => (wideFmt f).bind fun t => (rmOf f.rm).bind fun m =>
      when (t.rounds m && !(vector && t == .f64)) (o.make t m f)

/-- The X-only conversions: a source format in the minor, a destination format in word 2 (R183, R219, R221). -/
def Fields.convert (f : Fields) : Bool :=
  f.l == 1 && f.c == 0 && f.scope == 0 && f.wait == 0 && f.top == 0 && f.w3 == 0

def decVcvt (f : Fields) : Option Instr :=
  when (f.convert && f.bh == 0 && f.b.toNat < 4) <|
    (fmtOf f.minor).bind fun ts => (fmtOf f.fmt).bind fun td => (rmOf f.rm).bind fun m =>
      when (vcvtLegal td ts m (f.b.setWidth 2)) (some (.vcvt td ts m (f.sat == 1) f.rd f.ra (f.b.setWidth 2)))

def decVquant (f : Fields) : Option Instr :=
  when (f.convert && 9 ≤ f.minor.toNat && f.minor.toNat ≤ 11) <|
    (ffOf (f.minor.toNat - 9)).bind fun ts => (fmtOf f.fmt).bind fun tb => (rmOf f.rm).bind fun m =>
      when tb.isB8 (some (.vquant tb ts m (f.sat == 1) f.rd f.ra f.rb))

def decVdeq (f : Fields) : Option Instr :=
  match f.minor.toNat % 4 with
  | 0 => when (f.convert && f.rm == 0 && f.sat == 0 && f.bh == 0 && f.b.toNat < 4) <|
      (ffOf (f.minor.toNat / 4)).bind fun td => (fmtOf f.fmt).bind fun tb =>
        when (vdeqLegal td tb (f.b.setWidth 2)) (some (.vdeq td tb f.rd f.ra (f.b.setWidth 2)))
  | 1 => when (f.plain && f.noB && f.minor.toNat / 4 == 0) (some (.vsclg f.rd f.ra))
  | 2 => when (f.plain && f.noB && f.minor.toNat / 4 == 0) (some (.vscls f.rd f.ra))
  | _ => none

def fmaOps : List (FF → Rm → Reg → Reg → Reg → Reg → Instr) := [.fma, .fms, .fnma]

def decFma (f : Fields) : Option Instr :=
  when (f.l == 1 && f.scope == 0 && f.sat == 0 && f.wait == 0 && f.top == 0 && f.w3 == 0) <|
    (fmaOps[f.minor.toNat / 4]?).bind fun k => (wideFmt f).bind fun t => (rmOf f.rm).bind fun m =>
      when (t.rounds m) (some (k t m f.rd f.ra f.rb f.c))

def decFcvt (f : Fields) : Option Instr :=
  when (f.convert && f.noB) <|
    (fmtOf f.minor).bind fun ts => (fmtOf f.fmt).bind fun td => (rmOf f.rm).bind fun m =>
      when (td.rounds m) (some (.fcvt td ts m (f.sat == 1) f.rd f.ra))

def decMatrix (f : Fields) : Option Instr :=
  when f.plain6 <|
    match f.minor.toNat with
    | 0 => when f.noB (some (.mlds f.rd f.ra))
    | 1 => when (f.noD && f.noA && f.noB) (some .mswp)
    | 2 => some (.mstr f.rd f.ra f.rb)
    | 3 => when (f.noD && f.noB) (some (.macz f.ra))
    | 4 => some (.macrd f.rd f.ra f.rb)
    | 5 => when (f.noD && f.noB) (some (.mfmt f.ra))
    | 6 => when (f.noA && f.noB) (some (.mstat f.rd))
    | 7 => when (f.noD && f.noA && f.noB) (some .mwait)
    | _ => none

def decTend (f : Fields) : Option Instr :=
  when (f.plain6 && f.minor == 0 && f.noD && f.noA && f.noB) (some .tend)

def decTcopy (f : Fields) : Option Instr :=
  when (f.plain6 && f.minor == 0) (some (.tcopy f.rd f.ra f.rb))

/-- The storage format of a minor (R246). -/
def stFmtOf (m : BitVec 6) : Option StFmt :=
  let f : StFmt := ⟨m.getLsbD 5, m.getLsbD 4, m.getLsbD 3, BitVec.ofNat 3 m.toNat⟩
  when f.legal (some f)

def StFmt.code (f : StFmt) : BitVec 6 :=
  BitVec.ofNat 6 (f.p.toNat + (if f.n then 8 else 0) + (if f.e then 16 else 0) + (if f.w then 32 else 0))

def decPack (un : Bool) (f : Fields) : Option Instr :=
  when f.plain6 <|
    (stFmtOf f.minor).map fun s => if un then .tunpk s f.rd f.ra f.rb else .tpack s f.rd f.ra f.rb

/-- Word 2 holds only a wait field, and no high index bits. -/
def Fields.waitOnly (f : Fields) : Bool :=
  f.formX && f.c == 0 && f.scope == 0 && f.fmt == 0 && f.rm == 0 && f.sat == 0 && f.top == 0 && f.w3 == 0 &&
  f.dh == 0 && f.ah == 0 && f.bh == 0

def decBarrier (f : Fields) : Option Instr :=
  when f.waitOnly <|
    (waitOf f).bind fun t =>
      match f.minor.toNat with
      | 0 => when (!t && f.noD && f.noB) (some (.bini f.ra))
      | 1 => when (!t && f.noD) (some (.bexp f.ra f.rb))
      | 2 => when (!t) (some (.barv f.rd f.ra f.rb))
      | 3 => when (t || f.noD) (some (.bwait t f.rd f.ra f.rb))
      | 4 => when (!t && f.noB) (some (.btest f.rd f.ra))
      | _ => none

def decSched (f : Fields) : Option Instr :=
  when f.waitOnly <|
    (waitOf f).bind fun t =>
      match f.minor.toNat with
      | 0 => when (!t && f.noD && f.noA && f.noB) (some .waitw)
      | 1 => when (!t && f.noD && f.noB) (some (.tabt f.ra))
      | 2 => when (!t && f.noB) (some (.tspawn f.rd f.ra))
      | 3 => when (!t && f.noB) (some (.evget f.rd f.ra))
      | 4 => when (t || f.noD) (some (.tbar t f.rd f.ra f.rb))
      | 5 => when (!t && f.noD && f.noA && f.noB) (some .yield)
      | 6 => when (!t && f.noD && f.noB) (some (.sleep f.ra))
      | 7 => when (!t && f.noA && f.noB) (some (.tick f.rd))
      | _ => none

def decFieldOp (f : Fields) : Option Instr :=
  when f.waitOnly <|
    (waitOf f).bind fun t =>
      when (!t || f.minor == 5) <|
        match f.minor.toNat with
        | 0 => when f.noB (some (.fdecl f.rd f.ra))
        | 1 => when f.noB (some (.fstart f.rd f.ra))
        | 2 => some (.fstop f.rd f.ra f.rb)
        | 3 => when f.noB (some (.fpause f.rd f.ra))
        | 4 => some (.fphase f.rd f.ra f.rb)
        | 5 => some (.fwaitb t f.rd f.ra f.rb)
        | 6 => some (.sget f.rd f.ra f.rb)
        | 7 => when (f.noD && f.noB) (some (.sput f.ra))
        | 8 => when f.noB (some (.snap f.rd f.ra))
        | 9 => some (.cplc f.rd f.ra f.rb)
        | 10 => when f.noB (some (.fmig f.rd f.ra))
        | 11 => when (f.noA && f.noB) (some (.rng f.rd))
        | 12 => when f.noB (some (.rngf f.rd f.ra))
        | 13 => some (.bern f.rd f.ra f.rb)
        | 14 => some (.samp f.rd f.ra f.rb)
        | _ => none

def ptstOps : List (Reg → Reg → Instr) := [.ptstGrant, .ptstRetract, .ptstHold, .ptstMove]

/-- The 12-bit state register number: concat(b, a) (R276). -/
def Fields.stNum (f : Fields) : BitVec 12 := BitVec.ofNat 12 (f.a.toNat + 64 * f.b.toNat)

def decSystem (f : Fields) : Option Instr :=
  if f.minor == 10 then
    when (f.formX && f.noMods && f.noD && f.noB && f.ah == 0) <|
      if f.l == 0 then some (.view (.reg f.ra))
      else when (f.a == 0 && f.w3.toNat < 2 ^ 30) (some (.view (.imm f.w3)))
  else
    when f.plain6 <|
      match f.minor.toNat with
      | 0 => when (f.noD && f.noA) (some (.trap f.b))
      | 1 => when (f.noD && f.noA && f.noB) (some .eret)
      | 2 => some (.stget f.rd f.stNum)
      | 3 => some (.stset f.rd f.stNum)
      | 4 => some (.stswp f.rd f.stNum)
      | 5 => when (f.noA && f.noB) (some (.ienb f.rd))
      | 6 => when (f.noA && f.noB) (some (.idis f.rd))
      | 7 => when (f.noD && f.noA && f.noB) (some .wfi)
      | 8 => when (f.b.toNat < 32) (some (.pool f.rd (bitsAt f.a.toNat 0 3) (bitsAt f.a.toNat 3 3) (f.b.setWidth 5)))
      | 9 => when (f.noA && f.b.toNat ≤ 8) (some (.poolq f.rd f.b))
      | 11 => when (f.noD && f.noB) (some (.cln f.ra))
      | 12 => when (f.noD && f.noB) (some (.inv f.ra))
      | 13 => when (f.noD && f.noB) (some (.clnp f.ra))
      | 14 => (ptstOps[f.d.toNat]?).map fun k => k f.ra f.rb
      | 15 => when f.noB (some (.genb f.rd f.ra))
      | 16 => when f.noB (some (.launch f.rd f.ra))
      | 17 => some (.fsvc f.rd f.ra f.rb)
      | 18 => when (f.noD && f.noA && f.noB) (some .halt)
      | 19 => when (f.noA && f.b.toNat ≤ 1) (some (.ident f.rd f.b))
      | _ => none

/-- The decoder of each major (R132); a major with no entry is reserved. -/
def decoderOf (major : Nat) : Option (Fields → Option Instr) :=
  match major with
  | 0x01 => some decAlu
  | 0x02 => some decAddi
  | 0x03 => some decLi
  | 0x04 => some decUnary
  | 0x05 => some decExtend
  | 0x06 => some (decField false)
  | 0x07 => some (decField true)
  | 0x08 => some decSel
  | 0x09 => some decLea
  | 0x0A => some decShiftImm
  | 0x0E => some decFullEmpty
  | 0x0F => some decLoop
  | 0x10 => some decBranch
  | 0x11 => some decBranch
  | 0x12 => some decBranch
  | 0x13 => some decBranch
  | 0x14 => some decBranch
  | 0x15 => some decBranch
  | 0x16 => some decCall
  | 0x17 => some decCalli
  | 0x18 => some decMem
  | 0x19 => some decMem
  | 0x1A => some decMem
  | 0x1B => some decMem
  | 0x1C => some decVmem
  | 0x1D => some decAmo
  | 0x1E => some decStrong
  | 0x1F => some decFence
  | 0x20 => some (decVop vintOps)
  | 0x21 => some decMask
  | 0x22 => some (decVop varrOps)
  | 0x23 => some (decVop vredOps)
  | 0x24 => some (decFloat vfOps true)
  | 0x25 => some decVcvt
  | 0x26 => some decVquant
  | 0x27 => some decVdeq
  | 0x28 => some (decFloat sfOps false)
  | 0x29 => some decFma
  | 0x2A => some (decFloat cmpOps false)
  | 0x2B => some decFcvt
  | 0x30 => some decMatrix
  | 0x38 => some decTend
  | 0x39 => some decTcopy
  | 0x3A => some (decPack false)
  | 0x3B => some (decPack true)
  | 0x3C => some decBarrier
  | 0x3D => some decSched
  | 0x3E => some decFieldOp
  | 0x3F => some decSystem
  | _ => none

/-- The instruction of a field record (R135). -/
def decodeFields (f : Fields) : Except Reject Instr :=
  match decoderOf f.major.toNat with
  | none => .error .major
  | some k => match k f with
    | none => .error .field
    | some i => .ok i

/-- The instruction at the head of a word list: total, and every other sequence is rejected by name (R135). -/
def decode (ws : List IWord) : Except Reject Instr :=
  match split ws with
  | .error r => .error r
  | .ok f => decodeFields f

/-- A little-endian word (R9). -/
def wordOfBytes (b0 b1 b2 b3 : Byte) : IWord :=
  BitVec.ofNat 32 (b0.toNat + 256 * b1.toNat + 65536 * b2.toNat + 16777216 * b3.toNat)

/-- The words of a byte list, as they stand in memory (R119). -/
def wordsOfBytes : List Byte → List IWord
  | b0 :: b1 :: b2 :: b3 :: bs => wordOfBytes b0 b1 b2 b3 :: wordsOfBytes bs
  | _ => []

/-- The instruction of the bytes at an address. -/
def decodeBytes (bs : List Byte) : Except Reject Instr := decode (wordsOfBytes bs)

/-- The bytes of a word, in memory order. -/
def bytesOfWord (w : IWord) : List Byte :=
  [bitsAt w.toNat 0 8, bitsAt w.toNat 8 8, bitsAt w.toNat 16 8, bitsAt w.toNat 24 8]

/-- The five words of an instruction whose bits are `w`, the first word in bits 31 to 0. -/
def tableWords (nbits w : Nat) : List IWord :=
  let x := w % 2 ^ nbits
  [bitsAt x 0 32, bitsAt x 32 32, bitsAt x 64 32, bitsAt x 96 32, bitsAt x 128 32]

/-- The bytes of those words as memory holds them. -/
def tableBytes (nbits w : Nat) : List Byte := (tableWords nbits w).flatMap bytesOfWord

/-- The instruction the decoder reads from an instruction whose bits are `w`, numbered as the opcode table numbers them. -/
def decodeTableWord (nbits w : Nat) : Option Instr :=
  match decodeBytes (tableBytes nbits w) with
  | .ok i => some i
  | .error _ => none

/-! The encoder: the shortest form that holds every operand (R130). -/

namespace Fields

/-- The first word (R119). -/
def word1 (f : Fields) : IWord :=
  BitVec.ofNat 32 (f.l.toNat + 2 ^ 2 * f.major.toNat + 2 ^ 8 * f.d.toNat + 2 ^ 14 * f.a.toNat + 2 ^ 20 * f.b.toNat +
    2 ^ 26 * f.minor.toNat)

/-- Word 2 of the extended form (R120). -/
def word2 (f : Fields) : IWord :=
  BitVec.ofNat 32 (f.c.toNat + 2 ^ 8 * f.dh.toNat + 2 ^ 10 * f.ah.toNat + 2 ^ 12 * f.bh.toNat + 2 ^ 14 * f.scope.toNat +
    2 ^ 16 * f.fmt.toNat + 2 ^ 22 * f.rm.toNat + 2 ^ 25 * f.sat.toNat + 2 ^ 26 * f.wait.toNat + 2 ^ 28 * f.top.toNat)

/-- The words of a field record. -/
def join (f : Fields) : List IWord :=
  match f.l.toNat with
  | 0 => [f.word1]
  | 1 => [f.word1, f.word2, f.w3]
  | 2 => [f.word1, bitsAt f.lit.toNat 0 32, bitsAt f.lit.toNat 32 32]
  | _ => []

end Fields

def lo6 (r : Reg) : BitVec 6 := r.setWidth 6
def hi2 (r : Reg) : BitVec 2 := bitsAt r.toNat 6 2

/-- One word where the condition holds, the extended form otherwise. -/
def form (short : Bool) : BitVec 2 := if short then 0 else 1

/-- A first word with an operation code and three indices, whose high bits go to word 2. -/
def encR (M op : BitVec 6) (d a b : Reg) : Fields :=
  ⟨form (small d && small a && small b), M, lo6 d, lo6 a, lo6 b, op, 0, hi2 d, hi2 a, hi2 b, 0, 0, 0, 0, 0, 0, 0, 0⟩

/-- Three indices without high bits, and a wait field. -/
def encW (M op : BitVec 6) (t : Bool) (d a b : Reg) : Fields :=
  ⟨form (!t), M, lo6 d, lo6 a, lo6 b, op, 0, 0, 0, 0, 0, 0, 0, 0, (if t then 1 else 0), 0, 0, 0⟩

/-- The offset fits the b field at this scale (R127, R192). -/
def fitsScaled (scale : Nat) (o : Word) : Bool := o.toNat % scale == 0 && o.toNat / scale < 64

/-- Two indices and an offset: in b, scaled, or in word 3. The scope stands at bits `s` and `s + 1` of the minor or in word 2. -/
def encOff (M op : BitVec 6) (scale : Nat) (t : Bool) (sc : BitVec 2) (s : Nat) (d a : Reg) (o : Word) : Fields :=
  if small d && small a && fitsScaled scale o && !t then
    ⟨0, M, lo6 d, lo6 a, BitVec.ofNat 6 (o.toNat / scale), BitVec.ofNat 6 (op.toNat + 2 ^ s * sc.toNat),
     0, 0, 0, 0, 0, 0, 0, 0, 0, 0, 0, 0⟩
  else
    ⟨1, M, lo6 d, lo6 a, 0, op, 0, hi2 d, hi2 a, 0, sc, 0, 0, 0, (if t then 1 else 0), 0, o.setWidth 32, 0⟩

/-- A memory operand of R127. -/
def encMem (M : BitVec 6) (code scale : Nat) (d : Reg) (m : MemOp) : Fields :=
  match m.index with
  | none => encOff M (BitVec.ofNat 6 code) scale false 0 0 d m.base m.imm
  | some (b, k) =>
    ⟨form (small d && small m.base && small b && m.imm == 0), M, lo6 d, lo6 m.base, lo6 b,
     BitVec.ofNat 6 (code + 8 * k.toNat + 32), 0, hi2 d, hi2 m.base, hi2 b, 0, 0, 0, 0, 0, 0, m.imm.setWidth 32, 0⟩

/-- A branch or a `loop`: q over d and the minor, or word 3 (R128). -/
def encBranch (M : BitVec 6) (a b : Reg) (o : Word) : Fields :=
  if small a && small b && fitsSigned 14 o then
    ⟨0, M, bitsAt o.toNat 2 6, lo6 a, lo6 b, bitsAt o.toNat 8 6, 0, 0, 0, 0, 0, 0, 0, 0, 0, 0, 0, 0⟩
  else ⟨1, M, 0, lo6 a, lo6 b, 0, 0, 0, hi2 a, hi2 b, 0, 0, 0, 0, 0, 0, o.setWidth 32, 0⟩

/-- An element width in minor bits [31:30] or in fmt (R205). -/
def encV (M : BitVec 6) (op : Nat) (w : EW) (d a b : Reg) : Fields :=
  if small d && small a && small b then
    ⟨0, M, lo6 d, lo6 a, lo6 b, BitVec.ofNat 6 (op + 16 * w.code), 0, 0, 0, 0, 0, 0, 0, 0, 0, 0, 0, 0⟩
  else
    ⟨1, M, lo6 d, lo6 a, lo6 b, BitVec.ofNat 6 op, 0, hi2 d, hi2 a, hi2 b, 0, BitVec.ofNat 6 (1 + w.code), 0, 0, 0, 0, 0, 0⟩

/-- A scope in minor bits [31:30] or in word 2 (R197). -/
def encAmo (op : Nat) (sc : Scope) (d a b : Reg) : Fields :=
  if small d && small a && small b then
    ⟨0, 0x1D, lo6 d, lo6 a, lo6 b, BitVec.ofNat 6 (op + 16 * sc.code.toNat), 0, 0, 0, 0, 0, 0, 0, 0, 0, 0, 0, 0⟩
  else ⟨1, 0x1D, lo6 d, lo6 a, lo6 b, BitVec.ofNat 6 op, 0, hi2 d, hi2 a, hi2 b, sc.code, 0, 0, 0, 0, 0, 0, 0⟩

/-- A wide format in minor bits [27:26] with rne and sat 0, or all three in word 2 (R175, R214). -/
def encF (M : BitVec 6) (op : Nat) (t : FF) (m : Rm) (s : Bool) (d a b : Reg) : Fields :=
  if small d && small a && small b && m == .rne && !s then
    ⟨0, M, lo6 d, lo6 a, lo6 b, BitVec.ofNat 6 (t.code + 4 * op), 0, 0, 0, 0, 0, 0, 0, 0, 0, 0, 0, 0⟩
  else
    ⟨1, M, lo6 d, lo6 a, lo6 b, BitVec.ofNat 6 (4 * op), 0, hi2 d, hi2 a, hi2 b, 0, BitVec.ofNat 6 (9 + t.code), m.code,
     (if s then 1 else 0), 0, 0, 0, 0⟩

/-- The X-only forms: a third source or a destination format in word 2. -/
def encX (M op : BitVec 6) (c : Reg) (fmt : BitVec 6) (m : Rm) (s : Bool) (d a b : Reg) : Fields :=
  ⟨1, M, lo6 d, lo6 a, lo6 b, op, c, hi2 d, hi2 a, hi2 b, 0, fmt, m.code, (if s then 1 else 0), 0, 0, 0, 0⟩

/-- `stget`, `stset` and `stswp`: concat(b, a) is the register number. -/
def encSt (op : BitVec 6) (d : Reg) (n : BitVec 12) : Fields :=
  ⟨0, 0x3F, lo6 d, bitsAt n.toNat 0 6, bitsAt n.toNat 6 6, op, 0, 0, 0, 0, 0, 0, 0, 0, 0, 0, 0, 0⟩

def encAddi (d a : Reg) (imm : Word) : Fields :=
  if small d && small a && fitsSigned 6 imm then
    ⟨0, 2, lo6 d, lo6 a, 0, imm.setWidth 6, 0, 0, 0, 0, 0, 0, 0, 0, 0, 0, 0, 0⟩
  else if fits32 imm then ⟨1, 2, lo6 d, lo6 a, 0, 0, 0, hi2 d, hi2 a, 0, 0, 0, 0, 0, 0, 0, imm.setWidth 32, 0⟩
  else ⟨2, 2, lo6 d, lo6 a, 0, 0, 0, 0, 0, 0, 0, 0, 0, 0, 0, 0, 0, imm⟩

def encLi (d : Reg) (imm : Word) : Fields :=
  if small d && fitsSigned 12 imm then
    ⟨0, 3, lo6 d, 0, bitsAt imm.toNat 0 6, bitsAt imm.toNat 6 6, 0, 0, 0, 0, 0, 0, 0, 0, 0, 0, 0, 0⟩
  else if fits32 imm then ⟨1, 3, lo6 d, 0, 0, 0, 0, hi2 d, 0, 0, 0, 0, 0, 0, 0, 0, imm.setWidth 32, 0⟩
  else ⟨2, 3, lo6 d, 0, 0, 0, 0, 0, 0, 0, 0, 0, 0, 0, 0, 0, 0, imm⟩

/-- A shift by immediate: the operation in b, the amount in imm6 or in word 3 (R163). -/
def encShift (op : BitVec 6) (d a : Reg) (k : BitVec 6) : Fields :=
  if small d && small a then ⟨0, 0x0A, lo6 d, lo6 a, op, k, 0, 0, 0, 0, 0, 0, 0, 0, 0, 0, 0, 0⟩
  else ⟨1, 0x0A, lo6 d, lo6 a, op, 0, 0, hi2 d, hi2 a, 0, 0, 0, 0, 0, 0, 0, k.setWidth 32, 0⟩

/-- `bext` and `bins`: position and length keep their place in both forms (R134). -/
def encBits (M : BitVec 6) (d a : Reg) (p l : BitVec 6) : Fields :=
  ⟨form (small d && small a), M, lo6 d, lo6 a, p, l, 0, hi2 d, hi2 a, 0, 0, 0, 0, 0, 0, 0, 0, 0⟩

def encCall (d : Reg) (o : Word) : Fields :=
  if small d && fitsSigned 20 o then
    ⟨0, 0x16, lo6 d, bitsAt o.toNat 2 6, bitsAt o.toNat 8 6, bitsAt o.toNat 14 6, 0, 0, 0, 0, 0, 0, 0, 0, 0, 0, 0, 0⟩
  else ⟨1, 0x16, lo6 d, 0, 0, 0, 0, hi2 d, 0, 0, 0, 0, 0, 0, 0, 0, o.setWidth 32, 0⟩

/-- The field record of an instruction; the steps of the hardware have none. -/
def encodeFields : Instr → Option Fields
  | .add d a b => some (encR 0x01 0 d a b)
  | .sub d a b => some (encR 0x01 1 d a b)
  | .mul d a b => some (encR 0x01 2 d a b)
  | .mulh d a b => some (encR 0x01 3 d a b)
  | .mulhn d a b => some (encR 0x01 4 d a b)
  | .div d a b => some (encR 0x01 5 d a b)
  | .divn d a b => some (encR 0x01 6 d a b)
  | .rem d a b => some (encR 0x01 7 d a b)
  | .remn d a b => some (encR 0x01 8 d a b)
  | .and d a b => some (encR 0x01 9 d a b)
  | .or d a b => some (encR 0x01 10 d a b)
  | .xor d a b => some (encR 0x01 11 d a b)
  | .andn d a b => some (encR 0x01 12 d a b)
  | .orn d a b => some (encR 0x01 13 d a b)
  | .shl d a b => some (encR 0x01 14 d a b)
  | .shr d a b => some (encR 0x01 15 d a b)
  | .sra d a b => some (encR 0x01 16 d a b)
  | .rol d a b => some (encR 0x01 17 d a b)
  | .ror d a b => some (encR 0x01 18 d a b)
  | .min d a b => some (encR 0x01 19 d a b)
  | .max d a b => some (encR 0x01 20 d a b)
  | .minn d a b => some (encR 0x01 21 d a b)
  | .maxn d a b => some (encR 0x01 22 d a b)
  | .ceq d a b => some (encR 0x01 23 d a b)
  | .cne d a b => some (encR 0x01 24 d a b)
  | .clt d a b => some (encR 0x01 25 d a b)
  | .cle d a b => some (encR 0x01 26 d a b)
  | .cltn d a b => some (encR 0x01 27 d a b)
  | .clen d a b => some (encR 0x01 28 d a b)
  | .addi d a imm => some (encAddi d a imm)
  | .li d imm => some (encLi d imm)
  | .abs d a => some (encR 0x04 0 d a 0)
  | .clz d a => some (encR 0x04 1 d a 0)
  | .ctz d a => some (encR 0x04 2 d a 0)
  | .popc d a => some (encR 0x04 3 d a 0)
  | .sext w d a => some (encR 0x05 (BitVec.ofNat 6 w.code) d a 0)
  | .zext w d a => some (encR 0x05 (BitVec.ofNat 6 (w.code + 4)) d a 0)
  | .bext d a p l => some (encBits 0x06 d a p l)
  | .bins d a p l => some (encBits 0x07 d a p l)
  | .sel d a b c => some (encX 0x08 0 c 0 .rne false d a b)
  | .lea d m => some (encMem 0x09 0 1 d m)
  | .shlImm d a k => some (encShift 0 d a k)
  | .shrImm d a k => some (encShift 1 d a k)
  | .sraImm d a k => some (encShift 2 d a k)
  | .rolImm d a k => some (encShift 3 d a k)
  | .rorImm d a k => some (encShift 4 d a k)
  | .ldfeK t d a o => some (encOff 0x0E 0 8 t 0 0 d a o)
  | .ldfeE t d a o => some (encOff 0x0E 1 8 t 0 0 d a o)
  | .stfe t d a o => some (encOff 0x0E 2 8 t 0 0 d a o)
  | .stfer t d a => some (⟨form (!t && small d && small a), 0x0E, lo6 d, lo6 a, 0, 3, 0, hi2 d, hi2 a, 0, 0, 0, 0, 0, (if t then 1 else 0), 0, 0, 0⟩)
  | .feset a o => some (encOff 0x0E 4 8 false 0 0 0 a o)
  | .feclr a o => some (encOff 0x0E 5 8 false 0 0 0 a o)
  | .loop a o => some (encBranch 0x0F a 0 o)
  | .beq a b o => some (encBranch 0x10 a b o)
  | .bne a b o => some (encBranch 0x11 a b o)
  | .blt a b o => some (encBranch 0x12 a b o)
  | .bge a b o => some (encBranch 0x13 a b o)
  | .bltn a b o => some (encBranch 0x14 a b o)
  | .bgen a b o => some (encBranch 0x15 a b o)
  | .call d o => some (encCall d o)
  | .calli d a => some (encR 0x17 0 d a 0)
  | .ld w d m => some (encMem 0x18 w.code w.bytes d m)
  | .st w d m => some (encMem 0x19 w.code w.bytes d m)
  | .ldl w d m => some (encMem 0x1a w.code w.bytes d m)
  | .stl w d m => some (encMem 0x1b w.code w.bytes d m)
  | .ldv d a o => some (encOff 0x1C 0 64 false 0 0 d a o)
  | .stv d a o => some (encOff 0x1C 1 64 false 0 0 d a o)
  | .ldvl d a o => some (encOff 0x1C 2 64 false 0 0 d a o)
  | .stvl d a o => some (encOff 0x1C 3 64 false 0 0 d a o)
  | .ldvs w d a b => some (encR 0x1C (BitVec.ofNat 6 (4 + 8 * w.code)) d a b)
  | .vgat w d a b => some (encR 0x1C (BitVec.ofNat 6 (5 + 8 * w.code)) d a b)
  | .vsca w d a b => some (encR 0x1C (BitVec.ofNat 6 (6 + 8 * w.code)) d a b)
  | .pf a o => some (encOff 0x1C 7 128 false 0 0 0 a o)
  | .amoAdd s d a b => some (encAmo 0 s d a b)
  | .amoAnd s d a b => some (encAmo 1 s d a b)
  | .amoOr s d a b => some (encAmo 2 s d a b)
  | .amoXor s d a b => some (encAmo 3 s d a b)
  | .amoMin s d a b => some (encAmo 4 s d a b)
  | .amoMax s d a b => some (encAmo 5 s d a b)
  | .amoMinn s d a b => some (encAmo 6 s d a b)
  | .amoMaxn s d a b => some (encAmo 7 s d a b)
  | .amoSwp s d a b => some (encAmo 8 s d a b)
  | .amoCas s d a b => some (encAmo 9 s d a b)
  | .ldAcq w s d a o => some (encOff 0x1E (BitVec.ofNat 6 (0 + 16 * w.code)) w.bytes false s.code 0 d a o)
  | .stRel w s d a o => some (encOff 0x1E (BitVec.ofNat 6 (4 + 16 * w.code)) w.bytes false s.code 0 d a o)
  | .ldStr w s d a o => some (encOff 0x1E (BitVec.ofNat 6 (8 + 16 * w.code)) w.bytes false s.code 0 d a o)
  | .stStr w s d a o => some (encOff 0x1E (BitVec.ofNat 6 (12 + 16 * w.code)) w.bytes false s.code 0 d a o)
  | .fence s => some (⟨0, 0x1F, 0, 0, 0, BitVec.ofNat 6 (0 + s.code.toNat), 0, 0, 0, 0, 0, 0, 0, 0, 0, 0, 0, 0⟩)
  | .fenceAcq s => some (⟨0, 0x1F, 0, 0, 0, BitVec.ofNat 6 (4 + s.code.toNat), 0, 0, 0, 0, 0, 0, 0, 0, 0, 0, 0, 0⟩)
  | .fenceRel s => some (⟨0, 0x1F, 0, 0, 0, BitVec.ofNat 6 (8 + s.code.toNat), 0, 0, 0, 0, 0, 0, 0, 0, 0, 0, 0, 0⟩)
  | .vadd w d a b => some (encV 0x20 0 w d a b)
  | .vsub w d a b => some (encV 0x20 1 w d a b)
  | .vmul w d a b => some (encV 0x20 2 w d a b)
  | .vmac w d a b => some (encV 0x20 3 w d a b)
  | .vmin w d a b => some (encV 0x20 4 w d a b)
  | .vmax w d a b => some (encV 0x20 5 w d a b)
  | .vand w d a b => some (encV 0x20 6 w d a b)
  | .vor w d a b => some (encV 0x20 7 w d a b)
  | .vxor w d a b => some (encV 0x20 8 w d a b)
  | .vshl w d a b => some (encV 0x20 9 w d a b)
  | .vshr w d a b => some (encV 0x20 10 w d a b)
  | .vsra w d a b => some (encV 0x20 11 w d a b)
  | .vminU w d a b => some (encV 0x20 14 w d a b)
  | .vmaxU w d a b => some (encV 0x20 15 w d a b)
  | .vabs w d a => some (encV 0x20 12 w d a 0)
  | .vneg w d a => some (encV 0x20 13 w d a 0)
  | .vcmpEq w d a b => some (encV 0x21 0 w d a b)
  | .vcmpNe w d a b => some (encV 0x21 1 w d a b)
  | .vcmpLt w d a b => some (encV 0x21 2 w d a b)
  | .vcmpLe w d a b => some (encV 0x21 3 w d a b)
  | .vcmpLtU w d a b => some (encV 0x21 4 w d a b)
  | .vcmpLeU w d a b => some (encV 0x21 5 w d a b)
  | .mand w d a b => some (encV 0x21 7 w d a b)
  | .mor w d a b => some (encV 0x21 8 w d a b)
  | .vsel w d a b c => some (encX 0x21 6 c (BitVec.ofNat 6 (1 + w.code)) .rne false d a b)
  | .mnot w d a => some (encV 0x21 9 w d a 0)
  | .mpopc w d a => some (encV 0x21 10 w d a 0)
  | .vperm w d a b => some (encV 0x22 0 w d a b)
  | .vextr w d a b => some (encV 0x22 2 w d a b)
  | .vins w d a b => some (encV 0x22 3 w d a b)
  | .vslideUp w d a b => some (encV 0x22 4 w d a b)
  | .vslideDn w d a b => some (encV 0x22 5 w d a b)
  | .vzipLo w d a b => some (encV 0x22 6 w d a b)
  | .vzipHi w d a b => some (encV 0x22 7 w d a b)
  | .vunzipEv w d a b => some (encV 0x22 8 w d a b)
  | .vunzipOd w d a b => some (encV 0x22 9 w d a b)
  | .vbcast w d a => some (encV 0x22 1 w d a 0)
  | .vredsum w d a => some (encV 0x23 0 w d a 0)
  | .vredmax w d a => some (encV 0x23 1 w d a 0)
  | .vredmin w d a => some (encV 0x23 2 w d a 0)
  | .vredmaxU w d a => some (encV 0x23 3 w d a 0)
  | .vredminU w d a => some (encV 0x23 4 w d a 0)
  | .vfadd f m s d a b => some (encF 0x24 0 f m s d a b)
  | .vfsub f m s d a b => some (encF 0x24 1 f m s d a b)
  | .vfmul f m s d a b => some (encF 0x24 2 f m s d a b)
  | .vfma f m d a b => some (encF 0x24 3 f m false d a b)
  | .vfmax f d a b => some (encF 0x24 4 f .rne false d a b)
  | .vfmin f d a b => some (encF 0x24 5 f .rne false d a b)
  | .vfrcp f m s d a => some (encF 0x24 6 f m s d a 0)
  | .vfexp2 f m s d a => some (encF 0x24 7 f m s d a 0)
  | .vfredsum f m s d a => some (encF 0x24 8 f m s d a 0)
  | .vfredmax f d a => some (encF 0x24 9 f .rne false d a 0)
  | .vfredmin f d a => some (encF 0x24 10 f .rne false d a 0)
  | .vfcmpEq f d a b => some (encF 0x24 11 f .rne false d a b)
  | .vfcmpLt f d a b => some (encF 0x24 12 f .rne false d a b)
  | .vfcmpLe f d a b => some (encF 0x24 13 f .rne false d a b)
  | .vfcmpUn f d a b => some (encF 0x24 14 f .rne false d a b)
  | .vcvt td ts m s d a p => some (encX 0x25 ts.code 0 td.code m s d a (p.setWidth 8))
  | .vquant tb ts m s d a b => some (encX 0x26 (BitVec.ofNat 6 (9 + ts.code)) 0 tb.code m s d a b)
  | .vdeq td tb d a p => some (encX 0x27 (BitVec.ofNat 6 (4 * td.code)) 0 tb.code .rne false d a (p.setWidth 8))
  | .vsclg d a => some (encR 0x27 1 d a 0)
  | .vscls d a => some (encR 0x27 2 d a 0)
  | .fadd f m s d a b => some (encF 0x28 0 f m s d a b)
  | .fsub f m s d a b => some (encF 0x28 1 f m s d a b)
  | .fmul f m s d a b => some (encF 0x28 2 f m s d a b)
  | .fdiv f m s d a b => some (encF 0x28 3 f m s d a b)
  | .fmin f d a b => some (encF 0x28 4 f .rne false d a b)
  | .fmax f d a b => some (encF 0x28 5 f .rne false d a b)
  | .fsgn f d a b => some (encF 0x28 6 f .rne false d a b)
  | .fsqrt f m s d a => some (encF 0x28 7 f m s d a 0)
  | .fabs f d a => some (encF 0x28 8 f .rne false d a 0)
  | .fneg f d a => some (encF 0x28 9 f .rne false d a 0)
  | .fclass f d a => some (encF 0x28 10 f .rne false d a 0)
  | .frnd f m d a => some (encF 0x28 11 f m false d a 0)
  | .fma f m d a b c => some (encX 0x29 0 c (BitVec.ofNat 6 (9 + f.code)) m false d a b)
  | .fms f m d a b c => some (encX 0x29 4 c (BitVec.ofNat 6 (9 + f.code)) m false d a b)
  | .fnma f m d a b c => some (encX 0x29 8 c (BitVec.ofNat 6 (9 + f.code)) m false d a b)
  | .fcmpEq f d a b => some (encF 0x2A 0 f .rne false d a b)
  | .fcmpLt f d a b => some (encF 0x2A 1 f .rne false d a b)
  | .fcmpLe f d a b => some (encF 0x2A 2 f .rne false d a b)
  | .fcmpUn f d a b => some (encF 0x2A 3 f .rne false d a b)
  | .fcmpNe f d a b => some (encF 0x2A 4 f .rne false d a b)
  | .fcvt td ts m s d a => some (encX 0x2B ts.code 0 td.code m s d a 0)
  | .mlds d a => some (encW 0x30 0 false d a 0)
  | .mswp => some (encW 0x30 1 false 0 0 0)
  | .mstr d a b => some (encW 0x30 2 false d a b)
  | .macz a => some (encW 0x30 3 false 0 a 0)
  | .macrd d a b => some (encW 0x30 4 false d a b)
  | .mfmt a => some (encW 0x30 5 false 0 a 0)
  | .mstat d => some (encW 0x30 6 false d 0 0)
  | .mwait => some (encW 0x30 7 false 0 0 0)
  | .tend => some (encW 0x38 0 false 0 0 0)
  | .tcopy d a b => some (encW 0x39 0 false d a b)
  | .tpack f d a b => some (encW 0x3A f.code false d a b)
  | .tunpk f d a b => some (encW 0x3B f.code false d a b)
  | .bini a => some (encW 0x3C 0 false 0 a 0)
  | .bexp a b => some (encW 0x3C 1 false 0 a b)
  | .barv d a b => some (encW 0x3C 2 false d a b)
  | .bwait t d a b => some (encW 0x3C 3 t d a b)
  | .btest d a => some (encW 0x3C 4 false d a 0)
  | .waitw => some (encW 0x3D 0 false 0 0 0)
  | .tabt a => some (encW 0x3D 1 false 0 a 0)
  | .tspawn d a => some (encW 0x3D 2 false d a 0)
  | .evget d a => some (encW 0x3D 3 false d a 0)
  | .tbar t d a b => some (encW 0x3D 4 t d a b)
  | .yield => some (encW 0x3D 5 false 0 0 0)
  | .sleep a => some (encW 0x3D 6 false 0 a 0)
  | .tick d => some (encW 0x3D 7 false d 0 0)
  | .fdecl d a => some (encW 0x3E 0 false d a 0)
  | .fstart d a => some (encW 0x3E 1 false d a 0)
  | .fstop d a b => some (encW 0x3E 2 false d a b)
  | .fpause d a => some (encW 0x3E 3 false d a 0)
  | .fphase d a b => some (encW 0x3E 4 false d a b)
  | .fwaitb t d a b => some (encW 0x3E 5 t d a b)
  | .sget d a b => some (encW 0x3E 6 false d a b)
  | .sput a => some (encW 0x3E 7 false 0 a 0)
  | .snap d a => some (encW 0x3E 8 false d a 0)
  | .cplc d a b => some (encW 0x3E 9 false d a b)
  | .fmig d a => some (encW 0x3E 10 false d a 0)
  | .rng d => some (encW 0x3E 11 false d 0 0)
  | .rngf d a => some (encW 0x3E 12 false d a 0)
  | .bern d a b => some (encW 0x3E 13 false d a b)
  | .samp d a b => some (encW 0x3E 14 false d a b)
  | .trap k => some (⟨0, 0x3F, 0, 0, k, 0, 0, 0, 0, 0, 0, 0, 0, 0, 0, 0, 0, 0⟩)
  | .eret => some (encW 0x3F 1 false 0 0 0)
  | .stget d n => some (encSt 2 d n)
  | .stset d n => some (encSt 3 d n)
  | .stswp d n => some (encSt 4 d n)
  | .ienb d => some (encW 0x3F 5 false d 0 0)
  | .idis d => some (encW 0x3F 6 false d 0 0)
  | .wfi => some (encW 0x3F 7 false 0 0 0)
  | .pool d x y m => some (⟨0, 0x3F, lo6 d, BitVec.ofNat 6 (x.toNat + 8 * y.toNat), m.setWidth 6, 8, 0, 0, 0, 0, 0, 0, 0, 0, 0, 0, 0, 0⟩)
  | .poolq d n => some (⟨0, 0x3F, lo6 d, 0, n, 9, 0, 0, 0, 0, 0, 0, 0, 0, 0, 0, 0, 0⟩)
  | .view (.reg a) => some (encW 0x3F 10 false 0 a 0)
  | .view (.imm v) => some (⟨1, 0x3F, 0, 0, 0, 10, 0, 0, 0, 0, 0, 0, 0, 0, 0, 0, v, 0⟩)
  | .cln a => some (encW 0x3F 11 false 0 a 0)
  | .inv a => some (encW 0x3F 12 false 0 a 0)
  | .clnp a => some (encW 0x3F 13 false 0 a 0)
  | .ptstGrant a b => some (encW 0x3F 14 false 0 a b)
  | .ptstRetract a b => some (encW 0x3F 14 false 1 a b)
  | .ptstHold a b => some (encW 0x3F 14 false 2 a b)
  | .ptstMove a b => some (encW 0x3F 14 false 3 a b)
  | .genb d a => some (encW 0x3F 15 false d a 0)
  | .launch d a => some (encW 0x3F 16 false d a 0)
  | .fsvc d a b => some (encW 0x3F 17 false d a b)
  | .halt => some (encW 0x3F 18 false 0 0 0)
  | .ident d n => some (⟨0, 0x3F, lo6 d, 0, n, 19, 0, 0, 0, 0, 0, 0, 0, 0, 0, 0, 0, 0⟩)
  | _ => none

/-- The words of an instruction; no words for a step of the hardware. -/
def encode (i : Instr) : List IWord :=
  match encodeFields i with
  | some f => f.join
  | none => []

end Sys2Proof
end

