-- ==== Sys2Proof/Config.lean ====
section
/-! DEFINITION. What one part number fixes and the spec leaves open: free values, hashes, fused values. -/

namespace Sys2Proof.Config

/-- A value the spec leaves open, by the count of such values the machine has taken (LOG 2). No body: nothing is known of it. -/
opaque freeValue : Nat → BitVec 64

/-- Which of `n` admissible choices an implementation makes where R41 leaves a victim open (LOG 2). -/
opaque choice : Nat → Nat

/-- The home hash of a line: its line number, the seed, and the die set or mask give a number (R107). -/
opaque homeHash : Nat → Nat → Nat → Nat

/-- The agent hash of a page: ASID, page and die set give a number (R340). -/
opaque agentHash : Nat → Nat → Nat → Nat

/-- SM3, the hash of the boot chain (R392); the spec names it and does not define it. -/
opaque sm3 : List (BitVec 8) → BitVec 256

/-- A key, an image and a signature over the image's SM3 digest that SM2 accepts: there are some. -/
opaque sm2Known : List (BitVec 8) × List (BitVec 8) × List (BitVec 8)

/-- The others that SM2 accepts. -/
opaque sm2Other : List (BitVec 8) → BitVec 256 → List (BitVec 8) → Bool

/-- Verification of an SM2 signature with a public key: key, hash, signature (R392). -/
def sm2Verify (key : List (BitVec 8)) (digest : BitVec 256) (sig : List (BitVec 8)) : Bool :=
  (key, digest, sig) == (sm2Known.1, sm3 sm2Known.2.1, sm2Known.2.2) || sm2Other key digest sig

/-- The SM2 signature of the module's attestation key over a hash (R393). -/
opaque sm2Sign : BitVec 256 → List (BitVec 8)

/-- The stepping byte of `ident` selector 0 (R295): it may differ from module to module. -/
opaque stepping : BitVec 8

/-- The fused alarm threshold of a rail, in mA (R403). -/
opaque ithr : Nat

/-- The fused DCOEF value of a die (R403). -/
opaque dcoef : Nat → BitVec 64

/-- The fused table VFT: the largest m a die runs at a voltage code, by die and code (R403); `vft` adds what R408 states of it. -/
opaque vftFused : Nat → Nat → Nat

/-- Whether the mean of the middle two of an even number of readings, where it is no whole degree, is rounded up (R414, LOG 12). -/
opaque medianUp : Int → Int → Bool

/-- The fused digest of the firmware key (R392). -/
opaque keyh : BitVec 256

/-- What the fuses of a port's DMA ceiling hold: a die, a page of its stack, a number of further pages (R394). -/
opaque dmaFuse : Nat → Nat × Nat × Nat

/-- The fused DMA ceiling of a port: the lowest page, which some stack holds, and the page past the highest (R394, LOG 11). -/
def dmaCeiling (port : Nat) : Nat × Nat :=
  let lo := (dmaFuse port).1 % 54 * 2 ^ 20 + (dmaFuse port).2.1 % 0xC0000
  (lo, min (2 ^ 36 - 1) (lo + 1 + (dmaFuse port).2.2))

end Sys2Proof.Config
end

