-- ==== Sys2Proof/Machine/State.lean ====
section
/-! DEFINITION. Everything the spec gives the module to hold, as plain data, and the machine right after reset. -/

namespace Sys2Proof.Machine

/-- Who acts: the harts of the focused cell, in slot order, or a Headstock core. -/
inductive Agent where
  | cell (no : Nat)
  | core (n : Nat)
  deriving DecidableEq, Repr

/-- Why the machine stops with no next state. -/
inductive Fault where
  /-- Raised by no step of this model: every fault the spec describes is a trap, a record or a code, and the module goes on. Safe. -/
  | never
  deriving DecidableEq, Repr

/-- Why a step has no meaning here. -/
inductive Refusal where
  /-- Raised by the dispatch for an instruction that has no meaning yet. Safe: nothing can be proved of what it does. -/
  | notModelled (mnemonic : String)
  deriving DecidableEq, Repr

/-- The three privilege levels (R13). -/
inductive Level where
  | u | s | f
  deriving DecidableEq, Repr

/-- What a hart in WAIT waits for (R19); `remote` is the full/empty row for `stfer` (R117). -/
inductive WaitCause where
  | data | fetch | barrier | fullEmpty | remote | queue | teamBarrier | boundary | sleep | wfi
  deriving DecidableEq, Repr

/-- The states of R18; PAUSED lies over one of them (R28) and is a field of its own. -/
inductive HartState where
  | absent
  | run
  | wait (c : WaitCause)
  | park (spindle : Bool)
  deriving DecidableEq, Repr

/-- The trap block of one level (R277). -/
structure TrapBlock where
  stat  : Word
  vec   : Word
  cause : Word
  val   : Word
  pc    : Word
  ie    : Word
  ip    : Word
  scr   : Word
  del   : Word
  deriving DecidableEq, Repr

/-- The kinds of an access (R196). -/
inductive AccKind where
  | weak | strong | acq | rel
  deriving DecidableEq, Repr

/-- One store not yet performed: a STAGE record (R66) or a store held behind a release (R196). -/
structure StoreRec where
  addr  : Nat
  bytes : List Byte
  sb    : List Byte
  kind  : AccKind
  sc    : Scope
  /-- Copy commands whose pushes the store must follow (R196). -/
  after : List Nat
  /-- The level the hart issued it at: its access is checked at that level (R196, R339). -/
  level : Level
  deriving DecidableEq, Repr

/-- The causes of R280; the service call carries its operand. -/
inductive Cause where
  | illegal | illegalReg | privilege | misaligned | access | page | uncorrectable
  /-- An uncorrectable error, and the frame lies on a failed die (R372). -/
  | lost
  | feLimit | engine | fieldRoutine | breakpoint | service
  deriving DecidableEq, Repr

/-- A write check of a store outside REPLAY (R189): the pieces asked for (address, bytes), and the answer. A fetch keeps the fault
of its fill here (R138). -/
inductive WriteCheck where
  | idle
  | sent (pieces : List (Nat × Nat))
  | passed
  | failed (c : Cause) (addr : Nat)
  deriving DecidableEq, Repr

/-- A request that a hart issues again until it is answered (R49, R257). -/
inductive Req where
  | idle
  | sent
  | answered (v : Word)
  deriving DecidableEq, Repr

/-- How a REPLAY attempt ends early (R66, R67). -/
inductive EndKind where
  | parkOn (page : Nat)
  | again (reason : Nat)
  | failed (reason detail : Nat)
  deriving DecidableEq, Repr

/-- A node spawned by an attempt and held to its `tend` (R251). -/
structure Spawn where
  index : Nat
  words : List Word
  deriving DecidableEq, Repr

/-- The task a hart holds from dispatch to its record (R64, R66). -/
structure Task where
  launch  : Nat
  team    : Nat
  node    : Nat
  attempt : Nat
  replay  : Bool
  stage   : List StoreRec
  spawns  : List Spawn
  /-- Lines whose write check has not answered (R190). -/
  checks  : List Nat
  /-- Set when an event has ended the attempt; the abort waits for the task's commands to retire (R67). -/
  ending  : Option EndKind
  /-- The minimum profile of the node (R43). -/
  minimum : Word
  deriving DecidableEq, Repr

/-- The site a sweep hart holds (R85, R86). -/
structure Hand where
  launch : Nat
  team   : Nat
  handle : Nat
  site   : Nat
  /-- Tick of the hand; none once the routine limit has acted (R88). -/
  tick   : Option Nat
  deriving DecidableEq, Repr

/-- A record of R68. -/
structure TaskRecord where
  node    : Nat
  launch  : Nat
  team    : Nat
  kind    : Nat
  precise : Bool
  hart    : Nat
  attempt : Nat
  reason  : Nat
  detail  : Nat
  /-- Not part of the record: the minimum profile that counts until it is written (R43). -/
  minimum : Word
  /-- Not part of the record: the page on which the node parks once it is written (R67, R353). -/
  page    : Option Nat
  deriving DecidableEq, Repr

/-- The rights of a page (R338). -/
structure Perm where
  r : Bool
  w : Bool
  x : Bool
  u : Bool
  deriving DecidableEq, Repr

/-- What an access has been answered with: the line's number, its data and sideband as the access takes them, whether a cell may keep the line, and
the failure. -/
structure Got where
  line  : Nat
  data  : List Byte
  sb    : List Byte
  held  : Bool
  fault : Option Cause
  deriving DecidableEq, Repr

/-- A hart (R13): its registers, its wait and its task. -/
structure Hart where
  pc     : Word
  /-- Next pc of the instruction in issue or waiting (R137). -/
  npc    : Word
  /-- First word of that instruction, the trap value of R136. -/
  ir     : IWord
  level  : Level
  st     : HartState
  paused : Bool
  /-- Window bytes and their sideband bytes by window offset (R36, R32). -/
  win    : Mem
  winSb  : Mem
  wsize  : Nat
  views  : Word
  fflags : Word
  rngs   : Word
  fetry  : Word
  fwl    : Word
  lcnt   : Word
  lsta   : Word
  lend   : Word
  /-- Pending loop writes (R171). -/
  pcnt   : Option Word
  psta   : Option Word
  pend   : Option Word
  tcmp   : Word
  tu     : TrapBlock
  ts     : TrapBlock
  tf     : TrapBlock
  hwin   : Word
  task   : Option Task
  hand   : Option Hand
  /-- The waiting instruction (R19). -/
  winstr : Option Instr
  /-- The awaited event has occurred (R19). -/
  woken  : Bool
  /-- Tick at which the full/empty limit began to run (R71, R117). -/
  since  : Option Nat
  req    : Req
  check  : WriteCheck
  /-- Bytes an instruction has read over several slots (R274). -/
  buf    : List Byte
  /-- The instruction has issued before (R49, R254). -/
  again  : Bool
  /-- Stores the cell's store path holds behind a release (R196), oldest first. -/
  held   : List StoreRec
  /-- Copy commands a `fence.rel` of the hart holds later stores behind (R196). -/
  relAfter : List Nat
  /-- A node has been chosen for the hart and its Chuck has not started it (R64): the node's task. -/
  chosen : Option Task
  /-- A record of the hart that a full ring holds back (R69). -/
  heldRec : Option TaskRecord
  stopped : Bool
  /-- Stopped for a swap at a slot boundary (R74), and the cause of the wait that was abandoned then (R400). -/
  frozen  : Bool
  left    : Option WaitCause
  /-- Failures of its copy commands, each to be taken in a slot of the hart (R244): the cause and the address, oldest first. -/
  engErr : List (Cause × Nat)
  /-- The number of its last `pool` (R49): the model's own field. -/
  ticket : Nat
  /-- Stores that have ever been held behind a release: the model's own field. -/
  heldNo : Nat
  /-- The cell cycle before which the answer to its miss or its write check cannot have come (R320). -/
  ready  : Nat
  /-- The misses that its instruction waits for, and what others of them have been answered with (R186, R320). -/
  asks   : List Nat
  got    : List Got
  deriving DecidableEq, Repr

/-- A line of a cell's CACHE or CODE (R41): data, sideband, rights, kept bit, the words it still holds (R106, R359) and the words
registered to the cell. -/
structure CLine where
  key   : LineKey
  data  : List Byte
  sb    : List Byte
  perm  : Perm
  kept  : Bool
  valid : BitVec 16
  regs  : BitVec 16
  deriving DecidableEq, Repr

/-- A commanded operation of the matrix engine, with the operands it read at issue (R226). -/
inductive MatOp where
  | mlds (obj src : Nat)
  | mswp
  | mstr (obj src tile rows : Nat)
  | macz (tile rows : Nat)
  | macrd (obj dst tile rows : Nat) (fmt : BitVec 6) (q clr : Bool) (rm : Rm) (sat : Bool)
  | mfmt (w : Word)
  deriving DecidableEq, Repr

/-- A queued matrix command (R229): when it entered and started, how it runs, and what its accesses have met. -/
structure MatCmd where
  slot    : Slot
  op      : MatOp
  entered : Nat
  start   : Option Nat
  narrow  : Bool
  /-- Format word and active plane in effect at the start (R232). -/
  fmtWord : Word
  plane   : Bool
  /-- Cycles by which the load port has yielded (R229). -/
  slip    : Nat
  /-- Granules read and held: activation rows, weights, tile rows (R230). -/
  buf     : List (Nat × List Byte × List Byte)
  /-- Numbers of the pieces met by a failure (R230). -/
  bad     : List Nat
  /-- Commands whose pushes its accesses must follow, and the number of stores held at the hart's entry that they must follow (R109, R196,
  R228). -/
  after   : List Nat
  upto    : Nat
  deriving DecidableEq, Repr

/-- A credit still to come on a LOCAL object of the cell (R230, R245): in the cycle, on the object. -/
structure Credit where
  cycle : Nat
  obj   : Nat
  bytes : Nat
  bad   : Bool
  /-- The copy command it belongs to, if any. -/
  cmd   : Option Nat
  deriving DecidableEq, Repr

/-- What a copy-engine command does (R241, R246): descriptor values read at issue. -/
inductive CopyOp where
  | tile (words : List Word) (robj : Nat)
  | pack (f : StFmt) (un : Bool) (addr loc count : Nat)
  deriving DecidableEq, Repr

/-- The team a cell serves (R15): launch, team number, team coordinates. -/
structure Serving where
  launch : Nat
  team   : Nat
  tx     : Nat
  ty     : Nat
  deriving DecidableEq, Repr

/-- A queued copy command (R243). -/
structure CopyCmd where
  id      : Nat
  slot    : Slot
  asid    : Nat
  level   : Level
  op      : CopyOp
  obj     : Nat
  entered : Nat
  started : Bool
  /-- The next piece: its run, or block, and its first byte in the run. -/
  run     : Nat
  pos     : Nat
  /-- The engine port is held up to this cycle (R243). -/
  portTo  : Nat
  /-- Port cycles the next piece has had, the granules it has read in them with their sideband bytes, and whether one of them could not be
  read (R243). -/
  got     : Nat
  buf     : List Byte
  sb      : List Byte
  bad     : Bool
  /-- A global-side failure has been reported to the hart (R244). -/
  failed  : Bool
  /-- The task the command belongs to: launch, node, attempt. -/
  owner   : Option (Nat × Nat × Nat)
  serving : Option Serving
  /-- Commands whose pushes its accesses must follow, and the number of held stores that they must follow (R109, R196, R242). -/
  after   : List Nat
  upto    : Nat
  deriving DecidableEq, Repr

/-- Where a piece is (R243, R389). -/
inductive Flight where
  /-- Its global accesses wait for their answers: their numbers, in the order of their addresses. -/
  | asked (ids : List Nat)
  /-- Its data come to the LOCAL of the cell that issued it. -/
  | own
  /-- On its way to a peer cell; at the peer cell; its credit on its way back. -/
  | travel
  | peer
  | credit (bad : Bool)
  /-- To be credited on the sender's object. -/
  | done (bad : Bool)
  deriving DecidableEq, Repr

/-- A piece of a copy command not yet credited (R243 to R245), held at the cell that issued it; oldest first. -/
structure Push where
  cmd   : Nat
  /-- The number of its packet, where it travels. -/
  id    : Nat
  obj   : Nat
  size  : Nat
  /-- The cell a peer piece was sent to, and the team coordinates it names (R386). -/
  cell  : Nat
  tx    : Nat
  ty    : Nat
  serving : Option Serving
  off   : Nat
  bytes : List Byte
  sb    : List Byte
  robj  : Nat
  state : Flight
  /-- Granules written (R243), and the cycle of its target, or of its sender for a credit, from which it can be acted on (R389). -/
  wrote : Nat
  ready : Nat
  /-- The global-side failure that made it bad (R244). -/
  fault : Option (Cause × Nat)
  deriving DecidableEq, Repr

/-- The progress of a re-division (R45, R46): the source's handshake, the granules of `moves` copied so far, the zeroing cycles left. -/
inductive RedivPhase where
  | handshake
  | relocate (granule : Nat)
  | zero (left : Nat)
  | switch
  deriving DecidableEq, Repr

/-- A `pool` that waits its turn, with its operands: it runs whether or not its hart still waits for the code (R49, R67). -/
structure PoolReq where
  slot   : Slot
  ticket : Nat
  src    : Nat
  dst    : Nat
  m      : Nat
  deriving DecidableEq, Repr

/-- A re-division of the pool, one at a time (R49). -/
structure Rediv where
  slot  : Slot
  /-- The `pool` that asked for it. -/
  ticket : Nat
  src   : Nat
  dst   : Nat
  m     : Nat
  phase : RedivPhase
  /-- The cell cycle in which its handshake began (R46). -/
  began : Nat
  /-- Banks chosen for the destination (R47) and LOCAL moves (bank, target). -/
  take  : List Nat
  moves : List (Nat × Nat)
  deriving DecidableEq, Repr

/-- A team-barrier episode of a cell (R253). -/
structure Tbar where
  word    : IWord
  mask    : BitVec 16
  arrived : BitVec 16
  deriving DecidableEq, Repr

/-- Which of a cell's harts have an episode that has ended and not been seen (R253). -/
structure TbarDone where
  word : IWord
  slot : Slot
  deriving DecidableEq, Repr

/-- A clock of cell cycles (R7, R9, R27): the present cycle, the tick in which it begins, the part of a tick past it in `m`-ths of a tick, and
the rail clock step. -/
structure Clk where
  cycle : Nat
  tick  : Nat
  acc   : Nat
  m     : Nat
  deriving DecidableEq, Repr

/-- A cell: its wheel, its pool and its engines. -/
structure Cell where
  no      : Nat
  cycle   : Nat
  /-- The tick in which the present cycle begins, and the part of a tick past it, in `m`-ths of a tick (R7, R9, R27). -/
  tick    : Nat
  acc     : Nat
  harts   : Vector Hart 16
  /-- Power of the cell (R403, R405): divider 1 to 4, switch, scap, prot, hardware cap, removed slots. -/
  div     : Nat
  newDiv  : Option Nat
  /-- The rail clock step the cell runs at (R27). -/
  m       : Nat
  on      : Bool
  scap    : Nat
  prot    : BitVec 16
  removed : BitVec 16
  /-- The power notice is to reach slot 0 at the end of this cycle (R11, R28). -/
  notice  : Bool
  /-- The current window it has counted vector instructions in last, their number, and the number of the window before (R407). -/
  vwin    : Nat
  vnew    : Nat
  vold    : Nat
  serving : Option Serving
  nres    : Nat
  /-- Bank map entries of R35. -/
  banks   : Vector Byte 32
  high    : Word
  quota   : Word
  floor   : Word
  loc     : Mem
  locSb   : Mem
  /-- Granules of LOCAL that hold an uncorrectable error (R115, R230). -/
  locBad  : List Nat
  mat     : Mem
  matSb   : Mem
  aplane  : Bool
  fmtWord : Word
  mq      : List MatCmd
  /-- Slots waiting for an entry, and slots an entry is reserved for (R24). -/
  mwait   : List Slot
  mresv   : List Slot
  mclosed : Bool
  /-- The cycle from which `mswp` and `mfmt` can start: the second after the last retirement (R321). -/
  mfree   : Nat
  narrow  : Bool
  cq      : List CopyCmd
  cwait   : List Slot
  cresv   : List Slot
  cclosed : Bool
  /-- The cycle from which the next copy command can start: the one after the last piece of the one before it was issued (R243). -/
  cfree   : Nat
  credits : List Credit
  pushes  : List Push
  cache   : List CLine
  code    : List CLine
  rediv   : Option Rediv
  /-- Harts whose `pool` waits its turn (R49). -/
  redivQ  : List PoolReq
  /-- `pool` instructions issued: the model's own field. -/
  poolNo  : Nat
  tbars   : List Tbar
  tbarDone : List TbarDone
  /-- The copy engine of a background copy has a mark to work on (R93). -/
  background : Bool
  deriving DecidableEq, Repr

/-- An on-die line (R105): its current value, rights, kept bit, and whether memory is older. -/
structure OLine where
  key   : LineKey
  data  : List Byte
  sb    : List Byte
  perm  : Perm
  kept  : Bool
  dirty : Bool
  deriving DecidableEq, Repr

/-- What the outside and the other agents do next. -/
inductive Agendum where
  | ev (i : Instr)
  | turn (a : Agent)
  /-- A line of physical memory, by number, comes to hold an uncorrectable error (R66). -/
  | memoryError (line : Nat)
  /-- A granule of a cell's LOCAL comes to hold an uncorrectable error (R115, R230). -/
  | localError (cell granule : Nat)
  /-- A home slice must free the tag that holds a line's directory entry (R361). -/
  | freeTag (k : LineKey)
  /-- Firmware releases core `n` from reset at an entry (R392). -/
  | coreRelease (n : Nat) (entry : Word)
  /-- The ECC of a die corrects an error (R422). -/
  | correctedError (die : Nat)
  deriving DecidableEq, Repr

/-- An entry of a translation agent (R340): the page, its leaf and the held mark; with the page-table lines it is derived from. -/
structure AgentEntry where
  asid : Nat
  gen  : Nat
  /-- VA[54:16]; a 512 MiB leaf answers for its 8,192 pages one entry at a time. -/
  page : Nat
  leaf : Word
  /-- PA of the page. -/
  pa   : Nat
  held : Bool
  /-- The die whose agent holds it (R340). -/
  die  : Nat
  /-- The page-table lines the walk read: PA of the line (R341). -/
  ptLines : List Nat
  deriving DecidableEq, Repr

/-- A pending-fault mark (R350), with the line and the level (3, 2 or 1) of the invalid entry. -/
structure FaultMark where
  asid   : Nat
  page   : Nat
  ptLine : Nat
  level  : Nat
  /-- Dies whose fault unit has dropped the page (R357). -/
  dropped : List Nat
  deriving DecidableEq, Repr

/-- An agent's registration on a page-table line at its home directory (R341): the line's PA number, the ASID and the level (3, 2 or 1) that
it serves, and the first page that its sixteen entries cover. -/
structure PtReg where
  line  : Nat
  asid  : Nat
  level : Nat
  first : Nat
  deriving DecidableEq, Repr

/-- A write-back parked by a held entry (R346), oldest first. -/
structure ParkedWb where
  asid : Nat
  page : Nat
  line : OLine
  deriving DecidableEq, Repr

/-- A page-table store in progress (R342 to R347). -/
structure PtStore where
  /-- 0 GRANT, 1 RETRACT, 2 HOLD, 3 MOVE, as asked for; a plain store is a 1 (R342). -/
  kind  : Nat
  /-- Physical address and bytes stored. -/
  pa    : Nat
  bytes : List Byte
  /-- The ranges a RETRACT drains: ASID, first page, page count. -/
  drain : List (Nat × Nat × Nat)
  /-- The hart whose store it is; none for another party's. -/
  owner : Option Nat
  /-- The tick in which it reached the line's home. -/
  began : Nat
  deriving DecidableEq, Repr

/-- A fault record of a die (R351). -/
structure FaultRec where
  page  : Nat
  asid  : Nat
  gen   : Nat
  kind  : Nat
  cell  : Nat
  slot  : Nat
  count : Nat
  wr    : Bool
  prec  : Bool
  park  : Bool
  tick  : Nat
  deriving DecidableEq, Repr

/-- The fault unit of a die (R352). -/
structure FaultUnit where
  die  : Nat
  recs : List (Nat × FaultRec)
  drop : Bool
  irq  : Bool
  dcnt : Nat
  deriving DecidableEq, Repr

/-- A node on a die's fault-wait list (R353). -/
structure ParkedNode where
  die    : Nat
  launch : Nat
  node   : Nat
  asid   : Nat
  page   : Nat
  deriving DecidableEq, Repr

/-- A write of an engine of the memory side that waits at a held page (R346): it is made once the page takes it. -/
structure Owed where
  die   : Nat
  asid  : Nat
  va    : Nat
  bytes : List Byte
  /-- A page fault that it meets is recorded (R350); that of a spawned node is not (R251). -/
  told  : Bool
  deriving DecidableEq, Repr

/-- What an access that has gone beyond its cell is for (R106, R138, R189, R190, R194, R197, R243, R320): a load, or an `amo`, and whether its scope
is wider than the cell; a write check, of a store or of a REPLAY attempt's; a fetch; `pf`; a piece that the copy engine reads or writes. -/
inductive MissKind where
  | load (wide : Bool)
  | amo (wide : Bool)
  | check
  | replay
  | fetch
  | pf
  | pieceIn
  | pieceOut
  deriving DecidableEq, Repr

/-- How far a miss has come (R320); times are instants. -/
inductive MissPhase where
  /-- Its request is on its way to the slice. -/
  | out
  /-- The lookup of the slice, a walk of the translation agent, a read of memory or of a site is done at an instant. -/
  | look (until_ : Nat)
  | walk (until_ : Nat)
  | far (until_ : Nat)
  /-- It waits for what it needs: its page's agent, or its die's line. -/
  | ask
  /-- Its answer is on its way back; it has come, at an instant. -/
  | back (r : Got)
  | come (t : Nat) (r : Got)
  deriving DecidableEq, Repr

/-- A miss (R320): the number and the kind of its packets, who made it, for what, the address and the bytes, and the words that a write check asks
for. It goes on where the one that made it no longer waits for it (R21, R358). -/
structure Miss where
  id    : Nat
  sort  : MsgKind
  agent : Agent
  slot  : Slot
  kind  : MissKind
  asid  : Nat
  level : Level
  va    : Nat
  size  : Nat
  words : BitVec 16
  /-- The attempt of a REPLAY task that it is for: launch, node, attempt. -/
  task  : Option (Nat × Nat × Nat)
  phase : MissPhase
  deriving DecidableEq, Repr

/-- Global memory: physical bytes, on-die lines, translation, faults, device registers. -/
structure MemSys where
  phys   : Mem
  physSb : Mem
  /-- Lines of physical memory, by number, that hold an uncorrectable error (R66, R186). -/
  poison : List Nat
  lines  : List OLine
  /-- Accesses of cells and cores that wait beyond them, oldest first (R320). -/
  misses : List Miss
  /-- Current generation of an ASID (R335); unlisted is 0. -/
  gens   : List (Nat × Nat)
  /-- Seed and die set latched for an ASID (R368). -/
  latched : List (Nat × Word × BitVec 54)
  /-- ASIDs whose scrub has not finished, and the tick at which it is done (R349). -/
  scrubs : List (Nat × Nat)
  agents : List AgentEntry
  marks  : List FaultMark
  ptRegs : List PtReg
  wbPark : List ParkedWb
  /-- Page-table stores not yet performed; the pages a RETRACT drains park every new miss (R344). -/
  ptStores : List PtStore
  units  : List FaultUnit
  waitList : List ParkedNode
  owed   : List Owed
  /-- Writes to a stack in self-refresh, which wait until it leaves it (R419): the address, the kept bit, bytes and sideband, oldest first. -/
  late   : List (Nat × Bool × List Byte × List Byte)
  /-- Device register overrides: physical address and value. -/
  regs   : List (Nat × Word)
  deriving DecidableEq, Repr

/-- Stable states of a directory entry (R361). -/
inductive DirState where
  | i | s | x | o
  deriving DecidableEq, Repr

/-- States of a line in a die, stable and transient (R361, R364). -/
inductive DieState where
  | m | e | o | s | i | isD | imAd | imA | smAd | smA | miA | oiA | iiA
  deriving DecidableEq, Repr

/-- Coherence messages in flight (R362, R364): from a die to a die (or the home), about one line. -/
inductive CohMsg where
  | gets (die : Nat)
  | getm (die : Nat)
  | upg (die : Nat)
  | pute (die : Nat)
  | fwdGets (owner die : Nat)
  | fwdGetm (owner die : Nat)
  | inval (die requester : Nat)
  | invAck (requester : Nat)
  | ackCount (die n : Nat)
  | data (die : Nat) (shared : Bool)
  | unblock (die : Nat)
  | placeReq (die slice entry : Nat)
  | placeGrant (die : Nat)
  | writeBack (die : Nat)
  | wbAck (die : Nat)
  deriving DecidableEq, Repr

/-- What a message that has left its sender carries: the sender's die number and incarnation (R374), the number of its packet, and, once it has
come, the instant from which it acts (R363, R364). -/
structure Stamp where
  die : Nat
  inc : Nat
  pkt : Nat
  at_ : Option Nat
  deriving DecidableEq, Repr

/-- A message of a line: its sender (none: the line's home), and its stamp once it has left. -/
structure Sent where
  msg    : CohMsg
  from_  : Option Nat
  stamp  : Option Stamp
  deriving DecidableEq, Repr

/-- A line's state in one die: awaited acknowledgements (known count) and those held (R364). -/
structure DieLine where
  die   : Nat
  st    : DieState
  count : Option Nat
  acks  : Nat
  /-- The data of a transient state have arrived. -/
  arrived : Bool
  /-- An Inv has come to IS_D: its loads are served once from the data, and the die goes to I (R364). -/
  once  : Bool
  /-- The line's data and sideband as that Inv found them: those that the loads are served from. -/
  seen  : Option (List Byte × List Byte)
  deriving DecidableEq, Repr

/-- The coherence record of one line: its directory entry, its dies, its messages (R361 to R367). -/
structure CohLine where
  key     : LineKey
  st      : DirState
  owner   : Nat
  sharers : BitVec 55
  /-- The requester whose Unblock ends the busy period (R363). -/
  busy    : Option Nat
  dies    : List DieLine
  msgs    : List Sent
  /-- Pending place bits: die, slice, eviction entry (R367). -/
  places  : List (Nat × Nat × Nat)
  deriving DecidableEq, Repr

/-- A node's life (R59 to R67). -/
inductive NodeState where
  | waiting
  /-- Its entry lies in a held page and has not been read (R61, R346); how many predecessors have completed meanwhile (R65). -/
  | unread (counted : Nat)
  /-- Its rank, and, where it stands in the launch's ready spill and not in the die's ready pool, the number of its entry there (R63, R65). -/
  | ready (rank : Nat) (spill : Option Nat)
  | running
  | parked
  | done
  deriving DecidableEq, Repr

/-- A node of a launch: its words once read (or as spawned), its count and its attempt. -/
structure Node where
  index   : Nat
  words   : List Word
  spawned : Bool
  deps    : Nat
  st      : NodeState
  attempt : Nat
  /-- STAGE minimum after an overflow (R67); 0 for none. -/
  minStage : Nat
  /-- Successors and minimum profile, read in the cycle the count reached zero (R61). -/
  succs   : List Nat
  minimum : Word
  /-- A node spawned with deps 1: the spawning task's node and attempt (R251). -/
  parent  : Option (Nat × Nat)
  deriving DecidableEq, Repr

/-- How far a team's swap or end has come (R401). -/
inductive SwapPhase where
  /-- A re-division that was in progress at the request goes on (R53). -/
  | waitPool
  | waitFields
  | stopSlot0
  | drain
  deriving DecidableEq, Repr

/-- What a swap is for: a kind-1 descriptor, a step of the Save ladder (R402), the end of its launch (R401), the runtime's own answer to heat, which
writes no done word (R402, R416), or the stop of a declaration, which ends after step 4 of R74 (R370). -/
inductive SwapKind where
  | out | save | ends | quiesce | declare
  deriving DecidableEq, Repr

/-- A swap-out, a thermal save or an end in progress (R401). -/
structure Swap where
  phase : SwapPhase
  kind  : SwapKind
  since : Nat
  save  : Nat
  done  : Nat
  /-- Cells whose slot 0 has returned from its swap handler. -/
  back  : List Nat
  deriving DecidableEq, Repr

/-- A team's last move away from heat: its tick, the origin it left, whether the reading there has since fallen below the mark of R416, and
whether it has risen again. -/
structure HotMove where
  tick : Nat
  x0   : Nat
  y0   : Nat
  fell : Bool
  rose : Bool
  deriving DecidableEq, Repr

/-- A team (R55). -/
structure Team where
  no     : Nat
  x0     : Nat
  y0     : Nat
  placed : Bool
  save   : Nat
  /-- Where its image was written last (R400). -/
  savedAt : Nat
  map    : Nat
  /-- Tick from which the starvation conditions have held, and whether the record is written (R72). -/
  starve  : Option Nat
  starved : Bool
  swap    : Option Swap
  /-- Its last move away from heat (R416). -/
  moved   : Option HotMove
  /-- Saved cells of a swapped team: the cells and their fields as the image holds them (R400). -/
  image  : List Cell
  deriving DecidableEq, Repr

/-- A launch held by its lead die (R54, R398). -/
structure Launch where
  id    : Nat
  desc  : List Word
  asid  : Nat
  lead  : Nat
  lw    : Nat
  lh    : Nat
  prio  : Nat
  nres  : Nat
  wsize : Nat
  teams : List Team
  nodes : List Node
  /-- The next node index never yet used (R251). -/
  next  : Nat
  /-- Rotating pointer and age (R63). -/
  pointer : Nat
  age   : Nat
  /-- The event ring, oldest record first, and how many records have been written (R69). -/
  ring  : List TaskRecord
  written : Nat
  /-- Records of the engine's own that wait for room: starvation, malformed nodes, launch drained (R69). -/
  heldRecs : List TaskRecord
  /-- How many nodes have been appended to the ready spill (R65). -/
  spills   : Nat
  /-- A gang whose start tick has not come (R58). -/
  gangWait : Bool
  drained  : Bool
  /-- Its cells are freed by an end; it goes once its records are written (R401). -/
  ended    : Bool
  deriving DecidableEq, Repr

/-- States of a field (R83); `ending` is a field that has reached its final boundary and is being written back. -/
inductive FieldState where
  | idle | sweeping | pausing | stopping | ending
  deriving DecidableEq, Repr

/-- The hart for which a field makes its copies and credits (R109): its cell, slot and level, and the barrier object. -/
structure Client where
  cell  : Nat
  slot  : Slot
  level : Level
  obj   : Nat
  deriving DecidableEq, Repr

/-- A snapshot of a field (R93): its boundary and buffer, and the sites still marked once the boundary is reached. -/
structure Snap where
  /-- Tells it from another snapshot with the same operands (R94): the model's own field. -/
  id     : Nat
  b      : Nat
  buf    : Nat
  client : Client
  marked : Option (List Nat)
  deriving DecidableEq, Repr

/-- A pending move of a field (R98). -/
structure Move where
  b      : Nat
  word   : IWord
  client : Client
  deriving DecidableEq, Repr

/-- A declared field (R75, R76). -/
structure Field where
  launch : Nat
  team   : Nat
  handle : Nat
  desc   : List Word
  /-- Placement subgroup word in effect. -/
  place  : IWord
  /-- Graph tables read at the declaration: neighbours and colour of each site (R79, R81). -/
  nbrs   : List (List Nat)
  cols   : List Nat
  sites  : List Nat
  st     : FieldState
  phase  : Nat
  bank   : Bool
  commit : Option Nat
  snaps  : List Snap
  move   : Option Move
  /-- Who asked for the end, and whose object the write-back credits (R97). -/
  stop   : Option Client
  /-- The pause was asked for by a swap alone (R100). -/
  swapPause : Bool
  /-- Sites of the phase not yet handed, and handed and not yet put (R82, R85). -/
  todo   : List Nat
  handed : List Nat
  deriving DecidableEq, Repr

/-- What a field control request asks (R257). -/
inductive FieldAsk where
  | decl (desc : List Word)
  | start
  | stop
  | pause
  | phase (sel : Bool)
  | snap (b buf : Nat)
  | cplc (b : Nat)
  | mig (b : Nat) (word : IWord)
  deriving DecidableEq, Repr

/-- A control request travelling to its origin cell, or its answer travelling back with the bytes the object is to expect (R257). -/
structure FieldReq where
  client : Client
  launch : Nat
  team   : Nat
  handle : Nat
  /-- The cell that serves it. -/
  origin : Nat
  ask    : FieldAsk
  answer : Option (Word × Nat)
  deriving DecidableEq, Repr

/-- A remote full/empty store in flight (R117, R386): its packet's number, the hart, the team and the coordinates it names. -/
structure RemoteFe where
  id    : Nat
  cell  : Nat
  slot  : Slot
  launch : Nat
  team  : Nat
  tx    : Nat
  ty    : Nat
  /-- The cell it was sent to. -/
  dest  : Nat
  off   : Nat
  value : Word
  /-- Its packet is on the way. -/
  travel : Bool
  /-- none: the attempt is to be made; some: its answer (0 refused, 1 accepted, 2 failed) is to reach the hart. -/
  answer : Option Nat
  deriving DecidableEq, Repr

/-- A packet in a buffer, or on its way there: the instant at which its first flit comes, and whether its room was reserved whole when it was
granted, as that of a multicast is (R384). -/
structure Held where
  pkt   : Packet
  came  : Nat
  whole : Bool
  deriving DecidableEq, Repr

/-- A granted packet that leaves a buffer (R388): its flits, the instants at which its first flit came and at which it was granted, and whether its
room was reserved whole. -/
structure Leaving where
  flits : Nat
  came  : Nat
  sent  : Nat
  whole : Bool
  deriving DecidableEq, Repr

/-- An input buffer on one channel: the packets in it, oldest first, those granted upstream that have not arrived, those that leave, the ageing
count of its head and the instant at which it last rose (R379, R383, R388). -/
structure InBuf where
  node   : Nat
  inp    : Nat
  vc     : VC
  queue  : List Held
  coming : List Held
  leaving : List Leaving
  age    : Nat
  aged   : Nat
  deriving DecidableEq, Repr

/-- An output port: the round's credits in the order of R382, the channel granted last, the input granted last on each channel, and the instant
from which it is free (R388). -/
structure OutPort where
  node    : Nat
  out     : Nat
  credits : List Nat
  lastVc  : Nat
  lastIn  : List Nat
  free    : Nat
  deriving DecidableEq, Repr

/-- The network (R375 to R388). Only ports and buffers that hold something or have been used are listed. -/
structure Net where
  /-- The instant up to which the network has acted (LOG 29). -/
  at_   : Nat
  bufs  : List InBuf
  outs  : List OutPort
  /-- Packets that wait at their source's port, oldest first, each with the instant from which it can leave, and the instants from which the links
  of the ports are free: node, input, instant. -/
  sends : List (Packet × Nat)
  links : List (Nat × Nat × Nat)
  /-- Dies whose links are closed (R370, R373). -/
  closed : List Nat
  /-- Remote full/empty stores and field requests in flight. -/
  remote : List RemoteFe
  asks   : List FieldReq
  deriving DecidableEq, Repr

/-- A rail whose registers or controller have left their resets (R403, R407); rail 768 is the fabric rail. -/
structure Rail where
  die    : Nat
  rail   : Nat
  rctl   : Word
  /-- Voltage code and clock step as the latest change began, and those it moves to (R404, R407, R410, R415). -/
  vnow   : Nat
  mown   : Nat
  goal   : Nat × Nat
  busy   : Bool
  /-- The tick in which the change in progress began, and the tick in which it is complete. -/
  began  : Nat
  until_ : Nat
  /-- A point that waits for the change in progress (R409). -/
  want   : Option (Nat × Nat)
  /-- The clock step that the controller allows (R407). -/
  amax   : Nat
  /-- The clock of the rail's cells that nothing has touched: before the latest change of its step, and from that on (R16, R27). -/
  clk    : Clk × Clk
  alarm  : Bool
  hcap   : Nat
  rej    : Bool
  rthr   : Word
  iest   : Nat
  isense : Nat
  low    : Nat
  /-- Windows that have been judged; and the results of the last that have still to act: the rail cycle, iest and isense (R407). -/
  judged : Nat
  pend   : Option (Nat × Nat × Nat)
  /-- Which of the last 4,096 windows raised the alarm, latest first; and windows since the last that did (R407). -/
  window : List Bool
  quiet  : Nat
  deriving DecidableEq, Repr

/-- A thermal sensor that has been read (R413, R414): its reading, its mark, the tick of the last change of the reading and its rails'
estimates then. -/
structure Sensor where
  raw   : Int
  fail  : Bool
  since : Nat
  iests : List Nat
  deriving DecidableEq, Repr

/-- The thermal state of a die (R402, R413 to R421) and the power of its tier. -/
structure Die where
  no      : Nat
  tier    : Bool
  /-- What a rail of the die holds that is not listed by itself. -/
  rails   : Rail
  sensors : List (Nat × Sensor)
  /-- Sensors whose latest reading has not been judged, and the tick of that reading (R414). -/
  unjudged : List Nat
  readAt  : Nat
  lvl     : Nat
  chg     : Bool
  thc     : Word
  /-- Ticks from which the die temperature has stayed 5 below the warning mark and the critical mark (R417). -/
  underW  : Option Nat
  underC  : Option Nat
  /-- The stack is in self-refresh (R419). -/
  refresh : Bool
  /-- Rails that its Drop ladder has clamped to m = 8 (R420), by their module numbers (R7). -/
  clamps  : List Nat
  /-- Teams on the Drop ladder: launch, team and steps taken; and the tick of its last step. -/
  drops   : List (Nat × Nat × Nat)
  dropAt  : Nat
  /-- Teams that the Save ladder has swapped out: launch and team (R419, R421). -/
  saves   : List (Nat × Nat)
  /-- The comparator has gated the tier (R420). -/
  tripped : Bool
  /-- The level has returned to 0 and the firmware has still to restore the die (R421). -/
  cooled  : Bool
  deriving DecidableEq, Repr

/-- A scale link (R395). -/
structure Link where
  no     : Nat
  train  : Bool
  up     : Bool
  lanes  : Nat
  rate   : Nat
  peer   : Nat
  k      : Nat
  txb    : Word
  rxb    : Word
  txtail : BitVec 16
  txhead : BitVec 16
  rxtail : BitVec 16
  rxhead : BitVec 16
  /-- The peer's rxhead, as its control flits last showed it, and entries sent and not yet delivered. -/
  prxhead : BitVec 16
  sent   : List (List Byte)
  deriving DecidableEq, Repr

/-- A queue pair of the endpoint (R397). -/
structure QueuePair where
  no    : Nat
  sqb   : Word
  cqb   : Word
  qcfg  : Word
  rdy   : Bool
  err   : Bool
  sqt   : BitVec 16
  shead : BitVec 16
  cqh   : BitVec 16
  ctail : BitVec 16
  phase : Bool
  /-- Completions that wait for room: command id, status, value (R397). -/
  done  : List (Nat × Nat × Word)
  /-- Completion entries written to the host's ring: counter, word 0, word 1; and vectors raised. -/
  ring  : List (Nat × Word × Word)
  msix  : List Nat
  /-- What read commands have written to the host's memory: host address and bytes (R396). -/
  moved : List (Word × List Byte)
  deriving DecidableEq, Repr

/-- A log entry of the measurement (R392). -/
structure LogEntry where
  stage  : IWord
  flags  : IWord
  length : Word
  digest : BitVec 256
  deriving DecidableEq, Repr

/-- A firmware image in a slot of the management flash (R392): its bytes, and the key, the signature and the entry it carries. -/
structure Firmware where
  image : List Byte
  key   : List Byte
  sig   : List Byte
  entry : Word
  deriving DecidableEq, Repr

/-- An entry of the Tailstock's event log (R422). -/
inductive TailEvent where
  /-- A step of a die's Save ladder, or else of its Drop ladder. -/
  | ladderStep (die : Nat) (save : Bool)
  | comparatorTrip (die : Nat)
  | sensorFailure (die sensor : Nat)
  /-- A die declared failed, and the entries of the lost-line report. -/
  | declared (die reports : Nat)
  deriving DecidableEq, Repr

/-- The Tailstock (R392, R393, R409, R410, R422, R423). -/
structure Tailstock where
  slotA    : Option Firmware
  slotB    : Option Firmware
  keyh     : BitVec 256
  measure  : BitVec 256
  log      : List LogEntry
  /-- The chain accepted an image; the Headstock is out of reset. -/
  booted   : Bool
  bootFail : Bool
  quote    : Option (List Byte)
  /-- The operating point asked for last (R409). -/
  point    : Option (Nat × Nat)
  /-- The latest request for a point was answered with HTTP 400 (R409). -/
  patch400 : Bool
  pcap     : Nat
  pnow     : Nat
  mclamp   : Nat
  overCap  : Bool
  under    : Nat
  retired  : List Nat
  /-- Dies taken off that list that have still to rejoin (R423). -/
  back     : List Nat
  /-- The event log, and the counts of corrected and uncorrectable errors by die (R422). -/
  events      : List TailEvent
  corrected   : List (Nat × Nat)
  uncorrected : List (Nat × Nat)
  deriving DecidableEq, Repr

/-- The Headstock's notices and the module's failure registers (R369, R391). -/
structure HeadRegs where
  hnr   : Word
  swg   : Word
  hsq   : List (Nat × Nat)
  /-- Stops that found HSQ full and wait at their cells (R391). -/
  hsqWait : List (Nat × Nat)
  fail  : BitVec 54
  /-- Dies whose declaration is in progress: busy is set while there is one (R369, R370). -/
  decl  : List Nat
  llrb  : Word
  llrn  : Nat
  ovf   : Bool
  /-- Incarnations of the dies that have rejoined, modulo 256 (R373); unlisted is 0. -/
  incs  : List (Nat × Byte)
  slid  : BitVec 16
  deriving DecidableEq, Repr

/-- What the runtime gives each hart it makes resident (R131, R277, R399): the `.view` words of image headers, by ASID and image base, and the
vectors of S and F. Nothing in the module writes it (LOG 5). -/
structure Runtime where
  views : List ((Nat × Nat) × Word)
  svec  : Word
  fvec  : Word
  deriving DecidableEq, Repr

/-- The module. -/
structure State where
  /-- What the outside and the other agents do next, oldest first (LOG 1). -/
  agenda  : List Agendum
  cur     : Agent
  /-- The focused cell; every other cell that has left its reset is listed in `others`. -/
  cell    : Cell
  others  : List (Nat × Cell)
  /-- Headstock cores released from reset (R392). -/
  cores   : List (Nat × Hart)
  mem     : MemSys
  coh     : List CohLine
  /-- Round-robin pointers of write-back places: home die, and the die, slice and entry granted last (R367). -/
  places  : List (Nat × Nat × Nat × Nat)
  launches : List Launch
  /-- The identifier of the launch last served, by lead die (R63). -/
  lastServed : List (Nat × Nat)
  fields  : List Field
  net     : Net
  rails   : List Rail
  dies    : List Die
  links   : List Link
  qps     : List QueuePair
  tail    : Tailstock
  head    : HeadRegs
  rt      : Runtime
  /-- The module time base in ticks (R9). -/
  tbase   : Nat
  /-- The tick that each released core has reached (R9, LOG 1). -/
  coreAt  : List (Nat × Nat)
  /-- How many free values the machine has taken (LOG 2): the model's own field. -/
  free    : Nat
  /-- The next copy command number: the model's own field. -/
  cmdNo   : Nat
  deriving DecidableEq, Repr

/-- A trap block after reset (R277). -/
def TrapBlock.reset : TrapBlock := ⟨0, 0, 0, 0, 0, 0, 0, 0, 0⟩

/-- The trap block of S: `sie` bits 2 to 4 read 1 (R282). -/
def TrapBlock.resetS : TrapBlock := ⟨0, 0, 0, 0, 0, 0x1C, 0, 0, 0⟩

/-- A slot with no hart resident (R18); its registers hold the resets of R277. -/
def Hart.reset : Hart :=
  { pc := 0, npc := 0, ir := 0, level := .u, st := .absent, paused := false, win := [], winSb := [], wsize := 256, views := 0,
    fflags := 0, rngs := 0, fetry := 0, fwl := 1000000, lcnt := 0, lsta := 0, lend := 0, pcnt := none, psta := none,
    pend := none, tcmp := 0, tu := .reset, ts := .resetS, tf := .reset, hwin := 31, task := none, hand := none,
    winstr := none, woken := false, since := none, req := .idle, check := .idle, buf := [], again := false, held := [],
    relAfter := [], chosen := none, heldRec := none, stopped := false, frozen := false, left := none, engErr := [], ticket := 0,
    heldNo := 0, ready := 0, asks := [], got := [] }

/-- The profile byte of the reset value of `views` (R37): scnt min(64, W/8), vbase min(16, W/32), vcnt max(0, min(32, (W - 512)/64)). -/
def viewsReset (w : Nat) : Word :=
  BitVec.ofNat 64 (2 ^ 8 * Nat.min 64 (w / 8) + 2 ^ 16 * Nat.min 16 (w / 32) + 2 ^ 24 * Nat.min 32 ((w - 512) / 64))

/-- Delegation of a resident hart: causes 0x03, 0x04, 0x07, 0x09 and 0x0A (R316). -/
def residentDel : Word := 0x698

/-- A hart just made resident (R15, R316, R399): PARK through `waitw`, level U, a zero window of `w` bytes. -/
def Hart.resident (w : Nat) (views svec fvec : Word) : Hart :=
  { Hart.reset with
    st := .park false, wsize := w, views := views,
    ts := { TrapBlock.resetS with vec := svec, del := residentDel },
    tf := { TrapBlock.reset with vec := fvec, del := residentDel } }

/-- A Headstock hart at its release (R390, R392): level F, the window of `hwin` 31. -/
def Hart.core (entry : Word) : Hart :=
  { Hart.reset with pc := entry, level := .f, st := .run, wsize := 8192, views := 0x20104000 }

/-- A cell whose registers hold their resets: every bank FREE, no hart resident, power as R403 resets it. -/
def Cell.reset (no : Nat) : Cell :=
  { no := no, cycle := 0, tick := 0, acc := 0, harts := Vector.replicate 16 Hart.reset, div := 1, newDiv := none, m := 90, on := true,
    scap := 16, prot := 0, removed := 0, notice := false, vwin := 0, vnew := 0, vold := 0, serving := none, nres := 0, banks := Vector.replicate 32 0, high := 0, quota := 0, floor := 0,
    loc := [], locSb := [], locBad := [], mat := [], matSb := [], aplane := false, fmtWord := 0x2424, mq := [], mwait := [], mresv := [],
    mclosed := false, mfree := 0, narrow := false, cq := [], cwait := [], cresv := [], cclosed := false, cfree := 0, credits := [], pushes := [],
    cache := [], code := [], rediv := none, redivQ := [], poolNo := 0, tbars := [], tbarDone := [], background := false }

/-- A rail after reset (R403): vcode 170, m 90, auto, capmin 4; the fused threshold is a free value. -/
def Rail.reset (die rail : Nat) : Rail :=
  { die := die, rail := rail, rctl := 0x4DAAA, vnow := 170, mown := 90, goal := (170, 90), busy := false, began := 0, until_ := 0,
    want := none, amax := 90, clk := (⟨0, 0, 0, 90⟩, ⟨0, 0, 0, 90⟩), alarm := false, hcap := 16, rej := false, rthr := BitVec.ofNat 64 (Config.ithr % 65536 + 65536 * 100), iest := 0, isense := 0,
    low := 0, judged := 0, pend := none, window := [], quiet := 0 }

/-- A die after reset: its tier powered, its thermal marks 95 and 105, no reading taken (R403, R417). -/
def Die.reset (no : Nat) : Die :=
  { no := no, tier := true, rails := Rail.reset no 0, sensors := [], unjudged := [], readAt := 0, lvl := 0, chg := false, thc := 0x695F, underW := none,
    underC := none, refresh := false, clamps := [], drops := [], dropAt := 0, saves := [], tripped := false, cooled := false }

/-- A scale link after reset: k 4, everything else 0 (R395). -/
def Link.reset (no : Nat) : Link :=
  { no := no, train := false, up := false, lanes := 0, rate := 0, peer := 0, k := 4, txb := 0, rxb := 0, txtail := 0, txhead := 0,
    rxtail := 0, rxhead := 0, prxhead := 0, sent := [] }

/-- A queue pair after reset (R397). -/
def QueuePair.reset (no : Nat) : QueuePair :=
  { no := no, sqb := 0, cqb := 0, qcfg := 0, rdy := false, err := false, sqt := 0, shead := 0, cqh := 0, ctail := 0, phase := true,
    done := [], ring := [], msix := [], moved := [] }

/-- The Tailstock after module reset: nothing booted, nothing measured, the cap at pmax (R392, R410). -/
def Tailstock.reset : Tailstock :=
  { slotA := none, slotB := none, keyh := Config.keyh, measure := 0, log := [], booted := false, bootFail := false, quote := none,
    point := none, patch400 := false, pcap := 3800, pnow := 0, mclamp := 90, overCap := false, under := 0, retired := [], back := [],
    events := [], corrected := [], uncorrected := [] }

/-- The Headstock block and the failure registers after reset (R369, R391). -/
def HeadRegs.reset : HeadRegs :=
  { hnr := 0, swg := 100000, hsq := [], hsqWait := [], fail := 0, decl := [], llrb := 0, llrn := 0, ovf := false, incs := [],
    slid := 0 }

/-- Memory, translation and the fault units after reset: no byte listed, no translation, no register written. -/
def MemSys.reset : MemSys :=
  { phys := [], physSb := [], poison := [], lines := [], misses := [], gens := [], latched := [], scrubs := [], agents := [], marks := [], ptRegs := [],
    wbPark := [], ptStores := [], units := [], waitList := [], owed := [], late := [], regs := [] }

/-- The module right after reset: nothing booted, no launch, no hart resident (R392). -/
def State.reset : State :=
  { agenda := [], cur := .cell 0, cell := Cell.reset 0, others := [], cores := [], mem := .reset, coh := [], places := [], launches := [],
    lastServed := [], fields := [], net := ⟨0, [], [], [], [], [], [], []⟩, rails := [], dies := [], links := [], qps := [], tail := .reset,
    head := .reset, rt := ⟨[], 0, 0⟩, tbase := 0, coreAt := [], free := 0, cmdNo := 0 }

end Sys2Proof.Machine
end

