-- ==== Sys2Proof/Machine/Memory.lean ====
section
/-! DEFINITION. Byte memories in their canonical form, and little-endian values (R9). -/

namespace Sys2Proof

/-- What an address reads as that no write has listed: 0 (LOG 3). -/
def unlisted : Byte := 0

/-- The byte at an address. -/
def Mem.byte : Mem → Nat → Byte
  | [], _ => unlisted
  | (k, v) :: r, a => if a = k then v else Mem.byte r a

/-- A listed byte at an address, in its place. -/
def Mem.insert : Mem → Nat → Byte → Mem
  | [], a, b => [(a, b)]
  | (k, v) :: r, a, b =>
    if a < k then (a, b) :: (k, v) :: r
    else if a = k then (a, b) :: r
    else (k, v) :: Mem.insert r a b

/-- The memory with one byte written; a byte equal to `unlisted` is not listed. -/
def Mem.put (m : Mem) (a : Nat) (b : Byte) : Mem :=
  if b = unlisted then m.filter fun c => decide (c.1 ≠ a) else m.insert a b

/-- The canonical form: addresses strictly rising, all above `lo`, and no byte equal to `unlisted`. -/
def Mem.wfFrom : Nat → Mem → Bool
  | _, [] => true
  | lo, (k, v) :: r => decide (lo ≤ k) && decide (v ≠ unlisted) && Mem.wfFrom (k + 1) r

/-- The memory is in its canonical form. -/
def Mem.wf (m : Mem) : Bool := Mem.wfFrom 0 m

/-- `n` bytes from an address on. -/
def Mem.read (m : Mem) (a : Nat) : Nat → List Byte
  | 0 => []
  | n + 1 => Mem.byte m a :: Mem.read m (a + 1) n

/-- The bytes written from an address on. -/
def Mem.write (m : Mem) (a : Nat) : List Byte → Mem
  | [] => m
  | b :: bs => Mem.write (Mem.put m a b) (a + 1) bs

/-- `n` bytes from an address on made equal to `unlisted`. -/
def Mem.clear (m : Mem) (a n : Nat) : Mem := m.filter fun c => decide (c.1 < a ∨ a + n ≤ c.1)

/-- The bytes below an address alone. -/
def Mem.below (m : Mem) (a : Nat) : Mem := m.filter fun c => decide (c.1 < a)

end Sys2Proof

namespace Sys2Proof.Machine

/-- A little-endian value (R9). -/
def leNat : List Byte → Nat
  | [] => 0
  | b :: bs => b.toNat + 256 * leNat bs

/-- The low `n` bytes of a number, little-endian. -/
def leBytes : Nat → Nat → List Byte
  | 0, _ => []
  | n + 1, x => BitVec.ofNat 8 x :: leBytes n (x / 256)

/-- The 64-bit words of a byte list. -/
def leWords : List Byte → List Word
  | b0 :: b1 :: b2 :: b3 :: b4 :: b5 :: b6 :: b7 :: r =>
    BitVec.ofNat 64 (leNat [b0, b1, b2, b3, b4, b5, b6, b7]) :: leWords r
  | _ => []

/-- Bits `s + n - 1` to `s` of a word, as a number. -/
def fieldOf (x : Word) (s n : Nat) : Nat := x.toNat / 2 ^ s % 2 ^ n

/-- The word with bits `s + n - 1` to `s` replaced. -/
def setField (x : Word) (s n v : Nat) : Word :=
  BitVec.ofNat 64 (x.toNat - fieldOf x s n * 2 ^ s + v % 2 ^ n * 2 ^ s)

/-- An association list with a key set. -/
def assocSet {α : Type} (k : Nat) (v : α) : List (Nat × α) → List (Nat × α)
  | [] => [(k, v)]
  | (j, w) :: r => if j = k then (k, v) :: r else if k < j then (k, v) :: (j, w) :: r else (j, w) :: assocSet k v r

/-- The value an association list gives a key. -/
def assocGet {α : Type} (k : Nat) (l : List (Nat × α)) : Option α := (l.find? fun p => p.1 == k).map Prod.snd

/-- Replaces the bytes of a list from an index on. -/
def patch (l : List Byte) (i : Nat) (bs : List Byte) : List Byte := l.take i ++ bs ++ l.drop (i + bs.length)

/-- `n` zero bytes. -/
def zeros (n : Nat) : List Byte := List.replicate n 0

end Sys2Proof.Machine
end

