-- ==== Sys2Proof/Machine/Ops.lean ====
section
/-! DEFINITION. The named operations every meaning is written with: cells, harts, registers, completion, traps. -/

namespace Sys2Proof.Machine

/-- The outcome of a step of this machine. -/
abbrev Out := Host.Outcome State Fault Refusal

/-! ## Numbers of cells, dies and rails (R2, R3, R7) -/

/-- Module coordinates of a cell number (R3). -/
def cellX (n : Nat) : Nat := n % 768
def cellY (n : Nat) : Nat := n / 768

/-- The cell number at module coordinates (R3). -/
def cellNo (x y : Nat) : Nat := y * 768 + x

/-- Die-local coordinates (R3). -/
def localX (n : Nat) : Nat := cellX n % 128
def localY (n : Nat) : Nat := cellY n % 96

/-- The die of a cell (R2, R3). -/
def dieOf (n : Nat) : Nat := 6 * (cellY n / 96) + cellX n / 128

/-- The rail of a cell on its die (R7). -/
def railOf (n : Nat) : Nat := localY n * 8 + localX n / 16

/-- The module number of a rail of a die (R7). -/
def moduleRail (d r : Nat) : Nat := d * 768 + r

/-! ## Clocks of cells (R16, R27) -/

namespace Clk

/-- Some cycles go by: a cycle takes 40·divider/m of a tick (R7, R27). -/
def add (c : Clk) (div n : Nat) : Clk :=
  let t := c.acc + n * (40 * div)
  { c with cycle := c.cycle + n, tick := c.tick + t / c.m, acc := t % c.m }

/-- The first cycle that begins at a tick or after it. -/
def catchUp (c : Clk) (div tick : Nat) : Clk :=
  if tick ≤ c.tick then c else c.add div (((tick - c.tick) * c.m - c.acc + (40 * div - 1)) / (40 * div))

/-- The clock from its first wheel boundary at a tick or after it on, where it takes a new step (R27). -/
def turn (c : Clk) (m tick : Nat) : Clk :=
  let d := c.catchUp 1 tick
  let e := d.add 1 ((16 - d.cycle % 16) % 16)
  { e with m := m, acc := e.acc * m / e.m }

end Clk

/-! ## Dies and rails (R403, R404) -/

/-- A die; one that nothing has touched holds its resets. -/
def State.dieAt (s : State) (d : Nat) : Die := (s.dies.find? fun x => x.no == d).getD (Die.reset d)

def State.putDie (s : State) (x : Die) : State := { s with dies := x :: s.dies.filter fun y => y.no != x.no }

/-- The rail is listed by itself. -/
def State.railListed (s : State) (d r : Nat) : Bool := s.rails.any fun x => x.die == d && x.rail == r

/-- A rail of a die; one that is not listed holds what its die gives. -/
def State.railAt (s : State) (d r : Nat) : Rail :=
  (s.rails.find? fun x => x.die == d && x.rail == r).getD { (s.dieAt d).rails with die := d, rail := r }

def State.putRail (s : State) (x : Rail) : State :=
  { s with rails := x :: s.rails.filter fun y => !(y.die == x.die && y.rail == x.rail) }

namespace Rail

def vcode (x : Rail) : Nat := fieldOf x.rctl 0 8
def mset (x : Rail) : Nat := fieldOf x.rctl 8 7
def auto_ (x : Rail) : Bool := x.rctl.getLsbD 15
def capmin (x : Rail) : Nat := fieldOf x.rctl 16 5

/-- The voltage code at a tick: a change moves it by one, 5 mV, every 200 ticks (R404). -/
def volts (x : Rail) (tick : Nat) : Nat :=
  if !x.busy then x.vnow
  else
    let k := (tick - x.began) / 200
    if x.vnow ≤ x.goal.1 then Nat.min x.goal.1 (x.vnow + k) else max x.goal.1 (x.vnow - k)

/-- The clock step at a tick: a fall is applied at once, a rise once the voltage is there (R404). -/
def clock (x : Rail) (tick : Nat) : Nat :=
  if !x.busy || (x.mown < x.goal.2 && tick < x.until_) then x.mown else x.goal.2

/-- The clock of its untouched cells at a tick: the first cycle that begins then or later. -/
def clkAt (x : Rail) (tick : Nat) : Clk := (if x.clk.2.tick ≤ tick then x.clk.2 else x.clk.1).catchUp 1 tick

/-- The untouched cells take the rail's clock step of a tick at their next wheel boundary (R404). -/
def turnClock (x : Rail) (tick : Nat) : Rail :=
  let c := if x.clk.2.tick ≤ tick then x.clk.2 else x.clk.1
  { x with clk := (c, c.turn (x.clock tick) tick) }

/-- The clocks of the rail's cells start anew (R16), and its current windows with them. -/
def restart (x : Rail) (tick : Nat) : Rail :=
  let c : Clk := ⟨0, tick, 0, x.clock tick⟩
  { x with clk := (c, c), judged := 0, pend := none }

end Rail

/-! ## Cells and harts -/

/-- The cell's clock. -/
def Cell.clock (c : Cell) : Clk := ⟨c.cycle, c.tick, c.acc, c.m⟩

def Cell.setClock (c : Cell) (k : Clk) : Cell := { c with cycle := k.cycle, tick := k.tick, acc := k.acc, m := k.m }

/-- The cell's next cycle (R16, R27). -/
def Cell.nextCycle (c : Cell) : Cell := c.setClock (c.clock.add c.div 1)

/-- A cell whose clock starts anew at a tick (R16). -/
def Cell.startAt (c : Cell) (tick : Nat) : Cell := { c with cycle := 0, tick := tick, acc := 0 }

/-- The slot the wheel offers in the cell's present cycle (R16). -/
def Cell.slot (c : Cell) : Slot := ⟨c.cycle % 16, Nat.mod_lt _ (by decide)⟩

/-- Hart `k` of the cell. -/
def Cell.hart (c : Cell) (k : Slot) : Hart := c.harts[k]

def Cell.setHart (c : Cell) (k : Slot) (h : Hart) : Cell := { c with harts := c.harts.set k h }

/-- A cell that nothing has touched: it holds its resets, and its clock has run with its rail's (R16). -/
def State.restCell (s : State) (n : Nat) : Cell := (Cell.reset n).setClock ((s.railAt (dieOf n) (railOf n)).clkAt s.tbase)

/-- A cell of the module by its number. -/
def State.cellAt (s : State) (n : Nat) : Cell :=
  if n = s.cell.no then s.cell else (assocGet n s.others).getD (s.restCell n)

def State.putCell (s : State) (c : Cell) : State :=
  if c.no = s.cell.no then { s with cell := c } else { s with others := assocSet c.no c s.others }

/-- Every cell that has left its reset. -/
def State.cells (s : State) : List Cell := s.cell :: s.others.map Prod.snd

/-- Hart `k` of cell `n`. -/
def State.hartAt (s : State) (n : Nat) (k : Slot) : Hart := (s.cellAt n).hart k

def State.setHartAt (s : State) (n : Nat) (k : Slot) (h : Hart) : State := s.putCell ((s.cellAt n).setHart k h)

/-- Makes another cell the focused one. -/
def State.focus (s : State) (n : Nat) : State :=
  if n = s.cell.no then { s with cur := .cell n }
  else { s with cur := .cell n, cell := s.cellAt n,
                others := assocSet s.cell.no s.cell (s.others.filter fun p => p.1 ≠ n) }

/-- The hart that issues: of the focused cell in its slot, or of a Headstock core. -/
def State.hart (s : State) : Hart :=
  match s.cur with
  | .cell _ => s.cell.hart s.cell.slot
  | .core n => (assocGet n s.cores).getD Hart.reset

def State.setHart (s : State) (h : Hart) : State :=
  match s.cur with
  | .cell _ => { s with cell := s.cell.setHart s.cell.slot h }
  | .core n => { s with cores := assocSet n h s.cores }

/-- The issuing hart is a Headstock hart (R390). -/
def State.isCore (s : State) : Bool :=
  match s.cur with
  | .cell _ => false
  | .core _ => true

def State.mapHart (s : State) (f : Hart → Hart) : State := s.setHart (f s.hart)

/-- Takes the next free value (LOG 2). -/
def State.fresh (s : State) : Word × State := (Config.freeValue s.free, { s with free := s.free + 1 })

/-- A hart takes part in its cycles: it is resident, and neither paused nor stopped (R18, R28, R74). -/
def Hart.takesPart (h : Hart) : Bool := h.st != .absent && !h.paused && !h.frozen && !h.stopped

/-- The issuing hart does. -/
def State.active (s : State) : Bool := s.hart.takesPart

/-! ## Registers (R36 to R39) -/

namespace Hart

def sbase (h : Hart) : Nat := fieldOf h.views 0 8
def scnt (h : Hart) : Nat := fieldOf h.views 8 7
def vbase (h : Hart) : Nat := fieldOf h.views 16 8
def vcnt (h : Hart) : Nat := fieldOf h.views 24 6

/-- Slot sj lies inside the s view (R39). -/
def sOk (h : Hart) (i : Reg) : Bool := i.toNat < h.scnt

/-- Slot vj lies inside the v view (R39). -/
def vOk (h : Hart) (i : Reg) : Bool := i.toNat < h.vcnt

def sAddr (h : Hart) (i : Nat) : Nat := h.sbase * 32 + 8 * i
def vAddr (h : Hart) (i : Nat) : Nat := h.vbase * 32 + 64 * i

/-- The 8 window bytes under slot si. -/
def sRaw (h : Hart) (i : Nat) : Word := BitVec.ofNat 64 (leNat (h.win.read (h.sAddr i) 8))

/-- S(i) of R140: 0 when i = 0. -/
def S (h : Hart) (i : Reg) : Word := if i = 0 then 0 else h.sRaw i.toNat

/-- setS(i, x) of R140: discarded when i = 0; the sideband stays (R32). -/
def setS (h : Hart) (i : Reg) (x : Word) : Hart :=
  if i = 0 then h else { h with win := h.win.write (h.sAddr i.toNat) (leBytes 8 x.toNat) }

/-- V(i) of R140. -/
def V (h : Hart) (i : Reg) : BitVec 512 := BitVec.ofNat 512 (leNat (h.win.read (h.vAddr i.toNat) 64))

/-- The data of slot vi written; its sideband bytes are written apart. -/
def setV (h : Hart) (i : Reg) (x : BitVec 512) : Hart :=
  { h with win := h.win.write (h.vAddr i.toNat) (leBytes 64 x.toNat) }

/-- Granule `g` of slot vi lies in the window at this granule number. -/
def sbAddr (h : Hart) (i : Nat) (g : Nat) : Nat := h.vbase + 2 * i + g

/-- sb(i, g) of R140. -/
def sb (h : Hart) (i : Reg) (g : Nat) : Byte := h.winSb.byte (h.sbAddr i.toNat g)

/-- setsb(i, g, y) of R140. -/
def setSb (h : Hart) (i : Reg) (g : Nat) (y : Byte) : Hart := { h with winSb := h.winSb.put (h.sbAddr i.toNat g) y }

/-- Data and both sideband bytes of a v slot. -/
def setVS (h : Hart) (i : Reg) (x : BitVec 512) (y0 y1 : Byte) : Hart := ((h.setV i x).setSb i 0 y0).setSb i 1 y1

/-- The `views` value obeys R38 against the window. -/
def viewsFit (w : Nat) (v : Word) : Bool :=
  fieldOf v 0 8 * 32 + fieldOf v 8 7 * 8 ≤ w && fieldOf v 16 8 * 32 + fieldOf v 24 6 * 64 ≤ w &&
  fieldOf v 8 7 ≤ 64 && fieldOf v 24 6 ≤ 32

/-- The trap block of a level. -/
def block (h : Hart) : Level → TrapBlock
  | .u => h.tu
  | .s => h.ts
  | .f => h.tf

def setBlock (h : Hart) (l : Level) (b : TrapBlock) : Hart :=
  match l with
  | .u => { h with tu := b }
  | .s => { h with ts := b }
  | .f => { h with tf := b }

/-- One step of the random stream: the new state and the drawn 64 bits (R150). -/
def draw (h : Hart) : Nat × Hart :=
  let m := 2 ^ 64
  let r := (h.rngs.toNat + 0x9E3779B97F4A7C15) % m
  let z := ((r ^^^ (r / 2 ^ 30)) * 0xBF58476D1CE4E5B9) % m
  let z := ((z ^^^ (z / 2 ^ 27)) * 0x94D049BB133111EB) % m
  (z ^^^ (z / 2 ^ 31), { h with rngs := BitVec.ofNat 64 r })

end Hart

/-- The number of a level: 0 U, 1 S, 2 F. -/
def Level.code : Level → Nat
  | .u => 0 | .s => 1 | .f => 2

/-- The level of a number; 3 names none and reads as F. -/
def Level.ofCode : Nat → Level
  | 0 => .u | 1 => .s | _ => .f

/-- The level above; F is its own. -/
def Level.up : Level → Level
  | .u => .s | .s => .f | .f => .f

/-! ## Completion (R17, R170) -/

/-- What a hart holds only while one instruction is in issue or waiting. -/
def Hart.settle (h : Hart) : Hart :=
  { h with winstr := none, woken := false, since := none, req := .idle, check := .idle, buf := [], asks := [], got := [], again := false }

/-- The instruction completes and the hart goes on at `pc`, with no end check: a taken branch, a jump, a call, `loop`. -/
def Hart.goTo (h : Hart) (pc : Word) : Hart := { h.settle with pc := pc, st := .run }

/-- The hart is at the loop's level (R170). -/
def Hart.atLoop (h : Hart) : Bool := h.lcnt != 0 && h.level.code == fieldOf h.lend 0 2

/-- Bits [63:2] of a state register, as an address. -/
def addrOf (x : Word) : Word := BitVec.ofNat 64 (x.toNat / 4 * 4)

/-- The end check of R170, and the pc it chooses. -/
def Hart.complete (h : Hart) : Hart :=
  if h.atLoop && h.npc == addrOf h.lend then
    let n : Word := match h.pcnt with
      | some w => if w = 0 then 0 else w - 1
      | none => h.lcnt - 1
    if n = 0 then ({ h with lcnt := 0, pcnt := none, psta := none, pend := none }).goTo h.npc
    else
      let sta := h.psta.getD h.lsta
      ({ h with lcnt := n, lsta := sta, lend := h.pend.getD h.lend, pcnt := none, psta := none, pend := none }).goTo (addrOf sta)
  else h.goTo h.npc

/-- The instruction completes and its hart parks: the end check of R170 is made, and the pc stays at the instruction (R21, R250). -/
def Hart.parkAt (h : Hart) (st : HartState) : Hart := { h.complete with pc := h.pc, st := st }

/-- The instruction completes (R17). -/
def State.finish (s : State) : Out := .next (s.mapHart Hart.complete)

/-- The instruction completes having changed the hart. -/
def State.done (s : State) (f : Hart → Hart) : Out := (s.mapHart f).finish

/-- The instruction issues again in the hart's next slot with no further effect (R49, R189). -/
def State.reissue (s : State) : Out := .next (s.mapHart fun h => { h with again := true, st := .run })

/-! ## Traps (R280 to R284, R294) -/

/-- The code of a cause, raised at a level (R280). -/
def Cause.code (c : Cause) (l : Level) : Nat :=
  match c with
  | .illegal => 0 | .illegalReg => 1 | .privilege => 2 | .misaligned => 3 | .access => 4 | .page => 5 | .uncorrectable => 6
  | .lost => 6 | .feLimit => 7 | .engine => 9 | .fieldRoutine => 10 | .breakpoint => 11 | .service => 12 + l.code

/-- The first level at or above `m` with a vector (R281); `none` when F has none either. -/
def Hart.vectored (h : Hart) (m : Level) : Option Level :=
  match m with
  | .u => if h.tu.vec != 0 then some .u else if h.ts.vec != 0 then some .s else if h.tf.vec != 0 then some .f else none
  | .s => if h.ts.vec != 0 then some .s else if h.tf.vec != 0 then some .f else none
  | .f => if h.tf.vec != 0 then some .f else none

/-- The delegation walk of R281 from F down. -/
def Hart.delegated (h : Hart) (c : Nat) : Level :=
  if h.level == .f || !h.tf.del.getLsbD c then .f
  else if h.level == .s || !h.ts.del.getLsbD c then .s
  else .u

/-- The target level of a trap with code `c` raised at the hart's level (R281). -/
def Hart.target (h : Hart) (c : Nat) : Level :=
  if c == 12 || (c == 2 && h.level == .u) then .s
  else if 12 ≤ c || c == 2 then .f
  else h.delegated c

/-- The saved registers, the status and the level after an entry at level `m` (R281). -/
def Hart.enter (h : Hart) (m : Level) (cause val pc : Word) : Hart :=
  let b := h.block m
  let ie := fieldOf b.stat 0 1
  let stat := setField (setField (setField b.stat 2 2 h.level.code) 1 1 ie) 0 1 0
  let h := h.setBlock m { b with cause := cause, val := val, pc := addrOf pc, stat := stat }
  { h with level := m }.goTo (addrOf b.vec)

/-- The hart number of R5: cell number and slot. -/
def hartNo (cell : Nat) (k : Slot) : Nat := cell * 16 + k.val

/-- Raises Headstock notice `bit` at the core that HNR field `lo` names (R391). -/
def State.notice (s : State) (bit lo : Nat) : State :=
  let n := fieldOf s.head.hnr lo 6
  match assocGet n s.cores with
  | none => s
  | some h => { s with cores := assocSet n { h with ts := { h.ts with ip := h.ts.ip ||| BitVec.ofNat 64 (2 ^ bit) } } s.cores }

/-- Posts a stopped hart to HSQ, or keeps it at its cell while HSQ is full (R391). -/
def State.postStop (s : State) (hart why : Nat) : State :=
  if s.head.hsq.length < 64 then
    { s with head := { s.head with hsq := s.head.hsq ++ [(hart, why)] } }.notice 6 8
  else { s with head := { s.head with hsqWait := s.head.hsqWait ++ [(hart, why)] } }

/-- An attempt ends (R67): STAGE and held spawns are discarded, and the hart parks until the record of TASK_ABORT is written. -/
def Hart.endTask (h : Hart) (e : EndKind) : Hart :=
  match h.task with
  | none => { h.settle with st := .park false }
  | some t =>
    { h.settle with st := .park false, engErr := [],
                    task := some { t with stage := [], spawns := [], checks := [], ending := some e } }

/-- The stop of R294: PARK for good, the task failed as by `tabt` with detail 0xFF_FFFF. -/
def Hart.stop (h : Hart) : Hart := { h.endTask (.failed 0x20 0xFFFFFF) with stopped := true }

/-- The issuing hart's number: a cell hart by cell and slot, a core by its own number. -/
def State.hartId (s : State) : Nat :=
  match s.cur with
  | .cell n => hartNo n s.cell.slot
  | .core n => n

/-- Stops the issuing hart and posts the notice (R281, R294). -/
def State.stopHart (s : State) (why : Nat) : State := (s.mapHart Hart.stop).postStop s.hartId why

/-- Takes a trap with code `c`, value `v` and trap pc `pc` in place of the instruction (R281). -/
def State.takeTrap (s : State) (c : Nat) (v pc : Word) : State :=
  let h := s.hart
  match h.vectored (h.target c) with
  | none => s.stopHart 1
  | some m => s.setHart (h.enter m (BitVec.ofNat 64 c) v pc)

/-- The trap of R140: the cause and its value, with the instruction's own pc (R136). -/
def State.trap (s : State) (c : Cause) (v : Word) : Out :=
  .next (s.takeTrap (c.code s.hart.level) v s.hart.pc)

/-- Trap value of the checks of R136: the first word. -/
def State.firstWord (s : State) : Word := s.hart.ir.setWidth 64

/-- Takes an interrupt with bit number `bit` targeted at `m`, with the trap pc of R21 (R281). -/
def State.takeInterrupt (s : State) (bit : Nat) (m : Level) (pc : Word) : State :=
  let h := s.hart
  match h.vectored m with
  | none => s.stopHart 1
  | some m => s.setHart (h.enter m (BitVec.ofNat 64 (2 ^ 63 + bit)) 0 pc)

/-- The status after a return (R284). -/
def returned (stat : Word) : Word := setField (setField stat 0 1 (fieldOf stat 1 1)) 1 1 1

/-- A return from the level the hart is at (R284). -/
def Hart.eret (h : Hart) : Hart :=
  let b := h.block h.level
  { h.setBlock h.level { b with stat := returned b.stat } with level := Level.ofCode (fieldOf b.stat 2 2) }.goTo b.pc

/-! ## The checks of R136, steps 3 and 4 -/

/-- Runs `k` when every s index and v index lies inside its view, and takes the illegal-register trap otherwise (R39). -/
def State.withRegs (s : State) (ss vs : List Reg) (k : Out) : Out :=
  if ss.all s.hart.sOk && vs.all s.hart.vOk then k else s.trap .illegalReg s.firstWord

/-- Runs `k` at level `l` or above, and takes the privilege trap otherwise (R275). -/
def State.withLevel (s : State) (l : Level) (k : Out) : Out :=
  if l.code ≤ s.hart.level.code then k else s.trap .privilege s.firstWord

/-- Runs `k` on a cell hart; an instruction R390 lists raises the illegal-instruction trap on a Headstock hart. DESIGN CHOICE (LOG 46): where that
trap stands in the order of R136 is not stated; it is tested before the register indices of step 4. -/
def State.cellOnly (s : State) (k : Out) : Out :=
  if s.isCore then s.trap .illegal s.firstWord else k

/-- Runs `k` unless a REPLAY task holds the hart, which then fails with reason 0x23 (R66). -/
def State.notReplay (s : State) (k : Out) : Out :=
  match s.hart.task with
  | some t => if t.replay then .next (s.mapHart fun h => h.endTask (.failed 0x23 0)) else k
  | none => k

/-- A scalar result: S(d) := v, then completion. -/
def State.writeS (s : State) (d : Reg) (v : Word) : Out := s.done fun h => h.setS d v

/-- The launch of the focused cell's team, if it serves one. -/
def State.launchOf (s : State) (c : Cell) : Option Launch :=
  c.serving.bind fun v => s.launches.find? fun l => l.id == v.launch

/-- The ASID the issuing hart's accesses carry (R105); a Headstock hart's is 0 (R390). -/
def State.asid (s : State) : Nat :=
  match s.cur with
  | .core _ => 0
  | .cell _ => ((s.launchOf s.cell).map (·.asid)).getD 0

/-- The current generation of an ASID (R335). -/
def State.gen (s : State) (asid : Nat) : Nat := (assocGet asid s.mem.gens).getD 0

end Sys2Proof.Machine
end

