-- ==== Sys2Proof/Machine/Operands.lean ====
section
/-! DEFINITION. Operand forms: the address of a memory operand, the values instructions read, integer operations (R140, R155, R162). -/

namespace Sys2Proof.Machine

/-- The address a memory operand names, modulo 2^64 (R127, R162, R188). -/
def Hart.address (h : Hart) (m : MemOp) : Word :=
  match m.index with
  | none => h.S m.base + m.imm
  | some (b, k) => h.S m.base + h.S b * BitVec.ofNat 64 (2 ^ k.toNat) + m.imm

/-- The registers a memory operand reads. -/
def regsOf (m : MemOp) : List Reg :=
  match m.index with
  | none => [m.base]
  | some (b, _) => [m.base, b]

/-- Base and offset (R192, R195, R198). -/
def Hart.offset (h : Hart) (a : Reg) (off : Word) : Word := h.S a + off

/-- 1 when the condition holds, else 0. -/
def flagWord (c : Bool) : Word := if c then 1 else 0

/-- The high 64 bits of the signed product (R155). -/
def mulHigh (x y : Word) : Word := BitVec.ofInt 64 (x.toInt * y.toInt / 2 ^ 64)

/-- The high 64 bits of the unsigned product (R155). -/
def mulHighU (x y : Word) : Word := BitVec.ofNat 64 (x.toNat * y.toNat / 2 ^ 64)

/-- The signed quotient, rounded toward zero (R156). -/
def divS (x y : Word) : Word := if y = 0 then BitVec.allOnes 64 else BitVec.ofInt 64 (x.toInt.tdiv y.toInt)

/-- The unsigned quotient (R156). -/
def divU (x y : Word) : Word := if y = 0 then BitVec.allOnes 64 else BitVec.ofNat 64 (x.toNat / y.toNat)

/-- The signed remainder, with the sign of the dividend (R156). -/
def remS (x y : Word) : Word := if y = 0 then x else BitVec.ofInt 64 (x.toInt.tmod y.toInt)

/-- The unsigned remainder (R156). -/
def remU (x y : Word) : Word := if y = 0 then x else BitVec.ofNat 64 (x.toNat % y.toNat)

/-- Shifts and rotates by `k` from 0 to 63 (R155). -/
def shiftL (x : Word) (k : Nat) : Word := x <<< k
def shiftR (x : Word) (k : Nat) : Word := x >>> k
def shiftA (x : Word) (k : Nat) : Word := x.sshiftRight k
def rotL (x : Word) (k : Nat) : Word := x.rotateLeft k
def rotR (x : Word) (k : Nat) : Word := x.rotateRight k

/-- The amount a register gives a shift: its low six bits (R155). -/
def amount (y : Word) : Nat := y.toNat % 64

def minS (x y : Word) : Word := if x.toInt ≤ y.toInt then x else y
def maxS (x y : Word) : Word := if x.toInt ≤ y.toInt then y else x
def minU (x y : Word) : Word := if x.toNat ≤ y.toNat then x else y
def maxU (x y : Word) : Word := if x.toNat ≤ y.toNat then y else x

/-- The absolute value; the most negative value gives itself (R158). -/
def absS (x : Word) : Word := if x.toInt < 0 then -x else x

/-- Leading zero bits among the low `n` (R158). -/
def clzN : Nat → Nat → Nat
  | 0, _ => 0
  | n + 1, x => if x / 2 ^ n % 2 = 1 then 0 else 1 + clzN n x

/-- Trailing zero bits among `n` (R158). -/
def ctzN : Nat → Nat → Nat
  | 0, _ => 0
  | n + 1, x => if x % 2 = 1 then 0 else 1 + ctzN n (x / 2)

/-- One bits among `n` (R158, R210). -/
def popN : Nat → Nat → Nat
  | 0, _ => 0
  | n + 1, x => x % 2 + popN n (x / 2)

/-- The low `n` bits of `x`, sign-extended to 64 (R140). -/
def signExt (n : Nat) (x : Word) : Word := (x.setWidth n).signExtend 64

/-- The low `n` bits of `x`, zero-extended to 64 (R140). -/
def zeroExt (n : Nat) (x : Word) : Word := (x.setWidth n).setWidth 64

/-- Bits [p + l - 1 : p] of `x` (R160). -/
def bitField (x : Word) (p l : Nat) : Word := BitVec.ofNat 64 (x.toNat / 2 ^ p % 2 ^ l)

/-- `old` with bits [p + l - 1 : p] replaced by the low `l` bits of `x` (R160). -/
def bitInsert (old x : Word) (p l : Nat) : Word :=
  BitVec.ofNat 64 (old.toNat % 2 ^ p + x.toNat % 2 ^ l * 2 ^ p + old.toNat / 2 ^ (p + l) * 2 ^ (p + l))

/-- A two-source operation on the s view (R154). -/
def alu (f : Word → Word → Word) (d a b : Reg) (s : State) : Out :=
  s.withRegs [d, a, b] [] (s.writeS d (f (s.hart.S a) (s.hart.S b)))

/-- A one-source operation on the s view (R158). -/
def unary (f : Word → Word) (d a : Reg) (s : State) : Out :=
  s.withRegs [d, a] [] (s.writeS d (f (s.hart.S a)))

end Sys2Proof.Machine
end

