-- ==== Sys2Proof/Machine/Place.lean ====
section
/-! DEFINITION. Clusters, routers and hops; the place of a cell in its team (R2 to R7, R55 to R57). -/

namespace Sys2Proof.Machine

/-- Cluster number and index in the cluster (R4). -/
def clusterOf (n : Nat) : Nat := localY n / 4 * 8 + localX n / 16
def indexOf (n : Nat) : Nat := localX n % 16 + 16 * (localY n % 4)

/-- Die-to-die hops between two dies of the grid (R2). -/
def hops (a b : Nat) : Nat := (max (a % 6) (b % 6) - min (a % 6) (b % 6)) + (max (a / 6) (b / 6) - min (a / 6) (b / 6))

/-- A subgroup word's fields (R57). -/
structure Subgroup where
  lw : Nat
  lh : Nat
  ox : Nat
  oy : Nat
  deriving DecidableEq, Repr

def subgroup (w : IWord) : Subgroup :=
  { lw := w.toNat % 16, lh := w.toNat / 16 % 16, ox := w.toNat / 2 ^ 8 % 2 ^ 9, oy := w.toNat / 2 ^ 17 % 2 ^ 9 }

/-- The subgroup word is legal in a team of 2^tw by 2^th cells (R57). -/
def subgroupLegal (tw th : Nat) (w : IWord) : Bool :=
  let g := subgroup w
  g.lw ≤ tw && g.lh ≤ th && g.ox % 2 ^ g.lw == 0 && g.oy % 2 ^ g.lh == 0 &&
  g.ox + 2 ^ g.lw ≤ 2 ^ tw && g.oy + 2 ^ g.lh ≤ 2 ^ th && w.toNat / 2 ^ 26 == 0

/-- The cells of a rectangle, in row-major order (R80). -/
def rectCells (x0 y0 w h : Nat) : List Nat :=
  (List.range h).flatMap fun j => (List.range w).map fun i => cellNo (x0 + i) (y0 + j)

/-- A launch by its identifier. -/
def State.launch? (s : State) (id : Nat) : Option Launch := s.launches.find? fun l => l.id == id

def Launch.team? (l : Launch) (no : Nat) : Option Team := l.teams.find? fun t => t.no == no

/-- Replaces a launch, by its identifier. -/
def State.putLaunch (s : State) (l : Launch) : State :=
  { s with launches := s.launches.map fun m => if m.id == l.id then l else m }

def Launch.putTeam (l : Launch) (t : Team) : Launch := { l with teams := l.teams.map fun u => if u.no == t.no then t else u }

def Launch.putNode (l : Launch) (n : Node) : Launch :=
  { l with nodes := l.nodes.map fun m => if m.index == n.index then n else m }

/-- A team of a launch. -/
def State.team? (s : State) (id no : Nat) : Option Team := (s.launch? id).bind fun l => l.team? no

/-- The cells of a placed team. -/
def State.teamCells (s : State) (id no : Nat) : List Nat :=
  match s.launch? id with
  | none => []
  | some l => match l.team? no with
    | none => []
    | some t => if t.placed then rectCells t.x0 t.y0 (2 ^ l.lw) (2 ^ l.lh) else []

/-- The number of the cell at team coordinates (R56), if the team is placed and holds it. -/
def State.teamCell (s : State) (id no tx ty : Nat) : Option Nat :=
  (s.launch? id).bind fun l => (l.team? no).bind fun t =>
    if t.placed && tx < 2 ^ l.lw && ty < 2 ^ l.lh then some (cellNo (t.x0 + tx) (t.y0 + ty)) else none

/-- The cells of a subgroup of a team, in row-major order. -/
def State.groupCells (s : State) (id no : Nat) (w : IWord) : List Nat :=
  match s.team? id no with
  | none => []
  | some t => let g := subgroup w; rectCells (t.x0 + g.ox) (t.y0 + g.oy) (2 ^ g.lw) (2 ^ g.lh)

/-! ## Fields as their descriptors say (R76, R77) -/

def Field.word (f : Field) (i : Nat) : Word := f.desc.getD i 0
def Field.n (f : Field) : Nat := fieldOf (f.word 0) 0 32
def Field.stype (f : Field) : Nat := fieldOf (f.word 0) 32 2
def Field.base (f : Field) : Nat := (f.word 2).toNat

/-- Bytes of a site (R77). -/
def siteSize (stype : Nat) : Nat := if stype = 3 then 4 else if stype = 2 then 2 else 1

def Field.size (f : Field) : Nat := siteSize f.stype

def Field.value (f : Field) (i : Nat) : Nat := f.sites.getD i 0

/-- The byte at an offset from the sites' base; zero at and past the last site (R91). -/
def Field.siteByte (f : Field) (o : Nat) : Byte :=
  if o < f.n * f.size then BitVec.ofNat 8 (f.value (o / f.size) / 2 ^ (8 * (o % f.size))) else 0

/-- The declared field of an ASID whose pages cover an address (R91, R338). -/
def State.fieldAt (s : State) (asid va : Nat) : Option Field :=
  s.fields.find? fun f =>
    (match s.launch? f.launch with
     | some l => l.asid == asid
     | none => false) &&
    f.base ≤ va && va < f.base + (f.n * f.size + 65535) / 65536 * 65536

/-! ## Parties -/

/-- A number of the issuing hart that no other hart has: cell harts by R5, cores after them. -/
def State.ownerId (s : State) : Nat :=
  match s.cur with
  | .cell n => hartNo n s.cell.slot
  | .core n => 2 ^ 24 + n

/-- The fields of a peer reference (R101). -/
structure PeerRef where
  off : Nat
  tx  : Nat
  ty  : Nat
  deriving DecidableEq, Repr

def peerRef (x : Word) : PeerRef := { off := fieldOf x 0 17, tx := fieldOf x 17 9, ty := fieldOf x 26 9 }

/-- The reference's reserved bits are zero and its cell lies in the team of the focused cell (R101). -/
def State.peerLegal (s : State) (x : Word) : Bool :=
  let p := peerRef x
  fieldOf x 35 29 == 0 &&
  (match s.launchOf s.cell with
   | none => false
   | some l => p.tx < 2 ^ l.lw && p.ty < 2 ^ l.lh)

end Sys2Proof.Machine
end

