-- ==== Sys2Proof/Machine/Clocks.lean ====
section
/-! DEFINITION. Dies and rails, and the voltage and clock step applied to a rail (R403, R404, R410, R413, R415, R420). -/

namespace Sys2Proof.Machine

/-- The highest voltage code (R394). -/
def vmax : Nat := 180

/-! ## Clamps (R410, R415, R420) -/

/-- The rails a sensor watches: the 12 rails of its cells (R413). -/
def sensorRails (i : Nat) : List Nat := (List.range 12).map fun k => (12 * (i / 8) + k) * 8 + i % 8

/-- The sensor that watches a rail. -/
def railSensor (r : Nat) : Nat := r / 8 / 12 * 8 + r % 8

/-- Neighbours of a sensor (R413). -/
def sensorNeighbours (i : Nat) : List Nat :=
  (List.range 64).filter fun j => j != i && i % 8 ≤ j % 8 + 1 && j % 8 ≤ i % 8 + 1 && i / 8 ≤ j / 8 + 1 && j / 8 ≤ i / 8 + 1

def Die.sensor? (x : Die) (i : Nat) : Option Sensor := (x.sensors.find? fun p => p.1 == i).map Prod.snd

/-- A sensor is marked failed. -/
def Die.failedSensor (x : Die) (i : Nat) : Bool := ((x.sensor? i).map (·.fail)).getD false

/-- Fewer than 32 of the 64 sensors are not failed (R415). -/
def Die.blind (x : Die) : Bool := 32 < ((List.range 64).filter x.failedSensor).length

/-- A rail watched by one of two neighbouring failed sensors (R415); the fabric rail is watched by none. -/
def Die.doubtful (x : Die) (r : Nat) : Bool :=
  r < 768 && x.failedSensor (railSensor r) && (sensorNeighbours (railSensor r)).any x.failedSensor

/-- A Drop ladder has clamped the rail (R420). -/
def State.dropClamped (s : State) (d r : Nat) : Bool := r < 768 && s.dies.any fun y => y.clamps.contains (moduleRail d r)

/-- The voltage code and the clock step a rail may not exceed (R410, R415, R420). -/
def State.clampOf (s : State) (d r : Nat) : Nat × Nat :=
  let x := s.dieAt d
  let a := if x.blind then (90, 24) else if x.doubtful r then (124, 56) else (vmax, 90)
  (a.1, Nat.min (Nat.min a.2 s.tail.mclamp) (if s.dropClamped d r then 8 else 90))

/-- The clamp of the rails of a die that stand under none of their own. -/
def State.dieClamp (s : State) (d : Nat) : Nat × Nat :=
  let a := if (s.dieAt d).blind then (90, 24) else (vmax, 90)
  (a.1, Nat.min a.2 s.tail.mclamp)

/-- The applied clock step of a rail (R403, R410). -/
def State.mnow (s : State) (d r : Nat) : Nat := (s.railAt d r).clock s.tbase

/-- The applied voltage code of a rail. -/
def State.vnow (s : State) (d r : Nat) : Nat := (s.railAt d r).volts s.tbase

/-- The rail of a die's fabric clock (R403). -/
def fabricRail : Nat := 768

/-- The fabric clock step of a die (R380, R403). -/
def State.fabric (s : State) (d : Nat) : Nat := s.mnow d fabricRail

/-! ## Instants (R9, LOG 1) -/

/-- The instant an agent has reached: ticks, and a part of a tick as a fraction. -/
def State.reached (s : State) (a : Agent) : Nat × Nat × Nat :=
  match a with
  | .cell n => let c := s.cellAt n; (c.tick, c.acc, c.m)
  | .core n => ((assocGet n s.coreAt).getD s.tbase, 0, 1)

/-- One instant comes before another. -/
def sooner (a b : Nat × Nat × Nat) : Bool := a.1 < b.1 || (a.1 == b.1 && a.2.1 * b.2.2 < b.2.1 * a.2.2)

/-- A tick, in the unit that instants are counted in: every cycle of every clock step is a whole number of it (R9, R27). -/
def tickUnits : Nat := 718766754945489455304472257065075294400

/-- A cycle of a clock of step `m` divided by `div`. -/
def cycleUnits (m div : Nat) : Nat := 40 * div * (tickUnits / m)

/-- A fabric cycle of a die. -/
def State.fabricCycle (s : State) (d : Nat) : Nat := cycleUnits (s.fabric d) 1

/-- The instant at which a cell's present cycle begins, and how long a cycle takes. -/
def Cell.begins (c : Cell) : Nat := tickUnits * c.tick + c.acc * (tickUnits / c.m)
def Cell.period (c : Cell) : Nat := cycleUnits c.m c.div

/-- The first cycle of a cell that begins at an instant or after it. -/
def Cell.cycleFrom (c : Cell) (t : Nat) : Nat :=
  if c.begins ≤ t then c.cycle + (t - c.begins + c.period - 1) / c.period else c.cycle - (c.begins - t) / c.period

/-- The present instant. -/
def State.instant (s : State) : Nat :=
  match s.cur with
  | .cell _ => max (tickUnits * s.tbase) s.cell.begins
  | .core _ => tickUnits * s.tbase

/-- The cycle count of a 2.25 GHz clock at the present instant: the rank of what happens now (R63, LOG 1). -/
def State.now (s : State) : Nat := 90 * s.instant / (40 * tickUnits)

/-- The cell's present cycle has not begun at the present instant. -/
def State.ahead (s : State) (c : Cell) : Bool :=
  sooner (s.tbase, 0, 1) (s.reached (.cell c.no)) && sooner (s.reached s.cur) (s.reached (.cell c.no))

/-! ## Times across the module (R320, R377, R379, R380, R425)

A time is a list of cycles, each with the step m of the clock that they are cycles of. -/

/-- Numbers from one to another, both included. -/
def between (x y : Nat) : List Nat := if x ≤ y then (List.range (y - x + 1)).map (x + ·) else (List.range (x - y + 1)).map (x - ·)

/-- Dies a packet crosses from one die to another, both ends among them: in x first, then in y (R377). -/
def gridRoute (a b : Nat) : List Nat :=
  (between (a % 6) (b % 6)).map (fun x => 6 * (a / 6) + x) ++ ((between (a / 6) (b / 6)).drop 1).map fun y => 6 * y + b % 6

/-- The column through which a die exchanges packets with the Headstock (R425). -/
def gate (dx : Nat) : Nat := if dx ≤ 2 then 2 else 3

/-- The same with the Headstock, number 54, beyond D02 and D03 (R425). -/
def route (a b : Nat) : List Nat :=
  if a = b then [a]
  else if a = 54 then 54 :: gridRoute (gate (b % 6)) b
  else if b = 54 then gridRoute a (gate (a % 6)) ++ [54]
  else gridRoute a b

/-- The time of a packet between two dies, without load: six cycles in each die, two on each edge, and two more of the slower clock where an
edge's two sides differ; 6 + 8c in all where none does (R379, R380). -/
def State.transit (s : State) (a b : Nat) : List (Nat × Nat) :=
  let r := route a b
  if r.length ≤ 1 then []
  else (r.map fun d => (6, s.fabric d)) ++ (r.zip (r.drop 1)).flatMap fun p =>
    let x := s.fabric p.1
    let y := s.fabric p.2
    (2, x) :: if x = y then [] else [(2, min x y)]

/-- A time in the unit of instants. -/
def timeUnits (ts : List (Nat × Nat)) : Nat := (ts.map fun p => p.1 * cycleUnits p.2 1).sum

end Sys2Proof.Machine
end

