-- ==== Sys2Proof/Machine/Float.lean ====
section
/-! DEFINITION. Number formats and rounding: values, codes, `rnd` and the exact operations (R141 to R149, R152, R176, R181, R216). -/

namespace Sys2Proof.Machine

/-- An exact value: NaN, an infinity, or the sign times (m + θ) · 2^e, where θ is 0, or lies strictly between 0 and 1 when
`sticky` stands. `sticky` stands only beside an m of more than 120 bits: a quotient, a root, a power cut off below. -/
inductive FVal where
  | nan (signalling : Bool)
  | inf (neg : Bool)
  | fin (neg : Bool) (m : Nat) (e : Int) (sticky : Bool)
  deriving DecidableEq, Repr

/-- What `rnd` needs of a floating format (R141 to R146). -/
structure FSpec where
  /-- Bits of a code. -/
  bits : Nat
  /-- Trailing-significand width. -/
  t    : Nat
  bias : Int
  /-- Magnitude code of maxf. -/
  top  : Nat
  nan  : Nat
  /-- Magnitude code of infinity, where the format has one. -/
  inf  : Option Nat
  unsigned : Bool
  ieee : Bool
  /-- Random bits of a stochastic rounding (R147). -/
  n    : Nat
  deriving DecidableEq, Repr

/-- The K-bit formats of R141 to R143, by precision P, unsigned N, extended E. -/
def smallSpec (k p : Nat) (n e : Bool) : FSpec :=
  let mag := if n then k else k - 1
  { bits := k, t := p - 1, bias := 2 ^ (mag - p),
    top := 2 ^ mag - 1 - (if n then 1 else 0) - (if e then 1 else 0),
    nan := if n then 2 ^ k - 1 else 2 ^ (k - 1),
    inf := if e then some (2 ^ mag - 1 - (if n then 1 else 0)) else none,
    unsigned := n, ieee := false, n := 16 }

/-- FP16, BF16, FP32 and FP64 (R146). -/
def wideSpec : FF → FSpec
  | .f16 => ⟨16, 10, 15, 0x7BFF, 0x7E00, some 0x7C00, false, true, 16⟩
  | .bf16 => ⟨16, 7, 127, 0x7F7F, 0x7FC0, some 0x7F80, false, true, 16⟩
  | .f32 => ⟨32, 23, 127, 0x7F7FFFFF, 0x7FC00000, some 0x7F800000, false, true, 32⟩
  | .f64 => ⟨64, 52, 1023, 0x7FEFFFFFFFFFFFFF, 0x7FF8000000000000, some 0x7FF0000000000000, false, true, 32⟩

/-- The spec of a floating fmt; an integer format has none and reads as FP64 here, where it is never asked. -/
def specOf : Fmt → FSpec
  | .wide f => wideSpec f
  | .b8 p n e => smallSpec 8 p.toNat n e
  | .int _ _ => wideSpec .f64

/-- The storage formats binary6 and binary4 (R143). -/
def storageSpec (f : StFmt) : FSpec := smallSpec (if f.w then 4 else 6) f.p.toNat f.n f.e

/-- The binary8 format of the same P, signedness and domain (R144). -/
def widenSpec (f : StFmt) : FSpec := smallSpec 8 f.p.toNat f.n f.e

/-- The code of a sign and a magnitude. -/
def signed (f : FSpec) (neg : Bool) (mag : Nat) : Nat := if neg && !f.unsigned then 2 ^ (f.bits - 1) + mag else mag

/-- The value of a magnitude code (R141, R146). -/
def magValue (f : FSpec) (neg : Bool) (m : Nat) : FVal :=
  let e := m / 2 ^ f.t
  let r := m % 2 ^ f.t
  if e = 0 then .fin neg r (1 - f.bias - f.t) false
  else .fin neg (2 ^ f.t + r) (e - f.bias - f.t) false

/-- The value of a code (R141 to R143, R146). -/
def valueOf (f : FSpec) (code : Nat) : FVal :=
  let c := code % 2 ^ f.bits
  if f.ieee then
    let neg := c / 2 ^ (f.bits - 1) == 1
    let m := c % 2 ^ (f.bits - 1)
    if some m = f.inf then .inf neg
    else if f.top < m then .nan (m / 2 ^ (f.t - 1) % 2 == 0)
    else magValue f neg m
  else if c = f.nan then .nan false
  else if f.unsigned then (if some c = f.inf then .inf false else magValue f false c)
  else
    let neg := c / 2 ^ (f.bits - 1) == 1
    let m := c % 2 ^ (f.bits - 1)
    if some m = f.inf then .inf neg else magValue f neg m

/-! Sticky flags, by their bits in `fflags` (R151). -/

def flagNX : Nat := 1
def flagUF : Nat := 2
def flagOF : Nat := 4
def flagDZ : Nat := 8
def flagNV : Nat := 16
def flagSA : Nat := 32

/-- The magnitude rounds up, by mode (R147): N is the grid number, rem the rest below it, out of 2^sh. -/
def roundUp (rm : Rm) (neg : Bool) (n rb N rem sh : Nat) (sticky : Bool) : Bool :=
  let some_ := rem != 0 || sticky
  match rm with
  | .rne => 2 ^ sh < 2 * rem || (2 * rem == 2 ^ sh && sh != 0 && (sticky || N % 2 == 1))
  | .rtz => false
  | .rup => some_ && !neg
  | .rdn => some_ && neg
  | .rst => 2 ^ n ≤ (if n ≤ sh then rem / 2 ^ (sh - n) else rem * 2 ^ (n - sh)) + rb

/-- rnd of R147 into a floating format, with the random bits already drawn: the code and the flags it raises. -/
def rnd (f : FSpec) (rm : Rm) (sat : Bool) (rb : Nat) (x : FVal) : Nat × Nat :=
  match x with
  | .nan _ => (f.nan, 0)
  | .inf neg =>
    if f.unsigned && neg then (if sat then (0, flagSA ||| flagNX) else (f.nan, flagNV))
    else if sat then (signed f neg f.top, flagSA ||| flagNX)
    else match f.inf with
      | some i => (signed f neg i, 0)
      | none => (f.nan, flagNV)
  | .fin neg m e sticky =>
    if m = 0 then (if f.ieee then signed f neg 0 else 0, 0)
    else if f.unsigned && neg then (if sat then (0, flagSA ||| flagNX) else (f.nan, flagNV))
    else
      let emin : Int := 1 - f.bias
      let lg : Int := (Nat.log2 m : Int) + e
      let E : Int := max lg emin
      let s : Int := E - f.t - e
      let sh := s.toNat
      let N := if s < 0 then m * 2 ^ (-s).toNat else m / 2 ^ sh
      let rem := if s < 0 then 0 else m % 2 ^ sh
      let up := roundUp rm neg f.n rb N rem sh sticky
      let code := (E - emin).toNat * 2 ^ f.t + N + (if up then 1 else 0)
      let off := rem != 0 || sticky
      let uf := if off && lg < emin then flagUF else 0
      if f.top < code then
        if sat then (signed f neg f.top, uf ||| flagSA ||| flagNX)
        else
          let fl := uf ||| flagOF ||| flagNX
          if rm == .rtz || (rm == .rup && neg) || (rm == .rdn && !neg) || (rm == .rst && !up) then (signed f neg f.top, fl)
          else match f.inf with
            | some i => (signed f neg i, fl)
            | none => (f.nan, fl)
      else
        -- a zero result of a format without −0 is 0x00
        ((if code = 0 && !f.ieee then 0 else signed f neg code), uf ||| (if off then flagNX else 0))

/-- rnd of R149 into an integer format of `k` bits: the value and the flags. -/
def rndInt (k : Nat) (sgn : Bool) (rm : Rm) (x : FVal) : Int × Nat :=
  let lo : Int := if sgn then -(2 ^ (k - 1)) else 0
  let hi : Int := if sgn then 2 ^ (k - 1) - 1 else 2 ^ k - 1
  match x with
  | .nan _ => (0, flagNV)
  | .inf neg => (if neg then lo else hi, flagNV)
  | .fin neg m e sticky =>
    if m = 0 then (0, 0)
    else if 0 < (Nat.log2 m : Int) + e - 70 then (if neg then lo else hi, flagNV)
    else
      let sh := (-e).toNat
      let N := if 0 ≤ e then m * 2 ^ e.toNat else m / 2 ^ sh
      let rem := if 0 ≤ e then 0 else m % 2 ^ sh
      let up := roundUp rm neg 16 0 N rem sh sticky
      let q : Int := (N : Int) + (if up then 1 else 0)
      let v := if neg then -q else q
      if v < lo then (lo, flagNV) else if hi < v then (hi, flagNV)
      else (v, if rem != 0 || sticky then flagNX else 0)

/-! ## Exact operations -/

/-- The signed integer that a finite value is at exponent `e`. -/
def scaled (neg : Bool) (m : Nat) (e e' : Int) : Int :=
  let v : Int := m * 2 ^ (e - e').toNat
  if neg then -v else v

/-- The exact sum of two finite values; an exact zero carries the sign of R176. -/
def addFin (rm : Rm) (n1 : Bool) (m1 : Nat) (e1 : Int) (n2 : Bool) (m2 : Nat) (e2 : Int) : FVal :=
  let e := min e1 e2
  let v := scaled n1 m1 e1 e + scaled n2 m2 e2 e
  if v = 0 then
    (if m1 = 0 && m2 = 0 && n1 == n2 then .fin n1 0 0 false else .fin (rm == .rdn) 0 0 false)
  else .fin (decide (v < 0)) v.natAbs e false

/-- x + y before rounding, with the flags of R176. -/
def addV (rm : Rm) (x y : FVal) : FVal × Nat :=
  match x, y with
  | .nan a, .nan b => (.nan false, if a || b then flagNV else 0)
  | .nan a, _ => (.nan false, if a then flagNV else 0)
  | _, .nan b => (.nan false, if b then flagNV else 0)
  | .inf a, .inf b => if a == b then (.inf a, 0) else (.nan false, flagNV)
  | .inf a, _ => (.inf a, 0)
  | _, .inf b => (.inf b, 0)
  | .fin n1 m1 e1 _, .fin n2 m2 e2 _ => (addFin rm n1 m1 e1 n2 m2 e2, 0)

/-- The value with its sign turned; a NaN stays itself. -/
def negV : FVal → FVal
  | .nan b => .nan b
  | .inf n => .inf !n
  | .fin n m e s => .fin (!n) m e s

/-- x · y before rounding, with the flags of R176. -/
def mulV (x y : FVal) : FVal × Nat :=
  match x, y with
  | .nan a, .nan b => (.nan false, if a || b then flagNV else 0)
  | .nan a, _ => (.nan false, if a then flagNV else 0)
  | _, .nan b => (.nan false, if b then flagNV else 0)
  | .inf a, .inf b => (.inf (a != b), 0)
  | .inf a, .fin b m _ _ => if m = 0 then (.nan false, flagNV) else (.inf (a != b), 0)
  | .fin a m _ _, .inf b => if m = 0 then (.nan false, flagNV) else (.inf (a != b), 0)
  | .fin a m1 e1 _, .fin b m2 e2 _ => (.fin (a != b) (m1 * m2) (e1 + e2) false, 0)

/-- The quotient of two positive dyadic numbers, to more than 128 bits, with what is left as sticky. -/
def quotient (neg : Bool) (m1 : Nat) (e1 : Int) (m2 : Nat) (e2 : Int) : FVal :=
  let k := 192 + Nat.log2 m2
  let a := m1 * 2 ^ k
  .fin neg (a / m2) (e1 - e2 - k) (a % m2 != 0)

/-- x / y before rounding, with the flags of R176; an infinity over a zero is that infinity. -/
def divV (x y : FVal) : FVal × Nat :=
  match x, y with
  | .nan a, .nan b => (.nan false, if a || b then flagNV else 0)
  | .nan a, _ => (.nan false, if a then flagNV else 0)
  | _, .nan b => (.nan false, if b then flagNV else 0)
  | .inf _, .inf _ => (.nan false, flagNV)
  | .inf a, .fin b m _ _ => (.inf (if m = 0 then a else a != b), 0)
  | .fin a _ _ _, .inf b => (.fin (a != b) 0 0 false, 0)
  | .fin a m1 e1 _, .fin b m2 e2 _ =>
    if m2 = 0 then (if m1 = 0 then (.nan false, flagNV) else (.inf (a != b), flagDZ))
    else if m1 = 0 then (.fin (a != b) 0 0 false, 0)
    else (quotient (a != b) m1 e1 m2 e2, 0)

/-- Integer square root by Newton's steps from above; `fuel` steps at most. -/
def isqrtGo : Nat → Nat → Nat → Nat
  | 0, _, x => x
  | fuel + 1, n, x =>
    let y := (x + n / x) / 2
    if y < x then isqrtGo fuel n y else x

/-- The floor of the square root. -/
def isqrt (n : Nat) : Nat := if n = 0 then 0 else isqrtGo 600 n (2 ^ (Nat.log2 n / 2 + 1))

/-- The square root before rounding, with the flags of R176. -/
def sqrtV (x : FVal) : FVal × Nat :=
  match x with
  | .nan a => (.nan false, if a then flagNV else 0)
  | .inf neg => if neg then (.nan false, flagNV) else (.inf false, 0)
  | .fin neg m e _ =>
    if m = 0 then (.fin neg 0 0 false, 0)
    else if neg then (.nan false, flagNV)
    else
      let k : Nat := 320 + (if (e - 320) % 2 = 0 then 0 else 1)
      let a := m * 2 ^ k
      let r := isqrt a
      (.fin false r ((e - k) / 2) (r * r != a), 0)

/-- a·b + c with one rounding, where the product may be negated and c may be (R181). -/
def fmaV (rm : Rm) (negP negC : Bool) (a b c : FVal) : FVal × Nat :=
  let sig : FVal → Bool := fun v => match v with | .nan s => s | _ => false
  let isNan : FVal → Bool := fun v => match v with | .nan _ => true | _ => false
  let snan := if sig a || sig b || sig c then flagNV else 0
  let invalid := match a, b with
    | .inf _, .fin _ 0 _ _ => true
    | .fin _ 0 _ _, .inf _ => true
    | _, _ => false
  if invalid then (.nan false, snan ||| flagNV)
  else if isNan a || isNan b || isNan c then (.nan false, snan)
  else
    let p := (mulV a b).1
    addV rm (if negP then negV p else p) (if negC then negV c else c)

/-- The order of two non-NaN values: negative, zero or positive as x is below, equal to or above y. -/
def cmpV (x y : FVal) : Int :=
  match x, y with
  | .inf a, .inf b => if a == b then 0 else if a then -1 else 1
  | .inf a, _ => if a then -1 else 1
  | _, .inf b => if b then 1 else -1
  | .fin n1 m1 e1 _, .fin n2 m2 e2 _ =>
    let e := min e1 e2
    scaled n1 m1 e1 e - scaled n2 m2 e2 e
  | _, _ => 0

def FVal.isNan : FVal → Bool
  | .nan _ => true
  | _ => false

def FVal.isSig : FVal → Bool
  | .nan s => s
  | _ => false

/-- ln 2 · 2^352, cut off. -/
def ln2 : Nat := 0xb17217f7d1cf79abc9e3b39803f2f6af40f343267298b62d8a0d175b8baafa2be7b876206debac98559552fb

/-- The Taylor terms of e^y from the `n`th on, y and the result scaled by 2^352; `fuel` terms. -/
def expTerms : Nat → Nat → Nat → Nat → Nat
  | 0, _, _, _ => 0
  | fuel + 1, n, y, term => term + expTerms fuel (n + 1) y (term * y / 2 ^ 352 / (n + 1))

/-- 2^r · 2^352 for r = x / 2^352 below 1, cut off below by less than 2^-340 of its value. -/
def exp2Frac (x : Nat) : Nat := expTerms 90 0 (x * ln2 / 2 ^ 352) (2 ^ 352)

/-- 2^A before rounding, with the flags of R216. Where the integral part of A lies outside ±4096 the value rounds in every format as with ±4096 in
its place. -/
def exp2V (x : FVal) : FVal × Nat :=
  match x with
  | .nan a => (.nan false, if a then flagNV else 0)
  | .inf neg => (if neg then .fin false 0 0 false else .inf false, 0)
  | .fin neg m e _ =>
    if m = 0 then (.fin false 1 0 false, 0)
    else
      -- A · 2^352 is an integer: every f16, bf16 and f32 value is a multiple of 2^-149
      let v := scaled neg m (e + 352) 0
      let k := max (-4096) (min 4096 (v / 2 ^ 352))
      let r := (v % 2 ^ 352).toNat
      if r = 0 then (.fin false 1 k false, 0)
      else (.fin false (exp2Frac r / 2 ^ 192) (k - 160) true, 0)

/-- fmin and fmax on codes (R177): −0 lies below +0, a single NaN gives the other operand, flags NV for a signalling one. -/
def minMax (f : FSpec) (max : Bool) (a b : Nat) : Nat × Nat :=
  let x := valueOf f a
  let y := valueOf f b
  let fl := if x.isSig || y.isSig then flagNV else 0
  if x.isNan && y.isNan then (f.nan, fl)
  else if x.isNan then (b % 2 ^ f.bits, fl)
  else if y.isNan then (a % 2 ^ f.bits, fl)
  else
    let c := cmpV x y
    let aNeg := a % 2 ^ f.bits / 2 ^ (f.bits - 1) == 1
    let aBelow := if c = 0 then aNeg else decide (c < 0)
    (if aBelow != max then a % 2 ^ f.bits else b % 2 ^ f.bits, fl)

/-- The conditions of R182. -/
inductive FCond where
  | eq | lt | le | un | ne
  deriving DecidableEq, Repr

/-- A comparison and the NV flag it raises (R182). -/
def compareV (c : FCond) (x y : FVal) : Bool × Nat :=
  let nan := x.isNan || y.isNan
  let sig := x.isSig || y.isSig
  let quiet := if sig then flagNV else 0
  match c with
  | .eq => (!nan && cmpV x y == 0, quiet)
  | .lt => (!nan && decide (cmpV x y < 0), if nan then flagNV else 0)
  | .le => (!nan && decide (cmpV x y ≤ 0), if nan then flagNV else 0)
  | .un => (nan, quiet)
  | .ne => (nan || cmpV x y != 0, quiet)

/-- The class of a code, as its bit of `fclass` (R179). -/
def classOf (f : FSpec) (code : Nat) : Nat :=
  match valueOf f code with
  | .inf true => 0
  | .inf false => 7
  | .nan true => 8
  | .nan false => 9
  | .fin neg m _ _ =>
    if m = 0 then (if neg then 3 else 4)
    else if m < 2 ^ f.t then (if neg then 2 else 5)
    else (if neg then 1 else 6)

/-- `frnd` on a code (R180): the grid step is 1; the flags are NX and NV alone. -/
def frndCode (f : FSpec) (rm : Rm) (rb : Nat) (code : Nat) : Nat × Nat :=
  match valueOf f code with
  | .nan s => (f.nan, if s then flagNV else 0)
  | .inf neg => (signed f neg (f.inf.getD 0), 0)
  | .fin neg m e _ =>
    if 0 ≤ e || m = 0 then (code % 2 ^ f.bits, 0)
    else
      let sh := (-e).toNat
      let N := m / 2 ^ sh
      let rem := m % 2 ^ sh
      let q := N + (if roundUp rm neg f.n rb N rem sh false then 1 else 0)
      ((rnd f .rtz false 0 (.fin neg q 0 false)).1, if rem != 0 then flagNX else 0)

/-- Narrowing of R144: nearest-even and saturating; an infinity of the extended domain, the widening of the storage infinity,
narrows back to it (LOG 4). -/
def narrow (f : StFmt) (code : Nat) : Nat :=
  let x := valueOf (widenSpec f) code
  match x, (storageSpec f).inf with
  | .inf neg, some i => signed (storageSpec f) neg i
  | _, _ => (rnd (storageSpec f) .rne true 0 x).1

/-- Widening of R144, which is exact for every code. -/
def widen (f : StFmt) (code : Nat) : Nat := (rnd (widenSpec f) .rne false 0 (valueOf (storageSpec f) code)).1

/-- A value times 2^k, exactly. -/
def scaleV (x : FVal) (k : Int) : FVal :=
  match x with
  | .fin neg m e s => .fin neg m (e + k) s
  | v => v

/-- The value of a binary8 code read with its scale byte (R145). -/
def scaledValue (f : FSpec) (code : Nat) (scale : Byte) : FVal :=
  if scale = 0xFF then .nan false else scaleV (valueOf f code) ((scale.toNat : Int) - 127)

/-- The larger of two non-negative magnitudes (m, e). -/
def maxMag (a b : Nat × Int) : Nat × Int :=
  let e := min a.2 b.2
  if a.1 * 2 ^ (a.2 - e).toNat ≤ b.1 * 2 ^ (b.2 - e).toNat then b else a

/-- The block scale k of R152 for a binary8 format. -/
def blockScale (f : FSpec) (vals : List FVal) : Int :=
  let amax := vals.foldl (fun acc v => match v with
    | .fin neg m e _ => if f.unsigned && neg then acc else maxMag acc (m, e)
    | _ => acc) (0, 0)
  if amax.1 = 0 then 0
  else
    let top := match magValue f false f.top with
      | .fin _ m e _ => (m, e)
      | _ => (1, 0)
    -- the smallest k with amax · 2^-k ≤ maxf: one of two neighbours of the difference of the logarithms
    let k0 : Int := ((Nat.log2 amax.1 : Int) + amax.2) - ((Nat.log2 top.1 : Int) + top.2)
    let fits (k : Int) : Bool :=
      let e := min (amax.2 - k) top.2
      amax.1 * 2 ^ (amax.2 - k - e).toNat ≤ top.1 * 2 ^ (top.2 - e).toNat
    let k := if fits k0 then k0 else k0 + 1
    max (-127) (min 127 k)

end Sys2Proof.Machine
end

