-- ==== Sys2Proof/Machine/Global.lean ====
section
/-! DEFINITION. Global memory: physical ranges and format regions, walks and agents, on-die lines, CACHE (R104 to R108, R335 to R356). -/

namespace Sys2Proof.Machine

/-- What an access to global memory is answered with. -/
inductive Answer (α : Type) where
  | ok (a : α)
  /-- A page fault; the line and the level of the invalid entry (R350). -/
  | page (ptLine level : Nat)
  | denied
  /-- An uncorrectable error: the frame lies on a failed die (R372). -/
  | lost
  /-- Any other uncorrectable error (R66, R186). -/
  | bad
  /-- The miss is parked at an agent: a held or a draining page (R344, R346). -/
  | wait
  deriving DecidableEq, Repr

def Answer.bind {α β : Type} (x : Answer α) (f : α → Answer β) : Answer β :=
  match x with
  | .ok a => f a
  | .page l k => .page l k
  | .denied => .denied
  | .lost => .lost
  | .bad => .bad
  | .wait => .wait

/-- The cause that an answer other than a place or a wait fails an access with (R66, R186). -/
def Answer.cause {α : Type} (x : Answer α) : Option Cause :=
  match x with
  | .page _ _ => some .page
  | .denied => some .access
  | .lost => some .lost
  | .bad => some .uncorrectable
  | .ok _ => none
  | .wait => none

/-- What an access needs of a page (R339). -/
inductive Need where
  | load | store | amo | fetch
  deriving DecidableEq, Repr

/-! ## Physical memory (R337) -/

def dieOfPa (pa : Nat) : Nat := pa / 2 ^ 36
def inStack (pa : Nat) : Bool := dieOfPa pa < 54 && pa % 2 ^ 36 < 0xC00000000
def inView (pa : Nat) : Bool := dieOfPa pa < 54 && 0xC00000000 ≤ pa % 2 ^ 36
def deviceBase : Nat := 0xF000000000000
def ctxbAddr : Nat := deviceBase
def asid0Addr : Nat := deviceBase + 8
def gmbAddr : Nat := deviceBase + 16

/-- PA[51:16] of a register. -/
def paMask : Word := 0xFFFFFFFFF0000

/-- The network block of a die (R387). -/
def netBlock (d : Nat) : Nat := deviceBase + 0x300000 + d * 0x1000

/-- Reset value of a device register held as stored: NWGT 0x213442, NAGE 96, every other one 0 (R387). -/
def devReset (a : Nat) : Word :=
  if a < deviceBase + 0x300000 || deviceBase + 0x300000 + 54 * 0x1000 ≤ a then 0
  else if a % 0x1000 = 0 then 0x213442
  else if a % 0x1000 = 8 then 96
  else 0

/-- A device register as stored. -/
def State.devReg (s : State) (a : Nat) : Word := (assocGet a s.mem.regs).getD (devReset a)

/-- A device register stored. -/
def State.setDevReg (s : State) (a : Nat) (v : Word) : State :=
  { s with mem := { s.mem with regs := assocSet a v s.mem.regs } }

/-- Die `d` has been declared failed (R369). -/
def State.failed (s : State) (d : Nat) : Bool := s.head.fail.getLsbD d

/-- The stack of die `d` is in self-refresh (R419). -/
def State.refreshing (s : State) (d : Nat) : Bool := s.dies.any fun x => x.no == d && x.refresh

/-- A format region's registers (R355). -/
structure Region where
  en    : Bool
  vbase : Nat
  vlim  : Nat
  f     : StFmt
  lay   : Nat
  sbase : Nat
  cbase : Nat
  deriving DecidableEq, Repr

def State.region (s : State) (d r : Nat) : Region :=
  let a := deviceBase + 0x200000 + d * 0x1000 + 32 * r
  let w0 := s.devReg a
  let w1 := s.devReg (a + 8)
  let w2 := s.devReg (a + 16)
  let w3 := s.devReg (a + 24)
  { en := w0.getLsbD 0, vbase := fieldOf w0 16 36 * 65536, vlim := fieldOf w1 16 36 * 65536,
    f := { w := w2.getLsbD 0, p := BitVec.ofNat 3 (fieldOf w2 1 3), n := w2.getLsbD 4, e := w2.getLsbD 5 },
    lay := fieldOf w2 6 2, sbase := fieldOf w2 24 36 * 65536, cbase := fieldOf w3 16 36 * 65536 }

/-- Bytes of a packed block (R247). -/
def blockBytes (f : StFmt) : Nat := if f.w then 17 else 25

/-- Bits of a storage code. -/
def codeBits (f : StFmt) : Nat := if f.w then 4 else 6

/-- The precision is one the storage format has (R143, R246). -/
def precisionOk (f : StFmt) : Bool := 1 ≤ f.p.toNat && f.p.toNat ≤ (if f.w then 3 else 5)

/-- The region holds no reserved value and stays inside its die's ranges (R355). -/
def Region.legal (g : Region) (d : Nat) : Bool :=
  let n := (g.vlim - g.vbase) / 32
  let z := if g.lay == 0 then blockBytes g.f else blockBytes g.f - 1
  precisionOk g.f && g.lay < 2 &&
  d * 2 ^ 36 + 0xC00000000 ≤ g.vbase && g.vlim ≤ (d + 1) * 2 ^ 36 &&
  d * 2 ^ 36 ≤ g.sbase && g.sbase + z * n ≤ d * 2 ^ 36 + 0xC00000000 &&
  (g.lay == 0 || (d * 2 ^ 36 ≤ g.cbase && g.cbase + n ≤ d * 2 ^ 36 + 0xC00000000))

/-- The enabled region that serves a view address; `none` makes the access an access fault (R355). -/
def State.regionAt (s : State) (pa : Nat) : Option Region :=
  let d := dieOfPa pa
  let on := ((List.range 16).map (s.region d)).filter fun g => g.en
  match on.filter fun g => g.vbase ≤ pa && pa < g.vlim with
  | [g] => if g.legal d && ((on.filter fun h => h.vbase < g.vlim && g.vbase < h.vlim).length == 1) then some g else none
  | _ => none

/-- The codes of a packed value, widened (R247, R144). -/
def unpackCodes (f : StFmt) (bs : List Byte) : List Byte :=
  let v := leNat bs
  (List.range 32).map fun j => BitVec.ofNat 8 (widen f (v / 2 ^ (codeBits f * j) % 2 ^ codeBits f))

/-- The packed value of 32 binary8 codes, narrowed (R247, R144). -/
def packCodes (f : StFmt) (bs : List Byte) : List Byte :=
  leBytes (blockBytes f - 1) ((bs.zip (List.range 32)).foldl (fun v p => v + narrow f p.1.toNat * 2 ^ (codeBits f * p.2)) 0)

/-- The address of the stored codes of view granule `i`, and of its scale byte (R355). -/
def Region.store (g : Region) (i : Nat) : Nat × Nat :=
  let z := blockBytes g.f
  if g.lay == 0 then (g.sbase + z * i, g.sbase + z * i + (z - 1)) else (g.sbase + (z - 1) * i, g.cbase + i)

/-- One granule of a format view: its codes and its scale (R108). -/
def readGranule (m : Mem) (g : Region) (i : Nat) : List Byte × Byte :=
  let p := g.store i
  (unpackCodes g.f (m.read p.1 (blockBytes g.f - 1)), m.byte p.2)

def writeGranule (m : Mem) (g : Region) (i : Nat) (bs : List Byte) (scale : Byte) : Mem :=
  let p := g.store i
  (m.write p.1 (packCodes g.f bs)).put p.2 scale

/-- The 128 bytes and 4 sideband bytes at a line address of physical memory (R337, R355, R356). -/
def State.physLine (s : State) (kept : Bool) (pa : Nat) : Answer (List Byte × List Byte) :=
  if inStack pa || inView pa then
    if s.failed (dieOfPa pa) then .lost
    else if s.refreshing (dieOfPa pa) then .wait
    else if s.mem.poison.contains (pa / 128) then .bad
    else if inStack pa then .ok (s.mem.phys.read pa 128, if kept then s.mem.physSb.read (pa / 32) 4 else zeros 4)
    else match s.regionAt pa with
      | none => .denied
      | some g =>
        let gs := (List.range 4).map fun k => readGranule s.mem.phys g ((pa - g.vbase) / 32 + k)
        .ok (gs.flatMap Prod.fst, gs.map Prod.snd)
  else .denied

/-- A line written to physical memory; nothing is written where R337 has no memory or the die has failed. A whole line written is free of
error. -/
def State.putPhysLine (s : State) (kept : Bool) (pa : Nat) (bs sb : List Byte) : State :=
  if s.failed (dieOfPa pa) then s
  else if inStack pa then
    let sbs := if kept then s.mem.physSb.write (pa / 32) sb else s.mem.physSb
    { s with mem := { s.mem with phys := s.mem.phys.write pa bs, physSb := sbs, poison := s.mem.poison.filter (· != pa / 128) } }
  else if inView pa then
    match s.regionAt pa with
    | none => s
    | some g =>
      let m := (List.range 4).foldl (fun m k =>
        writeGranule m g ((pa - g.vbase) / 32 + k) ((bs.drop (32 * k)).take 32) (sb.getD k 0)) s.mem.phys
      { s with mem := { s.mem with phys := m } }
  else s

/-! ## On-die lines (R105) -/

def State.line? (s : State) (k : LineKey) : Option OLine := s.mem.lines.find? fun l => l.key == k

def State.putLine (s : State) (l : OLine) : State :=
  { s with mem := { s.mem with lines := l :: s.mem.lines.filter fun m => m.key != l.key } }

def State.dropLine (s : State) (k : LineKey) : State :=
  { s with mem := { s.mem with lines := s.mem.lines.filter fun m => m.key != k } }

/-- The virtual address of a physical one in direct window A (R336). -/
def windowA (pa : Nat) : Nat := 2 ^ 54 + pa

/-- The line of a physical address as window A tags it. -/
def windowKey (pa : Nat) : LineKey := ⟨0, 0, windowA pa / 128⟩

/-- An 8-byte word of a table, as the agents read it: the line's on-die value, or memory's (R335, R341). -/
def State.ptWord (s : State) (pa : Nat) : Answer Word :=
  match s.line? (windowKey pa) with
  | some l => .ok (BitVec.ofNat 64 (leNat ((l.data.drop (pa % 128)).take 8)))
  | none => (s.physLine false (pa / 128 * 128)).bind fun p => .ok (BitVec.ofNat 64 (leNat ((p.1.drop (pa % 128)).take 8)))

/-! ## Page-table entries (R338) -/

def pteV (w : Word) : Bool := w.getLsbD 0
def pteL (w : Word) : Bool := w.getLsbD 1
def pteHome (w : Word) : Nat := fieldOf w 6 3
def pteK (w : Word) : Bool := w.getLsbD 9
def pteH (w : Word) : Bool := w.getLsbD 10
def ptePa (w : Word) : Nat := fieldOf w 16 36 * 65536
def pteSel (w : Word) : Nat := fieldOf w 52 6

/-- A legal non-leaf entry. -/
def pteTable (w : Word) : Bool := fieldOf w 1 15 == 0 && fieldOf w 52 12 == 0

/-- A legal leaf; `big` at PT2. The pa and sel fields of a POOL leaf are ignored. -/
def pteLeaf (w : Word) (big : Bool) : Bool :=
  pteL w && pteHome w < 5 && (!pteK w || pteHome w < 3) && fieldOf w 11 5 == 0 && fieldOf w 58 6 == 0 &&
  (!big || pteHome w == 3 || fieldOf w 16 13 == 0) &&
  (if pteHome w == 1 then pteSel w < 54 else pteHome w == 2 || pteHome w == 3 || pteSel w == 0)

/-- The rights a leaf gives (R338). -/
def ptePerm (w : Word) : Perm := { r := w.getLsbD 2, w := w.getLsbD 3, x := w.getLsbD 4, u := w.getLsbD 5 }

/-- The rights allow the access at the level (R338, R339). -/
def Perm.allows (p : Perm) (lv : Level) (n : Need) : Bool :=
  (lv != .u || p.u) &&
  (match n with
   | .load => p.r
   | .store => p.w
   | .amo => p.r && p.w
   | .fetch => p.x)

/-! ## Walks and agents (R335, R338 to R341, R350) -/

/-- The context entry of an ASID, as its four words; ASID 0 has none, and the bytes in its place are never read (R335). -/
def State.context (s : State) (asid : Nat) : Answer (List Word) :=
  if asid = 0 then .denied
  else
    let a := fieldOf (s.devReg ctxbAddr) 16 36 * 65536 + 32 * asid
    (s.ptWord a).bind fun w0 => (s.ptWord (a + 8)).bind fun w1 => (s.ptWord (a + 16)).bind fun w2 => .ok [w0, w1, w2]

/-- Every compute die that has not been declared failed. -/
def State.liveDies (s : State) : BitVec 54 := ~~~ s.head.fail

/-- The die set that homes and agents of an ASID follow: the latched one, or the entry's where none is latched yet (R368). -/
def State.dieSet (s : State) (asid : Nat) : BitVec 54 :=
  if asid = 0 then s.liveDies
  else match s.mem.latched.find? fun l => l.1 == asid with
    | some l => l.2.2
    | none => match s.context asid with
      | .ok ws => BitVec.ofNat 54 (ws.getD 1 0).toNat
      | _ => 0

/-- The die set and the seed of an ASID are not known yet: none are latched, and the entry's stack is in self-refresh (R368, R419). -/
def State.contextWaits (s : State) (asid : Nat) : Bool :=
  !(s.mem.latched.any fun l => l.1 == asid) && s.context asid == .wait

/-- The seed likewise. -/
def State.seed (s : State) (asid : Nat) : Word :=
  if asid = 0 then 0
  else match s.mem.latched.find? fun l => l.1 == asid with
    | some l => l.2.1
    | none => match s.context asid with
      | .ok ws => ws.getD 2 0
      | _ => 0

/-- PA of an ASID's PT3 table (R335). -/
def State.root (s : State) (asid : Nat) : Answer Nat :=
  if asid = 0 then .ok (fieldOf (s.devReg asid0Addr) 16 36 * 65536)
  else (s.context asid).bind fun ws =>
    if (ws.getD 0 0).getLsbD 0 then .ok (fieldOf (ws.getD 0 0) 16 36 * 65536) else .denied

/-- A walk: the leaf, the page's physical address and the table lines it read (R338). -/
def State.walk (s : State) (asid page : Nat) : Answer (Word × Nat × List Nat) :=
  (s.root asid).bind fun root =>
    let e3 := root + 8 * (page / 2 ^ 26 % 8192)
    (s.ptWord e3).bind fun w3 =>
      if !pteV w3 then .page (e3 / 128) 3
      else if !pteTable w3 then .denied
      else
        let e2 := ptePa w3 + 8 * (page / 2 ^ 13 % 8192)
        (s.ptWord e2).bind fun w2 =>
          if !pteV w2 then .page (e2 / 128) 2
          else if pteL w2 then
            if pteLeaf w2 true then .ok (w2, ptePa w2 + page % 8192 * 65536, [e3 / 128, e2 / 128]) else .denied
          else if !pteTable w2 then .denied
          else
            let e1 := ptePa w2 + 8 * (page % 8192)
            (s.ptWord e1).bind fun w1 =>
              if !pteV w1 then .page (e1 / 128) 1
              else if pteLeaf w1 false then .ok (w1, ptePa w1, [e3 / 128, e2 / 128, e1 / 128]) else .denied

/-- The page lies under a RETRACT that drains (R344). -/
def State.draining (s : State) (asid page : Nat) : Bool :=
  s.mem.ptStores.any fun p => p.drain.any fun d => d.1 == asid && d.2.1 ≤ page && page < d.2.1 + d.2.2

/-- The agent's entry of a page in the ASID's current generation (R340). -/
def State.entry? (s : State) (asid page : Nat) : Option AgentEntry :=
  s.mem.agents.find? fun e => e.asid == asid && e.page == page && e.gen == s.gen asid

/-- Pages that one entry of a table covers, by its level. -/
def entryPages (level : Nat) : Nat := if level = 3 then 2 ^ 26 else if level = 2 then 2 ^ 13 else 1

/-- The registration on the line whose entry for a page was read at a level. -/
def ptReg (asid page level line : Nat) : PtReg := ⟨line, asid, level, page / (16 * entryPages level) * (16 * entryPages level)⟩

/-- An agent registers on table lines (R341). -/
def State.registerPt (s : State) (rs : List PtReg) : State :=
  { s with mem := { s.mem with ptRegs := rs ++ s.mem.ptRegs.filter fun r => !rs.contains r } }

/-- The dies of a set, ascending. -/
def diesOf (m : BitVec 54) : List Nat := (List.range 54).filter fun d => m.getLsbD d

/-- One of a list by a number that the hash gives; 0 of an empty list. -/
def pick (l : List Nat) (h : Nat) : Nat := l.getD (h % l.length) 0

/-- The dies whose agents serve an ASID: its die set without the dies whose links are closed (R340, R370). -/
def State.agentDies (s : State) (asid : Nat) : List Nat := (diesOf (s.dieSet asid)).filter fun d => !s.net.closed.contains d

/-- The die whose agent serves a page: four agents to a die (R340). -/
def State.agentDie (s : State) (asid page : Nat) : Nat :=
  pick (s.agentDies asid) (Config.agentHash asid page (s.dieSet asid).toNat / 4)

/-- The agent fills the entry that a walk has found, held or not, registered on the table lines that the walk read (R340, R341, R346). -/
def State.fillEntry (s : State) (asid page : Nat) (w : Word) (pa : Nat) (ls : List Nat) : AgentEntry × State :=
  let e : AgentEntry :=
    { asid := asid, gen := s.gen asid, page := page, leaf := w, pa := pa, held := pteH w, die := s.agentDie asid page, ptLines := ls }
  let s := s.registerPt (((ls.zip [3, 2, 1]).map fun p => ptReg asid page p.2 p.1))
  (e, { s with mem := { s.mem with agents := e :: s.mem.agents.filter fun f => !(f.asid == asid && f.page == page) } })

/-- What the page's agent answers a request with, filling an entry or setting a mark where it walks (R340, R341, R350). -/
def State.askAgent (s : State) (asid page : Nat) : Answer AgentEntry × State :=
  if s.contextWaits asid then (.wait, s)
  else if s.dieSet asid = 0 then (.denied, s)
  else if s.draining asid page then (.wait, s)
  else match s.entry? asid page with
    | some e => (.ok e, s)
    | none => match s.mem.marks.find? fun m => m.asid == asid && m.page == page with
      | some m => (.page m.ptLine m.level, s)
      | none => match s.walk asid page with
        | .ok (w, pa, ls) =>
          let r := s.fillEntry asid page w pa ls
          (.ok r.1, r.2)
        | .page l k =>
          let s := s.registerPt [ptReg asid page k l]
          (.page l k, { s with mem := { s.mem with marks := ⟨asid, page, l, k, []⟩ :: s.mem.marks } })
        | .denied => (.denied, s)
        | .lost => (.lost, s)
        | .bad => (.bad, s)
        | .wait => (.wait, s)

/-! ## Where an access is performed -/

/-- The party that performs an access. -/
inductive Place where
  /-- An on-die line. -/
  | line (l : OLine)
  /-- The memory controller (NO-ONDIE, window B): the physical address and the kept bit. -/
  | mem (pa : Nat) (kept : Bool)
  /-- A cell's FIELD banks (R91). -/
  | pool
  /-- A device register (R337). -/
  | device (pa : Nat)
  deriving DecidableEq, Repr

/-- An access through a direct window of ASID 0 (R336, R337). -/
def State.window (s : State) (core : Bool) (lv : Level) (n : Need) (va : Nat) : Answer Place × State :=
  let pa := va % 2 ^ 52
  if lv == .u || n == .fetch then (.denied, s)
  else match va / 2 ^ 52 % 8 with
    | 4 =>
      match s.line? ⟨0, 0, va / 128⟩ with
      | some l => (.ok (.line l), s)
      | none => match s.physLine false (pa / 128 * 128) with
        | .ok (d, b) =>
          let l : OLine :=
            { key := ⟨0, 0, va / 128⟩, data := d, sb := b, perm := ⟨true, true, false, false⟩, kept := inView pa, dirty := false }
          (.ok (.line l), s.putLine l)
        | .page l k => (.page l k, s)
        | .denied => (.denied, s)
        | .lost => (.lost, s)
        | .bad => (.bad, s)
        | .wait => (.wait, s)
    | 6 =>
      if deviceBase ≤ pa then (if core && lv == .f then (.ok (.device pa), s) else (.denied, s))
      else match s.physLine true (pa / 128 * 128) with
        | .ok _ => (.ok (.mem pa true), s)
        | .page l k => (.page l k, s)
        | .denied => (.denied, s)
        | .lost => (.lost, s)
        | .bad => (.bad, s)
        | .wait => (.wait, s)
    | _ => (.denied, s)

/-- A miss: the agent's entry decides (R339, R340); a held one parks every miss (R346). The line is filled where it was missing, and its
rights renewed. A site page whose field is gone takes no access (R91). -/
def State.miss (s : State) (asid : Nat) (lv : Level) (n : Need) (va : Nat) : Answer Place × State :=
  let key : LineKey := ⟨asid, s.gen asid, va / 128⟩
  match s.askAgent asid (va / 65536) with
  | (.ok e, s) =>
    if e.held then (.wait, s)
    else if !(ptePerm e.leaf).allows lv n then (.denied, s)
    else if pteHome e.leaf == 3 then (if (s.fieldAt asid va).isSome then .ok .pool else .denied, s)
    else
      let pa := e.pa + va % 65536
      match s.line? key with
      | some l => let l := { l with perm := ptePerm e.leaf }; (.ok (.line l), s.putLine l)
      | none =>
        let kept := pteK e.leaf || inView pa
        match s.physLine kept (pa / 128 * 128) with
        | .ok (d, b) =>
          if pteHome e.leaf == 4 then (.ok (.mem pa kept), s)
          else
            let l : OLine := { key := key, data := d, sb := b, perm := ptePerm e.leaf, kept := kept, dirty := false }
            (.ok (.line l), s.putLine l)
        | .page l k => (.page l k, s)
        | .denied => (.denied, s)
        | .lost => (.lost, s)
        | .bad => (.bad, s)
        | .wait => (.wait, s)
  | (.page l k, s) => (.page l k, s)
  | (.denied, s) => (.denied, s)
  | (.lost, s) => (.lost, s)
  | (.bad, s) => (.bad, s)
  | (.wait, s) => (.wait, s)

/-- Where an access of an ASID at a level is performed (R105, R335 to R340): an on-die line whose rights allow it serves it, and any
other access goes to the agent. -/
def State.locate (s : State) (core : Bool) (asid : Nat) (lv : Level) (n : Need) (va : Nat) : Answer Place × State :=
  if 2 ^ 55 ≤ va then (.denied, s)
  else if asid = 0 && 2 ^ 54 ≤ va then s.window core lv n va
  else match s.line? ⟨asid, s.gen asid, va / 128⟩ with
    | some l => if l.perm.allows lv n then (.ok (.line l), s) else s.miss asid lv n va
    | none => s.miss asid lv n va

/-! ## Reading and writing where it is performed -/

/-- Sideband bytes of the granules that `n` bytes at offset `o` of a line touch. -/
def sbSlice (sb : List Byte) (o n : Nat) : List Byte := (sb.drop (o % 128 / 32)).take ((o % 32 + n + 31) / 32)

/-- Bytes of one line, with the sideband of their granules, at a place that is no device and no site. -/
def State.readPlace (s : State) (p : Place) (va n : Nat) : List Byte × List Byte :=
  match p with
  | .line l => ((l.data.drop (va % 128)).take n, sbSlice l.sb (va % 128) n)
  | .mem pa kept =>
    match s.physLine kept (pa / 128 * 128) with
    | .ok (d, b) => ((d.drop (pa % 128)).take n, sbSlice b (pa % 128) n)
    | _ => (zeros n, zeros ((n + 31) / 32))
  | _ => (zeros n, zeros ((n + 31) / 32))

/-- The words of a line that `n` bytes at offset `o` touch, as a mask. -/
def wordMask (o n : Nat) : BitVec 16 := BitVec.ofNat 16 ((2 ^ ((o % 8 + n + 7) / 8) - 1) * 2 ^ (o / 8))

/-- Sideband bytes replaced from a granule on; an empty list leaves them. -/
def patchSb (sb : List Byte) (o : Nat) (new : List Byte) : List Byte := patch sb (o / 32) new

/-- The bytes of a line whose words a mask picks, taken from another value of the line. -/
def mergeWords (m : BitVec 16) (old new : List Byte) : List Byte :=
  (List.range 128).map fun i => if m.getLsbD (i / 8) then new.getD i 0 else old.getD i 0

/-- Sideband bytes of the granules in which a mask picks a word, likewise. -/
def mergeSb (m : BitVec 16) (old new : List Byte) : List Byte :=
  (List.range 4).map fun g => if m.toNat / 2 ^ (4 * g) % 16 != 0 then new.getD g 0 else old.getD g 0

/-- A cell's CACHE line after a store of the cell's own: the words it touched are valid, whole as the line now has them, and registered to
the cell (R187, R359). -/
def CLine.store (c : CLine) (l : OLine) (m : BitVec 16) : CLine :=
  { c with data := mergeWords m c.data l.data, sb := mergeSb m c.sb l.sb, valid := c.valid ||| m, regs := c.regs ||| m }

/-- A cell's CACHE line when words of it become registered to the cell: those that were not take the line's present data (R359). -/
def CLine.gain (c : CLine) (l : OLine) (m : BitVec 16) : CLine :=
  let new := m &&& ~~~ c.regs
  { c with data := mergeWords new c.data l.data, sb := mergeSb new c.sb l.sb, regs := c.regs ||| m }

/-- Another cell's CACHE line when words of it are registered elsewhere: those it had registered are revoked and dropped (R359). -/
def CLine.revoke (c : CLine) (m : BitVec 16) : CLine :=
  { c with valid := c.valid &&& ~~~ (c.regs &&& m), regs := c.regs &&& ~~~ m }

def Cell.mapCache (c : Cell) (f : CLine → CLine) : Cell := { c with cache := c.cache.map f }

/-- Changes every cell that has left its reset. -/
def State.mapCells (s : State) (f : Cell → Cell) : State :=
  { s with cell := f s.cell, others := s.others.map fun p => (p.1, f p.2) }

/-- A store performed on an on-die line by a party of cell `n` (none: a Headstock hart or an engine of the memory side). -/
def State.storeLine (s : State) (n : Option Nat) (key : LineKey) (o : Nat) (bs sb : List Byte) : State :=
  match s.line? key with
  | none => s
  | some l =>
    let sb := if l.kept then sb else sb.map fun _ => 0
    let l := { l with data := patch l.data o bs, sb := patchSb l.sb o sb, dirty := true }
    let m := wordMask o bs.length
    (s.putLine l).mapCells fun c => c.mapCache fun k =>
      if k.key != key then k
      else if n == some c.no then k.store l m else k.revoke m

/-- A store performed at a memory controller (R107, R336); one to a stack in self-refresh waits (R419). -/
def State.storeMem (s : State) (pa : Nat) (kept : Bool) (bs sb : List Byte) : State :=
  match s.physLine kept (pa / 128 * 128) with
  | .ok (d, b) => s.putPhysLine kept (pa / 128 * 128) (patch d (pa % 128) bs) (patchSb b (pa % 128) sb)
  | .wait => { s with mem := { s.mem with late := s.mem.late ++ [(pa, kept, bs, sb)] } }
  | _ => s

/-- The writes that waited for a stack are made as it leaves self-refresh (R419). -/
def State.storeLate (s : State) : State :=
  s.mem.late.foldl (fun t w => t.storeMem w.1 w.2.1 w.2.2.1 w.2.2.2) { s with mem := { s.mem with late := [] } }

/-! ## Own stores not yet performed -/

/-- The bytes of a range as the records lay over it, oldest first (R66, R187). -/
def overlayByte (recs : List StoreRec) (a : Nat) (b : Byte) : Byte :=
  recs.foldl (fun b r => if r.addr ≤ a && a < r.addr + r.bytes.length then r.bytes.getD (a - r.addr) 0 else b) b

def overlay (recs : List StoreRec) (a : Nat) (bs : List Byte) : List Byte :=
  (bs.zip (List.range bs.length)).map fun p => overlayByte recs (a + p.2) p.1

/-- Sideband bytes likewise, by granule. -/
def overlaySb (recs : List StoreRec) (a : Nat) (sb : List Byte) : List Byte :=
  (sb.zip (List.range sb.length)).map fun p =>
    recs.foldl (fun b r => if r.addr / 32 ≤ a / 32 + p.2 && a / 32 + p.2 < r.addr / 32 + r.sb.length then
      r.sb.getD (a / 32 + p.2 - r.addr / 32) 0 else b) p.1

/-- The stores of the hart that no line holds yet, oldest first: those held behind a release, and STAGE of its task, which a hart that has parked
with stores held fills later. -/
def Hart.pending (h : Hart) : List StoreRec := h.held ++ (h.task.map (·.stage)).getD []

/-- What a load of the hart sees: its own stores not yet performed lie over it (R66, R187), their sideband where the line keeps one (R104). -/
def Hart.sees (h : Hart) (a : Nat) (kept : Bool) (p : List Byte × List Byte) : List Byte × List Byte :=
  (overlay h.pending a p.1, if kept then overlaySb h.pending a p.2 else p.2)

/-! ## CACHE (R41, R106) -/

/-- Banks of a role in the bank map (R33, R35). -/
def Cell.count (c : Cell) (role : Nat) : Nat := (c.banks.toList.filter fun b => b.toNat % 8 == role).length

def Cell.cacheLine? (c : Cell) (k : LineKey) : Option CLine := c.cache.find? fun l => l.key == k

/-- Lines a role of `n` banks holds (R41). -/
def bankLines (n : Nat) : Nat := 32 * n

/-- Drops the line a fill evicts when the role is full: the implementation's choice (R41, LOG 2). -/
def evict (room : Nat) (pick : Nat) (ls : List CLine) : List CLine :=
  if ls.length < room then ls else ls.eraseIdx (pick % ls.length)

/-- Banks of a role that a re-division in progress has shut out of service (R46). -/
def Cell.shut (c : Cell) (role : Nat) : Nat :=
  match c.rediv with
  | some r => if r.src == role then r.m else 0
  | none => 0

/-- Lines the serving banks of CACHE (4) or CODE (2) hold. -/
def Cell.roomFor (c : Cell) (role : Nat) : Nat := bankLines (c.count role - c.shut role)

/-- A fill of CACHE from the line's present value: registered words stay, the rest become valid (R106). -/
def State.fillCache (s : State) (n : Nat) (l : OLine) : State :=
  let c := s.cellAt n
  if c.roomFor 4 = 0 then s
  else
    let new : CLine := { key := l.key, data := l.data, sb := l.sb, perm := l.perm, kept := l.kept, valid := BitVec.allOnes 16,
                         regs := ((c.cacheLine? l.key).map (·.regs)).getD 0 }
    let rest := c.cache.filter fun k => k.key != l.key
    s.putCell { c with cache := new :: evict (c.roomFor 4) (Config.choice (s.tbase + rest.length)) rest }

/-- Every word that the cell has not registered leaves its CACHE (R106). -/
def Cell.acquireDrop (c : Cell) : Cell :=
  { c with cache := (c.cache.map fun l => { l with valid := l.valid &&& l.regs }).filter fun l => l.regs != 0 }

/-- A CACHE line for words that a cell registers and holds no line of: none of them is valid before its store is performed (R359). A cell
whose CACHE has no room gives the words up again at once. -/
def State.allocate (s : State) (n : Nat) (key : LineKey) : State :=
  let c := s.cellAt n
  match s.line? key with
  | some l =>
    if (c.cacheLine? key).isSome || c.roomFor 4 = 0 then s
    else
      let new : CLine := { key := key, data := l.data, sb := l.sb, perm := l.perm, kept := l.kept, valid := 0, regs := 0 }
      s.putCell { c with cache := new :: evict (c.roomFor 4) (Config.choice (s.tbase + c.cache.length)) c.cache }
  | none => s

/-- The words of a line become registered to cell `n` (R359): every other cell's registration of them is revoked. A line that is on no die has
none. -/
def State.register (s : State) (n : Option Nat) (key : LineKey) (m : BitVec 16) : State :=
  let s := match n with
    | some i => s.allocate i key
    | none => s
  match s.line? key with
  | none => s
  | some o => s.mapCells fun c => c.mapCache fun l =>
    if l.key != key then l else if n == some c.no then l.gain o m else l.revoke m

/-- The cells give up the registered words of a line, whose data the slice's copy has; they keep the words as copies (R359). -/
def State.returnWords (s : State) (key : LineKey) : State :=
  s.mapCells fun c => c.mapCache fun l => if l.key == key then { l with regs := 0 } else l

/-! ## Homes (R107, R336) -/

/-- The dies that the hash of a line's home works over, as a mask: the die set for HASHED, the die mask for GROUP, the named die for PINNED. -/
def State.homeSet (s : State) (asid : Nat) (leaf : Word) : Nat :=
  match pteHome leaf with
  | 1 => 2 ^ pteSel leaf
  | 2 => match s.ptWord (fieldOf (s.devReg gmbAddr) 16 36 * 65536 + 8 * pteSel leaf) with
    | .ok m => m.toNat
    | _ => 0
  | _ => (s.dieSet asid).toNat

/-- The hash that gives a line's home: a function of its address, the seed and that mask alone (R107). -/
def State.homeNumber (s : State) (asid line : Nat) (leaf : Word) : Nat := Config.homeHash line (s.seed asid).toNat (s.homeSet asid leaf)

/-- The home die of a line by its home attribute; a line of a POOL page has none and answers 0. -/
def State.homeOf (s : State) (asid line : Nat) (leaf : Word) (pa : Nat) : Nat :=
  match pteHome leaf with
  | 1 => pteSel leaf
  | 3 => 0
  | 4 => dieOfPa pa
  | _ => pick (diesOf (BitVec.ofNat 54 (s.homeSet asid leaf))) (s.homeNumber asid line leaf)

/-- The leaf and the physical page of an address, as its agent has it or a walk would find it. -/
def State.leafOf (s : State) (asid page : Nat) : Option (Word × Nat) :=
  match s.entry? asid page with
  | some e => some (e.leaf, e.pa)
  | none => match s.walk asid page with
    | .ok (w, pa, _) => some (w, pa)
    | _ => none

/-- The home die of the line at an address; an address without a translation is taken as HASHED. -/
def State.lineHome (s : State) (asid va : Nat) : Nat :=
  if asid = 0 && 2 ^ 54 ≤ va then dieOfPa (va % 2 ^ 52)
  else match s.leafOf asid (va / 65536) with
    | none => s.homeOf asid (va / 128) 0 0
    | some (w, pa) => s.homeOf asid (va / 128) w pa

/-- The home slice of a line on its home die, and its slice on any other die; that of a line of window A is a hash of its physical address alone
(R336). -/
def State.homeSlice (s : State) (k : LineKey) : Nat :=
  if k.asid = 0 && 2 ^ 47 ≤ k.line then Config.homeHash (k.line % 2 ^ 45) 0 0 / 64 % 32
  else s.homeNumber k.asid k.line (((s.leafOf k.asid (k.line / 512)).map Prod.fst).getD 0) / 64 % 32

/-! ## Write-backs (R345, R346, R365) -/

/-- The physical address a write-back of a line goes to, as the page's agent translates it; `none` where nothing translates it. -/
def State.wbTarget (s : State) (l : OLine) : Option (Nat × Bool) :=
  let va := l.key.line * 128
  if l.key.asid = 0 && 2 ^ 54 ≤ va then some (va % 2 ^ 52, false)
  else match s.entry? l.key.asid (va / 65536) with
    | some e => some (e.pa + va % 65536, e.held)
    | none => match s.walk l.key.asid (va / 65536) with
      | .ok (w, pa, _) => some (pa + va % 65536, pteH w)
      | _ => none

/-- The agent of a line's page holds an entry of it: a walk of a write-back fills one as any other does, and a held one where the walk meets H = 1
(R345, R346). -/
def State.agentFor (s : State) (l : OLine) : State :=
  let asid := l.key.asid
  let page := l.key.line / 512
  if (asid = 0 && 2 ^ 54 ≤ l.key.line * 128) || (s.entry? asid page).isSome then s
  else match s.walk asid page with
    | .ok (w, pa, ls) => (s.fillEntry asid page w pa ls).2
    | _ => s

/-- A dirty line's data reach its memory controller, or the write-back park of a held page (R346) or of a stack in self-refresh (R419); copies stay
valid, and no word stays registered (R359). DESIGN CHOICE (LOG 46): in a format region a load of the line
returns the code as stored while its on-die copy stays (R289), and the narrowed one afterwards (R108). `through` writes to the old page of a held entry that a RETRACT drains (R344). -/
def State.writeBackLine (s : State) (through : Bool) (l : OLine) : State :=
  if !l.dirty then s
  else match s.wbTarget l with
    | none => s
    | some (pa, held) =>
      let s := ((s.agentFor l).putLine { l with dirty := false }).returnWords l.key
      if (held && !through) || s.refreshing (dieOfPa pa) then
        let p : ParkedWb := { asid := l.key.asid, page := l.key.line / 512, line := l }
        { s with mem := { s.mem with wbPark := s.mem.wbPark ++ [p] } }
      else s.putPhysLine l.kept pa l.data l.sb

/-- Every dirty line that a condition picks is written back. -/
def State.cleanLines (s : State) (through : Bool) (p : LineKey → Bool) : State :=
  s.mem.lines.foldl (fun s l => if p l.key then s.writeBackLine through l else s) s

/-- The words of a cleaned line are given up, dirty or not (R359). -/
def State.returnAll (s : State) (p : LineKey → Bool) : State :=
  s.mapCells fun c => c.mapCache fun l => if p l.key then { l with regs := 0 } else l

/-- Every copy of the lines a condition picks leaves the dies' L2 and the CACHEs (R344). -/
def State.dropCopies (s : State) (p : LineKey → Bool) : State :=
  let s := s.mapCells fun c => { c with cache := c.cache.filter fun l => !p l.key }
  { s with mem := { s.mem with lines := s.mem.lines.filter fun l => !p l.key }, coh := s.coh.filter fun l => !p l.key }

end Sys2Proof.Machine
end

