-- ==== Sys2Proof/Machine/Network.lean ====
section
/-! DEFINITION. Routers, die switches and their packets: routes, room, arbitration, ageing, multicast, stale messages (R374 to R388). -/

namespace Sys2Proof

/-- The channel a kind travels on (R381). -/
def MsgKind.channel : MsgKind → VC
  | .miss => .lat | .tbar => .lat
  | .request => .req | .attempt => .req | .homeRequest => .req | .agentMiss => .req | .node => .req | .service => .req
  | .data => .rsp | .ack => .rsp | .unblock => .rsp | .answer => .rsp | .pieceCredit => .rsp | .record => .rsp
  | .forward => .fwd | .invalidation => .fwd | .grant => .fwd | .recall => .fwd | .publish => .fwd | .agentDrop => .fwd
  | .piece => .bulk | .bulkLine => .bulk
  | .gather => .fld | .siteLoad => .fld | .fieldRequest => .fld | .phase => .fld

def Packet.vc (p : Packet) : VC := p.kind.channel

/-- Flits of a packet: its payload and a header of 16 bytes, 64 bytes a flit (R378). -/
def Packet.flits (p : Packet) : Nat := (16 + p.payload + 63) / 64

end Sys2Proof

namespace Sys2Proof.Machine

/-! ## Nodes and ports (R6, R375, R376)

A router of die d is node 65 d + gx + 8 gy and the die switch node 65 d + 64; the Headstock is die 54. A target is node 4000 + its cell
number, 1000000 + 32 d + s for an L2 slice, 2000000 + n for a Headstock core. Ports of a router: 0 to 7 the router of that column in its
row, 8 to 15 the router of that row in its column, 16 to 19 its clusters or slices, 20 the die switch. Ports of a die switch: 0 to 63 its
routers, 64 + 16 e + l link l of edge e, with e = 0, 1, 2, 3 for x + 1, x - 1, y + 1, y - 1; port 0 of the Headstock's is its cores'.
-/

def switchOf (d : Nat) : Nat := 65 * d + 64
def routerOf (d gx gy : Nat) : Nat := 65 * d + gx + 8 * gy

/-- Row of routers of a cluster row (R6). -/
def clusterRow (ky : Nat) : Nat := [0, 1, 3, 4, 6, 7].getD (ky / 4) 0

/-- Die, router column, router row and router port of a target. -/
def siteOf (t : Nat) : Nat × Nat × Nat × Nat :=
  if 2000000 ≤ t then (54, 0, 0, 0)
  else if 1000000 ≤ t then
    let s := (t - 1000000) % 32
    ((t - 1000000) / 32, s / 4, if s / 2 % 2 = 0 then 2 else 5, 16 + s % 2)
  else
    let n := t - 4000
    let k := clusterOf n
    (dieOf n, k % 8, clusterRow (k / 8), 16 + k / 8 % 4)

/-! ## Routes (R377, R425) -/

/-- The edge link of a crossing; at the Headstock's own edge it is the core's number (R377, R425). -/
def linkOf (src dst : Nat) (atHead : Bool) : Nat :=
  let g := siteOf src
  if 2000000 ≤ src then src % 16
  else if atHead then dst % 16
  else (g.2.1 + 8 * g.2.2.1) % 16

/-- Output port of a die switch toward a target on another die. -/
def edgeOut (d src dst : Nat) : Nat :=
  let sd := (siteOf src).1
  let td := (siteOf dst).1
  let l := linkOf src dst
  if d = 54 then 64 + 16 * gate (td % 6) + l true
  else
    let x := if td = 54 then gate (sd % 6) else td % 6
    if d % 6 < x then 64 + l false
    else if x < d % 6 then 80 + l false
    else if td = 54 then (if d / 6 = 0 then 112 + l true else 112 + l false)
    else if d / 6 < td / 6 then 96 + l false
    else 112 + l false

/-- Output port of a node for a target. -/
def outputFor (node src dst : Nat) : Nat :=
  let d := node / 65
  let t := siteOf dst
  if node % 65 = 64 then (if t.1 = d then (if d = 54 then 0 else t.2.1 + 8 * t.2.2.1) else edgeOut d src dst)
  else if t.1 != d then 20
  else
    let gx := node % 65 % 8
    let gy := node % 65 / 8
    if gy != t.2.2.1 then 8 + t.2.2.1 else if gx != t.2.1 then t.2.1 else t.2.2.2

/-- The next node and its input beyond an output that leads to no target. -/
def beyond (node out : Nat) : Nat × Nat :=
  let d := node / 65
  if node % 65 = 64 then
    if out < 64 then (65 * d + out, 20)
    else
      let e := (out - 64) / 16
      let l := out % 16
      if d = 54 then (switchOf e, 112 + l)
      else if e = 0 then (switchOf (d + 1), 80 + l)
      else if e = 1 then (switchOf (d - 1), 64 + l)
      else if e = 2 then (switchOf (d + 6), 112 + l)
      else if d < 6 then (switchOf 54, 64 + 16 * d + l)
      else (switchOf (d - 6), 96 + l)
  else
    let gx := node % 65 % 8
    let gy := node % 65 / 8
    if out < 8 then (routerOf d out gy, gx)
    else if out < 16 then (routerOf d gx (out - 8), 8 + gy)
    else (switchOf d, gx + 8 * gy)

/-- The output leads to targets: a cluster's cells, a slice, the Headstock's cores. -/
def isLast (node out : Nat) : Bool := (node % 65 < 64 && 16 ≤ out && out < 20) || (node = switchOf 54 && out = 0)

/-- Outputs a packet takes at a node (R384). -/
def packetOuts (p : Packet) (node : Nat) : List Nat := (p.dsts.map (outputFor node p.src)).dedup

/-- Where a packet goes through one output: the node, its input, and the packet with the targets on that branch. -/
def packetBranch (p : Packet) (node out : Nat) : List (Nat × Nat × Packet) :=
  let ds := p.dsts.filter fun t => outputFor node p.src t == out
  if isLast node out then ds.map fun t => (t, 0, { p with dsts := [t] })
  else [((beyond node out).1, (beyond node out).2, { p with dsts := ds })]

/-- The port a source's packets enter by: node and input. -/
def entryOf (src : Nat) : Nat × Nat :=
  if 2000000 ≤ src then (switchOf 54, src % 64)
  else let g := siteOf src; (routerOf g.1 g.2.1 g.2.2.1, g.2.2.2)

/-! ## Time (R379, R380, R388)

Every time in the network is an instant; the network acts at its own, `at_`, which never passes the present one. -/

/-- The die of a node. -/
def dieOfNode (node : Nat) : Nat := if node < 4000 then node / 65 else (siteOf node).1

/-- Fabric cycles of a node's die, in the unit of instants. -/
def State.netTime (s : State) (node k : Nat) : Nat := k * s.fabricCycle (dieOfNode node)

/-- Whole fabric cycles of a node's die in some time. -/
def State.netCycles (s : State) (node t : Nat) : Nat := t / s.fabricCycle (dieOfNode node)

/-- What a crossing between a cell's clock and its die's fabric clock adds: a cycle of the slower where they differ (R380). -/
def State.cellCrossing (s : State) (n : Nat) : Nat :=
  let c := s.cellAt n
  let f := s.fabricCycle (dieOf n)
  if c.period = f then 0 else max c.period f

/-- The source, or the target, is a cell. -/
def isCell (t : Nat) : Bool := 4000 ≤ t && t < 1000000

/-- From a grant to the first flit's arrival at a node beyond (R379, R380, R388); at the Headstock the steps between its switch and a core
are as long as those of a die (R425). -/
def State.hopTime (s : State) (node out next : Nat) : Nat :=
  let edge := node % 65 = 64 && 64 ≤ out
  let k := if edge then 3 else if node = switchOf 54 then 5 else 2
  let a := s.fabricCycle (dieOfNode node)
  let b := s.fabricCycle (dieOfNode next)
  s.netTime node k + (if edge && a != b then 2 * max a b else 0) + (if isCell next then s.cellCrossing (next - 4000) else 0)

/-- Cycles from a packet's arrival at an input until an output may grant it: one, and four more for a die in transit, whose switch takes six from edge
to edge (R379, R388). -/
def grantDelay (node inp : Nat) (outs : List Nat) : Nat :=
  if node % 65 = 64 && 64 ≤ inp && outs.any (fun o => 64 ≤ o) then 5 else 1

/-! ## Counters of a die's network block (R373, R387) -/

/-- The incarnation of a die (R373). -/
def State.inc (s : State) (d : Nat) : Nat := ((s.head.incs.find? fun p => p.1 == d).map fun p => p.2.toNat).getD 0

/-- Adds to a saturating counter of a die's network block (R387). -/
def State.countNet (s : State) (d off lo width n : Nat) : State :=
  let w := s.devReg (netBlock d + off)
  s.setDevReg (netBlock d + off) (setField w lo width (Nat.min (fieldOf w lo width + n) (2 ^ width - 1)))

/-! ## Buffers (R379, R388) -/

def Net.buf (n : Net) (node inp : Nat) (vc : VC) : InBuf :=
  (n.bufs.find? fun b => b.node == node && b.inp == inp && b.vc == vc).getD ⟨node, inp, vc, [], [], [], 0, 0⟩

def Net.putBuf (n : Net) (b : InBuf) : Net :=
  let rest := n.bufs.filter fun c => !(c.node == b.node && c.inp == b.inp && c.vc == b.vc)
  { n with bufs := if b.queue.isEmpty && b.coming.isEmpty && b.leaving.isEmpty then rest else b :: rest }

/-- Flits that an input holds for each channel: 12 at a cell, 6 elsewhere. -/
def InBuf.places (b : InBuf) : Nat := if isCell b.node then 12 else 6

/-- Flits of a packet that have passed a point, its first flit there at an instant. -/
def State.passed (s : State) (b : InBuf) (flits first : Nat) : Nat := Nat.min flits (s.netCycles b.node (s.net.at_ - first))

/-- Flits that reached the buffer before the present cycle and had not left it before then; room that was reserved counts whole from the grant on
(R384), and a cell frees the flits of a piece together (R388). -/
def State.filled (s : State) (b : InBuf) : Nat :=
  (((b.queue ++ b.coming).map fun x => if x.whole then x.pkt.flits else s.passed b x.pkt.flits x.came) ++
    (b.leaving.map fun x =>
      let left := x.sent + s.netTime b.node 1
      if isCell b.node then (if s.net.at_ < left then x.flits else 0)
      else (if x.whole then x.flits else s.passed b x.flits x.came) - s.passed b x.flits left)).foldl (· + ·) 0

/-- Room for a whole packet. -/
def State.room (s : State) (b : InBuf) (p : Packet) : Bool := s.filled b + p.flits ≤ b.places

/-- Every buffer beyond an output has room. -/
def State.roomAt (s : State) (p : Packet) (node out : Nat) : Bool :=
  (packetBranch p node out).all fun x => s.room (s.net.buf x.1 x.2.1 p.vc) x.2.2

/-- The packet is eligible: room beyond every output it takes (R382, R384). -/
def State.eligible (s : State) (p : Packet) (node : Nat) : Bool := (packetOuts p node).all fun o => s.roomAt p node o

/-! ## Arbitration (R382 to R384) -/

/-- Channels in the order of R382. -/
def vcOrder : List VC := [.rsp, .fwd, .lat, .req, .fld, .bulk]

/-- Weights in that order (R387); 0 acts as 1. -/
def State.weights (s : State) (d : Nat) : List Nat :=
  let w := s.devReg (netBlock d)
  [4, 8, 12, 0, 20, 16].map fun lo => Nat.max 1 (fieldOf w lo 4)

def State.threshold (s : State) (d : Nat) : Nat := fieldOf (s.devReg (netBlock d + 8)) 0 8

def State.outPort (s : State) (node out : Nat) : OutPort :=
  (s.net.outs.find? fun o => o.node == node && o.out == out).getD
    ⟨node, out, s.weights (node / 65), 5, List.replicate 6 127, 0⟩

/-- The instant from which an output may grant the head of a buffer: `grantDelay` after its first flit's arrival; the packet behind one that is
granted heads the buffer from the next cycle on (LOG 29). -/
def State.headFrom (s : State) (b : InBuf) : Option (Packet × Nat) :=
  b.queue.head?.map fun x =>
    (x.pkt, b.leaving.foldl (fun t y => max t (y.sent + s.netTime b.node 1))
      (x.came + s.netTime b.node (grantDelay b.node b.inp (packetOuts x.pkt b.node))))

/-- The packet that an output may grant now. -/
def State.headOf (s : State) (b : InBuf) : Option Packet :=
  (s.headFrom b).bind fun x => if x.2 ≤ s.net.at_ then some x.1 else none

/-- The heads of a node's buffers that are eligible for an output, those excluded left out. -/
def State.heads (s : State) (node out : Nat) (excl : List (Nat × VC)) : List (InBuf × Packet) :=
  s.net.bufs.filterMap fun b => (s.headOf b).bind fun p =>
    if b.node == node && (packetOuts p node).contains out && !excl.contains (b.inp, b.vc) && s.eligible p node then some (b, p) else none

/-- The head with the smallest key. -/
def leastBy (key : InBuf × Packet → Nat) : List (InBuf × Packet) → Option (InBuf × Packet)
  | [] => none
  | x :: xs => some (xs.foldl (fun a b => if key b < key a then b else a) x)

/-- Position of a channel in the round that begins after the channel granted last. -/
def afterLast (last i n : Nat) : Nat := (i + n - (last + 1)) % n

/-- The weighted round-robin choice among the heads, from given credits: the head and its channel's number. -/
def roundChoice (o : OutPort) (credits : List Nat) (hs : List (InBuf × Packet)) : Option ((InBuf × Packet) × Nat) :=
  let open_ := (List.range 6).filter fun i =>
    0 < credits.getD i 0 && hs.any fun h => some h.1.vc == vcOrder[i]?
  match open_.foldl (fun (a : Option Nat) i => match a with
      | none => some i
      | some j => if afterLast o.lastVc i 6 < afterLast o.lastVc j 6 then some i else some j) none with
  | none => none
  | some i =>
    (leastBy (fun h => afterLast (o.lastIn.getD i 127) h.1.inp 128) (hs.filter fun h => some h.1.vc == vcOrder[i]?)).map
      fun h => (h, i)

/-- The port after a grant: the channel and the input granted last, the credits left, and the cycle in which the last flit is sent. -/
def State.granted (s : State) (o : OutPort) (h : InBuf × Packet) (credits : List Nat) : OutPort :=
  let i := vcOrder.idxOf h.1.vc
  { o with credits := credits, lastVc := i, lastIn := o.lastIn.set i h.1.inp, free := s.net.at_ + s.netTime o.node h.2.flits }

/-- What a free output grants: the head, whether by promotion, and its port after the grant. A round has ended where a free cycle has passed in
which the port granted nothing, and ends in this one where no channel with credit left has an eligible packet (R382, R388). -/
def State.choose (s : State) (node out : Nat) (excl : List (Nat × VC)) : Option ((InBuf × Packet) × Bool × OutPort) :=
  let hs := s.heads node out excl
  let t := s.threshold (node / 65)
  let o := s.outPort node out
  let full := s.weights (node / 65)
  let left := if o.free + s.netTime node 1 ≤ s.net.at_ then full else o.credits
  if s.net.at_ < o.free then none
  else match leastBy (fun h => (255 - h.1.age) * 128 + h.1.inp) (hs.filter fun h => t != 0 && t ≤ h.1.age) with
    | some h => some (h, true, s.granted o h (if (roundChoice o left hs).isSome then left else full))
    | none =>
      let r := match roundChoice o left hs with
        | some x => some (x, left)
        | none => (roundChoice o full hs).map fun x => (x, full)
      r.map fun x => (x.1.1, false, s.granted o x.1.1 (x.2.set x.1.2 (x.2.getD x.1.2 1 - 1)))

/-- What every output of a node would grant, some heads excluded. -/
def State.picks (s : State) (node : Nat) (excl : List (Nat × VC)) : List (Nat × InBuf × Packet) :=
  let outs := (s.net.bufs.filter (·.node == node)).flatMap fun b => match s.headOf b with
    | some p => packetOuts p node
    | none => []
  outs.dedup.filterMap fun o => (s.choose node o excl).map fun x => (o, x.1)

/-- The buffer a head stands in. -/
def headKey (h : InBuf × Packet) : Nat × VC := (h.1.inp, h.1.vc)

/-- A head is the pick of every output it takes. -/
def winsAll (node : Nat) (picks : List (Nat × InBuf × Packet)) (h : InBuf × Packet) : Bool :=
  (packetOuts h.2 node).all fun o => picks.any fun p => p.1 == o && headKey p.2 == headKey h

/-- An output that a head takes is not free, or picks a head that wins all of its own. -/
def beaten (node : Nat) (picks : List (Nat × InBuf × Packet)) (h : InBuf × Packet) : Bool :=
  (packetOuts h.2 node).any fun o => match picks.find? fun p => p.1 == o with
    | none => true
    | some p => headKey p.2 != headKey h && winsAll node picks p.2

/-- Multicasts that are granted on no branch in this cycle, as some output does not grant them; an output that would have granted one grants its
next choice (R384). Those that lose to a packet which wins everywhere go first; of several that block each other, the one of the highest input port
(LOG 29). -/
def State.losers (s : State) (node : Nat) (excl : List (Nat × VC)) : Nat → List (Nat × VC)
  | 0 => excl
  | n + 1 =>
    let ps := s.picks node excl
    let lose := (ps.map Prod.snd).filter fun h => !winsAll node ps h
    let hard := (lose.filter (beaten node ps)).map headKey
    match lose with
    | [] => excl
    | h :: hs =>
      if hard.isEmpty then s.losers node (headKey (hs.foldl (fun a b => if a.1.inp < b.1.inp then b else a) h) :: excl) n
      else s.losers node (hard ++ excl) n

/-- Ageing of the eligible heads that lose a grant at an output (R383, R384), once a cycle each. -/
def State.ageLosers (s : State) (node : Nat) (won : InBuf × Packet) (out : Nat) : State :=
  (s.heads node out []).foldl (fun s h =>
    let b := s.net.buf node h.1.inp h.1.vc
    if (b.inp == won.1.inp && b.vc == won.1.vc) || b.aged == s.net.at_ then s
    else { s with net := s.net.putBuf { b with age := Nat.min (b.age + 1) 255, aged := s.net.at_ } }) s

/-- The granted packet leaves its buffer, and goes on through every branch; a multicast has its room beyond reserved (R384). -/
def State.move (s : State) (node : Nat) (h : InBuf × Packet) : State :=
  let b := s.net.buf node h.1.inp h.1.vc
  let out (x : Leaving) : Bool := s.net.at_ < x.sent + s.netTime node (x.flits + 1)
  let came := (b.queue.head?.map (·.came)).getD 0
  let whole := (b.queue.head?.map (·.whole)).getD false
  let n := s.net.putBuf { b with queue := b.queue.drop 1, leaving := ⟨h.2.flits, came, s.net.at_, whole⟩ :: b.leaving.filter out, age := 0 }
  let n := ((packetOuts h.2 node).flatMap fun o => (packetBranch h.2 node o).map fun x => (o, x)).foldl (fun (n : Net) x =>
    let t := n.buf x.2.1 x.2.2.1 h.2.vc
    n.putBuf { t with coming := t.coming ++ [⟨x.2.2.2, s.net.at_ + s.hopTime node x.1 x.2.1, 1 < h.2.dsts.length⟩] }) n
  { s with net := n }

def State.putOut (s : State) (o : OutPort) : State :=
  { s with net := { s.net with outs := o :: s.net.outs.filter fun p => !(p.node == o.node && p.out == o.out) } }

/-- A multicast at the head of a buffer has room on some branches and not on all (R387). -/
def State.halfRoom (s : State) (b : InBuf) : Bool :=
  b.node < 4000 && (match s.headOf b with
    | none => false
    | some p =>
      let room := (packetOuts p b.node).flatMap fun o => (packetBranch p b.node o).map fun x => s.room (s.net.buf x.1 x.2.1 p.vc) x.2.2
      room.any id && !room.all id)

/-- NCNT counts the fabric cycles from the network's instant to another in which a multicast has waited for room on a branch (R387). -/
def State.countWaits (s : State) (t : Nat) : State :=
  ((s.net.bufs.filter s.halfRoom).map fun b => dieOfNode b.node).dedup.foldl (fun s d =>
    s.countNet d 0x10 32 32 (s.netCycles (switchOf d) t - s.netCycles (switchOf d) s.net.at_)) s

/-- One grant of an output port. -/
def State.routerGrant (s : State) (node out : Nat) : Option State :=
  let excl := s.losers node [] (s.net.bufs.length + 1)
  (s.choose node out excl).map fun g =>
    let h := g.1
    let ports := (packetOuts h.2 node).filterMap fun o => (s.choose node o excl).map fun x => x.2.2
    let s := (packetOuts h.2 node).foldl (fun s o => s.ageLosers node h o) s
    let s := ports.foldl State.putOut s
    (if g.2.1 then s.countNet (node / 65) 0x10 0 32 1 else s).move node h

/-- The network acts at the present instant. -/
def State.netHere (s : State) : State := { s with net := { s.net with at_ := s.instant } }

/-- ROUTER_GRANT (R382 to R384). -/
def execRouterGrant (node out : Nat) (s : State) : Out := .next ((s.netHere.routerGrant node out).getD s)

/-! ## Sending (R378, R388) -/

/-- The port of a cell in the network. -/
def portOf (n : Nat) : Nat := 4000 + n

/-- The links to a die are open (R370). DESIGN CHOICE (LOG 29): they close to packets from the die and for it; one that crosses it, as its route is fixed,
passes. -/
def Net.isOpen (n : Net) (d : Nat) : Bool := !n.closed.contains d

/-- A packet waits at its source's port, to leave at an instant; to a die whose links have closed nothing leaves. -/
def State.sendPacket (s : State) (p : Packet) (t : Nat) : State :=
  let q := { p with dsts := p.dsts.filter fun x => s.net.isOpen (dieOfNode x) }
  if q.dsts.isEmpty then s else { s with net := { s.net with sends := s.net.sends ++ [(q, t)] } }

/-- A packet of a die's, from one port to others, with its number. -/
def State.packetOf (s : State) (die id : Nat) (kind : MsgKind) (payload : Nat) (src : Nat) (dsts : List Nat) : Packet :=
  { id := id, kind := kind, payload := payload, team := none, die := die, inc := s.inc die, src := src, dsts := dsts }

/-- The packet that carries a message from cell `n` to cells, with its number. -/
def State.packetFrom (s : State) (id : Nat) (kind : MsgKind) (payload : Nat) (team : Option (Nat × Nat)) (n : Nat) (targets : List Nat) : Packet :=
  { s.packetOf (dieOf n) id kind payload (portOf n) (targets.map portOf) with team := team }

/-- The port of a slice; the Headstock's shared cache is die 54 (R361). -/
def slicePort (d i : Nat) : Nat := if d = 54 then 2000000 + i else 1000000 + 32 * d + i

/-- The instant from which the link of a port is free. -/
def Net.linkFree (n : Net) (node inp : Nat) : Nat := ((n.links.find? fun l => l.1 == node && l.2.1 == inp).map fun l => l.2.2).getD 0

/-- A packet can be sent now: it may leave, none of its source that may waits before it on its channel, the link is free and the buffer has room. -/
def State.mayEnter (s : State) (p : Packet × Nat) : Bool :=
  let e := entryOf p.1.src
  p.2 ≤ s.net.at_ && (s.net.sends.find? fun q => q.1.src == p.1.src && q.1.vc == p.1.vc && q.2 ≤ s.net.at_).all (· == p) && s.net.linkFree e.1 e.2 ≤ s.net.at_ &&
  s.room (s.net.buf e.1 e.2 p.1.vc) p.1

/-- No packet of a lower source can be sent on the same link (R388). -/
def State.linkTurn (s : State) (p : Packet) : Bool :=
  !s.net.sends.any fun q => q.1.src < p.src && entryOf q.1.src == entryOf p.src && s.mayEnter q

/-- The packet enters the network at its source's port, one cycle from its router; a core's enters the Headstock's switch (R379, R425). -/
def State.enter (s : State) (q : Packet × Nat) : State :=
  let p := q.1
  let e := entryOf p.src
  let b := s.net.buf e.1 e.2 p.vc
  let t := s.net.at_ + s.netTime e.1 (if 2000000 ≤ p.src then 4 else 1) + (if isCell p.src then s.cellCrossing (p.src - 4000) else 0)
  let n := s.net.putBuf { b with queue := b.queue ++ [⟨p, t, false⟩] }
  { s with net := { n with sends := n.sends.erase q,
                           links := (e.1, e.2, s.net.at_ + s.netTime e.1 p.flits) :: n.links.filter fun l => !(l.1 == e.1 && l.2.1 == e.2) } }

/-- The next waiting packet that can be sent; on a shared link the lower source goes first (R388). -/
def State.inject (s : State) : Option State :=
  match s.net.sends.filter s.mayEnter with
  | [] => none
  | p :: ps => some (s.enter (ps.foldl (fun a b => if b.1.src < a.1.src then b else a) p))

/-! ## Misses on their way (R320, R381) -/

/-- The die of a miss: that of its cell, or the Headstock (R361, R390). -/
def Miss.die (m : Miss) : Nat :=
  match m.agent with
  | .cell n => dieOf n
  | .core _ => 54

/-- The line of a miss: window A tags it by its address alone (R336). -/
def State.missKey (s : State) (m : Miss) : LineKey :=
  if m.asid = 0 && 2 ^ 54 ≤ m.va then ⟨0, 0, m.va / 128⟩ else ⟨m.asid, s.gen m.asid, m.va / 128⟩

def State.putMiss (s : State) (m : Miss) : State :=
  { s with mem := { s.mem with misses := s.mem.misses.map fun x => if x.id == m.id then m else x } }

def State.dropMiss (s : State) (m : Miss) : State :=
  { s with mem := { s.mem with misses := s.mem.misses.filter fun x => x.id != m.id } }

/-- The hart that made a miss. -/
def State.missHart (s : State) (m : Miss) : Hart :=
  match m.agent with
  | .cell n => s.hartAt n m.slot
  | .core n => (assocGet n s.cores).getD Hart.reset

/-- What a miss takes of its line, or of the bytes around it: a load sees its hart's own stores not yet performed (R66, R187, LOG 42). -/
def State.gotOf (s : State) (m : Miss) (kept held : Bool) (p : List Byte × List Byte) : Got :=
  let x := match m.kind with
    | .load _ => (s.missHart m).sees (m.va / 128 * 128) kept p
    | _ => p
  { line := m.va / 128, data := x.1, sb := x.2, held := held, fault := none }

/-- An access that has failed. -/
def Miss.failed (m : Miss) (c : Cause) : Got := { line := m.va / 128, data := [], sb := [], held := false, fault := some c }

/-- Payload of a request (R378): the operands of an `amo`, and the bytes that a piece stores. -/
def Miss.carries (m : Miss) : Nat :=
  match m.kind with
  | .amo _ => 16
  | .pieceOut => m.size + (m.size + 31) / 32
  | _ => 0

/-- Payload of an answer (R378): a line where the cell keeps it, else the bytes asked for and their sideband; an old word; nothing for a check. -/
def Miss.payload (m : Miss) (r : Got) : Nat :=
  match m.kind with
  | .amo _ => 8
  | .check => 0
  | .replay => 0
  | .pieceOut => 0
  | .pieceIn => m.size + (m.size + 31) / 32
  | _ => if r.fault.isSome then 0 else if r.held then 132 else m.size + (if m.size < 32 then 0 else m.size / 32)

/-- A miss is answered at its slice, at an instant: the answer leaves for the cell. A core has its answer at once. -/
def State.answerMiss (s : State) (t : Nat) (m : Miss) (r : Got) : State :=
  match m.agent with
  | .core _ => s.putMiss { m with phase := .come t r }
  | .cell n =>
    (s.putMiss { m with phase := .back r }).sendPacket
      (s.packetOf m.die m.id m.sort (m.payload r) (slicePort m.die (s.homeSlice (s.missKey m))) [portOf n]) t

/-! ## Arrivals (R374, R379) -/

/-- The sender's incarnation is the present one. -/
def State.current (s : State) (p : Packet) : Bool := p.inc == s.inc p.die

/-- Fabric cycles of a slice's lookup (R320). -/
def lookupCycles : Nat := 10

/-- A message of a line reaches its die: a forward acts once the line has been looked up (R363). -/
def State.landMsg (s : State) (node : Nat) (p : Packet) : State :=
  let t := s.net.at_ + (if p.kind == .forward then s.netTime node lookupCycles else 0)
  { s with coh := s.coh.map fun (l : CohLine) => { l with msgs := l.msgs.map fun (m : Sent) =>
      match m.stamp with
      | some x => if x.pkt == p.id && x.at_.isNone then { m with stamp := some { x with at_ := some t } } else m
      | none => m } }

/-- A miss reaches its slice, or its answer the cell. -/
def State.landMiss (s : State) (node : Nat) (p : Packet) : State :=
  { s with mem := { s.mem with misses := s.mem.misses.map fun (m : Miss) =>
      if m.id != p.id then m
      else match m.phase with
        | .out => { m with phase := .look (s.net.at_ + s.netTime node lookupCycles) }
        | .back r => { m with phase := .come s.net.at_ r }
        | _ => m } }

/-- What a message does as it reaches its target: a piece, whichever cell sent it last, can be written from the cycle after its last flit on; a
credit is made in the cycle after it; a `stfer` attempt is tried, and an answer reaches its hart (R386, R389). -/
def State.deliver (s : State) (node : Nat) (p : Packet) : State :=
  let n := node - 4000
  let landed : State := { s with net := { s.net with remote := s.net.remote.map fun r => if r.id == p.id then { r with travel := false } else r } }
  match p.kind with
  | .piece =>
    let at_ := (s.cellAt n).cycleFrom (s.net.at_ + s.netTime node p.flits)
    s.mapCells fun c => { c with pushes := c.pushes.map fun (x : Push) =>
      if x.id == p.id && x.cell == n && x.state == .travel then { x with state := .peer, ready := at_ } else x }
  | .pieceCredit =>
    s.putCell { s.cellAt n with pushes := (s.cellAt n).pushes.map fun (x : Push) =>
      if x.id == p.id && x.cell == p.src - 4000 then (match x.state with
        | .credit b => { x with state := .done b, ready := (s.cellAt n).cycleFrom s.net.at_ + 1 }
        | _ => x) else x }
  | .attempt => landed
  | .answer => landed
  | .miss => s.landMiss node p
  | .request => s.landMiss node p
  | .bulkLine => s.landMiss node p
  | _ => s.landMsg node p

/-- A packet that comes to an input: granted upstream, it stands in the buffer; at its target it leaves the network, a piece of a copy once it
is written (R388). One that a port sends enters where its buffer has room. -/
def State.packetArrival (s : State) (node inp : Nat) (p : Packet) : Option State :=
  let b := s.net.buf node inp p.vc
  match b.coming with
  | x :: rest =>
    if x.pkt != p || s.net.at_ < x.came then none
    else
      let stays : State := { s with net := s.net.putBuf { b with queue := b.queue ++ [x], coming := rest } }
      if node < 4000 then some stays
      else if !s.current p then none
      else some ((if p.kind == .piece then stays else { s with net := s.net.putBuf { b with coming := rest } }).deliver node p)
  | [] => (s.net.sends.find? fun q => q.1 == p).bind fun q =>
    if entryOf p.src == (node, inp) && s.mayEnter q && s.linkTurn p then some (s.enter q) else none

/-- PACKET_ARRIVAL (R379). -/
def execPacketArrival (node inp : Nat) (p : Packet) (s : State) : Out := .next ((s.netHere.packetArrival node inp p).getD s)

/-- A written piece leaves the input of its cell; its room is there from the next cycle on (R388). -/
def State.takeOut (s : State) (n id : Nat) : State :=
  let b := s.net.buf (portOf n) 0 .bulk
  let gone := b.queue.filter fun x => x.pkt.id == id
  { s with net := s.net.putBuf { b with queue := b.queue.filter fun x => x.pkt.id != id,
                                        leaving := gone.map (fun x => ⟨x.pkt.flits, x.came, s.instant, x.whole⟩) ++
                                          b.leaving.filter fun x => s.instant < x.sent + s.netTime b.node 1 } }

/-- A message whose incarnation is stale is dropped without answer, and counted (R374, R387). -/
def State.staleDrop (s : State) (node : Nat) (p : Packet) : Option State :=
  let b := s.net.buf node 0 p.vc
  match b.coming with
  | x :: rest =>
    if x.pkt == p && x.came ≤ s.net.at_ && !s.current p then
      let gone (m : Sent) : Bool := m.stamp.any fun y => y.pkt == p.id
      let s := { s with net := s.net.putBuf { b with coming := rest },
                        coh := s.coh.map fun (l : CohLine) => { l with msgs := l.msgs.filter fun m => !gone m } }
      some (s.countNet (siteOf node).1 0x18 32 16 1)
    else none
  | [] => none

/-- STALE_DROP at a target (R374). -/
def execStaleDrop (receiver : Nat) (p : Packet) (s : State) : Out := .next ((s.netHere.staleDrop receiver p).getD s)

/-- The next packet that comes to a node at the network's instant. -/
def State.arrivalStep (s : State) : Option State :=
  s.net.bufs.findSome? fun b => b.coming.head?.bind fun x => s.packetArrival b.node b.inp x.pkt <|> s.staleDrop b.node x.pkt

/-- The next packet sent, or the next grant. -/
def State.grantStep (s : State) : Option State :=
  s.inject <|> s.net.bufs.findSome? fun b =>
    if 4000 ≤ b.node then none else (s.headOf b).bind fun p => (packetOuts p b.node).findSome? fun o => s.routerGrant b.node o

/-! ## The network's instants -/

/-- The first instant after the network's that lies a whole number of fabric cycles of a node's die after another. -/
def State.nextCycle (s : State) (node t : Nat) : Nat :=
  if s.net.at_ < t then t else t + (s.netCycles node (s.net.at_ - t) + 1) * s.netTime node 1

/-- Instants at which the packets can go on: an arrival; a head and a waiting packet, in every cycle. -/
def State.netTimes (s : State) : List Nat :=
  (s.net.bufs.flatMap fun b => (b.coming.head?.map (·.came)).toList ++
    (if 4000 ≤ b.node then [] else ((s.headFrom b).map fun x => s.nextCycle b.node x.2).toList)) ++
  s.net.sends.map fun p => s.nextCycle (entryOf p.1.src).1 (max p.2 (s.net.linkFree (entryOf p.1.src).1 (entryOf p.1.src).2))

end Sys2Proof.Machine
end

