-- ==== Sys2Proof/Machine/Coherence.lean ====
section
/-! DEFINITION. Lines between dies: home directories, transient states, write-backs; words registered to cells (R359 to R367). -/

namespace Sys2Proof.Machine

/-! ## The record of a line -/

/-- A line no die holds. -/
def CohLine.reset (k : LineKey) : CohLine :=
  { key := k, st := .i, owner := 0, sharers := 0, busy := none, dies := [], msgs := [], places := [] }

/-- The die a message goes to; the line's home takes the rest. -/
def CohMsg.dest (home : Nat) : CohMsg → Nat
  | .fwdGets o _ => o
  | .fwdGetm o _ => o
  | .inval d _ => d
  | .invAck d => d
  | .ackCount d _ => d
  | .data d _ => d
  | .wbAck d => d
  | _ => home

/-- Kind and payload of the packet that carries a message (R362, R378, R381). -/
def CohMsg.packet : CohMsg → MsgKind × Nat
  | .fwdGets _ _ => (.forward, 0)
  | .fwdGetm _ _ => (.forward, 0)
  | .inval _ _ => (.invalidation, 0)
  | .placeGrant _ => (.grant, 0)
  | .wbAck _ => (.grant, 0)
  | .invAck _ => (.ack, 0)
  | .ackCount _ _ => (.ack, 0)
  | .unblock _ => (.unblock, 0)
  | .data _ _ => (.data, 132)
  | .writeBack _ => (.data, 132)
  | _ => (.homeRequest, 0)

/-- The requester that an answer of the home is made for. -/
def CohMsg.requester : CohMsg → Option Nat
  | .fwdGets _ r => some r
  | .fwdGetm _ r => some r
  | .inval _ r => some r
  | .ackCount d _ => some d
  | .data d _ => some d
  | _ => none

/-- Fabric cycles of a line's read from HBM through the translation agent (R320). -/
def hbmCycles : Nat := 190

/-- Fabric cycles of its sender's die until a message leaves: the home answers a request after its lookup, which a request of its own die has had, its
data after their read from memory, and a place request in the next cycle (R320, R363, R367). -/
def Sent.wait (m : Sent) (home : Nat) : Nat :=
  if m.from_.isSome then 0
  else match m.msg, m.msg.requester with
    | .placeGrant _, _ => 1
    | .data _ _, r => (if r == some home then 0 else lookupCycles) + hbmCycles
    | _, some r => if r == home then 0 else lookupCycles
    | _, none => 0

/-- A message leaves, at an instant: it carries its sender's die number and incarnation (R374), and travels as a packet from slice to slice; one that
stays on its die has come as it leaves, a forward once the line has been looked up. -/
def State.stampMsg (s : State) (t : Nat) (k : LineKey) (m : Sent) : Sent × State :=
  if m.stamp.isSome then (m, s)
  else
    let home := s.lineHome k.asid (k.line * 128)
    let d := m.from_.getD home
    let e := m.msg.dest home
    let leaves := t + m.wait home * s.fabricCycle d
    let kind := m.msg.packet
    if d = e then
      ({ m with stamp := some ⟨d, s.inc d, 0, some (leaves + if kind.1 == .forward then lookupCycles * s.fabricCycle d else 0)⟩ }, s)
    else
      let p := s.packetOf d s.cmdNo kind.1 kind.2 (slicePort d (s.homeSlice k)) [slicePort e (s.homeSlice k)]
      ({ m with stamp := some ⟨d, s.inc d, s.cmdNo, none⟩ }, { s.sendPacket p leaves with cmdNo := s.cmdNo + 1 })

/-- It has come by an instant, and acts. -/
def Sent.acts (m : Sent) (t : Nat) : Bool := m.stamp.any fun x => x.at_.any fun a => a ≤ t

/-- Its sender has rejoined since it left (R374). -/
def State.stale (s : State) (m : Sent) : Bool :=
  match m.stamp with
  | some x => x.inc != s.inc x.die
  | none => false

/-- The links to a die are closed (R370). -/
def State.cutOff (s : State) (d : Nat) : Bool := s.net.closed.contains d

/-- A message that its receiver takes: it is not stale, and no closed link lies before it. -/
def State.live (s : State) (k : LineKey) (m : Sent) : Bool := !s.stale m && !s.cutOff (m.msg.dest (s.lineHome k.asid (k.line * 128)))

/-- The record of a line, with the messages that its receivers take. -/
def State.cohLine (s : State) (k : LineKey) : CohLine :=
  match s.coh.find? fun l => l.key == k with
  | none => .reset k
  | some l => { l with msgs := l.msgs.filter (s.live k) }

/-- The line has nothing left to record. -/
def CohLine.idle (l : CohLine) : Bool := l.st == .i && l.dies.isEmpty && l.msgs.isEmpty && l.busy.isNone && l.places.isEmpty

/-- The record of a line put in its place, at an instant: the messages that it has not sent yet leave. -/
def State.putCoh (s : State) (t : Nat) (l : CohLine) : State :=
  let rest := s.coh.filter fun m => m.key != l.key
  if l.idle then { s with coh := rest }
  else
    let r := l.msgs.foldl (fun (r : List Sent × State) m => let x := r.2.stampMsg t l.key m; (r.1 ++ [x.1], x.2)) ([], s)
    { r.2 with coh := { l with msgs := r.1 } :: rest }

namespace CohLine

def die (l : CohLine) (d : Nat) : DieLine := (l.dies.find? fun x => x.die == d).getD ⟨d, .i, none, 0, false, false, none⟩

def putDie (l : CohLine) (x : DieLine) : CohLine :=
  let rest := l.dies.filter fun y => y.die != x.die
  { l with dies := if x.st == .i then rest else x :: rest }

def dieState (l : CohLine) (d : Nat) : DieState := (l.die d).st

def setDie (l : CohLine) (d : Nat) (st : DieState) : CohLine := l.putDie ⟨d, st, none, 0, false, false, none⟩

/-- Messages on their way from a die (none: the home). -/
def send (l : CohLine) (d : Option Nat) (ms : List CohMsg) : CohLine := { l with msgs := l.msgs ++ ms.map fun m => ⟨m, d, none⟩ }

/-- A message of this content is in flight, or has come by an instant. -/
def holds (l : CohLine) (m : CohMsg) : Bool := l.msgs.any fun x => x.msg == m
def has (l : CohLine) (t : Nat) (m : CohMsg) : Bool := l.msgs.any fun x => x.msg == m && x.acts t

def take (l : CohLine) (t : Nat) (m : CohMsg) : CohLine := { l with msgs := l.msgs.eraseP fun x => x.msg == m && x.acts t }

def sharer (l : CohLine) (d : Nat) : Bool := l.sharers.getLsbD d

def addSharer (l : CohLine) (d : Nat) : CohLine := { l with sharers := l.sharers ||| BitVec.ofNat 55 (2 ^ d) }

/-- The sharers but one die, ascending. -/
def others (l : CohLine) (d : Nat) : List Nat := (List.range 55).filter fun i => l.sharer i && i != d

/-! ## The home directory (R362, R363) -/

/-- A stable state that lets a die ask: nothing for GetS and GetM, a shared copy for an upgrade; and no PutE of its own on the way. -/
def mayAsk (l : CohLine) (d : Nat) (up : Bool) : Bool :=
  !l.holds (.pute d) && (if up then l.dieState d == .s || l.dieState d == .o else l.dieState d == .i)

/-- A request leaves its die (R364): the transient state, and the message on its way to the home. -/
def ask (l : CohLine) (d : Nat) (up : Bool) (m : CohMsg) (t : DieState) : CohLine :=
  if l.holds m || !l.mayAsk d up then l else (l.setDie d t).send (some d) [m]

/-- The die whose request a message is. -/
def asker : CohMsg → Option Nat
  | .gets d => some d
  | .getm d => some d
  | .upg d => some d
  | _ => none

/-- The instant at which a message has come. -/
def comesAt (m : Sent) : Option Nat := m.stamp.bind (·.at_)

/-- Request `x` is taken before request `y`: it arrived earlier, or in the same cycle from the lower die number (R363). -/
def before (x y : Sent) : Bool :=
  match comesAt x, comesAt y with
  | some a, some b => a < b || (a == b && (asker x.msg).getD 0 < (asker y.msg).getD 0)
  | some _, none => true
  | _, _ => false

/-- Requests are taken in the order they arrived; a busy line takes none (R363). -/
def mayServe (l : CohLine) (t : Nat) (m : CohMsg) : Bool :=
  l.busy.isNone && (match l.msgs.find? fun x => x.msg == m && x.acts t with
    | none => false
    | some x => !l.msgs.any fun y => (asker y.msg).isSome && y.msg != m && before y x)

/-- GetS at the home. -/
def serveGets (l : CohLine) (t d : Nat) : CohLine :=
  let l := { l.take t (.gets d) with busy := some d }
  match l.st with
  | .i => { l with st := .x, owner := d }.send none [.data d false]
  | .s => (l.addSharer d).send none [.data d true]
  | .x => ({ l with st := .o }.addSharer d).send none [.fwdGets l.owner d]
  | .o => (l.addSharer d).send none [.fwdGets l.owner d]

/-- What a GetM makes of the line. -/
def giveTo (l : CohLine) (d : Nat) : CohLine :=
  let l := { l with busy := some d }
  let inv := (l.others d).map fun i => CohMsg.inval i d
  let own := { l with st := .x, owner := d, sharers := 0 }
  match l.st with
  | .i => own.send none [.data d false, .ackCount d 0]
  | .s => own.send none ([.data d false] ++ inv ++ [.ackCount d inv.length])
  | .x => own.send none [.fwdGetm l.owner d, .ackCount d 0]
  | .o => own.send none ([.fwdGetm l.owner d] ++ inv ++ [.ackCount d inv.length])

/-- GetM at the home. -/
def serveGetm (l : CohLine) (t d : Nat) : CohLine := (l.take t (.getm d)).giveTo d

/-- An upgrade at the home: from a sharer, or from the owner itself; from any other die it is a GetM. -/
def serveUpg (l : CohLine) (t d : Nat) : CohLine :=
  let l := l.take t (.upg d)
  let own := { l with st := .x, owner := d, sharers := 0, busy := some d }
  let inv := (l.others d).map fun i => CohMsg.inval i d
  if l.st == .o && l.owner == d then own.send none (inv ++ [.ackCount d inv.length])
  else if !l.sharer d then l.giveTo d
  else match l.st with
    | .o => own.send none ([.inval l.owner d] ++ inv ++ [.ackCount d (inv.length + 1)])
    | _ => own.send none (inv ++ [.ackCount d inv.length])

/-! ## The requester (R364) -/

/-- A die that has all it waits for reaches its stable state and unblocks the line. -/
def settle (l : CohLine) (d : Nat) : CohLine :=
  let x := l.die d
  let acked := x.count == some x.acks
  match x.st with
  | .imAd => if x.arrived && acked then (l.setDie d .m).send (some d) [.unblock d]
    else if x.arrived then l.putDie { x with st := .imA } else l
  | .imA => if acked then (l.setDie d .m).send (some d) [.unblock d] else l
  | .smAd => if acked then (l.setDie d .m).send (some d) [.unblock d]
    else if x.count.isSome then l.putDie { x with st := .smA } else l
  | .smA => if acked then (l.setDie d .m).send (some d) [.unblock d] else l
  | _ => l

/-- Line data reach a requester. -/
def getData (l : CohLine) (d : Nat) (shared : Bool) : CohLine :=
  let x := l.die d
  match x.st with
  | .isD => (l.setDie d (if x.once then .i else if shared then .s else .e)).send (some d) [.unblock d]
  | .imAd => (l.putDie { x with arrived := true }).settle d
  | _ => l

/-- The data that reach the die come after an Inv: its waiting loads are served from them once (R364). -/
def servesOnce (l : CohLine) (d : Nat) : Option (List Byte × List Byte) := if l.dieState d == .isD then (l.die d).seen else none

/-- An acknowledgement reaches a requester; one before the count is held. -/
def getAck (l : CohLine) (d : Nat) : CohLine :=
  let x := l.die d
  (l.putDie { x with acks := x.acks + 1 }).settle d

def getCount (l : CohLine) (d n : Nat) : CohLine := (l.putDie { l.die d with count := some n }).settle d

/-- An Inv reaches a die: its copy is dropped and the requester told. -/
def getInv (l : CohLine) (d req : Nat) : CohLine :=
  let x := l.die d
  let l := match x.st with
    | .isD => l.putDie { x with once := true }
    | .smAd => l.putDie { x with st := .imAd }
    | .miA => l.putDie { x with st := .iiA }
    | .oiA => l.putDie { x with st := .iiA }
    | .s => l.setDie d .i
    | .o => l.setDie d .i
    | .e => l.setDie d .i
    | _ => l
  l.send (some d) [.invAck req]

/-- A forwarded GetS reaches the owner: it keeps the line in O and sends its data. -/
def getFwdS (l : CohLine) (d req : Nat) : CohLine :=
  let x := l.die d
  (match x.st with
    | .m => l.setDie d .o
    | .e => l.setDie d .o
    | .miA => l.putDie { x with st := .oiA }
    | _ => l).send (some d) [.data req true]

/-- A forwarded GetM reaches the owner: it sends its data and drops the line. -/
def getFwdM (l : CohLine) (d req : Nat) : CohLine :=
  let x := l.die d
  (match x.st with
    | .miA => l.putDie { x with st := .iiA }
    | .oiA => l.putDie { x with st := .iiA }
    | _ => l.setDie d .i).send (some d) [.data req false]

/-- A write-back judged against the directory (R365): whether its sender still owns the line, and the directory after it. -/
def judge (l : CohLine) (d : Nat) : Bool × CohLine :=
  if l.st == .x && l.owner == d then (true, { l with st := .i, owner := 0 })
  else if l.st == .o && l.owner == d then (true, { l with st := .s, owner := 0 })
  else (false, l)

end CohLine

/-! ## Registered words (R359, R360) -/

/-- Cells of a die give up the words of a line they have registered: their data are in the slice's copy. -/
def State.recallWords (s : State) (die : Nat) (k : LineKey) : State :=
  s.mapCells fun c =>
    if dieOf c.no != die then c
    else c.mapCache fun l => if l.key == k then { l with valid := l.valid &&& ~~~ l.regs, regs := 0 } else l

/-- A condition on a line met, and the line changed, at an instant. -/
def State.onLine (s : State) (t : Nat) (k : LineKey) (due : CohLine → Bool) (f : CohLine → CohLine) : Option State :=
  let l := s.cohLine k
  if due l then some (s.putCoh t (f l)) else none

/-- The on-die value of a line that no die holds any more goes; memory has it. -/
def State.tidyLine (s : State) (k : LineKey) : State :=
  if (s.cohLine k).idle then
    match s.line? k with
    | some l => if l.dirty then s else s.dropLine k
    | none => s
  else s

/-- A die waits for the end of its own transaction on the line: the miss holds an entry of its slice's miss table (R366). -/
def CohLine.missing (l : CohLine) (d : Nat) : Bool :=
  match l.dieState d with
  | .isD => true
  | .imAd => true
  | .imA => true
  | .smAd => true
  | .smA => true
  | _ => false

/-- Lines for which a miss of a die has not been answered by its slice: a transaction, a walk, a read, or a page is waited for (R366). -/
def State.openLines (s : State) (d slice : Nat) : List LineKey :=
  (((s.coh.filter fun l => l.missing d).map (·.key) ++
    (s.mem.misses.filter fun m => m.die == d && (match m.phase with
      | .walk _ => true
      | .far _ => true
      | .ask => true
      | _ => false)).map s.missKey).filter fun k => s.homeSlice k == slice).dedup

/-- Entries 0 to 45 of a slice's miss table are in use, none of them by the line (R366). -/
def State.missFull (s : State) (d : Nat) (k : LineKey) : Bool :=
  let ls := s.openLines d (s.homeSlice k)
  46 ≤ ls.length && !ls.contains k

/-- A request of a die, at an instant: it leaves if it has not and the slice has a miss-table entry for it; one that has arrived is served at its home
where the line takes it now (R363, R366). -/
def State.request (s : State) (t : Nat) (k : LineKey) (d : Nat) (up : Bool) (m : CohMsg) (st : DieState) (serve : CohLine → CohLine) : State :=
  let l := s.cohLine k
  if l.mayServe t m then s.putCoh t (serve l)
  else if s.missFull d k then s
  else s.putCoh t (l.ask d up m st)

def State.getsAt (s : State) (t d : Nat) (k : LineKey) : State := s.request t k d false (.gets d) .isD fun x => x.serveGets t d
def State.getmAt (s : State) (t d : Nat) (k : LineKey) : State := s.request t k d false (.getm d) .imAd fun x => x.serveGetm t d
def State.upgAt (s : State) (t d : Nat) (k : LineKey) : State := s.request t k d true (.upg d) .smAd fun x => x.serveUpg t d

/-- GETS (R362). -/
def execGets (die : Nat) (l : LineKey) (s : State) : Out := .next (s.getsAt s.instant die l)

/-- GETM (R362). -/
def execGetm (die : Nat) (l : LineKey) (s : State) : Out := .next (s.getmAt s.instant die l)

/-- UPG (R362). -/
def execUpg (die : Nat) (l : LineKey) (s : State) : Out := .next (s.upgAt s.instant die l)

/-- The forward that has come to an owner, if any: the requester. -/
def CohLine.fwdTo (l : CohLine) (t d : Nat) (m : Bool) : Option Nat :=
  l.msgs.findSome? fun x => if !x.acts t then none else match x.msg with
    | .fwdGets o r => if !m && o == d then some r else none
    | .fwdGetm o r => if m && o == d then some r else none
    | _ => none

/-- A forwarded GetS is answered: the owner's registered words are recalled first (R359, R364). -/
def State.fwdGetsAt (s : State) (t d : Nat) (k : LineKey) : Option State :=
  ((s.cohLine k).fwdTo t d false).map fun r => (s.recallWords d k).putCoh t (((s.cohLine k).take t (.fwdGets d r)).getFwdS d r)

/-- FWD_GETS. -/
def execFwdGets (die : Nat) (l : LineKey) (s : State) : Out := .next ((s.fwdGetsAt s.instant die l).getD s)

/-- A forwarded GetM likewise (R359, R364). -/
def State.fwdGetmAt (s : State) (t d : Nat) (k : LineKey) : Option State :=
  ((s.cohLine k).fwdTo t d true).map fun r => (s.recallWords d k).putCoh t (((s.cohLine k).take t (.fwdGetm d r)).getFwdM d r)

/-- FWD_GETM. -/
def execFwdGetm (die : Nat) (l : LineKey) (s : State) : Out := .next ((s.fwdGetmAt s.instant die l).getD s)

/-- An acknowledgement reaches its requester (R364). -/
def State.invAckAt (s : State) (t d : Nat) (k : LineKey) : Option State :=
  s.onLine t k (fun x => x.has t (.invAck d)) fun x => (x.take t (.invAck d)).getAck d

/-- INV_ACK. -/
def execInvAck (die : Nat) (l : LineKey) (s : State) : Out := .next ((s.invAckAt s.instant die l).getD s)

/-- The kinds of miss that take data. -/
def MissKind.takesData (k : MissKind) : Bool :=
  match k with
  | .load _ => true
  | .fetch => true
  | .pieceIn => true
  | _ => false

/-- The loads of a die that wait for a line, of harts, fetches and engines, are answered from the data that the die gives up as they come
(R364). -/
def State.serveOnce (s : State) (t d : Nat) (k : LineKey) (v : Option (List Byte × List Byte)) : State :=
  match v, s.line? k with
  | some p, some l =>
    (s.mem.misses.filter fun m => m.die == d && m.phase == .ask && m.kind.takesData && s.missKey m == k).foldl (fun s m =>
      s.answerMiss t m (s.gotOf m l.kept false p)) s
  | _, _ => s

/-- Data reach a requester (R364). -/
def State.dataAt (s : State) (t d : Nat) (k : LineKey) : Option State :=
  let x := s.cohLine k
  let take (shared : Bool) : State := (s.putCoh t ((x.take t (.data d shared)).getData d shared)).serveOnce t d k (x.servesOnce d)
  if x.has t (.data d true) then some (take true)
  else if x.has t (.data d false) then some (take false)
  else none

/-- DATA. -/
def execData (die : Nat) (l : LineKey) (s : State) : Out := .next ((s.dataAt s.instant die l).getD s)

/-- An Unblock ends the busy time of its line (R363). -/
def State.unblockAt (s : State) (t d : Nat) (k : LineKey) : Option State :=
  s.onLine t k (fun x => x.has t (.unblock d)) fun x => { x.take t (.unblock d) with busy := none }

/-- UNBLOCK. -/
def execUnblock (die : Nat) (l : LineKey) (s : State) : Out := .next ((s.unblockAt s.instant die l).getD s)

/-- The Inv that has come to a die: its requester. -/
def CohLine.invTo (l : CohLine) (t d : Nat) : Option Nat :=
  l.msgs.findSome? fun x => if !x.acts t then none else match x.msg with
    | .inval i r => if i == d then some r else none
    | _ => none

/-- The line's data as an Inv to a die that waits for them finds them: its loads are served from these (R364). -/
def State.note (s : State) (l : CohLine) (d : Nat) : CohLine :=
  let x := l.die d
  if x.st == .isD && !x.once then l.putDie { x with seen := (s.line? l.key).map fun o => (o.data, o.sb) } else l

/-- An Inv is acknowledged (R362, R364). -/
def State.invalAt (s : State) (t d : Nat) (k : LineKey) : Option State :=
  ((s.cohLine k).invTo t d).map fun r => s.putCoh t (((s.note (s.cohLine k) d).take t (.inval d r)).getInv d r)

/-- INVALIDATION. -/
def execInvalidation (die : Nat) (l : LineKey) (s : State) : Out := .next ((s.invalAt s.instant die l).getD s)

/-- The count that has come to a requester. -/
def CohLine.countTo (l : CohLine) (t d : Nat) : Option Nat :=
  l.msgs.findSome? fun x => if !x.acts t then none else match x.msg with
    | .ackCount i n => if i == d then some n else none
    | _ => none

/-- A count reaches its requester (R362, R364). -/
def State.ackCountAt (s : State) (t d : Nat) (k : LineKey) : Option State :=
  ((s.cohLine k).countTo t d).map fun n => s.putCoh t (((s.cohLine k).take t (.ackCount d n)).getCount d n)

/-- ACK_COUNT. -/
def execAckCount (die : Nat) (l : LineKey) (s : State) : Out := .next ((s.ackCountAt s.instant die l).getD s)

/-! ## Evictions and write-backs (R359, R365, R367) -/

/-- The die holds the line in an eviction entry (R364). -/
def CohLine.evicting (l : CohLine) (d : Nat) : Bool := l.dieState d == .miA || l.dieState d == .oiA || l.dieState d == .iiA

/-- Eviction entries of a die's slice that are in use: those of lines until their WBAck, and of those whose PutE holds its pending bit (R364, R366,
R367). -/
def State.entriesUsed (s : State) (die slice : Nat) : Nat :=
  (s.coh.filter fun l => s.homeSlice l.key == slice && (l.evicting die || l.places.any fun p => p.1 == die)).length

/-- An eviction entry of a slice cannot be taken: its pending bit is set, or both are in use. -/
def State.entryBusy (s : State) (die slice entry : Nat) : Bool :=
  (s.coh.any fun l => l.places.contains (die, slice, entry) || l.holds (.placeReq die slice entry)) || 2 ≤ s.entriesUsed die slice

/-- A pending bit of a die's slice on a line is cleared. -/
def CohLine.clearBits (l : CohLine) (d : Nat) : CohLine := { l with places := l.places.filter fun p => p.1 != d }

/-- A PutE held in its pending bit at the home is judged as a write-back is, once the line is not busy, and frees the bit (R365, R367). -/
def State.puteAt (s : State) (t die : Nat) (k : LineKey) : Option State :=
  (s.onLine t k (fun x => x.has t (.pute die) && x.busy.isNone) fun x => (((x.take t (.pute die)).judge die).2.clearBits die)).map fun t =>
    t.tidyLine k

/-- A slice gives up an E line without data: its PutE takes the pending bit of a free eviction entry, and waits where neither is free (R362,
R367). -/
def State.sendPute (s : State) (t die : Nat) (k : LineKey) : Option State :=
  ((List.range 2).find? fun e => !s.entryBusy die (s.homeSlice k) e).bind fun e =>
    s.onLine t k (fun x => x.dieState die == .e) fun x =>
      { x.setDie die .i with places := x.places ++ [(die, s.homeSlice k, e)] }.send (some die) [.pute die]

/-- PUTE: a die gives up an E line without data (R362, R367), or its PutE is judged. -/
def execPute (die : Nat) (l : LineKey) (s : State) : Out :=
  .next ((s.puteAt s.instant die l).getD ((s.sendPute s.instant die l).getD s))

/-- A place request reaches the home: its pending bit is set (R367). -/
def State.placeReqAt (s : State) (t die slice entry : Nat) (k : LineKey) : Option State :=
  s.onLine t k (fun x => x.has t (.placeReq die slice entry)) fun x =>
    { x.take t (.placeReq die slice entry) with places := x.places ++ [(die, slice, entry)] }

/-- A place is granted to a die: the data leave (R364, R367). -/
def State.placeGrantAt (s : State) (t die : Nat) (k : LineKey) : Option State :=
  s.onLine t k (fun x => x.has t (.placeGrant die)) fun x => (x.take t (.placeGrant die)).send (some die) [.writeBack die]

/-- The state of a line that goes into an eviction entry. -/
def DieState.evicted (st : DieState) : Option DieState :=
  match st with
  | .m => some .miA
  | .o => some .oiA
  | _ => none

/-- PLACE_REQUEST: a slice evicts an M or O line of another die's home into a free one of its two eviction entries, its registered words
recalled, and asks the home for a place (R359, R366, R367); or the request reaches the home. -/
def execPlaceRequest (die slice entry : Nat) (l : LineKey) (s : State) : Out :=
  match s.placeReqAt s.instant die slice entry l with
  | some t => .next t
  | none =>
    if 1 < entry || s.homeSlice l != slice || s.lineHome l.asid (l.line * 128) == die || s.entryBusy die slice entry then .next s
    else
      let x := s.cohLine l
      match (x.dieState die).evicted with
      | some t => .next ((s.recallWords die l).putCoh s.instant ((x.setDie die t).send (some die) [.placeReq die slice entry]))
      | none => .next s

/-- A write-back is judged at the home once the line is not busy; written to memory through translation where its sender still owns the
line, discarded otherwise (R365). -/
def State.writeBackAt (s : State) (t die : Nat) (k : LineKey) : Option State :=
  let x := s.cohLine k
  if x.has t (.writeBack die) && x.busy.isNone then
    let r := (x.take t (.writeBack die)).judge die
    let s := s.putCoh t (r.2.send none [.wbAck die])
    some (if r.1 then (match s.line? k with
      | some l => s.writeBackLine false l
      | none => s) else s)
  else none

/-- WRITE_BACK. -/
def execWriteBack (die : Nat) (l : LineKey) (s : State) : Out := .next ((s.writeBackAt s.instant die l).getD s)

/-- The acknowledgement of a write-back: the sender returns to I (R364, R365). -/
def State.wbAckAt (s : State) (t die : Nat) (k : LineKey) : Option State :=
  (s.onLine t k (fun x => x.has t (.wbAck die)) fun x => (x.take t (.wbAck die)).setDie die .i).map fun t => t.tidyLine k

/-- WBACK. -/
def execWback (die : Nat) (l : LineKey) (s : State) : Out := .next ((s.wbAckAt s.instant die l).getD s)

/-- RECALL (R359). -/
def execRecall (die : Nat) (l : LineKey) (s : State) : Out := .next (s.recallWords die l)

/-- WORD_RETURN: a cell returns the words of a line that it has registered (R359). -/
def execWordReturn (c : Nat) (l : LineKey) (s : State) : Out :=
  .next (s.putCell ((s.cellAt c).mapCache fun x => if x.key == l then { x with regs := 0 } else x))

/-- CACHE_EVICT: a fill evicts a line of the cell's CACHE, its registered words returned (R41, R106, R359). -/
def execCacheEvict (c : Nat) (l : LineKey) (s : State) : Out :=
  let cell := s.cellAt c
  .next (s.putCell { cell with cache := cell.cache.filter fun x => x.key != l })

/-! ## Whole transactions, for an engine of the memory side and for what a die has given up meanwhile (LOG 27)

The transaction itself is made at once, where nothing is under way on the line, and keeps the line busy until its Unblock reaches the home
(R363). -/

/-- The owner's state once it has answered a read: it keeps the line, in its eviction entry where it was evicting it (R364). -/
def afterRead (st : DieState) : DieState :=
  match st with
  | .miA => .oiA
  | .oiA => .oiA
  | _ => .o

/-- A die that waits for data, or for its own eviction to be acknowledged, has its loads wait (R364). -/
def CohLine.loadsWait (x : CohLine) (d : Nat) : Bool := x.dieState d == .isD || x.dieState d == .imAd || x.dieState d == .iiA

/-- Loads of a die are served from its own copy of the line (R364). -/
def CohLine.readable (x : CohLine) (d : Nat) : Bool := x.dieState d != .i && !x.loadsWait d

/-- The die may register words of the line (R359, R361). -/
def CohLine.writable (x : CohLine) (d : Nat) : Bool := x.dieState d == .m || x.dieState d == .e

/-- Something is under way on the line. -/
def CohLine.underWay (x : CohLine) : Bool := x.busy.isSome || !x.msgs.isEmpty

/-- The line of a transaction just made: it is busy until the requester's Unblock has come to the home. -/
def CohLine.unblocks (x : CohLine) (d : Nat) : CohLine := { x with busy := some d }.send (some d) [.unblock d]

/-- The links to the line's home are closed, and the home is another die (R370). -/
def State.homeCut (s : State) (d : Nat) (k : LineKey) : Bool :=
  !s.net.closed.isEmpty && s.lineHome k.asid (k.line * 128) != d && s.cutOff (s.lineHome k.asid (k.line * 128))

/-- The directory and the dies after a transaction that gives a die the line to read (R362, R364); `none` while the line is busy, the
die's loads wait, or the links to its owner or its home are closed (R370). -/
def State.cohRead (s : State) (d : Nat) (k : LineKey) : Option State :=
  let x := s.cohLine k
  if x.readable d then some s
  else if x.underWay || x.loadsWait d || s.homeCut d k then none
  else match x.st with
    | .i => some (s.putCoh s.instant (({ x with st := .x, owner := d }.setDie d .e).unblocks d))
    | .s => some (s.putCoh s.instant (((x.addSharer d).setDie d .s).unblocks d))
    | _ =>
      if s.cutOff x.owner then none
      else some ((s.recallWords x.owner k).putCoh s.instant
        ((((({ x with st := .o }).addSharer d).setDie x.owner (afterRead (x.dieState x.owner))).setDie d .s).unblocks d))

/-- A die whose line another die takes: one that was evicting it waits for its acknowledgement, any other drops it (R364). -/
def DieLine.taken (y : DieLine) : Option DieLine :=
  match y.st with
  | .miA => some { y with st := .iiA }
  | .oiA => some { y with st := .iiA }
  | .iiA => some y
  | _ => none

/-- The directory says that a die holds or shares the line. -/
def CohLine.concerns (l : CohLine) (d : Nat) : Bool :=
  l.dieState d != .i || l.sharer d || ((l.st == .x || l.st == .o) && l.owner == d)

/-- A die that holds the line in M or E has it in M: the first registration makes an E line dirty silently (R361). -/
def CohLine.dirtied (x : CohLine) (d : Nat) : CohLine := if x.dieState d == .e then x.setDie d .m else x

/-- The same for a die whose cell registers a word: the die holds the line in M, and no other die holds it (R359, R361). A die that is
evicting the line waits for the end of that, and one whose line a failed die has or is the home of, for the flush (R370). -/
def State.cohWrite (s : State) (d : Nat) (k : LineKey) : Option State :=
  let x := s.cohLine k
  if x.dieState d == .m then some s
  else if x.dieState d == .e then some (s.putCoh s.instant (x.dirtied d))
  else if x.underWay || x.missing d || x.evicting d || s.homeCut d k || (s.net.closed.any fun e => e != d && x.concerns e) then none
  else
    let rest := x.dies.filter fun y => y.die != d
    let s := rest.foldl (fun s y => s.recallWords y.die k) s
    some (s.putCoh s.instant (({ x with st := .x, owner := d, sharers := 0, dies := rest.filterMap DieLine.taken }.setDie d .m).unblocks d))

/-- The next state of an outcome. -/
def nextOf (o : Out) : Option State :=
  match o with
  | .next t => some t
  | _ => none

/-- A message that has come by an instant acts. -/
def State.msgAt (s : State) (t : Nat) (k : LineKey) (m : CohMsg) : Option State :=
  let serve (f : CohLine → CohLine) : Option State := s.onLine t k (fun x => x.mayServe t m) f
  match m with
  | .gets d => serve fun x => x.serveGets t d
  | .getm d => serve fun x => x.serveGetm t d
  | .upg d => serve fun x => x.serveUpg t d
  | .fwdGets o _ => s.fwdGetsAt t o k
  | .fwdGetm o _ => s.fwdGetmAt t o k
  | .inval d _ => s.invalAt t d k
  | .invAck d => s.invAckAt t d k
  | .ackCount d _ => s.ackCountAt t d k
  | .data d _ => s.dataAt t d k
  | .unblock d => s.unblockAt t d k
  | .writeBack d => s.writeBackAt t d k
  | .pute d => s.puteAt t d k
  | .wbAck d => s.wbAckAt t d k
  | .placeReq d i e => s.placeReqAt t d i e k
  | .placeGrant d => s.placeGrantAt t d k

/-- The next message of a line that acts by an instant; those that no receiver takes go first. -/
def State.cohStep (s : State) (t : Nat) (l : CohLine) : Option State :=
  if l.msgs.any fun m => !s.live l.key m then some (s.putCoh t (s.cohLine l.key))
  else l.msgs.findSome? fun m => if m.acts t then s.msgAt t l.key m.msg else none

/-- Instants at which messages that have come act. -/
def State.cohTimes (s : State) : List Nat := s.coh.flatMap fun l => l.msgs.filterMap CohLine.comesAt

/-- A die's state once its copy is no longer dirty. -/
def DieState.clean (st : DieState) : DieState :=
  match st with
  | .m => .e
  | .o => .s
  | _ => st

/-- A line that has been written back is no longer dirty: the die that held it in M holds it in E, and the one that held it in O shares it
(R289, R361, R368). -/
def CohLine.cleaned (l : CohLine) : CohLine :=
  if l.underWay then l
  else
    let x : CohLine := if l.st == .o && l.dieState l.owner == .o then { l.addSharer l.owner with st := .s, owner := 0 } else l
    { x with dies := x.dies.map fun y => { y with st := y.st.clean } }

/-- A home slice frees the tag of a directory entry by one of its eviction entries, and waits where both are in use (R361, R366): every die's copy
is invalidated, the owner's data are written back, and a die that was evicting the line finds it gone. -/
def State.freeTag (s : State) (k : LineKey) : State :=
  let x := s.cohLine k
  let home := s.lineHome k.asid (k.line * 128)
  if x.underWay || (s.entryBusy home (s.homeSlice k) 0 && s.entryBusy home (s.homeSlice k) 1) then s
  else
    let s := x.dies.foldl (fun s y => s.recallWords y.die k) s
    let s := match s.line? k with
      | some l => s.writeBackLine false l
      | none => s
    (s.putCoh s.instant { x with st := .i, owner := 0, sharers := 0, dies := x.dies.filterMap DieLine.taken }).tidyLine k

end Sys2Proof.Machine
end

