-- ==== Sys2Proof/Machine/Control.lean ====
section
/-! DEFINITION. Branches, jumps, calls and the hardware loop: majors 0x0F to 0x17 (R165 to R171). -/

namespace Sys2Proof.Machine

/-- A branch: a taken one makes no end check (R165, R170). -/
def branch (cond : Word → Word → Bool) (a b : Reg) (off : Word) (s : State) : Out :=
  s.withRegs [a, b] [] <|
    if cond (s.hart.S a) (s.hart.S b) then .next (s.mapHart fun h => h.goTo (h.pc + off)) else s.finish

/-- `beq` (R165). -/
def execBeq (a b : Reg) (off : Word) (s : State) : Out := branch (fun x y => x == y) a b off s

/-- `bne` (R165). -/
def execBne (a b : Reg) (off : Word) (s : State) : Out := branch (fun x y => x != y) a b off s

/-- `blt` (R165). -/
def execBlt (a b : Reg) (off : Word) (s : State) : Out := branch (fun x y => x.toInt < y.toInt) a b off s

/-- `bge` (R165). -/
def execBge (a b : Reg) (off : Word) (s : State) : Out := branch (fun x y => y.toInt ≤ x.toInt) a b off s

/-- `bltn` (R165). -/
def execBltn (a b : Reg) (off : Word) (s : State) : Out := branch (fun x y => x.toNat < y.toNat) a b off s

/-- `bgen` (R165). -/
def execBgen (a b : Reg) (off : Word) (s : State) : Out := branch (fun x y => y.toNat ≤ x.toNat) a b off s

/-- `call`, and `jmp` with d = 0 (R166). -/
def execCall (d : Reg) (off : Word) (s : State) : Out :=
  s.withRegs [d] [] (.next (s.mapHart fun h => (h.setS d h.npc).goTo (h.pc + off)))

/-- `calli`, `jmpi` and `ret` (R167): the target is read before the link is written; a misaligned one traps. -/
def execCalli (d a : Reg) (s : State) : Out :=
  s.withRegs [d, a] [] <|
    let target := s.hart.S a
    if target.toNat % 4 != 0 then s.trap .misaligned target
    else .next (s.mapHart fun h => (h.setS d h.npc).goTo target)

/-- `loop` (R169): it makes no end check of its own. -/
def execLoop (a : Reg) (off : Word) (s : State) : Out :=
  s.withRegs [a] [] <|
    let h := s.hart
    let past := h.pc + off
    let h' := { h with lsta := h.npc, lend := setField (addrOf past) 0 2 h.level.code, pcnt := none, psta := none, pend := none,
                       lcnt := h.S a }
    .next (s.setHart (h'.goTo (if h.S a = 0 then past else h.npc)))

end Sys2Proof.Machine
end

