-- ==== Sys2Proof/Machine/Local.lean ====
section
/-! DEFINITION. LOCAL, barrier objects and full/empty words of a cell (R40, R101 to R103, R113 to R116, R249). -/

namespace Sys2Proof.Machine

/-- Bytes of LOCAL (R40). -/
def Cell.localSize (c : Cell) : Nat := 4096 * c.count 3

def Cell.lread (c : Cell) (a n : Nat) : List Byte := c.loc.read a n

/-- Sideband byte of the granule at a LOCAL offset. -/
def Cell.lsb (c : Cell) (a : Nat) : Byte := c.locSb.byte (a / 32)

def Cell.lword (c : Cell) (a : Nat) : Word := BitVec.ofNat 64 (leNat (c.lread a 8))

/-- The object and the phase a hart in `bwait` waits for (R249). -/
def Hart.awaits (h : Hart) : Option (Nat × Bool) :=
  match h.st, h.winstr with
  | .wait .barrier, some (.bwait _ _ a b) => if h.woken then none else some ((h.S a).toNat, (h.S b).getLsbD 0)
  | _, _ => none

/-- Phase of the object at an offset (R113). -/
def Cell.phase (c : Cell) (o : Nat) : Bool := (c.lword (o + 8)).getLsbD 0

/-- Bits of an object's second word that are not reserved; the device writes zero to the others (R10, R113). -/
def objMask : Word := 0xFFFFFFFF0001

/-- The waiters field of an object with one bit set or cleared (R113). -/
def Cell.setWaiter (c : Cell) (o : Nat) (k : Slot) (b : Bool) : Cell :=
  let w := c.lword (o + 8)
  { c with loc := c.loc.write (o + 8) (leBytes 8 (setField w (32 + k.val) 1 (if b then 1 else 0) &&& objMask).toNat) }

/-- Waiters of the objects in a written range are re-tested: those whose phase now matches leave WAIT, the rest keep their bits (R249). -/
def Cell.retest (c : Cell) (a n : Nat) : Cell :=
  (List.finRange 16).foldl (fun c k =>
    match (c.hart k).awaits with
    | none => c
    | some (o, p) =>
      if o < a + n && a < o + 16 then
        if c.phase o == p then (c.setHart k { c.hart k with woken := true }).setWaiter o k false
        else c.setWaiter o k true
      else c) c

/-- Data bytes written in LOCAL; the sideband stays (R32). -/
def Cell.lwrite (c : Cell) (a : Nat) (bs : List Byte) : Cell :=
  Cell.retest { c with loc := c.loc.write a bs } a bs.length

/-- Whole granules written with their sideband bytes (R32); they are free of error then. -/
def Cell.lwriteSb (c : Cell) (a : Nat) (bs sb : List Byte) : Cell :=
  Cell.lwrite { c with locSb := c.locSb.write (a / 32) sb,
                       locBad := c.locBad.filter fun g => g < a / 32 || a / 32 + sb.length ≤ g } a bs

/-- An engine's access to a range of LOCAL meets an uncorrectable error (R115, R230). -/
def Cell.localError (c : Cell) (a n : Nat) : Bool := c.locBad.any fun g => a / 32 ≤ g && g * 32 < a + n

/-! ## Barrier objects (R113, R114) -/

/-- The 16 bytes at the offset lie inside LOCAL. -/
def Cell.objOk (c : Cell) (o : Nat) : Bool := o + 16 ≤ c.localSize

/-- settle of R114, on the object's two words. -/
def settleWords (w0 w1 : Word) : Word × Word :=
  let e := fieldOf w0 0 32
  let r := fieldOf w0 32 32
  if e != 0 && e ≤ r then
    (setField (setField w0 32 32 (r - e)) 0 32 0, setField (setField w1 0 1 (1 - fieldOf w1 0 1)) 32 16 0)
  else (w0, w1)

/-- expect of R114, on the object's words. -/
def expectWords (n : Nat) (w0 w1 : Word) : Word × Word :=
  settleWords (setField w0 0 32 (Nat.min (fieldOf w0 0 32 + n) 0xFFFFFFFF)) w1

/-- credit of R114, on the object's words. -/
def creditWords (n : Nat) (bad : Bool) (w0 w1 : Word) : Word × Word :=
  settleWords (setField w0 32 32 (Nat.min (fieldOf w0 32 32 + n) 0xFFFFFFFF))
    (if bad then setField w1 16 16 (Nat.min (fieldOf w1 16 16 + 1) 0xFFFF) else w1)

/-- One indivisible step on an object; one whose offset has been discarded takes nothing (R46). -/
def Cell.objStep (c : Cell) (o : Nat) (f : Word → Word → Word × Word) : Cell :=
  if c.objOk o then
    let r := f (c.lword o) (c.lword (o + 8))
    c.lwrite o (leBytes 8 r.1.toNat ++ leBytes 8 (r.2 &&& objMask).toNat)
  else c

def Cell.expect (c : Cell) (o n : Nat) : Cell := c.objStep o (expectWords n)
def Cell.credit (c : Cell) (o n : Nat) (bad : Bool) : Cell := c.objStep o (creditWords n bad)

/-! ## Full/empty words (R103, R116) -/

/-- The state bit of the word at an offset. -/
def Cell.full (c : Cell) (a : Nat) : Bool := (c.lsb a).getLsbD (a % 32 / 8)

/-- The state bit set; a change writes bits [7:4] of the sideband byte as zero (R103). -/
def Cell.setFull (c : Cell) (a : Nat) (b : Bool) : Cell :=
  if c.full a == b then c
  else
    let old := (c.lsb a).toNat % 16
    let bit := 2 ^ (a % 32 / 8)
    { c with locSb := c.locSb.put (a / 32) (BitVec.ofNat 8 (if b then old + bit else old - bit)) }

/-! ## Checks (R185, R186) -/

/-- A LOCAL access: alignment, then the size check; both are precise traps in every task class (R191). -/
def State.withLocal (s : State) (a : Word) (align n : Nat) (k : Nat → Out) : Out :=
  if a.toNat % align != 0 then s.trap .misaligned a
  else if s.cell.localSize < a.toNat + n then s.trap .access a
  else k a.toNat

/-- The focused cell changed. -/
def State.mapCell (s : State) (f : Cell → Cell) : State := { s with cell := f s.cell }

end Sys2Proof.Machine
end

