-- ==== Sys2Proof/Machine/Faults.lean ====
section
/-! DEFINITION. Page faults: fault units, and what a failed global access does to a hart (R66, R350 to R354, R372). -/

namespace Sys2Proof.Machine

/-- The fault unit of a die; one never used holds its resets (R352). -/
def State.unit (s : State) (d : Nat) : FaultUnit :=
  (s.mem.units.find? fun u => u.die == d).getD ⟨d, [], false, false, 0⟩

def State.putUnit (s : State) (u : FaultUnit) : State :=
  { s with mem := { s.mem with units := u :: s.mem.units.filter fun v => v.die != u.die } }

/-- The notice of a fault unit, where its irq bit asks for it (R352, R391). -/
def State.faultNotice (s : State) (u : FaultUnit) : State := if u.irq then s.notice 5 0 else s

/-- The number of the first entry a fault unit has free. -/
def FaultUnit.free (u : FaultUnit) : Option Nat := (List.range 16).find? fun e => !(u.recs.any fun r => r.1 == e)

/-- The record counts one more access (R350, R351). -/
def FaultRec.again (r : FaultRec) (wr prec park : Bool) : FaultRec :=
  { r with count := Nat.min (r.count + 1) 0xFFFF, wr := r.wr || wr, prec := r.prec || prec, park := r.park || park }

/-- The record is that of a page of an ASID. -/
def FaultRec.isFor (r : FaultRec) (asid page : Nat) : Bool := r.asid == asid && r.page == page

/-- The pending-fault mark of a page shows that a die's fault unit has dropped it (R357). -/
def State.dropped (s : State) (d asid page : Nat) : Bool :=
  s.mem.marks.any fun m => m.asid == asid && m.page == page && m.dropped.contains d

def State.markDropped (s : State) (d asid page : Nat) : State :=
  { s with mem := { s.mem with marks := s.mem.marks.map fun m =>
      if m.asid == asid && m.page == page then { m with dropped := d :: m.dropped } else m } }

/-- A miss answered as a page fault has left its mark at the page's agent (R350), and reaches the requesting die's fault unit (R351, R353, R357).
Kind: 0 load, 1 store or `amo`, 2 fetch, 3 engine; whether it needed W, whether it trapped, whether its REPLAY task parks. -/
def State.recordFault (s : State) (cell : Nat) (k : Slot) (asid page kind : Nat) (wr prec park : Bool) : State :=
  let s := (s.askAgent asid page).2
  let d := dieOf cell
  let u := s.unit d
  if u.recs.any (fun r => r.2.isFor asid page) then
    s.putUnit { u with recs := u.recs.map fun r => (r.1, bif r.2.isFor asid page then r.2.again wr prec park else r.2) }
  else match u.free with
    | some e =>
      let r : FaultRec := { page := page, asid := asid, gen := s.gen asid, kind := kind, cell := cell, slot := k.val, count := 1,
                            wr := wr, prec := prec, park := park, tick := s.tbase }
      let u := { u with recs := u.recs ++ [(e, r)] }
      (s.putUnit u).faultNotice u
    | none =>
      if s.dropped d asid page then s
      else
        let u := { u with drop := true, dcnt := Nat.min (u.dcnt + 1) 0xFFFF }
        ((s.putUnit u).faultNotice u).markDropped d asid page

/-- The record of a hart's own access, by its fault-record kind: it parks a REPLAY task and traps any other. -/
def State.recordAccess (s : State) (cell : Nat) (k : Slot) (asid page kind : Nat) (park : Bool) : State :=
  s.recordFault cell k asid page kind (kind == 1) (!park) park

/-- The cell and slot under which the record of a miss stands that an engine makes which serves no hart in particular: the first cell of its die,
slot 0; nothing traps or parks for it (R350, R351, LOG 46). -/
def engineAt (die : Nat) : Nat × Slot := (cellNo (die % 6 * 128) (die / 6 * 96), 0)

/-- The fault-record kind of an access (R351). -/
def Need.kind : Need → Nat
  | .load => 0 | .store => 1 | .amo => 1 | .fetch => 2

/-- A REPLAY task runs on the hart. -/
def Hart.replay (h : Hart) : Bool := (h.task.map (·.replay)).getD false

/-- What a failed global access does to the hart that made it (R66): a cause, and the address it is reported for. -/
def Hart.failAccess (h : Hart) (c : Cause) (addr : Nat) : Option EndKind :=
  if h.replay then
    match c with
    | .page => some (.parkOn (addr / 65536))
    | .lost => some (.failed 0x26 0)
    | .uncorrectable => some (.failed 0x22 0)
    | _ => some (.failed 0x21 0)
  else none

/-- A failed global access in the issuing hart's slot: the REPLAY attempt ends, and any other hart traps (R66, R186). -/
def State.failGlobal (s : State) (c : Cause) (addr : Nat) : Out :=
  match s.hart.failAccess c addr with
  | some e => .next (s.mapHart fun h => h.endTask e)
  | none => s.trap c (BitVec.ofNat 64 addr)

/-- A page fault of the issuing hart: its die records it, but for a Headstock hart, for which the agent's mark alone is set (R350), and the
hart's access fails. -/
def State.pageFault (s : State) (n : Need) (addr : Nat) : Out :=
  let s := match s.cur with
    | .core _ => (s.askAgent s.asid (addr / 65536)).2
    | .cell c => s.recordAccess c s.cell.slot s.asid (addr / 65536) n.kind s.hart.replay
  s.failGlobal .page addr

/-- An answer other than a place, taken by the issuing hart; a parked miss keeps the hart waiting (R346). -/
def State.answerFails {α : Type} (s : State) (n : Need) (addr : Nat) (x : Answer α) : Out :=
  match x with
  | .page _ _ => s.pageFault n addr
  | .lost => s.failGlobal .lost addr
  | .bad => s.failGlobal .uncorrectable addr
  | .wait => .next s
  | _ => s.failGlobal .access addr

/-! ## Fault service (R354) -/

/-- Map-done on a die's fault unit (R354). -/
def State.mapDone (s : State) (d e : Nat) : State :=
  let u := s.unit d
  s.putUnit { u with recs := u.recs.filter fun r => r.1 != e }

/-- MAP_DONE: an entry of a die's fault unit is freed (R354). -/
def execMapDone (die e : Nat) (s : State) : Out := .next (s.mapDone die e)

/-- PAGE_FAULT: a miss of hart `k` of cell `c` to the page of `va` meets an invalid entry: the agent's mark and the die's record
(R350, R351, R353). A page whose walk does not end so takes nothing. -/
def execPageFault (c : Nat) (k : Slot) (va kind : Nat) (park : Bool) (s : State) : Out :=
  let asid := ((s.launchOf (s.cellAt c)).map (·.asid)).getD 0
  match s.askAgent asid (va / 65536) with
  | (.page _ _, t) => .next (t.recordAccess c k asid (va / 65536) kind park)
  | _ => .next s

end Sys2Proof.Machine
end

