-- ==== Sys2Proof/Machine/Engine.lean ====
section
/-! DEFINITION. Accesses made for a hart or by an engine, line by line; sites in global memory; page-table stores (R91, R109, R341 to R347). -/

namespace Sys2Proof.Machine

/-- Bytes of a HOME=POOL page (R91). DESIGN CHOICE (LOG 46): while the field's team is swapped out no cell holds the site, and a load of it is answered
at once with the value held at the swap-out. -/
def State.readSites (s : State) (asid va n : Nat) : Answer (List Byte) :=
  match s.fieldAt asid va with
  | none => .denied
  | some f => .ok ((List.range n).map fun i => f.siteByte (va + i - f.base))

/-! ## Page-table lines (R341, R342) -/

/-- The level of a table line in an agent's entry. -/
def AgentEntry.level (e : AgentEntry) (line : Nat) : Nat :=
  if e.ptLines.getD 0 0 == line && 1 ≤ e.ptLines.length then 3
  else if e.ptLines.getD 1 0 == line && 2 ≤ e.ptLines.length then 2
  else 1

/-- Some agent is registered on a page-table line (R341). -/
def State.registered (s : State) (line : Nat) : Bool := s.mem.ptRegs.any fun r => r.line == line

/-- The ranges that a store to entry `i` of a table line retracts: ASID, first page, page count (R344). -/
def State.rangesOf (s : State) (line i : Nat) : List (Nat × Nat × Nat) :=
  ((s.mem.ptRegs.filter fun r => r.line == line).map fun r => (r.asid, r.first + i * entryPages r.level, entryPages r.level)).dedup

/-- The ranges that a store of `n` bytes at a physical address retracts. -/
def State.rangesAt (s : State) (pa n : Nat) : List (Nat × Nat × Nat) :=
  (List.range ((pa % 8 + n + 7) / 8)).flatMap fun j => s.rangesOf (pa / 128) (pa % 128 / 8 + j)

/-- The page-table entries a walk reads, by physical address, as far as it comes (R338). -/
def State.walkEntries (s : State) (asid page : Nat) : List Nat :=
  let down (e : Nat) (k : Word → List Nat) : List Nat :=
    e :: (match s.ptWord e with
      | .ok w => if pteV w && pteTable w then k w else []
      | _ => [])
  match s.root asid with
  | .ok root =>
    down (root + 8 * (page / 2 ^ 26 % 8192)) fun w3 => down (ptePa w3 + 8 * (page / 2 ^ 13 % 8192)) fun w2 =>
      down (ptePa w2 + 8 * (page % 8192)) fun _ => []
  | _ => []

/-- The ranges of an entry, no agent being registered on its line, in which lines lie that a die or a CACHE holds: they can outlive their
translation, and a RETRACT drains them all the same (R309, R344). -/
def State.rangesKept (s : State) (pa : Nat) : List (Nat × Nat × Nat) :=
  let keys := (s.mem.lines.map (·.key) ++ s.mem.wbPark.map (·.line.key) ++ s.cells.flatMap fun c => c.cache.map (·.key)).map fun k =>
    (k.asid, k.line / 512)
  (keys.dedup.filterMap fun p => ((s.walkEntries p.1 p.2).idxOf? (pa / 8 * 8)).map fun i =>
    (p.1, p.2 / entryPages (3 - i) * entryPages (3 - i), entryPages (3 - i))).dedup

/-- A store reaches a table line: the registrations on it end, and every agent drops what it derives from it (R341, R350). -/
def State.dropDerived (s : State) (line : Nat) : State :=
  { s with mem := { s.mem with agents := s.mem.agents.filter fun e => !e.ptLines.contains line,
                               marks := s.mem.marks.filter fun m => m.ptLine != line,
                               ptRegs := s.mem.ptRegs.filter fun r => r.line != line } }

/-- A store to a page-table entry reaches its line of window A, which its home die has taken for it. -/
def State.putTable (s : State) (pa : Nat) (bs : List Byte) : State :=
  match s.window false .s .store (windowA pa) with
  | (.ok (.line l), t) => t.storeLine none l.key (pa % 128) bs []
  | (_, t) => t

/-- The line's pages are in a range. -/
def inRange (d : Nat × Nat × Nat) (k : LineKey) : Bool :=
  k.asid == d.1 && d.2.1 ≤ k.line / 512 && k.line / 512 < d.2.1 + d.2.2

/-- The write-backs parked for the lines a condition picks reach the old page, in order (R344, R345). -/
def State.drainParked (s : State) (p : LineKey → Bool) : State :=
  let t := s.mem.wbPark.foldl (fun t w =>
    if p w.line.key then (match s.wbTarget w.line with
      | some (pa, _) => t.putPhysLine w.line.kept pa w.line.data w.line.sb
      | none => t) else t) s
  { t with mem := { t.mem with wbPark := s.mem.wbPark.filter fun w => !p w.line.key } }

/-- The drain of a RETRACT and its store (R344): write-backs under the old translation, held or not, copies dropped, entries dropped. -/
def State.performRetract (s : State) (p : PtStore) : State :=
  let cond := fun k => p.drain.any fun d => inRange d k
  let s := ((s.drainParked cond).cleanLines true cond).dropCopies cond
  (s.dropDerived (p.pa / 128)).putTable p.pa p.bytes

/-- The entry a page-table store names is marked held, or replaced (R346, R347). -/
def State.renewEntries (s : State) (p : PtStore) : State :=
  let w : Word := BitVec.ofNat 64 (leNat p.bytes)
  let i := p.pa % 128 / 8
  { s with mem := { s.mem with
      agents := s.mem.agents.map fun e =>
        if e.level (p.pa / 128) == 1 && e.ptLines.contains (p.pa / 128) && e.page % 16 == i then
          { e with leaf := w, pa := ptePa w, held := pteH w }
        else e,
      marks := s.mem.marks.filter fun m => m.ptLine != p.pa / 128 } }

/-- The physical address that a parked write-back goes to, once its page is no longer held and the stack there answers (R347, R419). -/
def State.parkTarget (s : State) (w : ParkedWb) : Option Nat :=
  (s.wbTarget w.line).bind fun p => if p.2 || s.refreshing (dieOfPa p.1) then none else some p.1

/-- The write-backs parked for pages that are no longer held, or for a stack that answers again, are released, in order (R347, R419). -/
def State.releaseParked (s : State) : State :=
  let t := s.mem.wbPark.foldl (fun t w =>
    match s.parkTarget w with
    | some pa => t.putPhysLine w.line.kept pa w.line.data w.line.sb
    | none => t) s
  { t with mem := { t.mem with wbPark := s.mem.wbPark.filter fun w => (s.parkTarget w).isNone } }

/-- A write-back that a RETRACT drains waits for a stack in self-refresh (R344, R419). -/
def State.drainStalled (s : State) (p : PtStore) : Bool :=
  (s.mem.wbPark.map (·.line) ++ s.mem.lines.filter fun l => l.dirty).any fun l => p.drain.any (fun d => inRange d l.key) &&
    ((s.wbTarget l).map fun t => s.refreshing (dieOfPa t.1)).getD false

/-- The line serves PT1 entries of an agent registered on it. -/
def State.isPt1 (s : State) (line : Nat) : Bool :=
  s.mem.ptRegs.any fun r => r.line == line && r.level == 1

/-- The kind a store is performed as (R342): 0 GRANT, 1 RETRACT, 2 HOLD, 3 MOVE. -/
def ptKind (kind : Nat) (pt1 : Bool) (old new : Word) : Nat :=
  let rights : Word := 0x3C
  let hold : Word := 0x400
  let fits := match kind with
    | 0 => !pteV old || ((old &&& ~~~ rights) == (new &&& ~~~ rights) && (old &&& ~~~ new &&& rights) == 0)
    | 2 => pt1 && pteV old && pteLeaf old false && !pteH old && new == (old ||| hold)
    | 3 => pt1 && pteV old && pteLeaf old false && pteH old && !pteH new &&
        (new &&& ~~~ (paMask ||| hold)) == (old &&& ~~~ (paMask ||| hold))
    | _ => true
  if fits then kind else 1

/-- The kind a page-table store is performed as, by what its line holds now, and the ranges that it drains as a RETRACT: those of the agents registered
on the line, and those in which copies outlive their translation (R309, R342, R344, LOG 41). -/
def State.ptPlan (s : State) (p : PtStore) : Nat × List (Nat × Nat × Nat) :=
  let line := p.pa / 128
  let old := match s.ptWord (p.pa / 8 * 8) with
    | .ok w => w
    | _ => 0
  let k := ptKind p.kind (!s.registered line || s.isPt1 line) old (BitVec.ofNat 64 (leNat p.bytes))
  (k, if k = 1 then (s.rangesAt p.pa p.bytes.length ++ s.rangesKept p.pa).dedup else [])

/-- Ticks that the slices' walk of their tags takes: 8,192 fabric cycles of the slowest die. -/
def State.scrubTicks (s : State) : Nat :=
  (List.range 54).foldl (fun a d => if s.failed d then a else max a ((8192 * 40 + s.mnow d 768 - 1) / s.mnow d 768)) 0

/-- A range of an entry above PT1: every tag of the die set is walked for it (R344). -/
def longRange (d : Nat × Nat × Nat) : Bool := d.2.2 != 1

/-- A page-table store is performed at its line's home as its kind directs (R342 to R347), once the line is under no other transaction; a drain of a range
above PT1 that has not begun yet begins (LOG 41). -/
def State.performPt (s : State) (p : PtStore) : Option State :=
  let plan := s.ptPlan p
  let q := { p with drain := plan.2 }
  if q.drain.any fun d => longRange d && !p.drain.contains d then
    some { s with mem := { s.mem with ptStores := s.mem.ptStores.map fun x => if x == p then { q with began := s.tbase } else x } }
  else if plan.1 = 1 && s.drainStalled q then none
  else (s.cohWrite (dieOfPa p.pa) (windowKey p.pa)).map fun s =>
    let s := { s with mem := { s.mem with ptStores := s.mem.ptStores.filter fun x => x != p } }
    match plan.1 with
    | 0 => (s.dropDerived (p.pa / 128)).putTable p.pa p.bytes
    | 1 => s.performRetract q
    | 2 => (s.renewEntries p).putTable p.pa p.bytes
    | _ => ((s.renewEntries p).putTable p.pa p.bytes).releaseParked

/-- A store of a party that waits for it is sent to its line's home slice; a drain of what is known then begins (R344). -/
def State.sendPt (s : State) (kind : Nat) (owner : Nat) (pa : Nat) (bs : List Byte) : State :=
  let p : PtStore := { kind := kind, pa := pa, bytes := bs, drain := [], owner := some owner, began := s.tbase }
  { s with mem := { s.mem with ptStores := s.mem.ptStores ++ [{ p with drain := (s.ptPlan p).2 }] } }

/-! ## Stores and loads at their places -/

/-- Who makes an access: a party of a cell, or a Headstock hart or an engine, of a die (R109, R390). -/
inductive Party where
  | cell (n : Nat)
  | engine (die : Nat)
  deriving DecidableEq, Repr

def Party.die (p : Party) : Nat :=
  match p with
  | .cell n => dieOf n
  | .engine d => d

/-- The cell that its stores register words to. -/
def Party.cell? (p : Party) : Option Nat :=
  match p with
  | .cell n => some n
  | .engine _ => none

/-- A store of an ASID at an address goes into a page-table line: a line of window A on which an agent is registered (R342). -/
def State.tableStore (s : State) (asid va : Nat) : Bool := asid = 0 && 2 ^ 54 ≤ va && va < 2 ^ 54 + 2 ^ 52 && s.registered (va % 2 ^ 52 / 128)

/-- A store into a page-table line that is not a hart's plain store is performed with the drain of a RETRACT at once (R342, LOG 41); `none` where the
line, or the drain, has to wait. -/
def State.storeTable (s : State) (die pa : Nat) (bs : List Byte) : Option State :=
  let p : PtStore := { kind := 1, pa := pa, bytes := bs, drain := [], owner := none, began := s.tbase }
  let q := { p with drain := (s.ptPlan p).2 }
  if s.drainStalled q then none else (s.cohWrite die (windowKey pa)).map fun t => t.performRetract q

/-- A store performed where it is performed: its words are registered to the party's cell in a CACHE line of its own (R189, R359). `none` while another
transaction, or the die's own eviction, keeps the line. -/
def State.storeFor (s : State) (who : Party) (p : Place) (va : Nat) (bs sb : List Byte) : Option State :=
  match p with
  | .line l =>
    let pa := va % 2 ^ 52
    if s.tableStore l.key.asid va then s.storeTable who.die pa bs
    else (s.cohWrite who.die l.key).map fun t =>
      (t.register who.cell? l.key (wordMask (va % 128) bs.length)).storeLine who.cell? l.key (va % 128) bs sb
  | .mem pa kept => some (s.storeMem pa kept bs (if kept then sb else []))
  | _ => some s

/-- Bytes at a place that is no device register. -/
def State.loadPlace (s : State) (asid : Nat) (p : Place) (va n : Nat) : Answer (List Byte × List Byte) :=
  match p with
  | .pool => (s.readSites asid va n).bind fun bs => .ok (bs, zeros ((va % 32 + n + 31) / 32))
  | .device _ => .denied
  | _ => .ok (s.readPlace p va n)

/-- A read by an engine or an agent of the memory side of a die, inside one line (R109); it waits while the line is under another transaction
(R363). -/
def State.readPiece (s : State) (die asid : Nat) (lv : Level) (va n : Nat) : Answer (List Byte × List Byte) × State :=
  match s.locate false asid lv .load va with
  | (.ok (.line l), t) => match t.cohRead die l.key with
    | some u => (.ok (u.readPlace (.line l) va n), u)
    | none => (.wait, t)
  | (.ok p, t) => (t.loadPlace asid p va n, t)
  | (.page l k, t) => (.page l k, t)
  | (.denied, t) => (.denied, t)
  | (.lost, t) => (.lost, t)
  | (.bad, t) => (.bad, t)
  | (.wait, t) => (.wait, t)

/-- A store's place, checked: sites and device registers take none (R91, R337). -/
def State.storeAt (s : State) (asid : Nat) (lv : Level) (va : Nat) : Answer Place × State :=
  match s.locate false asid lv .store va with
  | (.ok .pool, t) => (.denied, t)
  | (.ok (.device _), t) => (.denied, t)
  | r => r

/-- A write by a party inside one line (R109); it waits while the line is under another transaction. -/
def State.writePiece (s : State) (who : Party) (asid : Nat) (lv : Level) (va : Nat) (bs sb : List Byte) : Answer Unit × State :=
  match s.storeAt asid lv va with
  | (.ok p, t) => match t.storeFor who p va bs sb with
    | some u => (.ok (), u)
    | none => (.wait, t)
  | (.page l k, t) => (.page l k, t)
  | (.denied, t) => (.denied, t)
  | (.lost, t) => (.lost, t)
  | (.bad, t) => (.bad, t)
  | (.wait, t) => (.wait, t)

/-- The pieces of a range, cut at line boundaries: address and bytes. -/
def pieces : Nat → Nat → Nat → List (Nat × Nat)
  | 0, _, _ => []
  | fuel + 1, va, n =>
    if n = 0 then []
    else
      let m := Nat.min n (128 - va % 128)
      (va, m) :: pieces fuel (va + m) (n - m)

/-- The pieces of `n` bytes. -/
def linePieces (va n : Nat) : List (Nat × Nat) := pieces (n / 128 + 2) va n

/-- A read of any length, piece by piece; the first failure answers. -/
def State.readGlobal (s : State) (die asid : Nat) (lv : Level) (va n : Nat) : Answer (List Byte) × State :=
  (linePieces va n).foldl (fun r p =>
    match r with
    | (.ok bs, t) => match t.readPiece die asid lv p.1 p.2 with
      | (.ok q, t) => (.ok (bs ++ q.1), t)
      | (.page l k, t) => (.page l k, t)
      | (.denied, t) => (.denied, t)
      | (.lost, t) => (.lost, t)
      | (.bad, t) => (.bad, t)
      | (.wait, t) => (.wait, t)
    | r => r) (.ok [], s)

/-- A write of any length, piece by piece, up to the first failure. -/
def State.writeGlobal (s : State) (who : Party) (asid : Nat) (lv : Level) (va : Nat) (bs : List Byte) : Answer Unit × State :=
  ((linePieces va bs.length).foldl (fun (r : (Answer Unit × State) × List Byte) p =>
    match r with
    | ((.ok _, t), rest) => (t.writePiece who asid lv p.1 (rest.take p.2) [], rest.drop p.2)
    | r => r) ((.ok (), s), bs)).1

/-- The page of the first piece of a range whose access meets a page fault. -/
def State.faultPage (s : State) (need : Need) (asid : Nat) (lv : Level) (va n : Nat) : Option Nat :=
  (linePieces va n).findSome? fun p => match s.locate false asid lv need p.1 with
    | (.page _ _, _) => some (p.1 / 65536)
    | _ => none

/-- A page fault that an engine has met, for a cell and a slot, is recorded (R350, R351). -/
def State.noteFault (s : State) (by_ : Nat × Slot) (need : Need) (asid : Nat) (lv : Level) (va n : Nat) : State :=
  match s.faultPage need asid lv va n with
  | some p => s.recordFault by_.1 by_.2 asid p 3 (need == .store) false false
  | none => s

/-- The answer to a write that an engine makes for itself: a page fault is recorded (R350), but for a write whose failure nothing reports (R251), and
one that faults is not made. -/
def State.writeNoted (s : State) (o : Owed) : Option State :=
  match s.writeGlobal (.engine o.die) o.asid .s o.va o.bytes with
  | (.wait, _) => none
  | (.page _ _, t) => some (if o.told then t.noteFault (engineAt o.die) .store o.asid .s o.va o.bytes.length else t)
  | (_, t) => some t

/-- A write that an engine makes for itself: where it meets a held page, or a line under another transaction, it is made later (R346, R363). -/
def State.writeOwed (s : State) (o : Owed) : State :=
  (s.writeNoted o).getD { s with mem := { s.mem with owed := s.mem.owed ++ [o] } }

/-- The first write owed that its pages take now, or refuse. -/
def State.owedStep (s : State) : Option State :=
  s.mem.owed.findSome? fun o => (s.writeNoted o).map fun t => { t with mem := { t.mem with owed := t.mem.owed.erase o } }

/-- The 64-bit words of a global range. -/
def State.readWords (s : State) (die asid : Nat) (lv : Level) (va n : Nat) : Answer (List Word) × State :=
  match s.readGlobal die asid lv va (8 * n) with
  | (.ok bs, t) => (.ok (leWords bs), t)
  | (.page l k, t) => (.page l k, t)
  | (.denied, t) => (.denied, t)
  | (.lost, t) => (.lost, t)
  | (.bad, t) => (.bad, t)
  | (.wait, t) => (.wait, t)

/-- A read by an engine for a cell and a slot, a page fault of which is recorded (R350, R351). -/
def State.engineRead (s : State) (by_ : Nat × Slot) (asid : Nat) (lv : Level) (va n : Nat) : Answer (List Byte) × State :=
  match s.readGlobal (dieOf by_.1) asid lv va n with
  | (.page l k, t) => (.page l k, t.noteFault by_ .load asid lv va n)
  | r => r

end Sys2Proof.Machine
end

