-- ==== Sys2Proof/Machine/Graph.lean ====
section
/-! DEFINITION. The graph engine: nodes, dispatch, records, spawned nodes, team barriers (R54 to R73, R251 to R253). -/

namespace Sys2Proof.Machine

/-! ## Descriptor words of a launch (R398) -/

namespace Launch

def word (l : Launch) (i : Nat) : Word := l.desc.getD i 0
def imageBase (l : Launch) : Nat := (l.word 1).toNat
def dataBase (l : Launch) : Nat := (l.word 2).toNat
def dataSize (l : Launch) : Nat := fieldOf (l.word 3) 0 32
def nodeBase (l : Launch) : Nat := (l.word 5).toNat
def capacity (l : Launch) : Nat := fieldOf (l.word 6) 0 32
def succBase (l : Launch) : Nat := (l.word 7).toNat
def profBase (l : Launch) : Nat := (l.word 8).toNat
def profCount (l : Launch) : Nat := fieldOf (l.word 9) 0 9
def textSize (l : Launch) : Nat := fieldOf (l.word 9) 16 16 * 65536
def ringCap (l : Launch) : Nat := fieldOf (l.word 9) 32 32
def spillBase (l : Launch) : Nat := (l.word 10).toNat
def ringBase (l : Launch) : Nat := (l.word 11).toNat
def floor (l : Launch) : Word := l.word 12
def quota (l : Launch) : Word := l.word 13
def start (l : Launch) : Nat := (l.word 15).toNat
def node? (l : Launch) (i : Nat) : Option Node := l.nodes.find? fun n => n.index == i

end Launch

/-! ## Fields and sweep harts of a cell (R84) -/

/-- The cell lies in the field's placement. -/
def State.placed (s : State) (f : Field) (n : Nat) : Bool :=
  match s.team? f.launch f.team with
  | none => false
  | some t =>
    let g := subgroup f.place
    t.placed && t.x0 + g.ox ≤ cellX n && cellX n < t.x0 + g.ox + 2 ^ g.lw &&
    t.y0 + g.oy ≤ cellY n && cellY n < t.y0 + g.oy + 2 ^ g.lh

/-- The cells of a field's placement, in row-major order. -/
def State.fieldCells (s : State) (f : Field) : List Nat := s.groupCells f.launch f.team f.place

/-- The field's phases go on (R83). -/
def Field.sweeps (f : Field) : Bool := f.st == .sweeping || f.st == .pausing || f.st == .stopping

/-- The field that has sites on a cell (R75). -/
def State.cellField (s : State) (n : Nat) : Option Field := s.fields.find? fun f => s.placed f n

/-- Sweep harts of a field on each cell (R76). -/
def Field.hsw (f : Field) : Nat := fieldOf (f.word 0) 56 8

/-- Hart `k` of cell `n` is a sweep hart (R84). -/
def State.sweepHart (s : State) (n : Nat) (k : Slot) : Bool :=
  match s.cellField n with
  | none => false
  | some f => (s.cellAt n).nres ≤ k.val + f.hsw && k.val < (s.cellAt n).nres

/-! ## Role minimums (R43, R50) -/

/-- Byte `r` of a profile word. -/
def profByte (w : Word) (r : Nat) : Nat := fieldOf w (8 * r) 8

/-- The base minimums of R33. -/
def baseMin (r : Nat) : Nat := if r = 1 || r = 2 || r = 6 then 1 else 0

/-- Minimum profiles that count on a cell: of each task chosen, running, or whose record is not yet written (R43). -/
def Hart.minimums (h : Hart) : List Word :=
  (h.chosen.map (·.minimum)).toList ++ (h.task.map (·.minimum)).toList ++ (h.heldRec.map (·.minimum)).toList

/-- Most local sites of a field on a cell of its placement (R80). -/
def Field.perCell (f : Field) : Nat :=
  let g := subgroup f.place
  let cells := 2 ^ g.lw * 2 ^ g.lh
  (f.n + cells - 1) / cells

/-- The placement cell, in row-major order, and the local index of a site (R80). -/
def Field.siteHome (f : Field) (i : Nat) : Nat × Nat :=
  let g := subgroup f.place
  let pw := 2 ^ g.lw
  let ph := 2 ^ g.lh
  if fieldOf (f.word 0) 34 2 = 2 then (i / f.perCell, i % f.perCell)
  else
    let X := fieldOf (f.word 1) 0 16
    let Y := fieldOf (f.word 1) 16 16
    let bx := X / pw
    let yb := Y / ph
    let x := i % X
    let y := i / X % Y
    let z := i / (X * Y)
    (y / yb * pw + x / bx, x % bx + bx * (y % yb + yb * z))

/-- Local sites on the placement cell of a row-major index (R80): on a graph the last cells hold fewer. -/
def Field.localSites (f : Field) (j : Nat) : Nat :=
  if fieldOf (f.word 0) 34 2 = 2 then min f.perCell (f.n - j * f.perCell) else f.perCell

/-- FIELD banks of the site extent of the placement cell of an index (R80). -/
def Field.extent (f : Field) (j : Nat) : Nat := (f.localSites j * f.size + 4095) / 4096

/-- FIELD banks of the site extent of a cell. -/
def State.extentOn (s : State) (f : Field) (n : Nat) : Nat := f.extent ((s.fieldCells f).idxOf n)

/-- The role minimum of a role (R43). -/
def State.roleMin (s : State) (c : Cell) (r : Nat) : Nat :=
  let m := (c.harts.toList.flatMap Hart.minimums).foldl (fun m w => max m (profByte w r)) (max (baseMin r) (profByte c.floor r))
  if r = 7 then
    match s.cellField c.no with
    | some f => max m (s.extentOn f c.no)
    | none => m
  else m

/-! ## Nodes (R60, R61) -/

def Node.word (n : Node) (i : Nat) : Word := n.words.getD i 0
def Node.entry (n : Node) : Nat := fieldOf (n.word 0) 0 32
def Node.precise (n : Node) : Bool := (n.word 0).getLsbD 32
def Node.argc (n : Node) : Nat := fieldOf (n.word 0) 33 3
def Node.tiles (n : Node) (j : Nat) : Nat := fieldOf (n.word 0) (36 + 2 * j) 2
def Node.prof (n : Node) : Nat := fieldOf (n.word 0) 48 8
def Node.team (n : Node) : Nat := fieldOf (n.word 0) 56 8

/-- 32-bit values of a byte list. -/
def leInts : List Byte → List Nat
  | b0 :: b1 :: b2 :: b3 :: r => leNat [b0, b1, b2, b3] :: leInts r
  | _ => []

/-- A check of R61 that needs the words alone. -/
def Node.shapeOk (n : Node) (l : Launch) : Bool :=
  n.argc != 7 && n.entry % 4 == 0 && n.entry < l.textSize &&
  ((List.range n.argc).all fun j =>
    !(n.tiles j == 3 && !n.precise && !(l.dataBase ≤ (n.word (2 + j)).toNat && (n.word (2 + j)).toNat < l.dataBase + l.dataSize))) &&
  n.prof < l.profCount && (n.team == 0xFF || n.team < l.teams.length)

/-- Reads what a node whose count has reached zero names, and checks it (R61): the node with its successors and minimum, `none` when malformed,
and a parked read (R346) as `wait`. Its own words have been read once (R59); one whose read failed has none. -/
def State.readNode (s : State) (l : Launch) (n : Node) : Answer (Option Node) × State :=
  let read (s : State) (va n : Nat) : Answer (List Byte) × State := s.engineRead (engineAt l.lead) l.asid .s va n
  if n.words.isEmpty then (.ok none, s)
  else match read s (l.succBase + 4 * fieldOf (n.word 1) 32 32) (4 * fieldOf (n.word 1) 16 16) with
    | (.wait, t) => (.wait, t)
    | (.ok bs, t) =>
      match read t (l.profBase + 8 * n.prof) 8 with
      | (.wait, t) => (.wait, t)
      | (.ok ps, t) =>
        let p := (leWords ps).getD 0 0
        let ss := leInts bs
        if n.shapeOk l && profByte p 0 == 0 && (ss.all fun i => i < l.capacity) then
          (.ok (some { n with succs := ss, minimum := p }), t)
        else (.ok none, t)
      | (_, t) => (.ok none, t)
    | (_, t) => (.ok none, t)

/-- A record of the engine's own, for a node it never dispatched (R61, R68). DESIGN CHOICE (LOG 46): which team applies to such a node, and
the class of one whose words could not be read, the spec does not say; team is 0xFF, and the class of unread words 0. -/
def malformedRec (l : Launch) (n : Node) : TaskRecord :=
  { node := n.index, launch := l.id, team := 0xFF, kind := 1, precise := n.precise, hart := 0, attempt := n.attempt, reason := 0x27,
    detail := 0, minimum := 0, page := none }

/-- A node of the table with its dependence count (R59, R60). -/
def nodeFrom (i : Nat) (ws : List Word) : Node :=
  { index := i, words := ws, spawned := false, deps := fieldOf (ws.getD 1 0) 0 16, st := .waiting, attempt := 0, minStage := 0, succs := [],
    minimum := 0, parent := none }

/-- How many predecessors of a node whose entry has not been read have completed. -/
def Node.unread? (n : Node) : Option Nat := match n.st with | .unread k => some k | _ => none

/-- The nodes that the engine has yet to read, or whose counts are zero and that it has not checked. -/
def Launch.unresolved (l : Launch) : List Node := l.nodes.filter fun n => n.unread?.isSome || (n.st == .waiting && n.deps == 0)

/-- The engine reads a node that lay in a held page: its count is the entry's less the predecessors completed meanwhile (R65, R346). -/
def State.readLate (s : State) (l : Launch) (n : Node) (counted : Nat) : Option State :=
  let put (s : State) (m : Node) : State := s.putLaunch (l.putNode { m with deps := m.deps - counted })
  match s.engineRead (engineAt l.lead) l.asid .s (l.nodeBase + 64 * n.index) 64 with
  | (.wait, _) => none
  | (.ok bs, t) => some (put t (nodeFrom n.index (leWords bs)))
  | (_, t) => some (put t (nodeFrom n.index []))

/-! ## Ready nodes (R63, R65) -/

/-- Places in a die's ready pool (R65). -/
def poolPlaces : Nat := 4096

/-- Rank of a ready node (R63). -/
def Node.rank (n : Node) : Option Nat :=
  match n.st with
  | .ready r _ => some r
  | _ => none

/-- The number of the node's entry in the launch's ready spill, where it stands there (R65). -/
def Node.spill (n : Node) : Option Nat :=
  match n.st with
  | .ready _ e => e
  | _ => none

/-- The node stands in the launch's ready spill. -/
def Node.spilled (n : Node) : Bool := n.spill.isSome

/-- Where an entry of the ready spill lies (R59). -/
def Launch.spillAt (l : Launch) (e : Nat) : Nat := l.spillBase + 4 * (e % l.capacity)

/-- Nodes in the ready pool of a lead die. -/
def State.poolUsed (s : State) (lead : Nat) : Nat :=
  ((s.launches.filter fun l => l.lead == lead).flatMap (·.nodes)).countP fun n => n.rank.isSome && !n.spilled

/-- The node becomes ready now: in its lead die's ready pool, or, while that is full, at the end of the launch's ready spill (R65). -/
def State.readyNode (s : State) (l : Launch) (n : Node) : State :=
  if s.poolUsed l.lead < poolPlaces then s.putLaunch (l.putNode { n with st := .ready s.now none })
  else
    (s.putLaunch { l.putNode { n with st := .ready s.now (some l.spills) } with spills := l.spills + 1 }).writeOwed
      ⟨l.lead, l.asid, l.spillAt l.spills, leBytes 4 n.index, true⟩

/-- The engine checks a node whose count has reached zero: it becomes ready, or is recorded failed (R61, R65). -/
def State.resolve (s : State) (l : Launch) (n : Node) : Option State :=
  match n.unread? with
  | some k => s.readLate l n k
  | none =>
    match s.readNode l n with
    | (.ok (some m), t) => some (t.readyNode l m)
    | (.ok none, t) => some (t.putLaunch { l.putNode { n with st := .done } with heldRecs := l.heldRecs ++ [malformedRec l n] })
    | _ => none

/-- A node's count falls by one (R65); a spawned node waits for its spawning task alone (R251). -/
def Launch.countDown (l : Launch) (i : Nat) : Launch :=
  match l.node? i with
  | some n =>
    match n.st with
    | .unread k => l.putNode { n with st := .unread (k + 1) }
    | _ => if 0 < n.deps && n.parent.isNone then l.putNode { n with deps := n.deps - 1 } else l
  | none => l

/-! ## Dispatch (R52, R63, R64) -/

/-- The cell's current profile word (R50). -/
def Cell.profile (c : Cell) : Word :=
  (List.range 8).foldl (fun w r => setField w (8 * r) 8 (c.count r)) 0

/-- A cell fits a node's minimum profile and STAGE minimum (R52, R67). -/
def Cell.fits (c : Cell) (n : Node) : Bool :=
  ((List.range 8).all fun r => r == 0 || profByte n.minimum r ≤ c.count r) && n.minStage ≤ c.count 6

/-- The hart may take a node (R64). -/
def Hart.eligible (h : Hart) : Bool :=
  h.st == .park false && !h.paused && !h.stopped && 9 ≤ h.scnt && h.heldRec.isNone && h.chosen.isNone && h.task.isNone

/-- The lowest eligible slot of a cell; a sweep hart is never eligible (R64, R84). -/
def State.eligibleSlot (s : State) (c : Cell) : Option Slot :=
  (List.finRange 16).find? fun k => (c.hart k).eligible && !s.sweepHart c.no k

/-- The team takes nodes: it is placed and no swap of it is under way (R74). -/
def Team.takes (t : Team) : Bool := t.placed && t.swap.isNone

/-- The cells that fit a ready node (R63). -/
def State.fitting (s : State) (l : Launch) (n : Node) : List (Nat × Nat) :=
  (l.teams.filter fun t => t.takes && (n.team == 0xFF || n.team == t.no)).flatMap fun t =>
    (rectCells t.x0 t.y0 (2 ^ l.lw) (2 ^ l.lh)).filterMap fun i =>
      let c := s.cellAt i
      if c.fits n && (s.eligibleSlot c).isSome then some (t.no, i) else none

/-- The home die of the line at an address (R107); that of a site is the die of the cell that holds it. -/
def State.homeDie (s : State) (asid va : Nat) : Nat :=
  match s.leafOf asid (va / 65536), s.fieldAt asid va with
  | some (w, _), some f =>
    if pteHome w == 3 then
      dieOf ((s.groupCells f.launch f.team f.place).getD (f.siteHome ((va - f.base) / f.size)).1 0)
    else s.lineHome asid va
  | _, _ => s.lineHome asid va

/-- The best of a list under an order, the first where equal. -/
def best {α : Type} (better : α → α → Bool) : List α → Option α
  | [] => none
  | x :: xs => some (xs.foldl (fun a b => if better b a then b else a) x)

/-- Cells in number order from the rotating pointer on (R63). -/
def pointerKey (p i : Nat) : Nat := (i + 663552 - p) % 663552

/-- The cell a node goes to among those that fit (R63). -/
def State.chooseCell (s : State) (l : Launch) (n : Node) (cs : List (Nat × Nat)) : Option (Nat × Nat) :=
  let home := ((List.range n.argc).find? fun j => n.tiles j != 0).map fun j => s.homeDie l.asid (n.word (2 + j)).toNat
  let near := match home with
    | none => cs
    | some d =>
      let m := (cs.map fun c => hops (dieOf c.2) d).foldl Nat.min 1000
      cs.filter fun c => hops (dieOf c.2) d == m
  best (fun a b => pointerKey l.pointer a.2 < pointerKey l.pointer b.2) near

/-- Ready node `a`, of rank `a.1`, is taken before ready node `b` (R63). -/
def rankedBefore (a b : Nat × Node) : Bool := a.1 < b.1 || (a.1 == b.1 && a.2.index < b.2.index)

/-- The ready node a launch is served with, and its cell (R63). DESIGN CHOICE (LOG 23): a node that waits in the ready spill is compared and dispatched
from what the engine holds of it; its entry is read as it comes into the die's pool. -/
def State.candidate (s : State) (l : Launch) : Option (Node × Nat × Nat) :=
  let rs := l.nodes.filterMap fun n => n.rank.map fun r => (r, n)
  let fit := rs.filterMap fun p => (s.chooseCell l p.2 (s.fitting l p.2)).map fun c => (p.1, p.2, c)
  (best (fun a b => rankedBefore (a.1, a.2.1) (b.1, b.2.1)) fit).map fun p => (p.2.1, p.2.2)

/-- The node that an entry of the ready spill names, read from memory (R59). DESIGN CHOICE (LOG 46): where the entry cannot be read, or names no node
of the spill, the engine takes the node that it appended there. -/
def Launch.namedNode (l : Launch) (n : Node) (a : Answer (List Byte)) : Node :=
  match a with
  | .ok bs => match l.node? (leNat bs) with
    | some m => if m.spilled then m else n
    | none => n
  | _ => n

/-- A place of a die's ready pool is free: the first node of the ready spills enters it, its entry read (R59, R65); one in a held page waits. -/
def State.refill (s : State) (lead : Nat) : Option State :=
  if poolPlaces ≤ s.poolUsed lead then none
  else
    let spilled := (s.launches.filter fun l => l.lead == lead).flatMap fun l =>
      l.nodes.filterMap fun n => n.spill.bind fun e => n.rank.map fun r => (l, e, r, n)
    (best (fun a b => rankedBefore a.2.2 b.2.2) spilled).bind fun p =>
      match s.engineRead (engineAt lead) p.1.asid .s (p.1.spillAt p.2.1) 4 with
      | (.wait, _) => none
      | (a, t) =>
        let n := p.1.namedNode p.2.2.2 a
        some (t.putLaunch (p.1.putNode { n with st := .ready (n.rank.getD 0) none }))

/-- Launch `a` is served before launch `b` (R63). -/
def servedBefore (last : Nat) (a b : Launch) : Bool :=
  let ord (l : Launch) : Nat := (l.id + 65535 - last) % 65536
  if (a.age == 255) != (b.age == 255) then a.age == 255
  else if a.prio != b.prio then b.prio < a.prio
  else if a.age != b.age then b.age < a.age
  else ord a < ord b

/-- The launches of a lead die that have a ready node a cell could take. -/
def State.servable (s : State) (lead : Nat) : List (Launch × Node × Nat × Nat) :=
  (s.launches.filter fun l => l.lead == lead && !l.gangWait).filterMap fun l => (s.candidate l).map fun c => (l, c)

/-- The minimum profile that a dispatched node holds its cell to: its own, with the STAGE minimum of an overflow (R43, R67). -/
def Node.demand (n : Node) : Word := setField n.minimum 48 8 (max (profByte n.minimum 6) n.minStage)

/-- The task of a chosen node (R64). -/
def taskOf (l : Launch) (n : Node) (team : Nat) : Task :=
  { launch := l.id, team := team, node := n.index, attempt := n.attempt, replay := !n.precise, stage := [], spawns := [], checks := [],
    ending := none, minimum := n.demand }

/-- The engine's choice: ages, the pointer, the node running, the Chuck's slot (R63, R64). -/
def State.serve (s : State) (lead : Nat) (all : List (Launch × Node × Nat × Nat)) (l : Launch) (n : Node) (team c : Nat) : State :=
  match s.eligibleSlot (s.cellAt c) with
  | none => s
  | some k =>
    let waiting := all.map fun x => x.1.id
    let ls := s.launches.map fun m =>
      if m.id == l.id then { m.putNode { n with st := .running } with age := 0, pointer := (c + 1) % 663552 }
      else if m.prio == l.prio && waiting.contains m.id then { m with age := Nat.min (m.age + 1) 255 }
      else m
    let s := { s with launches := ls, lastServed := assocSet lead l.id s.lastServed }
    s.setHartAt c k { s.hartAt c k with chosen := some (taskOf l n team) }

/-- DISPATCH: the engine of a lead die checks a node whose count has reached zero, or serves a launch (R61, R63). DESIGN CHOICE (LOG 46): where
the round of launch identifiers starts before any launch has been served, the spec does not say; it starts after identifier 0. -/
def State.dispatch (s : State) (lead : Nat) : Option State :=
  match (s.launches.filter fun l => l.lead == lead).findSome? fun l => l.unresolved.findSome? fun n => s.resolve l n with
  | some t => some t
  | none =>
    let all := s.servable lead
    (best (fun a b => servedBefore ((assocGet lead s.lastServed).getD 0) a.1 b.1) all).map fun x =>
      s.serve lead all x.1 x.2.1 x.2.2.1 x.2.2.2

def execDispatch (lead : Nat) (s : State) : Out := .next ((s.dispatch lead).getD s)

/-- The registers a Chuck writes (R64), and the acquire of a dispatch (R70). -/
def Hart.startTask (h : Hart) (l : Launch) (n : Node) (t : Task) : Hart :=
  let h := (List.range 6).foldl (fun h j => h.setS (BitVec.ofNat 8 (j + 1)) (if j < n.argc then n.word (2 + j) else 0)) h
  let h := (h.setS 7 (BitVec.ofNat 64 t.node)).setS 8 (BitVec.ofNat 64 t.attempt)
  { h.settle with pc := BitVec.ofNat 64 (l.imageBase + n.entry), level := .u, st := .run, task := some t, chosen := none }

/-- CHUCK_START: the Chuck writes a chosen node's registers and moves the hart to RUN (R64). -/
def execChuckStart (c : Nat) (k : Slot) (s : State) : Out :=
  let cell := s.cellAt c
  match (cell.hart k).chosen with
  | none => .next s
  | some t =>
    match s.launch? t.launch with
    | none => .next s
    | some l => match l.node? t.node with
      | none => .next s
      | some n => .next (s.putCell ((cell.acquireDrop).setHart k ((cell.hart k).startTask l n t)))

/-! ## Records (R65, R67 to R69) -/

def boolNat (b : Bool) : Nat := if b then 1 else 0

/-- The two words of a record (R68). -/
def TaskRecord.words (r : TaskRecord) : List Word :=
  [BitVec.ofNat 64 (r.node + 2 ^ 32 * r.launch + 2 ^ 48 * r.team + 2 ^ 56 * r.kind + 2 ^ 59 * boolNat r.precise),
   BitVec.ofNat 64 (r.hart + 2 ^ 24 * r.attempt + 2 ^ 32 * r.reason + 2 ^ 40 * r.detail)]

def TaskRecord.bytes (r : TaskRecord) : List Byte := r.words.flatMap fun w => leBytes 8 w.toNat

/-- A written record of a completed task: the successors count down, and the nodes that it spawned with deps 1 (R65, R251). DESIGN CHOICE (LOG 46):
a successor that the node lists twice counts down twice. -/
def Launch.complete (l : Launch) (n : Node) (attempt : Nat) : Launch :=
  let l := n.succs.foldl Launch.countDown (l.putNode { n with st := .done })
  { l with nodes := l.nodes.map fun m => if m.parent == some (n.index, attempt) then { m with deps := 0, parent := none } else m }

/-- The node waits on the fault-wait list of the die whose cell ran it (R353). -/
def State.parkNode (s : State) (l : Launch) (n : Node) (die page : Nat) : State :=
  let s := s.putLaunch (l.putNode { n with st := .parked })
  { s with mem := { s.mem with waitList := s.mem.waitList ++ [⟨die, l.id, n.index, l.asid, page⟩] } }

/-- What a written record does to the launch's nodes (R65, R67, R251): a requeued node becomes ready with its attempt one higher, or parks on
its page. -/
def State.settleRec (s : State) (l : Launch) (r : TaskRecord) : State :=
  match l.node? r.node with
  | none => s
  | some n =>
    let next : Node := { n with attempt := n.attempt + 1 }
    if r.kind = 0 then s.putLaunch (l.complete n r.attempt)
    else if r.kind = 1 then s.putLaunch (l.putNode { n with st := .done })
    else if r.kind = 2 then
      match r.page with
      | none => s.readyNode l next
      | some p => s.parkNode l next (dieOf (r.hart / 16)) p
    else s

/-- The record enters the ring: the bytes at the ring's place in global memory, and the queue `evget` reads (R69, R252). A write that meets a
held page waits (R346); one that faults leaves the record in the engine's queue alone. -/
def State.ringPut (s : State) (id : Nat) (r : TaskRecord) : Option State :=
  (s.launch? id).bind fun l =>
    let va := l.ringBase + 16 * (l.written % l.ringCap)
    let put (s : State) : Option State := (s.launch? id).map fun l =>
      let l := { l with ring := l.ring ++ [r], written := l.written + 1 }
      (s.putLaunch l).settleRec l r
    (s.writeNoted ⟨l.lead, l.asid, va, r.bytes, true⟩).bind put

/-- The ring has room (R69). -/
def Launch.room (l : Launch) : Bool := l.ring.length < l.ringCap

/-- A cell and slot whose hart's record a Chuck holds for a launch (R69). -/
def State.heldHart (s : State) (id : Nat) : Option (Nat × Slot) :=
  s.cells.findSome? fun c => ((List.finRange 16).find? fun k =>
    match (c.hart k).heldRec with
    | some r => r.launch == id
    | none => false).map fun k => (c.no, k)

/-- Accepts the next record of a launch: one of the engine's own first, then those the Chucks hold. -/
def State.acceptRec (s : State) (l : Launch) : Option State :=
  if !l.room then none
  else match l.heldRecs with
    | r :: rs => (s.putLaunch { l with heldRecs := rs }).ringPut l.id r
    | [] => (s.heldHart l.id).bind fun p =>
      let h := s.hartAt p.1 p.2
      h.heldRec.bind fun r => (s.setHartAt p.1 p.2 { h with heldRec := none }).ringPut l.id r

/-- RECORD_WRITE: the engine of a lead die accepts a record and writes it (R69). -/
def State.recordWrite (s : State) (lead : Nat) : Option State :=
  (s.launches.filter fun l => l.lead == lead).findSome? fun l => s.acceptRec l

def execRecordWrite (lead : Nat) (s : State) : Out := .next ((s.recordWrite lead).getD s)

/-- The hart's record of its attempt, held by its Chuck until the engine accepts it; the hart parks (R67 to R69). DESIGN CHOICE (LOG 46): the
trap pc of an interrupt that a hart takes in the PARK of an abort is the pc it had, the pc of the instruction that ended the attempt; R21 names
the `waitw` alone. -/
def Hart.report (h : Hart) (t : Task) (hart kind reason detail : Nat) (page : Option Nat) (sweep : Bool) : Hart :=
  { h.settle with st := .park sweep, task := none,
                  heldRec := some { node := t.node, launch := t.launch, team := t.team, kind := kind, precise := !t.replay, hart := hart,
                                    attempt := t.attempt, reason := reason, detail := detail, minimum := t.minimum, page := page } }

/-- A task's commands in the matrix and copy queues have retired (R67). -/
def Cell.taskIdle (c : Cell) (t : Task) (k : Slot) : Bool :=
  !(c.cq.any fun q => q.owner == some (t.launch, t.node, t.attempt)) && !(c.mq.any fun q => q.slot == k)

/-- How an ended attempt is reported. -/
structure Report where
  kind   : Nat
  reason : Nat
  detail : Nat
  page   : Option Nat
  /-- The STAGE minimum that the node has from now on; 0 where the abort sets none. -/
  stage  : Nat
  deriving DecidableEq, Repr

/-- The record that ends an attempt (R67), `stageBanks` STAGE banks on its cell. DESIGN CHOICE (LOG 46): an overflow at attempt 255 meets both
failures of R67, and the replay limit is tested first. -/
def abortOutcome (l : Launch) (t : Task) (e : EndKind) (stageBanks : Nat) : Report :=
  match e with
  | .failed r d => ⟨1, r, d, none, 0⟩
  | .parkOn page => if t.attempt = 255 then ⟨1, 0x25, 0, none, 0⟩ else ⟨2, 0x10, 0, some page, 0⟩
  | .again r =>
    if t.attempt = 255 then ⟨1, 0x25, 0, none, 0⟩
    else if r = 0x11 then
      if profByte l.quota 6 < stageBanks + 1 then ⟨1, 0x24, 0, none, 0⟩ else ⟨2, r, 0, none, stageBanks + 1⟩
    else ⟨2, r, 0, none, 0⟩

/-- TASK_ABORT: an ended attempt whose commands have retired is reported, and its hart parks (R67, R294, R372). DESIGN CHOICE (LOG 46): the STAGE count
from which a new minimum is made is the cell's when the abort is reported. -/
def State.taskAbort (s : State) (c : Nat) (k : Slot) : Option State :=
  let cell := s.cellAt c
  let h := cell.hart k
  match h.task with
  | none => none
  | some t => match t.ending with
    | none => none
    | some e =>
      if !cell.taskIdle t k then none
      else match s.launch? t.launch with
        | none => some (s.setHartAt c k { h with task := none })
        | some l => match l.node? t.node with
          | none => some (s.setHartAt c k { h with task := none })
          | some n =>
            let r := abortOutcome l t e (cell.count 6)
            let s := if r.stage = 0 then s else s.putLaunch (l.putNode { n with minStage := r.stage })
            some (s.setHartAt c k (h.report t (hartNo c k) r.kind r.reason r.detail r.page (s.sweepHart c k && !h.stopped)))

def execTaskAbort (c : Nat) (k : Slot) (reason : Nat) (s : State) : Out :=
  let same := match (s.hartAt c k).task.bind (·.ending) with
    | some (.parkOn _) => reason == 0x10
    | some (.again r) => reason == r
    | some (.failed r _) => reason == r
    | none => false
  .next (if same then (s.taskAbort c k).getD s else s)

/-! ## Starvation, the drained record, gangs (R58, R69, R72) -/

/-- The hart counts as blocked for R72. -/
def Hart.blocked (h : Hart) : Bool :=
  h.paused ||
  (match h.st with
   | .wait .data => false
   | .wait .fetch => false
   | .wait .sleep => false
   | .wait _ => true
   | _ => false)

/-- Both conditions of R72 hold for a team. -/
def State.starving (s : State) (l : Launch) (t : Team) : Bool :=
  t.placed && (l.nodes.any fun n => n.rank.isSome && (n.team == 0xFF || n.team == t.no)) &&
  (rectCells t.x0 t.y0 (2 ^ l.lw) (2 ^ l.lh)).all fun i =>
    let c := s.cellAt i
    (List.finRange 16).all fun k => c.nres ≤ k.val || (c.hart k).blocked

/-- Some hart of the team is in RUN. -/
def State.teamRuns (s : State) (l : Launch) (t : Team) : Bool :=
  (rectCells t.x0 t.y0 (2 ^ l.lw) (2 ^ l.lh)).any fun i => (s.cellAt i).harts.toList.any fun h => h.st == .run && !h.paused

/-- The starvation clocks of a launch's teams, renewed as time passes (R72). -/
def State.watch (s : State) (l : Launch) : Launch :=
  { l with teams := l.teams.map fun t =>
      if s.starving l t then { t with starve := some (t.starve.getD s.tbase) }
      else { t with starve := none, starved := t.starved && !s.teamRuns l t } }

/-- The record of a starved team (R68, R72). -/
def engineRec (l : Launch) (team kind : Nat) : TaskRecord :=
  { node := 0xFFFFFFFF, launch := l.id, team := team, kind := kind, precise := false, hart := 0, attempt := 0, reason := 0, detail := 0,
    minimum := 0, page := none }

/-- A team starved for 10,000 ticks has its record (R72); at most one of a team is held (R69). -/
def State.starvation (s : State) (id team : Nat) : Option State :=
  (s.launch? id).bind fun l => (l.team? team).bind fun t =>
    match t.starve with
    | none => none
    | some t0 =>
      if !t.starved && t0 + 10000 ≤ s.tbase && s.starving l t && !(l.heldRecs.any fun r => r.kind == 3 && r.team == team) then
        some (s.putLaunch { l.putTeam { t with starved := true } with heldRecs := l.heldRecs ++ [engineRec l team 3] })
      else none

def execStarvationRecord (launch team : Nat) (s : State) : Out := .next ((s.starvation launch team).getD s)

/-- No node of the launch is ready, running, parked or held (R69). -/
def State.idleLaunch (s : State) (l : Launch) : Bool :=
  l.unresolved.isEmpty && l.heldRecs.isEmpty && (s.heldHart l.id).isNone &&
  l.nodes.all fun n => n.st == .waiting || n.st == .done

/-- The kind-4 record of a launch with no node left (R69). DESIGN CHOICE (LOG 46): a launch drains once; nodes added after that record lead to no
second one. -/
def State.launchDrained (s : State) (id : Nat) : Option State :=
  (s.launch? id).bind fun l =>
    if !l.drained && s.idleLaunch l then
      some (s.putLaunch { l with drained := true, heldRecs := l.heldRecs ++ [engineRec l 0xFF 4] })
    else none

/-- LAUNCH_DRAINED: the kind-4 record of a launch with no node left (R69). -/
def execLaunchDrained (launch : Nat) (s : State) : Out := .next ((s.launchDrained launch).getD s)

/-- The start tick of a waiting gang has come (R58). -/
def State.gangStart (s : State) (id : Nat) : Option State :=
  (s.launch? id).bind fun l => if l.gangWait && l.start ≤ s.tbase then some (s.putLaunch { l with gangWait := false }) else none

def execGangStart (launch : Nat) (s : State) : Out := .next ((s.gangStart launch).getD s)

/-! ## Spawned nodes (R251) -/

/-- A spawned node joins its launch, and its words the node array, where nothing reports a write that fails; one that R251 calls malformed is recorded failed as it is added. DESIGN CHOICE
(LOG 46): one with deps 1 that R61 alone calls malformed (argc 7, say) is recorded when its count reaches zero. -/
def State.addNode (s : State) (id : Nat) (sp : Spawn) (parent : Option (Nat × Nat)) : State :=
  match s.launch? id with
  | none => s
  | some l =>
    let deps := fieldOf (sp.words.getD 1 0) 0 16
    let n : Node := { index := sp.index, words := sp.words, spawned := true, deps := deps, st := .waiting, attempt := 0, minStage := 0,
                      succs := [], minimum := 0, parent := if deps = 1 then parent else none }
    let va := l.nodeBase + 64 * sp.index
    let s := s.writeOwed ⟨l.lead, l.asid, va, sp.words.flatMap fun w => leBytes 8 w.toNat, false⟩
    match s.launch? id with
    | none => s
    | some l =>
      if 1 < deps || (deps = 1 && parent.isNone) then
        s.putLaunch { l with nodes := l.nodes ++ [{ n with st := .done }], heldRecs := l.heldRecs ++ [malformedRec l n] }
      else s.putLaunch { l with nodes := l.nodes ++ [n] }

/-- A hart of a launch whose `tspawn` waits for the engine. -/
def State.spawner (s : State) (id : Nat) : Option (Nat × Slot) :=
  s.cells.findSome? fun c =>
    match c.serving with
    | none => none
    | some v =>
      if v.launch != id then none
      else ((List.finRange 16).find? fun k => (c.hart k).req == .sent &&
        (match (c.hart k).winstr with
         | some (.tspawn _ _) => true
         | _ => false)).map fun k => (c.no, k)

/-- SPAWN_ADD: the engine answers a `tspawn` with an index and adds the node, or leaves it with the attempt of a REPLAY task (R251). -/
def State.spawnAdd (s : State) (id : Nat) : Option State :=
  (s.launch? id).bind fun l => (s.spawner id).map fun p =>
    let h := s.hartAt p.1 p.2
    if l.capacity ≤ l.next then s.setHartAt p.1 p.2 { h with req := .answered (BitVec.allOnes 64) }
    else
      let sp : Spawn := { index := l.next, words := leWords h.buf }
      let s := s.putLaunch { l with next := l.next + 1 }
      let h := { h with req := .answered (BitVec.ofNat 64 l.next) }
      match h.task with
      | some t =>
        if t.replay then s.setHartAt p.1 p.2 { h with task := some { t with spawns := t.spawns ++ [sp] } }
        else (s.setHartAt p.1 p.2 h).addNode id sp (some (t.node, t.attempt))
      | none => (s.setHartAt p.1 p.2 h).addNode id sp none

def execSpawnAdd (launch : Nat) (s : State) : Out := .next ((s.spawnAdd launch).getD s)

/-! ## Pushes not yet acknowledged (R196) -/

/-- The command delivers pushes: a tile copy of kind 2 (R241). -/
def CopyOp.pushes : CopyOp → Bool
  | .tile ws _ => fieldOf (ws.getD 0 0) 0 2 == 2
  | _ => false

/-- Copy commands of a hart whose pushes are not all acknowledged. -/
def Cell.outstanding (c : Cell) (k : Slot) : List Nat := (c.cq.filter fun q => q.slot == k && q.op.pushes).map (·.id)

/-- Every earlier store and push of hart `k` is acknowledged. -/
def Cell.acked (c : Cell) (k : Slot) : Bool := (c.outstanding k).isEmpty && (c.hart k).held.isEmpty

/-- Pushes of slot `k` that are listed are acknowledged, and the first stores it ever held, as many as said, are performed (R196). -/
def Cell.follows (c : Cell) (k : Slot) (after : List Nat) (upto : Nat) : Bool :=
  after.all (fun i => !(c.outstanding k).contains i) && upto + (c.hart k).held.length ≤ (c.hart k).heldNo

/-! ## Team barriers (R253) -/

/-- The cell has arrived: every masked slot has issued `tbar` on the word. -/
def Cell.arrived (c : Cell) (w : IWord) : Bool :=
  match c.tbars.find? fun t => t.word == w with
  | some t => t.arrived == t.mask
  | none => false

/-- The stores and pushes of the masked slots are acknowledged, as the release of a completion needs. -/
def Cell.released (c : Cell) (w : IWord) : Bool :=
  match c.tbars.find? fun t => t.word == w with
  | some t => (List.finRange 16).all fun k => !t.mask.getLsbD k.val || c.acked k
  | none => false

/-- The hart waits in `tbar` on a word. -/
def Hart.tbarWord (h : Hart) : Option IWord :=
  match h.st, h.winstr with
  | .wait .teamBarrier, some (.tbar _ _ a _) => some (BitVec.ofNat 32 (h.S a).toNat)
  | _, _ => none

/-- The episode ends in a cell: each masked slot finds it ended, and the harts that wait for it leave WAIT; each takes part in an acquire
at `.m`. A wait that an interrupt cuts finds it ended all the same when its `tbar` issues again. -/
def Cell.endEpisode (c : Cell) (w : IWord) : Cell :=
  match c.tbars.find? fun t => t.word == w with
  | none => c
  | some t =>
    let c := { c.acquireDrop with tbars := c.tbars.filter fun u => u.word != w }
    (List.finRange 16).foldl (fun c k =>
      if !t.mask.getLsbD k.val then c
      else
        let c := { c with tbarDone := c.tbarDone ++ [⟨w, k⟩] }
        if (c.hart k).tbarWord == some w then c.setHart k { c.hart k with woken := true } else c) c

/-- TBAR_COMPLETE: every cell of the subgroup has arrived, and the stores of the harts that take part are acknowledged (R253). -/
def State.tbarComplete (s : State) (id team : Nat) (w : IWord) : Option State :=
  let cs := s.groupCells id team w
  if !cs.isEmpty && cs.all fun i => (s.cellAt i).arrived w && (s.cellAt i).released w then
    some (cs.foldl (fun s i => s.putCell ((s.cellAt i).endEpisode w)) s)
  else none

def execTbarComplete (launch team : Nat) (word : IWord) (s : State) : Out := .next ((s.tbarComplete launch team word).getD s)

/-! ## Replays (R354) -/

/-- The nodes a condition picks leave the die's fault-wait list and become ready (R354, R63). -/
def State.replayNodes (s : State) (p : ParkedNode → Bool) : Nat × State :=
  let hits := s.mem.waitList.filter p
  let s := { s with mem := { s.mem with waitList := s.mem.waitList.filter fun n => !p n } }
  (hits.length, hits.foldl (fun s n =>
    match s.launch? n.launch with
    | none => s
    | some l => match l.nodes.find? fun m => m.index == n.node with
      | none => s
      | some m => s.readyNode l m) s)

/-- REPLAY_PAGE: the nodes parked on a page of an ASID become ready (R354). -/
def execReplayPage (die asid page : Nat) (s : State) : Out :=
  .next (s.replayNodes fun n => n.die == die && n.asid == asid && n.page == page).2

/-- REPLAY_ALL: every node parked on the die becomes ready (R354). -/
def execReplayAll (die : Nat) (s : State) : Out := .next (s.replayNodes fun n => n.die == die).2


end Sys2Proof.Machine
end

