-- ==== Sys2Proof/Machine/Misses.lean ====
section
/-! DEFINITION. Accesses that go beyond their cell: their times, how they leave it, what a hart waits for; lines of CODE (R137, R320, R336). -/

namespace Sys2Proof.Machine

/-! ## Times (R320, R380, R425) -/

/-- The time that a request from one die to another and its answer take, the lookup there among it; none on one die. -/
def State.crossing (s : State) (d e : Nat) : Nat :=
  if d = e then 0 else timeUnits (s.transit d e ++ s.transit e d ++ [(lookupCycles, s.fabric e)])

/-- The time of a line's read from HBM through the translation agent. -/
def State.memoryTime (s : State) (d : Nat) : Nat := hbmCycles * s.fabricCycle d

/-- The time of an agent's read of a table line: 2·6 + 10 cycles on its own die, and the read from memory where the line's home slice, on the die of its
address (R336), does not hold it. -/
def State.tableRead (s : State) (agent pa : Nat) : Nat :=
  let d := dieOfPa pa
  (if agent = d then (12 + lookupCycles) * s.fabricCycle d else s.crossing agent d) +
  (if (s.cohLine (windowKey pa)).dieState d == .i then s.memoryTime d else 0)

/-- The time of an agent's walk, its reads made one after another; an agent that has an entry makes none. -/
def State.walkTime (s : State) (asid page : Nat) : Nat :=
  if (s.entry? asid page).isSome then 0 else ((s.walkEntries asid page).map (s.tableRead (s.agentDie asid page))).sum

/-! ## A miss leaves (R320, R381) -/

/-- The instant at which a miss that a cell finds in its present cycle leaves it. -/
def Cell.missLeaves (c : Cell) : Nat := c.begins + 4 * c.period

/-- A miss leaves at an instant, with a number of its own: from a cell as a packet to the line's slice of its die; a core's line is looked up at once
(LOG 1). -/
def State.sendMiss (s : State) (t : Nat) (m : Miss) : State :=
  let m : Miss := { m with id := s.cmdNo, phase := match m.agent with
    | .cell _ => .out
    | .core _ => .look t }
  let s := { s with cmdNo := s.cmdNo + 1, mem := { s.mem with misses := s.mem.misses ++ [m] } }
  match m.agent with
  | .core _ => s
  | .cell n => s.sendPacket (s.packetOf m.die m.id m.sort m.carries (portOf n) [slicePort m.die (s.homeSlice (s.missKey m))]) t

/-- The REPLAY attempt of a hart. -/
def Hart.attempt (h : Hart) : Option (Nat × Nat × Nat) := h.task.bind fun t => if t.replay then some (t.launch, t.node, t.attempt) else none

/-- A miss of the issuing hart at an address, of some bytes and words. -/
def State.hartMiss (s : State) (sort : MsgKind) (kind : MissKind) (p : Nat × Nat) (words : BitVec 16) : Miss :=
  { id := 0, sort := sort, agent := s.cur, slot := s.cell.slot, kind := kind, asid := s.asid, level := s.hart.level, va := p.1, size := p.2,
    words := words, task := s.hart.attempt, phase := .out }

/-- Misses of the issuing hart leave. -/
def State.sendHere (s : State) (ms : List Miss) : State :=
  let t := match s.cur with
    | .cell _ => s.cell.missLeaves
    | .core _ => s.instant
  ms.foldl (fun s m => s.sendMiss t m) s

/-- Misses of the issuing hart leave, and its instruction waits for their answers. -/
def State.askHere (s : State) (ms : List Miss) : State :=
  (s.sendHere ms).mapHart fun h => { h with asks := h.asks ++ (List.range ms.length).map (s.cmdNo + ·) }

/-- The misses of hart `k` are answered, and what they have brought is written (R320). -/
def Cell.answered (c : Cell) (k : Slot) : Bool := (c.hart k).asks.isEmpty && (c.hart k).ready ≤ c.cycle

/-- Those of the issuing hart. -/
def State.answeredHere (s : State) : Bool := s.hart.asks.isEmpty && (s.isCore || s.hart.ready ≤ s.cell.cycle)

/-- What a hart's miss of the line at an address has been answered with. -/
def Hart.answer (h : Hart) (a : Nat) : Option Got := h.got.find? fun g => g.line == a / 128

/-- Step 3 of R186 for each part that an answer has come for: the first failure with its address. -/
def Hart.firstFault (h : Hart) (ps : List (Nat × Nat)) : Option (Cause × Nat) :=
  ps.findSome? fun p => (h.answer p.1).bind fun g => g.fault.map fun c => (c, p.1)

/-- The bytes of some range in an answer, with the sideband of its granules. -/
def Got.slice (g : Got) (a n : Nat) : List Byte × List Byte := ((g.data.drop (a % 128)).take n, sbSlice g.sb (a % 128) n)

/-- The first part of a list in each line that it touches. -/
def lineHeads (ps : List (Nat × Nat)) : List (Nat × Nat) :=
  ((ps.map fun p => p.1 / 128).dedup).filterMap fun l => ps.find? fun p => p.1 / 128 == l

/-! ## CODE (R41, R137 to R139) -/

/-- A CODE line of a cell whose rights let the hart fetch. -/
def Cell.codeLine? (c : Cell) (asid gen : Nat) (lv : Level) (line : Nat) : Option CLine :=
  c.code.find? fun l => l.key == ⟨asid, gen, line⟩ && l.perm.allows lv .fetch

/-- Bytes of the whole instruction at the head of a byte list, by the L field of its first word. -/
def instrLen (bs : List Byte) : Nat := 4 * lengthWords ((wordsOfBytes (bs.take 4)).headD 0)

/-- A filled line enters CODE; a line of the list `keep` is never the one evicted (R41). -/
def Cell.addCode (c : Cell) (choice : Nat) (keep : List Nat) (l : CLine) : Cell :=
  let rest := c.code.filter fun m => m.key != l.key
  let kept (m : CLine) : Bool := m.key.asid == l.key.asid && keep.contains m.key.line
  let held := rest.filter kept
  let others := rest.filter fun m => !kept m
  if c.roomFor 2 ≤ held.length then c
  else { c with code := l :: held ++ evict (c.roomFor 2 - held.length) choice others }

/-- The store path of the cell still holds a store, of any hart, to a line: a fetch's fill waits for it, so that a line filled after the storing
hart's `inv` holds its store, whichever hart it is filled for (R139). -/
def Cell.storesCode (c : Cell) (line : Nat) : Bool := c.harts.toList.any fun h => h.held.any fun r => r.addr / 128 == line

end Sys2Proof.Machine
end

