-- ==== Sys2Proof/Machine/Stores.lean ====
section
/-! DEFINITION. Global stores of a hart: write checks, STAGE, stores held behind a release, commit (R66, R70, R189, R190, R196). -/

namespace Sys2Proof.Machine

/-! ## Pushes not yet acknowledged (R196) -/

/-- Those of the issuing hart. -/
def State.outstanding (s : State) : List Nat := if s.isCore then [] else s.cell.outstanding s.cell.slot

/-- What a command of the issuing hart follows, as its entry is ordered as a release (R109): the pushes, and how many stores held before. -/
def State.releases (s : State) : List Nat × Nat :=
  ((s.hart.held.flatMap (·.after) ++ s.hart.relAfter ++ s.outstanding).dedup, s.hart.heldNo)

/-- Every earlier store and push of the issuing hart is acknowledged. -/
def State.acked (s : State) : Bool := s.outstanding.isEmpty && s.hart.held.isEmpty

/-- The party that the issuing hart's accesses are made by: its cell, or the Headstock (R359, R390). -/
def State.party (s : State) : Party :=
  match s.cur with
  | .cell n => .cell n
  | .core _ => .engine 54

/-! ## Registered words (R189, R359) -/

/-- Every word of the piece is registered to the issuing hart's cell in a CACHE line whose rights allow the store (R189), and the line is no page-table
line (R342). -/
def State.registeredHere (s : State) (a n : Nat) : Bool :=
  !s.isCore && !s.tableStore s.asid a &&
  (match s.cell.cacheLine? ⟨s.asid, s.gen s.asid, a / 128⟩ with
   | none => false
   | some l => l.perm.allows s.hart.level .store && (wordMask (a % 128) n &&& ~~~ l.regs) == 0)

/-! ## Performing -/

/-- A store performed at its place by a hart's party, checked at the level it was issued at. -/
def State.performRec (s : State) (who : Party) (asid : Nat) (r : StoreRec) : Answer Unit × State :=
  s.writePiece who asid r.level r.addr r.bytes r.sb

/-- Stores performed in order, every one whose page takes it; `none` while one of them waits. -/
def State.performAll (s : State) (who : Party) (asid : Nat) (rs : List StoreRec) : Option State :=
  rs.foldl (fun o r => o.bind fun s => match s.performRec who asid r with
    | (.wait, _) => none
    | (_, t) => some t) (some s)

/-- The first element of a list, none before it still waiting at an agent, whose page does not take a store: its cause and address (R186). -/
def State.firstBad (s : State) (asid : Nat) (lv : Level) : List (Nat × Nat) → Option (Cause × Nat)
  | [] => none
  | p :: ps =>
    match (s.storeAt asid lv p.1).1 with
    | .ok _ => s.firstBad asid lv ps
    | x => x.cause.map fun c => (c, p.1)

/-- Some piece waits at an agent. -/
def State.anyParked (s : State) (asid : Nat) (lv : Level) (ps : List (Nat × Nat)) : Bool :=
  ps.any fun p => (s.storeAt asid lv p.1).1 == .wait

/-- The ASID of a cell's accesses (R105). -/
def State.cellAsid (s : State) (n : Nat) : Nat := ((s.launchOf (s.cellAt n)).map (·.asid)).getD 0

/-- A held store that its page no longer takes, or whose frame holds an uncorrectable error: a page fault is recorded (R350), and the failure
reaches the hart that issued it as one of an engine does (R244, R345, LOG 19). -/
def State.heldFails (s : State) (n : Nat) (k : Slot) (c : Cause) (a : Nat) : State :=
  let s := if c == .page then s.recordAccess n k (s.cellAsid n) (a / 65536) 1 false else s
  s.setHartAt n k { s.hartAt n k with engErr := (s.hartAt n k).engErr ++ [(c, a)] }

/-- The stores a cell's store path holds for hart `k`, performed in order while what they follow is acknowledged and their pages take them or
refuse them (R196). -/
def drainHeld (n : Nat) (k : Slot) (done : Nat → Bool) : List StoreRec → State → List StoreRec × State
  | [], s => ([], s)
  | r :: rs, s =>
    if !r.after.all done then (r :: rs, s)
    else match s.performRec (.cell n) (s.cellAsid n) r with
      | (.wait, _) => (r :: rs, s)
      | (x, t) => drainHeld n k done rs (match x.cause with
        | some c => t.heldFails n k c r.addr
        | none => t)

/-- Held stores of every hart of a cell, tried again (R196). -/
def State.drainCell (s : State) (n : Nat) : State :=
  (List.finRange 16).foldl (fun s k =>
    let h := s.hartAt n k
    if h.held.isEmpty && h.relAfter.isEmpty then s
    else
      let live := (s.cellAt n).outstanding k
      let r := drainHeld n k (fun i => !live.contains i) h.held s
      r.2.setHartAt n k { r.2.hartAt n k with held := r.1, relAfter := h.relAfter.filter fun i => live.contains i }) s

/-- A held store that waited for its page, or for its line, alone can be performed. -/
def State.heldDue (s : State) (n : Nat) : Option State :=
  (List.finRange 16).findSome? fun k =>
    match (s.hartAt n k).held with
    | [] => none
    | r :: _ =>
      if r.after.all (fun i => !((s.cellAt n).outstanding k).contains i) && (s.performRec (.cell n) (s.cellAsid n) r).1 != .wait then
        some (s.drainCell n)
      else none

/-! ## A store of the issuing hart -/

/-- Bytes a STAGE record takes (R66). -/
def StoreRec.stageBytes (r : StoreRec) : Nat := if r.bytes.length = 64 then 80 else 16

def stageBytes (rs : List StoreRec) : Nat := (rs.map StoreRec.stageBytes).foldl (· + ·) 0

/-- STAGE bytes that the tasks of a cell hold (R66). -/
def Cell.stageUsed (c : Cell) : Nat :=
  (c.harts.toList.map fun h => stageBytes ((h.task.map (·.stage)).getD [])).foldl (· + ·) 0

/-- The write checks of some stores of the issuing hart, one for each line (R189, R190). -/
def State.checksOf (s : State) (kind : MissKind) (rs : List StoreRec) : List Miss :=
  (lineHeads (rs.map fun r => (r.addr, r.bytes.length))).map fun p =>
    s.hartMiss .request kind p ((rs.filter fun r => r.addr / 128 == p.1 / 128).foldl (fun m r => m ||| wordMask (r.addr % 128) r.bytes.length) 0)

/-- Stores enter STAGE at issue, with a write check for each line that has a word not registered and none under way (R190); an overflow aborts
(R66). -/
def State.stageStores (s : State) (t : Task) (rs : List StoreRec) : Out :=
  if s.cell.count 6 * 4096 < s.cell.stageUsed + stageBytes rs then .next (s.mapHart fun h => h.endTask (.again 0x11))
  else
    let new := rs.filter fun r => !s.registeredHere r.addr r.bytes.length && !t.checks.contains (r.addr / 128)
    (s.sendHere (s.checksOf .replay new)).done fun h =>
      { h with task := some { t with stage := t.stage ++ rs, checks := (t.checks ++ new.map fun (r : StoreRec) => r.addr / 128).dedup } }

/-- The issuing hart has sent page-table stores that are not performed yet (R342). -/
def State.tableSent (s : State) : Bool := s.mem.ptStores.any fun p => p.owner == some s.ownerId

/-- Stores whose write check has passed: performed, once none of their lines is under another transaction, or held in order behind the stores held
before them and what the hart's last release waits for (R196). Those into page-table lines are sent to their homes, and the instruction issues again
until their drains have ended (R342). -/
def State.performStores (s : State) (rs : List StoreRec) (rel : Bool) : Out :=
  let wait := if rel then s.outstanding else s.hart.relAfter
  if !wait.isEmpty || !s.hart.held.isEmpty then s.done fun h => { h with held := h.held ++ rs.map fun r => { r with after := wait }, heldNo := h.heldNo + rs.length }
  else
    let table := rs.filter fun r => s.tableStore s.asid r.addr
    match s.performAll s.party s.asid (rs.filter fun r => !s.tableStore s.asid r.addr) with
    | none => s.reissue
    | some t =>
      if table.isEmpty then t.finish
      else ((table.foldl (fun t r => t.sendPt 1 s.ownerId (r.addr % 2 ^ 52) r.bytes) t).mapHart fun h => { h with req := .sent }).reissue

/-- A failed check of a store of the issuing hart (R66, R186); a page fault is recorded. -/
def State.storeFails (s : State) (c : Cause) (a : Nat) : Out :=
  match c with
  | .misaligned => s.trap .misaligned (BitVec.ofNat 64 a)
  | .page => s.pageFault .store a
  | _ => s.failGlobal c a

/-- A store outside a REPLAY task (R189): `bad` is an element whose step 1 or 2 of R186 fails, behind those in `rs`. A failed check was recorded when it
was answered. -/
def State.storeChecked (s : State) (rs : List StoreRec) (rel : Bool) (bad : Option (Cause × Nat)) : Out :=
  let ps := rs.map fun r => (r.addr, r.bytes.length)
  let pass : Out := match bad with
    | some (c, a) => s.storeFails c a
    | none => s.performStores rs rel
  if s.hart.req == .sent then (if s.tableSent then s.reissue else s.finish)
  else match s.hart.check with
    | .sent _ => s.reissue
    | .failed c a => if s.answeredHere then s.failGlobal c a else s.reissue
    | .passed =>
      if !s.answeredHere then s.reissue
      else match s.firstBad s.asid s.hart.level ps with
        | some (c, a) => s.storeFails c a
        | none => if s.anyParked s.asid s.hart.level ps then s.reissue else pass
    | .idle =>
      let new := rs.filter fun r => !s.registeredHere r.addr r.bytes.length
      if new.isEmpty then pass
      else ((s.askHere (s.checksOf .check new)).mapHart fun h => { h with check := .sent ps }).reissue

/-- A global store of the issuing hart, after steps 1 and 2 of R186 for the records `rs` (R66, R189, R190). -/
def State.storeGlobal (s : State) (rs : List StoreRec) (rel : Bool) (bad : Option (Cause × Nat)) : Out :=
  match s.hart.task with
  | some t =>
    if t.replay then
      match bad with
      | some (c, a) => s.storeFails c a
      | none => s.stageStores t rs
    else s.storeChecked rs rel bad
  | none => s.storeChecked rs rel bad

/-! ## Loads -/

/-- A weak or narrow load served by the cell's CACHE (R106): every word held, and the rights allow it (R105); whether the line keeps a
sideband, and the bytes. -/
def State.cacheHit (s : State) (n : Need) (a len : Nat) : Option (Bool × List Byte × List Byte) :=
  if s.isCore then none
  else match s.cell.cacheLine? ⟨s.asid, s.gen s.asid, a / 128⟩ with
    | none => none
    | some l =>
      if l.perm.allows s.hart.level n && (wordMask (a % 128) len &&& ~~~ l.valid) == 0 then
        some (l.kept, (l.data.drop (a % 128)).take len, sbSlice l.sb (a % 128) len)
      else none

/-- What CACHE answers an access of some parts with, in one line, where it serves all of them. -/
def State.cacheGot (s : State) (ps : List (Nat × Nat)) (line : Nat) : Option Got :=
  if (ps.filter fun p => p.1 / 128 == line).all fun p => (s.cacheHit .load p.1 p.2).isSome then
    (s.cell.cacheLine? ⟨s.asid, s.gen s.asid, line⟩).map fun l =>
      let x := s.hart.sees (line * 128) l.kept (l.data, l.sb)
      { line := line, data := x.1, sb := x.2, held := true, fault := none }
  else none

/-- The hart enters WAIT with this instruction (R19). -/
def State.waitOn (s : State) (c : WaitCause) (i : Instr) : Out :=
  .next (s.mapHart fun h => { h with st := .wait c, winstr := some i, woken := false, since := some (h.since.getD s.tbase) })

/-- The hart waits now: its slot is the one that may complete the instruction (R19). -/
def Hart.waits (h : Hart) (c : WaitCause) : Bool := h.st == .wait c

end Sys2Proof.Machine
end

