-- ==== Sys2Proof/Machine/Sched.lean ====
section
/-! DEFINITION. Barrier objects, task end and scheduling: majors 0x38, 0x3C and 0x3D (R248 to R254). -/

namespace Sys2Proof.Machine

/-! ## Major 0x3C -/

/-- An instruction of a cell hart on a barrier object (R248): registers, then the offset's checks. -/
def onObject (ss : List Reg) (a : Reg) (k : Nat → Out) (s : State) : Out :=
  s.cellOnly (s.withRegs ss [] (s.withLocal (s.hart.S a) 16 16 k))

/-- `bini` (R248): the object's reset value; its waiters are re-tested. -/
def execBini (a : Reg) (s : State) : Out :=
  onObject [a] a (fun o =>
    (s.mapCell fun c => c.lwrite o (zeros 16)).finish) s

/-- `bexp` (R248). -/
def execBexp (a b : Reg) (s : State) : Out :=
  onObject [a, b] a (fun o => (s.mapCell fun c => c.expect o (s.hart.S b).toNat).finish) s

/-- `barv` (R248): the phase before the credit. -/
def execBarv (d a b : Reg) (s : State) : Out :=
  onObject [d, a, b] a (fun o =>
    let p := s.cell.phase o
    (s.mapCell fun c => c.credit o (s.hart.S b).toNat false).writeS d (flagWord p)) s

/-- The acquire of a completed `bwait` or `btest` (R249). -/
def State.acquire (s : State) : State := if s.isCore then s else s.mapCell Cell.acquireDrop

/-- The destination that `.try` alone names. -/
def tryReg (try_ : Bool) (d : Reg) : List Reg := if try_ then [d] else []

/-- `bwait` and `bwait.try` (R248, R249). A wait that has ended completes in this slot (R19), or takes the access-fault trap of a
discarded offset (R46). -/
def execBwait (try_ : Bool) (d a b : Reg) (s : State) : Out :=
  if s.hart.waits .barrier then
    match s.hart.check with
    | .failed c x => s.trap c (BitVec.ofNat 64 x)
    | _ => if s.hart.woken then s.acquire.finish else .next s
  else
    onObject (tryReg try_ d ++ [a, b]) a (fun o =>
      let now := s.cell.phase o == (s.hart.S b).getLsbD 0
      if try_ then (if now then s.acquire.writeS d 1 else s.writeS d 0)
      else if now then s.acquire.finish
      else (s.mapCell fun c => c.setWaiter o s.cell.slot true).waitOn .barrier (.bwait try_ d a b)) s

/-- `btest` (R248). -/
def execBtest (d a : Reg) (s : State) : Out :=
  onObject [d, a] a (fun o =>
    let w0 := s.cell.lword o
    let w1 := s.cell.lword (o + 8)
    let m := fieldOf w0 0 32 - fieldOf w0 32 32
    s.acquire.writeS d (BitVec.ofNat 64 (m + 2 ^ 32 * fieldOf w1 0 1 + 2 ^ 48 * fieldOf w1 16 16))) s

/-! ## Task end: majors 0x38 and 0x3D, operations 0 and 1 (R250) -/

/-- The kind of PARK a hart of the focused cell enters (R84, R317). -/
def State.parkKind (s : State) : HartState := .park (s.sweepHart s.cell.no s.cell.slot)

/-- A hart that holds no task parks (R250). -/
def State.parks (s : State) : Out := .next (s.mapHart fun h => h.parkAt s.parkKind)

/-- A sweep hart that holds a handed site takes the field-routine-error trap (R250). -/
def State.notHanded (s : State) (k : Out) : Out :=
  match s.hart.hand with
  | some x => s.trap .fieldRoutine (BitVec.ofNat 64 x.site)
  | none => k

/-- The STAGE records of an attempt performed in issue order, as stores by the hart (R70); `none` while one of their lines is under another
transaction. -/
def State.commit (s : State) (t : Task) : Option State := s.performAll s.party s.asid t.stage

/-- The first STAGE record whose page no longer takes it. -/
def State.stageBad (s : State) (t : Task) : Option (Cause × Nat) :=
  t.stage.findSome? fun r => s.firstBad s.asid r.level [(r.addr, r.bytes.length)]

/-- Some STAGE record waits at an agent. -/
def State.stageParked (s : State) (t : Task) : Bool := t.stage.any fun r => s.anyParked s.asid r.level [(r.addr, r.bytes.length)]

/-- `tend` (R250): waits by re-issue for the attempt's write checks and copy commands, commits STAGE, adds the held nodes, reports. -/
def execTend (s : State) : Out :=
  s.cellOnly <| s.notHanded <|
    match s.hart.task with
    | none => s.parks
    | some t =>
      let mine := s.cell.cq.any fun q => q.owner == some (t.launch, t.node, t.attempt)
      if !t.checks.isEmpty || mine || !s.acked then s.reissue
      else match s.stageBad t with
        | some (c, a) => s.storeFails c a
        | none =>
          if s.stageParked t then s.reissue
          else match s.commit t with
          | none => s.reissue
          | some s =>
            let s := t.spawns.foldl (fun s sp => s.addNode t.launch sp (some (t.node, t.attempt))) s
            .next (s.mapHart fun h => (h.parkAt .run).report t s.hartId 0 0 0 none (s.sweepHart s.cell.no s.cell.slot))

/-- `tabt` and `waitw` on a hart that holds a task: the attempt fails with reason 0x20 (R67, R250). -/
def State.abandonTask (s : State) (detail : Nat) : Out :=
  s.cellOnly <| s.notHanded <|
    match s.hart.task with
    | none => s.parks
    | some _ => .next (s.mapHart fun h => (h.parkAt .run).endTask (.failed 0x20 detail))

/-- `waitw` (R250). -/
def execWaitw (s : State) : Out := s.abandonTask 0

/-- `tabt` (R250). -/
def execTabt (a : Reg) (s : State) : Out :=
  s.cellOnly (s.withRegs [a] [] (s.abandonTask ((s.hart.S a).toNat % 2 ^ 24)))

/-! ## Nodes and records (R251, R252) -/

/-- `tspawn` (R251): the node is read at the first issue; the request is sent once every earlier store and push is acknowledged, as its
release needs, and at once in a REPLAY task. -/
def execTspawn (d a : Reg) (s : State) : Out :=
  s.cellOnly <| s.withRegs [d, a] [] <|
    match s.hart.req with
    | .answered v => s.writeS d v
    | .sent => s.reissue
    | .idle =>
      let send (s : State) : Out :=
        if s.acked || s.hart.replay then (s.mapHart fun h => { h with req := .sent }).reissue else s.reissue
      if s.hart.again then send s
      else s.withLocal (s.hart.S a) 64 64 fun o =>
        send (s.mapHart fun h => { h with buf := s.cell.lread o 64, winstr := some (.tspawn d a) })

/-- `evget` (R252): the lead die answers after the first issue with the oldest record of the ring. DESIGN CHOICE (LOG 46): in a REPLAY task reason 0x23
comes before the checks of S(a). -/
def execEvget (d a : Reg) (s : State) : Out :=
  s.cellOnly <| s.withRegs [d, a] [] <| s.notReplay <| s.withLocal (s.hart.S a) 16 16 fun o =>
    match s.hart.req with
    | .sent =>
      match s.launchOf s.cell with
      | none => s.writeS d 0
      | some l => match l.ring with
        | [] => s.writeS d 0
        | r :: rs => ((s.putLaunch { l with ring := rs }).mapCell fun c => c.lwrite o r.bytes).writeS d 1
    | _ => (s.mapHart fun h => { h with req := .sent }).reissue

/-! ## Team barriers (R253) -/

/-- The subgroup word is legal in the focused cell's team. DESIGN CHOICE (LOG 46): a register whose bits [63:32] are not zero holds no legal word; R57 and
R253 do not speak of them. -/
def State.wordLegal (s : State) (w : Word) : Bool :=
  match s.launchOf s.cell with
  | none => false
  | some l => fieldOf w 32 32 == 0 && subgroupLegal l.lw l.lh (BitVec.ofNat 32 w.toNat)

/-- The focused cell lies in the subgroup. -/
def State.inSubgroup (s : State) (w : IWord) : Bool :=
  match s.cell.serving with
  | none => false
  | some v =>
    let g := subgroup w
    g.ox ≤ v.tx && v.tx < g.ox + 2 ^ g.lw && g.oy ≤ v.ty && v.ty < g.oy + 2 ^ g.lh

/-- The mask names the issuing slot and resident harts only (R253). DESIGN CHOICE (LOG 46): the slot of a stopped hart counts as one with a resident
hart. -/
def Cell.maskOk (c : Cell) (m : Word) : Bool :=
  fieldOf m 16 48 == 0 && m.getLsbD c.slot.val && m.toNat < 2 ^ c.nres

/-- The hart's arrival in the current episode of a word; a hart that has arrived does not arrive again. -/
def Cell.arrive (c : Cell) (w : IWord) (m : BitVec 16) : Cell :=
  let bit : BitVec 16 := BitVec.ofNat 16 (2 ^ c.slot.val)
  if c.tbars.any fun t => t.word == w then
    { c with tbars := c.tbars.map fun t => if t.word == w then { t with arrived := t.arrived ||| bit } else t }
  else { c with tbars := c.tbars ++ [⟨w, m, bit⟩] }

/-- `tbar` and `tbar.try` (R253). DESIGN CHOICE (LOG 46): where several of its engine errors hold, those of the mask S(b) come first, then the cell outside
the subgroup, then a mask that differs or a fifth word. -/
def execTbar (try_ : Bool) (d a b : Reg) (s : State) : Out :=
  let ends (s : State) (w : IWord) : Out :=
    let s := (s.mapCell fun c => { c with tbarDone := c.tbarDone.erase ⟨w, c.slot⟩ }).acquire
    if try_ then s.writeS d 1 else s.finish
  if s.hart.waits .teamBarrier then (if s.hart.woken then ends s (BitVec.ofNat 32 (s.hart.S a).toNat) else .next s)
  else
    s.cellOnly <| s.withRegs (tryReg try_ d ++ [a, b]) [] <|
      let x := s.hart.S a
      let y := s.hart.S b
      let w : IWord := BitVec.ofNat 32 x.toNat
      let m : BitVec 16 := BitVec.ofNat 16 y.toNat
      if !s.wordLegal x then s.trap .illegal s.firstWord
      else if !s.cell.maskOk y then s.trap .engine y
      else if !s.inSubgroup w then s.trap .engine x
      else if s.cell.tbarDone.contains ⟨w, s.cell.slot⟩ then ends s w
      else
        let cur := s.cell.tbars.find? fun t => t.word == w
        let differs := match cur with
          | some t => t.mask != m
          | none => 4 ≤ s.cell.tbars.length
        if differs then s.trap .engine y
        else
          let s := s.mapCell fun c => c.arrive w m
          if try_ then s.writeS d 0 else s.waitOn .teamBarrier (.tbar try_ d a b)

/-! ## Yield, sleep, tick (R254) -/

/-- `yield` (R254): its hart's second slot completes it. -/
def execYield (s : State) : Out := if s.hart.again then s.finish else s.reissue

/-- `sleep` (R254). -/
def execSleep (a : Reg) (s : State) : Out :=
  s.withRegs [a] [] <|
    if (s.hart.S a).toNat ≤ s.tbase then s.finish
    else if s.hart.waits .sleep then .next s
    else s.waitOn .sleep (.sleep a)

/-- `tick` (R254). -/
def execTick (d : Reg) (s : State) : Out :=
  s.withRegs [d] [] (s.writeS d (BitVec.ofNat 64 s.tbase))

end Sys2Proof.Machine
end

