-- ==== Sys2Proof/Machine/Queue.lean ====
section
/-! DEFINITION. The two engine queues of a cell: entries, waiting harts, reservations (R24, R46). -/

namespace Sys2Proof.Machine

namespace Cell

/-- A waiting hart's event has occurred (R19). -/
def wake (c : Cell) (k : Slot) : Cell := c.setHart k { c.hart k with woken := true }

/-- Entries of the matrix queue in use, reserved ones among them (R24, R236). -/
def mUsed (c : Cell) : Nat := c.mq.length + c.mresv.length

/-- Entries of the copy queue in use, reserved ones among them. -/
def cUsed (c : Cell) : Nat := c.cq.length + c.cresv.length

/-- A free entry is reserved for the longest-waiting hart; none while the queue is closed (R24, R46). -/
def reserveM (c : Cell) : Cell :=
  match c.mwait with
  | [] => c
  | k :: ks => if c.mclosed || 2 ≤ c.mUsed then c else { c with mwait := ks, mresv := c.mresv ++ [k] }.wake k

def reserveC (c : Cell) : Cell :=
  match c.cwait with
  | [] => c
  | k :: ks => if c.cclosed || 2 ≤ c.cUsed then c else { c with cwait := ks, cresv := c.cresv ++ [k] }.wake k

/-- Every free entry of both queues is handed out (R24). -/
def serveQueues (c : Cell) : Cell := c.reserveM.reserveM.reserveC.reserveC

/-- Both queues open again, and their waiters are served (R46). -/
def reopen (c : Cell) : Cell := { c with mclosed := false, cclosed := false }.serveQueues

/-- The slot's wait and its reservations end; the reservations pass to the next waiters (R24, R228). -/
def leaveQueues (c : Cell) (k : Slot) : Cell :=
  { c with mwait := c.mwait.filter (· != k), mresv := c.mresv.filter (· != k),
           cwait := c.cwait.filter (· != k), cresv := c.cresv.filter (· != k) }.serveQueues

/-- A command of slot `k` may enter the matrix queue now: it holds a reservation, or an entry is free (R24). -/
def mayEnterM (c : Cell) (k : Slot) : Bool := !c.mclosed && (c.mresv.contains k || c.mUsed < 2)

def mayEnterC (c : Cell) (k : Slot) : Bool := !c.cclosed && (c.cresv.contains k || c.cUsed < 2)

end Cell

/-- The wait of slot `k` is abandoned with no effect (R21): its bit in a barrier object is cleared (R249), and its reservation passes on
(R24). -/
def Cell.abandon (c : Cell) (k : Slot) : Cell :=
  let h := c.hart k
  let c := match h.awaits with
    | some (o, _) => c.setWaiter o k false
    | none => c
  (c.setHart k { h.settle with st := match h.st with
    | .wait _ => .run
    | st => st }).leaveQueues k

/-- The issuing hart waits for an entry and holds none that it may use yet. -/
def State.queued (s : State) (resv : List Slot) (closed : Bool) : Bool :=
  s.hart.waits .queue && (closed || !resv.contains s.cell.slot)

end Sys2Proof.Machine
end

