-- ==== Sys2Proof/Machine/Pool.lean ====
section
/-! DEFINITION. The pool of a cell: re-division and its reads (R31 to R52, R286, R287). -/

namespace Sys2Proof.Machine

/-! ## The bank map (R35) -/

namespace Cell

def role (c : Cell) (b : Nat) : Nat := (c.banks.toList.getD b 0).toNat % 8
def bankIndex (c : Cell) (b : Nat) : Nat := (c.banks.toList.getD b 0).toNat / 8

/-- Banks of a role, ascending. -/
def banksOf (c : Cell) (r : Nat) : List Nat := (List.range 32).filter fun b => c.role b == r

/-- The bank that holds a role at an index. -/
def bankAt (c : Cell) (r i : Nat) : Option Nat := (c.banksOf r).find? fun b => c.bankIndex b == i

def setBank (c : Cell) (b r i : Nat) : Cell :=
  if h : b < 32 then { c with banks := c.banks.set b (BitVec.ofNat 8 (r + 8 * i)) } else c

/-- The banks that hold the top `m` indices of a role; FREE has none (R46). -/
def top (c : Cell) (r m : Nat) : List Nat :=
  if r = 0 then [] else (c.banksOf r).filter fun b => c.count r ≤ c.bankIndex b + m

/-- Bytes of MAT (R34). -/
def matSize (c : Cell) : Nat := 4096 * c.count 5

/-- Each high-water byte at least the current count (R51). -/
def raiseHigh (c : Cell) : Cell :=
  { c with high := (List.range 8).foldl (fun w r => setField w (8 * r) 8 (max (profByte w r) (c.count r))) c.high }

/-- Placement of R47: the destination's banks, ascending, and the LOCAL moves; `none` is code 5. -/
def placement (c : Cell) (src dst m : Nat) : Option (List Nat × List (Nat × Nat)) :=
  let freed := c.top src m
  let free := (List.range 32).filter fun b => c.role b == 0 || freed.contains b
  if dst = 5 then
    let fin := free.filter fun b => 24 ≤ b
    let fout := free.filter fun b => b < 24
    let lin := ((c.banksOf 3).filter fun b => 24 ≤ b && !freed.contains b).reverse
    let own := fin.take m
    let moves := (lin.zip fout).take (m - own.length)
    if own.length + moves.length < m then none
    else some ((List.range 32).filter (fun b => own.contains b || moves.any fun p => p.1 == b), moves)
  else
    let can := if dst = 2 then free.filter fun b => b < 8 else free
    if can.length < m then none else some (can.take m, [])

end Cell

/-! ## Admission (R44) -/

/-- Admission checks 1 to 5, in order; 0 when all pass. -/
def State.accept (s : State) (c : Cell) (src dst m : Nat) : Nat :=
  if dst != 0 && profByte c.quota dst < c.count dst + m then 7
  else if c.count src < s.roleMin c src + m then 6
  else if src == 1 && (c.count 1 - m) * 4096 < c.nres * ((s.launchOf c).map (·.wsize)).getD 0 then 1
  else if src == 6 && c.stageUsed != 0 then 2
  else if src == 7 && (match s.cellField c.no with
    | some f => f.sweeps
    | none => false) then 3
  else 0

/-! ## The re-division (R45 to R49) -/

/-- The lines that stay when banks of CACHE or CODE are given up: which lines lay in them is the implementation's choice (R41, LOG 2). -/
def keepLines (room choice : Nat) (ls : List CLine) : List CLine :=
  (((ls.zip (List.range ls.length)).filter fun p => choice / 2 ^ p.2 % 2 == 0).map Prod.fst).take room

/-- The source's handshake begins (R46): lines leave CODE and CACHE at once, and a queue that must drain closes. -/
def Cell.beginShrink (c : Cell) (src m choice : Nat) : Cell :=
  let room := bankLines (c.count src - m)
  if src = 2 then { c with code := keepLines room choice c.code }
  else if src = 4 then { c with cache := keepLines room choice c.cache }
  else if src = 3 then { c with cclosed := true }
  else if src = 5 then { c with mclosed := true }
  else c

/-- The hart issues again the `pool` of a ticket, whose code has not been written (R49). -/
def Hart.asksPool (h : Hart) (ticket : Nat) : Bool :=
  h.req == .sent && h.ticket == ticket &&
  (match h.winstr with
   | some (.pool _ _ _ _) => true
   | _ => false)

/-- Slot `k` has the code of its `pool`; a hart whose attempt has ended meanwhile takes none (R67). -/
def Cell.poolAnswer (c : Cell) (k : Slot) (ticket code : Nat) : Cell :=
  if (c.hart k).asksPool ticket then c.setHart k { c.hart k with req := .answered (BitVec.ofNat 64 code) } else c

/-- Starts a re-division, or answers the code that refuses it at admission (R44, R45). -/
def State.startRediv (s : State) (c : Cell) (r : PoolReq) : Cell :=
  match s.accept c r.src r.dst r.m, c.placement r.src r.dst r.m with
  | 0, some (take, moves) =>
    let c := c.beginShrink r.src r.m (Config.choice (s.tbase + c.cycle))
    { c with rediv := some ⟨r.slot, r.ticket, r.src, r.dst, r.m, .handshake, c.cycle, take, moves⟩ }
  | 0, none => c.poolAnswer r.slot r.ticket 5
  | e, _ => c.poolAnswer r.slot r.ticket e

/-- The next re-divisions of the queue start, until one is under way (R49). -/
def State.nextRediv (s : State) (c : Cell) : Cell :=
  c.redivQ.foldl (fun c r => if c.rediv.isSome then c else s.startRediv { c with redivQ := c.redivQ.drop 1 } r) c

/-- A re-division ends with a code: the queues reopen and the next one starts (R45, R49). -/
def State.endRediv (s : State) (c : Cell) (r : Rediv) (code : Nat) : State :=
  s.putCell (s.nextRediv ({ c with rediv := none }.reopen.poolAnswer r.slot r.ticket code))

/-- The roles whose new banks are zeroed (R32). -/
def zeroed (r : Nat) : Bool := r = 1 || r = 3 || r = 5 || r = 7

/-- The phase after the handshake and after the moves: zeroing, or the switch. -/
def Rediv.afterMoves (r : Rediv) : RedivPhase := if zeroed r.dst then .zero (128 * r.take.length) else .switch

/-- The queue the source's handshake waits for is empty (R46). -/
def Cell.shrinkDrained (c : Cell) (r : Rediv) : Bool :=
  if r.src = 3 then c.cq.isEmpty else if r.src = 5 then c.mq.isEmpty else true

/-- The handshake ends; a relocation closes the copy queue (R46, R48). -/
def State.poolHandshake (s : State) (n : Nat) : Option State :=
  let c := s.cellAt n
  match c.rediv with
  | some r =>
    if r.phase == .handshake && c.shrinkDrained r then
      if r.moves.isEmpty then some (s.putCell { c with rediv := some { r with phase := r.afterMoves } })
      else some (s.putCell { c with rediv := some { r with phase := .relocate 0 }, cclosed := true })
    else none
  | none => none

/-- POOL_HANDSHAKE: the source's queue or lines are drained (R46). -/
def execPoolHandshake (c : Nat) (s : State) : Out := .next ((s.poolHandshake c).getD s)

/-- The matrix queue has not emptied 8,192 cycles after the handshake began: code 4 (R46). -/
def State.matTimeout (s : State) (n : Nat) : Option State :=
  let c := s.cellAt n
  match c.rediv with
  | some r =>
    if r.phase == .handshake && r.src == 5 && !c.mq.isEmpty && r.began + 8192 < c.cycle then some (s.endRediv c r 4) else none
  | none => none

/-- MAT_DRAIN_TIMEOUT (R46). -/
def execMatDrainTimeout (c : Nat) (s : State) : Out := .next ((s.matTimeout c).getD s)

/-- One zeroing cycle is spent (R45). -/
def Cell.zeroCycle (c : Cell) : Cell :=
  match c.rediv with
  | some r => match r.phase with
    | .zero (l + 1) => { c with rediv := some { r with phase := if l = 0 then .switch else .zero l } }
    | .zero 0 => { c with rediv := some { r with phase := .switch } }
    | _ => c
  | none => c

/-- A wait on a LOCAL offset that the switch discards ends, with the access-fault trap to come in the hart's slot (R46). -/
def Hart.discarded (h : Hart) (size : Nat) : Hart :=
  let fail (x : Nat) : Hart := { h with check := .failed .access x, woken := true }
  let word (a : Reg) (off : Word) : Hart :=
    if h.st == .wait .fullEmpty && size < (h.S a + off).toNat + 8 then fail (h.S a + off).toNat else h
  match h.winstr with
  | some (.ldfeK _ _ a off) => word a off
  | some (.ldfeE _ _ a off) => word a off
  | some (.stfe _ _ a off) => word a off
  | some (.bwait _ _ a _) =>
    if h.st == .wait .barrier && !h.woken && size < (h.S a).toNat + 16 then fail (h.S a).toNat else h
  | _ => h

def Cell.discardWaits (c : Cell) : Vector Hart 16 := c.harts.map fun h => Hart.discarded h c.localSize

/-- The bank map, the counts and the contents after the switch (R32, R34, R45, R48). -/
def Cell.switchBanks (c : Cell) (r : Rediv) : Cell :=
  let n := c.count r.dst
  let freed := c.top r.src r.m
  let d := freed.foldl (fun c b => c.setBank b 0 0) c
  let d := r.moves.foldl (fun d p => d.setBank p.2 3 (c.bankIndex p.1)) d
  let d := (r.take.zip (List.range r.take.length)).foldl
    (fun d p => d.setBank p.1 r.dst (if r.dst = 0 then 0 else n + p.2)) d
  let keepL := min d.localSize c.localSize
  let keepM := min d.matSize c.matSize
  { d with loc := c.loc.below keepL, locSb := c.locSb.below (keepL / 32), locBad := c.locBad.filter (· < keepL / 32),
           mat := c.mat.below keepM, matSb := c.matSb.below (keepM / 32),
           harts := if r.src = 3 then d.discardWaits else d.harts }.raiseHigh

/-- The admission checks are made again at a wheel boundary, and the map switches (R45). -/
def State.poolSwitch (s : State) (n : Nat) : Option State :=
  let c := s.cellAt n
  match c.rediv with
  | some r =>
    if r.phase == .switch && c.cycle % 16 == 0 && r.began < c.cycle then
      let e := s.accept c r.src r.dst r.m
      some (if e = 0 then s.endRediv (c.switchBanks r) r 0 else s.endRediv c r e)
    else none
  | none => none

/-- POOL_SWITCH (R45). -/
def execPoolSwitch (c : Nat) (s : State) : Out := .next ((s.poolSwitch c).getD s)

/-! ## `pool` and `poolq` (R286, R287) -/

/-- `pool` (R42 to R49, R286). -/
def execPool (d : Reg) (src dst : BitVec 3) (m : BitVec 5) (s : State) : Out :=
  s.cellOnly <| s.withRegs [d] [] <|
    if src = dst || m = 0 then s.writeS d 0
    else
      let finish (s : State) : Out :=
        match s.hart.req with
        | .answered v => s.writeS d v
        | _ => s.reissue
      match s.hart.req with
      | .idle =>
        let r : PoolReq := ⟨s.cell.slot, s.cell.poolNo, src.toNat, dst.toNat, m.toNat⟩
        let s := s.mapCell fun c => { c with poolNo := c.poolNo + 1 }
        let s := s.mapHart fun h => { h with req := .sent, winstr := some (.pool d src dst m), ticket := r.ticket }
        if s.cell.rediv.isSome || !s.cell.redivQ.isEmpty then (s.mapCell fun c => { c with redivQ := c.redivQ ++ [r] }).reissue
        else finish (s.mapCell fun c => s.startRediv c r)
      | _ => finish s

/-- Role minimums as a profile word (R43, R51). -/
def State.minimums (s : State) (c : Cell) : Word :=
  (List.range 8).foldl (fun w r => setField w (8 * r) 8 (s.roleMin c r)) 0

/-- Eight bank map entries (R51). -/
def Cell.bankWord (c : Cell) (i : Nat) : Word :=
  BitVec.ofNat 64 (leNat ((c.banks.toList.drop (8 * i)).take 8))

/-- `poolq` (R51, R287). -/
def execPoolq (d : Reg) (sel : BitVec 6) (s : State) : Out :=
  s.cellOnly <| s.withRegs [d] [] <|
    let c := s.cell
    match sel.toNat with
    | 0 => s.writeS d c.profile
    | 1 => s.writeS d c.high
    | 2 => (s.mapCell fun c => { c with high := c.profile }).writeS d c.high
    | 3 => s.writeS d c.quota
    | 4 => s.writeS d (s.minimums c)
    | n => if n < 9 then s.writeS d (c.bankWord (n - 5)) else s.trap .illegal s.firstWord

end Sys2Proof.Machine
end

