-- ==== Sys2Proof/Machine/Matrix.lean ====
section
/-! DEFINITION. The matrix engine: commands of major 0x30, their accesses cycle by cycle, credits (R224 to R239). -/

namespace Sys2Proof.Machine

/-! ## Descriptors (R225, R227) -/

/-- The format of a code (R125). -/
def codeFmt (c : Nat) : Option Fmt := fmtOf (BitVec.ofNat 6 c)

/-- The code names a binary8 format. -/
def isB8Code (c : Nat) : Bool := ((codeFmt c).map Fmt.isB8).getD false

/-- The value `mfmt` may set (R225). -/
def fmtWordOk (w : Word) : Bool :=
  let wf := fieldOf w 0 6
  let af := fieldOf w 8 6
  fieldOf w 6 2 == 0 && fieldOf w 14 50 == 0 && ((isB8Code wf && isB8Code af) || (wf == af && (wf == 9 || wf == 10)))

def tileOff (t : Word) : Nat := fieldOf t 0 15
def tileRows (t : Word) : Nat := fieldOf t 15 8 + 1

/-- The limits of a tile descriptor (R227); `clr` may be set where `macrd` names it. -/
def tileOk (clr : Bool) (t : Word) : Bool :=
  tileOff t % 16 == 0 && 0x100 ≤ tileOff t && fieldOf t 24 40 == 0 && (clr || !t.getLsbD 23)

/-- Bytes of an output row (R227). -/
def outRow (c : Nat) : Nat := if isB8Code c then 4 else if c = 0x0B then 16 else 8

/-- The limits of an output descriptor, with the rows of its tile (R227, R228). -/
def outOk (rows : Nat) (o : Word) : Bool :=
  let f := fieldOf o 17 6
  fieldOf o 28 36 == 0 && (isB8Code f || f == 9 || f == 10 || f == 11) && fieldOf o 24 3 < 4 &&
  (!o.getLsbD 23 || (isB8Code f && rows % 8 == 0))

/-! ## Checks at entry (R228) -/

/-- The first of a list of checks that fails: its cause and value. -/
def firstFail : List (Bool × Cause × Word) → Option (Cause × Word)
  | [] => none
  | (true, r) :: _ => some r
  | (false, _) :: l => firstFail l

/-- Checks 3 and 4 of a LOCAL range and an object (R228). -/
def rangeChecks (c : Cell) (a n align : Nat) (o : Word) : List (Bool × Cause × Word) :=
  [(a % align != 0, .misaligned, BitVec.ofNat 64 a), (o.toNat % 16 != 0, .misaligned, o),
   (c.localSize < a + n, .access, BitVec.ofNat 64 a), (c.localSize < o.toNat + 16, .access, o)]

/-- Check 5 of a tile command. -/
def tileCheck (c : Cell) (t : Word) : Bool × Cause × Word :=
  (c.count 5 == 0 || decide (c.matSize < tileOff t + 16 * tileRows t), .engine, t)

/-- A command of the issuing hart: it waits for an entry, or makes its checks and enters, with the expectation on its object
(R24, R228). A failed check passes the hart's reservation on. Entry is a release (R109): the command starts once what it follows is done. -/
def State.matIssue (s : State) (i : Instr) (ss : List Reg) (checks : List (Bool × Cause × Word)) (op : MatOp)
    (expect : Option (Nat × Nat)) : Out :=
  s.cellOnly <| s.withRegs ss [] <|
    if s.queued s.cell.mresv s.cell.mclosed then .next s
    else
      let k := s.cell.slot
      match firstFail checks with
      | some (c, v) => (s.mapCell fun c => c.leaveQueues k).trap c v
      | none =>
        if s.cell.mayEnterM k then
          (s.mapCell fun c =>
            let cmd : MatCmd := { slot := k, op := op, entered := c.cycle, start := none, narrow := false, fmtWord := 0, plane := false,
                                  slip := 0, buf := [], bad := [], after := s.releases.1, upto := s.releases.2 }
            let c := { c with mq := c.mq ++ [cmd], mresv := c.mresv.filter (· != k) }
            match expect with
            | some (o, n) => c.expect o n
            | none => c).finish
        else (s.mapCell fun c => { c with mwait := c.mwait ++ [k] }).waitOn .queue i

/-- `mlds` (R231). -/
def execMlds (d a : Reg) (s : State) : Out :=
  let o := s.hart.S d
  let x := s.hart.S a
  s.matIssue (.mlds d a) [d, a] (rangeChecks s.cell x.toNat 128 32 o ++ [(s.cell.count 5 == 0, .engine, x)])
    (.mlds o.toNat x.toNat) (some (o.toNat, 128))

/-- `mswp` (R231). -/
def execMswp (s : State) : Out := s.matIssue .mswp [] [(s.cell.count 5 == 0, .engine, 0)] .mswp none

/-- `mstr` (R232). DESIGN CHOICE (LOG 46): where two operands fail one check of R228, the trap value is of the activation's or the output's descriptor
before the tile's, and of the LOCAL offset before the object; `macrd` likewise. -/
def execMstr (d a b : Reg) (s : State) : Out :=
  let o := s.hart.S d
  let x := s.hart.S a
  let t := s.hart.S b
  let n := 32 * tileRows t
  let src := fieldOf x 0 17
  s.matIssue (.mstr d a b) [d, a, b]
    ([(fieldOf x 17 47 != 0, .engine, x), (!tileOk false t, .engine, t)] ++ rangeChecks s.cell src n 32 o ++ [tileCheck s.cell t])
    (.mstr o.toNat src (tileOff t) (tileRows t)) (some (o.toNat, n))

/-- `macz` (R235). -/
def execMacz (a : Reg) (s : State) : Out :=
  let t := s.hart.S a
  s.matIssue (.macz a) [a] [(!tileOk false t, .engine, t), tileCheck s.cell t] (.macz (tileOff t) (tileRows t)) none

/-- `macrd` (R235). -/
def execMacrd (d a b : Reg) (s : State) : Out :=
  let o := s.hart.S d
  let x := s.hart.S a
  let t := s.hart.S b
  let f := fieldOf x 17 6
  let n := outRow f * tileRows t
  let dst := fieldOf x 0 17
  let q := x.getLsbD 23
  s.matIssue (.macrd d a b) [d, a, b]
    ([(!outOk (tileRows t) x, .engine, x), (!tileOk true t, .engine, t)] ++
      rangeChecks s.cell dst n (if q then 32 else outRow f) o ++ [tileCheck s.cell t])
    (.macrd o.toNat dst (tileOff t) (tileRows t) (BitVec.ofNat 6 f) q (t.getLsbD 23)
      ((rmOf (BitVec.ofNat 3 (fieldOf x 24 3))).getD .rne) (x.getLsbD 27))
    (some (o.toNat, n))

/-- `mfmt` (R225). -/
def execMfmt (a : Reg) (s : State) : Out :=
  let w := s.hart.S a
  s.matIssue (.mfmt a) [a] [(!fmtWordOk w, .engine, w)] (.mfmt w) none

/-! ## Ports and times (R229) -/

namespace MatCmd

def usesLoad (q : MatCmd) : Bool :=
  match q.op with
  | .mlds _ _ => true
  | .mswp => true
  | .mfmt _ => true
  | _ => false

def usesStream (q : MatCmd) : Bool :=
  match q.op with
  | .mlds _ _ => false
  | _ => true

/-- The formats of the command's format word are binary8. -/
def b8 (q : MatCmd) : Bool := isB8Code (fieldOf q.fmtWord 0 6)

/-- The row period p (R229, R234). -/
def period (q : MatCmd) : Nat := (if q.b8 then 1 else 2) * (if q.narrow then 2 else 1)

/-- The cycle in which a command that started in `t` retires (R229). -/
def lastCycle (q : MatCmd) (t : Nat) : Nat :=
  match q.op with
  | .mlds _ _ => t + 3 + q.slip
  | .mswp => t
  | .mfmt _ => t
  | .mstr _ _ _ m => t + q.period * m + 5
  | .macz _ m => t + (m + 7) / 8 - 1
  | .macrd _ _ _ m _ quant _ _ _ => if quant then t + m + 9 else t + m + 1

/-- The LOCAL offset the stream port reaches in a cycle, for a started command. -/
def streamOff (q : MatCmd) (cycle : Nat) : Option Nat :=
  match q.start, q.op with
  | some t, .mstr _ src _ m =>
    let k := cycle - t
    if k % q.period = 0 && k / q.period < m then some (src + 32 * (k / q.period)) else none
  | some t, .macrd _ dst _ m f quant _ _ _ =>
    let k := cycle - t
    if quant then (if 17 ≤ k && (k - 17) % 8 = 0 && (k - 17) / 8 < m / 8 then some (dst + 32 * ((k - 17) / 8)) else none)
    else if 2 ≤ k && k - 2 < m then some (dst + outRow f.toNat * (k - 2)) else none
  | _, _ => none

/-- The LOCAL offset the load port reaches in a cycle, for a started command. -/
def loadOff (q : MatCmd) (cycle : Nat) : Option Nat :=
  match q.start, q.op with
  | some t, .mlds _ src => if cycle < t + q.slip + 4 then some (src + 32 * (cycle - t - q.slip)) else none
  | _, _ => none

end MatCmd

/-- Some started command holds the load port, or the stream port (R229, R236). -/
def Cell.loadBusy (c : Cell) : Bool := c.mq.any fun q => q.start.isSome && q.usesLoad
def Cell.streamBusy (c : Cell) : Bool := c.mq.any fun q => q.start.isSome && q.usesStream

/-- Replaces the first command a condition picks. -/
def mapFirst {α : Type} (p : α → Bool) (f : α → α) : List α → List α
  | [] => []
  | x :: xs => if p x then f x :: xs else x :: mapFirst p f xs

/-- The current alarm of a cell's rail (R407). -/
def State.alarmAt (s : State) (n : Nat) : Bool := s.rails.any fun r => r.die == dieOf n && r.rail == railOf n && r.alarm

/-- The first command that has not started starts when its ports are free and what it follows is done; `mswp` and `mfmt` start from the second
cycle after the last retirement on, and act then (R229, R231, R232, R234, R321). -/
def State.matrixStart (s : State) (n : Nat) : Option State :=
  let c := s.cellAt n
  match c.mq.find? fun q => q.start.isNone with
  | none => none
  | some q =>
    if c.cycle ≤ q.entered || (q.usesLoad && c.loadBusy) || (q.usesStream && c.streamBusy) ||
        (q.usesLoad && q.usesStream && c.cycle < c.mfree) || !c.follows q.slot q.after q.upto then none
    else
      let isStr := match q.op with
        | .mstr _ _ _ _ => true
        | _ => false
      let nar := isStr && s.alarmAt n
      let go (r : MatCmd) : MatCmd := { r with start := some c.cycle, narrow := nar, fmtWord := BitVec.ofNat 64 c.fmtWord.toNat, plane := c.aplane }
      let c := { c with mq := mapFirst (fun q => q.start.isNone) go c.mq, narrow := if isStr then nar else c.narrow }
      some (s.putCell (match q.op with
        | .mswp => { c with aplane := !c.aplane }
        | .mfmt w => { c with fmtWord := w }
        | _ => c))

/-- MATRIX_START (R229). -/
def execMatrixStart (c : Nat) (s : State) : Out := .next ((s.matrixStart c).getD s)

/-- The first command whose last cycle has passed retires, and its entry goes to the longest waiter (R24, R229). -/
def State.matrixRetire (s : State) (n : Nat) : Option State :=
  let c := s.cellAt n
  let over_ (q : MatCmd) : Bool := match q.start with
    | some t => q.lastCycle t < c.cycle
    | none => false
  (c.mq.find? over_).map fun q =>
    s.putCell { c with mq := c.mq.eraseP over_, mfree := q.lastCycle (q.start.getD 0) + 2 }.serveQueues

/-- MATRIX_RETIRE (R229). -/
def execMatrixRetire (c : Nat) (s : State) : Out := .next ((s.matrixRetire c).getD s)

/-- The next credit that is due on an object of the cell is made (R230, R245). -/
def State.matrixCredit (s : State) (n : Nat) : Option State :=
  let c := s.cellAt n
  let due (k : Credit) : Bool := k.cycle < c.cycle && k.cmd.isNone
  (c.credits.find? due).map fun k => s.putCell ({ c with credits := c.credits.eraseP due }.credit k.obj k.bytes k.bad)

/-- MATRIX_PIECE_CREDIT (R230). -/
def execMatrixPieceCredit (c : Nat) (s : State) : Out := .next ((s.matrixCredit c).getD s)

/-! ## Arithmetic (R232, R235) -/

/-- The exact block sum of a column before its scales: NaN, an infinity, or a finite value. -/
def blockSum (ps : List FVal) : FVal :=
  let bad := ps.any FVal.isNan || (ps.contains (.inf false) && ps.contains (.inf true))
  if bad then .nan false
  else if ps.contains (.inf false) then .inf false
  else if ps.contains (.inf true) then .inf true
  else ps.foldl (fun a p => (addV .rne a p).1) (.fin false 0 0 false)

/-- The scaled block sum of an activation granule and a column (R232, R233). -/
def columnSum (b8 : Bool) (wf af : Fmt) (w : List Byte) (fw : Byte) (a : List Byte) (fa : Byte) : FVal :=
  let width := if b8 then 8 else 16
  let vals (f : Fmt) (x : List Byte) : List FVal :=
    (List.range (256 / width)).map fun k => valueOf (specOf f) (leNat x / 2 ^ (width * k) % 2 ^ width)
  let fa := if b8 then fa else 0x7F
  let fw := if b8 then fw else 0x7F
  if fa = 0xFF || fw = 0xFF then .nan false
  else scaleV (blockSum ((vals wf w).zipWith (fun x y => (mulV x y).1) (vals af a))) ((fa.toNat : Int) + fw.toNat - 254)

/-- A zero sum is +0. -/
def plusZero : FVal → FVal
  | .fin n m e st => .fin (n && m != 0) m e st
  | v => v

/-- rnd(C + S, f32, 0, 0) of R232. -/
def accumulate (c : Nat) (v : FVal) : Nat := (rnd (wideSpec .f32) .rne false 0 (addV .rne (valueOf (wideSpec .f32) c) (plusZero v)).1).1

/-- The four codes of a tile row. -/
def rowCodes (bs : List Byte) : List Nat := (List.range 4).map fun n => leNat ((bs.drop (4 * n)).take 4)

/-! ## Accesses of one cycle (R229 to R235) -/

namespace Cell

/-- A LOCAL range lies below the size. -/
def inLocal (c : Cell) (o n : Nat) : Bool := o + n ≤ c.localSize

/-- A matrix access to LOCAL succeeds: it lies below the size and meets no uncorrectable error (R230). -/
def mfine (c : Cell) (o n : Nat) : Bool := c.inLocal o n && !c.localError o n

def mread (c : Cell) (o n : Nat) : List Byte := c.mat.read o n

def mwrite (c : Cell) (o : Nat) (bs : List Byte) : Cell := { c with mat := c.mat.write o bs }

/-- A credit to come, 12 cycles after the present one (R230). -/
def creditLater (c : Cell) (o n : Nat) (bad : Bool) : Cell :=
  { c with credits := c.credits ++ [⟨c.cycle + 12, o, n, bad, none⟩] }

/-- `mstr` in cycle `k` after its start. -/
def strCycle (c : Cell) (q : MatCmd) (k obj src tile m : Nat) : Cell × MatCmd :=
  let p := q.period
  let q := if k % p = 0 && k / p < m then
      let r := k / p
      if c.mfine (src + 32 * r) 32 then { q with buf := q.buf ++ [(r, c.lread (src + 32 * r) 32, [c.lsb (src + 32 * r)])] }
      else { q with bad := q.bad ++ [r / 4] }
    else q
  if p + 5 ≤ k && (k - p - 5) % p = 0 && (k - p - 5) / p < m then
    let r := (k - p - 5) / p
    let c := match q.buf.find? fun x => x.1 == r, codeFmt (fieldOf q.fmtWord 0 6), codeFmt (fieldOf q.fmtWord 8 6) with
      | some x, some wf, some af =>
        let base := if q.plane then 0x80 else 0
        let old := rowCodes (c.mread (tile + 16 * r) 16)
        let new := (old.zip (List.range 4)).flatMap fun y =>
          leBytes 4 (accumulate y.1 (columnSum q.b8 wf af (c.mread (base + 32 * y.2) 32) (c.matSb.byte (base / 32 + y.2)) x.2.1 (x.2.2.getD 0 0)))
        c.mwrite (tile + 16 * r) new
      | _, _, _ => c
    let c := if r % 4 = 3 || r + 1 = m then c.creditLater obj (32 * (r % 4 + 1)) (q.bad.contains (r / 4)) else c
    (c, { q with buf := q.buf.filter fun x => x.1 != r })
  else (c, q)

/-- `macz` in cycle `k` after its start. -/
def czCycle (c : Cell) (k tile m : Nat) : Cell :=
  if k < (m + 7) / 8 then
    let a := tile + 128 * k
    let n := min 128 (16 * m - 128 * k)
    { c with mat := c.mat.clear a n, matSb := c.matSb.clear (a / 32) ((a % 32 + n + 31) / 32) }
  else c

/-- Output bytes of a row, or of eight rows, are written: the run they lie in is credited at its last bytes, and its rows cleared then
(R230, R235). DESIGN CHOICE (LOG 46): where a later access of a run fails, the bytes of it that are written already stay, none is written after, and its
rows are not cleared. -/
def output (c : Cell) (q : MatCmd) (obj dst tile size o n : Nat) (bs sb : List Byte) (clr : Bool) : Cell × MatCmd :=
  let run := o / 128
  let first := max dst (128 * run)
  let over_ := min (dst + size) (128 * run + 128) - first
  let q := if c.inLocal o n && (!c.localError first over_ || !sb.isEmpty) then q else { q with bad := q.bad ++ [run] }
  let bad := q.bad.contains run
  let c := if bad then c else if sb.isEmpty then c.lwrite o bs else c.lwriteSb o bs sb
  if (o + n) % 128 = 0 || o + n = dst + size then
    let z := o + n - first
    let per := n / (if sb.isEmpty then 1 else 8)
    let r0 := (first - dst) / per
    let c := if clr && !bad then { c with mat := c.mat.clear (tile + 16 * r0) (16 * (z / per)) } else c
    (c.creditLater obj z bad, q)
  else (c, q)

/-- `macrd` in cycle `k` after its start. -/
def rdCycle (c : Cell) (q : MatCmd) (k obj dst tile m : Nat) (f : BitVec 6) (quant clr : Bool) (rm : Rm) (sat : Bool) : Cell × MatCmd :=
  let q := if k < m then { q with buf := q.buf ++ [(k, c.mread (tile + 16 * k) 16, [])] } else q
  let row (r : Nat) : List Nat := rowCodes (((q.buf.find? fun x => x.1 == r).map fun x => x.2.1).getD (zeros 16))
  match codeFmt f.toNat with
  | none => (c, q)
  | some t =>
    let sp := specOf t
    let w := outRow f.toNat
    if quant then
      if 17 ≤ k && (k - 17) % 8 = 0 && (k - 17) / 8 < m / 8 then
        let j := (k - 17) / 8
        let vals := ((List.range 8).flatMap fun i => row (8 * j + i)).map (valueOf (wideSpec .f32))
        let sc := blockScale sp vals
        let codes := vals.map fun v => BitVec.ofNat 8 (rnd sp rm sat 0 (scaleV v (-sc))).1
        c.output q obj dst tile (w * m) (dst + 32 * j) 32 codes [BitVec.ofInt 8 (sc + 127)] clr
      else (c, q)
    else if 2 ≤ k && k - 2 < m then
      let r := k - 2
      let bs := (row r).flatMap fun x =>
        leBytes (w / 4) (if w = 16 then x else (rnd sp rm sat 0 (valueOf (wideSpec .f32) x)).1)
      c.output q obj dst tile (w * m) (dst + w * r) w bs [] clr
    else (c, q)

/-- LOCAL banks that the stream port reaches in the present cycle. -/
def streamBanks (c : Cell) : List Nat := c.mq.filterMap fun q => (q.streamOff c.cycle).map (· / 4096)

/-- LOCAL banks that the matrix engine reaches in the present cycle (R229). -/
def matrixBanks (c : Cell) : List Nat :=
  c.streamBanks ++ (c.mq.filterMap fun q => (q.loadOff c.cycle).map (· / 4096))

/-- `mlds` in its access `g`: the stream port goes first at a bank (R229). -/
def ldsCycle (c : Cell) (q : MatCmd) (g obj src : Nat) : Cell × MatCmd :=
  if 4 ≤ g then (c, q)
  else
    let o := src + 32 * g
    let ok := c.mfine o 32
    if c.streamBanks.contains (o / 4096) then (c, { q with slip := q.slip + 1 })
    else
      let q := if ok then { q with buf := q.buf ++ [(g, c.lread o 32, [c.lsb o])] } else { q with bad := [0] }
      if g < 3 then (c, q)
      else
        let base := if q.plane then 0 else 0x80
        let c := if q.bad.isEmpty then
            { c with mat := c.mat.write base (q.buf.flatMap fun x => x.2.1),
                     matSb := c.matSb.write (base / 32) (q.buf.flatMap fun x => x.2.2) }
          else c
        (c.creditLater obj 128 (!q.bad.isEmpty), q)

/-- One command's accesses in the present cycle. -/
def matAccess (c : Cell) (q : MatCmd) : Cell × MatCmd :=
  match q.start with
  | none => (c, q)
  | some t =>
    let k := c.cycle - t
    match q.op with
    | .mlds obj src => c.ldsCycle q (k - q.slip) obj src
    | .mstr obj src tile m => c.strCycle q k obj src tile m
    | .macz tile m => (c.czCycle k tile m, q)
    | .macrd obj dst tile m f quant clr rm sat => c.rdCycle q k obj dst tile m f quant clr rm sat
    | _ => (c, q)

/-- The matrix engine's accesses in the present cycle, the stream port's first (R229). -/
def matrixCycle (c : Cell) : Cell :=
  let go (load : Bool) (c : Cell) : Cell :=
    match c.mq.find? fun q => q.start.isSome && q.usesLoad == load with
    | none => c
    | some q =>
      let r := c.matAccess q
      { r.1 with mq := mapFirst (fun x => x.start.isSome && x.usesLoad == load) (fun _ => r.2) r.1.mq }
  go true (go false c)

end Cell

/-- The next granule of a piece meets no matrix access to its bank in this cycle (R229). -/
def Cell.bankFree (c : Cell) (a : Nat) : Bool := !c.matrixBanks.contains (a / 4096)

/-! ## LOCAL relocation (R48) -/

/-- The matrix engine leaves free the bank of a granule that a relocation copies (R229). -/
def Cell.moveFree (c : Cell) (r : Rediv) (g : Nat) : Bool :=
  match r.moves[g / 128]? with
  | some p => c.bankFree (4096 * c.bankIndex p.1)
  | none => true

/-- One granule of a LOCAL bank is copied to its target, once every copy command that had started has retired, and while the matrix engine
leaves the bank's port free (R48, R229). The offsets' bytes stay where they are: both banks hold them until the switch. -/
def State.relocate (s : State) (n : Nat) : Option State :=
  let c := s.cellAt n
  match c.rediv with
  | some r => match r.phase with
    | .relocate g =>
      if c.cq.any (·.started) || !c.moveFree r g then none
      else
        let phase := if g + 1 < 128 * r.moves.length then .relocate (g + 1) else r.afterMoves
        some (s.putCell { c with rediv := some { r with phase := phase } })
    | _ => none
  | none => none

/-- LOCAL_RELOCATION (R48). -/
def execLocalRelocation (c : Nat) (s : State) : Out := .next ((s.relocate c).getD s)

/-! ## `mstat` and `mwait` (R236, R237) -/

/-- A command of slot `k` has not retired. -/
def Cell.owns (c : Cell) (k : Slot) : Bool := c.mq.any fun q => q.slot == k

def execMstat (d : Reg) (s : State) : Out :=
  s.cellOnly <| s.withRegs [d] [] <|
    let c := s.cell
    s.writeS d (BitVec.ofNat 64 (c.mUsed + 4 * boolNat c.loadBusy + 8 * boolNat c.streamBusy + 16 * boolNat c.narrow +
      32 * boolNat (c.owns c.slot) + 2 ^ 16 * fieldOf c.fmtWord 0 6 + 2 ^ 24 * fieldOf c.fmtWord 8 6))

/-- `mwait` (R237). -/
def execMwait (s : State) : Out := s.cellOnly (if s.cell.owns s.cell.slot then s.reissue else s.finish)

end Sys2Proof.Machine
end

