-- ==== Sys2Proof/Machine/Copy.lean ====
section
/-! DEFINITION. The copy engine: tile copies, pushes to peers, packed blocks (R109 to R112, R240 to R247, R386). -/

namespace Sys2Proof.Machine

/-! ## Copy descriptors (R241) -/

/-- Fields of the eight words of a copy descriptor. -/
structure Tile where
  kind : Nat
  gran : Bool
  mc   : Bool
  mask : Nat
  sub  : IWord
  src  : Nat
  dst  : Nat
  n0   : Nat
  n1   : Nat
  n2   : Nat
  ss1  : Nat
  ss2  : Nat
  ds1  : Nat
  ds2  : Nat
  deriving DecidableEq, Repr

def tileOf (ws : List Word) : Tile :=
  let w (i : Nat) : Word := ws.getD i 0
  let kind := fieldOf (w 0) 0 2
  let mc := (w 0).getLsbD 3
  { kind := kind, gran := (w 0).getLsbD 2, mc := mc, mask := fieldOf (w 0) 16 16, sub := BitVec.ofNat 32 (fieldOf (w 0) 32 32),
    src := (w 1).toNat, dst := if kind = 2 && !mc then (peerRef (w 2)).off else (w 2).toNat,
    n0 := fieldOf (w 3) 0 32, n1 := fieldOf (w 3) 32 16, n2 := fieldOf (w 3) 48 16,
    ss1 := (w 4).toNat, ss2 := (w 5).toNat, ds1 := (w 6).toNat, ds2 := (w 7).toNat }

/-- Targets of a copy: one, or as many as the mask has bits set (R242). -/
def Tile.targets (t : Tile) : Nat := if t.mc then popN 16 t.mask else 1

/-- Bytes the sender's object expects (R242). -/
def Tile.total (t : Tile) : Nat := t.n0 * t.n1 * t.n2 * t.targets

/-- The descriptor keeps its limits and its reserved bits are zero (R241). -/
def Tile.legal (t : Tile) (w0 : Word) : Bool :=
  let g := subgroup t.sub
  t.kind != 3 && fieldOf w0 4 12 == 0 && (!t.mc || t.kind == 2) &&
  (if t.mc then
     t.mask != 0 && g.lw + g.lh ≤ 4 && t.mask < 2 ^ (2 ^ (g.lw + g.lh)) && g.ox % 2 ^ g.lw == 0 && g.oy % 2 ^ g.lh == 0 &&
     t.sub.toNat / 2 ^ 26 == 0
   else t.mask == 0 && t.sub == 0) &&
  1 ≤ t.n0 && t.n0 ≤ 2 ^ 24 && 1 ≤ t.n1 && 1 ≤ t.n2 && t.total ≤ 2 ^ 31 &&
  (!t.gran || (t.src % 32 == 0 && t.dst % 32 == 0 && t.n0 % 32 == 0 && t.ss1 % 32 == 0 && t.ss2 % 32 == 0 && t.ds1 % 32 == 0 &&
    t.ds2 % 32 == 0))

/-- Team coordinates of the targets, in mask order (R101, R111). -/
def Tile.cells (t : Tile) (w2 : Word) : List (Nat × Nat) :=
  if t.mc then
    let g := subgroup t.sub
    ((List.range 16).filter fun j => t.mask / 2 ^ j % 2 == 1).map fun j => (g.ox + j % 2 ^ g.lw, g.oy + j / 2 ^ g.lw)
  else [((peerRef w2).tx, (peerRef w2).ty)]

/-- The peer reference, or the sub-rectangle, names cells of the team alone (R56, R242). DESIGN CHOICE (LOG 46): a multicast whose subgroup word is
illegal takes the traps of R242, and not the illegal-instruction trap of R57. -/
def State.targetsIn (s : State) (t : Tile) (w2 : Word) : Bool :=
  match s.launchOf s.cell with
  | none => false
  | some l =>
    if t.mc then
      let g := subgroup t.sub
      g.ox + 2 ^ g.lw ≤ 2 ^ l.lw && g.oy + 2 ^ g.lh ≤ 2 ^ l.lh
    else s.peerLegal w2

/-! ## Entry (R242) -/

/-- The command of the issuing hart, at its entry. -/
def State.copyCmd (s : State) (op : CopyOp) (obj : Nat) : CopyCmd :=
  { id := s.cmdNo, slot := s.cell.slot, asid := s.asid, level := s.hart.level, op := op, obj := obj, entered := s.cell.cycle,
    started := false, run := 0, pos := 0, portTo := 0, got := 0, buf := [], sb := [], bad := false, failed := false,
    owner := s.hart.task.map fun t => (t.launch, t.node, t.attempt), serving := s.cell.serving,
    after := s.releases.1, upto := s.releases.2 }

/-- A copy command of the issuing hart: it waits for an entry, or makes its checks and enters with its expectation (R24, R242). The
descriptor bytes read at the first issue go with it. -/
def State.copyIssue (s : State) (i : Instr) (ss : List Reg) (checks : List Byte → List (Bool × Cause × Word)) (read : List Byte)
    (inReplay : List Byte → Bool) (op : List Byte → CopyOp) (obj : Word) (total : List Byte → Nat) : Out :=
  s.cellOnly <| s.withRegs ss [] <|
    if s.queued s.cell.cresv s.cell.cclosed then .next s
    else
      let k := s.cell.slot
      let bs := if s.hart.waits .queue then s.hart.buf else read
      match firstFail (checks bs) with
      | some (c, v) => (s.mapCell fun c => c.leaveQueues k).trap c v
      | none =>
        if inReplay bs && s.hart.replay then
          .next ((s.mapCell fun c => c.leaveQueues k).mapHart fun h => h.endTask (.failed 0x23 0))
        else if s.cell.mayEnterC k then
          let cmd := s.copyCmd (op bs) obj.toNat
          let s := { s with cmdNo := s.cmdNo + 1 }
          (s.mapCell fun c =>
            { c with cq := c.cq ++ [cmd], cresv := c.cresv.filter (· != k) }.expect obj.toNat (total bs)).finish
        else
          ((s.mapCell fun c => { c with cwait := c.cwait ++ [k] }).mapHart fun h => { h with buf := bs }).waitOn .queue i

/-- `tcopy` (R241, R242). DESIGN CHOICE (LOG 46): where two operands fail one row of R242, the trap value is the descriptor's offset before the
object's; `tpack` and `tunpk` take the object's before the LOCAL offset. -/
def execTcopy (d a b : Reg) (s : State) : Out :=
  let o := s.hart.S d
  let x := s.hart.S a
  let r := s.hart.S b
  s.copyIssue (.tcopy d a b) [d, a, b]
    (fun bs =>
      let ws := leWords bs
      let t := tileOf ws
      let w2 := ws.getD 2 0
      [(x.toNat % 64 != 0, .misaligned, x), (o.toNat % 16 != 0, .misaligned, o),
       (s.cell.localSize < x.toNat + 64, .access, x), (s.cell.localSize < o.toNat + 16, .access, o),
       (!t.legal (ws.getD 0 0), .engine, x),
       (t.kind == 2 && r.toNat % 16 != 0, .misaligned, r),
       (t.kind == 2 && !s.targetsIn t w2, .access, if t.mc then x else w2)])
    (s.cell.lread x.toNat 64)
    (fun bs => (tileOf (leWords bs)).kind == 1)
    (fun bs => .tile (leWords bs) r.toNat)
    o (fun bs => (tileOf (leWords bs)).total)

/-- Fields of the pack operand (R246). -/
def packLoc (w : Word) : Nat := fieldOf w 0 17
def packCount (w : Word) : Nat := fieldOf w 32 16

/-- `tpack` and `tunpk` (R246). DESIGN CHOICE (LOG 46): of two operands that fail one row, the object's offset is the trap value. -/
def packIssue (i : Instr) (un : Bool) (f : StFmt) (d a b : Reg) (s : State) : Out :=
  let o := s.hart.S d
  let x := s.hart.S a
  let w := s.hart.S b
  s.copyIssue i [d, a, b]
    (fun _ =>
      [(o.toNat % 16 != 0, .misaligned, o), (packLoc w % 32 != 0, .misaligned, BitVec.ofNat 64 (packLoc w)),
       (s.cell.localSize < o.toNat + 16, .access, o),
       (packCount w != 0 && s.cell.localSize < packLoc w + 32 * packCount w, .access, BitVec.ofNat 64 (packLoc w)),
       (fieldOf w 17 15 != 0 || fieldOf w 48 16 != 0 || packCount w == 0, .engine, w)])
    [] (fun _ => !un) (fun _ => .pack f un x.toNat (packLoc w) (packCount w)) o (fun _ => blockBytes f * packCount w)

/-- `tpack` (R247). -/
def execTpack (f : StFmt) (d a b : Reg) (s : State) : Out := packIssue (.tpack f d a b) false f d a b s

/-- `tunpk` (R247). -/
def execTunpk (f : StFmt) (d a b : Reg) (s : State) : Out := packIssue (.tunpk f d a b) true f d a b s

/-! ## Pieces (R110, R243) -/

namespace CopyCmd

/-- Every piece has been issued. -/
def allIssued (q : CopyCmd) : Bool :=
  match q.op with
  | .tile ws _ => (tileOf ws).n1 * (tileOf ws).n2 ≤ q.run
  | .pack _ _ _ _ n => n ≤ q.run

/-- Source, destination and bytes of the next piece of a tile copy (R110, R241). -/
def piece (q : CopyCmd) (t : Tile) : Nat × Nat × Nat :=
  let j2 := q.run / t.n1
  let j1 := q.run % t.n1
  let d := (t.dst + j2 * t.ds2 + j1 * t.ds1 + q.pos) % 2 ^ 64
  ((t.src + j2 * t.ss2 + j1 * t.ss1 + q.pos) % 2 ^ 64, d, Nat.min (t.n0 - q.pos) (128 - d % 128))

/-- The cursor after a piece. -/
def advance (q : CopyCmd) (n n0 : Nat) : CopyCmd :=
  if q.pos + n < n0 then { q with pos := q.pos + n } else { q with run := q.run + 1, pos := 0 }

/-- The LOCAL bytes the next piece reads through the engine port: the first offset and how many (R243). -/
def source (q : CopyCmd) : Nat × Nat :=
  match q.op with
  | .tile ws _ =>
    let t := tileOf ws
    if t.kind = 0 then (0, 0) else ((q.piece t).1, (q.piece t).2.2)
  | .pack _ un _ loc _ => if un then (0, 0) else (loc + 32 * q.run, 32)

/-- The command after its next piece. -/
def step (q : CopyCmd) : CopyCmd :=
  let q' := { q with got := 0, buf := [], sb := [], bad := false }
  match q.op with
  | .tile ws _ => q'.advance (q.piece (tileOf ws)).2.2 (tileOf ws).n0
  | .pack _ _ _ _ _ => { q' with run := q.run + 1 }

end CopyCmd

/-- Granules that a range touches, and the bytes of the range in its `i`-th one: the first and how many. -/
def granules (a n : Nat) : Nat := (a % 32 + n + 31) / 32
def granuleAt (a n i : Nat) : Nat × Nat :=
  let lo := Nat.max a ((a / 32 + i) * 32)
  (lo, Nat.min (a + n) ((a / 32 + i + 1) * 32) - lo)

/-- A piece not yet credited of a command. -/
def pieceOf (q : CopyCmd) (size : Nat) (st : Flight) (fault : Option (Cause × Nat)) : Push :=
  { cmd := q.id, id := 0, obj := q.obj, size := size, cell := 0, tx := 0, ty := 0, serving := q.serving, off := 0, bytes := [], sb := [],
    robj := 0, state := st, wrote := 0, ready := 0, fault := fault }

/-- An access of a command, to bytes of one line (R109). -/
def CopyCmd.miss (q : CopyCmd) (n : Nat) (out replay : Bool) (p : Nat × Nat) : Miss :=
  { id := 0, sort := .bulkLine, agent := .cell n, slot := q.slot, kind := if out then .pieceOut else .pieceIn, asid := q.asid, level := q.level,
    va := p.1, size := p.2, words := 0, task := if replay then q.owner else none, phase := .out }

/-- The accesses of a piece leave: the piece that waits for their answers (R243, R320). -/
def State.askPiece (s : State) (n : Nat) (q : CopyCmd) (out : Bool) (size : Nat) (ps : List (Nat × Nat)) : Push × State :=
  (pieceOf q size (.asked ((List.range ps.length).map (s.cmdNo + ·))) none,
   ps.foldl (fun s p => s.sendMiss (s.cellAt n).missLeaves (q.miss n out (s.hartAt n q.slot).replay p)) s)

/-- A piece that fails at its issue. -/
def State.badPiece (s : State) (n : Nat) (q : CopyCmd) (size : Nat) : Push :=
  { pieceOf q size (.done true) none with ready := (s.cellAt n).cycle }

/-- A piece of kind 0: its global bytes are read, and come to the cell's LOCAL (R243). -/
def State.pieceIn (s : State) (n : Nat) (q : CopyCmd) (t : Tile) : List Push × State :=
  let (src, dst, k) := q.piece t
  let r := s.askPiece n q false k (linePieces src k)
  ([{ r.1 with off := dst }], r.2)

/-- A piece of kind 1: the LOCAL bytes it has read are stored to a global line (R243). -/
def State.pieceOut (s : State) (n : Nat) (q : CopyCmd) (t : Tile) : List Push × State :=
  let (_, dst, k) := q.piece t
  if q.bad then ([s.badPiece n q k], s)
  else
    let r := s.askPiece n q true k [(dst, k)]
    ([{ r.1 with bytes := q.buf, sb := if t.gran then q.sb else [] }], r.2)

/-- A piece of kind 2: the LOCAL bytes it has read travel to every target in one packet, to the cell itself without one (R318, R389). A
target whose team is not placed fails it at once (R245, R386). -/
def State.piecePeer (s : State) (n : Nat) (q : CopyCmd) (t : Tile) (w2 : Word) (robj : Nat) : List Push × State :=
  let (_, dst, k) := q.piece t
  let bad := s.badPiece n q k
  let sb := if t.gran then q.sb else []
  let ps := (t.cells w2).map fun x =>
    match q.serving.bind fun v => s.teamCell v.launch v.team x.1 x.2 with
    | none => bad
    | some m =>
      if q.bad then bad
      else { pieceOf q k (if m = n then .peer else .travel) none with
        id := s.cmdNo, cell := m, tx := x.1, ty := x.2, off := dst, bytes := q.buf, sb := sb, robj := robj, ready := (s.cellAt n).cycle }
  let far := (ps.filter fun p => p.state == .travel).map (·.cell)
  let p := s.packetFrom s.cmdNo .piece (k + sb.length) (q.serving.map fun v => (v.launch, v.team)) n far
  (ps, { (if far.isEmpty then s else s.sendPacket p (s.cellAt n).begins) with cmdNo := s.cmdNo + 1 })

/-- One block of `tunpk`: its global bytes are read whole, and the widened granule comes to LOCAL (R247). -/
def State.blockIn (s : State) (n : Nat) (q : CopyCmd) (f : StFmt) (addr loc : Nat) : List Push × State :=
  let z := blockBytes f
  let r := s.askPiece n q false z (linePieces ((addr + q.run * z) % 2 ^ 64) z)
  ([{ r.1 with off := loc + 32 * q.run }], r.2)

/-- One block of `tpack`: the granule it has read is narrowed and stored whole, its destination's sideband unchanged (R247). -/
def State.blockOut (s : State) (n : Nat) (q : CopyCmd) (f : StFmt) (addr : Nat) : List Push × State :=
  let z := blockBytes f
  if q.bad then ([s.badPiece n q z], s)
  else
    let r := s.askPiece n q true z (linePieces ((addr + q.run * z) % 2 ^ 64) z)
    ([{ r.1 with bytes := packCodes f q.buf ++ q.sb }], r.2)

/-- The pieces, and the state, that the next access of a command gives. -/
def State.nextPiece (s : State) (n : Nat) (q : CopyCmd) : List Push × State :=
  match q.op with
  | .tile ws robj =>
    let t := tileOf ws
    if t.kind = 0 then s.pieceIn n q t
    else if t.kind = 1 then s.pieceOut n q t
    else s.piecePeer n q t (ws.getD 2 0) robj
  | .pack f un addr loc _ => if un then s.blockIn n q f addr loc else s.blockOut n q f addr

/-! ## Answers to a command's accesses (R112, R243, R244) -/

/-- The accesses of a piece with their answers, once all of them have come. -/
def State.pieceMisses (s : State) (p : Push) : Option (List (Miss × Nat × Got)) :=
  match p.state with
  | .asked ids => ids.mapM fun i => (s.mem.misses.find? fun m => m.id == i).bind fun m => match m.phase with
    | .come t r => some (m, t, r)
    | _ => none
  | _ => none

/-- The bytes and the sideband that a command's answers bring to LOCAL (R243, R247). -/
def CopyCmd.brought (q : CopyCmd) (xs : List (Miss × Nat × Got)) : List Byte × List Byte :=
  let ys := xs.map fun x => x.2.2.slice x.1.va x.1.size
  let bs := ys.flatMap Prod.fst
  match q.op with
  | .tile ws _ => (bs, if (tileOf ws).gran then ys.flatMap Prod.snd else [])
  | .pack f _ _ _ _ => (unpackCodes f (bs.take (blockBytes f - 1)), bs.drop (blockBytes f - 1))

/-- The address that a failed access of a command is reported for: the piece's first byte, or the faulting part of a packed block; an attempt that parks
does so on the faulting page (R67, R244). -/
def CopyCmd.reports (q : CopyCmd) (c : Cause) (first : Nat) (m : Miss) : Cause × Nat :=
  match q.op with
  | .tile _ _ => (c, if c == .page && m.task.isSome then m.va else first)
  | .pack _ _ _ _ _ => (c, m.va)

/-- The stores of a piece that every page takes, performed in order; `none` while one of them waits. -/
def State.storeParts (s : State) (n : Nat) : List Miss → List Byte → List Byte → Option State
  | [], _, _ => some s
  | m :: ms, bs, sb => match s.writePiece (.cell n) m.asid m.level m.va (bs.take m.size) sb with
    | (.wait, _) => none
    | (_, t) => t.storeParts n ms (bs.drop m.size) []

/-- The first access of a piece whose page does not take its store now. -/
def State.storesBad (s : State) (ms : List Miss) : Option (Cause × Miss) :=
  ms.findSome? fun m => (s.storeAt m.asid m.level m.va).1.cause.map fun c => (c, m)

/-- All accesses of a piece are answered: its data come, or are stored, or it is bad (R243, R244). The stores of one command are performed in the order
of their pieces. -/
def State.pieceAnswer (s : State) (n : Nat) (p : Push) : Option State :=
  (s.pieceMisses p).bind fun xs => ((s.cellAt n).cq.find? fun q => q.id == p.cmd).bind fun q =>
    let ms := xs.map Prod.fst
    let at_ := (s.cellAt n).cycleFrom ((xs.map fun x => x.2.1).foldl max 0)
    let first := (ms.head?.map (·.va)).getD 0
    let put (s : State) (f : Push → Push) : State :=
      let s := ms.foldl State.dropMiss s
      let c := s.cellAt n
      s.putCell { c with pushes := mapFirst (· == p) f c.pushes }
    let fails (s : State) (c : Cause) (m : Miss) : State :=
      put s fun x => { x with state := .done true, bytes := [], sb := [], ready := at_, fault := some (q.reports c first m) }
    match xs.findSome? fun x => x.2.2.fault.map fun c => (c, x.1) with
    | some (c, m) =>
      some (fails s c m)
    | none =>
      if ms.all fun m => m.kind == .pieceIn then
        some (put s fun x => { x with state := .own, bytes := (q.brought xs).1, sb := (q.brought xs).2, ready := at_ + 2 })
      else match s.storesBad ms with
        | some (c, m) => some (fails (if c == .page then s.recordFault n q.slot q.asid (m.va / 65536) 3 true m.task.isNone m.task.isSome else s) c m)
        | none => (s.storeParts n ms p.bytes p.sb).map fun s =>
          put s fun x => { x with state := .done false, bytes := [], sb := [], ready := at_ }

/-- A piece waits for its answers. -/
def Push.waits (p : Push) : Bool :=
  match p.state with
  | .asked _ => true
  | _ => false

/-- The next piece of a cell whose accesses are answered: the first of its command's. -/
def State.copyAnswer (s : State) (n : Nat) : Option State :=
  let c := s.cellAt n
  c.pushes.findSome? fun p => if (c.pushes.find? fun q => q.cmd == p.cmd && q.waits) == some p then s.pieceAnswer n p else none

/-! ## The engine's events (R243 to R245) -/

/-- No command starts while a relocation copies (R48). -/
def Cell.relocating (c : Cell) : Bool :=
  match c.rediv with
  | some r => match r.phase with
    | .relocate _ => true
    | _ => false
  | none => false

/-- The next command starts in the cycle after the previous one has issued its last piece (R243). -/
def State.copyStart (s : State) (n : Nat) : Option State :=
  let c := s.cellAt n
  match c.cq.find? fun q => !q.started with
  | none => none
  | some q =>
    let free := c.cq.all fun r => !r.started || r.allIssued
    if free && c.cfree ≤ c.cycle && q.entered < c.cycle && !c.relocating then
      some (s.putCell { c with cq := mapFirst (fun r => !r.started) (fun r => { r with started := true, portTo := c.cycle - 1 }) c.cq })
    else none

/-- COPY_START (R243). -/
def execCopyStart (c : Nat) (s : State) : Out := .next ((s.copyStart c).getD s)

/-- A command changed, by its number. -/
def Cell.mapCmd (c : Cell) (id : Nat) (f : CopyCmd → CopyCmd) : Cell :=
  { c with cq := c.cq.map fun x => if x.id == id then f x else x }

/-- The running command. -/
def Cell.running (c : Cell) : Option CopyCmd := c.cq.find? fun q => q.started && !q.allIssued

/-- The cells that a multicast names (R111). -/
def State.castCells (s : State) (q : CopyCmd) : List Nat :=
  match q.op, q.serving with
  | .tile ws _, some v =>
    let t := tileOf ws
    if t.mc then (t.cells (ws.getD 2 0)).filterMap fun x => s.teamCell v.launch v.team x.1 x.2 else []
  | _, _ => []

/-- Some piece of a command is not yet written at its target. -/
def Cell.flying (c : Cell) (id : Nat) : Bool := c.pushes.any fun p => p.cmd == id && (p.state == .travel || p.state == .peer)

/-- A multicast that has not begun waits for every one that has and names a cell in common, so that tiles arrive whole (R111, LOG 1). -/
def State.castWaits (s : State) (q : CopyCmd) : Bool :=
  q.run == 0 && q.pos == 0 && (s.castCells q).any fun m =>
    s.cells.any fun c => c.cq.any fun r =>
      r.id != q.id && (s.castCells r).contains m && (r.run != 0 || r.pos != 0) && (!r.allIssued || c.flying r.id)

/-- The port of cell `n` has no piece that waits to enter the network (R389). -/
def State.portClear (s : State) (n : Nat) : Bool := !s.net.sends.any fun p => p.1.kind == .piece && p.1.src == portOf n

/-- The running command issues its next piece, in the cycle after its last granule has been read (R243, R389); the engine is held to this cycle
where it is the command's last, or where it read none. -/
def State.pieceIssue (s : State) (n : Nat) : Option State :=
  let c := s.cellAt n
  match c.running with
  | none => none
  | some q =>
    if c.cycle ≤ q.portTo || q.got < granules q.source.1 q.source.2 || !c.follows q.slot q.after q.upto ||
        (q.op.pushes && (!s.portClear n || s.castWaits q)) then none
    else
      let r := s.nextPiece n q
      let c := r.2.cellAt n
      let held (x : CopyCmd) : CopyCmd := { x with portTo := if q.source.2 = 0 || x.allIssued then c.cycle else x.portTo }
      let cfree := if q.step.allIssued then c.cycle + 1 else c.cfree
      some (r.2.putCell ({ c with pushes := c.pushes ++ r.1, cfree := cfree }.mapCmd q.id fun _ => held q.step))

/-- The running command moves packed blocks. -/
def Cell.packing (c : Cell) : Bool :=
  match c.running with
  | some q => match q.op with
    | .pack _ _ _ _ _ => true
    | _ => false
  | none => false

/-- COPY_PIECE_ISSUE: the engine issues one piece of a tile copy (R243). -/
def execCopyPieceIssue (c : Nat) (s : State) : Out :=
  .next (if (s.cellAt c).packing then s else (s.pieceIssue c).getD s)

/-- PACK_BLOCK: the engine moves one packed block (R247). -/
def execPackBlock (c : Nat) (s : State) : Out :=
  .next (if (s.cellAt c).packing then (s.pieceIssue c).getD s else s)

/-! ## Writes and reads through the engine port (R229, R243, R389) -/

/-- The bytes of a piece that its next granule takes, written in LOCAL; a byte-mode piece leaves the sideband (R110). -/
def Cell.writeGranule (c : Cell) (p : Push) : Cell :=
  let g := granuleAt p.off p.bytes.length p.wrote
  let bs := (p.bytes.drop (g.1 - p.off)).take g.2
  if p.sb.isEmpty then c.lwrite g.1 bs else c.lwriteSb g.1 bs [p.sb.getD p.wrote 0]

/-- The piece's LOCAL range lies below the size, and a write of part of a granule meets no uncorrectable error (R115). -/
def Cell.takesPiece (c : Cell) (p : Push) : Bool :=
  p.off + p.bytes.length ≤ c.localSize && (!p.sb.isEmpty || !c.localError p.off p.bytes.length)

/-- So does the push's receive object (R40, R244). -/
def Cell.takesPush (c : Cell) (p : Push) : Bool := c.takesPiece p && p.robj % 16 == 0 && c.objOk p.robj

/-- The granule that is written next is the last of the piece. -/
def Push.lastWrite (p : Push) : Bool := granules p.off p.bytes.length ≤ p.wrote + 1

/-- A push is changed in the cell that holds it: the first that equals it. -/
def State.mapPush (s : State) (src : Nat) (p : Push) (f : Push → Push) : State :=
  let c := s.cellAt src
  s.putCell { c with pushes := mapFirst (· == p) f c.pushes }

/-- The cell that serves a piece's team at its coordinates now (R386). -/
def State.pushTarget (s : State) (p : Push) : Option Nat :=
  p.serving.bind fun v => (s.teamCell v.launch v.team p.tx p.ty).bind fun m =>
    match (s.cellAt m).serving with
    | some w => if w.launch == v.launch && w.team == v.team then some m else none
    | none => none

/-- The push that cell `m` writes now: the one it has begun, else the one that came first; with the cell that holds it. -/
def State.pushFor (s : State) (m : Nat) : Option (Nat × Push) :=
  let mine := s.cells.flatMap fun c => (c.pushes.filter fun p =>
    p.state == .peer && p.cell == m && p.ready ≤ (s.cellAt m).cycle && s.pushTarget p == some m).map fun p => (c.no, p)
  let rank (p : Push) : Nat := if p.wrote = 0 then p.ready + 1 else 0
  match mine with
  | [] => none
  | x :: xs => some (xs.foldl (fun a b => if rank b.2 < rank a.2 then b else a) x)

/-- A push has been disposed of at cell `m`: it leaves the cell's input, and its credit goes back to its sender (R388, R389). The cell's own
piece is credited without the network (R318). -/
def State.pushDone (s : State) (src m : Nat) (p : Push) (bad : Bool) : State :=
  if src = m then s.mapPush src p fun x => { x with state := .done bad, bytes := [], sb := [], ready := (s.cellAt m).cycle }
  else
    let s := (s.takeOut m p.id).mapPush src p fun x => { x with state := .credit bad, bytes := [], sb := [] }
    s.sendPacket (s.packetFrom p.id .pieceCredit 0 none m [src]) (s.cellAt m).begins

/-- A push is performed at its target, a granule a cycle: bytes first, the receive object with the last of them (R245, R389). -/
def State.pushPerform (s : State) (m : Nat) : Option State :=
  (s.pushFor m).bind fun x =>
    let c := s.cellAt m
    let p := x.2
    if !c.takesPush p then some (s.pushDone x.1 m p true)
    else if !c.bankFree (granuleAt p.off p.bytes.length p.wrote).1 then none
    else
      let c' := c.writeGranule p
      if p.lastWrite then some ((s.putCell (c'.credit p.robj p.size false)).pushDone x.1 m p false)
      else some ((s.putCell c').mapPush x.1 p fun y => { y with wrote := y.wrote + 1, ready := c.cycle + 1 })

/-- PUSH_PERFORM: cell `c` writes a granule of a push that has reached it (R245). -/
def execPushPerform (c : Nat) (s : State) : Out := .next ((s.pushPerform c).getD s)

/-! ## Credits and retirement (R243, R244) -/

/-- The command retires with its last credit, its entry goes to the longest waiter, and stores held behind its pushes follow
(R24, R196, R243). -/
def State.copyRetire (s : State) (n : Nat) : State :=
  let c := s.cellAt n
  let gone (q : CopyCmd) : Bool := q.started && q.allIssued && !(c.pushes.any fun p => p.cmd == q.id)
  if c.cq.any gone then
    (s.putCell { c with cq := c.cq.filter fun q => !gone q }.serveQueues).drainCell n
  else s

/-- The command is of a REPLAY attempt that is ending already: nothing more comes of its failures (R67). -/
def Hart.endedFor (h : Hart) (q : CopyCmd) : Bool :=
  match h.task with
  | some t => t.replay && t.ending.isSome && q.owner == some (t.launch, t.node, t.attempt)
  | none => false

/-- The first global-side failure of a command is reported to its hart after the bad credit (R244). -/
def Cell.reportFault (c : Cell) (p : Push) : Cell :=
  match p.fault, c.cq.find? fun q => q.id == p.cmd with
  | some f, some q =>
    if q.failed then c
    else
      let c := c.mapCmd q.id fun x => { x with failed := true }
      let h := c.hart q.slot
      if h.st == .absent || h.endedFor q then c else c.setHart q.slot { h with engErr := h.engErr ++ [f] }
  | _, _ => c

/-- A piece of cell `n` is credited on the sender's object. -/
def State.creditPiece (s : State) (n : Nat) (p : Push) (bad : Bool) : State :=
  let c := s.cellAt n
  (s.putCell (({ c with pushes := c.pushes.eraseP (· == p) }.credit p.obj p.size bad).reportFault p)).copyRetire n

/-- The piece for the cell's own LOCAL that is written next: one that has come, and the first of its command's (R243). -/
def Cell.ownNext (c : Cell) : Option Push :=
  c.pushes.find? fun p => p.state == .own && p.ready ≤ c.cycle && (c.pushes.find? fun q => q.cmd == p.cmd && q.state == .own) == some p

/-- The next granule of a piece that has come for the cell's own LOCAL is written; the piece is credited with its last one, and one
that LOCAL does not take is credited bad (R243, R244). -/
def State.ownWrite (s : State) (n : Nat) : Option State :=
  let c := s.cellAt n
  c.ownNext.bind fun p =>
    if !c.takesPiece p then some (s.creditPiece n p true)
    else if !c.bankFree (granuleAt p.off p.bytes.length p.wrote).1 then none
    else
      let s := s.putCell (c.writeGranule p)
      if p.lastWrite then some (s.creditPiece n p false)
      else some (s.mapPush n p fun x => { x with wrote := x.wrote + 1, ready := c.cycle + 1 })

/-- The oldest piece whose writes are acknowledged is credited; a credit acts from the cycle after its own on (LOG 21). -/
def State.pieceCredit (s : State) (n : Nat) : Option State :=
  let c := s.cellAt n
  c.pushes.findSome? fun p => match p.state with
    | .done b => if p.ready < c.cycle then some (s.creditPiece n p b) else none
    | _ => none

/-- COPY_PIECE_CREDIT: a piece is credited, or the next granule of one for the cell's own LOCAL is written (R243). -/
def execCopyPieceCredit (c : Nat) (s : State) : Out := .next ((s.pieceCredit c <|> s.ownWrite c).getD s)

/-- A granule range meets bytes that an earlier piece of the command has still to write in the same cell: it is read after that (R243). -/
def Cell.overtakes (c : Cell) (q : CopyCmd) (a n : Nat) : Bool :=
  c.pushes.any fun p => p.cmd == q.id && p.cell == c.no && p.state == .peer && p.off < a + n && a < p.off + p.bytes.length

/-- The next granule of the running command's next piece is read (R243). -/
def State.pieceRead (s : State) (n : Nat) : Option State :=
  let c := s.cellAt n
  c.running.bind fun q =>
    let (a, k) := q.source
    let g := granuleAt a k q.got
    if granules a k ≤ q.got || c.cycle ≤ q.portTo || !c.follows q.slot q.after q.upto || c.overtakes q g.1 g.2 || !c.bankFree g.1 then none
    else
      let ok := g.1 + g.2 ≤ c.localSize && !c.localError g.1 g.2
      some (s.putCell (c.mapCmd q.id fun x =>
        { x with got := x.got + 1, portTo := c.cycle, buf := x.buf ++ c.lread g.1 g.2, sb := x.sb ++ [c.lsb g.1], bad := x.bad || !ok }))

/-- What the engine port of a cell does in a cycle beside the matrix engine (R229, R243, R389): a granule of a push; and, in another bank, a
granule of the copy engine's, a write before a read. -/
def State.portCycle (s : State) (n : Nat) : State :=
  let bank (x : Option (Nat × Nat)) : Option Nat := x.map fun g => g.1 / 4096
  let pushed := bank ((s.pushFor n).map fun x => granuleAt x.2.off x.2.bytes.length x.2.wrote)
  let t := (s.pushPerform n).getD s
  let c := t.cellAt n
  let own := c.ownNext.map fun p => granuleAt p.off p.bytes.length p.wrote
  let next := match own with
    | some g => some g
    | none => c.running.map fun q => granuleAt q.source.1 q.source.2 q.got
  if pushed.isSome && pushed == bank next then t
  else if own.isSome then (t.ownWrite n).getD t
  else (t.pieceRead n).getD t

/-! ## Failures (R244) -/

/-- The end of a REPLAY attempt that a copy failure makes (R244, R372). -/
def engineEnd (f : Cause × Nat) : EndKind :=
  match f.1 with
  | .page => .parkOn (f.2 / 65536)
  | .lost => .failed 0x26 0
  | .uncorrectable => .failed 0x22 0
  | _ => .failed 0x21 0

/-- The hart can take what its engines report: no node is on its way to it, and its attempt is not ending (R64, R67). -/
def Hart.takesFaults (h : Hart) : Bool := h.chosen.isNone && !((h.task.map fun t => t.ending.isSome).getD false)

/-- An attempt of the hart's `stfer` is in flight, or its answer, accepted or failed, has come and is taken in the hart's slot (R201). -/
def State.attempting (s : State) (n : Nat) (k : Slot) : Bool :=
  let h := s.hartAt n k
  (s.net.remote.any fun r => r.cell == n && r.slot == k) || (h.st == .wait .remote && (h.req == .answered 1 || h.req == .answered 2))

/-- The wait of hart `k` of cell `n` is abandoned; its misses go on, the fills of a fetch among them (R21, R358). -/
def State.leaveWait (s : State) (n : Nat) (k : Slot) : State := s.putCell ((s.cellAt n).abandon k)

/-- The oldest reported failure acts in the hart's slot (R244), once no attempt of its `stfer` has to be waited for (R201): the attempt of a REPLAY task ends, and any other hart takes the engine-error
trap after its wait, if any, is abandoned. A Spindle's failed replay read gives the field-routine-error trap (R89). DESIGN CHOICE (LOG 46): one
that comes while a node is on its way to the hart, or while its attempt is ending, acts in the first slot after that; and where the hart has sent a
control request (R257), the request goes on, its answer is not for the hart, and the instruction that `eret` issues again sends one of its own. -/
def State.globalFault (s : State) : Option State :=
  if s.isCore || !s.active || !s.hart.takesFaults || s.attempting s.cell.no s.cell.slot then none
  else s.hart.engErr.head?.map fun f =>
    let s := s.leaveWait s.cell.no s.cell.slot
    let s := s.mapHart fun h => { h with engErr := h.engErr.drop 1 }
    if s.hart.replay then s.mapHart fun h => h.endTask (engineEnd f)
    else s.takeTrap (if f.1 == .fieldRoutine then 10 else 9) (BitVec.ofNat 64 f.2) s.hart.pc

/-- COPY_GLOBAL_FAULT: in the slot of a hart of the focused cell (R244). -/
def execCopyGlobalFault (c : Nat) (s : State) : Out :=
  .next (if c = s.cell.no then (s.globalFault).getD s else s)

end Sys2Proof.Machine
end

