-- ==== Sys2Proof/Machine/Fields.lean ====
section
/-! DEFINITION. Random fields: lattices and graphs, declaration, the Spindle, boundaries, snapshots, moves, the end (R75 to R100). -/

namespace Sys2Proof.Machine

/-! ## Descriptors and neighbours (R76 to R81) -/

namespace Field

def topo (f : Field) : Nat := fieldOf (f.word 0) 34 2
def full (f : Field) : Bool := (f.word 0).getLsbD 36
def states (f : Field) : Nat := fieldOf (f.word 0) 40 8
def ncol (f : Field) : Nat := fieldOf (f.word 0) 48 5
def nblk (f : Field) : Nat := fieldOf (f.word 0) 53 2
def replayed (f : Field) : Bool := (f.word 0).getLsbD 55
def ext (f : Field) (axis : Nat) : Nat := fieldOf (f.word 1) (16 * axis) 16
def periodic (f : Field) (axis : Nat) : Bool := (f.word 1).getLsbD (48 + axis)
def init (f : Field) : Nat := (f.word 3).toNat
def rlim (f : Field) : Nat := fieldOf (f.word 11) 32 32

/-- Offsets of the stencil in their order (R78). -/
def offsets (f : Field) : List (Int × Int × Int) :=
  ((List.range 27).map fun k => (Int.subNatNat (k % 3) 1, Int.subNatNat (k / 3 % 3) 1, Int.subNatNat (k / 9) 1)).filter fun d =>
    (f.topo == 1 || d.2.2 == 0) &&
    (if f.full then d != (0, 0, 0) else d.1.natAbs + d.2.1.natAbs + d.2.2.natAbs == 1)

/-- A coordinate moved along an axis; an open axis has no coordinate outside (R78). -/
def move1 (f : Field) (axis x : Nat) (d : Int) : Option Nat :=
  let y := (x : Int) + d
  if 0 ≤ y && y < f.ext axis then some y.toNat
  else if f.periodic axis then some (y % f.ext axis).toNat
  else none

/-- Coordinates of a lattice site (R78). -/
def coords (f : Field) (i : Nat) : Nat × Nat × Nat := (i % f.ext 0, i / f.ext 0 % f.ext 1, i / (f.ext 0 * f.ext 1))

/-- The neighbour places of a site, absent ones kept (R78, R79). -/
def places (f : Field) (i : Nat) : List (Option Nat) :=
  if f.topo = 2 then (f.nbrs.getD i []).map some
  else
    let p := f.coords i
    f.offsets.map fun d =>
      (f.move1 0 p.1 d.1).bind fun x => (f.move1 1 p.2.1 d.2.1).bind fun y => (f.move1 2 p.2.2 d.2.2).map fun z =>
        x + f.ext 0 * (y + f.ext 1 * z)

/-- Colour of a site (R78, R79). -/
def colour (f : Field) (i : Nat) : Nat :=
  if f.topo = 2 then f.cols.getD i 0
  else
    let p := f.coords i
    if f.full then p.1 % 2 + 2 * (p.2.1 % 2) + (if f.topo = 1 then 4 * (p.2.2 % 2) else 0) else (p.1 + p.2.1 + p.2.2) % 2

/-- Colours R78 requires of a lattice. -/
def colours (f : Field) : Nat := if f.full then (if f.topo = 1 then 8 else 4) else 2

/-- Largest number of neighbour places of a site (R87). -/
def maxPlaces (f : Field) : Nat := if f.topo = 2 then (f.nbrs.map List.length).foldl max 0 else f.offsets.length

/-- v slots a sweep hart's views must hold (R87). -/
def vNeed (f : Field) : Nat := (f.maxPlaces * f.size + 63) / 64

/-- A value is legal for the site type (R77). -/
def legalValue (f : Field) (v : Nat) : Bool :=
  if f.stype = 0 then v < 2 else if f.stype = 1 then v ≤ f.states else true

/-- Sites of the colour of a phase, ascending (R82). -/
def phaseSites (f : Field) (p : Nat) : List Nat := (List.range f.n).filter fun i => f.colour i == p % f.ncol

def same (f : Field) (g : Field) : Bool := f.launch == g.launch && f.team == g.team && f.handle == g.handle

end Field

/-- A word of a descriptor lies in its range (R76, R77): check 2 of R81. -/
def Field.inRange (f : Field) (l : Launch) : Bool :=
  let w0 := f.word 0
  let graph := f.topo == 2
  1 ≤ f.n && f.topo != 3 && (!graph || !f.full) && fieldOf w0 37 3 == 0 &&
  (if f.stype = 1 then 1 ≤ f.states else f.states == 0) && 1 ≤ f.ncol && f.ncol ≤ 16 && 1 ≤ f.hsw && f.hsw ≤ 16 &&
  (if graph then f.word 1 == 0
   else 1 ≤ f.ext 0 && 1 ≤ f.ext 1 && 1 ≤ f.ext 2 && (f.topo == 1 || f.ext 2 == 1) && fieldOf (f.word 1) 51 13 == 0) &&
  (f.word 2).toNat % 65536 == 0 &&
  (if graph then (f.word 4).toNat % 4 == 0 && (f.word 5).toNat % 4 == 0 else f.word 4 == 0 && f.word 5 == 0 && f.word 6 == 0) &&
  fieldOf (f.word 8) 48 16 == 0 && (f.word 10).toNat % 8 == 0 && (!f.replayed || 1 ≤ fieldOf (f.word 11) 0 32) &&
  fieldOf (f.word 12) 0 32 % 4 == 0 && fieldOf (f.word 12) 0 32 < l.textSize &&
  f.word 13 == 0 && f.word 14 == 0 && f.word 15 == 0

/-- The placement divides the lattice (R80). -/
def Field.divides (f : Field) : Bool :=
  let g := subgroup f.place
  f.topo == 2 || (f.ext 0 % 2 ^ g.lw == 0 && f.ext 1 % 2 ^ g.lh == 0)

/-! ## Fields of the machine -/

def State.field? (s : State) (id team handle : Nat) : Option Field :=
  s.fields.find? fun f => f.launch == id && f.team == team && f.handle == handle

def State.putField (s : State) (f : Field) : State :=
  { s with fields := s.fields.map fun g => if f.same g then f else g }

/-- The sweep slots of a cell (R84). -/
def Cell.sweepSlots (c : Cell) (hsw : Nat) : List Slot := (List.finRange 16).filter fun k => c.nres ≤ k.val + hsw && k.val < c.nres

/-- A sweep hart in PARK through `waitw`, with no task and chosen for none, parks for the Spindle; the converse when it is freed
(R99, R314). -/
def Cell.bindSweep (c : Cell) (hsw : Nat) (on : Bool) : Cell :=
  (c.sweepSlots hsw).foldl (fun c k =>
    let h := c.hart k
    if on then (if h.st == .park false && h.task.isNone && h.chosen.isNone && !h.stopped then c.setHart k { h with st := .park true } else c)
    else if h.st == .park true then c.setHart k { h with st := .park false } else c) c

def State.bindSweeps (s : State) (cells : List Nat) (hsw : Nat) (on : Bool) : State :=
  cells.foldl (fun s n => s.putCell ((s.cellAt n).bindSweep hsw on)) s

/-- Every sweep hart's views hold 9 s slots and the v slots a hand needs (R87). -/
def State.viewsHold (s : State) (f : Field) : Bool :=
  (s.fieldCells f).all fun n => ((s.cellAt n).sweepSlots f.hsw).all fun k =>
    9 ≤ ((s.cellAt n).hart k).scnt && f.vNeed ≤ ((s.cellAt n).hart k).vcnt

/-- A cell of the placement holds a field other than `f`. -/
def State.otherField (s : State) (f : Field) (cells : List Nat) : Bool :=
  cells.any fun n => match s.cellField n with
    | some g => !f.same g
    | none => false

/-- Fewer than hsw harts are resident on some cell (R84). -/
def State.fewHarts (s : State) (f : Field) (cells : List Nat) : Bool := cells.any fun n => (s.cellAt n).nres < f.hsw

/-- Some cell of a placement lacks its extent + 1 FIELD banks (R80). -/
def State.fewBanks (s : State) (f : Field) (cells : List Nat) : Bool :=
  (cells.zip (List.range cells.length)).any fun p => (s.cellAt p.1).count 7 < f.extent p.2 + 1

def State.asidOf (s : State) (id : Nat) : Nat := ((s.launch? id).map (·.asid)).getD 0

/-! ## Declaration at the origin cell (R81) -/

/-- The lists of a graph from its row offsets and indices. -/
def rowsOf : List Nat → (Nat → Nat) → List (List Nat)
  | a :: b :: r, col => ((List.range (b - a)).map fun j => col (a + j)) :: rowsOf (b :: r) col
  | _, _ => []

def ascending : List Nat → Bool
  | a :: b :: r => a ≤ b && ascending (b :: r)
  | _ => true

/-- Site values of a byte list. -/
def valuesOf (size n : Nat) (bs : List Byte) : List Nat :=
  (List.range n).map fun i => leNat ((bs.drop (size * i)).take size)

/-- Reads several ranges for an engine that serves a cell and a slot; the first that fails answers. -/
def State.readAll (s : State) (by_ : Nat × Slot) (asid : Nat) (lv : Level) : List (Nat × Nat) → Answer (List (List Byte)) × State
  | [] => (.ok [], s)
  | p :: ps =>
    match s.engineRead by_ asid lv p.1 p.2 with
    | (.ok bs, t) => match t.readAll by_ asid lv ps with
      | (.ok r, u) => (.ok (bs :: r), u)
      | r => r
    | (x, t) => (x.bind fun _ => .ok [], t)

/-- Checks 6 to 9 of R81 on a field whose tables are read; 0 when all pass. -/
def State.declTables (s : State) (f : Field) (rows : List Nat) : Nat :=
  let sites := List.range f.n
  let nb (i : Nat) : List Nat := (f.places i).filterMap id
  if (if f.topo = 2 then !ascending rows || f.nbrs.any (fun l => l.any fun j => f.n ≤ j)
      else f.n != f.ext 0 * f.ext 1 * f.ext 2) then 1
  else if sites.any fun i => 64 < (nb i).length || 256 < (nb i).length * f.size then 5
  else if (if f.topo = 2 then f.cols.any (fun c => f.ncol ≤ c) else f.ncol != f.colours) ||
      sites.any (fun i => (nb i).any fun j => f.colour j == f.colour i) then 2
  else if s.fewBanks f (s.fieldCells f) then 4
  else 0

/-- The lowest free handle of a team (R315). -/
def State.freeHandle (s : State) (id team : Nat) : Option Nat := (List.range 16).find? fun h => (s.field? id team h).isNone

/-- The tables and values of a field read at its origin for the hart that declares it (check 5, R109): `some none` is code 7, `none` waits for a held page. DESIGN CHOICE (LOG 46):
where row offsets decrease, the bytes of `cols` from the smallest offset to the largest are read. -/
def State.readField (s : State) (f : Field) (by_ : Nat × Slot) (lv : Level) : Option (Option (Field × List Nat)) × State :=
  let asid := s.asidOf f.launch
  let fail (x : Answer Unit) : Option (Option (Field × List Nat)) := if x == .wait then none else some none
  let un {α : Type} (x : Answer α) : Answer Unit := x.bind fun _ => .ok ()
  match s.engineRead by_ asid lv f.init (f.n * f.size) with
  | (.ok bs, s) =>
    let f := { f with sites := valuesOf f.size f.n bs }
    let ok := f.sites.all f.legalValue
    if f.topo != 2 then (some (if ok then some (f, []) else none), s)
    else match s.engineRead by_ asid lv (f.word 4).toNat (4 * (f.n + 1)) with
      | (.ok rs, s) =>
        let rows := valuesOf 4 (f.n + 1) rs
        let lo := rows.foldl min (rows.getD 0 0)
        let hi := rows.foldl max 0
        match s.readAll by_ asid lv [((f.word 5).toNat + 4 * lo, 4 * (hi - lo)), ((f.word 6).toNat, f.n)] with
        | (.ok l, s) =>
          let js := valuesOf 4 (hi - lo) (l.getD 0 [])
          let f := { f with nbrs := rowsOf rows (fun j => js.getD (j - lo) 0), cols := (l.getD 1 []).map (·.toNat) }
          (some (if ok then some (f, rows) else none), s)
        | (x, s) => (fail (un x), s)
      | (x, s) => (fail (un x), s)
  | (x, s) => (fail (un x), s)

/-- The answer of R75 as a word. -/
def declWord (code handle : Nat) : Word := BitVec.ofNat 64 (code + 256 * handle)

/-- `fdecl` at the origin cell: the rest of check 3 and checks 4 to 9 (R81); `none` waits. -/
def State.serveDecl (s : State) (f : Field) (cl : Client) : Option (Word × State) :=
  let cells := s.fieldCells f
  if s.otherField f cells || !f.divides || s.fewHarts f cells then some (declWord 3 0, s)
  else match s.freeHandle f.launch f.team with
    | none => some (declWord 6 0, s)
    | some h => match s.readField f (cl.cell, cl.slot) cl.level with
      | (none, _) => none
      | (some none, s) => some (declWord 7 0, s)
      | (some (some (g, rows)), s) =>
        let e := s.declTables g rows
        if e != 0 then some (declWord e 0, s)
        else some (declWord 0 h, { s with fields := s.fields ++ [{ g with handle := h }] }.bindSweeps cells f.hsw true)

/-! ## Control requests at the origin cell (R258 to R266) -/

/-- The status word of R266. DESIGN CHOICE (LOG 46): a field stopped from IDLE shows STOPPING until it is GONE. -/
def Field.status (f : Field) : Word :=
  let st := match f.st with
    | .idle => 0 | .sweeping => 1 | .pausing => 2 | .stopping => 3 | .ending => 3
  BitVec.ofNat 64 (st + 8 * boolNat f.bank + 16 * boolNat f.commit.isSome + 32 * f.snaps.length + 128 * boolNat f.move.isSome)

/-- The field has been stopped. DESIGN CHOICE (LOG 46): one stopped from IDLE counts as stopped while it is written back. -/
def Field.stops (f : Field) : Bool := f.st == .stopping || f.st == .ending

/-- The last boundary a field stopped now reaches (R83). -/
def Field.finalPhase (f : Field) : Nat := if f.st == .idle then f.phase else f.phase + 1

/-- A new placement is refused (R265). -/
def State.moveRefused (s : State) (f : Field) (l : Launch) (w : IWord) : Bool :=
  let g := { f with place := w }
  !subgroupLegal l.lw l.lh w || !g.divides || s.otherField f (s.fieldCells g) || s.fewHarts f (s.fieldCells g)

/-- The answer to a request about a declared field, with the bytes its object is to expect. -/
def State.serveField (s : State) (l : Launch) (f : Field) (r : FieldReq) : (Word × Nat) × State :=
  let bytes := f.n * f.size
  match r.ask with
  | .decl _ => ((8, 0), s)
  | .start =>
    if f.st == .idle || f.st == .pausing then
      if !s.viewsHold f then ((4, 0), s)
      else ((0, 0), s.putField { f with st := .sweeping, swapPause := false, todo := if f.st == .idle then f.phaseSites f.phase else f.todo })
    else ((0, 0), s)
  | .pause => ((0, 0), if f.st == .sweeping then s.putField { f with st := .pausing } else s)
  | .stop =>
    if f.stops then ((0, 0), s)
    else
      let e := f.finalPhase
      let c0 := match f.commit with
        | some b => e < b
        | none => false
      let c1 := f.snaps.any fun x => x.marked.isNone && e < x.b
      ((BitVec.ofNat 64 (boolNat c0 + 2 * boolNat c1), bytes),
        s.putField { f with st := if f.st == .idle then .ending else .stopping, stop := some r.client })
  | .phase sel => ((if sel then f.status else BitVec.ofNat 64 f.phase, 0), s)
  | .snap b buf =>
    if f.stops then ((9, 0), s)
    else if b ≤ f.phase || 2 ≤ f.snaps.length then ((5, 0), s)
    else ((0, bytes), { s.putField { f with snaps := f.snaps ++ [⟨s.cmdNo, b, buf, r.client, none⟩] } with cmdNo := s.cmdNo + 1 })
  | .cplc b =>
    if f.stops then ((9, 0), s)
    else if b ≤ f.phase || f.commit.isSome then ((5, 0), s)
    else ((0, 0), s.putField { f with commit := some b })
  | .mig b w =>
    if f.stops then ((9, 0), s)
    else if s.moveRefused f l w then ((3, 0), s)
    else if f.move.isSome || b < f.phase || (b == f.phase && f.st != .idle) then ((5, 0), s)
    else ((0, bytes), s.putField { f with move := some ⟨b, w, r.client⟩ })

/-- A field as a descriptor gives it, before its tables are read. -/
def fieldFrom (id team : Nat) (ws : List Word) : Field :=
  { launch := id, team := team, handle := 16, desc := ws, place := BitVec.ofNat 32 (fieldOf (ws.getD 12 0) 32 32), nbrs := [], cols := [],
    sites := [], st := .idle, phase := 0, bank := false, commit := none, snaps := [], move := none, stop := none, swapPause := false,
    todo := [], handed := [] }

/-- The answer to any request; `none` waits for a held page (R81). -/
def State.serveAsk (s : State) (r : FieldReq) : Option ((Word × Nat) × State) :=
  match r.ask with
  | .decl ws => (s.serveDecl (fieldFrom r.launch r.team ws) r.client).map fun p => ((p.1, 0), p.2)
  | _ => match s.launch? r.launch, s.field? r.launch r.team r.handle with
    | some l, some f => some (s.serveField l f r)
    | _, _ => some (((match r.ask with
        | .phase _ => BitVec.allOnes 64
        | _ => 8), 0), s)

/-- The oldest request that waits at an origin cell is served (R257). -/
def State.fieldServe (s : State) (n : Nat) : Option State :=
  let waits (r : FieldReq) : Bool := r.origin == n && r.answer.isNone
  (s.net.asks.find? waits).bind fun r => (s.serveAsk r).map fun p =>
    { p.2 with net := { p.2.net with asks := mapFirst waits (fun q => { q with answer := some p.1 }) p.2.net.asks } }

/-- FIELD_REQUEST_SERVE (R257). -/
def execFieldRequestServe (c : Nat) (s : State) : Out := .next ((s.fieldServe c).getD s)

/-- The cell of a client serves the team of a field or of a request still. -/
def State.clientServes (s : State) (c : Client) (launch team : Nat) : Bool :=
  match (s.cellAt c.cell).serving with
  | some v => v.launch == launch && v.team == team
  | none => false

/-- An answer reaches its hart (R257): the value, and in `buf` the bytes to expect and the object that is to expect them. -/
def State.fieldAnswer (s : State) (n : Nat) (k : Slot) : Option State :=
  let mine (r : FieldReq) : Bool := r.client.cell == n && r.client.slot == k && r.answer.isSome
  (s.net.asks.find? mine).bind fun r => r.answer.map fun a =>
    let s := { s with net := { s.net with asks := s.net.asks.eraseP mine } }
    let h := s.hartAt n k
    if h.req == .sent && s.clientServes r.client r.launch r.team then s.setHartAt n k { h with req := .answered a.1, buf := leBytes 8 a.2 ++ leBytes 8 r.client.obj } else s

/-- FIELD_ANSWER (R257). -/
def execFieldAnswer (c : Nat) (k : Slot) (s : State) : Out := .next ((s.fieldAnswer c k).getD s)

/-! ## Copies of sites (R93, R97) -/

/-- A credit on a client's object, while its cell serves the field's team. -/
def State.clientCredit (s : State) (f : Field) (c : Client) (n : Nat) (bad : Bool) : State :=
  if s.clientServes c f.launch f.team then s.putCell ((s.cellAt c.cell).credit c.obj n bad) else s

/-- The first part of a range whose page does not take a store: its address and the answer. -/
def State.probe (s : State) (asid : Nat) (lv : Level) : List (Nat × Nat) → Option (Nat × Answer Unit) × State
  | [] => (none, s)
  | p :: ps => match s.storeAt asid lv p.1 with
    | (.ok _, t) => t.probe asid lv ps
    | (x, t) => (some (p.1, x.bind fun _ => .ok ()), t)

/-- A site is stored at an address and its size credited, as bad where the store faults; `none` waits for a held page, or a line under
another transaction. -/
def State.siteStore (s : State) (f : Field) (cl : Client) (va i : Nat) : Option State :=
  let asid := s.asidOf f.launch
  let bs := leBytes f.size (f.value i)
  match s.probe asid cl.level (linePieces va f.size) with
  | (some (a, x), s) => x.cause.map fun c =>
      let s := if c == .page then s.recordFault cl.cell cl.slot asid (a / 65536) 3 true false false else s
      s.clientCredit f cl f.size true
  | (none, s) => match s.writeGlobal (.cell cl.cell) asid cl.level va bs with
    | (.wait, _) => none
    | (_, s) => some (s.clientCredit f cl f.size false)

/-- A mark of a site is found and cleared in one snapshot, its old value copied (R93). -/
def State.copyMark (s : State) (f : Field) (x : Snap) (i : Nat) : Option State :=
  (s.siteStore f x.client ((x.buf + i * f.size) % 2 ^ 64) i).map fun s =>
    match s.field? f.launch f.team f.handle with
    | none => s
    | some g =>
      let clear (y : Snap) : Snap := if y == x then { y with marked := y.marked.map fun l => l.filter (· != i) } else y
      s.putField { g with snaps := (g.snaps.map clear).filter fun y => y.marked != some [] }

/-- The marks that a put finds on its site (R93, R94). -/
def State.copyMarks (s : State) (f : Field) (i : Nat) : Option State :=
  (f.snaps.filter fun x => (x.marked.getD []).contains i).foldl
    (fun r x => r.bind fun s => s.copyMark f x i) (some s)

/-- A site of cell `n` that some snapshot still marks. -/
def State.markedOn (s : State) (f : Field) (n : Nat) : Option (Snap × Nat) :=
  let cs := s.fieldCells f
  f.snaps.findSome? fun x => ((x.marked.getD []).find? fun i => cs.getD (f.siteHome i).1 0 == n).map fun i => (x, i)

/-- The background copy of a cell copies a marked site (R93). -/
def State.background (s : State) (n : Nat) : Option State :=
  (s.cellField n).bind fun f => (s.markedOn f n).bind fun p => s.copyMark f p.1 p.2

/-- BACKGROUND_COPY (R93). -/
def execBackgroundCopy (c : Nat) (s : State) : Out := .next ((s.background c).getD s)

/-! ## Boundaries (R82, R83, R93, R95) -/

/-- The boundary's actions (R257): marks, the coupling switch, the pause or the end; a move is made before a site is handed. -/
def Field.advance (f : Field) : Field :=
  let b := f.phase + 1
  let st := match f.st with
    | .pausing => .idle
    | .stopping => .ending
    | st => st
  { f with
    phase := b, st := st,
    snaps := f.snaps.map fun x => if x.b == b then { x with marked := some (List.range f.n) } else x,
    bank := if f.commit == some b then !f.bank else f.bank,
    commit := if f.commit == some b then none else f.commit,
    todo := if st == .sweeping then f.phaseSites b else [] }

/-- A move's boundary is reached (R98). -/
def Field.moving (f : Field) : Bool :=
  match f.move with
  | some m => m.b ≤ f.phase
  | none => false

/-- The cells of a field's placement while its team is placed. -/
def State.liveCells (s : State) (f : Field) : List Nat := (s.fieldCells f).filter (s.placed f)

/-- Every hart of a team is changed, while the team is placed. -/
def State.mapTeam (s : State) (id team : Nat) (f : Hart → Hart) : State :=
  match s.team? id team with
  | none => s
  | some t => if t.placed then (s.teamCells id team).foldl (fun s n => s.putCell { s.cellAt n with harts := (s.cellAt n).harts.map f }) s else s

/-- A hart that waits in `fwaitb` on a field for a boundary that phase `p` has reached completes with 1 (R267). -/
def Hart.fieldAt (h : Hart) (handle p : Nat) : Hart :=
  match h.st, h.winstr with
  | .wait .boundary, some (.fwaitb _ _ a b) =>
    if (h.S a).toNat = handle && (h.S b).toNat ≤ p && h.req == .idle then { h with req := .answered 1, woken := true } else h
  | _, _ => h

/-- Every site of the phase has been handed and put, and P advances on every cell (R82). A switch of the coupling bank is an acquire for the
sweep harts (R95), and the waits for the boundary end (R19, R267). -/
def State.phaseBarrier (s : State) (id team handle : Nat) : Option State :=
  (s.field? id team handle).bind fun f =>
    if f.sweeps && f.todo.isEmpty && f.handed.isEmpty && !f.moving then
      let s := s.putField f.advance
      let s := if f.commit == some (f.phase + 1) then (s.liveCells f).foldl (fun s n => s.putCell (s.cellAt n).acquireDrop) s else s
      some (s.mapTeam id team fun h => h.fieldAt handle (f.phase + 1))
    else none

/-- PHASE_BARRIER (R82). -/
def execPhaseBarrier (launch team handle : Nat) (s : State) : Out := .next ((s.phaseBarrier launch team handle).getD s)

/-- The field's team is placed. -/
def State.fieldPlaced (s : State) (f : Field) : Bool := ((s.team? f.launch f.team).map (·.placed)).getD false

/-- A move at its boundary (R98, R99): after the marked copies it is made, or refused whole with every byte an error. The cells that it brings in
acquire for their sweep harts, which may run routines of a bank that was switched before (R90, R95). DESIGN CHOICE (LOG 46):
those bytes come in one credit, which counts one error. -/
def State.fieldMove (s : State) (id team handle : Nat) : Option State :=
  (s.field? id team handle).bind fun f =>
    match f.move with
    | none => none
    | some m =>
      if !f.moving || !s.fieldPlaced f || f.snaps.any (fun x => x.marked.isSome) then none
      else
        let g := { f with place := m.word, move := none }
        let old := s.fieldCells f
        let new := s.fieldCells g
        if s.fewBanks g new || s.otherField f new || s.fewHarts f new || !s.viewsHold g then
          some ((s.putField { f with move := none }).clientCredit f m.client (f.n * f.size) true)
        else
          let s := s.putField g
          let s := s.bindSweeps (old.filter fun n => !new.contains n) f.hsw false
          let s := s.bindSweeps (new.filter fun n => !old.contains n) f.hsw true
          let s := (new.filter fun n => !old.contains n).foldl (fun s n => s.putCell (s.cellAt n).acquireDrop) s
          some ((List.range f.n).foldl (fun s _ => s.clientCredit f m.client f.size false) s)

/-- FIELD_MOVE (R98). -/
def execFieldMove (launch team handle : Nat) (s : State) : Out := .next ((s.fieldMove launch team handle).getD s)

/-- A hart that waits in `fwaitb` on a field that is gone before its boundary completes with 2 (R267). -/
def Hart.fieldGone (h : Hart) (handle : Nat) : Hart :=
  match h.st, h.winstr with
  | .wait .boundary, some (.fwaitb _ _ a _) =>
    if (h.S a).toNat = handle && h.req == .idle then { h with req := .answered 2, woken := true } else h
  | _, _ => h

/-- The field is gone (R94, R97, R267, R314): its handle is free, its sweep harts are ordinary harts again, and a snapshot whose boundary
it never reached, and a pending move, have all their bytes as errors. DESIGN CHOICE (LOG 46): those bytes come in one credit, which counts one
error. -/
def State.dropField (s : State) (f : Field) : State :=
  let cells := s.liveCells f
  let s := { s with fields := s.fields.filter fun g => !f.same g }
  let s := (f.snaps.filter fun x => x.marked.isNone).foldl (fun s x => s.clientCredit f x.client (f.n * f.size) true) s
  let s := match f.move with
    | some m => s.clientCredit f m.client (f.n * f.size) true
    | none => s
  let s := s.bindSweeps cells f.hsw false
  s.mapTeam f.launch f.team fun h => h.fieldGone f.handle

/-- Every site of a placed team's field is written back to the initial image, and the field is gone (R97). -/
def State.writeBackField (s : State) (id team handle : Nat) : Option State :=
  (s.field? id team handle).bind fun f =>
    match f.stop with
    | none => none
    | some cl =>
      if f.st != .ending || !s.fieldPlaced f || f.moving || f.snaps.any (fun x => x.marked.isSome) then none
      else
        ((List.range f.n).foldl (fun r i => r.bind fun s => s.siteStore f cl ((f.init + i * f.size) % 2 ^ 64) i) (some s)).map
          fun s => s.dropField f

/-- FIELD_WRITE_BACK (R97). -/
def execFieldWriteBack (launch team handle : Nat) (s : State) : Out := .next ((s.writeBackField launch team handle).getD s)

/-! ## The Spindle (R85, R86, R88, R89) -/

/-- One mixing round of R89. -/
def mixWord (x w : Nat) : Nat :=
  let m := 2 ^ 64
  let x := ((x ^^^ w) + 0x9E3779B97F4A7C15) % m
  let x := ((x ^^^ (x / 2 ^ 30)) * 0xBF58476D1CE4E5B9) % m
  let x := ((x ^^^ (x / 2 ^ 27)) * 0x94D049BB133111EB) % m
  x ^^^ (x / 2 ^ 31)

/-- Block `k` of site `i` in a sweep, from the counter source (R89). -/
def Field.counterBlock (f : Field) (i sweep k : Nat) : Word :=
  BitVec.ofNat 64 (mixWord (mixWord (mixWord (f.word 9).toNat i) sweep) k)

/-- The address of a block in the replay table (R89). -/
def Field.replayAddr (f : Field) (i sweep k : Nat) : Nat :=
  ((f.word 10).toNat + 8 * (((sweep * (f.nblk + 1) + k) * f.n + i) % fieldOf (f.word 11) 0 32)) % 2 ^ 64

/-- The sweep of a phase (R82). -/
def Field.sweep (f : Field) : Nat := f.phase / f.ncol

/-- A block for hart `h` of cell `n`, from either source: the value, or the address of a replay read that faults, which is recorded as an engine's
access for the hart, that traps (R89, R351); `none` waits for a held page. DESIGN CHOICE (LOG 46): the replay table is read at level U. -/
def State.block (s : State) (n : Nat) (h : Slot) (f : Field) (i k : Nat) : Option (Word × Option Nat) × State :=
  if !f.replayed then (some (f.counterBlock i f.sweep k, none), s)
  else
    let a := f.replayAddr i f.sweep k
    let asid := s.asidOf f.launch
    match s.readGlobal (dieOf n) asid .u a 8 with
    | (.ok bs, s) => (some (BitVec.ofNat 64 (leNat bs), none), s)
    | (.wait, s) => (none, s)
    | (.page _ _, s) => (some (0, some a), s.recordFault n h asid (a / 65536) 3 false true false)
    | (_, s) => (some (0, some a), s)

/-- The neighbour values of a site as one run of bytes (R86). -/
def Field.gather (f : Field) (i : Nat) : List Byte :=
  (f.places i).flatMap fun p => leBytes f.size (match p with
    | some j => f.value j
    | none => 0)

/-- The presence mask (R86). -/
def Field.present (f : Field) (i : Nat) : Nat :=
  ((f.places i).zip (List.range 64)).foldl (fun m p => m + if p.1.isSome then 2 ^ p.2 else 0) 0

/-- v slots v0 on that a run of bytes covers, each with zero sideband (R86). -/
def Hart.setRun (h : Hart) (bs : List Byte) : Hart :=
  (List.range ((bs.length + 63) / 64)).foldl (fun h j =>
    h.setVS (BitVec.ofNat 8 j) (BitVec.ofNat 512 (leNat ((bs.drop (64 * j)).take 64))) 0 0) h

/-- The registers of a handed site (R86), and the hart in RUN at the routine at level U (R85). DESIGN CHOICE (LOG 46): where the s and the v view of
the hart overlap, s1 to s8 are written first and the v slots over them. -/
def Hart.handSite (h : Hart) (f : Field) (l : Launch) (i : Nat) (b0 : Word) (tick : Nat) : Hart :=
  let w (n : Nat) : Word := BitVec.ofNat 64 n
  let cptr := (f.word 7).toNat + (if f.bank then fieldOf (f.word 8) 0 32 else 0) + i * fieldOf (f.word 8) 32 16
  let h := [(1, w i), (2, w (f.value i)), (3, w cptr), (4, b0), (5, w f.phase), (6, w (f.places i).length), (7, w f.handle),
            (8, w (f.present i))].foldl (fun h p => h.setS (BitVec.ofNat 8 p.1) p.2) h
  { (h.setRun (f.gather i)).settle with
    pc := w (l.imageBase + fieldOf (f.word 12) 0 32), level := .u, st := .run,
    hand := some ⟨f.launch, f.team, f.handle, i, some tick⟩ }

/-- The lowest sweep hart of a cell that is parked for the Spindle. -/
def Cell.parkedSweep (c : Cell) (hsw : Nat) : Option Slot :=
  (c.sweepSlots hsw).find? fun k => (c.hart k).st == .park true && !(c.hart k).paused && !(c.hart k).stopped

/-- The Spindle of a cell hands its next site to a parked sweep hart (R85). A replay block that cannot be read leaves the
field-routine-error trap to the hart's next slot (R89). -/
def State.spindle (s : State) (n : Nat) : Option State :=
  (s.cellField n).bind fun f =>
    if !f.sweeps || f.moving then none
    else
      let cs := s.fieldCells f
      (f.todo.find? fun i => cs.getD (f.siteHome i).1 0 == n).bind fun i =>
        ((s.cellAt n).parkedSweep f.hsw).bind fun k => (s.launch? f.launch).bind fun l =>
          match s.block n k f i 0 with
          | (none, _) => none
          | (some (b0, bad), s) =>
            let s := s.putField { f with todo := f.todo.filter (· != i), handed := f.handed ++ [i] }
            let h := (s.hartAt n k).handSite f l i b0 s.tbase
            some (s.setHartAt n k { h with engErr := (bad.map fun a => (.fieldRoutine, a)).toList })

/-- SPINDLE_HAND (R85). -/
def execSpindleHand (c : Nat) (s : State) : Out := .next ((s.spindle c).getD s)

/-- The routine limit has passed for the issuing hart (R88): it takes the trap once, in its slot. -/
def State.rlimExpire (s : State) : Option State :=
  s.hart.hand.bind fun x => (s.field? x.launch x.team x.handle).bind fun f =>
    match x.tick with
    | none => none
    | some t =>
      if f.rlim = 0 || s.tbase < t + f.rlim then none
      else
        let s := s.mapCell fun c => c.abandon c.slot
        let s := s.mapHart fun h => { h with hand := some { x with tick := none } }
        some (s.takeTrap 10 (BitVec.ofNat 64 x.site) s.hart.pc)

/-- RLIM_EXPIRE: in the slot of hart `k` of the focused cell (R88). -/
def execRlimExpire (c : Nat) (k : Slot) (s : State) : Out :=
  .next (if !s.isCore && c == s.cell.no && k == s.cell.slot && s.active then (s.rlimExpire).getD s else s)

end Sys2Proof.Machine
end

