-- ==== Sys2Proof/Machine/Flags.lean ====
section
/-! DEFINITION. Sticky flags and roundings as a hart makes them: `fflags` gathers, `rngs` draws (R147, R148, R151). -/

namespace Sys2Proof.Machine

/-- Sets sticky flags; no instruction clears one (R151). -/
def Hart.raise (h : Hart) (fl : Nat) : Hart := { h with fflags := h.fflags ||| BitVec.ofNat 64 fl }

/-- The random bits of one rounding: a draw of `n` bits under rm 4, none otherwise (R148). -/
def Hart.roundBits (h : Hart) (n : Nat) (rm : Rm) : Nat × Hart :=
  match rm with
  | .rst => let p := h.draw; (p.1 % 2 ^ n, p.2)
  | _ => (0, h)

/-- One rounding into a floating format by the hart (R147): the code, and the hart with its flags and draw. -/
def Hart.round (h : Hart) (f : FSpec) (rm : Rm) (sat : Bool) (x : FVal) : Nat × Hart :=
  let p := h.roundBits f.n rm
  let r := rnd f rm sat p.1 x
  (r.1, p.2.raise r.2)

/-- The value of the low bits of a slot, or of an element, in a format (R173). -/
def fmtValue (t : Fmt) (x : Nat) : FVal :=
  match t with
  | .int sgn w =>
    let v := x % 2 ^ w.bits
    if sgn && 2 ^ (w.bits - 1) ≤ v then .fin true (2 ^ w.bits - v) 0 false else .fin false v 0 false
  | .wide f => valueOf (wideSpec f) x
  | .b8 _ _ _ => valueOf (specOf t) x

/-- One conversion into a format (R184, R220): the code in the format's bits, sign bits above an `i` result included to 64 bits. -/
def Hart.convert (h : Hart) (td : Fmt) (rm : Rm) (sat : Bool) (x : FVal) : Nat × Hart :=
  let h := h.raise (if x.isSig then flagNV else 0)
  match td with
  | .int sgn w =>
    let r := rndInt w.bits sgn rm x
    ((BitVec.ofInt 64 r.1).toNat, h.raise r.2)
  | _ => h.round (specOf td) rm sat x

/-- The two-operand arithmetic of R176 on codes of a wide format. -/
def Hart.arith (h : Hart) (op : FVal → FVal → FVal × Nat) (f : FF) (rm : Rm) (sat : Bool) (a b : Nat) : Nat × Hart :=
  let r := op (valueOf (wideSpec f) a) (valueOf (wideSpec f) b)
  (h.raise r.2).round (wideSpec f) rm sat r.1

/-- The one-operand arithmetic of R176 and R216. -/
def Hart.arith1 (h : Hart) (op : FVal → FVal × Nat) (f : FF) (rm : Rm) (sat : Bool) (a : Nat) : Nat × Hart :=
  let r := op (valueOf (wideSpec f) a)
  (h.raise r.2).round (wideSpec f) rm sat r.1

/-- The fused operations of R181 on codes. -/
def Hart.fused (h : Hart) (negP negC : Bool) (f : FF) (rm : Rm) (a b c : Nat) : Nat × Hart :=
  let r := fmaV rm negP negC (valueOf (wideSpec f) a) (valueOf (wideSpec f) b) (valueOf (wideSpec f) c)
  (h.raise r.2).round (wideSpec f) rm false r.1

/-- `fmin` and `fmax` on codes (R177). -/
def Hart.extreme (h : Hart) (max : Bool) (f : FF) (a b : Nat) : Nat × Hart :=
  let r := minMax (wideSpec f) max a b
  (r.1, h.raise r.2)

/-- A comparison on codes (R182). -/
def Hart.compare (h : Hart) (c : FCond) (f : FF) (a b : Nat) : Bool × Hart :=
  let r := compareV c (valueOf (wideSpec f) a) (valueOf (wideSpec f) b)
  (r.1, h.raise r.2)

/-- Subtraction is the sum with the second operand's sign turned (R176). -/
def subV (rm : Rm) (x y : FVal) : FVal × Nat := addV rm x (negV y)

/-- 1 / A (R216). -/
def rcpV (x : FVal) : FVal × Nat := divV (.fin false 1 0 false) x

end Sys2Proof.Machine
end

