-- ==== Sys2Proof/Machine/FieldOps.lean ====
section
/-! DEFINITION. Field instructions: major 0x3E (R255 to R274). -/

namespace Sys2Proof.Machine

/-! ## Fields of the issuing cell's team -/

/-- The field a handle operand names (R256). -/
def State.myField (s : State) (x : Word) : Option Field :=
  s.cell.serving.bind fun v => if x.toNat < 16 then s.field? v.launch v.team x.toNat else none

/-- The issuing hart as the client of a field, with its object. -/
def State.client (s : State) (obj : Nat) : Client := ⟨s.cell.no, s.cell.slot, s.hart.level, obj⟩

/-- The value of an answered request, its expectation made on the object (R93, R257, R261). -/
def State.takeAnswer (s : State) (d : Reg) (v : Word) : Out :=
  let n := leNat (s.hart.buf.take 8)
  (if n = 0 then s else s.mapCell fun c => c.expect (leNat (s.hart.buf.drop 8)) n).writeS d v

/-- A request leaves for a field's origin cell (R257); the hart issues again until its answer comes. -/
def State.sendAsk (s : State) (i : Instr) (place : IWord) (handle obj : Nat) (ask : FieldAsk) : Out :=
  match s.cell.serving with
  | none => s.reissue
  | some v =>
    let r : FieldReq :=
      { client := s.client obj, launch := v.launch, team := v.team, handle := handle,
        origin := (s.groupCells v.launch v.team place).getD 0 0, ask := ask, answer := none }
    ({ s with net := { s.net with asks := s.net.asks ++ [r] } }.mapHart fun h => { h with req := .sent, winstr := some i, buf := [] }).reissue

/-- The issuing cell answers itself: the value is written in the hart's next slot. -/
def State.answerSelf (s : State) (v : Word) : Out := (s.mapHart fun h => { h with req := .answered v, buf := [] }).reissue

/-- A control request about a declared field (R257): `none` names no field. A command leaves once the stores and pushes before it are acknowledged,
as its issue is a release (R109); a `query` is none. -/
def State.control (s : State) (i : Instr) (d : Reg) (handle : Word) (obj : Nat) (ask : FieldAsk) (none_ : Word) (query : Bool) : Out :=
  match s.hart.req with
  | .answered v => (if query then s.acquire else s).takeAnswer d v
  | .sent => s.reissue
  | .idle =>
    if !query && !s.acked then s.reissue
    else match s.myField handle with
    | none => s.answerSelf none_
    | some f => s.sendAsk i f.place f.handle obj ask

/-! ## Control requests (R259 to R266) -/

/-- `fdecl` at its issuing cell: the read of the descriptor, check 2 and the place word's legality (R81). -/
def State.declAtIssue (s : State) (i : Instr) (x : Word) : Out :=
  match s.launchOf s.cell, s.cell.serving with
  | some l, some v =>
    match s.readWords (dieOf s.cell.no) s.asid s.hart.level x.toNat 16 with
    | (.wait, _) => s.reissue
    | (.ok ws, s) =>
      let f := fieldFrom v.launch v.team ws
      if !f.inRange l then s.answerSelf (declWord 1 0)
      else if !subgroupLegal l.lw l.lh f.place then s.answerSelf (declWord 3 0)
      else s.sendAsk i f.place 16 0 (.decl ws)
    | (.page _ _, s) => (s.recordFault s.cell.no s.cell.slot s.asid (x.toNat / 65536) 3 false false false).answerSelf (declWord 7 0)
    | (_, s) => s.answerSelf (declWord 7 0)
  | _, _ => s.answerSelf (declWord 7 0)

/-- `fdecl` (R259): the descriptor is read once the stores and pushes before it are acknowledged (R109). -/
def execFdecl (d a : Reg) (s : State) : Out :=
  s.cellOnly <| s.withRegs [d, a] [] <| s.notReplay <|
    match s.hart.req with
    | .answered v => s.writeS d v
    | .sent => s.reissue
    | .idle =>
      let x := s.hart.S a
      if x.toNat % 128 != 0 then s.trap .misaligned x else if !s.acked then s.reissue else s.declAtIssue (.fdecl d a) x

/-- `fstart` (R260). -/
def execFstart (d a : Reg) (s : State) : Out :=
  s.cellOnly <| s.withRegs [d, a] [] <| s.notReplay <| s.control (.fstart d a) d (s.hart.S a) 0 .start 8 false

/-- `fstop` (R261). -/
def execFstop (d a b : Reg) (s : State) : Out :=
  s.cellOnly <| s.withRegs [d, a, b] [] <| s.notReplay <|
    let go (o : Nat) : Out := s.control (.fstop d a b) d (s.hart.S a) o .stop 8 false
    if s.hart.req == .idle && !s.hart.again then s.withLocal (s.hart.S b) 16 16 go else go (s.hart.S b).toNat

/-- `fpause` (R260). -/
def execFpause (d a : Reg) (s : State) : Out :=
  s.cellOnly <| s.withRegs [d, a] [] <| s.notReplay <| s.control (.fpause d a) d (s.hart.S a) 0 .pause 8 false

/-- `fphase` (R266). -/
def execFphase (d a b : Reg) (s : State) : Out :=
  s.cellOnly <| s.withRegs [d, a, b] [] <|
    s.control (.fphase d a b) d (s.hart.S a) 0 (.phase ((s.hart.S b).getLsbD 0)) (BitVec.allOnes 64) true

/-- The request block of `snap` and `fmig`, read whole at their first issue and checked in order (R262): it goes with the hart. -/
def State.withBlock (s : State) (x : Word) (whereOk : Word → Bool) (k : State → Out) : Out :=
  s.withLocal x 32 32 fun o =>
    let bs := s.cell.lread o 32
    let w (i : Nat) : Word := (leWords bs).getD i 0
    if fieldOf (w 0) 4 60 != 0 || fieldOf (w 3) 17 47 != 0 || !whereOk (w 2) then s.trap .engine x
    else s.withLocal (w 3) 16 16 fun _ => k (s.mapHart fun h => { h with buf := bs })

/-- `snap` and `fmig`: the request that the block read at the first issue makes (R257, R262). -/
def State.blockRequest (s : State) (i : Instr) (d : Reg) (x : Word) (whereOk : Word → Bool) (ask : List Word → FieldAsk) : Out :=
  let go (s : State) : Out :=
    let ws := leWords s.hart.buf
    s.control i d (BitVec.ofNat 64 (fieldOf (ws.getD 0 0) 0 4)) (ws.getD 3 0).toNat (ask ws) 8 false
  if s.hart.req == .idle && !s.hart.again then s.withBlock x whereOk go else go s

/-- `snap` (R263). -/
def execSnap (d a : Reg) (s : State) : Out :=
  s.cellOnly <| s.withRegs [d, a] [] <| s.notReplay <|
    s.blockRequest (.snap d a) d (s.hart.S a) (fun w => fieldOf w 55 9 == 0)
      (fun ws => .snap (ws.getD 1 0).toNat (ws.getD 2 0).toNat)

/-- `fmig` (R265). -/
def execFmig (d a : Reg) (s : State) : Out :=
  s.cellOnly <| s.withRegs [d, a] [] <| s.notReplay <|
    s.blockRequest (.fmig d a) d (s.hart.S a) (fun w => fieldOf w 32 32 == 0)
      (fun ws => .mig (ws.getD 1 0).toNat (BitVec.ofNat 32 (ws.getD 2 0).toNat))

/-- `cplc` (R264). -/
def execCplc (d a b : Reg) (s : State) : Out :=
  s.cellOnly <| s.withRegs [d, a, b] [] <| s.notReplay <|
    s.control (.cplc d a b) d (s.hart.S a) 0 (.cplc (s.hart.S b).toNat) 8 false

/-! ## Waiting for a boundary, reading a site (R267, R268) -/

/-- `fwaitb` and `fwaitb.try` (R267). -/
def execFwaitb (try_ : Bool) (d a b : Reg) (s : State) : Out :=
  s.cellOnly <| s.withRegs [d, a, b] [] <|
    match s.hart.req with
    | .answered v => (if v = 1 then s.acquire else s).writeS d v
    | _ =>
      match s.myField (s.hart.S a) with
      | none => s.writeS d 2
      | some f =>
        if (s.hart.S b).toNat ≤ f.phase then s.acquire.writeS d 1
        else if try_ then s.writeS d 0
        else if s.hart.waits .boundary then .next s
        else s.waitOn .boundary (.fwaitb try_ d a b)

/-- `sget` (R268): the site and its P are read in one step, in the slot that completes it. -/
def execSget (d a b : Reg) (s : State) : Out :=
  s.cellOnly <| s.withRegs [d, a, b] [] <|
    match s.myField (s.hart.S a) with
    | none => s.trap .access (s.hart.S a)
    | some f =>
      if f.n ≤ (s.hart.S b).toNat then s.trap .access (s.hart.S b)
      else if s.hart.waits .data then s.acquire.writeS d (BitVec.ofNat 64 (f.value (s.hart.S b).toNat))
      else s.waitOn .data (.sget d a b)

/-! ## The sweep hart's side (R269 to R271) -/

/-- The site the issuing hart holds, with its field. -/
def State.held (s : State) : Option (Hand × Field) :=
  s.hart.hand.bind fun x => (s.field? x.launch x.team x.handle).map fun f => (x, f)

/-- The put of a legal value (R269): the snapshots' copies, then the write; the hart parks for the Spindle. -/
def State.putSite (s : State) (x : Hand) (f : Field) (v : Nat) : Option State :=
  (s.copyMarks f x.site).map fun s =>
    let s := match s.field? f.launch f.team f.handle with
      | none => s
      | some g => s.putField { g with sites := g.sites.set x.site v, handed := g.handed.filter (· != x.site) }
    s.mapHart fun h => { h with hand := none }.parkAt (.park true)

/-- `sput` (R269). -/
def execSput (a : Reg) (s : State) : Out :=
  s.cellOnly <| s.withRegs [a] [] <|
    match s.held with
    | none => s.trap .fieldRoutine (BitVec.allOnes 64)
    | some (x, f) =>
      let v := (s.hart.S a).toNat % 2 ^ (8 * f.size)
      if !f.legalValue v then s.trap .fieldRoutine (s.hart.S a)
      else if !s.acked then s.reissue
      else match s.putSite x f v with
        | some t => .next t
        | none => s.reissue

/-- `rngf` (R271). -/
def execRngf (d a : Reg) (s : State) : Out :=
  s.cellOnly <| s.withRegs [d, a] [] <|
    match s.held with
    | none => s.trap .fieldRoutine (BitVec.allOnes 64)
    | some (x, f) =>
      let k := (s.hart.S a).toNat
      if f.nblk < k then s.trap .fieldRoutine (s.hart.S a)
      else if !f.replayed then s.writeS d (f.counterBlock x.site f.sweep k)
      else if !s.hart.waits .data then s.waitOn .data (.rngf d a)
      else match s.block s.cell.no s.cell.slot f x.site k with
        | (none, _) => .next s
        | (some (v, none), s) => s.writeS d v
        | (some (_, some addr), s) => s.trap .fieldRoutine (BitVec.ofNat 64 addr)

/-! ## Random numbers and sampling (R272 to R274) -/

/-- `rng` (R272). -/
def execRng (d : Reg) (s : State) : Out :=
  s.cellOnly <| s.withRegs [d] [] <| s.done fun h =>
    let p := h.draw
    p.2.setS d (BitVec.ofNat 64 p.1)

/-- The whole number a non-negative FP32 value is at 2^-149. -/
def grain : FVal → Nat
  | .fin _ m e _ => m * 2 ^ (e + 149).toNat
  | _ => 0

/-- `bern` (R273). -/
def execBern (d a b : Reg) (s : State) : Out :=
  s.cellOnly <| s.withRegs [d, a, b] [] <|
    let p := valueOf (wideSpec .f32) ((s.hart.S a).toNat % 2 ^ 32)
    let r := fieldOf (s.hart.S b) 32 32
    match p with
    | .nan _ => s.done fun h => (h.raise flagNV).setS d 0
    | .inf neg => s.writeS d (flagWord !neg)
    | .fin neg _ _ _ => s.writeS d (flagWord (!neg && r * 2 ^ 149 < grain p * 2 ^ 32))

/-- The smallest j whose prefix of the weights exceeds a threshold; the length when none does. -/
def firstAbove (t : Nat) : List Nat → Nat → Nat → Nat
  | [], _, j => j
  | w :: ws, acc, j => if t < (acc + w) * 2 ^ 32 then j else firstAbove t ws (acc + w) (j + 1)

/-- A weight `samp` takes: no NaN, no infinity, nothing below zero (R274). -/
def weightOk : FVal → Bool
  | .fin neg m _ _ => !neg || m == 0
  | _ => false

/-- The state drawn from a whole table (R274). -/
def sampleOf (vals : List FVal) (r : Nat) : Nat :=
  let ws := vals.map grain
  let total := ws.foldl (· + ·) 0
  if total = 0 then vals.length else firstAbove (r * total) ws 0 0

/-- `samp` (R274): the table is read 64 bytes a slot. -/
def execSamp (d a b : Reg) (s : State) : Out :=
  s.cellOnly <| s.withRegs [d, a, b] [] <|
    let x := s.hart.S a
    let o := fieldOf x 0 17
    let n := 4 * (fieldOf x 17 8 + 1)
    let off := BitVec.ofNat 64 o
    if fieldOf x 25 39 != 0 then s.trap .engine x
    else s.withLocal off 4 n fun _ =>
      let got := s.hart.buf.length
      let bs := s.hart.buf ++ s.cell.lread (o + got) (Nat.min 64 (n - got))
      if bs.length < n then (s.mapHart fun h => { h with buf := bs, winstr := some (.samp d a b) }).reissue
      else
        let vals := (valuesOf 4 (n / 4) bs).map (valueOf (wideSpec .f32))
        if vals.all weightOk then s.writeS d (BitVec.ofNat 64 (sampleOf vals (fieldOf (s.hart.S b) 32 32)))
        else s.done fun h => (h.raise flagNV).setS d (BitVec.ofNat 64 vals.length)

end Sys2Proof.Machine
end

