-- ==== Sys2Proof/Machine/Special.lean ====
section
/-! DEFINITION. State registers and interrupts: majors 0x3F operations 2 to 6 and 10 (R168, R171, R275 to R279, R282, R285, R288, R390, R406). -/

namespace Sys2Proof.Machine

/-! ## Slot caps as a register shows them (R405, R406) -/

/-- The effective cap of a cell (R405). -/
def State.ecap (s : State) (c : Cell) : Nat := Nat.min c.scap (s.railAt (dieOf c.no) (railOf c.no)).hcap

/-- Slot `k` is protected (R405). -/
def State.protected (s : State) (c : Cell) (k : Slot) : Bool := c.prot.getLsbD k.val || s.sweepHart c.no k

/-! ## Interrupts (R282) -/

namespace Hart

/-- The level the timer and team interrupts are targeted at: bits 32 and 33 of `sdel` (R279, R282). -/
def idel (h : Hart) (bit : Nat) : Level := if h.ts.del.getLsbD (32 + bit) then .u else .s

/-- The timer is pending (R282). -/
def timerDue (h : Hart) (tick : Nat) : Bool := h.tcmp != 0 && decide (h.tcmp.toNat ≤ tick)

/-- `xip` of a level; the timer bit stands in that of its target. -/
def ip (h : Hart) (m : Level) (tick : Nat) : Word :=
  (h.block m).ip ||| (if h.timerDue tick && h.idel 0 == m then 1 else 0)

/-- Interrupts pending in `xip` of a level, targeted at it, and enabled in its `xie`: a team bit that stands elsewhere than at its present target is
not (R282). -/
def pendingAt (h : Hart) (m : Level) (tick : Nat) : Word :=
  h.ip m tick &&& (h.block m).ie &&& (if h.idel 1 == m then BitVec.allOnes 64 else ~~~ 2)

/-- Some interrupt is pending and enabled (R285). -/
def anyPending (h : Hart) (tick : Nat) : Bool := [Level.f, .s, .u].any fun m => h.pendingAt m tick != 0

/-- An interrupt targeted at `m` may be taken at the hart's level. -/
def admits (h : Hart) (m : Level) : Bool := h.level.code < m.code || (h.level == m && (h.block m).stat.getLsbD 0)

/-- The highest bit set among the low `n`. -/
def topBit : Nat → Word → Option Nat
  | 0, _ => none
  | n + 1, w => if w.getLsbD n then some n else topBit n w

/-- The interrupt the hart takes in its next slot: the highest level first, and within it the highest bit. -/
def takeable (h : Hart) (tick : Nat) : Option (Level × Nat) :=
  [Level.f, .s, .u].findSome? fun m => if h.admits m then (topBit 32 (h.pendingAt m tick)).map fun b => (m, b) else none

/-- Sets a bit of `xip` at a level. -/
def raiseIp (h : Hart) (m : Level) (bit : Nat) : Hart :=
  h.setBlock m { h.block m with ip := (h.block m).ip ||| BitVec.ofNat 64 (2 ^ bit) }

end Hart

/-! ## Numbers, levels and access (R276, R277) -/

/-- The lowest level that reaches a state register, and whether it may be written; `none` for a number that is not listed. -/
def stateReg (core : Bool) (n : Nat) : Option (Level × Bool) :=
  if n < 5 || (8 ≤ n && n < 11) || n = 12 then some (.u, true)
  else if 0x10 ≤ n && n < 0x16 || n = 0x18 then some (.u, false)
  else if n = 0x16 then (if core then some (.f, true) else none)
  else if 0x100 ≤ n && n < 0x108 then some (.u, true)
  else if 0x200 ≤ n && n < 0x209 then some (.s, true)
  else if 0x300 ≤ n && n < 0x309 then some (.f, true)
  else none

/-! ## Placement registers (R277, R390) -/

def State.hplace (s : State) : Word :=
  match s.cur with
  | .core n => BitVec.ofNat 64 (n % 64 + 63 * 2 ^ 24)
  | .cell c => BitVec.ofNat 64 (hartNo c s.cell.slot + dieOf c * 2 ^ 24 + c * 2 ^ 32)

def State.cpos (s : State) : Word :=
  match s.cur with
  | .core _ => 0
  | .cell c => BitVec.ofNat 64 (cellX c + cellY c * 2 ^ 10 + localX c * 2 ^ 20 + localY c * 2 ^ 27 + clusterOf c * 2 ^ 34 +
      indexOf c * 2 ^ 42 + s.cell.nres * 2 ^ 48)

def State.tplace (s : State) : Word :=
  match s.cur, s.cell.serving with
  | .cell _, some v =>
    match s.launch? v.launch with
    | some l => match l.team? v.team with
      | some t => BitVec.ofNat 64 (t.x0 + t.y0 * 2 ^ 10 + l.lw * 2 ^ 20 + l.lh * 2 ^ 24 + v.tx * 2 ^ 28 + v.ty * 2 ^ 37 + v.team * 2 ^ 46)
      | none => 0
    | none => 0
  | _, _ => 0

def State.lid (s : State) : Word :=
  match s.cur, s.launchOf s.cell with
  | .cell _, some l => BitVec.ofNat 64 (l.id % 2 ^ 16 + l.asid * 2 ^ 16 + s.gen l.asid * 2 ^ 28)
  | _, _ => 0

/-- `pstat` (R406). -/
def State.pstat (s : State) : Word :=
  match s.cur with
  | .core _ => 0
  | .cell c => BitVec.ofNat 64 (s.ecap s.cell + 32 * boolNat (s.alarmAt c) + 64 * boolNat (s.protected s.cell s.cell.slot) +
      128 * (s.cell.div - 1))

/-! ## Reading -/

/-- Register at an offset of a trap block. -/
def Hart.blockReg (h : Hart) (m : Level) (o tick : Nat) : Word :=
  let b := h.block m
  match o with
  | 0 => b.stat | 1 => b.vec | 2 => b.cause | 3 => b.val | 4 => b.pc | 5 => b.ie | 6 => h.ip m tick | 7 => b.scr | _ => b.del

/-- A listed state register (R276); a loop register with a pending write reads it (R171). -/
def State.readSt (s : State) (n : Nat) : Word :=
  let h := s.hart
  match n with
  | 0 => h.fflags | 1 => h.rngs | 2 => h.fetry | 3 => h.fwl | 4 => h.views
  | 8 => h.pcnt.getD h.lcnt | 9 => h.psta.getD h.lsta | 10 => h.pend.getD h.lend | 12 => h.tcmp
  | 0x10 => BitVec.ofNat 64 s.cell.cycle | 0x11 => BitVec.ofNat 64 s.tbase
  | 0x12 => s.hplace | 0x13 => s.cpos | 0x14 => s.tplace | 0x15 => s.lid | 0x16 => h.hwin | 0x18 => s.pstat
  | _ => h.blockReg (if n < 0x200 then .u else if n < 0x300 then .s else .f) (n % 256) s.tbase

/-! ## Writing (R10, R11, R168, R171, R277 to R279, R282) -/

/-- Bits of `views` that are not reserved. -/
def viewsMask : Word := 0x3FFF7FFF

/-- A new `views` value obeys R38, and R87 on a sweep hart. -/
def State.viewsOk (s : State) (v : Word) : Bool :=
  Hart.viewsFit s.hart.wsize v &&
  (s.isCore || !s.sweepHart s.cell.no s.cell.slot ||
    (match s.cellField s.cell.no with
     | none => true
     | some f => 9 ≤ fieldOf v 8 7 && f.vNeed ≤ fieldOf v 24 6))

/-- Writes `views`; `none` where it would break a rule. -/
def State.writeViews (s : State) (x : Word) : Option State :=
  let v := x &&& viewsMask
  if s.viewsOk v then some (s.mapHart fun h => { h with views := v }) else none

/-- A write to a loop register: pending while the loop is active at the hart's level, and in the place of an earlier pending one (R171). -/
def Hart.writeLoop (h : Hart) (n : Nat) (x : Word) : Hart :=
  match n with
  | 8 => if h.atLoop then { h with pcnt := some x } else { h with lcnt := x, pcnt := none }
  | 9 => if h.atLoop then { h with psta := some (addrOf x) } else { h with lsta := addrOf x, psta := none }
  | _ => if h.atLoop then { h with pend := some x } else { h with lend := x, pend := none }

/-- Bits of `xie` that a write sets: timer and team, and at S of a Headstock hart its notices (R282, R391). -/
def ieMask (core : Bool) (m : Level) : Word := if core && m == .s then 0x7E3 else 3

/-- Bits of `xip` that a one clears (R282, R391). -/
def ipMask (core : Bool) (m : Level) : Word := if m == .s then (if core then 0x7FE else 0x1E) else 2

/-- Cause bits that can be delegated (R279). -/
def cdelMask : Word := 0xFFFF87FB

/-- A write at an offset of a trap block; `none` for a `ppl` the level may not hold (R278). -/
def TrapBlock.write (b : TrapBlock) (core : Bool) (m : Level) (o : Nat) (x : Word) : Option TrapBlock :=
  match o with
  | 0 => if fieldOf x 2 2 = 3 || m.code < fieldOf x 2 2 then none else some { b with stat := x &&& 0xF }
  | 1 => some { b with vec := addrOf x }
  | 2 => some { b with cause := x &&& 0x800000000000001F }
  | 3 => some { b with val := x }
  | 4 => some { b with pc := addrOf x }
  | 5 => some { b with ie := (x &&& ieMask core m) ||| (if m == .s then 0x1C else 0) }
  | 6 => some { b with ip := b.ip &&& ~~~ (x &&& ipMask core m) }
  | 7 => some { b with scr := x }
  | _ => some { b with del := x &&& (if m == .s then cdelMask ||| 0x300000000 else cdelMask) }

/-- A write to a listed state register that may be written; `none` where it breaks the register's own rule (R276). -/
def State.writeSt (s : State) (n : Nat) (x : Word) : Option State :=
  let set (f : Hart → Hart) : Option State := some (s.mapHart f)
  match n with
  | 0 => set fun h => { h with fflags := x &&& 0x3F }
  | 1 => set fun h => { h with rngs := x }
  | 2 => set fun h => { h with fetry := x &&& 1 }
  | 3 => set fun h => { h with fwl := x &&& 0xFFFFFFFF }
  | 4 => s.writeViews x
  | 8 => set fun h => h.writeLoop 8 x
  | 9 => set fun h => h.writeLoop 9 x
  | 10 => if fieldOf x 0 2 = 3 then none else set fun h => h.writeLoop 10 x
  | 12 => set fun h => { h with tcmp := x }
  | 0x16 =>
    let w := (fieldOf x 0 5 + 1) * 256
    if Hart.viewsFit w s.hart.views then set fun h => { h with hwin := x &&& 31, wsize := w } else none
  | _ =>
    let m : Level := if n < 0x200 then .u else if n < 0x300 then .s else .f
    ((s.hart.block m).write s.isCore m (n % 256) x).map fun b => s.mapHart fun h => h.setBlock m b

/-! ## The instructions -/

/-- The checks of an access to a state register, in the order of R136 and R276. -/
def State.stAccess (s : State) (d : Reg) (n : BitVec 12) (write : Bool) (k : Out) : Out :=
  match stateReg s.isCore n.toNat with
  | none => s.trap .illegalReg s.firstWord
  | some (l, rw) =>
    s.withLevel l <| s.withRegs [d] [] <| if write && !rw then s.trap .illegalReg s.firstWord else k

/-- What a read finds, and the state after it: a Headstock hart has no cell cycle, so it reads a free value (R16, R390, LOG 2). -/
def State.stRead (s : State) (n : Nat) : Word × State := if s.isCore && n = 0x10 then s.fresh else (s.readSt n, s)

/-- `stget` (R276). -/
def execStget (d : Reg) (n : BitVec 12) (s : State) : Out :=
  s.stAccess d n false ((s.stRead n.toNat).2.writeS d (s.stRead n.toNat).1)

/-- `stset` (R276). -/
def execStset (d : Reg) (n : BitVec 12) (s : State) : Out :=
  s.stAccess d n true <|
    match s.writeSt n.toNat (s.hart.S d) with
    | none => s.trap .illegalReg s.firstWord
    | some t => t.finish

/-- `stswp` (R276): S(d) lies in the view that the instruction issued under, as a new `views` is seen by the next instruction. -/
def execStswp (d : Reg) (n : BitVec 12) (s : State) : Out :=
  s.stAccess d n true <|
    match (s.mapHart fun h => h.setS d (s.readSt n.toNat)).writeSt n.toNat (s.hart.S d) with
    | none => s.trap .illegalReg s.firstWord
    | some t => t.finish

/-- The interrupt enable of the issuing level set (R285). -/
def State.setIe (s : State) (d : Reg) (v : Nat) : Out :=
  s.withRegs [d] [] <| s.done fun h =>
    let b := h.block h.level
    (h.setBlock h.level { b with stat := setField b.stat 0 1 v }).setS d (BitVec.ofNat 64 (fieldOf b.stat 0 1))

/-- `ienb` (R285). -/
def execIenb (d : Reg) (s : State) : Out := s.setIe d 1

/-- `idis` (R285). -/
def execIdis (d : Reg) (s : State) : Out := s.setIe d 0

/-- `view` in both forms (R288). -/
def execView (o : ViewOp) (s : State) : Out :=
  let set (x : Word) : Out :=
    match s.writeViews x with
    | none => s.trap .illegalReg s.firstWord
    | some t => t.finish
  match o with
  | .reg a => s.withRegs [a] [] (set (s.hart.S a))
  | .imm v => set (v.setWidth 64)

end Sys2Proof.Machine
end

