-- ==== Sys2Proof/Machine/Launch.lean ====
section
/-! DEFINITION. Launch descriptors: their checks, placement of teams, the accepted launch (R15, R54, R55, R58, R398, R399). -/

namespace Sys2Proof.Machine

/-! ## Descriptors (R398, R400) -/

/-- A field of a descriptor's word. -/
def dField (ws : List Word) (i lo n : Nat) : Nat := fieldOf (ws.getD i 0) lo n

/-- A team table entry: its four words. -/
abbrev TeamEntry := List Word

def entryX (e : TeamEntry) : Nat := dField e 0 0 10
def entryY (e : TeamEntry) : Nat := dField e 0 10 10
def entryUnplaced (e : TeamEntry) : Bool := (e.getD 0 0).getLsbD 20
def entryMap (e : TeamEntry) : Nat := (e.getD 2 0).toNat

/-- What a kind-0 descriptor names in memory: the team table, the initial maps (empty for none), the LOCAL image and its sideband. -/
structure Tables where
  teams : List TeamEntry
  maps  : List (List Byte)
  image : List Byte
  imgSb : List Byte
  deriving DecidableEq, Repr

/-- The LOCAL image of a descriptor and its sideband. -/
def State.readImage (s : State) (ws : List Word) : Answer (List Byte × List Byte) × State :=
  let size := dField ws 3 32 32
  let loc := (ws.getD 4 0).toNat
  match s.readAll (engineAt (dField ws 0 42 6)) 0 .s [(loc, size), (loc + size, (size + 31) / 32)] with
  | (.ok l, s) => (.ok (l.getD 0 [], l.getD 1 []), s)
  | (x, s) => (x.bind fun _ => .denied, s)

/-- Reads the tables in the address space of the Headstock (LOG 7); the first read that fails answers. -/
def State.readTables (s : State) (ws : List Word) : Answer Tables × State :=
  let n := dField ws 0 16 8
  let lead := dField ws 0 42 6
  match s.engineRead (engineAt lead) 0 .s (ws.getD 14 0).toNat (32 * n) with
  | (.ok bs, s) =>
    let es := (List.range n).map fun i => leWords ((bs.drop (32 * i)).take 32)
    match s.readAll (engineAt lead) 0 .s (es.map fun e => (entryMap e, if entryMap e = 0 then 0 else 32)) with
    | (.ok ms, s) =>
      match s.readImage ws with
      | (.ok l, s) => (.ok ⟨es, ms, l.1, l.2⟩, s)
      | (x, s) => (x.bind fun _ => .denied, s)
    | (x, s) => (x.bind fun _ => .denied, s)
  | (x, s) => (x.bind fun _ => .denied, s)

/-! ## Checks (R33 to R35, R55, R398) -/

/-- Banks that a floor gives a role: its byte, and no fewer than the base minimum of R33 (LOG 46). -/
def floorCount (floor : Word) (r : Nat) : Nat := max (baseMin r) (profByte floor r)

/-- An initial map that R398 refuses: an entry that is none of R35, a role outside its banks, gaps, or counts below the floor. DESIGN CHOICE
(LOG 46): a map that gives CODE, REG or STAGE fewer banks than the base minimum of R33 is refused too. -/
def badMap (floor : Word) (m : List Byte) : Bool :=
  let role (b : Nat) : Nat := (m.getD b 0).toNat % 8
  let idx (b : Nat) : Nat := (m.getD b 0).toNat / 8
  let banks := List.range 32
  (banks.any fun b => (role b == 0 && idx b != 0) || (role b == 2 && 8 ≤ b) || (role b == 5 && b < 24)) ||
  (List.range 8).any fun r =>
    let bs := banks.filter fun b => role b == r
    r != 0 && (bs.length < floorCount floor r || !(List.range bs.length).all fun i => bs.any fun b => idx b == i)

/-- A rectangle that breaks R55. -/
def badRect (x y lw lh : Nat) : Bool :=
  9 < lw || 9 < lh || x % 2 ^ lw != 0 || y % 2 ^ lh != 0 || 768 < x + 2 ^ lw || 864 < y + 2 ^ lh

/-- Two rectangles of sizes given by their exponents meet. -/
def meet (x y lw lh x' y' lw' lh' : Nat) : Bool :=
  x < x' + 2 ^ lw' && x' < x + 2 ^ lw && y < y' + 2 ^ lh' && y' < y + 2 ^ lh

def pairsMeet (lw lh : Nat) : List TeamEntry → Bool
  | [] => false
  | e :: es => es.any (fun f => meet (entryX e) (entryY e) lw lh (entryX f) (entryY f) lw lh) || pairsMeet lw lh es

/-- A power of two from 16 to 2^20. -/
def ringOk (n : Nat) : Bool := (List.range 17).any fun k => n == 2 ^ (k + 4)

/-- The `views` value each hart of a launch is given: that of the header of the image at its base in its ASID, else the reset value (R37, R131,
R399), without its reserved bits (R10). -/
def State.launchViews (s : State) (asid base w : Nat) : Word :=
  ((s.rt.views.find? fun v => v.1 == (asid, base)).map (·.2 &&& viewsMask)).getD (viewsReset w)

/-- The reasons of code 3 that need no memory but the tables (R398). DESIGN CHOICE (LOG 46): a floor whose free byte is not 0 (R50), or whose counts
with the base minimums of R33 exceed the 32 banks, is answered with code 3 too, though R398 lists neither. -/
def State.malformed (s : State) (ws : List Word) (t : Tables) : Bool :=
  let f := dField ws
  let floor := ws.getD 12 0
  let quota := ws.getD 13 0
  let n := f 0 32 5 + 1
  let w := (f 0 37 5 + 1) * 256
  let ctx := match s.context (f 0 48 12) with
    | .ok c => (c.getD 0 0).getLsbD 0 && (c.getD 1 0).getLsbD (f 0 42 6)
    | _ => false
  f 0 3 5 != 0 || f 0 60 4 != 0 || f 9 9 7 != 0 || (!(ws.getD 0 0).getLsbD 2 && ws.getD 15 0 != 0) ||
  (t.teams.any fun e => dField e 0 21 43 != 0 || dField e 1 0 16 != 0 || e.getD 3 0 != 0) ||
  f 0 16 8 == 0 || f 6 0 32 == 0 || f 9 0 9 == 0 || 256 < f 9 0 9 || f 9 16 16 == 0 || !ringOk (f 9 32 32) ||
  16 < n || 53 < f 0 42 6 || profByte floor 1 * 4096 < n * w ||
  profByte floor 0 != 0 || ((List.range 8).any fun r => r != 0 && profByte quota r < profByte floor r) || 8 < profByte floor 2 || 8 < profByte floor 5 ||
  32 < ((List.range 8).map (floorCount floor)).foldl (· + ·) 0 ||
  f 5 0 6 != 0 || f 7 0 2 != 0 || f 8 0 3 != 0 || f 10 0 2 != 0 || !ctx ||
  (t.maps.any fun m => !m.isEmpty && badMap floor m) || profByte floor 3 * 4096 < f 3 32 32 ||
  !Hart.viewsFit w (s.launchViews (f 0 48 12) (ws.getD 1 0).toNat w)

/-- A rectangle meets a cell that a placed team of some launch that a condition picks holds. -/
def State.meetsTeam (s : State) (p : Launch → Bool) (x y lw lh : Nat) : Bool :=
  s.launches.any fun l => p l && l.teams.any fun t => t.placed && meet x y lw lh t.x0 t.y0 l.lw l.lh

/-- A rectangle meets a cell that some placed team holds. -/
def State.held? (s : State) (x y lw lh : Nat) : Bool := s.meetsTeam (fun _ => true) x y lw lh

/-- The lowest identifier that no launch holds. -/
def State.freeId (s : State) : Option Nat :=
  (List.range 65535).findSome? fun i => if s.launches.any (fun l => l.id == i + 1) then none else some (i + 1)

/-- The code of a kind-0 descriptor whose tables are read: the first of 3, 1, 2 and 4 (R398). Code 1 judges every entry of the team table, code 4
the placed ones. -/
def State.launchCode (s : State) (ws : List Word) (t : Tables) : Nat :=
  let lw := dField ws 0 24 4
  let lh := dField ws 0 28 4
  let placed := t.teams.filter fun e => !entryUnplaced e
  if s.malformed ws t then 3
  else if (t.teams.any fun e => badRect (entryX e) (entryY e) lw lh) || pairsMeet lw lh t.teams then 1
  else if (ws.getD 0 0).getLsbD 2 && (ws.getD 15 0).toNat ≤ s.tbase then 2
  else if (placed.any fun e => s.held? (entryX e) (entryY e) lw lh) ||
      64 ≤ (s.launches.filter fun l => l.lead == dField ws 0 42 6).length || s.freeId.isNone then 4
  else 0

/-! ## Placement (R15, R399) -/

/-- Banks that a floor gives the roles (R33, R399). -/
def floorMap (floor : Word) : List Byte :=
  let n (r : Nat) : Nat := floorCount floor r
  let low := List.replicate (n 2) 2 ++ List.replicate (n 1) 1 ++ List.replicate (n 6) 6 ++ List.replicate (n 4) 4 ++ List.replicate (n 7) 7
  let p := low.length
  let lowLocal := min (n 3) (24 - p)
  let mat0 := max p 24
  let role (b : Nat) : Nat :=
    if b < p then low.getD b 0
    else if b < p + lowLocal then 3
    else if mat0 ≤ b && b < mat0 + n 5 then 5
    else 0
  let rest := (((List.range 32).reverse.filter fun b => role b == 0).take (n 3 - lowLocal))
  let full (b : Nat) : Nat := if rest.contains b then 3 else role b
  (List.range 32).map fun b =>
    let r := full b
    BitVec.ofNat 8 (if r = 0 then 0 else r + 8 * ((List.range b).filter fun a => full a == r).length)

/-- A cell's bank map as a vector. -/
def bankVector (m : List Byte) : Vector Byte 32 := Vector.ofFn fun i : Fin 32 => m.getD i.val 0

/-- What a cell keeps when it is placed, freed or restored: its number, its clock and its power. -/
def Cell.powerOf (c old : Cell) : Cell :=
  { c with no := old.no, cycle := old.cycle, tick := old.tick, acc := old.acc, div := old.div, newDiv := old.newDiv, m := old.m, on := old.on, scap := old.scap,
           prot := old.prot, removed := old.removed }

/-- A cell that is to serve a team runs: its clock starts anew where it was off (R16, R404). -/
def State.poweredCell (s : State) (n : Nat) : Cell :=
  let c := s.cellAt n
  if c.on then c else { c.startAt s.tbase with on := true }

/-- A cell of a placed team (R399): banks mapped and zero, the LOCAL image written, harts resident and parked through `waitw`. -/
def State.placedCell (s : State) (l : Launch) (v : Serving) (old : Cell) (map : List Byte) (t : Tables) : Cell :=
  let h := Hart.resident l.wsize (s.launchViews l.asid l.imageBase l.wsize) (addrOf s.rt.svec) (addrOf s.rt.fvec)
  let c : Cell := { Cell.reset old.no with
    banks := bankVector (if map.isEmpty then floorMap l.floor else map), floor := l.floor, quota := l.quota,
    serving := some v, nres := l.nres,
    loc := Mem.write [] 0 t.image, locSb := Mem.write [] 0 t.imgSb,
    harts := Vector.ofFn fun k : Fin 16 => if k.val < l.nres then h else { Hart.reset with wsize := l.wsize } }
  (c.powerOf old).raiseHigh

/-- Places a team: every cell of its rectangle serves it (R399), but those of a die whose tier is gated, which hold nothing (R412). -/
def State.placeTeam (s : State) (id no : Nat) (x0 y0 : Nat) (map : List Byte) (tb : Tables) : State :=
  match s.launch? id with
  | none => s
  | some l => match l.team? no with
    | none => s
    | some t =>
      let s := s.putLaunch (l.putTeam { t with x0 := x0, y0 := y0, placed := true, image := [] })
      ((List.range (2 ^ l.lh)).flatMap fun j => (List.range (2 ^ l.lw)).map fun i => (i, j)).foldl (fun s p =>
        let n := cellNo (x0 + p.1) (y0 + p.2)
        if (s.dieAt (dieOf n)).tier then s.putCell (s.placedCell l ⟨id, no, p.1, p.2⟩ (s.poweredCell n) map tb) else s) s

/-- A team as its table entry gives it, not yet placed. -/
def teamFrom (no : Nat) (e : TeamEntry) : Team :=
  { no := no, x0 := entryX e, y0 := entryY e, placed := false, save := (e.getD 1 0).toNat, savedAt := 0, map := entryMap e, starve := none,
    starved := false, swap := none, moved := none, image := [] }

/-- The nodes present at launch, read by the engine of the lead die; one whose read faults is found malformed when it is checked, and one in a held
page is read after its MOVE (R61, R346). -/
def State.firstNodes (s : State) (lead asid base : Nat) : List Nat → List Node → List Node × State
  | [], acc => (acc.reverse, s)
  | i :: is, acc =>
    match s.engineRead (engineAt lead) asid .s (base + 64 * i) 64 with
    | (.wait, s) => s.firstNodes lead asid base is ({ nodeFrom i [] with st := .unread 0 } :: acc)
    | (.ok bs, s) => s.firstNodes lead asid base is (nodeFrom i (leWords bs) :: acc)
    | (_, s) => s.firstNodes lead asid base is (nodeFrom i [] :: acc)

/-- The launch of a descriptor, its teams not yet placed. -/
def launchFrom (id : Nat) (ws : List Word) (t : Tables) (nodes : List Node) : Launch :=
  let f := dField ws
  { id := id, desc := ws, asid := f 0 48 12, lead := f 0 42 6, lw := f 0 24 4, lh := f 0 28 4, prio := f 0 8 8, nres := f 0 32 5 + 1,
    wsize := (f 0 37 5 + 1) * 256, teams := (t.teams.zip (List.range t.teams.length)).map fun p => teamFrom p.2 p.1,
    nodes := nodes, next := f 6 32 32, pointer := 0, age := 0, ring := [], written := 0, heldRecs := [], spills := 0,
    gangWait := (ws.getD 0 0).getLsbD 2, drained := false, ended := false }

/-- The answer word of `launch` (R292). -/
def answerWord (code id : Nat) : Word := BitVec.ofNat 64 (code + 2 ^ 16 * id)

/-- The lead die judges a kind-0 descriptor, and accepts it: its teams are placed but those marked unplaced (R398, R399). `none` waits
for a held page, or for a context entry on a stack in self-refresh (R419). -/
def State.acceptLaunch (s : State) (ws : List Word) : Option (Word × State) :=
  match s.readTables ws with
  | (.wait, _) => none
  | (.ok t, s) =>
    let code := s.launchCode ws t
    if s.context (dField ws 0 48 12) == .wait then none
    else if code != 0 then some (answerWord code 0, s)
    else match s.freeId with
      | none => some (answerWord 4 0, s)
      | some id =>
        let p := s.firstNodes (dField ws 0 42 6) (dField ws 0 48 12) (ws.getD 5 0).toNat (List.range (dField ws 6 32 32)) []
        let s := { p.2 with launches := p.2.launches ++ [launchFrom id ws t p.1] }
        let s := (t.teams.zip (t.maps.zip (List.range t.teams.length))).foldl (fun s e =>
          if entryUnplaced e.1 then s else s.placeTeam id e.2.2 (entryX e.1) (entryY e.1) e.2.1 t) s
        some (answerWord 0 id, s)
  | (_, s) => some (answerWord 3 0, s)

/-- LAUNCH_ACCEPT (R398). A descriptor of another kind, and one that is refused or whose tables lie in a held page, changes nothing. -/
def execLaunchAccept (desc : List Word) (s : State) : Out :=
  if dField desc 0 0 2 != 0 then .next s
  else .next (((s.acceptLaunch desc).map Prod.snd).getD s)

end Sys2Proof.Machine
end

