-- ==== Sys2Proof/Machine/Image.lean ====
section
/-! DEFINITION. The save image of a team cell, written and read back, and pushes for a team that has left its cells (R53, R386, R400, R401). -/

namespace Sys2Proof.Machine

/-! ## Written (R53, R400) -/

/-- Registers of R277 that a swap saves, in ascending number. -/
def Hart.savedRegs (h : Hart) : List Word :=
  let b (x : TrapBlock) : List Word := [x.stat, x.vec, x.cause, x.val, x.pc, x.ie, x.ip, x.scr]
  [h.fflags, h.rngs, h.fetry, h.fwl, h.views, h.pcnt.getD h.lcnt, h.psta.getD h.lsta, h.pend.getD h.lend, h.tcmp] ++
  b h.tu ++ b h.ts ++ [h.ts.del] ++ b h.tf ++ [h.tf.del]

/-- The row of R19 that a wait belongs to, from 0. -/
def WaitCause.row : WaitCause → Nat
  | .barrier => 0
  | .fullEmpty => 1
  | .remote => 1
  | .queue => 2
  | .data => 3
  | .fetch => 3
  | .teamBarrier => 4
  | .boundary => 5
  | .sleep => 6
  | .wfi => 7

/-- The wait a hart is in, or was in when a swap stopped it. -/
def Hart.waitCause (h : Hart) : Option WaitCause :=
  match h.st with
  | .wait c => some c
  | _ => h.left

/-- The state of R18 by its row, from 0; a wait that a swap has abandoned counts as WAIT (LOG 32). -/
def Hart.stateCode (h : Hart) : Nat :=
  if h.paused then 4
  else match h.st with
    | .absent => 0
    | .park _ => 3
    | _ => if h.waitCause.isSome then 2 else 1

/-- The state word of a saved hart (R400): state of R18, level, wait cause. -/
def Hart.stateWord (h : Hart) : Nat := h.stateCode + 8 * h.level.code + 256 * ((h.waitCause.map WaitCause.row).getD 0)

/-- The 512 bytes of a hart. -/
def Hart.savedBytes (h : Hart) : List Byte :=
  let ws := [h.pc, BitVec.ofNat 64 h.stateWord] ++ List.replicate 6 0 ++ h.savedRegs
  (ws.flatMap fun w => leBytes 8 w.toNat) ++ zeros (512 - 8 * ws.length)

/-- REG as role bytes, from the windows of the resident harts (R36). -/
def Cell.regBytes (c : Cell) (w a n : Nat) : List Byte :=
  (List.range n).map fun i => (c.harts.toList.getD ((a + i) / w) Hart.reset).win.byte ((a + i) % w)

def Cell.regSb (c : Cell) (w a n : Nat) : List Byte :=
  (List.range n).map fun i => (c.harts.toList.getD ((a + i) * 32 / w) Hart.reset).winSb.byte ((a + i) * 32 % w / 32)

/-- FIELD as role bytes: the sites of a cell by local index (R80). -/
def State.siteMem (s : State) (n : Nat) : Mem :=
  match s.cellField n with
  | none => []
  | some f =>
    let cs := s.fieldCells f
    (List.range f.n).foldl (fun m i =>
      let h := f.siteHome i
      if cs.getD h.1 0 == n then m.write (h.2 * f.size) (leBytes f.size (f.value i)) else m) []

/-- Data and sideband bytes of bank `b` of a cell. -/
def State.bankBytes (s : State) (c : Cell) (w b : Nat) : List Byte × List Byte :=
  let a := 4096 * c.bankIndex b
  match c.role b with
  | 1 => (c.regBytes w a 4096, c.regSb w (a / 32) 128)
  | 3 => (c.loc.read a 4096, c.locSb.read (a / 32) 128)
  | 5 => (c.mat.read a 4096, c.matSb.read (a / 32) 128)
  | 7 => ((s.siteMem c.no).read a 4096, zeros 128)
  | _ => ([], [])

/-- Bytes written at a physical address, past any on-die line of it. -/
def State.putPhys (s : State) (pa : Nat) (bs : List Byte) : State :=
  (linePieces pa bs.length).foldl (fun (r : State × List Byte) p =>
    ((r.1.dropLine (windowKey p.1)).storeMem p.1 false (r.2.take p.2) [], r.2.drop p.2)) (s, bs) |>.1

/-- The arrivals of a team barrier as one word: the subgroup word, the slots that have arrived, the slots expected (LOG 32). -/
def Tbar.packed (b : Tbar) : Word := BitVec.ofNat 64 (b.word.toNat + 2 ^ 32 * b.arrived.toNat + 2 ^ 48 * b.mask.toNat)

def Tbar.ofWord (w : Word) : Tbar := { word := w.extractLsb' 0 32, mask := w.extractLsb' 48 16, arrived := w.extractLsb' 32 16 }

/-- What follows the bank map in the image, up to the harts: the active plane, the format word, the status and the phase of the field held, the
arrivals of team barriers (LOG 32). -/
def State.headWords (s : State) (c : Cell) : List Word :=
  let f := match s.cellField c.no with
    | some f => [f.status ||| BitVec.ofNat 64 (256 * boolNat f.swapPause), BitVec.ofNat 64 f.phase]
    | none => [BitVec.allOnes 64, 0]
  let ws := [BitVec.ofNat 64 (boolNat c.aplane), c.fmtWord] ++ f ++ c.tbars.map Tbar.packed
  ws ++ List.replicate (28 - ws.length) 0

/-- The first 256 bytes of a cell's image. -/
def State.headBytes (s : State) (c : Cell) : List Byte := c.banks.toList ++ (s.headWords c).flatMap fun w => leBytes 8 w.toNat

/-- The image of a cell written to memory: its bank map and its engine's and barriers' state, its harts and its REG, LOCAL, MAT and FIELD banks
(R400). -/
def State.writeImage (s : State) (c : Cell) (w a : Nat) : State :=
  let s := s.putPhys a (s.headBytes c)
  let s := (List.finRange 16).foldl (fun s k => s.putPhys (a + 0x100 + 512 * k.val) (c.hart k).savedBytes) s
  (List.range 32).foldl (fun s b =>
    let p := s.bankBytes c w b
    s.putPhys (a + 0x4000 + 0x1080 * b) (p.1 ++ p.2)) s

/-! ## Read back (R400, R401) -/

/-- The bytes at a physical address, or those given where no memory answers for them. -/
def State.getPhys (s : State) (pa : Nat) (old : List Byte) : List Byte :=
  (linePieces pa old.length).foldl (fun (r : List Byte × List Byte) p =>
    (r.1 ++ (match s.physLine false (p.1 / 128 * 128) with
      | .ok x => (x.1.drop (p.1 % 128)).take p.2
      | _ => r.2.take p.2), r.2.drop p.2)) ([], old) |>.1

/-- A trap block as words of a save area give it, by a write of each register (R10); bits that the area cannot hold keep the saved value. -/
def TrapBlock.load (b : TrapBlock) (m : Level) (w : Nat → Word) : TrapBlock :=
  let b := [0, 1, 2, 3, 4, 5, 7].foldl (fun (b : TrapBlock) o => (b.write false m o (w o)).getD b) b
  let b := { b with ip := w 6 &&& ipMask false m }
  if m == .u then b else (b.write false m 8 (w 8)).getD b

/-- The registers of R277 in the words of a save area, without their reserved bits (R10); a `views` value that R38 refuses is not taken. A loop
register whose word is the one saved keeps its pending value (R171). -/
def Hart.loadRegs (h : Hart) (ws : List Word) : Hart :=
  let w (i : Nat) : Word := ws.getD i 0
  let views := w 4 &&& viewsMask
  let cnt := w 5 == h.pcnt.getD h.lcnt
  let sta := w 6 == h.psta.getD h.lsta
  let end_ := w 7 == h.pend.getD h.lend
  { h with
    fflags := w 0 &&& 0x3F, rngs := w 1, fetry := w 2 &&& 1, fwl := w 3 &&& 0xFFFFFFFF, views := if viewsFit h.wsize views then views else h.views,
    tcmp := w 8,
    lcnt := if cnt then h.lcnt else w 5, pcnt := if cnt then h.pcnt else none,
    lsta := if sta then h.lsta else addrOf (w 6), psta := if sta then h.psta else none,
    lend := if end_ then h.lend else w 7, pend := if end_ then h.pend else none,
    tu := h.tu.load .u fun o => w (9 + o), ts := h.ts.load .s fun o => w (17 + o), tf := h.tf.load .f fun o => w (26 + o) }

/-- The state of R18 in a saved word, where it is not the one saved; a hart in WAIT issues its instruction again (R74). -/
def Hart.loadState (h : Hart) (n : Nat) : Hart :=
  if n = h.stateCode then h
  else match n with
    | 0 => { h with st := .absent, paused := false }
    | 1 => { h with st := .run, paused := false }
    | 2 => { h with st := .run, paused := false }
    | 3 => { h with st := .park false, paused := false }
    | 4 => { h with paused := true }
    | _ => h

/-- The 512 bytes of a hart read back. One whose pc is not the one saved has no instruction of the saved pc under way. -/
def Hart.load (h : Hart) (bs : List Byte) : Hart :=
  let ws := leWords bs
  let st := ws.getD 1 0
  let pc := addrOf (ws.getD 0 0)
  let h := if pc == h.pc then h else h.settle
  { (h.loadState (fieldOf st 0 3)).loadRegs (ws.drop 8) with pc := pc, level := Level.ofCode (fieldOf st 3 2), left := none }

/-- The part of `bs`, which lies at role offset `a`, that falls into window `k` of `w` bytes: its place there, and its bytes. -/
def windowPart (w k a : Nat) (bs : List Byte) : Nat × List Byte :=
  let lo := max a (k * w)
  (lo - k * w, (bs.drop (lo - a)).take ((k + 1) * w - lo))

/-- A bank's data and sideband put back into its role. -/
def Cell.loadBank (c : Cell) (w b : Nat) (data sb : List Byte) : Cell :=
  let a := 4096 * c.bankIndex b
  match c.role b with
  | 1 => { c with harts := Vector.ofFn fun k : Fin 16 =>
      let h := c.hart k
      let p := windowPart w k.val a data
      let q := windowPart (w / 32) k.val (a / 32) sb
      { h with win := h.win.write p.1 p.2, winSb := h.winSb.write q.1 q.2 } }
  | 3 => { c with loc := c.loc.write a data, locSb := c.locSb.write (a / 32) sb }
  | 5 => { c with mat := c.mat.write a data, matSb := c.matSb.write (a / 32) sb }
  | _ => c

/-- Where the area of a team cell begins (R400). -/
def saveArea (base : Nat) (l : Launch) (v : Serving) : Nat := base + (v.ty * 2 ^ l.lw + v.tx) * 0x25000

/-- A saved cell as its area holds it now: what the layout of R400 places there is read from memory, the rest is as it was saved (LOG 32). -/
def State.imageCell (s : State) (l : Launch) (base : Nat) (c : Cell) : Cell :=
  match c.serving with
  | none => c
  | some v =>
    let a := saveArea base l v
    let head := s.getPhys a (s.headBytes c)
    let ws := leWords (head.drop 32)
    let c := { c with
      banks := bankVector (head.take 32), aplane := (ws.getD 0 0).getLsbD 0,
      fmtWord := if fmtWordOk (ws.getD 1 0) then ws.getD 1 0 else c.fmtWord,
      tbars := ((ws.drop 4).filter (· != 0)).map Tbar.ofWord,
      harts := Vector.ofFn fun k : Fin 16 =>
        if k.val < c.nres then (c.hart k).load (s.getPhys (a + 0x100 + 512 * k.val) (c.hart k).savedBytes) else c.hart k }
    (List.range 32).foldl (fun c b =>
      let old := s.bankBytes c l.wsize b
      let new := s.getPhys (a + 0x4000 + 0x1080 * b) (old.1 ++ old.2)
      c.loadBank l.wsize b (new.take 4096) (new.drop 4096)) c

/-- Bytes of a saved cell's LOCAL, with the sideband of their granules, written to its area. -/
def State.putImage (s : State) (a : Nat) (c : Cell) (off n : Nat) : State :=
  let part (s : State) (o k : Nat) : State :=
    if k = 0 then s
    else match c.bankAt 3 (o / 4096) with
      | none => s
      | some b =>
        let at_ := a + 0x4000 + 0x1080 * b
        let g := o / 32
        (s.putPhys (at_ + o % 4096) (c.loc.read o k)).putPhys (at_ + 4096 + g % 128) (c.locSb.read g ((o + k - 1) / 32 + 1 - g))
  let k := Nat.min n (4096 - off % 4096)
  part (part s off k) (off + k) (n - k)

/-- The sites of a team's fields as their FIELD banks in the areas hold them. -/
def State.loadSites (s : State) (l : Launch) (no base : Nat) : State :=
  let load (f : Field) : Field :=
    let cs := s.fieldCells f
    let site (i : Nat) : Nat :=
      let h := f.siteHome i
      let c := s.cellAt (cs.getD h.1 0)
      let o := h.2 * f.size
      match c.serving, c.bankAt 7 (o / 4096) with
      | some v, some b => leNat (s.getPhys (saveArea base l v + 0x4000 + 0x1080 * b + o % 4096) (leBytes f.size (f.value i)))
      | _, _ => f.value i
    { f with sites := (List.range f.sites.length).map site }
  { s with fields := s.fields.map fun f => if f.launch == l.id && f.team == no then load f else f }

/-! ## Pushes for a team that has left its cells (R386, R387) -/

/-- NDIV counts a push that a target cell sent to a graph engine (R387). -/
def State.countDiverted (s : State) (die : Nat) : State :=
  let w := s.devReg (netBlock die + 0x18)
  s.setDevReg (netBlock die + 0x18) (setField w 0 32 (Nat.min (fieldOf w 0 32 + 1) 0xFFFFFFFF))

/-- A whole push performed in a cell of an image. -/
def Cell.performPush (c : Cell) (p : Push) : Cell :=
  (if p.sb.isEmpty then c.lwrite p.off p.bytes else c.lwriteSb p.off p.bytes p.sb).credit p.robj p.size false

/-- The lead die's graph engine disposes of a push that its target cell does not serve (R386): it goes on to the cell that serves the
coordinates now, or into the team's saved image, or fails. -/
def State.teamDelivery (s : State) (n : Nat) : Option State :=
  ((s.cellAt n).pushes.find? fun p => p.state == .peer && s.pushTarget p != some p.cell).map fun p =>
    let s := s.countDiverted (dieOf p.cell)
    let fail := s.pushDone n p.cell p true
    match p.serving with
    | none => fail
    | some v => match s.launch? v.launch with
      | none => fail
      | some l => match s.pushTarget p with
        | some m =>
          if m = n then (s.takeOut p.cell p.id).mapPush n p fun x => { x with cell := m, wrote := 0, ready := (s.cellAt n).cycle }
          else
            let t := (s.takeOut p.cell p.id).mapPush n p fun x => { x with state := .travel, cell := m, wrote := 0 }
            t.sendPacket (s.packetFrom p.id .piece (p.bytes.length + p.sb.length) (some (v.launch, v.team)) p.cell [m]) s.instant
        | none => match l.team? v.team with
          | none => fail
          | some t =>
            let here (i : Cell) : Bool := match i.serving with
              | some w => w.tx == p.tx && w.ty == p.ty
              | none => false
            match t.image.find? here with
            | none => fail
            | some i =>
              let i := s.imageCell l t.savedAt i
              if i.takesPush p then
                let i := i.performPush p
                let t := { t with image := mapFirst here (fun _ => i) t.image }
                let a := saveArea t.savedAt l ⟨l.id, t.no, p.tx, p.ty⟩
                let s := ((s.putLaunch (l.putTeam t)).putImage a i p.off p.bytes.length).putImage a i p.robj 16
                s.pushDone n p.cell p false
              else fail

/-- A piece that stands in a cell's input and that no cell has a record of: its sender's team is gone with its objects. It goes to the graph engine, which
counts it, and credits nothing (R386, R387). -/
def State.orphan (s : State) : Option State :=
  s.net.bufs.findSome? fun b =>
    if !isCell b.node then none
    else
      let n := b.node - 4000
      (b.queue.find? fun x => x.pkt.kind == .piece && !s.cells.any fun c => c.pushes.any fun p => p.id == x.pkt.id && p.cell == n).map fun x =>
        (s.takeOut n x.pkt.id).countDiverted (dieOf n)

/-- TEAM_DELIVERY: a push of cell `c` that its target does not serve is disposed of by the graph engine (R386). -/
def execTeamDelivery (c : Nat) (s : State) : Out := .next ((s.teamDelivery c).getD s)

end Sys2Proof.Machine
end

