-- ==== Sys2Proof/Machine/Swap.lean ====
section
/-! DEFINITION. Swap-out, swap-in and the end of a launch; team interrupts (R53, R74, R100, R282, R386, R391, R400, R401). -/

namespace Sys2Proof.Machine

/-! ## The first steps (R74, R401) -/

/-- A team's harts leave the tasks a swap ends: REPLAY attempts abort with the reason; a node chosen and not yet started is ready again. -/
def Hart.beginSwap (h : Hart) (reason : Nat) : Hart :=
  let h := { h with chosen := none }
  match h.task with
  | some t => if t.replay && t.ending.isNone then h.endTask (.again reason) else h
  | none => h

/-- Nodes chosen for the harts of a cell, ready again from now. -/
def State.unchoose (s : State) (c : Cell) : State :=
  c.harts.toList.foldl (fun s h =>
    match h.chosen with
    | none => s
    | some t => match s.launch? t.launch with
      | none => s
      | some l => match l.node? t.node with
        | none => s
        | some n => s.readyNode l n) s

/-- A cell at the swap request: its tasks, and the swap interrupt of slot 0 (R74, R282). -/
def Cell.beginSwap (c : Cell) (reason : Nat) : Cell :=
  let c := (List.finRange 16).foldl (fun c k => if ((c.hart k).task.map (·.replay)).getD false then c.abandon k else c) c
  { c with harts := Vector.ofFn fun k : Fin 16 =>
      let h := (c.hart k).beginSwap reason
      if k.val = 0 && c.nres != 0 then h.raiseIp .s 4 else h }

/-- The fields of a team. -/
def State.teamFields (s : State) (id no : Nat) : List Field := s.fields.filter fun f => f.launch == id && f.team == no

/-- The team's sweeping fields pause at the swap's request. -/
def State.pauseFields (s : State) (id no : Nat) : State :=
  { s with fields := s.fields.map fun f =>
      if f.launch == id && f.team == no && f.st == .sweeping then { f with st := .pausing, swapPause := true } else f }

/-- The team's record of its swap changed. -/
def State.putSwap (s : State) (id no : Nat) (w : Option Swap) : State :=
  match s.launch? id with
  | none => s
  | some l => match l.team? no with
    | none => s
    | some t => s.putLaunch (l.putTeam { t with swap := w })

/-- A re-division of some cell of the team is in progress (R53). -/
def State.dividing (s : State) (cells : List Nat) : Bool :=
  cells.any fun n => (s.cellAt n).rediv.isSome || !(s.cellAt n).redivQ.isEmpty

/-- Steps 1 and 2 of R401. -/
def State.startSwap (s : State) (id no : Nat) (w : Swap) : State :=
  let cells := s.teamCells id no
  let s := cells.foldl (fun s n => s.unchoose (s.cellAt n)) s
  let reason := if w.kind == .save then 0x13 else 0x12
  let s := cells.foldl (fun s n => s.putCell ((s.cellAt n).beginSwap reason)) s
  (s.putSwap id no (some { w with phase := .waitFields })).pauseFields id no

/-- A swap of a team is requested: it begins once no re-division is in progress (R53, R401). -/
def State.beginSwap (s : State) (id no : Nat) (kind : SwapKind) (save done : Nat) : State :=
  let w : Swap := { phase := .waitPool, kind := kind, since := s.tbase, save := save, done := done, back := [] }
  if (s.team? id no).isNone then s
  else if s.dividing (s.teamCells id no) then s.putSwap id no (some w)
  else s.startSwap id no w

/-- A field moved by the swap alone sweeps again: its pause is withdrawn, or it starts from its phase (R83, R100, R401). -/
def Field.resume (f : Field) : Field :=
  if !f.swapPause then f
  else if f.st == .pausing then { f with st := .sweeping, swapPause := false }
  else if f.st == .idle then { f with st := .sweeping, swapPause := false, todo := f.phaseSites f.phase }
  else { f with swapPause := false }

def State.resumeFields (s : State) (id no : Nat) : State :=
  { s with fields := s.fields.map fun f => if f.launch == id && f.team == no then f.resume else f }

/-- The done word of a finished swap or end, in ASID 0 (R400); no other swap writes one (R402). -/
def State.writeDone (s : State) (id : Nat) (w : Swap) (v : Nat) : State :=
  if w.kind == .out || w.kind == .ends then s.writeOwed ⟨((s.launch? id).map (·.lead)).getD 0, 0, w.done, leBytes 8 v, true⟩ else s

/-- Every field of the team is IDLE. -/
def State.fieldsIdle (s : State) (id no : Nat) : Bool := (s.teamFields id no).all fun f => f.st == .idle

/-- The swap grace has passed (R391, R401). -/
def State.graceOver (s : State) (w : Swap) : Bool := w.since + fieldOf s.head.swg 0 32 ≤ s.tbase

/-! ## Stopping harts (R74) -/

/-- The hart can be stopped at this slot boundary: it waits for no data of a load or atomic. -/
def Hart.mayStop (h : Hart) : Bool := h.st != .wait .data

/-- The hart of slot `k` is stopped; its wait, if any, is abandoned (R21), and a request that it has sent goes on. -/
def Cell.freeze (c : Cell) (k : Slot) : Cell :=
  match (c.hart k).st with
  | .wait w => let c := c.abandon k; c.setHart k { c.hart k with frozen := true, left := some w }
  | _ => c.setHart k { c.hart k with frozen := true, left := none }

/-- Resident harts of a cell that a condition picks and that can be stopped now are stopped. -/
def Cell.freezeAll (c : Cell) (p : Slot → Bool) : Cell :=
  (List.finRange 16).foldl (fun c k =>
    let h := c.hart k
    if k.val < c.nres && p k && !h.frozen && h.mayStop then c.freeze k else c) c

/-- Every resident hart that a swap stops is stopped: slot 0 is not, by a declaration (R74, R370). -/
def Cell.allFrozen (c : Cell) (w : Swap) : Bool :=
  (List.finRange 16).all fun k => c.nres ≤ k.val || (c.hart k).frozen || (k.val == 0 && w.kind == .declare)

/-- Slot 0 has returned from its handler, or the grace has passed. -/
def State.slot0Stops (s : State) (w : Swap) (n : Nat) : Bool := w.kind != .declare && (w.back.contains n || s.graceOver w)

/-- Harts of a cell that step 3 and step 4 stop. -/
def State.stopCell (s : State) (w : Swap) (n : Nat) : Cell :=
  (s.cellAt n).freezeAll fun k => (k.val != 0 || s.slot0Stops w n) && !s.attempting n k

/-- `eret` of slot 0 from the swap handler (R401). -/
def State.noteReturn (s : State) : State :=
  match s.cur, s.cell.serving with
  | .cell n, some v =>
    if s.cell.slot.val = 0 && s.hart.ts.cause == BitVec.ofNat 64 (2 ^ 63 + 4) && s.hart.level == .s then
      match s.team? v.launch v.team with
      | some t => match t.swap with
        | some w => s.putSwap v.launch v.team (some { w with back := n :: w.back })
        | none => s
      | none => s
    else s
  | _, _ => s

/-! ## The image (R53, R400) -/

/-- Nothing is left in the cell's engines, store paths and Chucks. -/
def Cell.quiet (c : Cell) : Bool :=
  c.mq.isEmpty && c.cq.isEmpty && c.pushes.isEmpty && c.credits.isEmpty &&
  c.harts.toList.all fun h => h.held.isEmpty && h.heldRec.isNone && (match h.task with
    | some t => t.ending.isNone
    | none => true)

/-- A hart as its image holds it: not held back, and with no answer outstanding; an instruction that issues again until one comes asks anew. -/
def Hart.saved (h : Hart) : Hart :=
  { h with frozen := false, asks := [], got := [], check := match h.check with
    | .sent _ => .idle
    | c => c }

/-- A cell's contents as the image holds them: no line of CACHE or CODE. -/
def Cell.saved (c : Cell) : Cell := { c with cache := [], code := [], harts := c.harts.map Hart.saved }

/-- The team waits for an answer of a field, ends a field, or divides a pool. -/
def State.teamBusy (s : State) (id no : Nat) : Bool :=
  (s.net.asks.any fun r => r.launch == id && r.team == no) || ((s.teamFields id no).any fun f => f.st == .ending) ||
  s.dividing (s.teamCells id no)

/-- A cell that serves no team any more. -/
def State.freeCell (s : State) (n : Nat) : State := s.putCell ((Cell.reset n).powerOf (s.cellAt n))

/-- The image is written and the cells are freed: steps 5 and 6 of R401. -/
def State.saveTeam (s : State) (l : Launch) (t : Team) (w : Swap) : State :=
  let cells := s.teamCells l.id t.no
  let s := if w.save = 0 then s
    else (cells.zip (List.range cells.length)).foldl (fun s p => s.writeImage (s.cellAt p.1) l.wsize (w.save + p.2 * 0x25000)) s
  let image := cells.map fun n => (s.cellAt n).saved
  let s := s.putLaunch (l.putTeam { t with placed := false, image := image, swap := none, savedAt := w.save })
  (cells.foldl State.freeCell s).writeDone l.id w 1

/-! ## Steps 3 to 6 (R401) -/

/-- The swap is refused: dispatch resumes and the fields it paused go on. -/
def State.refuseSwap (s : State) (id no : Nat) (w : Swap) : State :=
  ((s.putSwap id no none).resumeFields id no).writeDone id w 3

/-- The next step of a team's swap-out that is due. DESIGN CHOICE (LOG 32): a field that an `fstart` sets sweeping again after the wait of step 3 is
waited for no second time; the team is saved with it SWEEPING. -/
def State.swapStep (s : State) (id no : Nat) : Option State :=
  (s.launch? id).bind fun l => (l.team? no).bind fun t => t.swap.bind fun w =>
    let cells := s.teamCells id no
    match w.phase with
    | .waitPool => if s.dividing cells then none else some (s.startSwap id no w)
    | .waitFields =>
      if w.kind == .ends then none
      else if s.fieldsIdle id no then
        if s.dividing cells then none else some (s.putSwap id no (some { w with phase := .stopSlot0 }))
      else if s.graceOver w then some (s.refuseSwap id no w)
      else none
    | .stopSlot0 =>
      if cells.all fun n => (s.cellAt n).allFrozen w then some (s.putSwap id no (some { w with phase := .drain }))
      else if cells.any fun n => s.stopCell w n != s.cellAt n then
        some (cells.foldl (fun s n => s.putCell (s.stopCell w n)) s)
      else none
    | .drain => if w.kind != .declare && !s.teamBusy id no && cells.all fun n => (s.cellAt n).quiet then some (s.saveTeam l t w) else none

/-! ## The end (R401) -/

/-- A task that an end stops is recorded failed (R401). -/
def endedRec (t : Task) (hart : Nat) : TaskRecord :=
  { node := t.node, launch := t.launch, team := t.team, kind := 1, precise := !t.replay, hart := hart, attempt := t.attempt,
    reason := 0x20, detail := 0xFFFFFF, minimum := 0, page := none }

/-- The records of a cell's harts when its launch ends. -/
def Cell.endRecords (c : Cell) : List TaskRecord :=
  (List.finRange 16).flatMap fun k =>
    (c.hart k).heldRec.toList ++ ((c.hart k).task.map fun t => endedRec t (hartNo c.no k)).toList

/-- No hart of the cell has an attempt whose abort is still to be recorded (R67, R401). -/
def Cell.noEnding (c : Cell) : Bool := c.harts.toList.all fun h => !(h.task.any fun t => t.ending.isSome)

/-- Every team's fields are IDLE, no cell re-divides, and the aborts of step 1 have their records. -/
def State.endReady (s : State) (l : Launch) : Bool :=
  (l.teams.filter (·.placed)).all fun t =>
    (t.swap.map (·.phase)) == some .waitFields && s.fieldsIdle l.id t.no && !s.dividing (s.teamCells l.id t.no) &&
    (s.teamCells l.id t.no).all fun n => (s.cellAt n).noEnding

/-- Harts stop, held tasks fail, those of swapped-out teams too, fields go, cells are freed; the kind-4 record follows the tasks' (R401). -/
def State.finishEnd (s : State) (l : Launch) : State :=
  let cells := (l.teams.filter (·.placed)).flatMap fun t => s.teamCells l.id t.no
  let recs := (cells.map s.cellAt ++ l.teams.flatMap (·.image)).flatMap Cell.endRecords
  let s := { s with net := { s.net with asks := s.net.asks.filter fun r => r.launch != l.id } }
  let s := (s.fields.filter fun f => f.launch == l.id).foldl State.dropField s
  let s := cells.foldl State.freeCell s
  match s.launch? l.id with
  | none => s
  | some l => s.putLaunch { l with
      teams := l.teams.map fun t => { t with placed := false, image := [] },
      nodes := l.nodes.map fun n => { n with st := .done }, ended := true, drained := true,
      heldRecs := l.heldRecs ++ recs ++ [engineRec l 0xFF 4] }

/-- The swap record of a launch's end. -/
def Launch.ending (l : Launch) : Option Swap := l.teams.findSome? fun t => t.swap.bind fun w => if w.kind == .ends then some w else none

/-- The next step of a launch's end that is due. -/
def State.endStep (s : State) (id : Nat) : Option State :=
  (s.launch? id).bind fun l => l.ending.bind fun w =>
    if l.ended then
      if l.heldRecs.isEmpty then
        let s := s.writeDone id w 1
        some { s with launches := s.launches.filter fun m => m.id != id }
      else none
    else if s.endReady l then some (s.finishEnd l)
    else if s.graceOver w && !((l.teams.filter (·.placed)).all fun t => s.fieldsIdle l.id t.no) then
      let s := (l.teams.filter (·.placed)).foldl (fun s t => (s.putSwap id t.no none).resumeFields id t.no) s
      let s := (l.teams.filter fun t => !t.placed).foldl (fun s t => s.putSwap id t.no none) s
      some (s.writeDone id w 3)
    else none

/-! ## Descriptors of kinds 1 to 3 (R400) -/

/-- The save base a swap uses: its own, or the team entry's. -/
def saveBase (own : Nat) (t : Team) : Nat := if own = 0 then t.save else own

/-- The team's swap is the stop of a declaration, from which firmware goes on with a swap-out (R370). -/
def Team.stoppedFor (t : Team) : Bool := (t.swap.map (·.kind)) == some .declare

/-- The harts of a team that a stop holds run on. -/
def State.thaw (s : State) (id no : Nat) : State := s.mapTeam id no fun h => { h with frozen := false }

/-- The stop of a declaration carried on as a swap-out: where a field has been started since, it pauses again, and every hart runs until it is IDLE
(R370, R401). -/
def State.carryOn (s : State) (id no : Nat) (w : Swap) : State :=
  if w.phase == .waitPool then s.putSwap id no (some w)
  else if s.fieldsIdle id no then s.putSwap id no (some { w with phase := if w.phase == .drain then .stopSlot0 else w.phase })
  else ((s.thaw id no).putSwap id no (some { w with phase := .waitFields })).pauseFields id no

/-- SWAP_OUT (kind 1): the code, and the swap begun, or carried on from the stop of a declaration (R370, R400, R401). -/
def State.swapOut (s : State) (id no save done : Nat) : Nat × State :=
  match s.team? id no with
  | none => (3, s)
  | some t =>
    if !t.placed || (t.swap.isSome && !t.stoppedFor) || saveBase save t = 0 || save % 65536 != 0 || done % 8 != 0 then (3, s)
    else match t.swap with
      | none => (0, s.beginSwap id no .out (saveBase save t) done)
      | some w => (0, s.carryOn id no { w with kind := .out, since := s.tbase, save := saveBase save t, done := done })

/-- A saved cell back on a cell of the new origin (R401): a stopped hart is resident again (R294), and no time counts on from the old cell's
cycles. -/
def Cell.restored (img old : Cell) : Cell :=
  { img.powerOf old with mfree := 0, harts := img.harts.map fun h => { h with stopped := false, ready := 0 } }

/-- A client of a field whose team moves from one origin to another (R100). -/
def Client.moved (c : Client) (t : Team) (x0 y0 : Nat) : Client :=
  { c with cell := cellNo (cellX c.cell - t.x0 + x0) (cellY c.cell - t.y0 + y0) }

/-- The clients of a team's fields are where the team is now (R74, R100). -/
def State.moveClients (s : State) (id : Nat) (t : Team) (x0 y0 : Nat) : State :=
  { s with fields := s.fields.map fun f =>
      if f.launch == id && f.team == t.no then
        { f with snaps := f.snaps.map fun x => { x with client := x.client.moved t x0 y0 },
                 move := f.move.map fun m => { m with client := m.client.moved t x0 y0 },
                 stop := f.stop.map fun c => c.moved t x0 y0 }
      else f }

/-- The save area of a team lies on a stack in self-refresh (R419). -/
def State.areaStalled (s : State) (l : Launch) (base : Nat) : Bool :=
  [0, 2 ^ (l.lw + l.lh) * 0x25000 - 1].any fun o => s.refreshing (dieOfPa (base + o))

/-- A team in its new place: restored from its image at a save base, or placed as a new one where it never was placed before (R399, R401); `none` waits for a
held page. Cells of a die whose tier is gated hold nothing (R412). DESIGN CHOICE (LOG 46): where the initial map or the LOCAL image of a team never
placed can no longer be read, the team is placed with the floor's map, or with no LOCAL image; a map read now is used as it is read, without the
checks that R398 makes at the launch. -/
def State.bringIn (s : State) (id no base x0 y0 : Nat) : Option State :=
  match s.launch? id with
  | none => some s
  | some l => match l.team? no with
    | none => some s
    | some t =>
      if t.image.isEmpty then
        match s.engineRead (engineAt l.lead) 0 .s t.map (if t.map = 0 then 0 else 32) with
        | (.wait, _) => none
        | (m, s) => match s.readImage l.desc with
          | (.wait, _) => none
          | (b, s) =>
            let m := match m with
              | .ok m => m
              | _ => []
            let b := match b with
              | .ok b => b
              | _ => ([], [])
            some (s.placeTeam id no x0 y0 m ⟨[], [], b.1, b.2⟩)
      else if s.areaStalled l base then none
      else
        let cells := t.image.map (s.imageCell l base)
        let s := s.putLaunch (l.putTeam { t with x0 := x0, y0 := y0, placed := true, image := [] })
        let s := cells.foldl (fun s i => match i.serving with
          | none => s
          | some v =>
            let n := cellNo (x0 + v.tx) (y0 + v.ty)
            if (s.dieAt (dieOf n)).tier then s.putCell (i.restored (s.poweredCell n)) else s) s
        some (((s.loadSites l no base).moveClients id t x0 y0).resumeFields id no)

/-- SWAP_IN (kind 2): the code, and the team in its new place; a team never placed before is placed as a new one (R399, R400, R401). `none`
waits for a held page. -/
def State.swapIn (s : State) (id no save done x0 y0 : Nat) : Option (Nat × State) :=
  match s.launch? id with
  | none => some (3, s)
  | some l => match l.team? no with
    | none => some (3, s)
    | some t =>
      if t.placed || t.swap.isSome || saveBase save t = 0 || save % 65536 != 0 || done % 8 != 0 then some (3, s)
      else if badRect x0 y0 l.lw l.lh || s.meetsTeam (fun m => m.id == id) x0 y0 l.lw l.lh then some (1, s)
      else if s.meetsTeam (fun m => m.id != id) x0 y0 l.lw l.lh then some (4, s)
      else
        (s.bringIn id no (saveBase save t) x0 y0).map fun s => (0, s.writeDone id ⟨.drain, .out, s.tbase, 0, done, []⟩ 1)

/-- LAUNCH_END (kind 3): the code, and the end begun on every placed team (R400, R401). -/
def State.endLaunch (s : State) (id done : Nat) : Nat × State :=
  match s.launch? id with
  | none => (3, s)
  | some l =>
    if !(l.teams.any (·.placed)) || l.teams.any (fun t => t.swap.isSome && !t.stoppedFor) || done % 8 != 0 then (3, s)
    else (0, (l.teams.filter (·.placed)).foldl (fun s t =>
      (if t.stoppedFor then s.thaw id t.no else s).beginSwap id t.no .ends 0 done) s)

def execSwapOut (launch team save done : Nat) (s : State) : Out := .next (s.swapOut launch team save done).2

def execSwapIn (launch team save done x0 y0 : Nat) (s : State) : Out := .next (((s.swapIn launch team save done x0 y0).map Prod.snd).getD s)

def execLaunchEnd (launch done : Nat) (s : State) : Out := .next (s.endLaunch launch done).2

/-- SWAP_GRACE_EXPIRE: the grace of a team's swap, or of its launch's end, has passed (R401). -/
def execSwapGraceExpire (launch team : Nat) (s : State) : Out :=
  match (s.team? launch team).bind (·.swap) with
  | none => .next s
  | some w =>
    if !s.graceOver w then .next s
    else .next (((if w.kind == .ends then s.endStep launch else s.swapStep launch team)).getD s)

/-- The steps of swaps and ends that are due. -/
def State.swapsDue (s : State) : Option State :=
  s.launches.findSome? fun l =>
    match s.endStep l.id with
    | some t => some t
    | none => l.teams.findSome? fun t => s.swapStep l.id t.no

/-- TEAM_INTERRUPT: bit 1 of the target's `xip` in every hart of a placed team (R282). -/
def execTeamInterrupt (launch team : Nat) (s : State) : Out :=
  .next ((s.teamCells launch team).foldl (fun s n =>
    let c := s.cellAt n
    s.putCell { c with harts := Vector.ofFn fun k : Fin 16 =>
      let h := c.hart k
      if k.val < c.nres then h.raiseIp (h.idel 1) 1 else h }) s)

/-! ## Requests through `launch` (R292, R398, R400) -/

/-- What a readable descriptor is answered with; `none` waits for a held page. -/
def State.serveLaunch (s : State) (ws : List Word) : Option (Word × State) :=
  let f := dField ws
  let ans (r : Nat × State) : Option (Word × State) := some (answerWord r.1 0, r.2)
  let bad := f 0 2 14 != 0 || f 0 40 24 != 0 || (ws.drop 4).any (· != 0)
  match f 0 0 2 with
  | 0 => s.acceptLaunch ws
  | 1 => if bad || ws.getD 3 0 != 0 then ans (3, s) else ans (s.swapOut (f 0 16 16) (f 0 32 8) (ws.getD 1 0).toNat (ws.getD 2 0).toNat)
  | 2 =>
    if bad || f 3 20 44 != 0 then ans (3, s)
    else (s.swapIn (f 0 16 16) (f 0 32 8) (ws.getD 1 0).toNat (ws.getD 2 0).toNat (f 3 0 10) (f 3 10 10)).bind ans
  | _ => if bad || ws.getD 3 0 != 0 then ans (3, s) else ans (s.endLaunch (f 0 16 16) (ws.getD 2 0).toNat)

end Sys2Proof.Machine
end

