-- ==== Sys2Proof/Machine/Power.lean ====
section
/-! DEFINITION. Rails, clocks, slot caps, current windows, the module power cap (R27, R28, R403 to R412). -/

namespace Sys2Proof.Machine

/-- The Tailstock logs an event (R422). -/
def State.logEvent (s : State) (e : TailEvent) : State := { s with tail := { s.tail with events := s.tail.events ++ [e] } }

/-! ## Registers of a rail (R403, R404, R408) -/

/-- Byte `v` - 84 of a die's VFT; every module holds at least the named points (R403, R408). -/
def vft (d v : Nat) : Nat := max (Config.vftFused d v % 256) (if v = 170 then 90 else if v = 124 then 56 else if v = 90 then 24 else 0)

/-- The power ceiling in 10 W (R394). -/
def pmax : Nat := 3800

/-- A value that RCTL refuses (R404). -/
def rctlRefused (d : Nat) (v : Word) : Bool :=
  let vc := fieldOf v 0 8
  let m := fieldOf v 8 7
  let cm := fieldOf v 16 5
  vc < 84 || m < 8 || 90 < m || cm < 1 || 16 < cm || vft d (Nat.min vc vmax) < m

namespace Rail

/-- The point the rail is to run at under a clamp: the RCTL's own, the controller's ceiling and the clamp (R404, R407, R410). -/
def goalFor (x : Rail) (clamp : Nat × Nat) : Nat × Nat :=
  (Nat.min (Nat.min x.vcode vmax) clamp.1, Nat.min (Nat.min x.mset x.amax) clamp.2)

/-- A change to another point begins (R404). -/
def toward (x : Rail) (goal : Nat × Nat) (tick : Nat) : Rail :=
  let v := x.volts tick
  { x with vnow := v, mown := x.clock tick, goal := goal, busy := true, began := tick,
           until_ := tick + 200 * (max v goal.1 - Nat.min v goal.1) }.turnClock tick

/-- A change of the clamp or of the controller's ceiling is applied as a write is (R407, R410, R415). -/
def retarget (x : Rail) (clamp : Nat × Nat) (tick : Nat) : Rail :=
  if x.goalFor clamp = x.goal then x else x.toward (x.goalFor clamp) tick

/-- A write of RCTL that is applied or refused (R404); one that is applied lifts the controller's ceiling (LOG 38). -/
def write (x : Rail) (clamp : Nat × Nat) (v : Word) (tick : Nat) : Rail :=
  if rctlRefused x.die v then { x with rej := true }
  else
    let y := { x with rctl := v &&& 0x1FFFFF, amax := 90 }
    y.toward (y.goalFor clamp) tick

end Rail

/-- RCTL_WRITE (R404). -/
def execRctlWrite (die rail : Nat) (v : Word) (s : State) : Out :=
  .next (s.putRail ((s.railAt die rail).write (s.clampOf die rail) v s.tbase))

/-- RCTL with another point. -/
def withPoint (v : Word) (p : Nat × Nat) : Word := setField (setField v 0 8 p.1) 8 7 p.2

/-- A change that is complete: the voltage and the clock stand, and a point that waits is written (R404, R409). -/
def Rail.settle (x : Rail) (clamp : Nat × Nat) (tick : Nat) : Rail :=
  if x.busy && x.until_ ≤ tick then
    let y := { x.turnClock x.until_ with vnow := x.goal.1, mown := x.goal.2, busy := false }
    match y.want with
    | some p => { y with want := none }.write clamp (withPoint y.rctl p) tick
    | none => y
  else x

/-- The results of a judged window act in the eighth rail cycle after it (R407). -/
def Rail.pendDue (x : Rail) (tick : Nat) : Bool := x.pend.any fun p => p.1 ≤ (x.clkAt tick).cycle

/-- RAIL_CHANGE_DONE; a rail that is not listed changes with its die's others. -/
def State.railDone (s : State) (d r : Nat) : Option State :=
  let x := s.railAt d r
  if x.busy && x.until_ ≤ s.tbase then
    some (if s.railListed d r then s.putRail (x.settle (s.clampOf d r) s.tbase)
      else s.putDie { s.dieAt d with rails := (s.dieAt d).rails.settle (s.dieClamp d) s.tbase })
  else none

def execRailChangeDone (die rail : Nat) (s : State) : Out := .next ((s.railDone die rail).getD s)

/-- Every rail of a die is held to its clamp; one under a clamp of its own is listed from then on (R410, R415, R420). -/
def State.reclamp (s : State) (d : Nat) : State :=
  let s := ((List.range 768).filter fun r => ((s.dieAt d).doubtful r || s.dropClamped d r) && !s.railListed d r).foldl
    (fun (s : State) r => s.putRail (s.railAt d r)) s
  let x := s.dieAt d
  { s with dies := s.dies.map fun y => if y.no == d then { y with rails := y.rails.retarget (s.dieClamp d) s.tbase } else y,
           rails := s.rails.map fun (y : Rail) => if y.die == x.no then y.retarget (s.clampOf d y.rail) s.tbase else y }

/-! ## Cells and dies (R27, R28, R403 to R405, R412) -/

/-- A cell with nothing in it, its power registers kept. -/
def Cell.emptied (c : Cell) : Cell := (Cell.reset c.no).powerOf c

/-- CPWR (R404): a bad cap leaves the register; a cell of a placed team stays on; a new divider waits for a wheel boundary. -/
def Cell.writePower (c : Cell) (v : Word) (tick : Nat) : Cell :=
  let cap := fieldOf v 8 5
  if cap = 0 || 16 < cap then c
  else
    let c := { c with newDiv := some (fieldOf v 0 2 + 1), scap := cap, prot := BitVec.ofNat 16 (fieldOf v 16 16) }
    if v.getLsbD 2 then (if c.on then c else { c.startAt tick with on := true })
    else if c.serving.isSome then c
    else { c.emptied with on := false }

/-- CPWR_WRITE (R403, R404). -/
def execCpwrWrite (c : Nat) (v : Word) (s : State) : Out := .next (s.putCell ((s.cellAt c).writePower v s.tbase))

/-- Cells of a die that have left their reset lose what they hold. -/
def State.emptyDie (s : State) (d : Nat) : State := s.mapCells fun c => if dieOf c.no == d then c.emptied else c

/-- The die's compute tier is gated (R404, R419, R420): its cells lose what they hold. -/
def State.gate (s : State) (d : Nat) : State := (s.emptyDie d).putDie { s.dieAt d with tier := false }

/-- Some placed team has a cell on the die. -/
def State.teamOn (_s : State) (d : Nat) (l : Launch) (t : Team) : Bool :=
  t.placed && (rectCells t.x0 t.y0 (2 ^ l.lw) (2 ^ l.lh)).any fun n => dieOf n == d

def State.dieServes (s : State) (d : Nat) : Bool := s.launches.any fun l => l.teams.any fun t => s.teamOn d l t

/-- The die lies in the die set of a valid context entry (R335). -/
def State.inDieSets (s : State) (d : Nat) : Bool :=
  (List.range 4096).any fun a => match s.context a with
    | .ok c => (c.getD 0 0).getLsbD 0 && (c.getD 1 0).getLsbD d
    | _ => false

/-- A tier is powered: where it was not, its cells hold nothing, and their clocks start anew (R16, R412). -/
def State.powerTier (s : State) (d : Nat) : State :=
  if (s.dieAt d).tier then s
  else
    let s := (s.emptyDie d).mapCells fun c => if dieOf c.no == d then c.startAt s.tbase else c
    let x := s.dieAt d
    { s.putDie { x with tier := true, rails := x.rails.restart s.tbase } with
      rails := s.rails.map fun (y : Rail) => if y.die == d then y.restart s.tbase else y }

/-- DPWR (R404, R412). -/
def State.writeDpwr (s : State) (d : Nat) (v : Word) : State :=
  if v.getLsbD 0 then s.powerTier d
  else if s.dieServes d || s.inDieSets d || s.launches.any (fun l => l.lead == d) then s
  else s.gate d

/-- DPWR_WRITE (R404). -/
def execDpwrWrite (die : Nat) (v : Word) (s : State) : Out := .next (s.writeDpwr die v)

/-- The slots a cell's effective cap removes (R405). -/
def State.removedSlots (s : State) (c : Cell) : BitVec 16 :=
  let down := (List.finRange 16).reverse.filter fun k => k.val != 0
  let absent := down.filter fun k => c.nres ≤ k.val
  let plain := down.filter fun k => k.val < c.nres && !s.protected c k
  let kept := down.filter fun k => k.val < c.nres && s.protected c k
  ((absent ++ plain ++ kept).take (16 - s.ecap c)).foldl (fun m k => m ||| BitVec.ofNat 16 (2 ^ k.val)) 0

/-- The cell with its cap applied: removed residents pause, the rest go on, and slot 0 has its notice (R28, R405). -/
def State.capped (s : State) (c : Cell) : Cell :=
  let m := s.removedSlots c
  let fresh := (List.finRange 16).any fun k => k.val < c.nres && m.getLsbD k.val && !(c.hart k).paused
  { c with removed := m, notice := c.notice || fresh,
           harts := Vector.ofFn fun k : Fin 16 => { c.hart k with paused := k.val < c.nres && m.getLsbD k.val } }

/-- The power notice reaches slot 0 as its cycle ends, after a write of software in that cycle (R11, R28). -/
def Cell.giveNotice (c : Cell) : Cell :=
  if c.notice then { c.setHart 0 ((c.hart 0).raiseIp .s 2) with notice := false } else c

/-- The removed slots, or the residents they pause, are not those of the present cap. -/
def State.capDiffers (s : State) (c : Cell) : Bool :=
  let m := s.removedSlots c
  m != c.removed || (List.finRange 16).any fun k => (c.hart k).paused != (k.val < c.nres && m.getLsbD k.val)

/-- The cap acts at a wheel boundary. -/
def State.slotCap (s : State) (n : Nat) : Option State :=
  let c := s.cellAt n
  if c.cycle % 16 = 0 && s.capDiffers c then some (s.putCell (s.capped c)) else none

/-- SLOT_CAP_APPLY (R28, R405). -/
def execSlotCapApply (c : Nat) (s : State) : Out := .next ((s.slotCap c).getD s)

/-- A new divider or rail clock acts at a wheel boundary (R27, R404). -/
def State.divider (s : State) (n : Nat) : Option State :=
  let c := s.cellAt n
  let m := s.mnow (dieOf n) (railOf n)
  if c.cycle % 16 = 0 && (c.newDiv.isSome || c.m != m) then
    some (s.putCell { c with div := c.newDiv.getD c.div, newDiv := none, m := m, acc := c.acc * m / c.m })
  else none

/-- DIVIDER_CHANGE (R27). -/
def execDividerChange (c : Nat) (s : State) : Out := .next ((s.divider c).getD s)

/-! ## The current estimate (R407) -/

/-- The cells of a rail of a die (R7); the fabric rail has none. -/
def railCells (d r : Nat) : List Nat :=
  if r < 768 then (List.range 16).map fun i => cellNo (d % 6 * 128 + r % 8 * 16 + i) (d / 6 * 96 + r / 8) else []

/-- Cells of a rail that are on. -/
def State.cellsOn (s : State) (d r : Nat) : Nat := ((railCells d r).filter fun n => (s.cellAt n).on).length

/-- The window of rail cycles that a rail is in. -/
def State.windowAt (s : State) (d r : Nat) : Nat := ((s.railAt d r).clkAt s.tbase).cycle / 256

/-- The word's major opcode is one of the class `vector` (R131 to R133). -/
def vectorWord (w : IWord) : Bool := 0x20 ≤ w.toNat / 4 % 64 && w.toNat / 4 % 64 ≤ 0x27

/-- A vector instruction that issues in a window is counted (R407). -/
def Cell.countVector (c : Cell) (window : Nat) : Cell :=
  if c.vwin = window then { c with vnew := c.vnew + 1 }
  else { c with vwin := window, vnew := 1, vold := if c.vwin + 1 = window then c.vnew else 0 }

/-- The vector instructions a cell has issued in a window that ended last. -/
def Cell.vectorsIn (c : Cell) (window : Nat) : Nat := if c.vwin = window then c.vnew else if c.vwin = window + 1 then c.vold else 0

/-- The instruction that issues is counted by its cell, if it is a vector instruction. -/
def State.countIssue (s : State) (w : IWord) : State :=
  if s.isCore || !vectorWord w then s
  else { s with cell := s.cell.countVector (s.windowAt (dieOf s.cell.no) (railOf s.cell.no)) }

/-- DCOEF of a die (R403). -/
def State.dcoef (s : State) (d : Nat) : Word := (assocGet (deviceBase + 0x1000000 + d * 0x100000 + 0x20008) s.mem.regs).getD (Config.dcoef d)

/-- The controller at the end of a window: estimate, alarm, cap, history. -/
def Rail.windowEnd (x : Rail) (iest isense : Nat) : Rail :=
  let ithr := fieldOf x.rthr 0 16
  let hyst := fieldOf x.rthr 16 16
  let x := { x with iest := iest, isense := isense }
  if ithr < iest || ithr < isense then
    { x with alarm := true, hcap := max (x.hcap - 4) x.capmin, low := 0, window := true :: x.window.take 4095, quiet := 0 }
  else
    let x := { x with window := false :: x.window.take 4095, quiet := x.quiet + 1 }
    if iest + hyst < ithr && isense + hyst < ithr then
      if 4 ≤ x.low + 1 then { x with low := x.low + 1, alarm := false, hcap := Nat.min (x.hcap + 4) 16 }
      else { x with low := x.low + 1 }
    else { x with low := 0 }

/-- A cell of the rail has left its reset and is on: its matrix engine and its pool can be at work. -/
def State.railRuns (s : State) (d r : Nat) : Bool := s.cells.any fun c => c.on && dieOf c.no == d && railOf c.no == r

/-- iest of a window (R407): what the rail's powered cells draw, and what the vector instructions, the operand toggles and the pool accesses of the
window add; the last two are free values, as the spec does not say which bits and which accesses count (LOG 2), and 0 where no cell of the rail can
have any. -/
def State.estimate (s : State) (d r window toggles accesses : Nat) : Nat :=
  let c := s.dcoef d
  let toggles := if s.railRuns d r then toggles else 0
  let accesses := if s.railRuns d r then accesses else 0
  let vectors := ((railCells d r).map fun n => if (s.cellAt n).on then (s.cellAt n).vectorsIn window else 0).sum
  (fieldOf c 48 16 * s.cellsOn d r + (fieldOf c 0 16 * toggles + fieldOf c 16 16 * vectors + fieldOf c 32 16 * accesses) / 1024) % 2 ^ 32

/-- The controller's ceiling falls or rises by 2 with the windows it has judged, and the rail changes as R404 says. -/
def Rail.autoStep (x : Rail) (clamp : Nat × Nat) (tick : Nat) : Rail :=
  let limit (m : Nat) : Rail := { x with amax := m }.retarget clamp tick
  if !x.auto_ || x.busy then x
  else if 1024 ≤ (x.window.filter id).length then limit (max (x.mown - 2) 8)
  else if 16384 ≤ x.quiet then limit (Nat.min (Nat.min x.amax x.mset + 2) x.mset)
  else x

/-- AUTO_CLOCK_STEP (R407). -/
def execAutoClockStep (die rail : Nat) (s : State) : Out :=
  .next (s.putRail ((s.railAt die rail).autoStep (s.clampOf die rail) s.tbase))

/-- The results of the last judged window act, eight rail cycles after it, and the automatic clock makes its step. -/
def State.windowActs (s : State) (d r : Nat) : Option State :=
  let x := s.railAt d r
  match x.pend with
  | some p =>
    if x.pendDue s.tbase then
      some (s.putRail (({ x with pend := none }.windowEnd p.2.1 p.2.2).autoStep (s.clampOf d r) s.tbase))
    else none
  | none => none

/-- The first window that has ended and has not been judged is judged, with the reading of the rail's current sensor (R407). -/
def State.judgeWindow (s : State) (d r isense : Nat) : State :=
  let x := s.railAt d r
  if s.windowAt d r ≤ x.judged || x.pend.isSome then s
  else
    let k := x.judged + 1
    let iest := s.estimate d r (k - 1) (s.fresh.1.toNat) (s.fresh.2.fresh.1.toNat)
    s.fresh.2.fresh.2.putRail { x with judged := k, pend := some (256 * k + 8, iest, isense % 2 ^ 32) }

/-- CURRENT_WINDOW (R407): a window is judged, or what was judged last acts. -/
def execCurrentWindow (die rail : Nat) (isense : Nat) (s : State) : Out :=
  .next ((s.windowActs die rail).getD (s.judgeWindow die rail isense))

/-- A window of a rail with a running cell is judged as it ends; what its current sensor reads is a free value (LOG 2, LOG 38). -/
def State.windowEnds (s : State) (d r : Nat) : Option State :=
  let x := s.railAt d r
  if s.windowAt d r ≤ x.judged || x.pend.isSome || !s.railRuns d r then none else some (s.fresh.2.judgeWindow d r s.fresh.1.toNat)

/-- The next complete change, of a listed rail or of a die's others, the next results of a window, or the next window that has ended. -/
def State.railsDue (s : State) : Option State :=
  (s.rails.findSome? fun x => s.railDone x.die x.rail) <|>
  (s.dies.findSome? fun x =>
    if x.rails.busy && x.rails.until_ ≤ s.tbase then some (s.putDie { x with rails := x.rails.settle (s.dieClamp x.no) s.tbase }) else none) <|>
  (s.rails.findSome? fun x => s.windowActs x.die x.rail) <|>
  s.cells.findSome? fun c => s.windowEnds (dieOf c.no) (railOf c.no)

/-! ## Module power and operating points (R409, R410) -/

/-- pcap as it is applied (R410). -/
def capApplied (w : Nat) : Nat := Nat.min pmax (max w 150)

/-- Every rail of the module is held to its clamp, every die listed from then on. -/
def State.reclampAll (s : State) : State :=
  (List.range 54).foldl (fun (s : State) d => (s.putDie (s.dieAt d)).reclamp d) s

/-- The Tailstock at the end of a window (R410). -/
def Tailstock.windowEnd (t : Tailstock) (pnow : Nat) : Tailstock :=
  let cap := capApplied t.pcap
  let under := if 100 * pnow < 95 * cap then t.under + 1 else 0
  let t := { t with pnow := pnow % 65536, under := under }
  if cap < pnow then { t with mclamp := max (t.mclamp - 4) 8, overCap := true }
  else if 10 ≤ under then { t with mclamp := Nat.min (t.mclamp + 4) 90 }
  else t

/-- MPWR_WINDOW (R410): a clamp that moves is applied to every rail as R404 says. -/
def execMpwrWindow (pnow : Nat) (s : State) : Out :=
  let t := { s with tail := s.tail.windowEnd pnow }
  .next (if t.tail.mclamp = s.tail.mclamp then t else t.reclampAll)

/-- POWER_LIMIT_PATCH: pcap in watts (R410). -/
def execPowerLimitPatch (watts : Nat) (s : State) : Out := .next { s with tail := { s.tail with pcap := watts / 10 % 65536 } }

/-- A rail takes a new point now, or once the change in progress is complete (R409). -/
def Rail.point (x : Rail) (clamp : Nat × Nat) (p : Nat × Nat) (tick : Nat) : Rail :=
  if x.busy then { x with want := some p } else x.write clamp (withPoint x.rctl p) tick

/-- Every rail of a die takes a new point. -/
def State.pointDie (s : State) (d : Nat) (p : Nat × Nat) : State :=
  let x := s.dieAt d
  let t := s.putDie { x with rails := x.rails.point (s.dieClamp d) p s.tbase }
  { t with rails := s.rails.map fun (y : Rail) => if y.die == d then y.point (s.clampOf d y.rail) p s.tbase else y }

/-- OPERATING_POINT_PATCH (R409): every rail of every powered die, or none, and an answer of HTTP 400, where R404 would refuse one. -/
def execOperatingPointPatch (vcode m : Nat) (s : State) : Out :=
  let dies := (List.range 54).filter fun d => (s.dieAt d).tier
  if vcode < 84 || 255 < vcode || m < 8 || 90 < m || dies.any (fun d => vft d (Nat.min vcode vmax) < m) then
    .next { s with tail := { s.tail with patch400 := true } }
  else
    let s := dies.foldl (fun (s : State) d => s.pointDie d (vcode, m)) s
    .next { s with tail := { s.tail with point := some (vcode, m), patch400 := false } }

end Sys2Proof.Machine
end

