-- ==== Sys2Proof/Machine/Failure.lean ====
section
/-! DEFINITION. Die failure: declaration, the lost-line report, rejoining, retired dies (R368 to R374, R423). -/

namespace Sys2Proof.Machine

/-! ## The lost-line report (R369, R371) -/

/-- Bytes stored through window B. -/
def State.putB (s : State) (pa : Nat) (bs : List Byte) : State :=
  ((linePieces pa bs.length).foldl (fun (r : State × List Byte) p =>
    (r.1.storeMem p.1 false (r.2.take p.2) [], r.2.drop p.2)) (s, bs)).1

/-- An entry is written at the next place of the report, or lost beyond its capacity. -/
def State.reportEntry (s : State) (ws : List Nat) : State :=
  let base := fieldOf s.head.llrb 16 36 * 65536
  if s.head.llrn < fieldOf s.head.llrb 0 16 then
    { s.putB (base + 32 * s.head.llrn) (ws.flatMap (leBytes 8)) with head := { s.head with llrn := s.head.llrn + 1 } }
  else { s with head := { s.head with ovf := true } }

/-- Kinds 1 and 2: a line of an ASID and generation. -/
def State.reportLine (s : State) (kind : Nat) (l : OLine) (pa : Nat) : State :=
  s.reportEntry [kind + 16 * l.key.asid + 2 ^ 16 * (l.key.gen % 64), l.key.line * 128, pa, 0]

/-- Kind 3. -/
def State.reportTask (s : State) (launch node attempt team : Nat) : State := s.reportEntry [3 + 16 * launch, node, attempt, team]

/-- Kind 4; the field is gone (R267). -/
def State.loseField (s : State) (f : Field) : State := (s.reportEntry [4 + 16 * f.launch, f.team, f.handle, 0]).dropField f

/-! ## Declaration (R370) -/

/-- A piece that is on its way to the die, or whose credit comes from it, is credited: bad, unless it has been written. -/
def Push.fenced (p : Push) (d : Nat) : Push :=
  if dieOf p.cell != d then p
  else match p.state with
    | .travel => { p with state := .done true, bytes := [], sb := [] }
    | .peer => { p with state := .done true, bytes := [], sb := [] }
    | .credit b => { p with state := .done b }
    | _ => p

/-- Fence: the links to the die close, and messages from it that nothing has handled yet are dropped, coherence messages, its pending bits,
requests, misses and answers of its cells among them; what was on its way to it fails, and its agents serve no page any more. -/
def State.fence (s : State) (d : Nat) : State :=
  let keep (p : Packet) : Option Packet :=
    let ts := p.dsts.filter fun t => dieOfNode t != d
    if p.die == d || ts.isEmpty then none else some { p with dsts := ts }
  let keepAt (x : Held) : Option Held := (keep x.pkt).map fun p => { x with pkt := p }
  let bufs := s.net.bufs.map fun b => { b with queue := b.queue.filterMap keepAt, coming := b.coming.filterMap keepAt }
  let remote := (s.net.remote.filter fun r => dieOf r.cell != d).map fun r =>
    if dieOf r.dest == d then { r with travel := false, answer := some (r.answer.getD 2) } else r
  let net : Net := { s.net with
    bufs := bufs.filter fun b => !(b.queue.isEmpty && b.coming.isEmpty && b.leaving.isEmpty),
    sends := s.net.sends.filterMap fun x => (keep x.1).map fun p => (p, x.2), closed := d :: (s.net.closed.filter fun e => e != d), remote := remote,
    asks := s.net.asks.filter fun r => dieOf r.client.cell != d && dieOf r.origin != d }
  let mine (m : Sent) : Bool := m.from_ == some d || (m.stamp.map (·.die)) == some d
  let mem := { s.mem with misses := s.mem.misses.filter fun m => m.die != d, agents := s.mem.agents.filter fun e => e.die != d }
  let s := { s with net := net, mem := mem, coh := s.coh.map fun (l : CohLine) => { l with msgs := l.msgs.filter (fun m => !mine m), places := l.places.filter (fun p => p.1 != d) } }
  s.mapCells fun c => { c with pushes := c.pushes.map fun (p : Push) => p.fenced d }

/-- A record of a task or node that the die's loss fails (R68, R370). -/
def lostRec (l : Launch) (node team attempt hart : Nat) (precise : Bool) : TaskRecord :=
  { node := node, launch := l.id, team := team, kind := 1, precise := precise, hart := hart, attempt := attempt, reason := 0x26,
    detail := 0, minimum := 0, page := none }

/-- A record joins those its launch's engine has still to write. -/
def State.holdRec (s : State) (r : TaskRecord) : State :=
  match s.launch? r.launch with
  | none => s
  | some l => s.putLaunch { l with heldRecs := l.heldRecs ++ [r] }

/-- A hart of the failed die: its task fails, a record its Chuck holds goes on, a node chosen for it is ready again. -/
def State.loseHart (s : State) (c : Cell) (k : Slot) : State :=
  let h := c.hart k
  let s := match h.heldRec with
    | some r => s.holdRec r
    | none => s
  match h.task with
  | none => s
  | some t => match s.launch? t.launch with
    | none => s
    | some l => (s.holdRec (lostRec l t.node t.team t.attempt (hartNo c.no k) (!t.replay))).reportTask t.launch t.node t.attempt t.team

/-- A node parked on the failed die's fault-wait list fails. -/
def State.loseNode (s : State) (p : ParkedNode) : State :=
  match s.launch? p.launch with
  | none => s
  | some l => match l.node? p.node with
    | none => s
    | some n => (s.holdRec (lostRec l n.index n.team n.attempt 0 n.precise)).reportTask l.id n.index n.attempt n.team

/-- Everything the die's own cells and lists held. -/
def State.loseDie (s : State) (d : Nat) : State :=
  let cells := s.cells.filter fun c => dieOf c.no == d
  let s := cells.foldl (fun s c => (List.finRange 16).foldl (fun s k => s.loseHart c k) (s.unchoose c)) s
  let s := (s.mem.waitList.filter fun p => p.die == d).foldl State.loseNode s
  let s := { s with mem := { s.mem with waitList := s.mem.waitList.filter fun p => p.die != d } }
  let s := (s.fields.filter fun f => (s.liveCells f).any fun n => dieOf n == d).foldl State.loseField s
  s.emptyDie d

/-- A task that a launch of the failed die leaves unfinished on another die (R371, kind 3). -/
def State.reportUnfinished (s : State) (h : Hart) : State :=
  match h.task with
  | none => s
  | some t => s.reportTask t.launch t.node t.attempt t.team

/-- A launch led by the die ends: its records are lost with the die, and each task and field it leaves on other dies is reported
(R371). -/
def State.loseLaunch (s : State) (l : Launch) : State :=
  let cells := (l.teams.filter (·.placed)).flatMap fun t => s.teamCells l.id t.no
  let s := cells.foldl (fun s n => (List.finRange 16).foldl (fun s k => s.reportUnfinished ((s.cellAt n).hart k)) s) s
  let s := (s.fields.filter fun f => f.launch == l.id).foldl State.loseField s
  let s := (s.reportEntry [5 + 16 * l.id, 0, 0, 0]).finishEnd ((s.launch? l.id).getD l)
  { s with launches := s.launches.filter fun m => m.id != l.id }

/-- The ASID's die set holds the die, ASID 0's until the declaration (R335). -/
def State.setHolds (s : State) (asid d : Nat) : Bool := asid == 0 || (s.dieSet asid).getLsbD d

/-- Launches that a die's failure concerns (R370). -/
def State.concerned (s : State) (d : Nat) : List Launch :=
  s.launches.filter fun l => s.setHolds l.asid d || l.lead == d || l.teams.any fun t => s.teamOn d l t

/-- Quiesce: every launch that the die concerns stops, by steps 1 to 4 of R74; a team whose swap or end is under way stops by that. -/
def State.quiesce (s : State) (d : Nat) : State :=
  (s.concerned d).foldl (fun s l =>
    (l.teams.filter fun t => t.placed && t.swap.isNone).foldl (fun s t => s.beginSwap l.id t.no .declare t.save 0) s) s

/-- A placed team of a launch that the failed dies concern fulfils a condition. -/
def State.anyConcerned (s : State) (ds : List Nat) (p : Team → Bool) : Bool :=
  ds.any fun d => (s.concerned d).any fun l => l.teams.any fun t => t.placed && p t

/-- The declaration begins: fail and busy are set, the links fence, the launches stop. -/
def State.declare (s : State) (d : Nat) : State :=
  if 54 ≤ d || s.failed d || s.head.decl.contains d then s
  else
    let h := s.head
    let first := h.decl.isEmpty
    let s := { s with head := { h with decl := h.decl ++ [d], llrn := if first then 0 else h.llrn, ovf := if first then false else h.ovf } }
    let s := (s.fence d).quiesce d
    let s := { s with head := { s.head with fail := s.head.fail ||| BitVec.ofNat 54 (2 ^ d) } }
    let s := s.loseDie d
    (s.launches.filter fun l => l.lead == d).foldl State.loseLaunch s

/-- DIE_DECLARE (R370); a write to fail is ignored while busy is set (R369). -/
def execDieDeclare (die : Nat) (s : State) : Out := .next (if s.head.decl.isEmpty then s.declare die else s)

/-- Flush of one dirty line: lost with its owner, discarded with its frame, or written back. -/
def State.flushLine (s : State) (ds : List Nat) (l : OLine) : State :=
  let pa := ((s.wbTarget l).map Prod.fst).getD 0
  let x := s.cohLine l.key
  let lost := (x.st == .x || x.st == .o) && ds.contains x.owner
  if lost then s.reportLine 2 l pa
  else if !l.dirty then s
  else if ds.contains (dieOfPa pa) then s.reportLine 1 l pa
  else s.writeBackLine false l

/-- Flush and report, once every team of every concerned launch has stopped, one whose own swap was refused by a stop of the declaration's; then
busy clears. What is flushed is the lines of the ASIDs whose die sets hold a failed die, and any other line that such a die holds. -/
def State.declareDone (s : State) : Option State :=
  let ds := s.head.decl
  if ds.isEmpty then none
  else if s.anyConcerned ds (·.swap.isNone) then some (ds.foldl State.quiesce s)
  else if s.anyConcerned ds fun t => (t.swap.map (·.phase)) != some .drain then none
  else
    let mine (k : LineKey) : Bool := ds.any fun d => s.setHolds k.asid d || (s.cohLine k).concerns d
    let t := (s.mem.lines.filter fun l => mine l.key).foldl (fun t l => t.flushLine ds l) s
    let t := t.dropCopies mine
    let t := ds.foldl (fun (t : State) d => t.logEvent (.declared d t.head.llrn)) t
    some { t with head := { t.head with decl := [] } }

/-! ## Rejoining (R373) -/

/-- The line is held by a die alone. -/
def CohLine.heldOnly (l : CohLine) (d : Nat) : Bool := !l.dies.isEmpty && l.dies.all fun x => x.die == d

/-- The record of a line once a die's tags and, at its home, its directory entry have been cleared: what other dies hold stays. -/
def State.clearedLine (s : State) (d : Nat) (l : CohLine) : CohLine :=
  let l := { l with dies := l.dies.filter (fun x => x.die != d), places := l.places.filter (fun p => p.1 != d) }
  if s.lineHome l.key.asid (l.key.line * 128) != d then l else { l with st := .i, owner := 0, sharers := 0, busy := none, msgs := [], places := [] }

/-- What the die held is cleared, its tags and directory entries, its agent's entries and its fault records among it; its incarnation rises, and its
links open. A retired die does not rejoin (R423). -/
def State.rejoin (s : State) (d : Nat) : State :=
  if 54 ≤ d || !s.failed d || !s.head.decl.isEmpty || s.tail.retired.contains d then s
  else
    let s := s.emptyDie d
    let gone (k : LineKey) : Bool := s.coh.any fun l => l.key == k && l.heldOnly d
    let s := { s with mem := { s.mem with units := s.mem.units.map (fun (u : FaultUnit) => if u.die = d then { u with recs := [] } else u),
                                            agents := s.mem.agents.filter (fun e => e.die != d),
                                            lines := s.mem.lines.filter (fun o => !gone o.key) },
                        net := { s.net with closed := s.net.closed.filter fun e => e != d },
                        coh := (s.coh.map (s.clearedLine d)).filter fun l => !l.idle }
    let fail := s.head.fail &&& ~~~ (BitVec.ofNat 54 (2 ^ d))
    { s with head := { s.head with fail := fail, incs := assocSet d (BitVec.ofNat 8 (s.inc d + 1)) s.head.incs } }

/-- DIE_REJOIN (R373). -/
def execDieRejoin (die : Nat) (s : State) : Out := .next (s.rejoin die)

/-- DIEF written: each rising bit declares and each falling bit rejoins, unless busy is set (R369). -/
def State.writeDief (s : State) (v : Word) : State :=
  if !s.head.decl.isEmpty then s
  else
    let old := s.head.fail
    let dies := List.range 54
    let s := (dies.filter fun d => old.getLsbD d && !v.getLsbD d).foldl State.rejoin s
    (dies.filter fun d => !old.getLsbD d && v.getLsbD d).foldl State.declare s

/-! ## Retired dies (R423) -/

/-- RETIRED_DIES: the list is written; a die taken off it rejoins once no declaration is in progress, and firmware declares each listed one. -/
def execRetiredDies (dies : List Nat) (s : State) : Out :=
  let off := (s.tail.back ++ s.tail.retired).filter fun d => !dies.contains d
  .next { s with tail := { s.tail with retired := dies, back := off.dedup } }

/-- The next die that was taken off the list rejoins, and the next listed one that firmware has still to declare is declared; none before boot. -/
def State.retireDue (s : State) : Option State :=
  if !s.head.decl.isEmpty then none
  else match s.tail.back with
  | d :: ds => some ({ s with tail := { s.tail with back := ds } }.rejoin d)
  | [] => if s.tail.booted then (s.tail.retired.find? fun d => d < 54 && !s.failed d).map s.declare else none

end Sys2Proof.Machine
end

