-- ==== Sys2Proof/Machine/Heat.lean ====
section
/-! DEFINITION. Thermal sensors, levels, ladders, the comparator, moves away from heat (R402, R413 to R421). -/

namespace Sys2Proof.Machine

/-! ## Sensors (R413, R414) -/

/-- A reading put in its place among others, ascending. -/
def insertReading (v : Int) : List Int → List Int
  | [] => [v]
  | w :: ws => if v ≤ w then v :: w :: ws else w :: insertReading v ws

/-- The middle of a list of readings; of an even number, the mean of the middle two; which way half a degree goes is a free value (LOG 12). -/
def median (l : List Int) : Int :=
  let m := l.foldr insertReading []
  let n := m.length
  let a := m.getD (n / 2 - 1) 0
  let b := m.getD (n / 2) 0
  if n % 2 = 1 then b else (a + b) / 2 + (if (a + b) % 2 = 1 && Config.medianUp a b then 1 else 0)

namespace Die

/-- Readings of sensors that have been read and are not failed. -/
def good (x : Die) (is : List Nat) : List Int :=
  is.filterMap fun i => (x.sensor? i).bind fun y => if y.fail then none else some y.raw

def largest (l : List Int) : Option Int := l.foldl (fun a v => some (max (a.getD v) v)) none

/-- The value used of a sensor that is good or has good neighbours (R414). -/
def usedHere (x : Die) (i : Nat) : Option Int :=
  (x.sensor? i).bind fun y =>
    if !y.fail then some y.raw
    else
      let near := x.good (sensorNeighbours i)
      if near.isEmpty then none else some (median near + 5)

/-- The value used of a sensor; none of one never read, and of one failed without a good neighbour where no other has a value (LOG 12). -/
def used (x : Die) (i : Nat) : Option Int :=
  (x.sensor? i).bind fun _ =>
    x.usedHere i <|> (largest (((List.range 64).filter (· != i)).filterMap x.usedHere)).map (· + 5)

/-- The die temperature; 0 before the first reading (LOG 12). -/
def tnow (x : Die) : Int := (largest ((List.range 64).filterMap x.used)).getD 0

/-- The warning and the critical mark as they are applied (R417). -/
def twarn (x : Die) : Nat := fieldOf x.thc 0 8
def tcrit (x : Die) : Nat := max (fieldOf x.thc 8 8) (x.twarn + 2)

/-- The reading makes the sensor failed: stuck, out of range, or away from its neighbours. -/
def judge (x : Die) (i : Nat) (y : Sensor) (iests : List Nat) (ithr : Nat → Nat) (tick : Nat) : Bool :=
  let moved := (sensorRails i).zip (y.iests.zip iests) |>.any fun p => ithr p.1 < 10 * (max p.2.1 p.2.2 - Nat.min p.2.1 p.2.2)
  let near := x.good (sensorNeighbours i)
  (y.since + 10000000000 ≤ tick && moved) || decide (y.raw < -20) || decide (150 < y.raw) ||
  (!near.isEmpty && decide (8 < (y.raw - median near).natAbs))

/-- Since when the die temperature has stayed below a mark by 5. -/
def under (x : Die) (mark : Nat) (old : Option Nat) (tick : Nat) : Option Nat :=
  if x.tnow < (mark : Int) - 5 then some (old.getD tick) else none

end Die

/-- A rectangle of the module meets the cells that a sensor watches. -/
def sensorIn (d i x0 y0 w h : Nat) : Bool :=
  let x := d % 6 * 128 + 16 * (i % 8)
  let y := d / 6 * 96 + 12 * (i / 8)
  x < x0 + w && x0 < x + 16 && y < y0 + h && y0 < y + 12

/-- The hottest used sensor over a rectangle: its value and its die. -/
def State.hottest (s : State) (x0 y0 w h : Nat) : Option (Int × Nat) :=
  (s.dies.flatMap fun x => ((List.range 64).filter fun i => sensorIn x.no i x0 y0 w h).filterMap fun i =>
    (x.used i).map fun t => (t, x.no)).foldl (fun a p => match a with
      | some b => if b.1 < p.1 then some p else a
      | none => some p) none

/-- What a new reading says of a team's last move (R416). -/
def State.followMove (s : State) (l : Launch) (t : Team) : Team :=
  match t.moved with
  | none => t
  | some m =>
    match s.hottest m.x0 m.y0 (2 ^ l.lw) (2 ^ l.lh) with
    | none => t
    | some p =>
      let low := p.1 < ((s.dieAt p.2).twarn : Int) - 8
      { t with moved := some { m with fell := m.fell || low, rose := m.rose || (m.fell && !low) } }

/-- One sensor's latest reading is judged; its mark stays until SNS clears it (R414). -/
def State.judgeOne (s : State) (d i : Nat) : State :=
  let x := s.dieAt d
  match x.sensor? i with
  | none => s
  | some y =>
    let marked (f : Bool) : Die := { x with sensors := assocSet i { y with fail := f } x.sensors }
    let fails := (marked true).judge i y ((sensorRails i).map fun r => (s.railAt d r).iest) (fun r => fieldOf (s.railAt d r).rthr 0 16) s.tbase
    let t := s.putDie (marked (y.fail || fails))
    if fails && !y.fail then t.logEvent (.sensorFailure d i) else t

/-- The readings of a die are judged, in ascending number (R414); the clamps, the times below the marks and the moves follow (R415 to R417). -/
def State.judgeAll (s : State) (d : Nat) : State :=
  let s := ((List.range 64).filter (s.dieAt d).unjudged.contains).foldl (fun s i => s.judgeOne d i) s
  let x := s.dieAt d
  let s := s.putDie { x with unjudged := [], underW := x.under x.twarn x.underW s.tbase, underC := x.under x.tcrit x.underC s.tbase }
  let s := s.reclamp d
  { s with launches := s.launches.map fun l => { l with teams := l.teams.map (s.followMove l) } }

/-- The readings of a tick are all there: they are judged together. -/
def State.judgeDue (s : State) (d : Nat) : Option State :=
  let x := s.dieAt d
  if !x.unjudged.isEmpty && x.readAt < s.tbase then some (s.judgeAll d) else none

/-- A sensor with a new reading; the estimates of its rails stand with the reading that last differed. -/
def Sensor.read (y : Option Sensor) (raw : Int) (tick : Nat) (iests : List Nat) : Sensor :=
  match y with
  | some y => if y.raw == raw then y else { y with raw := raw, since := tick, iests := iests }
  | none => ⟨raw, false, tick, iests⟩

/-- SENSOR_READING (R413): the reading stands, and is judged with the others of its tick (R414). -/
def execSensorReading (die sensor : Nat) (raw : Int) (s : State) : Out :=
  if 54 ≤ die || 64 ≤ sensor then .next s
  else
    let s := (s.judgeDue die).getD s
    let x := s.dieAt die
    let iests := (sensorRails sensor).map fun r => (s.railAt die r).iest
    .next (s.putDie { x with sensors := assocSet sensor (.read (x.sensor? sensor) raw s.tbase iests) x.sensors,
                             unjudged := sensor :: x.unjudged.filter (· != sensor), readAt := s.tbase })

/-- SNS_WRITE: each 1 clears a mark (R414). -/
def State.writeSns (s : State) (d : Nat) (v : Word) : State :=
  let x := s.dieAt d
  (s.putDie { x with sensors := x.sensors.map fun p => (p.1, if v.getLsbD p.1 then { p.2 with fail := false } else p.2) }).reclamp d

def execSnsWrite (die : Nat) (v : Word) (s : State) : Out := .next (if 54 ≤ die then s else s.writeSns die v)

/-! ## Levels (R402, R417) -/

/-- The level a die has now. -/
def Die.level (x : Die) (tick : Nat) : Nat :=
  let t := x.tnow
  let old (m : Option Nat) : Bool := match m with
    | some u => u + 1000000000 ≤ tick
    | none => false
  if x.sensors.isEmpty then x.lvl
  else if (x.tcrit : Int) ≤ t then 2
  else if x.lvl = 2 then (if old x.underC then 1 else 2)
  else if (x.twarn : Int) ≤ t then 1
  else if x.lvl = 1 && old x.underW then 0
  else x.lvl

/-- The level changes, and raises the therm notice. -/
def State.thermal (s : State) (d : Nat) : Option State :=
  let x := s.dieAt d
  let v := x.level s.tbase
  if v = x.lvl || !x.unjudged.isEmpty then none
  else some ((s.putDie { x with lvl := v, chg := true, dropAt := if v = 2 then s.tbase else x.dropAt, cooled := v == 0 }).notice 7 16)

/-- Placed teams with a cell on a die. -/
def State.teamsOn (s : State) (d : Nat) : List (Launch × Team) :=
  s.launches.flatMap fun l => (l.teams.filter fun t => s.teamOn d l t).map fun t => (l, t)

/-- The team of the lowest priority among some, the one that a swap-out takes next (R402, R419). -/
def nextOut (ts : List (Launch × Team)) : Option (Launch × Team) := best (fun a b => a.1.prio < b.1.prio) ts

/-- At warning the runtime swaps the die's teams out, one at a time, in ascending priority (R402). DESIGN CHOICE (LOG 37): each one that has a save
base, once, with no done word; it returns as a saved team does (R421). -/
def State.warnStep (s : State) (d : Nat) : Option State :=
  let x := s.dieAt d
  let on := s.teamsOn d
  if x.lvl != 1 || !x.tier || on.any (·.2.swap.isSome) then none
  else (nextOut (on.filter fun p => p.2.save != 0 && !x.saves.contains (p.1.id, p.2.no))).map fun p =>
    (s.putDie { x with saves := x.saves ++ [(p.1.id, p.2.no)] }).beginSwap p.1.id p.2.no .quiesce p.2.save 0

/-- THERMAL_LEVEL (R417): readings still to be judged are judged first; at warning a team goes next (R402). -/
def execThermalLevel (die : Nat) (s : State) : Out := .next ((s.judgeDue die <|> s.thermal die <|> s.warnStep die).getD s)

/-! ## Ladders (R418 to R420) -/

/-- Some hart of the team runs a PRECISE task, or a PRECISE node bound to it is ready. -/
def State.holdsPrecise (s : State) (l : Launch) (t : Team) : Bool :=
  (l.nodes.any fun n => n.rank.isSome && n.precise && n.team == t.no) ||
  (s.teamCells l.id t.no).any fun n => (s.cellAt n).harts.toList.any fun h => match h.task <|> h.chosen with
    | some k => !k.replay
    | none => false

/-- The team goes down the Save ladder (R418). -/
def State.saveClass (s : State) (l : Launch) (t : Team) : Bool :=
  t.save != 0 && ((s.teamFields l.id t.no != []) || s.holdsPrecise l t)

/-- Lines a die owns and whose data are lost with it. -/
def State.dropOwned (s : State) (d : Nat) : State :=
  let ks := (s.coh.filter fun l => (l.st == .x || l.st == .o) && l.owner == d).map (·.key)
  s.dropCopies ks.contains

/-- The module numbers of the rails of some cells (R7). -/
def railsOf (cells : List Nat) : List Nat := (cells.map fun n => moduleRail (dieOf n) (railOf n)).dedup

/-- Step 2 of the Drop ladder of die `d`: the team's rails clamped to m = 8, with hcap at capmin. -/
def State.clampTeam (s : State) (d : Nat) (cells : List Nat) : State :=
  let rs := railsOf cells
  let x := s.dieAt d
  let s := rs.foldl (fun s r => let y := s.railAt (r / 768) (r % 768); s.putRail { y with hcap := y.capmin })
    (s.putDie { x with clamps := (x.clamps ++ rs).dedup })
  (rs.map (· / 768)).dedup.foldl State.reclamp s

/-- A task of a halted team is requeued with reason 0x13, or past its last attempt fails (R67, R420); a PRECISE one fails (LOG 12). -/
def haltedRec (t : Task) (hart : Nat) : TaskRecord :=
  let r : TaskRecord := { node := t.node, launch := t.launch, team := t.team, kind := 2, precise := !t.replay, hart := hart,
                          attempt := t.attempt, reason := 0x13, detail := 0, minimum := 0, page := none }
  if !t.replay then { r with kind := 1, reason := 0x20, detail := 0xFFFFFF }
  else if t.attempt = 255 then { r with kind := 1, reason := 0x25 }
  else r

/-- Step 3: the team is halted, unplaced with nothing saved, and its fields are gone. -/
def State.haltTeam (s : State) (id no : Nat) : State :=
  let cells := s.teamCells id no
  let s := cells.foldl (fun s n => s.unchoose (s.cellAt n)) s
  let recs := cells.flatMap fun n => (List.finRange 16).flatMap fun k =>
    ((s.cellAt n).hart k).heldRec.toList ++ (((s.cellAt n).hart k).task.map fun t => haltedRec t (hartNo n k)).toList
  let s := (s.teamFields id no).foldl State.loseField s
  let s := cells.foldl State.freeCell s
  match s.launch? id with
  | none => s
  | some l => match l.team? no with
    | none => s
    | some t => s.putLaunch { l.putTeam { t with placed := false, image := [], swap := none } with heldRecs := l.heldRecs ++ recs }

/-- One step of a team down the Drop ladder. -/
def State.dropTeam (s : State) (d id no step : Nat) : State :=
  let cells := s.teamCells id no
  match step with
  | 0 => cells.foldl (fun s n => let c := s.cellAt n; s.putCell (c.setHart 0 ((c.hart 0).raiseIp .s 3))) s
  | 1 => s.clampTeam d cells
  | _ => s.haltTeam id no

/-- Steps the team has taken. -/
def Die.dropped (x : Die) (id no : Nat) : Nat := ((x.drops.find? fun p => p.1 == id && p.2.1 == no).map (·.2.2)).getD 0

/-- The next step of the Drop ladder, of every team on it (R420). -/
def State.dropStep (s : State) (d : Nat) : Option State :=
  let x := s.dieAt d
  if x.lvl != 2 || !x.tier || s.tbase < x.dropAt then none
  else
    let todo := (s.teamsOn d).filter fun p => !s.saveClass p.1 p.2 && p.2.swap.isNone
    if todo.isEmpty then none
    else
      let steps := todo.map fun p => (p.1.id, p.2.no, x.dropped p.1.id p.2.no)
      let rest := x.drops.filter fun p => !steps.any fun q => q.1 == p.1 && q.2.1 == p.2.1
      let s := s.putDie { x with dropAt := s.tbase + 1000000, drops := rest ++ steps.map fun q => (q.1, q.2.1, q.2.2 + 1) }
      some ((steps.foldl (fun s q => s.dropTeam d q.1 q.2.1 q.2.2) s).logEvent (.ladderStep d false))

/-- DROP_LADDER_STEP (R420). -/
def execDropLadderStep (die : Nat) (s : State) : Out := .next ((s.dropStep die).getD s)

/-- The next step of the Save ladder, once the one before has finished (R419): a swap that the runtime began is joined; the stack refreshes itself
when no Save team is left on the die; its tier is gated after that, and a Drop team still there is halted with it (LOG 37). -/
def State.saveStep (s : State) (d : Nat) : Option State :=
  let x := s.dieAt d
  if x.lvl != 2 || !x.tier then none
  else
    let on := s.teamsOn d
    let save (s : State) (id no : Nat) : State :=
      (s.putDie { x with saves := x.saves ++ [(id, no)] }).logEvent (.ladderStep d true)
    match on.find? fun p => p.2.swap.isSome with
    | some p => if s.saveClass p.1 p.2 && !x.saves.contains (p.1.id, p.2.no) then some (save s p.1.id p.2.no) else none
    | none => match nextOut (on.filter fun p => s.saveClass p.1 p.2) with
      | some p => some ((save s p.1.id p.2.no).beginSwap p.1.id p.2.no .save p.2.save 0)
      | none =>
        if x.saves.isEmpty then none
        else
          let s := s.logEvent (.ladderStep d true)
          if !x.refresh then some (s.putDie { x with refresh := true })
          else some ((on.foldl (fun s p => s.haltTeam p.1.id p.2.no) s).gate d)

/-- SAVE_LADDER_STEP (R419). -/
def execSaveLadderStep (die : Nat) (s : State) : Out := .next ((s.saveStep die).getD s)

/-! ## Comparator and recovery (R420, R421) -/

/-- tmax (R417). -/
def tmax : Nat := 115

/-- Some raw reading of the die has reached tmax. -/
def Die.boils (x : Die) : Bool := x.sensors.any fun p => decide ((tmax : Int) ≤ p.2.raw)

/-- The comparator gates the tier, again where it has been powered meanwhile; where a placed team had a cell there, firmware declares the die failed, and its flush reports the lines that
are lost with it (R370, R371). -/
def State.comparator (s : State) (d : Nat) : Option State :=
  let x := s.dieAt d
  if !x.boils || (x.tripped && !x.tier) || 54 ≤ d then none
  else
    let s := (s.putDie { x with tripped := true }).logEvent (.comparatorTrip d)
    some ((if s.dieServes d then s.declare d else s.dropOwned d).gate d)

/-- COMPARATOR_TRIP (R420). -/
def execComparatorTrip (die : Nat) (s : State) : Out := .next ((s.comparator die).getD s)

/-- The module's current point (R409). -/
def State.point (s : State) : Nat × Nat := s.tail.point.getD (170, 90)

/-- Firmware restores a die whose level has returned to 0: self-refresh ends, and what waited for the stack is written; the tier is powered; the
rails go to the module's point, free of the ladder's clamps (R421). -/
def State.restoreDie (s : State) (d : Nat) : State :=
  let old := ((s.dieAt d).clamps.map (· / 768)).dedup
  let s := s.powerTier d
  let s := s.putDie { s.dieAt d with refresh := false, clamps := [], drops := [], tripped := false, cooled := false }
  let s := s.storeLate.releaseParked
  (d :: old).foldl State.reclamp (s.pointDie d s.point)

/-- A saved team is still out, or on its way out. -/
def State.savedStill (s : State) (p : Nat × Nat) : Bool :=
  (s.team? p.1 p.2).any fun t => t.swap.isSome || (!t.placed && !t.image.isEmpty)

/-- The saved teams whose old origins are free and powered, or that are still on their way out. -/
def State.savedTeams (s : State) (x : Die) : List (Launch × Team) :=
  (x.saves.filterMap fun p => (s.launch? p.1).bind fun l => (l.team? p.2).map fun t => (l, t)).filter fun p =>
    p.2.swap.isSome || (!s.held? p.2.x0 p.2.y0 p.1.lw p.1.lh &&
      (rectCells p.2.x0 p.2.y0 (2 ^ p.1.lw) (2 ^ p.1.lh)).all fun n => (s.dieAt (dieOf n)).tier)

/-- The saved team of the highest priority returns to its old origin (R421, LOG 37). -/
def State.bringBack (s : State) (d : Nat) : Option State :=
  let x := s.dieAt d
  if !x.saves.all s.savedStill then some (s.putDie { x with saves := x.saves.filter s.savedStill })
  else (best (fun (a b : Launch × Team) => b.1.prio < a.1.prio) (s.savedTeams x)).bind fun p =>
    if p.2.swap.isSome then none else s.bringIn p.1.id p.2.no p.2.savedAt p.2.x0 p.2.y0

/-- The next step of a die's recovery, once its level is 0 and no reading is at tmax: first the die, then one saved team after another. -/
def State.recover (s : State) (d : Nat) : Option State :=
  let x := s.dieAt d
  if x.lvl != 0 || x.boils || 54 ≤ d then none
  else if x.refresh || !x.clamps.isEmpty || !x.drops.isEmpty || x.tripped || (x.cooled && !x.saves.isEmpty) then some (s.restoreDie d)
  else s.bringBack d

/-- THERMAL_RECOVERY (R421). -/
def execThermalRecovery (die : Nat) (s : State) : Out := .next ((s.recover die).getD s)

/-! ## Hot spots (R416) -/

/-- A team may leave its place (R416): its hottest used sensor is within 5 of the warning mark, 50 ms have passed since its last move, and the
reading it left has not fallen and risen since. -/
def State.mayLeave (s : State) (l : Launch) (t : Team) : Bool :=
  (match s.hottest t.x0 t.y0 (2 ^ l.lw) (2 ^ l.lh) with
   | some a => decide (((s.dieAt a.2).twarn : Int) - 5 ≤ a.1)
   | none => false) &&
  (match t.moved with
   | some m => m.tick + 50000000 ≤ s.tbase && !m.rose
   | none => true)

/-- A new origin of a team is free and cooler by 6 (R416). -/
def State.cooler (s : State) (l : Launch) (t : Team) (x0 y0 : Nat) : Bool :=
  let w := 2 ^ l.lw
  let h := 2 ^ l.lh
  !badRect x0 y0 l.lw l.lh && !(s.launches.any fun m => m.teams.any fun u =>
    u.placed && !(m.id == l.id && u.no == t.no) && meet x0 y0 l.lw l.lh u.x0 u.y0 m.lw m.lh) &&
  (match s.hottest t.x0 t.y0 w h, s.hottest x0 y0 w h with
   | some a, some b => decide (b.1 + 6 ≤ a.1)
   | _, _ => false)

/-- The conditions of R416 for a move of a team to a new origin. -/
def State.mayMove (s : State) (l : Launch) (t : Team) (x0 y0 : Nat) : Bool := s.mayLeave l t && s.cooler l t x0 y0

/-- Some origin of the module qualifies for a move of the team. -/
def State.anyTarget (s : State) (l : Launch) (t : Team) : Bool :=
  s.mayLeave l t && (List.range (864 / 2 ^ l.lh)).any fun j => (List.range (768 / 2 ^ l.lw)).any fun i => s.cooler l t (2 ^ l.lw * i) (2 ^ l.lh * j)

/-- scap one lower on the team's cells under sensors within 5 of the warning mark (R405, LOG 12). -/
def State.coolCells (s : State) (l : Launch) (t : Team) : State :=
  (s.teamCells l.id t.no).foldl (fun s n =>
    let x := s.dieAt (dieOf n)
    match x.used (localX n / 16 + 8 * (localY n / 12)) with
    | some v =>
      if (x.twarn : Int) - 5 ≤ v then let c := s.cellAt n; s.putCell { c with scap := max 1 (c.scap - 1) } else s
    | none => s) s

/-- HOT_SPOT_MOVE: the runtime swaps the team out, or an already swapped team in at the new origin; where no origin qualifies it
lowers caps (R405). -/
def execHotSpotMove (launch team : Nat) (x0 y0 : Nat) (s : State) : Out :=
  match s.launch? launch with
  | none => .next s
  | some l => match l.team? team with
    | none => .next s
    | some t =>
      if t.swap.isSome then .next s
      else if s.mayMove l t x0 y0 then
        if t.placed then .next (if t.save = 0 then s else s.beginSwap launch team .quiesce t.save 0)
        else if t.image.isEmpty then .next s
        else
          match s.bringIn launch team t.savedAt x0 y0 with
          | none => .next s
          | some s => .next (match s.launch? launch with
            | none => s
            | some l => match l.team? team with
              | none => s
              | some u => s.putLaunch (l.putTeam { u with moved := some ⟨s.tbase, t.x0, t.y0, false, false⟩ }))
      else if t.placed && !s.anyTarget l t then .next (s.coolCells l t)
      else .next s

/-- The next thermal event of some die that has had a reading. -/
def State.heatDue (s : State) : Option State :=
  s.dies.findSome? fun x =>
    [s.comparator x.no, s.judgeDue x.no, s.thermal x.no, s.warnStep x.no, s.saveStep x.no, s.dropStep x.no, s.recover x.no].findSome? id

end Sys2Proof.Machine
end

