-- ==== Sys2Proof/Machine/Hosts.lean ====
section
/-! DEFINITION. The Headstock's stop queue, boot and attestation, scale links, external hosts, inbound DMA (R295, R391 to R397). -/

namespace Sys2Proof.Machine

/-! ## Stopped harts (R391) -/

/-- A read of HSQ: the oldest entry, removed; a stop that waited at its cell takes the room. -/
def State.hsqRead (s : State) : Word × State :=
  match s.head.hsq with
  | [] => (BitVec.allOnes 64, s)
  | p :: ps =>
    let v : Word := BitVec.ofNat 64 (p.1 + 2 ^ 24 * p.2)
    match s.head.hsqWait with
    | [] => (v, { s with head := { s.head with hsq := ps } })
    | q :: qs => (v, { s with head := { s.head with hsq := ps ++ [q], hsqWait := qs } }.notice 6 8)

/-- HSQ_READ (R391). -/
def execHsqRead (s : State) : Out := .next s.hsqRead.2

/-! ## Identity and fused limits (R295, R394) -/

/-- `ident` selector 0. -/
def ident0 : Word := BitVec.ofNat 64 (0x0100545352 + 2 ^ 40 * Config.stepping.toNat)

/-- `ident` selector 1. -/
def ident1 : Word := 0xA20A20001036

/-- FLIM: vmax 180, pmax 3,800, lmax 212, emax 6. -/
def flim : Word := BitVec.ofNat 64 (vmax + 2 ^ 8 * pmax + 2 ^ 24 * 212 + 2 ^ 32 * 6)

/-! ## Boot and attestation (R392, R393) -/

/-- The 32 bytes of a digest. -/
def digestBytes (d : BitVec 256) : List Byte := leBytes 32 d.toNat

/-- The SM3 digest of an image, which the Tailstock computes. -/
def Firmware.digest (f : Firmware) : BitVec 256 := Config.sm3 f.image

/-- The Tailstock accepts an image: its key is the fused one, and its signature over the image's digest holds. -/
def Firmware.accepted (f : Firmware) (keyh : BitVec 256) : Bool :=
  Config.sm3 f.key == keyh && Config.sm2Verify f.key f.digest f.sig

/-- BOOT (R392): slot A, then slot B; the first accepted image is measured, and core 0 leaves reset at its entry. The stage and the
flags of log entry 0 are not stated: a free value gives both (LOG 2). -/
def execBoot (s : State) : Out :=
  let t := s.tail
  if t.booted then .next s
  else match (t.slotA.toList ++ t.slotB.toList).find? fun f => f.accepted t.keyh with
    | none => .next { s with tail := { t with bootFail := true } }
    | some f =>
      let r := s.fresh
      let t := { t with booted := true, bootFail := false, measure := Config.sm3 (zeros 32 ++ digestBytes f.digest),
                        log := [⟨r.1.setWidth 32, r.1.extractLsb' 32 32, BitVec.ofNat 64 f.image.length, f.digest⟩] }
      .next { r.2 with tail := t, cores := assocSet 0 (Hart.core f.entry) s.cores, coreAt := assocSet 0 s.tbase s.coreAt }

/-- Firmware releases one of cores 1 to 63 from reset, once the module has booted (R392). That it starts at level F with the resets of R390, as
core 0 does, is a DESIGN CHOICE (LOG 46): the spec names no register or level for it. -/
def State.releaseCore (s : State) (n : Nat) (entry : Word) : State :=
  if s.tail.booted && 0 < n && n < 64 && (assocGet n s.cores).isNone then
    { s with cores := assocSet n (Hart.core entry) s.cores, coreAt := assocSet n s.tbase s.coreAt }
  else s

/-- MEASURE_EXTEND (R392): the length that the entry holds is not stated, a free value (LOG 2). -/
def execMeasureExtend (stage flags : IWord) (d : BitVec 256) (s : State) : Out :=
  if !s.tail.booted then .next s
  else
    let r := s.fresh
    let t := s.tail
    .next { r.2 with tail := { t with measure := Config.sm3 (digestBytes t.measure ++ digestBytes d),
                                      log := t.log ++ [⟨stage, flags, r.1, d⟩] } }

/-- ATTEST_QUOTE (R393). -/
def execAttestQuote (nonce : BitVec 256) (s : State) : Out :=
  let t := s.tail
  let text := digestBytes nonce ++ digestBytes t.measure ++ leBytes 8 ident0.toNat ++ leBytes 8 flim.toNat ++ leBytes 8 t.log.length
  .next { s with tail := { t with quote := some (Config.sm2Sign (Config.sm3 text)) } }

/-! ## Scale links (R395) -/

def State.link (s : State) (l : Nat) : Link := (s.links.find? fun x => x.no == l).getD (Link.reset l)

def State.putLink (s : State) (x : Link) : State := { s with links := x :: s.links.filter fun y => y.no != x.no }

/-- Bytes at a physical address; zeros where no memory answers. -/
def State.getB (s : State) (pa n : Nat) : List Byte :=
  (linePieces pa n).flatMap fun p => match s.physLine false (p.1 / 128 * 128) with
    | .ok (d, _) => (d.drop (p.1 % 128)).take p.2
    | _ => zeros p.2

/-- Some byte of a physical range lies on a stack in self-refresh, and an access to it waits (R419). -/
def State.stalled (s : State) (pa n : Nat) : Bool := (linePieces pa n).any fun p => s.refreshing (dieOfPa p.1)

/-- Where the entry at a link's transmit head lies. -/
def Link.headAt (x : Link) : Nat := fieldOf x.txb 12 40 * 4096 + 256 * (x.txhead.toNat % 2 ^ x.k)

/-- The link may send its next entry: there is one, and the peer's ring has room. -/
def Link.sends (x : Link) : Bool := x.up && x.txhead != x.txtail && (x.txhead - x.prxhead).toNat < 2 ^ x.k

/-- Entries are delivered in ring order as long as the peer has room. -/
def State.linkSend (s : State) (l : Nat) : Nat → State
  | 0 => s
  | n + 1 =>
    let x := s.link l
    if !x.sends || s.stalled x.headAt 256 then s
    else
      let e := s.getB x.headAt 256
      (s.putLink { x with sent := x.sent ++ [e], txhead := x.txhead + 1 }).linkSend l n

/-- The link sends all it may now. -/
def State.sendLink (s : State) (l : Nat) : State := s.linkSend l 4096

/-- SLCTL_WRITE (R395): a new k is ignored while train is 1; train 0 takes the link down. -/
def State.writeSlctl (s : State) (l : Nat) (v : Word) : State :=
  let x := s.link l
  let k := if x.train then x.k else fieldOf v 32 4
  if v.getLsbD 0 then s.putLink { x with train := true, k := k }
  else
    let s := s.putLink { x with train := false, k := k, up := false, lanes := 0, rate := 0 }
    if x.up then s.notice 10 40 else s

def execSlctlWrite (l : Nat) (v : Word) (s : State) : Out := .next (if 24 ≤ l then s else s.writeSlctl l v)

/-- LINK_STATE_CHANGE (R395): training never exceeds lmax, and ends with 4 or 8 lanes. -/
def execLinkStateChange (l : Nat) (up : Bool) (lanes rate peer : Nat) (s : State) : Out :=
  let x := s.link l
  if 24 ≤ l || (up && (!x.train || 212 < rate || (lanes != 4 && lanes != 8) || 65535 < peer)) then .next s
  else
    let y := if up then { x with up := true, lanes := lanes, rate := rate, peer := peer } else { x with up := false, lanes := 0, rate := 0 }
    let s := (s.putLink y).sendLink l
    .next (if x.up != up then s.notice 10 40 else s)

/-- TXTAIL_WRITE (R395): one too far beyond txhead is ignored. -/
def State.writeTxtail (s : State) (l : Nat) (v : BitVec 16) : State :=
  let x := s.link l
  if 2 ^ x.k < (v - x.txhead).toNat then s else (s.putLink { x with txtail := v }).sendLink l

def execTxtailWrite (l : Nat) (v : BitVec 16) (s : State) : Out := .next (if 24 ≤ l then s else s.writeTxtail l v)

/-- An entry as the device writes it: bits [63:24] of word 0 and word 1 are reserved, and written zero (R10, R395). -/
def ringEntry (e : List Byte) : List Byte := e.take 3 ++ zeros 13 ++ e.drop 16

/-- LINK_ENTRY_RECEIVE (R395): the peer sends only where the receive ring has room. -/
def execLinkEntryReceive (l : Nat) (entry : List Byte) (s : State) : Out :=
  let x := s.link l
  if 24 ≤ l || !x.up || 2 ^ x.k ≤ (x.rxtail - x.rxhead).toNat || entry.length != 256 then .next s
  else
    let s := s.putB (fieldOf x.rxb 12 40 * 4096 + 256 * (x.rxtail.toNat % 2 ^ x.k)) (ringEntry entry)
    .next ((s.putLink { x with rxtail := x.rxtail + 1 }).notice 10 40)

/-- LINK_CONTROL_FLIT (R395). -/
def execLinkControlFlit (l : Nat) (rxhead : BitVec 16) (s : State) : Out :=
  if 24 ≤ l || !(s.link l).up then .next s
  else .next ((s.putLink { s.link l with prxhead := rxhead }).sendLink l)

/-! ## Queue pairs (R396, R397) -/

def State.qp (s : State) (q : Nat) : QueuePair := (s.qps.find? fun x => x.no == q).getD (QueuePair.reset q)

def State.putQp (s : State) (x : QueuePair) : State := { s with qps := x :: s.qps.filter fun y => y.no != x.no }

namespace QueuePair

def ks (x : QueuePair) : Nat := fieldOf x.qcfg 0 5
def kc (x : QueuePair) : Nat := fieldOf x.qcfg 8 5
def en (x : QueuePair) : Bool := x.qcfg.getLsbD 16
def vec (x : QueuePair) : Nat := fieldOf x.qcfg 24 11

/-- Bits of QCFG that a write sets. -/
def cfgMask : Word := 0x7FF011F1F

/-- A pair that has stopped clears rdy once its last completion is written. -/
def tidy (x : QueuePair) : QueuePair := if !x.en && x.done.isEmpty then { x with rdy := false } else x

/-- The ring sizes and bases are in range. -/
def inRange (x : QueuePair) : Bool :=
  4 ≤ x.ks && x.ks ≤ 16 && 4 ≤ x.kc && x.kc ≤ 16 && x.sqb.toNat % 4096 == 0 && x.cqb.toNat % 4096 == 0

/-- The runtime reads the pair as en is set. -/
def start (x : QueuePair) : QueuePair :=
  if x.inRange then { x with shead := 0, ctail := 0, cqh := 0, phase := true, rdy := true, err := false }
  else { x with err := true, rdy := false }

end QueuePair

/-- QCFG (R397). -/
def execQcfg (q : Nat) (v : Word) (s : State) : Out :=
  if 16 ≤ q then .next s
  else
    let x := s.qp q
    let y := { x with qcfg := v &&& QueuePair.cfgMask }
    let y := if y.en && !x.en then y.start else y.tidy
    .next ((s.putQp y).notice 8 24)

/-- SQT (R397): a tail too far beyond the submission head is ignored. -/
def execSqt (q : Nat) (v : BitVec 16) (s : State) : Out :=
  let x := s.qp q
  if 16 ≤ q || 2 ^ x.ks < (v - x.shead).toNat then .next s
  else .next ((s.putQp { x with sqt := v }).notice 8 24)

/-- The next completion of a pair is written where its ring has room: the entry, its phase, the vector (R396, R397). -/
def State.complete (s : State) (q : Nat) : Option State :=
  let x := s.qp q
  match x.done with
  | [] => none
  | (cid, status, value) :: rest =>
    if 2 ^ x.kc ≤ (x.ctail - x.cqh).toNat then none
    else
      let w0 : Word := BitVec.ofNat 64 (cid * 2 ^ 16 + boolNat x.phase * 2 ^ 32 + status * 2 ^ 40)
      let next := x.ctail + 1
      let y := { x with done := rest, ring := x.ring ++ [(x.ctail.toNat, w0, value)], msix := x.msix ++ [x.vec], ctail := next,
                        phase := if next.toNat % 2 ^ x.kc = 0 then !x.phase else x.phase }
      some (s.putQp y.tidy)

/-- HOST_COMPLETION (R396). -/
def execHostCompletion (q : Nat) (s : State) : Out := .next ((s.complete q).getD s)

/-- CQH (R397). -/
def execCqh (q : Nat) (v : BitVec 16) (s : State) : Out :=
  if 16 ≤ q then .next s else .next ((s.putQp { s.qp q with cqh := v }).notice 8 24)

/-- Bytes of a move that lie in memory: all of them, or none. -/
def moved (s : State) (pa n : Nat) : Nat :=
  if (linePieces pa n).all fun p => match s.physLine false (p.1 / 128 * 128) with
    | .ok _ => true
    | _ => false
  then n else 0

/-- A submission's opcode performed (R396): status and value; `none` waits for a held page, or a stack in self-refresh. -/
def State.submit (s : State) (entry : List Word) (host : List Byte) : Option ((Nat × Word) × State) :=
  let w (i : Nat) : Word := entry.getD i 0
  match fieldOf (w 0) 0 8 with
  | 1 =>
    if 2 ^ 55 ≤ (w 1).toNat || (w 1).toNat % 128 != 0 then some ((0, answerWord 3 0), s)
    else match s.readWords 54 0 .s (w 1).toNat 16 with
    | (.wait, _) => none
    | (.ok ws, t) => (t.serveLaunch ws).map fun r => ((0, r.1), r.2)
    | (_, t) => some ((0, answerWord 3 0), t)
  | 2 =>
    let bs := host.take (w 3).toNat
    let n := moved s (w 2).toNat bs.length
    if s.stalled (w 2).toNat bs.length then none
    else some ((0, BitVec.ofNat 64 n), s.putB (w 2).toNat (bs.take n))
  | 3 =>
    if s.stalled (w 2).toNat (w 3).toNat then none
    else some ((0, BitVec.ofNat 64 (moved s (w 2).toNat (w 3).toNat)), s)
  | _ => some ((1, 0), s)

/-- HOST_SUBMISSION (R396): the entry at the submission head, and the host bytes that a write moves. -/
def execHostSubmission (q : Nat) (entry : List Word) (host : List Byte) (s : State) : Out :=
  let x := s.qp q
  if 16 ≤ q || !x.rdy || !x.en || x.shead == x.sqt then .next s
  else match s.submit entry host with
    | none => .next s
    | some (r, s) =>
      let x := s.qp q
      let cid := fieldOf (entry.getD 0 0) 16 16
      let out : List (Word × List Byte) :=
        if fieldOf (entry.getD 0 0) 0 8 = 3 && r.2 != 0 then [(entry.getD 1 0, s.getB (entry.getD 2 0).toNat r.2.toNat)] else []
      .next (s.putQp { x with shead := x.shead + 1, done := x.done ++ [(cid, r.1, r.2)], moved := x.moved ++ out })

/-! ## Ports (R391, R394) -/

/-- Registers of a port's windows. -/
def portBase (p : Nat) : Nat := deviceBase + 0x500000 + p * 0x100

/-- First page and the page just past window `j` of a port, where it is enabled and inside the ceiling. -/
def State.dmaWindow (s : State) (p j : Nat) : Option (Nat × Nat) :=
  let b := s.devReg (portBase p + 0x10 + 16 * j)
  let lo := fieldOf b 16 36
  let hi := fieldOf (s.devReg (portBase p + 0x18 + 16 * j)) 16 36
  let c := Config.dmaCeiling p
  if b.getLsbD 0 && c.1 ≤ lo && hi ≤ c.2 then some (lo, hi) else none

/-- The request lies inside an enabled window. -/
def State.admits (s : State) (p pa n : Nat) : Bool :=
  p < 9 && (List.range 8).any fun j => match s.dmaWindow p j with
    | some (lo, hi) => lo * 65536 ≤ pa && pa + n ≤ hi * 65536
    | none => false

/-- INBOUND_DMA (R394): a read has no effect on the module; a refused request performs nothing and raises the pcie notice. -/
def execInboundDma (port : Nat) (write : Bool) (pa : Nat) (bytes : List Byte) (s : State) : Out :=
  if !s.admits port pa bytes.length then .next (s.notice 9 32)
  else .next (if write then s.putB pa bytes else s)

/-- PCIE_PORT_EVENT (R391). -/
def execPciePortEvent (port : Nat) (s : State) : Out := .next (if port < 9 then s.notice 9 32 else s)

/-- A link sends what its stack has kept from it (R419). -/
def State.linksDue (s : State) : Option State :=
  (s.links.find? fun x => x.sends && !s.stalled x.headAt 256).map fun x => s.sendLink x.no

/-- The next completion that has room, or link that sends again. -/
def State.hostDue (s : State) : Option State := (s.qps.findSome? fun x => s.complete x.no) <|> s.linksDue

end Sys2Proof.Machine
end

