-- ==== Sys2Proof/Machine/Device.lean ====
section
/-! DEFINITION. Device registers and BAR0: what each address names, reads and writes (R10, R11, R337, R351, R352, R355, R369, R387, R391, R394, R395, R397, R402, R403, R410, R413, R414, R417). -/

namespace Sys2Proof.Machine

/-! ## Addresses -/

/-- What a device address, a multiple of 8, names. -/
inductive DevReg where
  | ctxb | asid0 | gmb | dief | llrb | llrn
  | inc (d : Nat)
  /-- Word `i` of the 16 records of a die's fault unit. -/
  | faultRec (d i : Nat)
  | faultStat (d : Nat)
  | region (d i : Nat)
  /-- NWGT, NAGE, NCNT, NDIV. -/
  | net (d i : Nat)
  | hnr | hsq | swg | flim | mpwr | slid
  | ths (d : Nat)
  | thc (d : Nat)
  | sns (d : Nat)
  /-- SLCTL, SLTXB, SLRXB, SLPTR. -/
  | link (l i : Nat)
  /-- Ceiling lo and hi, then base and limit of each window. -/
  | port (p i : Nat)
  /-- RCTL, RSTAT, RTHR, REST. -/
  | rail (d r i : Nat)
  | cpwr (c : Nat)
  | dpwr (d : Nat)
  | dcoef (d : Nat)
  | vft (d i : Nat)
  | sensor (d i : Nat)
  /-- BAR0 of the endpoint, as a host reaches it. -/
  | bar (o : Nat)
  /-- No register: reads zero, ignores writes (LOG 13). -/
  | unlisted
  deriving DecidableEq, Repr

/-- Where BAR0 stands among the addresses of REGISTER_WRITE: the model's own numbering (LOG 13). -/
def barBase : Nat := 2 ^ 60

def blockOf (o d size lim : Nat) (f : Nat → Nat → DevReg) : DevReg :=
  if d < lim then f d (o % size) else .unlisted

/-- A register of the Headstock block. -/
def headReg (o : Nat) : DevReg :=
  if o = 0 then .hnr
  else if o = 8 then .hsq
  else if o = 0x10 then .swg
  else if o = 0x100 then .flim
  else if 0x200 ≤ o && o < 0x200 + 8 * 54 then .ths ((o - 0x200) / 8)
  else if o = 0x400 then .mpwr
  else if 0x600 ≤ o && o < 0x600 + 8 * 54 then .thc ((o - 0x600) / 8)
  else if 0x800 ≤ o && o < 0x800 + 8 * 54 then .sns ((o - 0x800) / 8)
  else if o = 0xF00 then .slid
  else if 0x1000 ≤ o && o < 0x1000 + 0x40 * 24 && o % 0x40 < 0x20 then .link ((o - 0x1000) / 0x40) (o % 0x40 / 8)
  else .unlisted

/-- A register of a die's power block. -/
def powerReg (d o : Nat) : DevReg :=
  if o < 0x20 * 769 then .rail d (o / 0x20) (o % 0x20 / 8)
  else if o < 0x8000 then .unlisted
  else if o < 0x20000 then
    let i := (o - 0x8000) / 8
    .cpwr (cellNo (d % 6 * 128 + i % 128) (d / 6 * 96 + i / 128))
  else if o = 0x20000 then .dpwr d
  else if o = 0x20008 then .dcoef d
  else if 0x20100 ≤ o && o < 0x20100 + 104 then .vft d ((o - 0x20100) / 8)
  else if 0x20200 ≤ o && o < 0x20200 + 512 then .sensor d ((o - 0x20200) / 8)
  else .unlisted

/-- The register at an address. -/
def regAt (a : Nat) : DevReg :=
  if barBase ≤ a then .bar (a - barBase)
  else
    let o := a - deviceBase
    if a < deviceBase then .unlisted
    else if o = 0 then .ctxb
    else if o = 8 then .asid0
    else if o = 0x10 then .gmb
    else if o = 0x20 then .dief
    else if o = 0x28 then .llrb
    else if o = 0x30 then .llrn
    else if 0x100 ≤ o && o < 0x100 + 8 * 54 then .inc ((o - 0x100) / 8)
    else if o < 0x100000 then .unlisted
    else if o < 0x200000 then
      blockOf (o - 0x100000) ((o - 0x100000) / 0x1000) 0x1000 54 fun d x =>
        if x < 0x200 then .faultRec d (x / 8) else if x = 0x200 then .faultStat d else .unlisted
    else if o < 0x300000 then
      blockOf (o - 0x200000) ((o - 0x200000) / 0x1000) 0x1000 54 fun d x => if x < 0x200 then .region d (x / 8) else .unlisted
    else if o < 0x400000 then
      blockOf (o - 0x300000) ((o - 0x300000) / 0x1000) 0x1000 54 fun d x => if x < 0x20 then .net d (x / 8) else .unlisted
    else if o < 0x500000 then headReg (o - 0x400000)
    else if o < 0x1000000 then
      blockOf (o - 0x500000) ((o - 0x500000) / 0x100) 0x100 9 fun p x => if x < 0x90 then .port p (x / 8) else .unlisted
    else blockOf (o - 0x1000000) ((o - 0x1000000) / 0x100000) 0x100000 54 powerReg

/-! ## Reading -/

/-- Four words of a fault record (R351). -/
def FaultRec.words (r : FaultRec) : List Word :=
  [BitVec.ofNat 64 (r.page + r.asid * 2 ^ 39 + r.gen % 64 * 2 ^ 51 + r.kind * 2 ^ 57),
   BitVec.ofNat 64 (r.cell + r.slot * 2 ^ 20 + r.count * 2 ^ 24 + boolNat r.wr * 2 ^ 40 + boolNat r.prec * 2 ^ 41 + boolNat r.park * 2 ^ 42),
   BitVec.ofNat 64 r.tick, 0]

/-- The status of a fault unit (R352). -/
def State.faultStat (s : State) (d : Nat) : Word :=
  let u := s.unit d
  let nodes := (s.mem.waitList.filter fun p => p.die == d).length
  BitVec.ofNat 64 ((u.recs.map fun r => 2 ^ r.1).foldl (· + ·) 0 + boolNat u.drop * 2 ^ 16 + boolNat u.irq * 2 ^ 17 + u.dcnt * 2 ^ 32 +
    nodes % 65536 * 2 ^ 48)

/-- RCTL, RSTAT, RTHR and REST of a rail (R403). -/
def State.railWord (s : State) (d r i : Nat) : Word :=
  let x := s.railAt d r
  match i with
  | 0 => x.rctl
  | 1 => BitVec.ofNat 64 (s.vnow d r + s.mnow d r * 2 ^ 8 + boolNat x.busy * 2 ^ 15 + boolNat x.alarm * 2 ^ 16 + x.hcap * 2 ^ 17 +
      boolNat x.rej * 2 ^ 22)
  | 2 => x.rthr
  | _ => BitVec.ofNat 64 (x.iest + x.isense * 2 ^ 32)

/-- CPWR (R403). -/
def State.cpwr (s : State) (n : Nat) : Word :=
  let c := s.cellAt n
  BitVec.ofNat 64 ((c.newDiv.getD c.div - 1) + boolNat c.on * 4 + c.scap * 2 ^ 8 + c.prot.toNat * 2 ^ 16 + s.ecap c * 2 ^ 32)

/-- A signed temperature as a byte. -/
def celsius (t : Int) : Nat := (BitVec.ofInt 8 t).toNat

/-- A sensor's register; before its first reading its values read 0 (R413, LOG 12). -/
def Die.sensorWord (x : Die) (i : Nat) : Word :=
  match x.sensor? i with
  | none => 0
  | some y => BitVec.ofNat 64 (celsius y.raw + celsius ((x.used i).getD 0) * 2 ^ 8 + boolNat y.fail * 2 ^ 16)

/-- SLCTL, SLTXB, SLRXB, SLPTR (R395). -/
def Link.word (x : Link) (i : Nat) : Word :=
  match i with
  | 0 => BitVec.ofNat 64 (boolNat x.train + boolNat x.up * 2 + x.lanes * 4 + x.rate * 2 ^ 8 + (if x.up then x.peer else 0) * 2 ^ 16 +
      x.k * 2 ^ 32)
  | 1 => x.txb
  | 2 => x.rxb
  | _ => BitVec.ofNat 64 (x.txtail.toNat + x.txhead.toNat * 2 ^ 16 + x.rxtail.toNat * 2 ^ 32 + x.rxhead.toNat * 2 ^ 48)

/-- A register of a port (R394): a window outside its ceiling reads en = 0. -/
def State.portWord (s : State) (p i : Nat) : Word :=
  let c := Config.dmaCeiling p
  let w := s.devReg (portBase p + 8 * i)
  match i with
  | 0 => BitVec.ofNat 64 (c.1 % 2 ^ 36 * 65536)
  | 1 => BitVec.ofNat 64 (c.2 % 2 ^ 36 * 65536)
  | _ => if i % 2 = 0 && (s.dmaWindow p ((i - 2) / 2)).isNone then setField w 0 1 0 else w

/-- BAR0 as a host reads it (R397). -/
def State.barWord (s : State) (o : Nat) : Word :=
  if o = 0x2000 then ident0
  else if o = 0x2008 then ident1
  else if 0x1000 ≤ o && o < 0x1000 + 0x40 * 16 then
    let x := s.qp ((o - 0x1000) / 0x40)
    match o % 0x40 with
    | 0 => x.sqb
    | 8 => x.cqb
    | 0x10 => setField (setField x.qcfg 17 1 (boolNat x.rdy)) 18 1 (boolNat x.err)
    | 0x18 => BitVec.ofNat 64 (x.shead.toNat + x.ctail.toNat * 2 ^ 16 + boolNat x.phase * 2 ^ 32)
    | _ => 0
  else 0

/-- The value of a register; nothing changes. -/
def State.peek (s : State) (a : Nat) : Word :=
  match regAt a with
  | .ctxb => s.devReg a | .asid0 => s.devReg a | .gmb => s.devReg a | .region _ _ => s.devReg a | .net _ _ => s.devReg a
  | .dief => BitVec.ofNat 64 (s.head.fail.toNat + boolNat (!s.head.decl.isEmpty) * 2 ^ 54)
  | .llrb => s.head.llrb
  | .llrn => BitVec.ofNat 64 (s.head.llrn + boolNat s.head.ovf * 2 ^ 32)
  | .inc d => BitVec.ofNat 64 (s.inc d)
  | .faultRec d i => match (s.unit d).recs.find? fun p => p.1 == i / 4 with
    | some p => p.2.words.getD (i % 4) 0
    | none => 0
  | .faultStat d => s.faultStat d
  | .hnr => s.head.hnr
  | .hsq => s.hsqRead.1
  | .swg => s.head.swg
  | .flim => flim
  | .mpwr => BitVec.ofNat 64 (s.tail.pcap + s.tail.pnow * 2 ^ 16 + s.tail.mclamp * 2 ^ 32 + boolNat s.tail.overCap * 2 ^ 39)
  | .slid => BitVec.ofNat 64 s.head.slid.toNat
  | .ths d => BitVec.ofNat 64 ((s.dieAt d).lvl + 4 * boolNat (s.dieAt d).chg)
  | .thc d => BitVec.ofNat 64 (fieldOf (s.dieAt d).thc 0 16 + tmax * 2 ^ 16 + celsius (s.dieAt d).tnow * 2 ^ 24)
  | .sns d => BitVec.ofNat 64 (((List.range 64).filter (s.dieAt d).failedSensor).map (2 ^ ·) |>.foldl (· + ·) 0)
  | .link l i => (s.link l).word i
  | .port p i => s.portWord p i
  | .rail d r i => s.railWord d r i
  | .cpwr c => s.cpwr c
  | .dpwr d => flagWord (s.dieAt d).tier
  | .dcoef d => s.dcoef d
  | .vft d i => BitVec.ofNat 64 (((List.range 8).filter fun k => 8 * i + k < 97).map (fun k => vft d (84 + 8 * i + k) * 2 ^ (8 * k)) |>.foldl (· + ·) 0)
  | .sensor d i => (s.dieAt d).sensorWord i
  | .bar o => s.barWord o
  | .unlisted => 0

/-- A read by a Headstock hart: HSQ gives up its entry (R391). -/
def State.regRead (s : State) (a : Nat) : Word × State :=
  match regAt a with
  | .hsq => s.hsqRead
  | _ => (s.peek a, s)

/-! ## Writing -/

/-- Bits of a register that a write stores as they are. -/
def storedMask : DevReg → Word
  | .net _ 0 => 0xFFFFFF
  | .net _ 1 => 0xFF
  | .net _ 2 => BitVec.allOnes 64
  | .net _ _ => 0xFFFFFFFFFFFF
  | .region _ i => if i % 4 = 0 then paMask ||| 1 else if i % 4 = 2 then 0xFFFFFFFFF0000FF else paMask
  | .port _ i => if i % 2 = 0 then paMask ||| 1 else paMask
  | _ => paMask

/-- BAR0 written by a host; SQT, CQH and QCFG are steps of their own (R397). -/
def State.barWrite (s : State) (o : Nat) (v : Word) : State :=
  let step (x : Out) : State := (nextOf x).getD s
  if o < 0x80 && o % 8 = 0 then step (execSqt (o / 8) (BitVec.ofNat 16 v.toNat) s)
  else if 0x800 ≤ o && o < 0x880 && o % 8 = 0 then step (execCqh ((o - 0x800) / 8) (BitVec.ofNat 16 v.toNat) s)
  else if 0x1000 ≤ o && o < 0x1000 + 0x40 * 16 then
    let q := (o - 0x1000) / 0x40
    match o % 0x40 with
    | 0 => s.putQp { s.qp q with sqb := v }
    | 8 => s.putQp { s.qp q with cqb := v }
    | 0x10 => step (execQcfg q v s)
    | _ => s
  else s

/-- SLPTR written: rxhead, then txtail (R395). -/
def State.writeSlptr (s : State) (l : Nat) (v : Word) : State :=
  (s.putLink { s.link l with rxhead := BitVec.ofNat 16 (fieldOf v 48 16) }).writeTxtail l (BitVec.ofNat 16 (fieldOf v 0 16))

/-- The marks of a die written (R417). -/
def State.writeThc (s : State) (d : Nat) (v : Word) : State :=
  let x := { s.dieAt d with thc := BitVec.ofNat 64 (fieldOf v 0 16) }
  let old := s.dieAt d
  s.putDie (if x.sensors.isEmpty then x else
    { x with underW := x.under x.twarn (if x.twarn = old.twarn then x.underW else none) s.tbase,
             underC := x.under x.tcrit (if x.tcrit = old.tcrit then x.underC else none) s.tbase })

/-- A register written (R11). -/
def State.regWrite (s : State) (a : Nat) (v : Word) : State :=
  match regAt a with
  | .ctxb => s.setDevReg a (v &&& paMask) | .asid0 => s.setDevReg a (v &&& paMask) | .gmb => s.setDevReg a (v &&& paMask)
  | .region d i => s.setDevReg a (v &&& storedMask (.region d i))
  | .net d i => s.setDevReg a (v &&& storedMask (.net d i))
  | .port p i => if i < 2 then s else s.setDevReg a (v &&& storedMask (.port p i))
  | .dief => s.writeDief v
  | .llrb => { s with head := { s.head with llrb := v &&& 0xFFFFFFFFFFFFF } }
  | .faultStat d =>
    let u := s.unit d
    let clr := v.getLsbD 16
    s.putUnit { u with drop := u.drop && !clr, dcnt := if clr then 0 else u.dcnt, irq := v.getLsbD 17 }
  | .hnr => { s with head := { s.head with hnr := v &&& 0x3F3F3F3F3F3F } }
  | .swg => { s with head := { s.head with swg := v &&& 0xFFFFFFFF } }
  | .mpwr =>
    let t := s.tail
    { s with tail := { t with pcap := fieldOf v 0 16, overCap := t.overCap && !v.getLsbD 39 } }
  | .slid => { s with head := { s.head with slid := BitVec.ofNat 16 (fieldOf v 0 16) } }
  | .ths d => if v.getLsbD 2 then s.putDie { s.dieAt d with chg := false } else s
  | .thc d => s.writeThc d v
  | .sns d => s.writeSns d v
  | .link l 0 => s.writeSlctl l v
  | .link l 1 => s.putLink { s.link l with txb := v &&& 0xFFFFFFFFFF000 }
  | .link l 2 => s.putLink { s.link l with rxb := v &&& 0xFFFFFFFFFF000 }
  | .link l _ => s.writeSlptr l v
  | .rail d r 0 => s.putRail ((s.railAt d r).write (s.clampOf d r) v s.tbase)
  | .rail d r 1 => if v.getLsbD 22 then s.putRail { s.railAt d r with rej := false } else s
  | .rail d r 2 => s.putRail { s.railAt d r with rthr := v &&& 0xFFFFFFFF }
  | .cpwr c => s.putCell ((s.cellAt c).writePower v s.tbase)
  | .dpwr d => s.writeDpwr d v
  | .dcoef _ => s.setDevReg a v
  | .bar o => s.barWrite o v
  | _ => s

/-- Bits of a register that a 1 clears. -/
def clearBits : DevReg → Word
  | .faultStat _ => 0x10000
  | .ths _ => 4
  | .sns _ => BitVec.allOnes 64
  | .mpwr => 0x8000000000
  | .rail _ _ 1 => 0x400000
  | _ => 0

/-- Bytes read of the registers they lie in; each register is read once (LOG 13). -/
def State.devRead (s : State) (a n : Nat) : List Byte × State :=
  ((List.range ((a % 8 + n + 7) / 8)).foldl (fun (r : List Byte × State) j =>
    let x := r.2.regRead (a / 8 * 8 + 8 * j)
    (r.1 ++ leBytes 8 x.1.toNat, x.2)) ([], s)) |> fun r => ((r.1.drop (a % 8)).take n, r.2)

/-- Bytes written into the registers they lie in: the bytes of a register that are not written keep its value, and clear nothing
(LOG 13). -/
def State.devWrite (s : State) (a : Nat) (bs : List Byte) : State :=
  (List.range ((a % 8 + bs.length + 7) / 8)).foldl (fun s j =>
    let r := a / 8 * 8 + 8 * j
    let old := leBytes 8 (s.peek r &&& ~~~ (clearBits (regAt r))).toNat
    let new := (List.range 8).map fun i =>
      if a ≤ r + i && r + i < a + bs.length then bs.getD (r + i - a) 0 else old.getD i 0
    s.regWrite r (BitVec.ofNat 64 (leNat new))) s

/-- REGISTER_WRITE (R11): an address that is no multiple of 8 names no register. -/
def execRegisterWrite (addr : Nat) (v : Word) (s : State) : Out := .next (if addr % 8 = 0 then s.regWrite addr v else s)

end Sys2Proof.Machine
end

