-- ==== Sys2Proof/Machine/Publish.lean ====
section
/-! DEFINITION. Places for write-backs at a home, and the publication that ends a cell's outstanding stores (R196, R367). -/

namespace Sys2Proof.Machine

/-! ## Places (R367) -/

/-- A pending bit's number in the round-robin order (R367). -/
def placeNo (p : Nat × Nat × Nat) : Nat := p.1 * 64 + p.2.1 * 2 + p.2.2

/-- The pending bits of a line that ask for a place: a bit that holds a PutE does not. -/
def CohLine.asking (l : CohLine) : List (Nat × Nat × Nat) := l.places.filter fun p => !l.holds (.pute p.1)

/-- The pending places at a home die and slice. -/
def State.pendingPlaces (s : State) (home slice : Nat) : List (LineKey × Nat × Nat × Nat) :=
  (s.coh.filter fun l => s.lineHome l.key.asid (l.key.line * 128) == home && s.homeSlice l.key == slice).flatMap fun l =>
    l.asking.map fun p => (l.key, p)

/-- Places of a slice's write-back buffer in use: those granted whose write-back has not been judged (R366, R367). -/
def State.placesUsed (s : State) (home slice : Nat) : Nat :=
  ((s.coh.filter fun l => s.lineHome l.key.asid (l.key.line * 128) == home && s.homeSlice l.key == slice).map fun l =>
    (l.msgs.filter fun m => match m.msg with
      | .placeGrant _ => true
      | .writeBack _ => true
      | _ => false).length).foldl (· + ·) 0

/-- The home grants one of its 32 places to the next pending bit in round-robin order; the grant leaves for the die (R366, R367). -/
def State.placeGrant (s : State) (t home slice : Nat) : Option State :=
  if 32 ≤ s.placesUsed home slice then none
  else
  let last := ((s.places.find? fun p => p.1 == home * 32 + slice).map fun p => placeNo p.2).getD 3519
  let dist (p : LineKey × Nat × Nat × Nat) : Nat := (placeNo p.2 + 3520 - (last + 1)) % 3520
  (best (fun a b => dist a < dist b) (s.pendingPlaces home slice)).map fun p =>
    let x := s.cohLine p.1
    let x := { x with places := x.places.erase p.2 }.send none [.placeGrant p.2.1]
    { s.putCoh t x with places := (home * 32 + slice, p.2) :: s.places.filter fun q => q.1 != home * 32 + slice }

/-- PLACE_GRANT (R367). -/
def execPlaceGrant (home slice : Nat) (s : State) : Out := .next ((s.placeGrant s.instant home slice).getD s)

/-- The next granted place, at the homes of the lines that wait for one. -/
def State.placeStep (s : State) : Option State :=
  s.coh.findSome? fun l => if l.asking.isEmpty then none else s.placeGrant s.net.at_ (s.lineHome l.key.asid (l.key.line * 128)) (s.homeSlice l.key)

/-! ## Forced publish (R298) -/

/-- Every piece of a cell that can be credited now is. -/
def State.creditAll (s : State) (n : Nat) : Nat → State
  | 0 => s
  | k + 1 => match s.pieceCredit n with
    | some t => t.creditAll n k
    | none => s

/-- The cell completes what it has outstanding and can complete now; pushes still on their way it completes as they come (R298). -/
def State.publish (s : State) (n : Nat) : State := (s.creditAll n (s.cellAt n).pushes.length).drainCell n

/-- FORCED_PUBLISH (R298). -/
def execForcedPublish (c : Nat) (s : State) : Out := .next (s.publish c)

/-- The instruction is a release that does not complete before the hart's earlier stores and pushes are acknowledged (R196, R197, R253). -/
def isRelease (i : Instr) : Bool :=
  match i with
  | .fence _ => true
  | .stRel _ _ _ _ _ => true
  | .fdecl _ _ => true
  | .fstart _ _ => true
  | .fpause _ _ => true
  | .fstop _ _ _ => true
  | .fmig _ _ => true
  | .amoAdd _ _ _ _ => true
  | .amoAnd _ _ _ _ => true
  | .amoOr _ _ _ _ => true
  | .amoXor _ _ _ _ => true
  | .amoMin _ _ _ _ => true
  | .amoMax _ _ _ _ => true
  | .amoMinn _ _ _ _ => true
  | .amoMaxn _ _ _ _ => true
  | .amoSwp _ _ _ _ => true
  | .amoCas _ _ _ _ => true
  | .tbar _ _ _ _ => true
  | .tspawn _ _ => true
  | .snap _ _ => true
  | .cplc _ _ _ => true
  | .sput _ => true
  | _ => false

/-- Hart `k` has a release whose earlier stores and pushes are not acknowledged: a store held behind one, a `fence.rel`, an instruction that
waits for them, or an engine command that does. -/
def Cell.releasing (c : Cell) (k : Slot) : Bool :=
  let h := c.hart k
  let waits := match h.st with
    | .wait _ => true
    | _ => h.again
  !h.held.isEmpty || h.relAfter.any (fun i => (c.outstanding k).contains i) ||
  (waits && !c.acked k && (h.winstr.map isRelease).getD false) ||
  (c.mq.any fun q => q.slot == k && q.start.isNone && !c.follows k q.after q.upto) ||
  (c.cq.any fun q => q.slot == k && !c.follows k q.after q.upto)

/-- Some hart of the cell has a release that waits for acknowledgements. -/
def Cell.pendingRelease (c : Cell) : Bool := (List.finRange 16).any c.releasing

/-- The cell, other than that of the hart that asks, which has registered a word of a range and holds a pending release (R298). -/
def State.mustPublish (s : State) (by_ : Agent) (asid va n : Nat) : Option Nat :=
  let k : LineKey := ⟨asid, s.gen asid, va / 128⟩
  (s.cells.find? fun c =>
    Agent.cell c.no != by_ && c.pendingRelease && c.cache.any fun l => l.key == k && (l.regs &&& wordMask (va % 128) n) != 0).map (·.no)

/-- The forced publish of a strong or acquiring access, or an `amo`, wider than `.c` at a range; `none` while its registrant has not finished, so that
the access is held (R298). -/
def State.forcePublish (s : State) (by_ : Agent) (asid va n : Nat) : Option State :=
  match s.mustPublish by_ asid va n with
  | none => some s
  | some i =>
    let t := s.publish i
    if (t.mustPublish by_ asid va n).isSome then none else some t

end Sys2Proof.Machine
end

