-- ==== Sys2Proof/Machine/Answers.lean ====
section
/-! DEFINITION. Accesses beyond a cell on their way: the lookup, the walk, what the line's die asks for, the answer and what it does at the cell
(R106, R137 to R139, R186, R189, R190, R194, R320, R346, R350 to R358, R362 to R366). -/

namespace Sys2Proof.Machine

/-! ## What a miss needs (R105, R189, R197, R361) -/

/-- The access of a kind of miss (R339). -/
def MissKind.need (k : MissKind) : Need :=
  match k with
  | .amo _ => .amo
  | .check => .store
  | .replay => .store
  | .pieceOut => .store
  | .fetch => .fetch
  | _ => .load

/-- The die must hold the line in M or E: words of it become registered, or its atomic is performed there (R359, R361). -/
def MissKind.owns (k : MissKind) : Bool := k.need == .store || k.need == .amo

/-- Its access is held until the words' registrant has published what it owes (R298). -/
def MissKind.publishes (k : MissKind) : Bool := k == .load true

/-- Where the access of a miss is performed. An atomic of a site fails (R91), and device registers are reached from a Headstock hart's own slot alone. -/
def State.missPlace (s : State) (m : Miss) : Answer Place × State :=
  if m.kind.need == .store then s.storeAt m.asid m.level m.va
  else match s.locate false m.asid m.level m.kind.need m.va with
    | (.ok .pool, t) => (if m.kind.need == .amo then .denied else .ok .pool, t)
    | r => r

/-- The die serves the miss from the line as it has it. -/
def CohLine.serves (x : CohLine) (d : Nat) (own : Bool) : Bool := if own then x.writable d else x.readable d

/-- The die asks for what a miss needs of a line; `none` where it has asked, where it cannot ask now, or where its slice's miss table is full (R362,
R364, R366). -/
def State.wants (s : State) (t d : Nat) (k : LineKey) (own : Bool) : Option State :=
  let x := s.cohLine k
  let up := own && (x.dieState d == .s || x.dieState d == .o)
  let msg : CohMsg := if up then .upg d else if own then .getm d else .gets d
  let st : DieState := if up then .smAd else if own then .imAd else .isD
  if x.holds msg || !x.mayAsk d up || s.missFull d k then none else some (s.putCoh t (x.ask d up msg st))

/-! ## Faults on the way (R350, R351, R358) -/

/-- Something waits for the miss still: its hart, the attempt that its check is of, a copy command. -/
def State.awaited (s : State) (m : Miss) : Bool :=
  let h := s.missHart m
  match m.kind with
  | .pf => false
  | .replay => match h.task with
    | some t => h.attempt == m.task && t.ending.isNone && t.checks.contains (m.va / 128)
    | none => false
  | .pieceIn => true
  | .pieceOut => true
  | _ => h.asks.contains m.id

/-- The instruction of a fetch reaches the line that it misses: the line of its first word does, and the next one where the instruction's length, which
the first line shows, does (R137). -/
def State.reaches (s : State) (m : Miss) : Bool :=
  if m.va % 128 != 0 || 16 < m.size then true
  else
    let first := m.va / 128 - 1
    let data := match (s.missHart m).got.find? fun g => g.line == first with
      | some g => g.data
      | none => ((s.line? ⟨m.asid, s.gen m.asid, first⟩).map fun (l : OLine) => l.data).getD []
    m.size < instrLen (data.drop (128 - m.size))

/-- A page fault that a miss of a cell meets reaches the die's fault unit before the answer leaves (R358): as a trap's or a park's where its hart waits for
it still, as neither where it does not (LOG 42). The line that a fetch does not need is not reported (R137), and `pf` leaves no trace (R194). -/
def State.recordMiss (s : State) (m : Miss) (c : Cause) : State :=
  match m.agent with
  | .core _ => s
  | .cell n =>
    if c != .page || (m.kind == .fetch && !s.reaches m) then s
    else
      let kind := match m.kind with
        | .pieceIn => 3
        | .pieceOut => 3
        | k => k.need.kind
      s.recordFault n m.slot m.asid (m.va / 65536) kind m.kind.owns (s.awaited m && m.task.isNone) (s.awaited m && m.task.isSome)

/-- The access of a miss fails: `pf` is dropped, any other is answered. -/
def State.failMiss (s t : State) (at_ : Nat) (m : Miss) (c : Cause) : State :=
  if m.kind == .pf then s.dropMiss m else (t.recordMiss m c).answerMiss at_ m (m.failed c)

/-! ## The slice (R320, R363, R364, R366) -/

/-- The lookup has been made: a line that serves the miss answers it, and any other miss takes an entry of the miss table, where one is free, and asks
the page's agent, which may have to walk first. `pf` does not wait for an entry (R194). -/
def State.lookStep (s : State) (t : Nat) (m : Miss) : Option State :=
  let k := s.missKey m
  let allowed := (s.line? k).any fun l => l.perm.allows m.level m.kind.need
  if allowed && (s.cohLine k).serves m.die m.kind.owns then some (s.putMiss { m with phase := .ask })
  else if s.missFull m.die k then (if m.kind == .pf then some (s.dropMiss m) else none)
  else
    let w := if allowed || (m.asid = 0 && 2 ^ 54 ≤ m.va) || 2 ^ 55 ≤ m.va then 0 else s.walkTime m.asid (m.va / 65536)
    some (s.putMiss { m with phase := if w = 0 then .ask else .walk (t + w) })

/-- What a miss takes at a place that is no line: the bytes around its own. -/
def State.farGot (s : State) (m : Miss) (p : Place) : Got :=
  let a := m.va / 128 * 128
  match p with
  | .mem pa kept => s.gotOf m kept false (s.readPlace (.mem (pa / 128 * 128) kept) a 128)
  | _ => s.gotOf m false false (match s.readSites m.asid a 128 with
    | .ok bs => bs
    | _ => zeros 128, zeros 4)

/-- A miss whose line its die can serve is answered: a check's words become registered to its cell (R189, R359), a strong or acquiring load waits for a
registrant (R298). -/
def State.serveLine (s : State) (t : Nat) (m : Miss) (l : OLine) : Option State :=
  if m.kind.owns then
    let u := s.putCoh t ((s.cohLine l.key).dirtied m.die)
    let u := if m.words = 0 then u else u.register (match m.agent with
      | .cell n => some n
      | .core _ => none) l.key m.words
    some (u.answerMiss t m (u.gotOf m l.kept true (l.data, l.sb)))
  else
    (if m.kind.publishes then s.forcePublish m.agent m.asid m.va m.size else some s).map fun u =>
      let l := (u.line? l.key).getD l
      u.answerMiss t m (u.gotOf m l.kept true (l.data, l.sb))

/-- A miss that waits for its page's agent or for its line (R346, R363, R364): it goes on, or goes on waiting. -/
def State.askStep (s : State) (t : Nat) (m : Miss) : Option State :=
  match s.missPlace m with
  | (.wait, _) => none
  | (.ok (.line l), u) => if (u.cohLine l.key).serves m.die m.kind.owns then u.serveLine t m l else u.wants t m.die l.key m.kind.owns
  | (.ok (.mem pa _), u) => some (if m.kind == .pf then s.dropMiss m
      else u.putMiss { m with phase := .far (t + s.crossing m.die (dieOfPa pa) + s.memoryTime (dieOfPa pa)) })
  | (.ok p, u) => some (if m.kind == .pf then s.dropMiss m else u.answerMiss t m (u.farGot m p))
  | (x, u) => x.cause.map fun c => s.failMiss u t m c

/-- A read, or a check, beyond the dies' lines is done (R107). -/
def State.farStep (s : State) (t : Nat) (m : Miss) : Option State :=
  match s.missPlace m with
  | (.wait, _) => none
  | (.ok (.line _), _) => some (s.putMiss { m with phase := .ask })
  | (.ok p, u) => some (u.answerMiss t m (u.farGot m p))
  | (x, u) => x.cause.map fun c => s.failMiss u t m c

/-! ## At the cell -/

/-- The hart that made a miss, changed. -/
def State.setMissHart (s : State) (m : Miss) (h : Hart) : State :=
  match m.agent with
  | .cell n => s.setHartAt n m.slot h
  | .core n => { s with cores := assocSet n h s.cores }

/-- An answer that the hart waits for. -/
def Hart.gets (h : Hart) (m : Miss) (r : Got) (ready : Nat) : Hart :=
  { h with asks := h.asks.filter (· != m.id), got := h.got ++ [r], ready := max h.ready ready }

/-- A write check all of whose lines have been answered has passed, or failed at the first piece whose line has (R186, R189). -/
def Hart.checked (h : Hart) : Hart :=
  match h.check with
  | .sent ps => if h.asks.isEmpty then { h with check := match h.firstFault ps with
      | some f => .failed f.1 f.2
      | none => .passed } else h
  | _ => h

/-- A fetch all of whose lines have come: the hart has the instruction's bytes, or the failure of its lowest failing part, which it takes in its slot
(R137, R138). -/
def Hart.fetched (h : Hart) : Hart :=
  let pc := h.pc.toNat
  let next := (pc / 128 + 1) * 128
  let ends (bs : List Byte) (c : WriteCheck) : Hart := { h with woken := true, buf := bs, check := c }
  if h.st != .wait .fetch || !h.asks.isEmpty then h
  else match h.answer pc with
    | none => h
    | some g => match g.fault with
      | some c => ends [] (.failed c pc)
      | none =>
        let bs := g.data.drop (pc % 128)
        if instrLen bs ≤ bs.length then ends (bs.take (instrLen bs)) .passed
        else match h.answer next with
          | none => h
          | some e => match e.fault with
            | some c => ends [] (.failed c next)
            | none => ends ((bs ++ e.data).take (instrLen bs)) .passed

/-- The first cycle of a miss's hart in which its slot finds what has come at an instant, some cycles after it. -/
def State.readyAt (s : State) (m : Miss) (t k : Nat) : Nat :=
  match m.agent with
  | .cell n => (s.cellAt n).cycleFrom t + k
  | .core _ => 0

/-- The answer reaches the hart, if it waits for it; the miss is over. -/
def State.handOver (s : State) (m : Miss) (r : Got) (ready : Nat) (f : Hart → Hart) : State :=
  let h := s.missHart m
  (if h.asks.contains m.id then s.setMissHart m (f (h.gets m r ready)) else s).dropMiss m

/-- The line of a load or of `pf` enters the cell's CACHE as it is now (R106, R194). -/
def State.fillFor (s : State) (m : Miss) (r : Got) : State :=
  match m.agent, s.line? (s.missKey m) with
  | .cell n, some l => if r.held && r.fault.isNone then s.fillCache n l else s
  | _, _ => s

/-- A fetch's line comes: it enters CODE as it is now, once no store of the cell's harts to it is held (R137, R139); one that has left the dies meanwhile
is looked up again, and one that no cell may keep runs as it was read (R107). -/
def State.fetchCome (s : State) (m : Miss) (t : Nat) (r : Got) : Option State :=
  match m.agent with
  | .core _ => some (s.handOver m r 0 Hart.fetched)
  | .cell n =>
    let c := s.cellAt n
    let ready := s.readyAt m t 3
    if r.fault.isSome || !r.held then some (s.handOver m r ready Hart.fetched)
    else if c.storesCode (m.va / 128) then none
    else match s.line? (s.missKey m) with
      | none => some (s.putMiss { m with phase := .look s.net.at_ })
      | some l =>
        let x : CLine := { key := l.key, data := l.data, sb := l.sb, perm := l.perm, kept := l.kept, valid := BitVec.allOnes 16, regs := 0 }
        let s := s.putCell (c.addCode (Config.choice (s.tbase + l.key.line)) ((c.hart m.slot).got.map (·.line)) x)
        some (s.handOver m { r with data := l.data, sb := l.sb } ready Hart.fetched)

/-- A write check of a REPLAY attempt is answered: it passes, or is left to end the attempt in the hart's next slot (R190). -/
def State.replayCome (s : State) (m : Miss) (r : Got) : State :=
  let h := s.missHart m
  let s := match h.task with
    | some t => if s.awaited m then
        s.setMissHart m { h with task := some { t with checks := t.checks.filter (· != m.va / 128) },
                                 engErr := h.engErr ++ (r.fault.map fun c => (c, m.va)).toList } else s
    | none => s
  s.dropMiss m

/-- An answer has come to its cell (R106, R189, R190, R194, R243, R320): a load's or an atomic's registers can be written two cycles later, and a check's
hart goes on in its next slot. The answers of a copy command wait for each other. -/
def State.comeStep (s : State) (m : Miss) (t : Nat) (r : Got) : Option State :=
  let pending := match m.agent with
    | .cell n => (s.cellAt n).pushes.any fun p => match p.state with
      | .asked ids => ids.contains m.id
      | _ => false
    | .core _ => false
  match m.kind with
  | .load wide => some ((if wide then s else s.fillFor m r).handOver m r (s.readyAt m t 3) id)
  | .amo _ => some (s.handOver m r (s.readyAt m t 3) id)
  | .check => some (s.handOver m r (s.readyAt m t 1) Hart.checked)
  | .replay => some (s.replayCome m r)
  | .fetch => s.fetchCome m t r
  | .pf => some ((s.fillFor m r).dropMiss m)
  | _ => if pending then none else some (s.dropMiss m)

/-! ## One step of a miss -/

/-- A miss goes on at an instant, where it can. -/
def State.missAct (s : State) (t : Nat) (m : Miss) : Option State :=
  match m.phase with
  | .look u => if u ≤ t then s.lookStep t m else none
  | .walk u => if u ≤ t then some (s.putMiss { m with phase := .ask }) else none
  | .far u => if u ≤ t then s.farStep t m else none
  | .ask => s.askStep t m
  | .come u r => s.comeStep m u r
  | _ => none

/-- The next miss that goes on at the network's instant. -/
def State.missStep (s : State) : Option State := s.mem.misses.findSome? (s.missAct s.net.at_)

/-- Instants at which misses go on of themselves. -/
def State.missTimes (s : State) : List Nat :=
  s.mem.misses.filterMap fun m => match m.phase with
    | .look u => some u
    | .walk u => some u
    | .far u => some u
    | _ => none

/-! ## Their events -/

/-- The misses of a hart of a cell that a condition picks go on now, the first that can. -/
def State.hartMisses (s : State) (c : Nat) (k : Slot) (p : Miss → Bool) : State :=
  ((s.mem.misses.filter fun m => m.agent == .cell c && m.slot == k && p m).findSome? (s.missAct s.instant)).getD s

/-- An answer of some kind of miss has come. -/
def Miss.hasCome (m : Miss) (k : MissKind) : Bool :=
  m.kind == k && (match m.phase with
    | .come _ _ => true
    | _ => false)

/-- WRITE_CHECK: the answer to a store's write check reaches its hart (R189). -/
def execWriteCheck (c : Nat) (k : Slot) (s : State) : Out := .next (s.hartMisses c k fun m => m.hasCome .check)

/-- REPLAY_CHECK_FAULT: the answer to a write check of a REPLAY attempt reaches its hart (R190). -/
def execReplayCheckFault (c : Nat) (k : Slot) (s : State) : Out := .next (s.hartMisses c k fun m => m.hasCome .replay)

/-- CODE_LINE_FILL: a line that a fetch waits for comes (R137). -/
def execCodeLineFill (c : Nat) (k : Slot) (s : State) : Out := .next (s.hartMisses c k fun m => m.hasCome .fetch)

/-- HELD_RETRY: a miss of hart `k` of cell `c` that waits at its page's agent, or for its line, is tried again (R346). -/
def execHeldRetry (c : Nat) (k : Slot) (s : State) : Out := .next (s.hartMisses c k fun m => m.phase == .ask)

end Sys2Proof.Machine
end

