-- ==== Sys2Proof/Machine/Vector.lean ====
section
/-! DEFINITION. The vector instructions: majors 0x20 to 0x27 (R202 to R223). -/

namespace Sys2Proof.Machine

/-! ## Elements (R140, R202) -/

/-- `n` elements of `w` bits, the lowest first. -/
def elemsOf (w : Nat) : Nat → Nat → List Nat
  | 0, _ => []
  | n + 1, x => x % 2 ^ w :: elemsOf w n (x / 2 ^ w)

/-- The number whose elements of `w` bits these are, each taken modulo 2^w. -/
def packElems (w : Nat) : List Nat → Nat
  | [] => 0
  | e :: es => e % 2 ^ w + 2 ^ w * packElems w es

/-- The elements of v slot `i`. -/
def Hart.elems (h : Hart) (w : Nat) (i : Reg) : List Nat := elemsOf w (512 / w) (h.V i).toNat

/-- Writes the elements of v slot `i`; its sideband bytes are written apart. -/
def Hart.setElems (h : Hart) (w : Nat) (i : Reg) (es : List Nat) : Hart := h.setV i (BitVec.ofNat 512 (packElems w es))

/-- The value of `w` bits read with its sign. -/
def sInt (w x : Nat) : Int := if 2 ^ (w - 1) ≤ x then (x : Int) - 2 ^ w else x

/-- An integer modulo 2^w. -/
def uNat (w : Nat) (x : Int) : Nat := (x % 2 ^ w).toNat

/-- The sideband of v `d` copied from v `a` as `h0` holds it (R203). -/
def Hart.copySb (h h0 : Hart) (d a : Reg) : Hart := (h.setSb d 0 (h0.sb a 0)).setSb d 1 (h0.sb a 1)

/-- The sideband of v `d` made zero (R203). -/
def Hart.zeroSb (h : Hart) (d : Reg) : Hart := (h.setSb d 0 0).setSb d 1 0

/-- A mask: bit `e` is the e-th truth value (R208). -/
def maskOf : List Bool → Nat
  | [] => 0
  | b :: bs => (if b then 1 else 0) + 2 * maskOf bs

/-- Element `i` of a list, 0 past its end. -/
def nth (l : List Nat) (i : Nat) : Nat := l.getD i 0

/-! ## Major 0x20 -/

/-- An element-wise operation on A, B and the old destination (R206, R207). -/
def vec2 (w : EW) (f : Nat → Nat → Nat → Nat) (d a b : Reg) (s : State) : Out :=
  s.withRegs [] [d, a, b] <|
    s.done fun h =>
      (h.setElems w.bits d ((((h.elems w.bits a).zip (h.elems w.bits b)).zip (h.elems w.bits d)).map
        fun p => f p.1.1 p.1.2 p.2)).copySb h d a

/-- `vadd` (R207). -/
def execVadd (w : EW) (d a b : Reg) (s : State) : Out := vec2 w (fun x y _ => x + y) d a b s

/-- `vsub` (R207). -/
def execVsub (w : EW) (d a b : Reg) (s : State) : Out := vec2 w (fun x y _ => x + 2 ^ w.bits - y) d a b s

/-- `vmul` (R207). -/
def execVmul (w : EW) (d a b : Reg) (s : State) : Out := vec2 w (fun x y _ => x * y) d a b s

/-- `vmac` (R207). -/
def execVmac (w : EW) (d a b : Reg) (s : State) : Out := vec2 w (fun x y c => c + x * y) d a b s

/-- `vmin` (R207). -/
def execVmin (w : EW) (d a b : Reg) (s : State) : Out := vec2 w (fun x y _ => if sInt w.bits x ≤ sInt w.bits y then x else y) d a b s

/-- `vmax` (R207). -/
def execVmax (w : EW) (d a b : Reg) (s : State) : Out := vec2 w (fun x y _ => if sInt w.bits x ≤ sInt w.bits y then y else x) d a b s

/-- `vand` (R207). -/
def execVand (w : EW) (d a b : Reg) (s : State) : Out := vec2 w (fun x y _ => x &&& y) d a b s

/-- `vor` (R207). -/
def execVor (w : EW) (d a b : Reg) (s : State) : Out := vec2 w (fun x y _ => x ||| y) d a b s

/-- `vxor` (R207). -/
def execVxor (w : EW) (d a b : Reg) (s : State) : Out := vec2 w (fun x y _ => x ^^^ y) d a b s

/-- `vshl` (R207). -/
def execVshl (w : EW) (d a b : Reg) (s : State) : Out := vec2 w (fun x y _ => x * 2 ^ (y % w.bits)) d a b s

/-- `vshr` (R207). -/
def execVshr (w : EW) (d a b : Reg) (s : State) : Out := vec2 w (fun x y _ => x / 2 ^ (y % w.bits)) d a b s

/-- `vsra` (R207). -/
def execVsra (w : EW) (d a b : Reg) (s : State) : Out := vec2 w (fun x y _ => uNat w.bits (sInt w.bits x / 2 ^ (y % w.bits))) d a b s

/-- `vmin`, unsigned (R207). -/
def execVminU (w : EW) (d a b : Reg) (s : State) : Out := vec2 w (fun x y _ => if x ≤ y then x else y) d a b s

/-- `vmax`, unsigned (R207). -/
def execVmaxU (w : EW) (d a b : Reg) (s : State) : Out := vec2 w (fun x y _ => if x ≤ y then y else x) d a b s

/-- `vabs` (R207): the most negative value gives itself. -/
def execVabs (w : EW) (d a : Reg) (s : State) : Out := vec2 w (fun x _ _ => (sInt w.bits x).natAbs) d a a s

/-- `vneg` (R207). -/
def execVneg (w : EW) (d a : Reg) (s : State) : Out := vec2 w (fun x _ _ => 2 ^ w.bits - x) d a a s

/-! ## Major 0x21 -/

/-- A compare writes a mask (R208). -/
def vecCompare (w : EW) (c : Nat → Nat → Bool) (d a b : Reg) (s : State) : Out :=
  s.withRegs [d] [a, b] <|
    s.done fun h =>
      h.setS d (BitVec.ofNat 64 (maskOf (((h.elems w.bits a).zip (h.elems w.bits b)).map fun p => c p.1 p.2)))

/-- `vcmp.eq` (R208). -/
def execVcmpEq (w : EW) (d a b : Reg) (s : State) : Out := vecCompare w (fun x y => x == y) d a b s

/-- `vcmp.ne` (R208). -/
def execVcmpNe (w : EW) (d a b : Reg) (s : State) : Out := vecCompare w (fun x y => x != y) d a b s

/-- `vcmp.lt` (R208). -/
def execVcmpLt (w : EW) (d a b : Reg) (s : State) : Out := vecCompare w (fun x y => sInt w.bits x < sInt w.bits y) d a b s

/-- `vcmp.le` (R208). -/
def execVcmpLe (w : EW) (d a b : Reg) (s : State) : Out := vecCompare w (fun x y => sInt w.bits x ≤ sInt w.bits y) d a b s

/-- `vcmp.lt`, unsigned (R208). -/
def execVcmpLtU (w : EW) (d a b : Reg) (s : State) : Out := vecCompare w (fun x y => x < y) d a b s

/-- `vcmp.le`, unsigned (R208). -/
def execVcmpLeU (w : EW) (d a b : Reg) (s : State) : Out := vecCompare w (fun x y => x ≤ y) d a b s

/-- `vsel` (R209). -/
def execVsel (w : EW) (d a b c : Reg) (s : State) : Out :=
  s.withRegs [c] [d, a, b] <|
    s.done fun h =>
      (h.setElems w.bits d ((((h.elems w.bits a).zip (h.elems w.bits b)).zip (List.range (512 / w.bits))).map
        fun p => if (h.S c).getLsbD p.2 then p.1.1 else p.1.2)).copySb h d a

/-- The low E bits of a mask (R210). -/
def maskBits (w : EW) (x : Nat) : Nat := x % 2 ^ (512 / w.bits)

/-- `mand` (R210). -/
def execMand (w : EW) (d a b : Reg) (s : State) : Out :=
  s.withRegs [d, a, b] [] (s.writeS d (BitVec.ofNat 64 (maskBits w (s.hart.S a &&& s.hart.S b).toNat)))

/-- `mor` (R210). -/
def execMor (w : EW) (d a b : Reg) (s : State) : Out :=
  s.withRegs [d, a, b] [] (s.writeS d (BitVec.ofNat 64 (maskBits w (s.hart.S a ||| s.hart.S b).toNat)))

/-- `mnot` (R210). -/
def execMnot (w : EW) (d a : Reg) (s : State) : Out :=
  s.withRegs [d, a] [] (s.writeS d (BitVec.ofNat 64 (maskBits w (~~~ s.hart.S a).toNat)))

/-- `mpopc` (R210). -/
def execMpopc (w : EW) (d a : Reg) (s : State) : Out :=
  s.withRegs [d, a] [] (s.writeS d (BitVec.ofNat 64 (popN (512 / w.bits) (s.hart.S a).toNat)))

/-! ## Major 0x22 -/

/-- An arrangement of two v slots (R211): element `e` from the elements of A and B. -/
def arrange (w : EW) (f : List Nat → List Nat → Nat → Nat) (d a b : Reg) (s : State) : Out :=
  s.withRegs [] [d, a, b] <|
    s.done fun h =>
      (h.setElems w.bits d ((List.range (512 / w.bits)).map (f (h.elems w.bits a) (h.elems w.bits b)))).copySb h d a

/-- `vperm` (R211). -/
def execVperm (w : EW) (d a b : Reg) (s : State) : Out :=
  arrange w (fun A B e => nth A (nth B e % (512 / w.bits))) d a b s

/-- `vbcast` (R211): the sideband becomes zero (R203). -/
def execVbcast (w : EW) (d a : Reg) (s : State) : Out :=
  s.withRegs [a] [d] <|
    s.done fun h => (h.setElems w.bits d (List.replicate (512 / w.bits) (h.S a).toNat)).zeroSb d

/-- `vextr` (R211). -/
def execVextr (w : EW) (d a b : Reg) (s : State) : Out :=
  s.withRegs [d, b] [a] <|
    s.done fun h => h.setS d (BitVec.ofNat 64 (nth (h.elems w.bits a) ((h.S b).toNat % (512 / w.bits))))

/-- `vins` (R211): the sideband stays (R203). -/
def execVins (w : EW) (d a b : Reg) (s : State) : Out :=
  s.withRegs [a, b] [d] <|
    s.done fun h => h.setElems w.bits d ((h.elems w.bits d).set ((h.S b).toNat % (512 / w.bits)) (h.S a).toNat)

/-- A slide by a scalar count (R211). -/
def slide (w : EW) (f : List Nat → Nat → Nat → Nat) (d a b : Reg) (s : State) : Out :=
  s.withRegs [b] [d, a] <|
    s.done fun h =>
      (h.setElems w.bits d ((List.range (512 / w.bits)).map (f (h.elems w.bits a) (h.S b).toNat))).copySb h d a

/-- `vslide.up` (R211). -/
def execVslideUp (w : EW) (d a b : Reg) (s : State) : Out :=
  slide w (fun A y e => if y ≤ e then nth A (e - y) else 0) d a b s

/-- `vslide.dn` (R211). -/
def execVslideDn (w : EW) (d a b : Reg) (s : State) : Out :=
  slide w (fun A y e => if e + y < 512 / w.bits then nth A (e + y) else 0) d a b s

/-- `vzip.lo` (R211). -/
def execVzipLo (w : EW) (d a b : Reg) (s : State) : Out :=
  arrange w (fun A B e => if e % 2 = 0 then nth A (e / 2) else nth B (e / 2)) d a b s

/-- `vzip.hi` (R211). -/
def execVzipHi (w : EW) (d a b : Reg) (s : State) : Out :=
  let half := 512 / w.bits / 2
  arrange w (fun A B e => if e % 2 = 0 then nth A (half + e / 2) else nth B (half + e / 2)) d a b s

/-- `vunzip.ev` (R211). -/
def execVunzipEv (w : EW) (d a b : Reg) (s : State) : Out :=
  let half := 512 / w.bits / 2
  arrange w (fun A B e => if e < half then nth A (2 * e) else nth B (2 * (e - half))) d a b s

/-- `vunzip.od` (R211). -/
def execVunzipOd (w : EW) (d a b : Reg) (s : State) : Out :=
  let half := 512 / w.bits / 2
  arrange w (fun A B e => if e < half then nth A (2 * e + 1) else nth B (2 * (e - half) + 1)) d a b s

/-! ## Reductions (R212) -/

/-- One level of the tree: neighbours combined in ascending order, with what each combine does to the hart. -/
def treeLevel (f : Nat → Nat → Hart → Nat × Hart) : List Nat → Hart → List Nat × Hart
  | x :: y :: r, h =>
    let p := f x y h
    let q := treeLevel f r p.2
    (p.1 :: q.1, q.2)
  | r, h => (r, h)

/-- The tree of R212, level by level. -/
def tree (f : Nat → Nat → Hart → Nat × Hart) : Nat → List Nat → Hart → Nat × Hart
  | 0, l, h => (nth l 0, h)
  | n + 1, l, h => let p := treeLevel f l h; tree f n p.1 p.2

/-- An integer reduction (R213): a combine without effect on the hart, and the widening of its result. -/
def vecReduce (w : EW) (f : Nat → Nat → Nat) (pre : Nat → Nat) (d a : Reg) (s : State) : Out :=
  s.withRegs [d] [a] <|
    s.done fun h =>
      h.setS d (BitVec.ofNat 64 (tree (fun x y h => (f x y, h)) 6 ((h.elems w.bits a).map pre) h).1)

/-- The element sign-extended to 64 bits. -/
def sext64 (w : EW) (x : Nat) : Nat := uNat 64 (sInt w.bits x)

/-- `vredsum` of integers (R213). -/
def execVredsum (w : EW) (d a : Reg) (s : State) : Out := vecReduce w (fun x y => x + y) (sext64 w) d a s

/-- `vredmax`, signed (R213). -/
def execVredmax (w : EW) (d a : Reg) (s : State) : Out :=
  vecReduce w (fun x y => if sInt 64 x ≤ sInt 64 y then y else x) (sext64 w) d a s

/-- `vredmin`, signed (R213). -/
def execVredmin (w : EW) (d a : Reg) (s : State) : Out :=
  vecReduce w (fun x y => if sInt 64 x ≤ sInt 64 y then x else y) (sext64 w) d a s

/-- `vredmax`, unsigned (R213). -/
def execVredmaxU (w : EW) (d a : Reg) (s : State) : Out := vecReduce w (fun x y => if x ≤ y then y else x) id d a s

/-- `vredmin`, unsigned (R213). -/
def execVredminU (w : EW) (d a : Reg) (s : State) : Out := vecReduce w (fun x y => if x ≤ y then x else y) id d a s

/-! ## Major 0x24 -/

/-- Runs a rounding computation over a list in ascending order; the hart gathers flags and draws (R148, R151). -/
def mapHartList {α β : Type} (f : α → Hart → β × Hart) : List α → Hart → List β × Hart
  | [], h => ([], h)
  | x :: xs, h =>
    let p := f x h
    let q := mapHartList f xs p.2
    (p.1 :: q.1, q.2)

/-- An element-wise floating operation on A, B and the old destination; the sideband becomes zero (R203, R215). -/
def vecFloat (f : FF) (op : Nat → Nat → Nat → Hart → Nat × Hart) (d a b : Reg) (s : State) : Out :=
  let w := (wideSpec f).bits
  s.withRegs [] [d, a, b] <|
    s.done fun h =>
      let r := mapHartList (fun (p : (Nat × Nat) × Nat) h => op p.1.1 p.1.2 p.2 h)
        (((h.elems w a).zip (h.elems w b)).zip (h.elems w d)) h
      (r.2.setElems w d r.1).zeroSb d

/-- `vfadd` (R215). -/
def execVfadd (f : FF) (rm : Rm) (sat : Bool) (d a b : Reg) (s : State) : Out :=
  vecFloat f (fun x y _ h => h.arith (addV rm) f rm sat x y) d a b s

/-- `vfsub` (R215). -/
def execVfsub (f : FF) (rm : Rm) (sat : Bool) (d a b : Reg) (s : State) : Out :=
  vecFloat f (fun x y _ h => h.arith (subV rm) f rm sat x y) d a b s

/-- `vfmul` (R215). -/
def execVfmul (f : FF) (rm : Rm) (sat : Bool) (d a b : Reg) (s : State) : Out :=
  vecFloat f (fun x y _ h => h.arith mulV f rm sat x y) d a b s

/-- `vfma` (R215): C is the old destination. -/
def execVfma (f : FF) (rm : Rm) (d a b : Reg) (s : State) : Out :=
  vecFloat f (fun x y c h => h.fused false false f rm x y c) d a b s

/-- `vfmax` (R215). -/
def execVfmax (f : FF) (d a b : Reg) (s : State) : Out := vecFloat f (fun x y _ h => h.extreme true f x y) d a b s

/-- `vfmin` (R215). -/
def execVfmin (f : FF) (d a b : Reg) (s : State) : Out := vecFloat f (fun x y _ h => h.extreme false f x y) d a b s

/-- `vfrcp` (R216). -/
def execVfrcp (f : FF) (rm : Rm) (sat : Bool) (d a : Reg) (s : State) : Out :=
  vecFloat f (fun x _ _ h => h.arith1 rcpV f rm sat x) d a a s

/-- `vfexp2` (R216). -/
def execVfexp2 (f : FF) (rm : Rm) (sat : Bool) (d a : Reg) (s : State) : Out :=
  vecFloat f (fun x _ _ h => h.arith1 exp2V f rm sat x) d a a s

/-- A floating reduction (R217). -/
def vecFloatReduce (f : FF) (op : Nat → Nat → Hart → Nat × Hart) (d a : Reg) (s : State) : Out :=
  s.withRegs [d] [a] <|
    s.done fun h =>
      let r := tree op 5 (h.elems (wideSpec f).bits a) h
      r.2.setS d (BitVec.ofNat 64 r.1)

/-- `vredsum` of floats (R217): every step rounds. -/
def execVfredsum (f : FF) (rm : Rm) (sat : Bool) (d a : Reg) (s : State) : Out :=
  vecFloatReduce f (fun x y h => h.arith (addV rm) f rm sat x y) d a s

/-- `vredmax` of floats (R217). -/
def execVfredmax (f : FF) (d a : Reg) (s : State) : Out := vecFloatReduce f (fun x y h => h.extreme true f x y) d a s

/-- `vredmin` of floats (R217). -/
def execVfredmin (f : FF) (d a : Reg) (s : State) : Out := vecFloatReduce f (fun x y h => h.extreme false f x y) d a s

/-- A floating compare writes a mask (R218). -/
def vecFloatCompare (f : FF) (c : FCond) (d a b : Reg) (s : State) : Out :=
  let w := (wideSpec f).bits
  s.withRegs [d] [a, b] <|
    s.done fun h =>
      let r := mapHartList (fun (p : Nat × Nat) h => h.compare c f p.1 p.2) ((h.elems w a).zip (h.elems w b)) h
      r.2.setS d (BitVec.ofNat 64 (maskOf r.1))

/-- `vcmp.eq` of floats (R218). -/
def execVfcmpEq (f : FF) (d a b : Reg) (s : State) : Out := vecFloatCompare f .eq d a b s

/-- `vcmp.lt` of floats (R218). -/
def execVfcmpLt (f : FF) (d a b : Reg) (s : State) : Out := vecFloatCompare f .lt d a b s

/-- `vcmp.le` of floats (R218). -/
def execVfcmpLe (f : FF) (d a b : Reg) (s : State) : Out := vecFloatCompare f .le d a b s

/-- `vcmp.un` of floats (R218). -/
def execVfcmpUn (f : FF) (d a b : Reg) (s : State) : Out := vecFloatCompare f .un d a b s

/-! ## Majors 0x25 to 0x27 -/

/-- `vcvt` (R219, R220): the elements touched depend on the two widths; the sideband becomes zero. -/
def execVcvt (td ts : Fmt) (rm : Rm) (sat : Bool) (d a : Reg) (part : BitVec 2) (s : State) : Out :=
  let ws := ts.bits
  let wd := td.bits
  let es := 512 / ws
  let ed := 512 / wd
  s.withRegs [] [d, a] <|
    s.done fun h =>
      let src := h.elems ws a
      let src := if ws < wd then (src.drop (part.toNat * ed)).take ed else src
      let r := mapHartList (fun x h => h.convert td rm sat (fmtValue ts x)) src h
      let old := h.elems wd d
      let new := if wd < ws then old.take (part.toNat * es) ++ r.1 ++ old.drop ((part.toNat + 1) * es) else r.1
      (r.2.setElems wd d new).zeroSb d

/-- The 32 source values of a group of `vquant` (R221): one slot of 16-bit elements, two of f32. -/
def Hart.group (h : Hart) (f : FF) (i : Reg) : List FVal :=
  let w := (wideSpec f).bits
  (if w = 32 then h.elems w i ++ h.elems w (i + 1) else h.elems w i).map (valueOf (wideSpec f))

/-- The slots a group names (R204). -/
def groupRegs (f : FF) (i : Reg) : List Reg := if (wideSpec f).bits = 32 then [i, i + 1] else [i]

/-- `vquant` (R221): one scale for each granule, chosen by R152, and 64 codes in element order; NV for a signalling NaN (R146). -/
def execVquant (tb : Fmt) (ts : FF) (rm : Rm) (sat : Bool) (d a b : Reg) (s : State) : Out :=
  s.withRegs [] (d :: groupRegs ts a ++ groupRegs ts b) <|
    s.done fun h =>
      let va := h.group ts a
      let vb := h.group ts b
      let ka := blockScale (specOf tb) va
      let kb := blockScale (specOf tb) vb
      let r := mapHartList (fun x h => h.convert tb rm sat x)
        (va.map (fun x => scaleV x (-ka)) ++ vb.map (fun x => scaleV x (-kb))) h
      (((r.2.setElems 8 d r.1).setSb d 0 (BitVec.ofInt 8 (ka + 127))).setSb d 1 (BitVec.ofInt 8 (kb + 127)))

/-- `vdeq` (R222): the exact product of a code's value and its granule's scale, rounded once. -/
def execVdeq (td : FF) (tb : Fmt) (d a : Reg) (part : BitVec 2) (s : State) : Out :=
  let wd := (wideSpec td).bits
  let ed := 512 / wd
  s.withRegs [] [d, a] <|
    s.done fun h =>
      let codes := ((h.elems 8 a).zip (List.range 64)).drop (part.toNat * ed) |>.take ed
      let r := mapHartList (fun (p : Nat × Nat) h0 =>
        h0.round (wideSpec td) .rne false (scaledValue (specOf tb) p.1 (h.sb a (p.2 / 32)))) codes h
      (r.2.setElems wd d r.1).zeroSb d

/-- `vsclg` (R223). -/
def execVsclg (d a : Reg) (s : State) : Out :=
  s.withRegs [d] [a] <|
    s.writeS d (BitVec.ofNat 64 ((s.hart.sb a 0).toNat + 256 * (s.hart.sb a 1).toNat))

/-- `vscls` (R223): the data stays. -/
def execVscls (d a : Reg) (s : State) : Out :=
  s.withRegs [a] [d] <|
    s.done fun h => (h.setSb d 0 ((h.S a).setWidth 8)).setSb d 1 (BitVec.ofNat 8 ((h.S a).toNat / 256))

end Sys2Proof.Machine
end

