-- ==== Sys2Proof/Machine/MemInstr.lean ====
section
/-! DEFINITION. Loads, stores, atomics, fences, full/empty words: majors 0x0E and 0x18 to 0x1F (R66, R71, R116, R117, R185 to R201, R298). -/

namespace Sys2Proof.Machine

/-! ## Checks of an address (R185, R186) -/

/-- Steps 1 and 2 of R186 on a global address. -/
def addrBad (a align : Nat) : Option (Cause × Nat) :=
  if a % align != 0 then some (.misaligned, a) else if 2 ^ 55 ≤ a then some (.access, a) else none

/-- The elements before the first whose step 1 or 2 fails, and that failure. -/
def splitBad (align : Nat) : List Nat → List Nat × Option (Cause × Nat)
  | [] => ([], none)
  | a :: as => match addrBad a align with
    | some b => ([], some b)
    | none => let r := splitBad align as; (a :: r.1, r.2)

/-- A failed check of a load of the issuing hart (R66, R186). -/
def State.loadFails (s : State) (c : Cause) (a : Nat) : Out :=
  match c with
  | .misaligned => s.trap .misaligned (BitVec.ofNat 64 a)
  | _ => s.failGlobal c a

/-! ## Global loads (R105, R106, R186 to R188, R193, R196) -/

/-- The directory number of the issuing hart's die: the Headstock's is 54 (R361, R390). -/
def State.myDie (s : State) : Nat :=
  match s.cur with
  | .cell n => dieOf n
  | .core _ => 54

/-- Where the issuing hart's access is performed. -/
def State.find (s : State) (n : Need) (a : Nat) : Answer Place × State := s.locate s.isCore s.asid s.hart.level n a

/-- The address names a device register through window B (R336, R337). -/
def deviceVa (a : Nat) : Bool := 2 ^ 54 ≤ a && a < 2 ^ 55 && a / 2 ^ 52 % 8 == 6 && deviceBase ≤ a % 2 ^ 52

/-- The issuing hart's access at an address is of a device register: it is made in the hart's own slot, and makes no miss (R337). -/
def State.deviceHere (s : State) (a : Nat) : Bool := s.isCore && s.hart.level == .f && deviceVa a

/-- Bytes of a register or of memory that the issuing hart reads in its own slot, with their sideband. -/
def State.takePart (s : State) (p : Place) (a n : Nat) : (List Byte × List Byte) × State :=
  match p with
  | .device pa => let r := s.devRead pa n; ((r.1, zeros ((n + 31) / 32)), r.2)
  | _ => match s.loadPlace s.asid p a n with
    | .ok x => (x, s)
    | _ => ((zeros n, zeros ((n + 31) / 32)), s)

/-- Every part in order: of a device register, or of what its miss has been answered with. -/
def State.takeParts (s : State) : List (Nat × Nat) → List (List Byte × List Byte) × State
  | [] => ([], s)
  | p :: ps =>
    let x := if s.deviceHere p.1 then s.takePart (.device (p.1 % 2 ^ 52)) p.1 p.2
      else (((s.hart.answer p.1).map fun g => g.slice p.1 p.2).getD (zeros p.2, zeros ((p.2 + 31) / 32)), s)
    let r := x.2.takeParts ps
    (x.1 :: r.1, r.2)

/-- Every part from the cell's CACHE, where it holds them all (R106). -/
def State.allHit (s : State) (ps : List (Nat × Nat)) : Option (List (List Byte × List Byte)) :=
  if ps.all fun p => (s.cacheHit .load p.1 p.2).isSome then
    some (ps.map fun p => let x := (s.cacheHit .load p.1 p.2).getD (false, [], []); s.hart.sees p.1 x.1 x.2)
  else none

/-- The lines of some parts that the issuing hart has no answer for yet, device registers left out: the first part in each. -/
def State.unanswered (s : State) (ps : List (Nat × Nat)) : List (Nat × Nat) :=
  lineHeads (ps.filter fun p => !s.deviceHere p.1 && (s.hart.answer p.1).isNone)

/-- The issuing hart asks for the lines of some parts that it has no answer for: those that CACHE serves are answered at once, the others are missed
(R106, R320). -/
def State.askLines (s : State) (sort : MsgKind) (kind : MissKind) (ps : List (Nat × Nat)) : State :=
  let new := s.unanswered ps
  let hit (p : Nat × Nat) : Option Got := if kind == .load false then s.cacheGot ps (p.1 / 128) else none
  (s.mapHart fun h => { h with got := h.got ++ new.filterMap hit }).askHere
    ((new.filter fun p => (hit p).isNone).map fun p => s.hartMiss sort kind p 0)

/-- A load of the issuing hart: served by CACHE in its slot, or waiting until all its lines are answered: in WAIT (R19), or, where it has several
elements, in RUN, issuing again (R186). `bad` is the first element whose step 1 or 2 fails. A wide strong load and an acquire do not stop at CACHE
(R196). -/
def State.loadGlobal (s : State) (i : Instr) (sort : MsgKind) (run wide : Bool) (ps : List (Nat × Nat)) (bad : Option (Cause × Nat))
    (k : List (List Byte × List Byte) → State → Out) : Out :=
  let ends (r : List (List Byte × List Byte)) (s : State) : Out := match bad with
    | some (c, a) => s.loadFails c a
    | none => k r s
  let asked := !s.hart.asks.isEmpty || !s.hart.got.isEmpty
  let stays (s : State) : Out := if run then s.reissue else if s.hart.waits .data then .next s else s.waitOn .data i
  if ps.isEmpty then ends [] s
  else match (if wide || asked then none else s.allHit ps) with
    | some r => ends r s
    | none =>
      if (asked || s.hart.waits .data) && !s.answeredHere then stays s
      else if !(s.unanswered ps).isEmpty || (!run && !s.hart.waits .data) then stays (s.askLines sort (.load wide) ps)
      else match s.hart.firstFault ps with
        | some (c, a) => s.failGlobal c a
        | none => if bad.isSome then ends [] s else let r := s.takeParts ps; ends r.1 r.2

/-- A loaded scalar, extended (R188, R195). -/
def extended (signed : Bool) (n : Nat) (bs : List Byte) : Word :=
  let v : Word := BitVec.ofNat 64 (leNat bs)
  if signed then signExt (8 * n) v else zeroExt (8 * n) v

def MW.signed : MW → Bool
  | .i8 => true
  | .i16 => true
  | .i32 => true
  | _ => false

def SW.signed : SW → Bool
  | .i32 => true
  | _ => false

/-- One part of `n` bytes, or none where step 1 or 2 fails. -/
def onePart (a n : Nat) (bad : Option (Cause × Nat)) : List (Nat × Nat) := if bad.isSome then [] else [(a, n)]

/-- A scalar load. -/
def State.loadScalar (s : State) (i : Instr) (wide : Bool) (a : Word) (n : Nat) (signed : Bool) (d : Reg) (after : State → State) : Out :=
  let bad := addrBad a.toNat n
  s.loadGlobal i .miss false wide (onePart a.toNat n bad) bad fun r s =>
    (after s).writeS d (extended signed n ((r.getD 0 ([], [])).1))

/-- `ld` (R188). -/
def execLd (w : MW) (d : Reg) (m : MemOp) (s : State) : Out :=
  s.withRegs (d :: regsOf m) [] (s.loadScalar (.ld w d m) false (s.hart.address m) (Sys2Proof.MW.bytes w) (MW.signed w) d id)

/-- `ld.str` (R195, R196). -/
def execLdStr (w : SW) (sc : Scope) (d a : Reg) (off : Word) (s : State) : Out :=
  s.withRegs [d, a] [] (s.loadScalar (.ldStr w sc d a off) (sc != .cell) (s.hart.offset a off) (Sys2Proof.SW.bytes w) (SW.signed w) d id)

/-- The drop of an acquire (R106, R196). -/
def State.acquireAt (s : State) (sc : Scope) : State := if sc == .cell then s else s.acquire

/-- `ld.acq` (R195, R196). -/
def execLdAcq (w : SW) (sc : Scope) (d a : Reg) (off : Word) (s : State) : Out :=
  s.withRegs [d, a] [] (s.loadScalar (.ldAcq w sc d a off) (sc != .cell) (s.hart.offset a off) (Sys2Proof.SW.bytes w) (SW.signed w) d
    fun s => s.acquireAt sc)

/-- `ldv` (R193). -/
def execLdv (d a : Reg) (off : Word) (s : State) : Out :=
  s.withRegs [a] [d] <|
    let x := (s.hart.offset a off).toNat
    let bad := addrBad x 64
    s.loadGlobal (.ldv d a off) .request false false (onePart x 64 bad) bad fun r s =>
      let p := r.getD 0 ([], [])
      s.done fun h => h.setVS d (BitVec.ofNat 512 (leNat p.1)) (p.2.getD 0 0) (p.2.getD 1 0)

/-- A gather of elements into v d, whose sideband becomes zero (R193). -/
def State.loadElems (s : State) (i : Instr) (w : EW) (d : Reg) (addrs : List Nat) : Out :=
  let r := splitBad (w.bits / 8) addrs
  s.loadGlobal i .request true false (r.1.map fun a => (a, w.bits / 8)) r.2 fun xs s =>
    s.done fun h => h.setVS d (BitVec.ofNat 512 (packElems w.bits (xs.map fun x => leNat x.1))) 0 0

/-- Element addresses of `ldvs`: base and stride. -/
def strideAddrs (w : EW) (x y : Word) : List Nat := (List.range (512 / w.bits)).map fun e => (x + BitVec.ofNat 64 e * y).toNat

/-- Element addresses of `vgat` and `vsca`: base and signed indices. -/
def indexAddrs (w : EW) (x : Word) (es : List Nat) : List Nat :=
  es.map fun e => (x + BitVec.ofInt 64 (sInt w.bits e * (w.bits / 8 : Nat))).toNat

/-- `ldvs` (R193). -/
def execLdvs (w : EW) (d a b : Reg) (s : State) : Out :=
  s.withRegs [a, b] [d] (s.loadElems (.ldvs w d a b) w d (strideAddrs w (s.hart.S a) (s.hart.S b)))

/-- `vgat` (R193). -/
def execVgat (w : EW) (d a b : Reg) (s : State) : Out :=
  s.withRegs [a] [d, b] (s.loadElems (.vgat w d a b) w d (indexAddrs w (s.hart.S a) (s.hart.elems w.bits b)))

/-- `pf` (R194): a request that cannot be served is dropped without trace; a Headstock hart has no CACHE to fill (R390). -/
def execPf (a : Reg) (off : Word) (s : State) : Out :=
  s.withRegs [a] [] <|
    let x := (s.hart.offset a off).toNat
    if s.isCore || s.cell.roomFor 4 = 0 then s.finish
    else (s.sendHere [s.hartMiss .request .pf (x, 8) 0]).finish

/-! ## Global stores (R188, R189, R193, R195, R196) -/

/-- Stores of a Headstock hart at level F of which some reach device registers (R337). -/
def State.storeDevices (s : State) (rs : List StoreRec) (bad : Option (Cause × Nat)) : Out :=
  let ps := (rs.filter fun r => !deviceVa r.addr).map fun r => (r.addr, r.bytes.length)
  match s.firstBad 0 .f ps, bad with
  | some (c, a), _ => s.storeFails c a
  | none, some (c, a) => s.storeFails c a
  | none, none =>
    if s.anyParked 0 .f ps then s.reissue
    else match s.performAll s.party 0 (rs.filter fun r => !deviceVa r.addr) with
      | none => s.reissue
      | some t => ((rs.filter fun r => deviceVa r.addr).foldl (fun s r => s.devWrite (r.addr % 2 ^ 52) r.bytes) t).finish

/-- A global store of the issuing hart. -/
def State.store (s : State) (rs : List StoreRec) (rel : Bool) (bad : Option (Cause × Nat)) : Out :=
  if s.isCore && s.hart.level == .f && rs.any (fun r => deviceVa r.addr) then s.storeDevices rs bad else s.storeGlobal rs rel bad

/-- A scalar store of the low `n` bytes of a value. -/
def State.storeScalar (s : State) (a : Word) (n : Nat) (v : Word) (k : AccKind) (sc : Scope) : Out :=
  match addrBad a.toNat n with
  | some b => s.store [] false (some b)
  | none => s.store [⟨a.toNat, leBytes n v.toNat, [], k, sc, [], s.hart.level⟩] (k == .rel) none

/-- `st` (R188). -/
def execSt (w : MW) (d : Reg) (m : MemOp) (s : State) : Out :=
  s.withRegs (d :: regsOf m) [] (s.storeScalar (s.hart.address m) (Sys2Proof.MW.bytes w) (s.hart.S d) .weak .cell)

/-- `st.rel` (R195, R196). -/
def execStRel (w : SW) (sc : Scope) (d a : Reg) (off : Word) (s : State) : Out :=
  s.withRegs [d, a] [] (s.storeScalar (s.hart.offset a off) (Sys2Proof.SW.bytes w) (s.hart.S d) .rel sc)

/-- `st.str` (R195, R196). -/
def execStStr (w : SW) (sc : Scope) (d a : Reg) (off : Word) (s : State) : Out :=
  s.withRegs [d, a] [] (s.storeScalar (s.hart.offset a off) (Sys2Proof.SW.bytes w) (s.hart.S d) .strong sc)

/-- `stv` (R193). -/
def execStv (d a : Reg) (off : Word) (s : State) : Out :=
  s.withRegs [a] [d] <|
    let x := (s.hart.offset a off).toNat
    match addrBad x 64 with
    | some b => s.store [] false (some b)
    | none => s.store [⟨x, leBytes 64 (s.hart.V d).toNat, [s.hart.sb d 0, s.hart.sb d 1], .weak, .cell, [], s.hart.level⟩] false none

/-- `vsca` (R193): elements in ascending order, all or none. -/
def execVsca (w : EW) (d a b : Reg) (s : State) : Out :=
  s.withRegs [a] [d, b] <|
    let h := s.hart
    let r := splitBad (w.bits / 8) (indexAddrs w (h.S a) (h.elems w.bits b))
    let rs := r.1.zip (h.elems w.bits d) |>.map fun p => (⟨p.1, leBytes (w.bits / 8) p.2, [], .weak, .cell, [], h.level⟩ : StoreRec)
    s.store rs false r.2

/-! ## LOCAL (R191, R193) -/

/-- `ldl` (R191). -/
def execLdl (w : MW) (d : Reg) (m : MemOp) (s : State) : Out :=
  let n := Sys2Proof.MW.bytes w
  s.cellOnly <| s.withRegs (d :: regsOf m) [] <| s.withLocal (s.hart.address m) n n fun o =>
    s.writeS d (extended (MW.signed w) n (s.cell.lread o n))

/-- `stl` (R191). -/
def execStl (w : MW) (d : Reg) (m : MemOp) (s : State) : Out :=
  let n := Sys2Proof.MW.bytes w
  s.cellOnly <| s.withRegs (d :: regsOf m) [] <| s.withLocal (s.hart.address m) n n fun o =>
    (s.mapCell fun c => c.lwrite o (leBytes n (s.hart.S d).toNat)).finish

/-- `ldvl` (R193). -/
def execLdvl (d a : Reg) (off : Word) (s : State) : Out :=
  s.cellOnly <| s.withRegs [a] [d] <| s.withLocal (s.hart.offset a off) 64 64 fun o =>
    s.done fun h => h.setVS d (BitVec.ofNat 512 (leNat (s.cell.lread o 64))) (s.cell.lsb o) (s.cell.lsb (o + 32))

/-- `stvl` (R193). -/
def execStvl (d a : Reg) (off : Word) (s : State) : Out :=
  s.cellOnly <| s.withRegs [a] [d] <| s.withLocal (s.hart.offset a off) 64 64 fun o =>
    (s.mapCell fun c => c.lwriteSb o (leBytes 64 (s.hart.V d).toNat) [s.hart.sb d 0, s.hart.sb d 1]).finish

/-! ## Atomics (R197) -/

/-- The word of a line leaves the issuing cell's CACHE: its atomic was performed at the home slice. -/
def State.forget (s : State) (k : LineKey) (m : BitVec 16) : State :=
  if s.isCore then s
  else s.mapCell fun c => c.mapCache fun l => if l.key == k then { l with valid := l.valid &&& ~~~ m, regs := l.regs &&& ~~~ m } else l

/-- The new word stored where the old one was read; `none` while another transaction keeps the line. -/
def State.amoStore (s : State) (p : Place) (a : Nat) (v : Word) : Option State :=
  let bs := leBytes 8 v.toNat
  match p with
  | .line l => (s.storeFor (.engine s.myDie) p a bs []).map fun t => t.forget l.key (wordMask (a % 128) 8)
  | .device pa => some (s.devWrite pa bs)
  | _ => s.storeFor (.engine s.myDie) p a bs []

/-- `amo` (R197, R298): in a REPLAY task reason 0x23 comes before the checks of R186 (DESIGN CHOICE, LOG 46); once its miss has been answered, one step at
the word's place, when every earlier store and push is acknowledged and no transaction keeps the line; an acquire at its scope follows. -/
def amo (i : Instr) (f : Word → Word → Word → Word) (sc : Scope) (d a b : Reg) (s : State) : Out :=
  s.withRegs [d, a, b] [] <| s.notReplay <|
    let x := (s.hart.S a).toNat
    match addrBad x 8 with
    | some (c, v) => s.loadFails c v
    | none =>
      if !s.hart.waits .data then (s.askLines .miss (.amo (sc != .cell)) [(x, 8)]).waitOn .data i
      else if !s.answeredHere || !s.acked then .next s
      else if !(s.unanswered [(x, 8)]).isEmpty then .next (s.askLines .miss (.amo (sc != .cell)) [(x, 8)])
      else match s.hart.firstFault [(x, 8)] with
      | some (c, v) => s.failGlobal c v
      | none => match (if sc == .cell then some s else s.forcePublish s.cur s.asid x 8) with
        | none => .next s
        | some s => match s.find .amo x with
          | (.ok .pool, s) => s.failGlobal .access x
          | (.ok p, s) =>
            let r := s.takePart p x 8
            let old : Word := BitVec.ofNat 64 (leNat r.1.1)
            match r.2.amoStore p x (f old (s.hart.S b) (s.hart.S d)) with
            | some t => (t.acquireAt sc).writeS d old
            | none => .next s
          | (y, s) => s.answerFails .amo x y

/-- `amo.add` (R197). -/
def execAmoAdd (sc : Scope) (d a b : Reg) (s : State) : Out := amo (.amoAdd sc d a b) (fun o y _ => o + y) sc d a b s

/-- `amo.and` (R197). -/
def execAmoAnd (sc : Scope) (d a b : Reg) (s : State) : Out := amo (.amoAnd sc d a b) (fun o y _ => o &&& y) sc d a b s

/-- `amo.or` (R197). -/
def execAmoOr (sc : Scope) (d a b : Reg) (s : State) : Out := amo (.amoOr sc d a b) (fun o y _ => o ||| y) sc d a b s

/-- `amo.xor` (R197). -/
def execAmoXor (sc : Scope) (d a b : Reg) (s : State) : Out := amo (.amoXor sc d a b) (fun o y _ => o ^^^ y) sc d a b s

/-- `amo.min` (R197). -/
def execAmoMin (sc : Scope) (d a b : Reg) (s : State) : Out := amo (.amoMin sc d a b) (fun o y _ => minS o y) sc d a b s

/-- `amo.max` (R197). -/
def execAmoMax (sc : Scope) (d a b : Reg) (s : State) : Out := amo (.amoMax sc d a b) (fun o y _ => maxS o y) sc d a b s

/-- `amo.minn` (R197). -/
def execAmoMinn (sc : Scope) (d a b : Reg) (s : State) : Out := amo (.amoMinn sc d a b) (fun o y _ => minU o y) sc d a b s

/-- `amo.maxn` (R197). -/
def execAmoMaxn (sc : Scope) (d a b : Reg) (s : State) : Out := amo (.amoMaxn sc d a b) (fun o y _ => maxU o y) sc d a b s

/-- `amo.swp` (R197). -/
def execAmoSwp (sc : Scope) (d a b : Reg) (s : State) : Out := amo (.amoSwp sc d a b) (fun _ y _ => y) sc d a b s

/-- `amo.cas` (R197): the compare value is S(d). -/
def execAmoCas (sc : Scope) (d a b : Reg) (s : State) : Out := amo (.amoCas sc d a b) (fun o y c => if o = c then y else o) sc d a b s

/-! ## Fences (R196) -/

/-- `fence` (R196). -/
def execFence (sc : Scope) (s : State) : Out := if s.acked then (s.acquireAt sc).finish else s.reissue

/-- `fence.acq` (R196). -/
def execFenceAcq (sc : Scope) (s : State) : Out := (s.acquireAt sc).finish

/-- `fence.rel` (R196): later stores and pushes of the hart follow its pushes not yet acknowledged. -/
def execFenceRel (_sc : Scope) (s : State) : Out :=
  s.done fun h => { h with relAfter := (h.relAfter ++ s.outstanding).dedup }

/-! ## Full/empty words of the cell's own LOCAL (R71, R116, R198 to R200) -/

/-- `fetry` after a `.try`. -/
def Hart.setTry (h : Hart) (try_ ok : Bool) : Hart := if try_ then { h with fetry := flagWord ok } else h

/-- The wait limit of a full/empty wait has passed (R71). -/
def State.limitPast (s : State) : Bool :=
  match s.hart.since with
  | some t => t + s.hart.fwl.toNat ≤ s.tbase
  | none => false

/-- An access to the full/empty word at an offset: it needs a state, and then acts. -/
def fullEmpty (i : Instr) (ss : List Reg) (a : Reg) (off : Word) (try_ need : Bool) (k : Nat → State → Out) (s : State) : Out :=
  match s.hart.waits .fullEmpty, s.hart.check with
  | true, .failed c x => s.trap c (BitVec.ofNat 64 x)
  | waits, _ =>
    s.cellOnly <| s.withRegs ss [] <| s.withLocal (s.hart.offset a off) 8 8 fun o =>
      if s.cell.full o == need then k o (s.mapHart fun h => h.setTry try_ true)
      else if try_ then s.done fun h => h.setTry true false
      else if !waits then s.waitOn .fullEmpty i
      else if s.limitPast then s.trap .feLimit (BitVec.ofNat 64 o)
      else .next s

/-- `ldfe.k` (R199). -/
def execLdfeK (try_ : Bool) (d a : Reg) (off : Word) (s : State) : Out :=
  fullEmpty (.ldfeK try_ d a off) [d, a] a off try_ true (fun o s => s.writeS d (s.cell.lword o)) s

/-- `ldfe.e` (R199). -/
def execLdfeE (try_ : Bool) (d a : Reg) (off : Word) (s : State) : Out :=
  fullEmpty (.ldfeE try_ d a off) [d, a] a off try_ true
    (fun o s => (s.mapCell fun c => c.setFull o false).writeS d (s.cell.lword o)) s

/-- `stfe` (R199). -/
def execStfe (try_ : Bool) (d a : Reg) (off : Word) (s : State) : Out :=
  fullEmpty (.stfe try_ d a off) [d, a] a off try_ false
    (fun o s => (s.mapCell fun c => (c.lwrite o (leBytes 8 (s.hart.S d).toNat)).setFull o true).finish) s

/-- `feset` and `feclr`: the state bit alone (R116). -/
def setState (b : Bool) (a : Reg) (off : Word) (s : State) : Out :=
  s.cellOnly <| s.withRegs [a] [] <| s.withLocal (s.hart.offset a off) 8 8 fun o =>
    (s.mapCell fun c => c.setFull o b).finish

/-- `feset` (R199). -/
def execFeset (a : Reg) (off : Word) (s : State) : Out := setState true a off s

/-- `feclr` (R199). -/
def execFeclr (a : Reg) (off : Word) (s : State) : Out := setState false a off s

/-! ## `stfer` (R117, R201) -/

/-- The waiting `stfer` of a hart, as its data register and its reference. -/
def Hart.remoteStore (h : Hart) : Option (Reg × Reg) :=
  match h.st, h.winstr with
  | .wait .remote, some (.stfer _ d a) => some (d, a)
  | _, _ => none

/-- An attempt of hart `k` of cell `n` leaves for its target, the cell itself without the network; it follows what a `fence.rel` of the hart
waits for, and stores held (R117, R196, R386). -/
def State.sendRemote (s : State) (n : Nat) (k : Slot) : Option State :=
  let c := s.cellAt n
  let h := c.hart k
  h.remoteStore.bind fun p => c.serving.bind fun v =>
    if s.attempting n k || h.req == .sent || !h.held.isEmpty || h.relAfter.any (fun i => (c.outstanding k).contains i) then none
    else
      let r := peerRef (h.S p.2)
      let dest := s.teamCell v.launch v.team r.tx r.ty
      let far := match dest with
        | some m => m != n
        | none => false
      let m : RemoteFe :=
        { id := s.cmdNo, cell := n, slot := k, launch := v.launch, team := v.team, tx := r.tx, ty := r.ty, dest := dest.getD n, off := r.off,
          value := h.S p.1, travel := far, answer := if dest.isNone then some 2 else none }
      let s := { s with net := { s.net with remote := s.net.remote ++ [m] }, cmdNo := s.cmdNo + 1 }
      let s := if far then s.sendPacket (s.packetFrom m.id .attempt 8 (some (v.launch, v.team)) n [m.dest]) c.begins else s
      some (s.setHartAt n k { h with req := .sent })

/-- A waiting `stfer` that has not sent its first attempt sends it. -/
def State.sendFirst (s : State) (n : Nat) (k : Slot) : Option State :=
  if (s.hartAt n k).req == .idle then s.sendRemote n k else none

/-- An attempt at its target (R117): 1 accepted, 0 refused, 2 failed. -/
def Cell.tryRemote (c : Cell) (off : Nat) (v : Word) : Nat × Cell :=
  if c.localSize < off + 8 then (2, c)
  else if c.full off then (0, c)
  else (1, (c.lwrite off (leBytes 8 v.toNat)).setFull off true)

/-- The cell that serves an attempt's team at its coordinates now (R386). -/
def State.remoteTarget (s : State) (r : RemoteFe) : Option Nat :=
  (s.teamCell r.launch r.team r.tx r.ty).bind fun m =>
    match (s.cellAt m).serving with
    | some w => if w.launch == r.launch && w.team == r.team then some m else none
    | none => none

/-- The attempt in flight is replaced by what it has become. -/
def State.putRemote (s : State) (r : RemoteFe) : State :=
  { s with net := { s.net with remote := s.net.remote.map fun q => if q.id == r.id then r else q } }

/-- An answer goes back from the cell the attempt has come to. -/
def State.answerRemote (s : State) (r : RemoteFe) (v : Nat) : State :=
  let far := r.dest != r.cell
  let s := s.putRemote { r with travel := far, answer := some v }
  if far then s.sendPacket (s.packetFrom r.id .answer 0 none r.dest [r.cell]) (max s.net.at_ (s.cellAt r.dest).begins) else s

/-- The attempt of a hart that has come to a cell: it is performed there, in a cycle in which the matrix engine leaves the word's bank free (R229);
where another cell serves the team's coordinates now it goes on to
that one, and for a team not placed the graph engine answers: refused for a saved one, failed otherwise (R117, R386). -/
def State.attempt (s : State) (n : Nat) (k : Slot) : Option State :=
  (s.net.remote.find? fun r => r.cell == n && r.slot == k && r.answer.isNone && !r.travel).bind fun r =>
    match s.remoteTarget r with
    | some m =>
      if m = r.dest then
        if !(s.cellAt m).bankFree r.off then none
        else
          let x := (s.cellAt m).tryRemote r.off r.value
          some ((s.putCell x.2).answerRemote r x.1)
      else
        let t := (s.countDiverted (dieOf r.dest)).putRemote { r with dest := m, travel := true }
        some (t.sendPacket (t.packetFrom r.id .attempt 8 (some (r.launch, r.team)) r.dest [m]) t.net.at_)
    | none =>
      let saved := match s.team? r.launch r.team with
        | some t => !t.image.isEmpty
        | none => false
      some ((s.countDiverted (dieOf r.dest)).answerRemote r (if saved then 0 else 2))

/-- STFER_ATTEMPT (R117). -/
def execStferAttempt (c : Nat) (k : Slot) (s : State) : Out := .next ((s.attempt c k).getD s)

/-- The answer reaches the hart; the limit runs from the first refusal (R117). -/
def State.remoteAnswer (s : State) (n : Nat) (k : Slot) : Option State :=
  let mine (r : RemoteFe) : Bool := r.cell == n && r.slot == k && r.answer.isSome && !r.travel
  (s.net.remote.find? mine).bind fun r => r.answer.map fun v =>
    let s := { s with net := { s.net with remote := s.net.remote.eraseP mine } }
    let h := s.hartAt n k
    s.setHartAt n k { h with req := .answered (BitVec.ofNat 64 v), since := if v = 0 then some (h.since.getD s.tbase) else h.since }

/-- STFER_ANSWER (R117, R201). -/
def execStferAnswer (c : Nat) (k : Slot) (s : State) : Out := .next ((s.remoteAnswer c k).getD s)

/-- A refused `stfer` within its limit is sent again; one of a `.try` never is. -/
def State.resend (s : State) (n : Nat) (k : Slot) : Option State :=
  let h := s.hartAt n k
  let again := match h.winstr with
    | some (.stfer t _ _) => !t && h.req == .answered 0
    | _ => false
  let past := match h.since with
    | some t => t + h.fwl.toNat ≤ s.tbase
    | none => false
  if again && !past then s.sendRemote n k else none

/-- STFER_RESEND (R117). -/
def execStferResend (c : Nat) (k : Slot) (s : State) : Out := .next ((s.resend c k).getD s)

/-- `stfer` (R117, R201): its checks, in a REPLAY task after reason 0x23 (DESIGN CHOICE, LOG 46), and its first attempt at issue; in a waiting slot the answer decides, and a refusal is sent again. -/
def execStfer (try_ : Bool) (d a : Reg) (s : State) : Out :=
  let x := s.hart.S a
  if s.hart.waits .remote then
    match s.hart.req with
    | .answered v =>
      if v = 1 then s.done fun h => h.setTry try_ true
      else if v = 2 then s.trap .access x
      else if try_ then s.done fun h => h.setTry true false
      else if s.limitPast then s.trap .feLimit x
      else .next ((s.resend s.cell.no s.cell.slot).getD s)
    | _ => .next s
  else
    s.cellOnly <| s.withRegs [d, a] [] <| s.notReplay <|
      if (peerRef x).off % 8 != 0 then s.trap .misaligned x
      else if !s.peerLegal x then s.trap .access x
      else
        let t := s.mapHart fun h => { h with st := .wait .remote, winstr := some (.stfer try_ d a), woken := false, since := none }
        .next ((t.sendRemote t.cell.no t.cell.slot).getD t)

/-- The limit of a waiting `ldfe`, `stfe` or `stfer` acts in the issuing hart's slot (R71, R117): a word that has reached the needed state, and
an attempt in flight, come first. -/
def State.limitTrap (s : State) : Option State :=
  let h := s.hart
  let trap (x : Word) : Option State := nextOf (s.trap .feLimit x)
  if s.isCore || !s.limitPast then none
  else match h.winstr with
    | some (.ldfeK _ _ a off) => if h.waits .fullEmpty && !s.cell.full (h.offset a off).toNat then trap (h.offset a off) else none
    | some (.ldfeE _ _ a off) => if h.waits .fullEmpty && !s.cell.full (h.offset a off).toNat then trap (h.offset a off) else none
    | some (.stfe _ _ a off) => if h.waits .fullEmpty && s.cell.full (h.offset a off).toNat then trap (h.offset a off) else none
    | some (.stfer t _ a) => if h.waits .remote && !t && h.req == .answered 0 then trap (h.S a) else none
    | _ => none

/-- FWL_LIMIT: in the slot of hart `k` of the focused cell (R71). -/
def execFwlLimit (c : Nat) (k : Slot) (s : State) : Out :=
  .next (if !s.isCore && c == s.cell.no && k == s.cell.slot && s.active then (s.limitTrap).getD s else s)

end Sys2Proof.Machine
end

