-- ==== Sys2Proof/Machine/System.lean ====
section
/-! DEFINITION. System instructions: major 0x3F but state registers and the pool; walks, page-table stores, scrubs (R283 to R295, R341 to R349). -/

namespace Sys2Proof.Machine

/-! ## Traps and returns (R283 to R285, R294, R390) -/

/-- `trap` (R283). -/
def execTrap (k : BitVec 6) (s : State) : Out := if k = 0 then s.trap .breakpoint 0 else s.trap .service (k.setWidth 64)

/-- `eret` (R284, R390, R401). -/
def execEret (s : State) : Out :=
  if s.isCore && fieldOf (s.hart.block s.hart.level).stat 2 2 = 0 then s.trap .privilege s.firstWord
  else .next (s.noteReturn.mapHart Hart.eret)

/-- `wfi` (R285): a takeable interrupt is taken before it issues; one that is pending and enabled alone completes it. -/
def execWfi (s : State) : Out :=
  if s.hart.anyPending s.tbase then s.finish
  else if s.hart.waits .wfi then .next s
  else s.waitOn .wfi .wfi

/-- `halt` (R294). DESIGN CHOICE (LOG 46): whether it makes the end check of R170 the spec does not say; it makes none. -/
def execHalt (s : State) : Out := s.withLevel .f (.next (s.stopHart 0))

/-- `ident` (R295). -/
def execIdent (d : Reg) (sel : BitVec 6) (s : State) : Out :=
  s.withRegs [d] [] (match sel.toNat with
    | 0 => s.writeS d ident0
    | 1 => s.writeS d ident1
    | _ => s.trap .illegal s.firstWord)

/-! ## Cleaning (R289) -/

/-- A write-back that a condition picks waits for a held page. -/
def State.wbParked (s : State) (p : LineKey → Bool) : Bool := s.mem.wbPark.any fun w => p w.line.key

/-- A line that a condition picks is dirty and cannot be written back: nothing translates it, so no controller can acknowledge it. -/
def State.stillDirty (s : State) (p : LineKey → Bool) : Bool := s.mem.lines.any fun l => p l.key && l.dirty

/-- Every dirty copy of the lines a condition picks is written back, and their registered words are given up; copies stay valid (R289, R359). -/
def State.cleaned (s : State) (p : LineKey → Bool) : State :=
  let t := (s.cleanLines false p).returnAll p
  { t with coh := t.coh.map fun l => if p l.key && !(t.line? l.key).any (·.dirty) then l.cleaned else l }

/-- The controllers have acknowledged every write-back of a clean. -/
def State.acknowledged (s : State) (p : LineKey → Bool) : Bool := !s.wbParked p && !s.stillDirty p

/-- A clean of the lines a condition picks: the hart re-issues until the controllers have acknowledged. -/
def State.clean (s : State) (p : LineKey → Bool) : Out :=
  let t := s.cleaned p
  if s.hart.again && t.acknowledged p then t.finish else t.reissue

/-- Lines of the issuing hart's ASID and generation whose numbers a condition picks. -/
def State.ours (s : State) (p : Nat → Bool) (k : LineKey) : Bool := k.asid == s.asid && k.gen == s.gen s.asid && p k.line

/-- An address with bits [63:55] not zero is an access fault. -/
def State.inRange55 (s : State) (x : Word) (k : Out) : Out := if 2 ^ 55 ≤ x.toNat then s.failGlobal .access x.toNat else k

/-- `cln` (R289). -/
def execCln (a : Reg) (s : State) : Out :=
  s.withRegs [a] [] <| s.inRange55 (s.hart.S a) (s.clean (s.ours fun n => n == (s.hart.S a).toNat / 128))

/-- `inv` (R289): the line leaves the cell's CACHE, its words returned, and CODE. -/
def execInv (a : Reg) (s : State) : Out :=
  s.withRegs [a] [] <| s.inRange55 (s.hart.S a) <|
    if s.isCore then s.finish
    else
      let p := s.ours fun n => n == (s.hart.S a).toNat / 128
      (s.mapCell fun c => { c with cache := c.cache.filter fun l => !p l.key, code := c.code.filter fun l => !p l.key }).finish

/-- `clnp` (R289). -/
def execClnp (a : Reg) (s : State) : Out :=
  s.withLevel .s <| s.withRegs [a] [] <| s.notReplay <| s.inRange55 (s.hart.S a)
    (s.clean (s.ours fun n => n / 512 == (s.hart.S a).toNat / 65536))

/-! ## Page-table stores (R290, R342 to R347) -/

/-- `ptst`: a release at `.y` by re-issue; then the store, re-issued until it is performed. -/
def ptst (kind : Nat) (a b : Reg) (s : State) : Out :=
  s.withLevel .s <| s.withRegs [a, b] [] <| s.notReplay <|
    let x := s.hart.S a
    if x.toNat % 8 != 0 then s.trap .misaligned x
    else if !(2 ^ 54 ≤ x.toNat && x.toNat < 2 ^ 54 + 2 ^ 52) then s.failGlobal .access x.toNat
    else match s.hart.req with
      | .idle =>
        if !s.acked then s.reissue
        else match s.window s.isCore s.hart.level .store x.toNat with
          | (.ok (.line _), t) => ((t.sendPt kind s.ownerId (x.toNat % 2 ^ 52) (leBytes 8 (s.hart.S b).toNat)).mapHart fun h => { h with req := .sent }).reissue
          | (.ok _, t) => t.failGlobal .access x.toNat
          | (.wait, _) => s.reissue
          | (y, t) => t.answerFails .store x.toNat y
      | _ => if s.mem.ptStores.any fun p => p.owner == some s.ownerId then s.reissue else s.finish

/-- `ptst.grant` (R343). -/
def execPtstGrant (a b : Reg) (s : State) : Out := ptst 0 a b s

/-- `ptst.retract` (R344). -/
def execPtstRetract (a b : Reg) (s : State) : Out := ptst 1 a b s

/-- `ptst.hold` (R346). -/
def execPtstHold (a b : Reg) (s : State) : Out := ptst 2 a b s

/-- `ptst.move` (R347). -/
def execPtstMove (a b : Reg) (s : State) : Out := ptst 3 a b s

/-- TRANSLATION_WALK: the page's agent walks and fills an entry, or sets a pending-fault mark (R338, R341, R350). -/
def execTranslationWalk (asid page : Nat) (s : State) : Out := .next (s.askAgent asid page).2

/-- The round trip between a line's home and the farthest agent registered on it (R343). -/
def State.dropTime (s : State) (line : Nat) : Nat :=
  ((s.mem.agents.filter fun e => e.ptLines.contains line).map fun e =>
    timeUnits (s.transit (dieOfPa (line * 128)) e.die ++ s.transit e.die (dieOfPa (line * 128)))).foldl max 0

/-- No earlier store waits for the line of a page-table store, the agents registered there have had time to drop what they derive from it (R343), and the
drain of a range above PT1 has lasted as long as the slices' walk of their tags (R344). -/
def State.drained (s : State) (p : PtStore) : Bool :=
  (s.mem.ptStores.find? fun q => q.pa / 128 == p.pa / 128) == some p &&
  tickUnits * p.began + s.dropTime (p.pa / 128) ≤ s.instant &&
  (!(p.drain.any longRange) || p.began + s.scrubTicks ≤ s.tbase)

/-- AGENT_DROP: the agents registered on a page-table line drop what they derive from it, and the GRANT stores that wait for it, or the HOLD
and MOVE stores, are performed (R341, R343, R346, R347). -/
def execAgentDrop (ptLine : Nat) (s : State) : Out :=
  .next ((s.mem.ptStores.filter fun p => p.pa / 128 == ptLine && (s.ptPlan p).1 != 1 && s.drained p).foldl (fun t p => (t.performPt p).getD t) s)

/-- RETRACT_DRAIN: the oldest retract is drained and performed (R344). -/
def execRetractDrain (s : State) : Out :=
  .next (((s.mem.ptStores.find? fun p => (s.ptPlan p).1 == 1 && s.drained p).bind s.performPt).getD s)

/-- The oldest page-table store that can be performed is. -/
def State.ptDue (s : State) : Option State := s.mem.ptStores.findSome? fun p => if s.drained p then s.performPt p else none

/-- Parked write-backs of a page that is no longer held go to it (R347). -/
def State.parkDue (s : State) : Option State := if s.mem.wbPark.any fun w => (s.parkTarget w).isSome then some s.releaseParked else none

/-! ## Generations (R291, R349, R368) -/

/-- The bump: the generation, the latched seed and die set, and the scrub. -/
def State.bump (s : State) (asid : Nat) : State :=
  let n := (s.gen asid + 1) % 64
  let ws := match s.context asid with
    | .ok ws => ws
    | _ => []
  let l := (asid, ws.getD 2 0, BitVec.ofNat 54 (ws.getD 1 0).toNat)
  { s with mem := { s.mem with gens := assocSet asid n s.mem.gens, latched := l :: s.mem.latched.filter (fun p => p.1 != asid),
                               scrubs := s.mem.scrubs ++ [(asid, s.tbase + s.scrubTicks)] } }

/-- The context entry differs from what the dies latched. -/
def State.entryDiffers (s : State) (asid : Nat) : Bool :=
  match s.context asid with
  | .ok ws => (s.mem.latched.find? fun p => p.1 == asid).any fun p => p.2 != (ws.getD 2 0, BitVec.ofNat 54 (ws.getD 1 0).toNat)
  | _ => false

/-- A die holds a line that a condition picks in M or O, or a message of one is in flight, or an eviction of one has not ended (R368). -/
def State.dirtyDies (s : State) (p : LineKey → Bool) : Bool :=
  s.coh.any fun l => p l.key && (!l.msgs.isEmpty || !l.places.isEmpty || l.busy.isSome || l.dies.any fun y =>
    match y.st with
    | .m => true
    | .o => true
    | .miA => true
    | .oiA => true
    | .iiA => true
    | _ => false)

/-- `genb` (R291): it cleans as `clnp` would, and waits until that is acknowledged (R349); where the entry differs from what the dies have
latched, also until no die holds a line in M or O (R368); an entry on a stack in self-refresh is waited for (R419). -/
def execGenb (d a : Reg) (s : State) : Out :=
  s.withLevel .s <| s.withRegs [d, a] [] <| s.notReplay <|
    let x := s.hart.S a
    let asid := x.toNat % 4096
    if fieldOf x 12 52 != 0 || asid = 0 then s.writeS d 2
    else if !s.hart.again then s.reissue
    else if s.mem.scrubs.any fun p => p.1 == asid then s.writeS d 1
    else
      let mine (k : LineKey) : Bool := k.asid == asid
      let t := s.cleaned mine
      if !t.acknowledged mine || t.context asid == .wait || (t.entryDiffers asid && t.dirtyDies mine) then t.reissue
      else (t.bump asid).writeS d (BitVec.ofNat 64 (256 * ((s.gen asid + 1) % 64)))

/-- The scrub clears every tag of the ASID whose generation is not the present one. -/
def State.scrub (s : State) (asid : Nat) : State :=
  let g := s.gen asid
  let old (k : LineKey) : Bool := k.asid == asid && k.gen != g
  let s := (s.dropCopies old).mapCells fun c => { c with code := c.code.filter fun l => !old l.key }
  { s with mem := { s.mem with agents := s.mem.agents.filter fun e => !(e.asid == asid && e.gen != g),
                               scrubs := s.mem.scrubs.filter fun p => p.1 != asid } }

/-- GENERATION_SCRUB (R349). -/
def execGenerationScrub (asid : Nat) (s : State) : Out :=
  .next (if s.mem.scrubs.any fun p => p.1 == asid then s.scrub asid else s)

/-- The next scrub that has come to its end. -/
def State.scrubDue (s : State) : Option State :=
  (s.mem.scrubs.find? fun p => p.2 ≤ s.tbase).map fun p => s.scrub p.1

/-! ## Headstock and firmware (R292, R293) -/

/-- An instruction of Headstock harts: on a cell's hart it is the privilege trap at every level. -/
def State.headOnly (s : State) (l : Level) (k : Out) : Out :=
  if s.isCore then s.withLevel l k else s.trap .privilege s.firstWord

/-- `launch` (R292). -/
def execLaunch (d a : Reg) (s : State) : Out :=
  s.headOnly .s <| s.withRegs [d, a] [] <|
    let x := (s.hart.S a).toNat
    let bad (s : State) : Out := s.writeS d (answerWord 3 0)
    if !s.hart.again then s.reissue
    else if 2 ^ 55 ≤ x || x % 128 != 0 then bad s
    else match s.readWords 54 0 s.hart.level x 16 with
      | (.wait, _) => s.reissue
      | (.ok ws, t) => match t.serveLaunch ws with
        | none => s.reissue
        | some r => r.2.writeS d r.1
      | (_, t) => bad t

/-- The operand of `fsvc` keeps its limits (R293). -/
def fsvcOk (x y : Word) : Bool :=
  fieldOf x 0 2 != 3 && fieldOf x 2 6 == 0 && fieldOf x 8 6 < 54 && fieldOf x 14 2 == 0 && fieldOf x 32 32 == 0 &&
  (if fieldOf x 0 2 = 1 then y.toNat % 65536 == 0 else y == 0)

/-- `fsvc` (R293, R354): what it serves, and how many nodes it requeued. -/
def State.fsvc (s : State) (x y : Word) : Nat × State :=
  let die := fieldOf x 8 6
  match fieldOf x 0 2 with
  | 0 => (0, s.mapDone die (fieldOf x 16 4))
  | 1 => s.replayNodes fun n => n.die == die && n.asid == fieldOf x 20 12 && n.page == y.toNat / 65536
  | _ => s.replayNodes fun n => n.die == die

def execFsvc (d a b : Reg) (s : State) : Out :=
  s.headOnly .f <| s.withRegs [d, a, b] [] <|
    let x := s.hart.S a
    let y := s.hart.S b
    if !fsvcOk x y then s.trap .engine x
    else if !s.hart.again then s.reissue
    else (s.fsvc x y).2.writeS d (BitVec.ofNat 64 (s.fsvc x y).1)

end Sys2Proof.Machine
end

