-- ==== Sys2Proof/Machine/HartStep.lean ====
section
/-! DEFINITION. What a hart does in its slot besides its instruction: fetch, the end of a wait, interrupts (R18 to R22, R135 to R139, R282). -/

namespace Sys2Proof.Machine

/-! ## Fetch (R137 to R139) -/

/-- The instruction at `pc`, where CODE holds every line it lies in. -/
def Cell.fetch (c : Cell) (asid gen : Nat) (lv : Level) (pc : Nat) : Option (List Byte) :=
  (c.codeLine? asid gen lv (pc / 128)).bind fun l =>
    let bs := l.data.drop (pc % 128)
    if instrLen bs ≤ bs.length then some (bs.take (instrLen bs))
    else (c.codeLine? asid gen lv (pc / 128 + 1)).map fun m => (bs ++ m.data).take (instrLen bs)

/-- The parts of the instruction at `pc` by the lines that a fetch reads: that of pc, and the next where pc lies at byte 112 or above; for the next
one, as many bytes as the instruction has in the first (R137). -/
def Hart.fetchParts (h : Hart) : List (Nat × Nat) :=
  let pc := h.pc.toNat
  let n := 128 - pc % 128
  (pc, Nat.min 20 n) :: if pc % 128 < 112 then [] else [((pc / 128 + 1) * 128, n)]

/-- What CODE answers a fetch of a part with; a Headstock hart has no CODE (R390). -/
def State.codeGot (s : State) (a : Nat) : Option Got :=
  if s.isCore then none
  else (s.cell.codeLine? s.asid (s.gen s.asid) s.hart.level (a / 128)).map fun l =>
    { line := a / 128, data := l.data, sb := l.sb, held := true, fault := none }

/-- The hart waits for its instruction's lines (R19, R137). DESIGN CHOICE (LOG 42): a line that CODE holds as the fetch begins is run as it is then, also
where the other line is missing; R139 does not fix which of two values an instruction fetched without a drop runs. -/
def State.fetchWait (s : State) : State :=
  let ps := s.hart.fetchParts
  (s.mapHart fun h => { h.settle with st := .wait .fetch, since := none, got := ps.filterMap fun p => s.codeGot p.1 }).askHere
    ((ps.filter fun p => (s.codeGot p.1).isNone).map fun p => s.hartMiss .miss .fetch p 0)

/-- INSTRUCTION_FETCH: in the slot of hart `k` of the focused cell, an instruction that CODE does not hold whole makes its hart wait
(R137). -/
def execInstructionFetch (c : Nat) (k : Slot) (s : State) : Out :=
  let h := s.hart
  .next (if !s.isCore && c == s.cell.no && k == s.cell.slot && s.active && h.st == .run && !h.again && h.pc.toNat < 2 ^ 55 &&
      (s.cell.fetch s.asid (s.gen s.asid) h.level h.pc.toNat).isNone then s.fetchWait else s)

/-- A failed fetch, taken in the hart's slot (R138); a page fault was recorded when the fill was answered. -/
def State.fetchFails (s : State) (c : Cause) (addr : Nat) : Out := s.failGlobal c addr

/-- ILLEGAL_ENCODING: a fetched word sequence that the decoder rejects raises the illegal-instruction trap (R135, R136). -/
def execIllegalEncoding (w : IWord) (s : State) : Out := s.trap .illegal (w.setWidth 64)

/-! ## The end of a wait (R19) -/

/-- A waiting instruction in its hart's slot: it completes where its event has occurred, and goes on waiting where it has not. -/
def resume (i : Instr) (s : State) : Out :=
  match i with
  | .ld w d m => execLd w d m s
  | .ldv d a off => execLdv d a off s
  | .ldvs w d a b => execLdvs w d a b s
  | .vgat w d a b => execVgat w d a b s
  | .amoAdd sc d a b => execAmoAdd sc d a b s
  | .amoAnd sc d a b => execAmoAnd sc d a b s
  | .amoOr sc d a b => execAmoOr sc d a b s
  | .amoXor sc d a b => execAmoXor sc d a b s
  | .amoMin sc d a b => execAmoMin sc d a b s
  | .amoMax sc d a b => execAmoMax sc d a b s
  | .amoMinn sc d a b => execAmoMinn sc d a b s
  | .amoMaxn sc d a b => execAmoMaxn sc d a b s
  | .amoSwp sc d a b => execAmoSwp sc d a b s
  | .amoCas sc d a b => execAmoCas sc d a b s
  | .ldAcq w sc d a off => execLdAcq w sc d a off s
  | .ldStr w sc d a off => execLdStr w sc d a off s
  | .ldfeK t d a off => execLdfeK t d a off s
  | .ldfeE t d a off => execLdfeE t d a off s
  | .stfe t d a off => execStfe t d a off s
  | .stfer t d a => execStfer t d a s
  | .tcopy d a b => execTcopy d a b s
  | .tpack f d a b => execTpack f d a b s
  | .tunpk f d a b => execTunpk f d a b s
  | .mlds d a => execMlds d a s
  | .mswp => execMswp s
  | .mstr d a b => execMstr d a b s
  | .macz a => execMacz a s
  | .macrd d a b => execMacrd d a b s
  | .mfmt a => execMfmt a s
  | .bwait t d a b => execBwait t d a b s
  | .tbar t d a b => execTbar t d a b s
  | .fwaitb t d a b => execFwaitb t d a b s
  | .sget d a b => execSget d a b s
  | .rngf d a => execRngf d a s
  | .sleep a => execSleep a s
  | .wfi => execWfi s
  | _ => .next s

/-- The slot of a hart in WAIT for anything but its fetch. -/
def State.waitSlot (s : State) : Out :=
  match s.hart.winstr with
  | some i => resume i s
  | none => .next s

/-- WAIT_COMPLETE: the slot of hart `k` of the focused cell completes its waiting instruction (R19). -/
def execWaitComplete (c : Nat) (k : Slot) (s : State) : Out :=
  if !s.isCore && c == s.cell.no && k == s.cell.slot && s.active then
    match s.hart.st with
    | .wait .fetch => .next s
    | .wait _ => s.waitSlot
    | _ => .next s
  else .next s

/-! ## Interrupts (R21, R281, R282) -/

/-- The hart's state lets an interrupt be taken in its slot (R21): not while data are on their way for a load or an atomic, nor while an attempt
of its `stfer` is in flight (R201), nor while an instruction issues again until it completes (R49), but for `mwait` (R237), nor before a chosen
node, a handed site or the end of an abort, nor before a gang's start (R58). -/
def Hart.interruptible (h : Hart) (inFlight gang : Bool) : Bool :=
  !gang && (match h.st with
    | .absent => false
    | .run => !h.again || h.winstr == some .mwait
    | .wait .data => false
    | .wait .remote => !inFlight
    | .wait _ => true
    | .park spindle => !spindle && h.chosen.isNone && h.task.isNone)

/-- The cell's launch is a gang whose start has not come (R58). -/
def State.gangAt (s : State) (c : Cell) : Bool := ((s.launchOf c).map (·.gangWait)).getD false

/-- An interrupt that hart `k` of cell `n` is to take ends its wait at once; it is taken in the hart's next slot (R21, R24, R201). -/
def State.cutWait (s : State) (n : Nat) (k : Slot) : Option State :=
  let c := s.cellAt n
  let h := c.hart k
  match h.st with
  | .wait _ =>
    if h.takesPart && (h.takeable s.tbase).isSome && h.interruptible (s.attempting n k) (s.gangAt c) then some (s.leaveWait n k) else none
  | _ => none

/-- The issuing hart's state lets an interrupt be taken. -/
def State.interruptible (s : State) : Bool :=
  match s.cur with
  | .cell n => s.hart.interruptible (s.attempting n s.cell.slot) (s.gangAt s.cell)
  | .core _ => s.hart.interruptible false false

/-- The takeable interrupt of the issuing hart is taken, its wait abandoned: the trap pc is that of the waiting or the parking instruction, or of
the instruction the hart would have issued (R21, R250). -/
def State.takePending (s : State) : Option State :=
  if !s.active || !s.interruptible then none
  else (s.hart.takeable s.tbase).map fun p =>
    let t := match s.cur with
      | .cell n => s.leaveWait n s.cell.slot
      | .core _ => s.mapHart Hart.settle
    t.takeInterrupt p.2 p.1 s.hart.pc

/-- INTERRUPT_TAKEN: in the slot of hart `k` of the focused cell (R282). -/
def execInterruptTaken (c : Nat) (k : Slot) (s : State) : Out :=
  .next (if !s.isCore && c == s.cell.no && k == s.cell.slot then (s.takePending).getD s else s)

/-- TIMER_PENDING: the pending bit of a timer is no stored bit; it reads as 1 exactly while the time base has reached `tcmp`, so nothing else
of the machine changes when that comes about (R282, LOG 14). -/
def execTimerPending (_c : Nat) (_k : Slot) (s : State) : Out := .next s

end Sys2Proof.Machine
end

