-- ==== Sys2Proof/Machine/Integer.lean ====
section
/-! DEFINITION. The integer instructions: majors 0x01 to 0x0A (R153 to R163). -/

namespace Sys2Proof.Machine

/-- `add` (R155). -/
def execAdd (d a b : Reg) (s : State) : Out := alu (fun x y => x + y) d a b s

/-- `sub` (R155). -/
def execSub (d a b : Reg) (s : State) : Out := alu (fun x y => x - y) d a b s

/-- `mul` (R155). -/
def execMul (d a b : Reg) (s : State) : Out := alu (fun x y => x * y) d a b s

/-- `mulh` (R155). -/
def execMulh (d a b : Reg) (s : State) : Out := alu (mulHigh) d a b s

/-- `mulhn` (R155). -/
def execMulhn (d a b : Reg) (s : State) : Out := alu (mulHighU) d a b s

/-- `div` (R156). -/
def execDiv (d a b : Reg) (s : State) : Out := alu (divS) d a b s

/-- `divn` (R156). -/
def execDivn (d a b : Reg) (s : State) : Out := alu (divU) d a b s

/-- `rem` (R156). -/
def execRem (d a b : Reg) (s : State) : Out := alu (remS) d a b s

/-- `remn` (R156). -/
def execRemn (d a b : Reg) (s : State) : Out := alu (remU) d a b s

/-- `and` (R155). -/
def execAnd (d a b : Reg) (s : State) : Out := alu (fun x y => x &&& y) d a b s

/-- `or` (R155). -/
def execOr (d a b : Reg) (s : State) : Out := alu (fun x y => x ||| y) d a b s

/-- `xor` (R155). -/
def execXor (d a b : Reg) (s : State) : Out := alu (fun x y => x ^^^ y) d a b s

/-- `andn` (R155). -/
def execAndn (d a b : Reg) (s : State) : Out := alu (fun x y => x &&& ~~~y) d a b s

/-- `orn` (R155). -/
def execOrn (d a b : Reg) (s : State) : Out := alu (fun x y => x ||| ~~~y) d a b s

/-- `shl` (R155). -/
def execShl (d a b : Reg) (s : State) : Out := alu (fun x y => shiftL x (amount y)) d a b s

/-- `shr` (R155). -/
def execShr (d a b : Reg) (s : State) : Out := alu (fun x y => shiftR x (amount y)) d a b s

/-- `sra` (R155). -/
def execSra (d a b : Reg) (s : State) : Out := alu (fun x y => shiftA x (amount y)) d a b s

/-- `rol` (R155). -/
def execRol (d a b : Reg) (s : State) : Out := alu (fun x y => rotL x (amount y)) d a b s

/-- `ror` (R155). -/
def execRor (d a b : Reg) (s : State) : Out := alu (fun x y => rotR x (amount y)) d a b s

/-- `min` (R155). -/
def execMin (d a b : Reg) (s : State) : Out := alu (minS) d a b s

/-- `max` (R155). -/
def execMax (d a b : Reg) (s : State) : Out := alu (maxS) d a b s

/-- `minn` (R155). -/
def execMinn (d a b : Reg) (s : State) : Out := alu (minU) d a b s

/-- `maxn` (R155). -/
def execMaxn (d a b : Reg) (s : State) : Out := alu (maxU) d a b s

/-- `ceq` (R155). -/
def execCeq (d a b : Reg) (s : State) : Out := alu (fun x y => flagWord (x == y)) d a b s

/-- `cne` (R155). -/
def execCne (d a b : Reg) (s : State) : Out := alu (fun x y => flagWord (x != y)) d a b s

/-- `clt` (R155). -/
def execClt (d a b : Reg) (s : State) : Out := alu (fun x y => flagWord (x.toInt < y.toInt)) d a b s

/-- `cle` (R155). -/
def execCle (d a b : Reg) (s : State) : Out := alu (fun x y => flagWord (x.toInt ≤ y.toInt)) d a b s

/-- `cltn` (R155). -/
def execCltn (d a b : Reg) (s : State) : Out := alu (fun x y => flagWord (x.toNat < y.toNat)) d a b s

/-- `clen` (R155). -/
def execClen (d a b : Reg) (s : State) : Out := alu (fun x y => flagWord (x.toNat ≤ y.toNat)) d a b s

/-- `addi` (R157). -/
def execAddi (d a : Reg) (imm : Word) (s : State) : Out := unary (fun x => x + imm) d a s

/-- `li` (R157). -/
def execLi (d : Reg) (imm : Word) (s : State) : Out := s.withRegs [d] [] (s.writeS d imm)

/-- `abs` (R158). -/
def execAbs (d a : Reg) (s : State) : Out := unary absS d a s

/-- `clz` (R158). -/
def execClz (d a : Reg) (s : State) : Out := unary (fun x => BitVec.ofNat 64 (clzN 64 x.toNat)) d a s

/-- `ctz` (R158). -/
def execCtz (d a : Reg) (s : State) : Out := unary (fun x => BitVec.ofNat 64 (ctzN 64 x.toNat)) d a s

/-- `popc` (R158). -/
def execPopc (d a : Reg) (s : State) : Out := unary (fun x => BitVec.ofNat 64 (popN 64 x.toNat)) d a s

/-- `sext` (R159). -/
def execSext (w : EW) (d a : Reg) (s : State) : Out := unary (signExt w.bits) d a s

/-- `zext` (R159). -/
def execZext (w : EW) (d a : Reg) (s : State) : Out := unary (zeroExt w.bits) d a s

/-- `bext` (R160). -/
def execBext (d a : Reg) (pos len1 : BitVec 6) (s : State) : Out :=
  unary (fun x => bitField x pos.toNat (len1.toNat + 1)) d a s

/-- `bins` (R160): the old S(d) is read like a source. -/
def execBins (d a : Reg) (pos len1 : BitVec 6) (s : State) : Out :=
  unary (fun x => bitInsert (s.hart.S d) x pos.toNat (len1.toNat + 1)) d a s

/-- `sel` (R161). -/
def execSel (d a b c : Reg) (s : State) : Out :=
  s.withRegs [d, a, b, c] [] (s.writeS d (if s.hart.S c = 0 then s.hart.S b else s.hart.S a))

/-- `lea` (R162): no access, no check of the address. -/
def execLea (d : Reg) (m : MemOp) (s : State) : Out :=
  s.withRegs (d :: regsOf m) [] (s.writeS d (s.hart.address m))

/-- `shl` by an immediate (R163). -/
def execShlImm (d a : Reg) (k : BitVec 6) (s : State) : Out := unary (fun x => shiftL x k.toNat) d a s

/-- `shr` by an immediate (R163). -/
def execShrImm (d a : Reg) (k : BitVec 6) (s : State) : Out := unary (fun x => shiftR x k.toNat) d a s

/-- `sra` by an immediate (R163). -/
def execSraImm (d a : Reg) (k : BitVec 6) (s : State) : Out := unary (fun x => shiftA x k.toNat) d a s

/-- `rol` by an immediate (R163). -/
def execRolImm (d a : Reg) (k : BitVec 6) (s : State) : Out := unary (fun x => rotL x k.toNat) d a s

/-- `ror` by an immediate (R163). -/
def execRorImm (d a : Reg) (k : BitVec 6) (s : State) : Out := unary (fun x => rotR x k.toNat) d a s

end Sys2Proof.Machine
end

