-- ==== Sys2Proof/Machine/ScalarFloat.lean ====
section
/-! DEFINITION. The scalar floating instructions: majors 0x28 to 0x2B (R173 to R184). -/

namespace Sys2Proof.Machine

/-- Writes a computed code zero-extended, with the flags and the draw the computation made (R173). -/
def floatResult (d : Reg) (f : Hart → Nat × Hart) (s : State) : Out :=
  s.done fun h => let r := f h; r.2.setS d (BitVec.ofNat 64 r.1)

/-- A rounded two-operand operation (R176). -/
def float2 (op : Rm → FVal → FVal → FVal × Nat) (f : FF) (rm : Rm) (sat : Bool) (d a b : Reg) (s : State) : Out :=
  s.withRegs [d, a, b] [] <|
    floatResult d (fun h => h.arith (op rm) f rm sat (h.S a).toNat (h.S b).toNat) s

/-- `fadd` (R176). -/
def execFadd (f : FF) (rm : Rm) (sat : Bool) (d a b : Reg) (s : State) : Out := float2 addV f rm sat d a b s

/-- `fsub` (R176). -/
def execFsub (f : FF) (rm : Rm) (sat : Bool) (d a b : Reg) (s : State) : Out := float2 subV f rm sat d a b s

/-- `fmul` (R176). -/
def execFmul (f : FF) (rm : Rm) (sat : Bool) (d a b : Reg) (s : State) : Out := float2 (fun _ => mulV) f rm sat d a b s

/-- `fdiv` (R176). -/
def execFdiv (f : FF) (rm : Rm) (sat : Bool) (d a b : Reg) (s : State) : Out := float2 (fun _ => divV) f rm sat d a b s

/-- `fmin` and `fmax`. -/
def floatExtreme (max : Bool) (f : FF) (d a b : Reg) (s : State) : Out :=
  s.withRegs [d, a, b] [] (floatResult d (fun h => h.extreme max f (h.S a).toNat (h.S b).toNat) s)

/-- `fmin` (R177). -/
def execFmin (f : FF) (d a b : Reg) (s : State) : Out := floatExtreme false f d a b s

/-- `fmax` (R177). -/
def execFmax (f : FF) (d a b : Reg) (s : State) : Out := floatExtreme true f d a b s

/-- The low `n` bits of a slot (R173). -/
def lowBits (n : Nat) (x : Word) : Nat := x.toNat % 2 ^ n

/-- `fsgn` (R178): the sign bit of B above the other bits of A. -/
def execFsgn (f : FF) (d a b : Reg) (s : State) : Out :=
  let n := (wideSpec f).bits
  s.withRegs [d, a, b] [] <|
    s.writeS d (BitVec.ofNat 64 (lowBits (n - 1) (s.hart.S a) + lowBits n (s.hart.S b) / 2 ^ (n - 1) * 2 ^ (n - 1)))

/-- `fsqrt` (R176). -/
def execFsqrt (f : FF) (rm : Rm) (sat : Bool) (d a : Reg) (s : State) : Out :=
  s.withRegs [d, a] [] (floatResult d (fun h => h.arith1 sqrtV f rm sat (h.S a).toNat) s)

/-- `fabs` (R178). -/
def execFabs (f : FF) (d a : Reg) (s : State) : Out :=
  s.withRegs [d, a] [] (s.writeS d (BitVec.ofNat 64 (lowBits ((wideSpec f).bits - 1) (s.hart.S a))))

/-- `fneg` (R178). -/
def execFneg (f : FF) (d a : Reg) (s : State) : Out :=
  let n := (wideSpec f).bits
  s.withRegs [d, a] [] (s.writeS d (BitVec.ofNat 64 ((lowBits n (s.hart.S a) + 2 ^ (n - 1)) % 2 ^ n)))

/-- `fclass` (R179). -/
def execFclass (f : FF) (d a : Reg) (s : State) : Out :=
  s.withRegs [d, a] [] (s.writeS d (BitVec.ofNat 64 (2 ^ classOf (wideSpec f) (s.hart.S a).toNat)))

/-- `frnd` (R180). -/
def execFrnd (f : FF) (rm : Rm) (d a : Reg) (s : State) : Out :=
  s.withRegs [d, a] [] <|
    floatResult d (fun h =>
      let p := h.roundBits (wideSpec f).n rm
      let r := frndCode (wideSpec f) rm p.1 (h.S a).toNat
      (r.1, p.2.raise r.2)) s

/-- A fused operation (R181). -/
def floatFused (negP negC : Bool) (f : FF) (rm : Rm) (d a b c : Reg) (s : State) : Out :=
  s.withRegs [d, a, b, c] [] <|
    floatResult d (fun h => h.fused negP negC f rm (h.S a).toNat (h.S b).toNat (h.S c).toNat) s

/-- `fma` (R181). -/
def execFma (f : FF) (rm : Rm) (d a b c : Reg) (s : State) : Out := floatFused false false f rm d a b c s

/-- `fms` (R181). -/
def execFms (f : FF) (rm : Rm) (d a b c : Reg) (s : State) : Out := floatFused false true f rm d a b c s

/-- `fnma` (R181). -/
def execFnma (f : FF) (rm : Rm) (d a b c : Reg) (s : State) : Out := floatFused true false f rm d a b c s

/-- A comparison (R182). -/
def floatCompare (c : FCond) (f : FF) (d a b : Reg) (s : State) : Out :=
  s.withRegs [d, a, b] [] <|
    s.done fun h => let r := h.compare c f (h.S a).toNat (h.S b).toNat; r.2.setS d (flagWord r.1)

/-- `fcmp.eq` (R182). -/
def execFcmpEq (f : FF) (d a b : Reg) (s : State) : Out := floatCompare .eq f d a b s

/-- `fcmp.lt` (R182). -/
def execFcmpLt (f : FF) (d a b : Reg) (s : State) : Out := floatCompare .lt f d a b s

/-- `fcmp.le` (R182). -/
def execFcmpLe (f : FF) (d a b : Reg) (s : State) : Out := floatCompare .le f d a b s

/-- `fcmp.un` (R182). -/
def execFcmpUn (f : FF) (d a b : Reg) (s : State) : Out := floatCompare .un f d a b s

/-- `fcmp.ne` (R182). -/
def execFcmpNe (f : FF) (d a b : Reg) (s : State) : Out := floatCompare .ne f d a b s

/-- `fcvt` (R184). -/
def execFcvt (td ts : Fmt) (rm : Rm) (sat : Bool) (d a : Reg) (s : State) : Out :=
  s.withRegs [d, a] [] (floatResult d (fun h => h.convert td rm sat (fmtValue ts (h.S a).toNat)) s)

end Sys2Proof.Machine
end

