-- ==== Sys2Proof/Machine/Dispatch.lean ====
section
/-! DEFINITION. The meaning of every instruction and of every step of the hardware: one arm per constructor. -/

namespace Sys2Proof.Machine

def exec (i : Instr) (s : State) : Host.Outcome State Fault Refusal :=
  match i with
  | .add d a b => Sys2Proof.Machine.execAdd d a b s
  | .sub d a b => Sys2Proof.Machine.execSub d a b s
  | .mul d a b => Sys2Proof.Machine.execMul d a b s
  | .mulh d a b => Sys2Proof.Machine.execMulh d a b s
  | .mulhn d a b => Sys2Proof.Machine.execMulhn d a b s
  | .div d a b => Sys2Proof.Machine.execDiv d a b s
  | .divn d a b => Sys2Proof.Machine.execDivn d a b s
  | .rem d a b => Sys2Proof.Machine.execRem d a b s
  | .remn d a b => Sys2Proof.Machine.execRemn d a b s
  | .and d a b => Sys2Proof.Machine.execAnd d a b s
  | .or d a b => Sys2Proof.Machine.execOr d a b s
  | .xor d a b => Sys2Proof.Machine.execXor d a b s
  | .andn d a b => Sys2Proof.Machine.execAndn d a b s
  | .orn d a b => Sys2Proof.Machine.execOrn d a b s
  | .shl d a b => Sys2Proof.Machine.execShl d a b s
  | .shr d a b => Sys2Proof.Machine.execShr d a b s
  | .sra d a b => Sys2Proof.Machine.execSra d a b s
  | .rol d a b => Sys2Proof.Machine.execRol d a b s
  | .ror d a b => Sys2Proof.Machine.execRor d a b s
  | .min d a b => Sys2Proof.Machine.execMin d a b s
  | .max d a b => Sys2Proof.Machine.execMax d a b s
  | .minn d a b => Sys2Proof.Machine.execMinn d a b s
  | .maxn d a b => Sys2Proof.Machine.execMaxn d a b s
  | .ceq d a b => Sys2Proof.Machine.execCeq d a b s
  | .cne d a b => Sys2Proof.Machine.execCne d a b s
  | .clt d a b => Sys2Proof.Machine.execClt d a b s
  | .cle d a b => Sys2Proof.Machine.execCle d a b s
  | .cltn d a b => Sys2Proof.Machine.execCltn d a b s
  | .clen d a b => Sys2Proof.Machine.execClen d a b s
  | .addi d a imm => Sys2Proof.Machine.execAddi d a imm s
  | .li d imm => Sys2Proof.Machine.execLi d imm s
  | .abs d a => Sys2Proof.Machine.execAbs d a s
  | .clz d a => Sys2Proof.Machine.execClz d a s
  | .ctz d a => Sys2Proof.Machine.execCtz d a s
  | .popc d a => Sys2Proof.Machine.execPopc d a s
  | .sext w d a => Sys2Proof.Machine.execSext w d a s
  | .zext w d a => Sys2Proof.Machine.execZext w d a s
  | .bext d a pos len1 => Sys2Proof.Machine.execBext d a pos len1 s
  | .bins d a pos len1 => Sys2Proof.Machine.execBins d a pos len1 s
  | .sel d a b c => Sys2Proof.Machine.execSel d a b c s
  | .lea d m => Sys2Proof.Machine.execLea d m s
  | .shlImm d a k => Sys2Proof.Machine.execShlImm d a k s
  | .shrImm d a k => Sys2Proof.Machine.execShrImm d a k s
  | .sraImm d a k => Sys2Proof.Machine.execSraImm d a k s
  | .rolImm d a k => Sys2Proof.Machine.execRolImm d a k s
  | .rorImm d a k => Sys2Proof.Machine.execRorImm d a k s
  | .ldfeK t d a off => Sys2Proof.Machine.execLdfeK t d a off s
  | .ldfeE t d a off => Sys2Proof.Machine.execLdfeE t d a off s
  | .stfe t d a off => Sys2Proof.Machine.execStfe t d a off s
  | .stfer t d a => Sys2Proof.Machine.execStfer t d a s
  | .feset a off => Sys2Proof.Machine.execFeset a off s
  | .feclr a off => Sys2Proof.Machine.execFeclr a off s
  | .loop a off => Sys2Proof.Machine.execLoop a off s
  | .beq a b off => Sys2Proof.Machine.execBeq a b off s
  | .bne a b off => Sys2Proof.Machine.execBne a b off s
  | .blt a b off => Sys2Proof.Machine.execBlt a b off s
  | .bge a b off => Sys2Proof.Machine.execBge a b off s
  | .bltn a b off => Sys2Proof.Machine.execBltn a b off s
  | .bgen a b off => Sys2Proof.Machine.execBgen a b off s
  | .call d off => Sys2Proof.Machine.execCall d off s
  | .calli d a => Sys2Proof.Machine.execCalli d a s
  | .ld w d m => Sys2Proof.Machine.execLd w d m s
  | .st w d m => Sys2Proof.Machine.execSt w d m s
  | .ldl w d m => Sys2Proof.Machine.execLdl w d m s
  | .stl w d m => Sys2Proof.Machine.execStl w d m s
  | .ldv d a off => Sys2Proof.Machine.execLdv d a off s
  | .stv d a off => Sys2Proof.Machine.execStv d a off s
  | .ldvl d a off => Sys2Proof.Machine.execLdvl d a off s
  | .stvl d a off => Sys2Proof.Machine.execStvl d a off s
  | .ldvs w d a b => Sys2Proof.Machine.execLdvs w d a b s
  | .vgat w d a b => Sys2Proof.Machine.execVgat w d a b s
  | .vsca w d a b => Sys2Proof.Machine.execVsca w d a b s
  | .pf a off => Sys2Proof.Machine.execPf a off s
  | .amoAdd sc d a b => Sys2Proof.Machine.execAmoAdd sc d a b s
  | .amoAnd sc d a b => Sys2Proof.Machine.execAmoAnd sc d a b s
  | .amoOr sc d a b => Sys2Proof.Machine.execAmoOr sc d a b s
  | .amoXor sc d a b => Sys2Proof.Machine.execAmoXor sc d a b s
  | .amoMin sc d a b => Sys2Proof.Machine.execAmoMin sc d a b s
  | .amoMax sc d a b => Sys2Proof.Machine.execAmoMax sc d a b s
  | .amoMinn sc d a b => Sys2Proof.Machine.execAmoMinn sc d a b s
  | .amoMaxn sc d a b => Sys2Proof.Machine.execAmoMaxn sc d a b s
  | .amoSwp sc d a b => Sys2Proof.Machine.execAmoSwp sc d a b s
  | .amoCas sc d a b => Sys2Proof.Machine.execAmoCas sc d a b s
  | .ldAcq w sc d a off => Sys2Proof.Machine.execLdAcq w sc d a off s
  | .stRel w sc d a off => Sys2Proof.Machine.execStRel w sc d a off s
  | .ldStr w sc d a off => Sys2Proof.Machine.execLdStr w sc d a off s
  | .stStr w sc d a off => Sys2Proof.Machine.execStStr w sc d a off s
  | .fence sc => Sys2Proof.Machine.execFence sc s
  | .fenceAcq sc => Sys2Proof.Machine.execFenceAcq sc s
  | .fenceRel sc => Sys2Proof.Machine.execFenceRel sc s
  | .vadd w d a b => Sys2Proof.Machine.execVadd w d a b s
  | .vsub w d a b => Sys2Proof.Machine.execVsub w d a b s
  | .vmul w d a b => Sys2Proof.Machine.execVmul w d a b s
  | .vmac w d a b => Sys2Proof.Machine.execVmac w d a b s
  | .vmin w d a b => Sys2Proof.Machine.execVmin w d a b s
  | .vmax w d a b => Sys2Proof.Machine.execVmax w d a b s
  | .vand w d a b => Sys2Proof.Machine.execVand w d a b s
  | .vor w d a b => Sys2Proof.Machine.execVor w d a b s
  | .vxor w d a b => Sys2Proof.Machine.execVxor w d a b s
  | .vshl w d a b => Sys2Proof.Machine.execVshl w d a b s
  | .vshr w d a b => Sys2Proof.Machine.execVshr w d a b s
  | .vsra w d a b => Sys2Proof.Machine.execVsra w d a b s
  | .vabs w d a => Sys2Proof.Machine.execVabs w d a s
  | .vneg w d a => Sys2Proof.Machine.execVneg w d a s
  | .vminU w d a b => Sys2Proof.Machine.execVminU w d a b s
  | .vmaxU w d a b => Sys2Proof.Machine.execVmaxU w d a b s
  | .vcmpEq w d a b => Sys2Proof.Machine.execVcmpEq w d a b s
  | .vcmpNe w d a b => Sys2Proof.Machine.execVcmpNe w d a b s
  | .vcmpLt w d a b => Sys2Proof.Machine.execVcmpLt w d a b s
  | .vcmpLe w d a b => Sys2Proof.Machine.execVcmpLe w d a b s
  | .vcmpLtU w d a b => Sys2Proof.Machine.execVcmpLtU w d a b s
  | .vcmpLeU w d a b => Sys2Proof.Machine.execVcmpLeU w d a b s
  | .vsel w d a b c => Sys2Proof.Machine.execVsel w d a b c s
  | .mand w d a b => Sys2Proof.Machine.execMand w d a b s
  | .mor w d a b => Sys2Proof.Machine.execMor w d a b s
  | .mnot w d a => Sys2Proof.Machine.execMnot w d a s
  | .mpopc w d a => Sys2Proof.Machine.execMpopc w d a s
  | .vperm w d a b => Sys2Proof.Machine.execVperm w d a b s
  | .vbcast w d a => Sys2Proof.Machine.execVbcast w d a s
  | .vextr w d a b => Sys2Proof.Machine.execVextr w d a b s
  | .vins w d a b => Sys2Proof.Machine.execVins w d a b s
  | .vslideUp w d a b => Sys2Proof.Machine.execVslideUp w d a b s
  | .vslideDn w d a b => Sys2Proof.Machine.execVslideDn w d a b s
  | .vzipLo w d a b => Sys2Proof.Machine.execVzipLo w d a b s
  | .vzipHi w d a b => Sys2Proof.Machine.execVzipHi w d a b s
  | .vunzipEv w d a b => Sys2Proof.Machine.execVunzipEv w d a b s
  | .vunzipOd w d a b => Sys2Proof.Machine.execVunzipOd w d a b s
  | .vredsum w d a => Sys2Proof.Machine.execVredsum w d a s
  | .vredmax w d a => Sys2Proof.Machine.execVredmax w d a s
  | .vredmin w d a => Sys2Proof.Machine.execVredmin w d a s
  | .vredmaxU w d a => Sys2Proof.Machine.execVredmaxU w d a s
  | .vredminU w d a => Sys2Proof.Machine.execVredminU w d a s
  | .vfadd f rm sat d a b => Sys2Proof.Machine.execVfadd f rm sat d a b s
  | .vfsub f rm sat d a b => Sys2Proof.Machine.execVfsub f rm sat d a b s
  | .vfmul f rm sat d a b => Sys2Proof.Machine.execVfmul f rm sat d a b s
  | .vfma f rm d a b => Sys2Proof.Machine.execVfma f rm d a b s
  | .vfmax f d a b => Sys2Proof.Machine.execVfmax f d a b s
  | .vfmin f d a b => Sys2Proof.Machine.execVfmin f d a b s
  | .vfrcp f rm sat d a => Sys2Proof.Machine.execVfrcp f rm sat d a s
  | .vfexp2 f rm sat d a => Sys2Proof.Machine.execVfexp2 f rm sat d a s
  | .vfredsum f rm sat d a => Sys2Proof.Machine.execVfredsum f rm sat d a s
  | .vfredmax f d a => Sys2Proof.Machine.execVfredmax f d a s
  | .vfredmin f d a => Sys2Proof.Machine.execVfredmin f d a s
  | .vfcmpEq f d a b => Sys2Proof.Machine.execVfcmpEq f d a b s
  | .vfcmpLt f d a b => Sys2Proof.Machine.execVfcmpLt f d a b s
  | .vfcmpLe f d a b => Sys2Proof.Machine.execVfcmpLe f d a b s
  | .vfcmpUn f d a b => Sys2Proof.Machine.execVfcmpUn f d a b s
  | .vcvt td ts rm sat d a part => Sys2Proof.Machine.execVcvt td ts rm sat d a part s
  | .vquant tb ts rm sat d a b => Sys2Proof.Machine.execVquant tb ts rm sat d a b s
  | .vdeq td tb d a part => Sys2Proof.Machine.execVdeq td tb d a part s
  | .vsclg d a => Sys2Proof.Machine.execVsclg d a s
  | .vscls d a => Sys2Proof.Machine.execVscls d a s
  | .fadd f rm sat d a b => Sys2Proof.Machine.execFadd f rm sat d a b s
  | .fsub f rm sat d a b => Sys2Proof.Machine.execFsub f rm sat d a b s
  | .fmul f rm sat d a b => Sys2Proof.Machine.execFmul f rm sat d a b s
  | .fdiv f rm sat d a b => Sys2Proof.Machine.execFdiv f rm sat d a b s
  | .fmin f d a b => Sys2Proof.Machine.execFmin f d a b s
  | .fmax f d a b => Sys2Proof.Machine.execFmax f d a b s
  | .fsgn f d a b => Sys2Proof.Machine.execFsgn f d a b s
  | .fsqrt f rm sat d a => Sys2Proof.Machine.execFsqrt f rm sat d a s
  | .fabs f d a => Sys2Proof.Machine.execFabs f d a s
  | .fneg f d a => Sys2Proof.Machine.execFneg f d a s
  | .fclass f d a => Sys2Proof.Machine.execFclass f d a s
  | .frnd f rm d a => Sys2Proof.Machine.execFrnd f rm d a s
  | .fma f rm d a b c => Sys2Proof.Machine.execFma f rm d a b c s
  | .fms f rm d a b c => Sys2Proof.Machine.execFms f rm d a b c s
  | .fnma f rm d a b c => Sys2Proof.Machine.execFnma f rm d a b c s
  | .fcmpEq f d a b => Sys2Proof.Machine.execFcmpEq f d a b s
  | .fcmpLt f d a b => Sys2Proof.Machine.execFcmpLt f d a b s
  | .fcmpLe f d a b => Sys2Proof.Machine.execFcmpLe f d a b s
  | .fcmpUn f d a b => Sys2Proof.Machine.execFcmpUn f d a b s
  | .fcmpNe f d a b => Sys2Proof.Machine.execFcmpNe f d a b s
  | .fcvt td ts rm sat d a => Sys2Proof.Machine.execFcvt td ts rm sat d a s
  | .mlds d a => Sys2Proof.Machine.execMlds d a s
  | .mswp => Sys2Proof.Machine.execMswp s
  | .mstr d a b => Sys2Proof.Machine.execMstr d a b s
  | .macz a => Sys2Proof.Machine.execMacz a s
  | .macrd d a b => Sys2Proof.Machine.execMacrd d a b s
  | .mfmt a => Sys2Proof.Machine.execMfmt a s
  | .mstat d => Sys2Proof.Machine.execMstat d s
  | .mwait => Sys2Proof.Machine.execMwait s
  | .tend => Sys2Proof.Machine.execTend s
  | .tcopy d a b => Sys2Proof.Machine.execTcopy d a b s
  | .tpack f d a b => Sys2Proof.Machine.execTpack f d a b s
  | .tunpk f d a b => Sys2Proof.Machine.execTunpk f d a b s
  | .bini a => Sys2Proof.Machine.execBini a s
  | .bexp a b => Sys2Proof.Machine.execBexp a b s
  | .barv d a b => Sys2Proof.Machine.execBarv d a b s
  | .bwait t d a b => Sys2Proof.Machine.execBwait t d a b s
  | .btest d a => Sys2Proof.Machine.execBtest d a s
  | .waitw => Sys2Proof.Machine.execWaitw s
  | .tabt a => Sys2Proof.Machine.execTabt a s
  | .tspawn d a => Sys2Proof.Machine.execTspawn d a s
  | .evget d a => Sys2Proof.Machine.execEvget d a s
  | .tbar t d a b => Sys2Proof.Machine.execTbar t d a b s
  | .yield => Sys2Proof.Machine.execYield s
  | .sleep a => Sys2Proof.Machine.execSleep a s
  | .tick d => Sys2Proof.Machine.execTick d s
  | .fdecl d a => Sys2Proof.Machine.execFdecl d a s
  | .fstart d a => Sys2Proof.Machine.execFstart d a s
  | .fstop d a b => Sys2Proof.Machine.execFstop d a b s
  | .fpause d a => Sys2Proof.Machine.execFpause d a s
  | .fphase d a b => Sys2Proof.Machine.execFphase d a b s
  | .fwaitb t d a b => Sys2Proof.Machine.execFwaitb t d a b s
  | .sget d a b => Sys2Proof.Machine.execSget d a b s
  | .sput a => Sys2Proof.Machine.execSput a s
  | .snap d a => Sys2Proof.Machine.execSnap d a s
  | .cplc d a b => Sys2Proof.Machine.execCplc d a b s
  | .fmig d a => Sys2Proof.Machine.execFmig d a s
  | .rng d => Sys2Proof.Machine.execRng d s
  | .rngf d a => Sys2Proof.Machine.execRngf d a s
  | .bern d a b => Sys2Proof.Machine.execBern d a b s
  | .samp d a b => Sys2Proof.Machine.execSamp d a b s
  | .trap k => Sys2Proof.Machine.execTrap k s
  | .eret => Sys2Proof.Machine.execEret s
  | .stget d n => Sys2Proof.Machine.execStget d n s
  | .stset d n => Sys2Proof.Machine.execStset d n s
  | .stswp d n => Sys2Proof.Machine.execStswp d n s
  | .ienb d => Sys2Proof.Machine.execIenb d s
  | .idis d => Sys2Proof.Machine.execIdis d s
  | .wfi => Sys2Proof.Machine.execWfi s
  | .pool d src dst m => Sys2Proof.Machine.execPool d src dst m s
  | .poolq d sel => Sys2Proof.Machine.execPoolq d sel s
  | .view o => Sys2Proof.Machine.execView o s
  | .cln a => Sys2Proof.Machine.execCln a s
  | .inv a => Sys2Proof.Machine.execInv a s
  | .clnp a => Sys2Proof.Machine.execClnp a s
  | .ptstGrant a b => Sys2Proof.Machine.execPtstGrant a b s
  | .ptstRetract a b => Sys2Proof.Machine.execPtstRetract a b s
  | .ptstHold a b => Sys2Proof.Machine.execPtstHold a b s
  | .ptstMove a b => Sys2Proof.Machine.execPtstMove a b s
  | .genb d a => Sys2Proof.Machine.execGenb d a s
  | .launch d a => Sys2Proof.Machine.execLaunch d a s
  | .fsvc d a b => Sys2Proof.Machine.execFsvc d a b s
  | .mapDone die e => Sys2Proof.Machine.execMapDone die e s
  | .replayPage die asid page => Sys2Proof.Machine.execReplayPage die asid page s
  | .replayAll die => Sys2Proof.Machine.execReplayAll die s
  | .halt => Sys2Proof.Machine.execHalt s
  | .ident d sel => Sys2Proof.Machine.execIdent d sel s
  | .instructionFetch c k => Sys2Proof.Machine.execInstructionFetch c k s
  | .codeLineFill c k => Sys2Proof.Machine.execCodeLineFill c k s
  | .waitComplete c k => Sys2Proof.Machine.execWaitComplete c k s
  | .interruptTaken c k => Sys2Proof.Machine.execInterruptTaken c k s
  | .timerPending c k => Sys2Proof.Machine.execTimerPending c k s
  | .fwlLimit c k => Sys2Proof.Machine.execFwlLimit c k s
  | .stferResend c k => Sys2Proof.Machine.execStferResend c k s
  | .stferAttempt c k => Sys2Proof.Machine.execStferAttempt c k s
  | .stferAnswer c k => Sys2Proof.Machine.execStferAnswer c k s
  | .rlimExpire c k => Sys2Proof.Machine.execRlimExpire c k s
  | .slotCapApply c => Sys2Proof.Machine.execSlotCapApply c s
  | .dividerChange c => Sys2Proof.Machine.execDividerChange c s
  | .matrixStart c => Sys2Proof.Machine.execMatrixStart c s
  | .matrixRetire c => Sys2Proof.Machine.execMatrixRetire c s
  | .matrixPieceCredit c => Sys2Proof.Machine.execMatrixPieceCredit c s
  | .copyStart c => Sys2Proof.Machine.execCopyStart c s
  | .copyPieceIssue c => Sys2Proof.Machine.execCopyPieceIssue c s
  | .pushPerform c => Sys2Proof.Machine.execPushPerform c s
  | .copyPieceCredit c => Sys2Proof.Machine.execCopyPieceCredit c s
  | .copyGlobalFault c => Sys2Proof.Machine.execCopyGlobalFault c s
  | .packBlock c => Sys2Proof.Machine.execPackBlock c s
  | .writeCheck c k => Sys2Proof.Machine.execWriteCheck c k s
  | .replayCheckFault c k => Sys2Proof.Machine.execReplayCheckFault c k s
  | .wordReturn c l => Sys2Proof.Machine.execWordReturn c l s
  | .cacheEvict c l => Sys2Proof.Machine.execCacheEvict c l s
  | .forcedPublish c => Sys2Proof.Machine.execForcedPublish c s
  | .gets die l => Sys2Proof.Machine.execGets die l s
  | .getm die l => Sys2Proof.Machine.execGetm die l s
  | .upg die l => Sys2Proof.Machine.execUpg die l s
  | .pute die l => Sys2Proof.Machine.execPute die l s
  | .fwdGets die l => Sys2Proof.Machine.execFwdGets die l s
  | .fwdGetm die l => Sys2Proof.Machine.execFwdGetm die l s
  | .invAck die l => Sys2Proof.Machine.execInvAck die l s
  | .data die l => Sys2Proof.Machine.execData die l s
  | .unblock die l => Sys2Proof.Machine.execUnblock die l s
  | .placeRequest die slice entry l => Sys2Proof.Machine.execPlaceRequest die slice entry l s
  | .placeGrant home slice => Sys2Proof.Machine.execPlaceGrant home slice s
  | .writeBack die l => Sys2Proof.Machine.execWriteBack die l s
  | .wback die l => Sys2Proof.Machine.execWback die l s
  | .recallLine die l => Sys2Proof.Machine.execRecall die l s
  | .translationWalk asid page => Sys2Proof.Machine.execTranslationWalk asid page s
  | .agentDrop ptLine => Sys2Proof.Machine.execAgentDrop ptLine s
  | .retractDrain => Sys2Proof.Machine.execRetractDrain s
  | .heldRetry c k => Sys2Proof.Machine.execHeldRetry c k s
  | .pageFault c k va kind park => Sys2Proof.Machine.execPageFault c k va kind park s
  | .generationScrub asid => Sys2Proof.Machine.execGenerationScrub asid s
  | .dispatch lead => Sys2Proof.Machine.execDispatch lead s
  | .chuckStart c k => Sys2Proof.Machine.execChuckStart c k s
  | .recordWrite lead => Sys2Proof.Machine.execRecordWrite lead s
  | .taskAbort c k reason => Sys2Proof.Machine.execTaskAbort c k reason s
  | .starvationRecord launch team => Sys2Proof.Machine.execStarvationRecord launch team s
  | .launchDrained launch => Sys2Proof.Machine.execLaunchDrained launch s
  | .spawnAdd launch => Sys2Proof.Machine.execSpawnAdd launch s
  | .tbarComplete launch team word => Sys2Proof.Machine.execTbarComplete launch team word s
  | .gangStart launch => Sys2Proof.Machine.execGangStart launch s
  | .poolHandshake c => Sys2Proof.Machine.execPoolHandshake c s
  | .matDrainTimeout c => Sys2Proof.Machine.execMatDrainTimeout c s
  | .localRelocation c => Sys2Proof.Machine.execLocalRelocation c s
  | .poolSwitch c => Sys2Proof.Machine.execPoolSwitch c s
  | .fieldRequestServe c => Sys2Proof.Machine.execFieldRequestServe c s
  | .fieldAnswer c k => Sys2Proof.Machine.execFieldAnswer c k s
  | .spindleHand c => Sys2Proof.Machine.execSpindleHand c s
  | .phaseBarrier launch team handle => Sys2Proof.Machine.execPhaseBarrier launch team handle s
  | .fieldMove launch team handle => Sys2Proof.Machine.execFieldMove launch team handle s
  | .backgroundCopy c => Sys2Proof.Machine.execBackgroundCopy c s
  | .fieldWriteBack launch team handle => Sys2Proof.Machine.execFieldWriteBack launch team handle s
  | .routerGrant node out => Sys2Proof.Machine.execRouterGrant node out s
  | .packetArrival node inp p => Sys2Proof.Machine.execPacketArrival node inp p s
  | .teamDelivery c => Sys2Proof.Machine.execTeamDelivery c s
  | .staleDrop receiver p => Sys2Proof.Machine.execStaleDrop receiver p s
  | .dieDeclare die => Sys2Proof.Machine.execDieDeclare die s
  | .dieRejoin die => Sys2Proof.Machine.execDieRejoin die s
  | .rctlWrite die rail v => Sys2Proof.Machine.execRctlWrite die rail v s
  | .railChangeDone die rail => Sys2Proof.Machine.execRailChangeDone die rail s
  | .cpwrWrite c v => Sys2Proof.Machine.execCpwrWrite c v s
  | .dpwrWrite die v => Sys2Proof.Machine.execDpwrWrite die v s
  | .currentWindow die rail isense => Sys2Proof.Machine.execCurrentWindow die rail isense s
  | .autoClockStep die rail => Sys2Proof.Machine.execAutoClockStep die rail s
  | .mpwrWindow pnow => Sys2Proof.Machine.execMpwrWindow pnow s
  | .sensorReading die sensor raw => Sys2Proof.Machine.execSensorReading die sensor raw s
  | .thermalLevel die => Sys2Proof.Machine.execThermalLevel die s
  | .saveLadderStep die => Sys2Proof.Machine.execSaveLadderStep die s
  | .dropLadderStep die => Sys2Proof.Machine.execDropLadderStep die s
  | .comparatorTrip die => Sys2Proof.Machine.execComparatorTrip die s
  | .thermalRecovery die => Sys2Proof.Machine.execThermalRecovery die s
  | .hotSpotMove launch team x0 y0 => Sys2Proof.Machine.execHotSpotMove launch team x0 y0 s
  | .swapOut launch team save done => Sys2Proof.Machine.execSwapOut launch team save done s
  | .swapGraceExpire launch team => Sys2Proof.Machine.execSwapGraceExpire launch team s
  | .swapIn launch team save done x0 y0 => Sys2Proof.Machine.execSwapIn launch team save done x0 y0 s
  | .launchEnd launch done => Sys2Proof.Machine.execLaunchEnd launch done s
  | .launchAccept desc => Sys2Proof.Machine.execLaunchAccept desc s
  | .hsqRead => Sys2Proof.Machine.execHsqRead s
  | .boot => Sys2Proof.Machine.execBoot s
  | .measureExtend stage flags d => Sys2Proof.Machine.execMeasureExtend stage flags d s
  | .attestQuote nonce => Sys2Proof.Machine.execAttestQuote nonce s
  | .slctlWrite l v => Sys2Proof.Machine.execSlctlWrite l v s
  | .linkStateChange l up lanes rate peer => Sys2Proof.Machine.execLinkStateChange l up lanes rate peer s
  | .txtailWrite l v => Sys2Proof.Machine.execTxtailWrite l v s
  | .linkEntryReceive l entry => Sys2Proof.Machine.execLinkEntryReceive l entry s
  | .sqt q v => Sys2Proof.Machine.execSqt q v s
  | .cqh q v => Sys2Proof.Machine.execCqh q v s
  | .qcfg q v => Sys2Proof.Machine.execQcfg q v s
  | .hostSubmission q entry host => Sys2Proof.Machine.execHostSubmission q entry host s
  | .hostCompletion q => Sys2Proof.Machine.execHostCompletion q s
  | .inboundDma port write pa bytes => Sys2Proof.Machine.execInboundDma port write pa bytes s
  | .operatingPointPatch vcode m => Sys2Proof.Machine.execOperatingPointPatch vcode m s
  | .powerLimitPatch watts => Sys2Proof.Machine.execPowerLimitPatch watts s
  | .retiredDies dies => Sys2Proof.Machine.execRetiredDies dies s
  | .snsWrite die v => Sys2Proof.Machine.execSnsWrite die v s
  | .registerWrite addr v => Sys2Proof.Machine.execRegisterWrite addr v s
  | .illegalEncoding w => Sys2Proof.Machine.execIllegalEncoding w s
  | .invalidation die l => Sys2Proof.Machine.execInvalidation die l s
  | .ackCount die l => Sys2Proof.Machine.execAckCount die l s
  | .teamInterrupt launch team => Sys2Proof.Machine.execTeamInterrupt launch team s
  | .pciePortEvent port => Sys2Proof.Machine.execPciePortEvent port s
  | .linkControlFlit l rxhead => Sys2Proof.Machine.execLinkControlFlit l rxhead s

end Sys2Proof.Machine
end

