-- ==== Sys2Proof/Machine/Due.lean ====
section
/-! DEFINITION. What the module's units do of their own accord before the next slot, in the order the model takes them (LOG 1), and the end of
a cycle (R7, R16, R25). -/

namespace Sys2Proof.Machine

/-- A Chuck starts a chosen node (R64). -/
def State.chuck (s : State) (n : Nat) (k : Slot) : Option State :=
  if (s.hartAt n k).chosen.isNone then none
  else (nextOf (execChuckStart n k s)).bind fun t => if (t.hartAt n k).chosen.isNone then some t else none

/-- A hart that a slot cap has paused, whose team's swap stops it: its load or atomic completes once the data are there, and its `stfer` once the
attempt is answered, as the swap waits for them (R28, R74, R201). -/
def State.pausedData (s : State) (n : Nat) (k : Slot) : Option State :=
  let c := s.cellAt n
  let h := c.hart k
  let stopping := match c.serving with
    | some v => ((s.team? v.launch v.team).bind (·.swap)).any fun w => w.phase == .stopSlot0
    | none => false
  let ends := (h.st == .wait .data && c.answered k) || (h.st == .wait .remote && (h.req == .answered 1 || h.req == .answered 2))
  if !stopping || !h.paused || h.frozen || !ends then none
  else
    let t := (s.focus n).mapCell fun c => { c with cycle := (c.cycle / 16 + 1) * 16 + k.val }
    (nextOf t.waitSlot).bind fun u =>
      if u.hart == h then none
      else
        let v := u.mapCell fun x => { x with cycle := c.cycle }
        some { v.focus s.cell.no with cur := s.cur }

/-- What is due for one hart: its requests and their answers, the end of its wait by an interrupt, the start or the abort of its
task. -/
def State.hartDue (s : State) (n : Nat) (k : Slot) : Option State :=
  let h := s.hartAt n k
  if h.st == .absent then none
  else s.sendFirst n k <|> s.attempt n k <|> s.remoteAnswer n k <|> s.fieldAnswer n k <|>
    s.cutWait n k <|> s.taskAbort n k <|> s.chuck n k <|> s.pausedData n k

/-- What is due for the engines of one cell. -/
def State.cellDue (s : State) (n : Nat) : Option State :=
  s.divider n <|> s.slotCap n <|> s.matrixCredit n <|> s.matrixRetire n <|> s.pieceCredit n <|> s.copyAnswer n <|> s.teamDelivery n <|> s.heldDue n <|>
  s.matrixStart n <|> s.copyStart n <|> s.pieceIssue n <|> s.matTimeout n <|> s.poolHandshake n <|> s.poolSwitch n <|>
  s.fieldServe n <|> s.background n <|> s.spindle n <|> (List.finRange 16).findSome? fun k => s.hartDue n k

/-- What is due for one launch. -/
def State.launchDue (s : State) (l : Launch) : Option State :=
  s.gangStart l.id <|> s.recordWrite l.lead <|> s.spawnAdd l.id <|> s.refill l.lead <|> s.dispatch l.lead <|>
  (l.teams.findSome? fun t => s.starvation l.id t.no) <|> s.launchDrained l.id

/-- What is due for one field. -/
def State.fieldDue (s : State) (f : Field) : Option State :=
  s.fieldMove f.launch f.team f.handle <|> s.phaseBarrier f.launch f.team f.handle <|> s.writeBackField f.launch f.team f.handle

/-- A team barrier all of whose cells have arrived. -/
def State.tbarDue (s : State) : Option State :=
  s.cells.findSome? fun c => c.serving.bind fun v => c.tbars.findSome? fun t => s.tbarComplete v.launch v.team t.word

/-- A cell put in its place among others, ascending by die and number. -/
def insertCell (c : Cell) : List Cell → List Cell
  | [] => [c]
  | d :: ds => if dieOf c.no < dieOf d.no || (dieOf c.no == dieOf d.no && c.no < d.no) then c :: d :: ds else d :: insertCell c ds

/-- The cells whose present cycle has begun, ascending by die (R363) and number. -/
def State.servedCells (s : State) : List Cell := (s.cells.filter fun c => !s.ahead c).foldr insertCell []

/-- The instant at which the network, the lines and the misses go on next: the first of theirs after the network's own, as far as the present one
(LOG 29). -/
def State.nextInstant (s : State) : Option Nat :=
  best (fun a b => a < b) ((s.netTimes ++ s.cohTimes ++ s.missTimes).filter fun t => s.net.at_ < t && t ≤ s.instant)

/-- What the network and the lines do (R362 to R367, R379 to R388): packets arrive, misses and messages act, places and outputs are granted; then the
network's instant moves on, multicasts that have waited counted (R387). -/
def State.netStep (s : State) : Option State :=
  s.arrivalStep <|> s.missStep <|> (s.coh.findSome? fun l => s.cohStep s.net.at_ l) <|> s.placeStep <|> s.grantStep <|>
  s.nextInstant.map fun t => let u := s.countWaits t; { u with net := { u.net with at_ := t } }

/-- The next thing due anywhere in the module, if any; a step of a ladder comes before a control request (R418). -/
def State.due (s : State) : Option State :=
  s.netStep <|> s.orphan <|> s.railsDue <|> s.heatDue <|> (s.servedCells.findSome? fun c => s.cellDue c.no) <|> s.tbarDue <|> (s.fields.findSome? s.fieldDue) <|>
  (s.launches.findSome? s.launchDue) <|> s.swapsDue <|> s.owedStep <|> s.ptDue <|> s.parkDue <|>
  s.scrubDue <|> s.declareDone <|> s.retireDue <|> s.hostDue

/-! ## The end of a cycle -/

/-- The focused cell's engines in the present cycle, after the wheel access (R25); a power notice comes after a write of the same cycle (R11). -/
def State.engines (s : State) : State :=
  let s := s.mapCell Cell.zeroCycle
  (((s.relocate s.cell.no).getD s).portCycle s.cell.no).mapCell fun c => c.matrixCycle.giveNotice

/-- The starvation clocks of every launch (R72). -/
def State.watchAll (s : State) : State := { s with launches := s.launches.map s.watch }

/-! ## The agents' clocks (R9, R16, R27, LOG 1) -/

/-- A cell's clock runs: it is on, and its die's tier is powered (R404, R412). -/
def State.runs (s : State) (c : Cell) : Bool := c.on && (s.dieAt (dieOf c.no)).tier

/-- The agents that act: the cells that have left their reset and whose clocks run, and the released cores. -/
def State.agents (s : State) : List Agent :=
  ((s.cells.filter s.runs).map fun c => Agent.cell c.no) ++ s.cores.map fun p => Agent.core p.1

/-- The die number of an agent; the Headstock's is 54 (R361). -/
def Agent.die (a : Agent) : Nat :=
  match a with
  | .cell n => dieOf n
  | .core _ => 54

/-- The agent that acts next: the one that has come least far, of several that on the lowest die (R363). -/
def State.nextAgent (s : State) : Option Agent :=
  best (fun a b => sooner (s.reached a) (s.reached b) || (!sooner (s.reached b) (s.reached a) && a.die < b.die)) s.agents

/-- The turn comes to an agent: the time base reads the tick that it has reached. -/
def State.takeTurn (s : State) (a : Agent) : State :=
  match a with
  | .cell n =>
    let t := s.focus n
    { t with tbase := max s.tbase t.cell.tick }
  | .core n => { s with cur := .core n, tbase := max s.tbase (s.reached (.core n)).1 }

/-- The agent's cycle has passed; a core's step is taken as one tick (LOG 1). -/
def State.pass (s : State) : State :=
  match s.cur with
  | .core n => { s with coreAt := assocSet n ((s.reached (.core n)).1 + 1) s.coreAt }
  | .cell _ => if s.runs s.cell then { s with cell := s.cell.nextCycle } else s

/-- Time passes: the agent's cycle ends, and the agent that has come least far acts next; where none acts, a tick goes by. -/
def State.elapse (s : State) : State :=
  match s.pass.nextAgent with
  | some a => s.pass.takeTurn a
  | none => { s.pass with tbase := s.tbase + 1 }

/-- What acts at the focused cell's wheel boundary, if its present cycle is one: a divider, a slot cap, a re-division (R27, R49, R405). -/
def State.boundary (s : State) : State :=
  let n := s.cell.no
  let s := (s.divider n).getD s
  let s := (s.slotCap n).getD s
  (s.poolSwitch n).getD s

/-- The cycle ends. -/
def State.advance (s : State) : State :=
  let s := if s.isCore || !s.runs s.cell then s else s.boundary.engines
  s.elapse.watchAll

end Sys2Proof.Machine
end

