-- ==== Sys2Proof/Machine/Slot.lean ====
section
/-! DEFINITION. One slot of a hart, and what the agenda does (R16, R18, R136, LOG 1). -/

namespace Sys2Proof.Machine

/-- The hart as it issues an instruction: the next pc, the first word, and the instruction itself (R136, R137). -/
def Hart.issue (h : Hart) (i : Instr) (w : IWord) (len : Nat) : Hart :=
  { h.settle with st := .run, npc := h.pc + BitVec.ofNat 64 len, ir := w, winstr := some i }

/-- The bytes of an instruction issue: it is decoded and runs, or raises the illegal-instruction trap (R135, R136). -/
def State.issueBytes (s : State) (bs : List Byte) : Out :=
  let w := (wordsOfBytes bs).headD 0
  match decodeBytes bs with
  | .ok i => exec i ((s.countIssue w).mapHart fun h => h.issue i w bs.length)
  | .error _ => execIllegalEncoding w (s.mapHart fun h => { h.settle with st := .run, ir := w })

/-- The next instruction of a hart in RUN: fetched, or issued again (R49, R137); a Headstock hart fetches straight from global memory (R390). -/
def State.runSlot (s : State) : Out :=
  let h := s.hart
  match h.again, h.winstr with
  | true, some i => exec i s
  | _, _ =>
    if 2 ^ 55 ≤ h.pc.toNat then s.fetchFails .access h.pc.toNat
    else if s.isCore then .next s.fetchWait
    else match s.cell.fetch s.asid (s.gen s.asid) h.level h.pc.toNat with
      | some bs => s.issueBytes bs
      | none => .next s.fetchWait

/-- The slot of a hart that waits for its fetch: its instruction issues, or its failure is taken, once the fill has come (R137, R138). -/
def State.fetchSlot (s : State) : Out :=
  let h := s.hart
  if !h.woken || !s.answeredHere then .next s
  else match h.check with
    | .failed c a => s.fetchFails c a
    | _ => s.issueBytes h.buf

/-- One slot of the issuing hart: a copy failure and a passed routine limit come first, then a takeable interrupt, then what its state
asks for (R16, R18, R21, R88, R244). -/
def State.slot (s : State) : Out :=
  if !s.active || (!s.isCore && !s.runs s.cell) then .next s
  else match s.globalFault with
    | some t => .next t
    | none => match s.rlimExpire with
      | some t => .next t
      | none => match s.takePending with
        | some t => .next t
        | none => match s.hart.st with
          | .run => s.runSlot
          | .wait .fetch => s.fetchSlot
          | .wait _ => s.waitSlot
          | _ => .next s

/-- The event acts in a slot and, where it does, is what the slot does. -/
def usesSlot (i : Instr) : Bool :=
  match i with
  | .instructionFetch _ _ => true
  | .waitComplete _ _ => true
  | .interruptTaken _ _ => true
  | .fwlLimit _ _ => true
  | .rlimExpire _ _ => true
  | .copyGlobalFault _ => true
  | _ => false

/-- The instruction is one that a hart issues: it has an encoding, and never stands on the agenda. -/
def issued (i : Instr) : Bool := (encodeFields i).isSome

/-- An event of the agenda: what it does, and the end of the cycle where it was what the slot did. -/
def State.event (s : State) (i : Instr) : Out :=
  if issued i then .next s
  else match exec i s with
    | .next t => .next (if usesSlot i && t.hart != s.hart then t.advance else t)
    | r => r

/-- A corrected or an uncorrectable error of a die is counted (R422). -/
def Tailstock.countError (t : Tailstock) (fixed : Bool) (d : Nat) : Tailstock :=
  let more (l : List (Nat × Nat)) : List (Nat × Nat) := assocSet d ((assocGet d l).getD 0 + 1) l
  if fixed then { t with corrected := more t.corrected } else { t with uncorrected := more t.uncorrected }

/-- A line of physical memory comes to hold an uncorrectable error (R66, R186). -/
def State.memoryError (s : State) (line : Nat) : State :=
  { s with mem := { s.mem with poison := line :: s.mem.poison.filter (· != line) },
           tail := s.tail.countError false (dieOfPa (line * 128)) }

/-- A granule of a cell's LOCAL comes to hold one (R115, R230). -/
def State.localError (s : State) (n g : Nat) : State :=
  let c := s.cellAt n
  { s.putCell { c with locBad := g :: c.locBad.filter (· != g) } with tail := s.tail.countError false (dieOf n) }

/-- The head of the agenda, taken from it: an event, or the next agent to act, which the agents that have come no further than the time base can
be, in any order (R9, LOG 1). -/
def State.agendum (s : State) (a : Agendum) : Out :=
  match a with
  | .ev i => s.event i
  | .turn a => .next (if (s.reached a).1 ≤ s.tbase then s.takeTurn a else s)
  | .memoryError line => .next (s.memoryError line)
  | .localError c g => .next (s.localError c g)
  | .freeTag k => .next (s.freeTag k)
  | .coreRelease n entry => .next (s.releaseCore n entry)
  | .correctedError d => .next { s with tail := s.tail.countError true d }

/-- A whole slot: what the hart does, and the end of the cycle. -/
def State.cycle (s : State) : Out :=
  match s.slot with
  | .next t => .next t.advance
  | r => r

/-! ## Placing an instruction where the next step fetches it -/

/-- The CODE line a cell holds of a line number, or a blank executable one. -/
def Cell.codeOr (c : Cell) (key : LineKey) : CLine :=
  (c.code.find? fun l => l.key == key).getD
    { key := key, data := zeros 128, sb := zeros 4, perm := ⟨true, true, true, true⟩, kept := false, valid := BitVec.allOnes 16, regs := 0 }

/-- Bytes at an offset of CODE lines from a line on. -/
def Cell.placeCode (c : Cell) (asid gen line : Nat) (bs : List Byte) : Cell :=
  let l : CLine := { c.codeOr ⟨asid, gen, line⟩ with data := bs, perm := ⟨true, true, true, true⟩ }
  { c with code := l :: c.code.filter fun m => m.key != l.key }

/-- A hart made ready to fetch at the head of its line; an absent one is made resident, with the window of a whole launch (R15, R37). -/
def Hart.fetching (h : Hart) : Hart :=
  let h := if h.st == .absent then Hart.resident 8192 (viewsReset 8192) 0 0 else h
  { h.settle with pc := BitVec.ofNat 64 (h.pc.toNat / 128 % 2 ^ 48 * 128), st := .run, paused := false, stopped := false, frozen := false,
                  engErr := [], hand := none, tu := { h.tu with ie := 0 }, ts := { h.ts with ie := 0 }, tf := { h.tf with ie := 0 } }

/-- The state with an instruction's bytes in the CODE line at which the hart of the focused cell fetches next. -/
def State.withInstr (s : State) (bs : List Byte) : State :=
  let n := match s.cur with
    | .cell n => n
    | .core _ => s.cell.no
  let s := { s with agenda := [], cur := .cell n }
  let h := s.hart.fetching
  let s := s.setHart h
  let line := h.pc.toNat / 128
  let old := (s.cell.codeOr ⟨s.asid, s.gen s.asid, line⟩).data
  let s := s.mapCell fun c => { c.placeCode s.asid (s.gen s.asid) line (patch old 0 bs) with on := true, notice := false }
  s.putDie { s.dieAt (dieOf n) with tier := true }

end Sys2Proof.Machine
end

