-- ==== Sys2Proof/Machine/Step.lean ====
section
/-! DEFINITION. One step of the module: the agenda, else what is due, else the slot of the present agent (LOG 1). -/

namespace Sys2Proof.Machine

/-- One step. -/
def step (s : State) : Host.Outcome State Fault Refusal :=
  match s.agenda with
  | a :: rest => State.agendum { s with agenda := rest } a
  | [] => match s.due with
    | some t => .next t
    | none => s.cycle

/-- The state with an instruction's bits where the next step fetches it (LOG 6). -/
def State.withFetchWord (s : State) (nbits w : Nat) : State := s.withInstr (tableBytes nbits w)

end Sys2Proof.Machine
end

