-- ==== Sys2Proof/Safety.lean ====
section
/-! DEFINITION. What the statements about this machine are written in: outcomes, views, results, and what an instruction leaves as it was. -/

namespace Sys2Proof.Machine

/-- The step goes on: it answers a next state. Nothing stops the module (R294 stops a hart alone). -/
def Goes (o : Out) : Prop := ∃ t, o = .next t

/-- Every s index and every v index lies inside the issuing hart's views (R39). -/
abbrev InView (s : State) (ss vs : List Reg) : Prop := ss.all s.hart.sOk = true ∧ vs.all s.hart.vOk = true

/-- Nothing of the module but the issuing hart has changed: no byte of any memory, no other hart, no engine, no queue. -/
def OnlyHart (s t : State) : Prop := t = s.setHart t.hart

/-- The hart has completed its instruction: it runs on where the end check of R170 sends it, its loop registers and their pending writes as that
check leaves them. -/
def WentOn (h g : Hart) : Prop :=
  g.st = .run ∧ g.pc = h.complete.pc ∧ g.lcnt = h.complete.lcnt ∧ g.lsta = h.complete.lsta ∧ g.lend = h.complete.lend ∧
  g.pcnt = h.complete.pcnt ∧ g.psta = h.complete.psta ∧ g.pend = h.complete.pend

/-- The registers of the three trap blocks, and the level. -/
def BlocksKept (h g : Hart) : Prop := g.level = h.level ∧ g.tu = h.tu ∧ g.ts = h.ts ∧ g.tf = h.tf

/-- The state registers that no computation writes, and what the hart holds of tasks, records, sites, stores and engine errors. -/
def SpecialsKept (h g : Hart) : Prop :=
  BlocksKept h g ∧ g.views = h.views ∧ g.wsize = h.wsize ∧ g.fwl = h.fwl ∧ g.tcmp = h.tcmp ∧ g.hwin = h.hwin ∧ g.task = h.task ∧
  g.hand = h.hand ∧ g.held = h.held ∧ g.relAfter = h.relAfter ∧ g.stopped = h.stopped ∧ g.paused = h.paused ∧ g.frozen = h.frozen ∧
  g.chosen = h.chosen ∧ g.heldRec = h.heldRec ∧ g.engErr = h.engErr

/-- `fflags`, `rngs` and `fetry`. -/
def FlagsKept (h g : Hart) : Prop := g.fflags = h.fflags ∧ g.rngs = h.rngs ∧ g.fetry = h.fetry

/-- Every byte of the window outside `n` bytes at `a` reads as before. -/
def WindowKept (h g : Hart) (a n : Nat) : Prop := ∀ x, x < a ∨ a + n ≤ x → g.win.byte x = h.win.byte x

/-- Every sideband byte of the window outside `n` at `a` reads as before. -/
def SidebandKept (h g : Hart) (a n : Nat) : Prop := ∀ x, x < a ∨ a + n ≤ x → g.winSb.byte x = h.winSb.byte x

/-- The hart's s slot `d` holds `v`, and its window nothing else that is new; a write to s0 is discarded (R32, R140). -/
def WroteScalar (h g : Hart) (d : Reg) (v : Word) : Prop :=
  (if d = 0 then g.win = h.win else g.S d = v ∧ WindowKept h g (h.sAddr d.toNat) 8) ∧ g.winSb = h.winSb

/-- The instruction completes, writes `v` to s slot `d` and changes nothing else at all. -/
def ScalarResult (s : State) (i : Instr) (d : Reg) (v : Word) : Prop :=
  ∃ t, exec i s = .next t ∧ OnlyHart s t ∧ WentOn s.hart t.hart ∧ SpecialsKept s.hart t.hart ∧ FlagsKept s.hart t.hart ∧
    WroteScalar s.hart t.hart d v

/-- Rounding results (R147, R151): the instruction completes and writes a code of `w` bits, zero-extended; it sets the flags it raises and
clears none, and moves the random stream one step where it rounds stochastically. Nothing else changes. -/
def FloatResult (s : State) (i : Instr) (d : Reg) (w : Nat) (rm : Rm) (code flags : Nat) : Prop :=
  code < 2 ^ w ∧ ∃ t, exec i s = .next t ∧ OnlyHart s t ∧ WentOn s.hart t.hart ∧ SpecialsKept s.hart t.hart ∧
    t.hart.fetry = s.hart.fetry ∧ t.hart.fflags = s.hart.fflags ||| BitVec.ofNat 64 flags ∧
    t.hart.rngs = (if rm = .rst then s.hart.rngs + 0x9E3779B97F4A7C15 else s.hart.rngs) ∧
    WroteScalar s.hart t.hart d (BitVec.ofNat 64 code)

/-- Element `e` of `w` bits of a vector (R140). -/
def velem (w : Nat) (x : BitVec 512) (e : Nat) : BitVec w := x.extractLsb' (w * e) w

/-- The hart's v slot `d` alone is new: its 64 bytes and its two sideband bytes. -/
def VectorKept (h g : Hart) (d : Reg) : Prop := WindowKept h g (h.vAddr d.toNat) 64 ∧ SidebandKept h g (h.sbAddr d.toNat 0) 2

/-- The instruction completes, writes the elements `f` gives to v slot `d` and these two sideband bytes, and changes nothing else. -/
def VectorResult (s : State) (i : Instr) (d : Reg) (w : Nat) (f : Nat → BitVec w) (y0 y1 : Byte) : Prop :=
  ∃ t, exec i s = .next t ∧ OnlyHart s t ∧ WentOn s.hart t.hart ∧ SpecialsKept s.hart t.hart ∧ FlagsKept s.hart t.hart ∧
    (∀ e, e < 512 / w → velem w (t.hart.V d) e = f e) ∧ t.hart.sb d 0 = y0 ∧ t.hart.sb d 1 = y1 ∧ VectorKept s.hart t.hart d

/-- A vector instruction that rounds: flags are only set, and the random stream stands where it does not round stochastically; the
destination's sideband becomes zero (R203). The elements are stated where they do not depend on the stream. -/
def VectorRounded (s : State) (i : Instr) (d : Reg) (w : Nat) (rm : Rm) (f : Nat → Nat) : Prop :=
  ∃ t, exec i s = .next t ∧ OnlyHart s t ∧ WentOn s.hart t.hart ∧ SpecialsKept s.hart t.hart ∧ t.hart.fetry = s.hart.fetry ∧
    t.hart.fflags &&& s.hart.fflags = s.hart.fflags ∧
    (rm ≠ .rst → t.hart.rngs = s.hart.rngs ∧ ∀ e, e < 512 / w → velem w (t.hart.V d) e = BitVec.ofNat w (f e)) ∧
    t.hart.sb d 0 = 0 ∧ t.hart.sb d 1 = 0 ∧ VectorKept s.hart t.hart d

/-- The tree of R212, `n` levels deep, at its node `j`: neighbours are combined, the lower index on the left. -/
def pairTree (f : Nat → Nat → Nat) : Nat → (Nat → Nat) → Nat → Nat
  | 0, x, j => x j
  | n + 1, x, j => f (pairTree f n x (2 * j)) (pairTree f n x (2 * j + 1))

/-- The loop registers and their pending writes. -/
def LoopKept (h g : Hart) : Prop :=
  g.lcnt = h.lcnt ∧ g.lsta = h.lsta ∧ g.lend = h.lend ∧ g.pcnt = h.pcnt ∧ g.psta = h.psta ∧ g.pend = h.pend

/-- The instruction completes by going to `pc` with no end check, and changes the hart's pc alone. -/
def JumpsTo (s : State) (i : Instr) (pc : Word) : Prop :=
  ∃ t, exec i s = .next t ∧ OnlyHart s t ∧ t.hart.pc = pc ∧ t.hart.st = .run ∧ SpecialsKept s.hart t.hart ∧ FlagsKept s.hart t.hart ∧
    LoopKept s.hart t.hart ∧ t.hart.win = s.hart.win ∧ t.hart.winSb = s.hart.winSb

/-- The instruction completes with the issuing hart `g` in place of what it was, and the end check of R170 made on it; nothing else of the
module changes. -/
def HartResult (s : State) (i : Instr) (g : Hart) : Prop := exec i s = .next (s.setHart g.complete)


/-! ## LOCAL -/

/-- The byte belongs to the waiters word of a barrier object that some hart of the cell awaits: the cell keeps that word itself (R249). -/
def Awaited (c : Cell) (x : Nat) : Prop := ∃ k o p, (c.hart k).awaits = some (o, p) ∧ o + 8 ≤ x ∧ x < o + 16

/-- Every LOCAL byte outside `n` bytes at `o` reads as before, but for the waiters words that the cell keeps. -/
def LocalKept (c e : Cell) (o n : Nat) : Prop := ∀ x, (x < o ∨ o + n ≤ x) → ¬ Awaited c x → e.loc.byte x = c.loc.byte x

/-- The `n` bytes at LOCAL offset `o` are the low bytes of `v`, but for waiters words. -/
def LocalHolds (c e : Cell) (o n v : Nat) : Prop :=
  ∀ i, i < n → ¬ Awaited c (o + i) → e.loc.byte (o + i) = BitVec.ofNat 8 (v / 256 ^ i)

/-- Every sideband byte of LOCAL outside `n` granules from granule `g` on reads as before. -/
def LocalSbKept (c e : Cell) (g n : Nat) : Prop := ∀ x, x < g ∨ g + n ≤ x → e.locSb.byte x = c.locSb.byte x

/-- Nothing of the module but the focused cell has changed; of the cell, nothing but the issuing hart, LOCAL, its sideband, and which of its
other harts' waits have ended. -/
def OnlyLocal (s t : State) : Prop :=
  t = { s with cell := t.cell } ∧ t.cell = { s.cell with harts := t.cell.harts, loc := t.cell.loc, locSb := t.cell.locSb } ∧
  ∀ k, k ≠ s.cell.slot → t.cell.hart k = { s.cell.hart k with woken := (t.cell.hart k).woken }

/-- After an acquire of a scope wider than the cell's: the cell's CACHE holds no word that the cell has not registered (R106). -/
def RegisteredOnly (c : Cell) : Prop := ∀ l ∈ c.cache, l.valid &&& ~~~ l.regs = 0

/-- The object at LOCAL offset `o` holds these two words, the reserved bits of the second zero (R10, R113), but for waiters. -/
def ObjectHolds (c e : Cell) (o : Nat) (v : Word × Word) : Prop :=
  LocalHolds c e o 8 v.1.toNat ∧ LocalHolds c e (o + 8) 8 (v.2 &&& 0xFFFFFFFF0001).toNat

/-- The issuing hart completes and its registers stay. -/
def HartKept (h g : Hart) : Prop := WentOn h g ∧ SpecialsKept h g ∧ FlagsKept h g ∧ g.win = h.win ∧ g.winSb = h.winSb

/-- The state bit of the full/empty word at an offset (R103). -/
def fullBit (c : Cell) (o : Nat) : Bool := (c.locSb.byte (o / 32)).getLsbD (o / 8 % 4)

/-! ## Global memory -/

/-- The numbers the state keeps for its cells are the cells' own. Every step keeps it (`Obligations.StepsKeepTheInvariant`). -/
def Numbered (s : State) : Prop := (∀ n, s.cur = .cell n → s.cell.no = n) ∧ ∀ p ∈ s.others, p.2.no = p.1

/-- The invariant of the module: the cells' numbers are their own, and physical memory and its sideband keep their canonical form. -/
def Canonical (s : State) : Prop := Numbered s ∧ s.mem.phys.wf = true ∧ s.mem.physSb.wf = true

/-- A global address that steps 1 and 2 of R186 let through. -/
abbrev Aligned (x : Word) (n : Nat) : Prop := x.toNat % n = 0 ∧ x.toNat < 2 ^ 55

/-- Nothing about a line is in flight: no message, no busy directory entry; and no die's links are closed (R363, R370). -/
abbrev Settled (s : State) (k : LineKey) : Prop := s.net.closed = [] ∧ ∀ x ∈ s.coh, x.key = k → x.msgs = [] ∧ x.busy = none

/-- The line of an address of the hart's address space is on the dies, its rights allow the access, and nothing about it is in flight. -/
abbrev Served (s : State) (l : OLine) (n : Need) (x : Nat) : Prop :=
  s.asid ≠ 0 ∧ s.line? ⟨s.asid, s.gen s.asid, x / 128⟩ = some l ∧ l.perm.allows s.hart.level n = true ∧ l.data.length = 128 ∧ Settled s l.key

/-- The die owns the line, or may have it at once: it neither waits for it nor holds it in an eviction entry (R361, R364). -/
abbrev Ownable (s : State) (d : Nat) (k : LineKey) : Prop :=
  (s.cohLine k).writable d = true ∨ (s.cohLine k).evicting d = false ∧ (s.cohLine k).missing d = false

/-- The line of an address takes a store of the hart's die. -/
abbrev Storable (s : State) (l : OLine) (x : Nat) : Prop := Served s l .store x ∧ Ownable s s.myDie l.key

/-- The line of an address of ASID 0 that a Headstock hart at level S or F accesses is on the dies: below the direct windows, where its rights allow
the access, or in window A (R336, R390); nothing about it is in flight, and the Headstock may own it. -/
abbrev ServedCore (s : State) (l : OLine) (n : Need) (x : Nat) : Prop :=
  s.hart.level ≠ .u ∧ s.gen 0 = 0 ∧ s.line? ⟨0, 0, x / 128⟩ = some l ∧ l.data.length = 128 ∧ Settled s l.key ∧
    Ownable s 54 l.key ∧
    (x < 2 ^ 54 ∧ l.perm.allows s.hart.level n = true ∨ 2 ^ 54 ≤ x ∧ x / 2 ^ 52 % 8 = 4)

/-- Of the harts, none but Headstock core `n` has changed. -/
def CoreOnly (s t : State) (n : Nat) : Prop :=
  t.cur = s.cur ∧ t.cores = assocSet n t.hart s.cores ∧ ∀ c k, t.hartAt c k = s.hartAt c k

/-- The instruction waits for its data with its address unchanged (R19). -/
def WaitsFor (s : State) (i : Instr) (c : WaitCause) : Prop :=
  exec i s = .next (s.setHart { s.hart with st := .wait c, winstr := some i, woken := false, since := some (s.hart.since.getD s.tbase) })

/-- A byte of the on-die value of an ASID's line in its present generation. -/
def onDie (s : State) (asid va : Nat) : Option Byte :=
  (s.line? ⟨asid, s.gen asid, va / 128⟩).map fun l => l.data.getD (va % 128) 0

/-- No hart but the issuing one has changed. -/
def OthersKept (s t : State) : Prop :=
  t.cur = s.cur ∧ t.cell.no = s.cell.no ∧ t.cell.slot = s.cell.slot ∧
    ∀ c k, (c, k) ≠ (s.cell.no, s.cell.slot) → t.hartAt c k = s.hartAt c k

/-- LOCAL and MATRIX of every cell, with their sideband, are as before. -/
def BanksKept (s t : State) : Prop :=
  ∀ c, (t.cellAt c).loc = (s.cellAt c).loc ∧ (t.cellAt c).locSb = (s.cellAt c).locSb ∧ (t.cellAt c).mat = (s.cellAt c).mat ∧
    (t.cellAt c).matSb = (s.cellAt c).matSb

/-- Of the harts, none but the issuing one has changed. -/
def MineOnly (s t : State) : Prop :=
  match s.cur with
  | .cell _ => OthersKept s t
  | .core n => CoreOnly s t n

/-- The instruction has sent a miss of a kind for each of these addresses and lengths, and its hart, otherwise as it was, is in a state with the
misses to wait for (R19, R320). -/
def Asks (s : State) (i : Instr) (st : HartState) (k : MissKind) (xs : List (Nat × Nat)) : Prop :=
  ∃ t ms, exec i s = .next t ∧ t.hart.st = st ∧ t.hart.pc = s.hart.pc ∧ SpecialsKept s.hart t.hart ∧ FlagsKept s.hart t.hart ∧
    LoopKept s.hart t.hart ∧ t.hart.win = s.hart.win ∧ t.hart.winSb = s.hart.winSb ∧ t.hart.asks = s.hart.asks ++ ms.map (fun (m : Miss) => m.id) ∧
    MineOnly s t ∧ BanksKept s t ∧ t.mem = { s.mem with misses := s.mem.misses ++ ms } ∧
    ms.map (fun (m : Miss) => (m.kind, m.agent, m.slot, m.asid, m.level, m.va, m.size)) =
      xs.map fun x => (k, s.cur, s.cell.slot, s.asid, s.hart.level, x.1, x.2)

/-- An access of `n` bytes at an address is answered: its hart's misses have come, what they brought can be read, and the answer for the line is `g`,
no failure. -/
abbrev Came (s : State) (x : Word) (n : Nat) (g : Got) : Prop :=
  Aligned x n ∧ s.answeredHere = true ∧ s.deviceHere x.toNat = false ∧ s.hart.answer x.toNat = some g ∧ g.fault = none

/-- Of the memory system nothing has changed but on-die lines: no physical byte, no translation, no record, no device register. -/
def MemoryKept (s t : State) : Prop := t.mem = { s.mem with lines := t.mem.lines }

/-- On every line of every address space, the bytes are those of `f`. -/
def OnDieIs (t : State) (f : Nat → Nat → Option Byte) : Prop := ∀ asid va, onDie t asid va = f asid va

/-- On-die bytes with `n` bytes of one ASID replaced by the low bytes of `v`. -/
def stored (asid x n v : Nat) (f : Nat → Nat → Option Byte) : Nat → Nat → Option Byte :=
  fun b va => if b = asid ∧ x ≤ va ∧ va < x + n then some (BitVec.ofNat 8 (v / 256 ^ (va - x))) else f b va

/-- The little-endian value of `n` loaded bytes, extended as its width code says (R188). -/
def loadedWord (signed : Bool) (n : Nat) (bs : List Byte) : Word :=
  let v := leNat bs
  if signed then BitVec.ofInt 64 (if 2 * v < 2 ^ (8 * n) then (v : Int) else v - 2 ^ (8 * n)) else BitVec.ofNat 64 v

/-- Address of element `e` of `vgat` and `vsca`: base and signed index times the width (R193). -/
def elemAddr (h : Hart) (w : EW) (a b : Reg) (e : Nat) : Word :=
  h.S a + (velem w.bits (h.V b) e).signExtend 64 * BitVec.ofNat 64 (w.bits / 8)

/-- No task, or one outside REPLAY, holds the hart. -/
abbrev Direct (h : Hart) : Prop := h.replay = false

/-! ## Events -/

/-- Hart `k` of cell `c` is `h` now, and no other hart has changed. -/
def HartSet (s t : State) (c : Nat) (k : Slot) (h : Hart) : Prop :=
  t.hartAt c k = h ∧ ∀ c' k', (c', k') ≠ (c, k) → t.hartAt c' k' = s.hartAt c' k'

/-- A physical address at which a store lands: memory of a die that has neither failed nor refreshes itself, in a line free of error. -/
abbrev Sound (s : State) (pa : Nat) : Prop :=
  inStack pa = true ∧ s.failed (dieOfPa pa) = false ∧ s.refreshing (dieOfPa pa) = false ∧ s.mem.poison.contains (pa / 128) = false

/-- The event has happened, and no more than hart `k` of cell `c` has changed. -/
def EventSets (s : State) (i : Instr) (c : Nat) (k : Slot) (h : Hart) : Prop :=
  exec i s = .next (s.setHartAt c k h)

/-- A cell of the module is `e` now, and no other cell has changed. -/
def CellSet (s t : State) (e : Cell) : Prop := t.cellAt e.no = e ∧ ∀ n, n ≠ e.no → t.cellAt n = s.cellAt n

/-- What the messages of a line that are in flight say, oldest first (R362). -/
def CohLine.said (l : CohLine) : List CohMsg := l.msgs.map (·.msg)

/-- The record of a line is `y` now with messages that say `ms`, each of them on its way with its sender's number and incarnation (R374). -/
def LineIs (x y : CohLine) (ms : List CohMsg) : Prop :=
  { x with msgs := [] } = { y with msgs := [] } ∧ x.said = ms ∧ ∀ m ∈ x.msgs, m.stamp ≠ none

/-- The object at LOCAL offset `o` has taken a credit of `n` bytes, counted as an error where it is bad (R114). -/
def Credited (e f : Cell) (o n : Nat) (bad : Bool) : Prop :=
  let w (i : Nat) : Word := BitVec.ofNat 64 (leNat (e.loc.read (o + i) 8))
  ObjectHolds e f o (creditWords n bad (w 0) (w 8))

end Sys2Proof.Machine
end

