-- ==== Sys2Proof/Certificates/Slice0/Obligations.lean ====
section
/-! DEFINITION. The statements for the provers. -/

open Sys2Proof Sys2Proof.Machine

/-! ## Integers -/

/-- R154, R155, R156: every two-source integer instruction completes wherever its registers are in view, writes the value its row of the
table gives (products, quotients and shifts as bit vectors), and changes nothing else: no flag, no special register, no byte of any memory. -/
def Obligations.IntegerResults : Prop :=
  ∀ (s : State) (d a b : Reg), InView s [d, a, b] [] →
    let x := s.hart.S a
    let y := s.hart.S b
    let n := y.toNat % 64
    ∀ r ∈ ([(.add d a b, x + y), (.sub d a b, x - y), (.mul d a b, x * y),
      (.mulh d a b, (x.signExtend 128 * y.signExtend 128).extractLsb' 64 64),
      (.mulhn d a b, (x.zeroExtend 128 * y.zeroExtend 128).extractLsb' 64 64),
      (.div d a b, if y = 0 then BitVec.allOnes 64 else x.sdiv y), (.divn d a b, if y = 0 then BitVec.allOnes 64 else x / y),
      (.rem d a b, if y = 0 then x else x.srem y), (.remn d a b, if y = 0 then x else x % y),
      (.and d a b, x &&& y), (.or d a b, x ||| y), (.xor d a b, x ^^^ y), (.andn d a b, x &&& ~~~y), (.orn d a b, x ||| ~~~y),
      (.shl d a b, x <<< n), (.shr d a b, x >>> n), (.sra d a b, x.sshiftRight n), (.rol d a b, x.rotateLeft n),
      (.ror d a b, x.rotateRight n),
      (.min d a b, if x.sle y then x else y), (.max d a b, if x.sle y then y else x),
      (.minn d a b, if x ≤ y then x else y), (.maxn d a b, if x ≤ y then y else x),
      (.ceq d a b, if x = y then 1 else 0), (.cne d a b, if x = y then 0 else 1), (.clt d a b, if x.slt y then 1 else 0),
      (.cle d a b, if x.sle y then 1 else 0), (.cltn d a b, if x < y then 1 else 0), (.clen d a b, if x ≤ y then 1 else 0)] :
      List (Instr × Word)), ScalarResult s r.1 d r.2

/-- R157 to R163: immediates, one-source instructions, bit fields, `sel`, `lea` and the shifts by an immediate complete wherever their
registers are in view, write the value given here, and change nothing else. -/
def Obligations.UnaryResults : Prop :=
  ∀ (s : State) (d a b c : Reg) (imm : Word) (p l k : BitVec 6), InView s [d, a, b, c] [] → p.toNat + l.toNat + 1 ≤ 64 →
    let x := s.hart.S a
    let y := s.hart.S b
    let ones : Word := BitVec.ofNat 64 (2 ^ (l.toNat + 1) - 1)
    ∀ r ∈ ([(.addi d a imm, x + imm), (.li d imm, imm),
      (.abs d a, if x.slt 0 then 0 - x else x),
      (.clz d a, BitVec.ofNat 64 ((List.range 64).takeWhile fun i => !x.getMsbD i).length),
      (.ctz d a, BitVec.ofNat 64 ((List.range 64).takeWhile fun i => !x.getLsbD i).length),
      (.popc d a, BitVec.ofNat 64 ((List.range 64).filter fun i => x.getLsbD i).length),
      (.sext .w8 d a, (x.truncate 8).signExtend 64), (.sext .w16 d a, (x.truncate 16).signExtend 64),
      (.sext .w32 d a, (x.truncate 32).signExtend 64),
      (.zext .w8 d a, x &&& 0xFF), (.zext .w16 d a, x &&& 0xFFFF), (.zext .w32 d a, x &&& 0xFFFFFFFF),
      (.bext d a p l, (x >>> p.toNat) &&& ones), (.bins d a p l, (s.hart.S d &&& ~~~(ones <<< p.toNat)) ||| ((x &&& ones) <<< p.toNat)),
      (.sel d a b c, if s.hart.S c = 0 then y else x),
      (.lea d ⟨a, none, imm⟩, x + imm), (.lea d ⟨a, some (b, 0), imm⟩, x + y + imm), (.lea d ⟨a, some (b, 1), imm⟩, x + y * 2 + imm),
      (.lea d ⟨a, some (b, 2), imm⟩, x + y * 4 + imm), (.lea d ⟨a, some (b, 3), imm⟩, x + y * 8 + imm),
      (.shlImm d a k, x <<< k.toNat), (.shrImm d a k, x >>> k.toNat), (.sraImm d a k, x.sshiftRight k.toNat),
      (.rolImm d a k, x.rotateLeft k.toNat), (.rorImm d a k, x.rotateRight k.toNat)] : List (Instr × Word)), ScalarResult s r.1 d r.2

/-! ## Scalar floating point -/

/-- R173, R176, R180, R181, R184: every rounding scalar instruction completes in view, for every wide format, mode and operand, and writes
the code that `rnd` gives the exact result, with the flags of the operation and of the rounding; the random bits are those of one draw. -/
def Obligations.FloatRounds : Prop :=
  ∀ (s : State) (f : FF) (rm : Rm) (sat : Bool) (d a b c : Reg), InView s [d, a, b, c] [] →
    let F := wideSpec f
    let x := valueOf F (s.hart.S a).toNat
    let y := valueOf F (s.hart.S b).toNat
    let z := valueOf F (s.hart.S c).toNat
    let rb := if rm = .rst then s.hart.draw.1 % 2 ^ F.n else 0
    let out (p : FVal × Nat) (st : Bool) : Nat × Nat := ((rnd F rm st rb p.1).1, p.2 ||| (rnd F rm st rb p.1).2)
    ∀ r ∈ ([(.fadd f rm sat d a b, out (addV rm x y) sat), (.fsub f rm sat d a b, out (addV rm x (negV y)) sat),
      (.fmul f rm sat d a b, out (mulV x y) sat), (.fdiv f rm sat d a b, out (divV x y) sat), (.fsqrt f rm sat d a, out (sqrtV x) sat),
      (.fma f rm d a b c, out (fmaV rm false false x y z) false), (.fms f rm d a b c, out (fmaV rm false true x y z) false),
      (.fnma f rm d a b c, out (fmaV rm true false x y z) false), (.frnd f rm d a, frndCode F rm rb (s.hart.S a).toNat)] :
      List (Instr × Nat × Nat)), FloatResult s r.1 d F.bits rm r.2.1 r.2.2

/-- R177 to R179, R182: the scalar instructions that do not round. Minimum and maximum raise NV for a signalling NaN alone; sign operations
and `fclass` raise nothing; a comparison writes 0 or 1. -/
def Obligations.FloatExact : Prop :=
  ∀ (s : State) (f : FF) (d a b : Reg), InView s [d, a, b] [] →
    let F := wideSpec f
    let m : Word := BitVec.ofNat 64 (2 ^ F.bits - 1)
    let top : Word := BitVec.ofNat 64 (2 ^ (F.bits - 1))
    let A := s.hart.S a &&& m
    let B := s.hart.S b &&& m
    let x := valueOf F A.toNat
    let y := valueOf F B.toNat
    (∀ r ∈ ([(.fsgn f d a b, (A &&& ~~~top) ||| (B &&& top)), (.fabs f d a, A &&& ~~~top), (.fneg f d a, A ^^^ top),
      (.fclass f d a, (1 : Word) <<< classOf F A.toNat)] : List (Instr × Word)), ScalarResult s r.1 d r.2) ∧
    (∀ r ∈ ([(.fmin f d a b, minMax F false A.toNat B.toNat), (.fmax f d a b, minMax F true A.toNat B.toNat)] :
      List (Instr × Nat × Nat)), FloatResult s r.1 d F.bits .rne r.2.1 r.2.2) ∧
    (∀ r ∈ ([(.fcmpEq f d a b, .eq), (.fcmpLt f d a b, .lt), (.fcmpLe f d a b, .le), (.fcmpUn f d a b, .un), (.fcmpNe f d a b, .ne)] :
      List (Instr × FCond)), FloatResult s r.1 d 1 .rne (if (compareV r.2 x y).1 then 1 else 0) (compareV r.2 x y).2)

/-- R184: `fcvt` from every format into every format: a signalling NaN raises NV; an integer result is sign-extended to the slot from a
signed format and zero-extended from an unsigned one. -/
def Obligations.FloatConverts : Prop :=
  ∀ (s : State) (td ts : Fmt) (rm : Rm) (sat : Bool) (d a : Reg), InView s [d, a] [] → td.legal = true → ts.legal = true →
    let x := fmtValue ts (s.hart.S a).toNat
    let nv := if x.isSig then flagNV else 0
    match td with
    | .int sgn w => FloatResult s (.fcvt td ts rm sat d a) d 64 .rne (BitVec.ofInt 64 (rndInt w.bits sgn rm x).1).toNat
        (nv ||| (rndInt w.bits sgn rm x).2)
    | _ =>
      let F := specOf td
      let rb := if rm = .rst then s.hart.draw.1 % 2 ^ F.n else 0
      FloatResult s (.fcvt td ts rm sat d a) d F.bits rm (rnd F rm sat rb x).1 (nv ||| (rnd F rm sat rb x).2)

/-- R147: rounding a value that a code of the format has, in any mode and under any random bits, gives a code of that value and raises no
flag: what lies on the grid rounds to itself, in every wide, binary8 and storage format; a saturating rounding keeps the finite codes and puts
the largest finite code of its sign in an infinity's place, with SA and NX. R149: an integer rounds to itself where the format holds it, and
to the nearer bound with NV where it does not; a NaN gives 0 with NV. -/
def Obligations.RoundingKeepsCodes : Prop :=
  (∀ (F : FSpec) (rm : Rm) (rb code : Nat),
     (∃ td : Fmt, td.legal = true ∧ F = specOf td) ∨ (∃ st : StFmt, st.legal = true ∧ F = storageSpec st) → rb < 2 ^ F.n →
     match valueOf F code with
     | .nan q => ∀ sat, rnd F rm sat rb (.nan q) = (F.nan, 0)
     | .inf neg => rnd F rm false rb (.inf neg) = (code % 2 ^ F.bits, 0) ∧ rnd F rm true rb (.inf neg) = (signed F neg F.top, flagSA ||| flagNX)
     | x => ∀ sat, rnd F rm sat rb x = (code % 2 ^ F.bits, 0)) ∧
  (∀ (k : Nat) (sgn : Bool) (rm : Rm) (v : Int), 0 < k → k ≤ 64 →
     let lo : Int := if sgn then -(2 ^ (k - 1)) else 0
     let hi : Int := if sgn then 2 ^ (k - 1) - 1 else 2 ^ k - 1
     rndInt k sgn rm (.fin (decide (v < 0)) v.natAbs 0 false) =
       (if v < lo then (lo, flagNV) else if hi < v then (hi, flagNV) else (v, 0)) ∧
     rndInt k sgn rm (.nan false) = (0, flagNV))

/-- R144: a storage code widened to its binary8 format and narrowed again is the same code. -/
def Obligations.WideningNarrowsBack : Prop :=
  ∀ (f : StFmt) (code : Nat), f.legal = true → code < 2 ^ (storageSpec f).bits → narrow f (widen f code) = code

/-! ## Vectors -/

/-- R203, R206, R207: the element-wise integer vector instructions, at every element width: each element of the destination is the operation
on the elements of A and B alone (and on its own old value for `vmac`), and the sideband is A's. -/
def Obligations.VectorIntegerResults : Prop :=
  ∀ (s : State) (w : EW) (d a b : Reg), InView s [] [d, a, b] →
    let A := velem w.bits (s.hart.V a)
    let B := velem w.bits (s.hart.V b)
    let C := velem w.bits (s.hart.V d)
    let n (e : Nat) := (B e).toNat % w.bits
    ∀ r ∈ ([(.vadd w d a b, fun e => A e + B e), (.vsub w d a b, fun e => A e - B e), (.vmul w d a b, fun e => A e * B e),
      (.vmac w d a b, fun e => C e + A e * B e),
      (.vmin w d a b, fun e => if (A e).sle (B e) then A e else B e), (.vmax w d a b, fun e => if (A e).sle (B e) then B e else A e),
      (.vminU w d a b, fun e => if A e ≤ B e then A e else B e), (.vmaxU w d a b, fun e => if A e ≤ B e then B e else A e),
      (.vand w d a b, fun e => A e &&& B e), (.vor w d a b, fun e => A e ||| B e), (.vxor w d a b, fun e => A e ^^^ B e),
      (.vshl w d a b, fun e => A e <<< n e), (.vshr w d a b, fun e => A e >>> n e), (.vsra w d a b, fun e => (A e).sshiftRight (n e)),
      (.vabs w d a, fun e => if (A e).slt 0 then -A e else A e), (.vneg w d a, fun e => -A e)] :
      List (Instr × (Nat → BitVec w.bits))), VectorResult s r.1 d w.bits r.2 (s.hart.sb a 0) (s.hart.sb a 1)

/-- R203, R211: the arrangements. `vbcast` makes the sideband zero, `vins` leaves it, and the others copy A's. R208 to R210: compares write
one bit for each element, and zero above; the mask instructions work on the low E bits; `vsel` chooses each element by its bit of S(c). -/
def Obligations.VectorArrangementsAndMasks : Prop :=
  (∀ (s : State) (w : EW) (d a b : Reg),
     let E := 512 / w.bits
     let A := velem w.bits (s.hart.V a)
     let B := velem w.bits (s.hart.V b)
     let x := s.hart.S a
     let y := (s.hart.S b).toNat
     let sa (g : Nat) := s.hart.sb a g
     (InView s [] [d, a, b] →
       (∀ r ∈ ([(.vperm w d a b, fun e => A ((B e).toNat % E)),
         (.vzipLo w d a b, fun e => if e % 2 = 0 then A (e / 2) else B (e / 2)),
         (.vzipHi w d a b, fun e => if e % 2 = 0 then A (E / 2 + e / 2) else B (E / 2 + e / 2)),
         (.vunzipEv w d a b, fun e => if e < E / 2 then A (2 * e) else B (2 * (e - E / 2))),
         (.vunzipOd w d a b, fun e => if e < E / 2 then A (2 * e + 1) else B (2 * (e - E / 2) + 1))] :
         List (Instr × (Nat → BitVec w.bits))), VectorResult s r.1 d w.bits r.2 (sa 0) (sa 1))) ∧
     (InView s [b] [d, a] →
       VectorResult s (.vslideUp w d a b) d w.bits (fun e => if y ≤ e then A (e - y) else 0) (sa 0) (sa 1) ∧
       VectorResult s (.vslideDn w d a b) d w.bits (fun e => if e + y < E then A (e + y) else 0) (sa 0) (sa 1)) ∧
     (InView s [a] [d] → VectorResult s (.vbcast w d a) d w.bits (fun _ => x.setWidth w.bits) 0 0) ∧
     (InView s [a, b] [d] → VectorResult s (.vins w d a b) d w.bits
       (fun e => if e = y % E then x.setWidth w.bits else velem w.bits (s.hart.V d) e) (s.hart.sb d 0) (s.hart.sb d 1)) ∧
     (InView s [d, b] [a] → ScalarResult s (.vextr w d a b) d ((A (y % E)).setWidth 64))) ∧
  (∀ (s : State) (w : EW) (d a b c : Reg),
     let E := 512 / w.bits
     let A := velem w.bits (s.hart.V a)
     let B := velem w.bits (s.hart.V b)
     let x := s.hart.S a
     let y := s.hart.S b
     let low : Word := BitVec.ofNat 64 (2 ^ E - 1)
     (InView s [d] [a, b] →
       ∀ r ∈ ([(.vcmpEq w d a b, fun e => A e == B e), (.vcmpNe w d a b, fun e => A e != B e), (.vcmpLt w d a b, fun e => (A e).slt (B e)),
         (.vcmpLe w d a b, fun e => (A e).sle (B e)), (.vcmpLtU w d a b, fun e => (A e).ult (B e)),
         (.vcmpLeU w d a b, fun e => (A e).ule (B e))] : List (Instr × (Nat → Bool))),
         ∃ v, ScalarResult s r.1 d v ∧ ∀ e, e < 64 → v.getLsbD e = (decide (e < E) && r.2 e)) ∧
     (InView s [d, a, b] [] →
       ∀ r ∈ ([(.mand w d a b, x &&& y &&& low), (.mor w d a b, (x ||| y) &&& low), (.mnot w d a, ~~~x &&& low),
         (.mpopc w d a, BitVec.ofNat 64 ((List.range E).filter fun i => x.getLsbD i).length)] : List (Instr × Word)),
         ScalarResult s r.1 d r.2) ∧
     (InView s [c] [d, a, b] → VectorResult s (.vsel w d a b c) d w.bits (fun e => if (s.hart.S c).getLsbD e then A e else B e)
       (s.hart.sb a 0) (s.hart.sb a 1)))

/-- R212, R213: the integer reductions: the sum modulo 2^64 of the sign-extended elements, and the largest or smallest element, extended as
its signedness says. -/
def Obligations.VectorReductions : Prop :=
  ∀ (s : State) (w : EW) (d a : Reg), InView s [d] [a] →
    let E := 512 / w.bits
    let sx (e : Nat) : Word := (velem w.bits (s.hart.V a) e).signExtend 64
    let zx (e : Nat) : Word := (velem w.bits (s.hart.V a) e).setWidth 64
    ScalarResult s (.vredsum w d a) d ((List.range E).foldl (fun v e => v + sx e) 0) ∧
    (∃ v, ScalarResult s (.vredmax w d a) d v ∧ (∃ e, e < E ∧ v = sx e) ∧ ∀ e, e < E → (sx e).sle v) ∧
    (∃ v, ScalarResult s (.vredmin w d a) d v ∧ (∃ e, e < E ∧ v = sx e) ∧ ∀ e, e < E → v.sle (sx e)) ∧
    (∃ v, ScalarResult s (.vredmaxU w d a) d v ∧ (∃ e, e < E ∧ v = zx e) ∧ ∀ e, e < E → zx e ≤ v) ∧
    (∃ v, ScalarResult s (.vredminU w d a) d v ∧ (∃ e, e < E ∧ v = zx e) ∧ ∀ e, e < E → v ≤ zx e)

/-- R203, R214 to R216: the element-wise floating vector instructions complete for every format but f64, set flags alone, and make the
sideband zero; in the modes that draw nothing each element is rounded by itself. R212, R217, R218: floating reductions and compares of vectors
complete for every format but f64 and write a scalar slot: the root of the tree of R212, each of whose steps rounds a sum or takes the larger or
the smaller of two codes, or a bit for each element; flags are only set. -/
def Obligations.VectorFloats : Prop :=
  (∀ (s : State) (f : FF) (rm : Rm) (sat : Bool) (d a b : Reg), f ≠ .f64 → InView s [] [d, a, b] →
     let F := wideSpec f
     let A (e : Nat) := (velem F.bits (s.hart.V a) e).toNat
     let B (e : Nat) := (velem F.bits (s.hart.V b) e).toNat
     let C (e : Nat) := (velem F.bits (s.hart.V d) e).toNat
     let v (x : Nat) := valueOf F x
     let r0 (x : FVal) (st : Bool) : Nat := (rnd F rm st 0 x).1
     ∀ r ∈ ([(.vfadd f rm sat d a b, rm, fun e => r0 (addV rm (v (A e)) (v (B e))).1 sat),
       (.vfsub f rm sat d a b, rm, fun e => r0 (addV rm (v (A e)) (negV (v (B e)))).1 sat),
       (.vfmul f rm sat d a b, rm, fun e => r0 (mulV (v (A e)) (v (B e))).1 sat),
       (.vfma f rm d a b, rm, fun e => r0 (fmaV rm false false (v (A e)) (v (B e)) (v (C e))).1 false),
       (.vfrcp f rm sat d a, rm, fun e => r0 (divV (.fin false 1 0 false) (v (A e))).1 sat),
       (.vfexp2 f rm sat d a, rm, fun e => r0 (exp2V (v (A e))).1 sat),
       (.vfmax f d a b, .rne, fun e => (minMax F true (A e) (B e)).1), (.vfmin f d a b, .rne, fun e => (minMax F false (A e) (B e)).1)] :
       List (Instr × Rm × (Nat → Nat))), VectorRounded s r.1 d F.bits r.2.1 r.2.2) ∧
  (∀ (s : State) (f : FF) (rm : Rm) (sat : Bool) (d a b : Reg), f ≠ .f64 → InView s [d] [a, b] →
     let F := wideSpec f
     let code (e : Nat) := (velem F.bits (s.hart.V a) e).toNat
     let A (e : Nat) := valueOf F (code e)
     let B (e : Nat) := valueOf F (velem F.bits (s.hart.V b) e).toNat
     let root (step : Nat → Nat → Nat) : Nat := pairTree step (if F.bits = 32 then 4 else 5) code 0
     let ends (i : Instr) (p : Word → Prop) : Prop :=
       ∃ t v, exec i s = .next t ∧ OnlyHart s t ∧ WentOn s.hart t.hart ∧ SpecialsKept s.hart t.hart ∧ t.hart.fetry = s.hart.fetry ∧
         t.hart.fflags &&& s.hart.fflags = s.hart.fflags ∧ WroteScalar s.hart t.hart d v ∧ p v
     (ends (.vfredsum f rm sat d a) fun v => v.toNat < 2 ^ F.bits ∧
       (rm ≠ .rst → v.toNat = root fun x y => (rnd F rm sat 0 (addV rm (valueOf F x) (valueOf F y)).1).1)) ∧
     (ends (.vfredmax f d a) fun v => v.toNat = root fun x y => (minMax F true x y).1) ∧
     (ends (.vfredmin f d a) fun v => v.toNat = root fun x y => (minMax F false x y).1) ∧
     (∀ r ∈ ([(.vfcmpEq f d a b, .eq), (.vfcmpLt f d a b, .lt), (.vfcmpLe f d a b, .le), (.vfcmpUn f d a b, .un)] : List (Instr × FCond)),
       ends r.1 fun v => ∀ e, e < 64 → v.getLsbD e = (decide (e < 512 / F.bits) && (compareV r.2 (A e) (B e)).1)))

/-- R145, R203, R219 to R223: conversions of vectors. `vcvt` and `vdeq` make the sideband zero. `vcvt` between formats of one width converts every
element; to a narrower one it writes the part that `part` names and leaves the other elements; to a wider one it reads that part. `vquant` writes
the two scale bytes that R152 chooses and rounds each value, scaled, to its code; `vsclg` and `vscls` read and write the sideband alone. -/
def Obligations.VectorConversions : Prop :=
  ∀ (s : State) (td ts tb : Fmt) (ff : FF) (rm : Rm) (sat : Bool) (d a b : Reg) (part : BitVec 2), ff ≠ .f64 → tb.isB8 = true → tb.legal = true →
    (InView s [] [d, a] → vcvtLegal td ts rm part = true →
      let conv (e : Nat) : Nat :=
        let x := fmtValue ts (velem ts.bits (s.hart.V a) e).toNat
        match td with
        | .int sgn w => ((rndInt w.bits sgn rm x).1 % 2 ^ td.bits).toNat
        | _ => (rnd (specOf td) rm sat 0 x).1
      let from_ := part.toNat * (512 / ts.bits)
      VectorRounded s (.vcvt td ts rm sat d a part) d td.bits rm (fun e =>
        if td.bits = ts.bits then conv e
        else if ts.bits < td.bits then conv (part.toNat * (512 / td.bits) + e)
        else if from_ ≤ e ∧ e < from_ + 512 / ts.bits then conv (e - from_)
        else (velem td.bits (s.hart.V d) e).toNat)) ∧
    (InView s [] [d, a] → vcvtLegal td ts rm part = true → ∃ t, exec (.vcvt td ts rm sat d a part) s = .next t ∧ OnlyHart s t ∧
      WentOn s.hart t.hart ∧ SpecialsKept s.hart t.hart ∧ t.hart.sb d 0 = 0 ∧ t.hart.sb d 1 = 0 ∧ VectorKept s.hart t.hart d ∧
      (td.bits < ts.bits → ∀ e, e < 512 / td.bits → (e < part.toNat * (512 / ts.bits) ∨ (part.toNat + 1) * (512 / ts.bits) ≤ e) →
        velem td.bits (t.hart.V d) e = velem td.bits (s.hart.V d) e)) ∧
    (InView s [] [d, a] → vdeqLegal ff tb part = true →
      VectorRounded s (.vdeq ff tb d a part) d (wideSpec ff).bits .rne (fun e =>
        let k := part.toNat * (512 / (wideSpec ff).bits) + e
        (rnd (wideSpec ff) .rne false 0
          (scaledValue (specOf tb) (velem 8 (s.hart.V a) k).toNat (s.hart.sb a (k / 32)))).1)) ∧
    (InView s [] (d :: groupRegs ff a ++ groupRegs ff b) → ∃ t, exec (.vquant tb ff rm sat d a b) s = .next t ∧ OnlyHart s t ∧
      WentOn s.hart t.hart ∧ SpecialsKept s.hart t.hart ∧
      t.hart.sb d 0 = BitVec.ofInt 8 (blockScale (specOf tb) (s.hart.group ff a) + 127) ∧
      t.hart.sb d 1 = BitVec.ofInt 8 (blockScale (specOf tb) (s.hart.group ff b) + 127) ∧ VectorKept s.hart t.hart d ∧
      t.hart.fetry = s.hart.fetry ∧ t.hart.fflags &&& s.hart.fflags = s.hart.fflags ∧
      (rm ≠ .rst → t.hart.rngs = s.hart.rngs ∧ ∀ e, e < 64 →
        let g := s.hart.group ff (if e < 32 then a else b)
        velem 8 (t.hart.V d) e =
          BitVec.ofNat 8 (rnd (specOf tb) rm sat 0 (scaleV (g.getD (e % 32) (.nan false)) (-blockScale (specOf tb) g))).1)) ∧
    (InView s [d] [a] → ScalarResult s (.vsclg d a) d ((s.hart.sb a 1 ++ s.hart.sb a 0).setWidth 64)) ∧
    (InView s [a] [d] → VectorResult s (.vscls d a) d 8 (velem 8 (s.hart.V d)) ((s.hart.S a).extractLsb' 0 8) ((s.hart.S a).extractLsb' 8 8))

/-! ## Control, loops, traps -/

/-- R165, R170: a taken branch goes to pc plus its offset and makes no end check; one not taken goes on as R170 says. R166, R167, R169:
`call` and `calli` write the return address after the target is read, and go there; a target that is no multiple of 4 raises the misaligned
trap and writes nothing; `loop` sets the loop registers, drops every pending write of theirs, and skips the body when the count is 0. -/
def Obligations.BranchesAndCalls : Prop :=
  (∀ (s : State) (a b : Reg) (off : Word), InView s [a, b] [] →
     let x := s.hart.S a
     let y := s.hart.S b
     ∀ r ∈ ([(.beq a b off, decide (x = y)), (.bne a b off, decide (x ≠ y)), (.blt a b off, x.slt y), (.bge a b off, y.sle x),
       (.bltn a b off, x.ult y), (.bgen a b off, y.ule x)] : List (Instr × Bool)),
       if r.2 then JumpsTo s r.1 (s.hart.pc + off)
       else ∃ t, exec r.1 s = .next t ∧ OnlyHart s t ∧ WentOn s.hart t.hart ∧ SpecialsKept s.hart t.hart ∧ FlagsKept s.hart t.hart ∧
         t.hart.win = s.hart.win) ∧
  (∀ (s : State) (d a : Reg) (off : Word),
     let h := s.hart
     let links (i : Instr) (pc : Word) : Prop :=
       ∃ t, exec i s = .next t ∧ OnlyHart s t ∧ t.hart.pc = pc ∧ t.hart.st = .run ∧ SpecialsKept h t.hart ∧ FlagsKept h t.hart ∧
         LoopKept h t.hart ∧ WroteScalar h t.hart d h.npc
     (InView s [d] [] → links (.call d off) (h.pc + off)) ∧
     (InView s [d, a] [] → (h.S a).toNat % 4 = 0 → links (.calli d a) (h.S a)) ∧
     (InView s [d, a] [] → (h.S a).toNat % 4 ≠ 0 → exec (.calli d a) s = s.trap .misaligned (h.S a)) ∧
     (InView s [a] [] → (h.pc + off).toNat % 4 = 0 → ∃ t, exec (.loop a off) s = .next t ∧ OnlyHart s t ∧ t.hart.st = .run ∧
       t.hart.lcnt = h.S a ∧ t.hart.lsta = h.npc ∧ t.hart.lend = (h.pc + off) ||| BitVec.ofNat 64 h.level.code ∧
       (t.hart.pcnt, t.hart.psta, t.hart.pend) = (none, none, none) ∧
       t.hart.pc = (if h.S a = 0 then h.pc + off else h.npc) ∧ SpecialsKept h t.hart ∧ FlagsKept h t.hart ∧ t.hart.win = h.win))

/-- R170, R171: an instruction that completes at the loop's level with its next pc at the loop's end goes back to the loop's start while more
than one round is left, and falls through, the loop done, in the last one; a pending count takes the count's place there, less this round, and a
pending start and end take effect with the return. Elsewhere the loop registers and what is pending stay. -/
def Obligations.LoopEndCheck : Prop :=
  ∀ (h : Hart),
    let atEnd := h.lcnt ≠ 0 ∧ h.level.code = h.lend.toNat % 4 ∧ h.npc = h.lend &&& ~~~3
    let left : Word := match h.pcnt with
      | some w => if w = 0 then 0 else w - 1
      | none => h.lcnt - 1
    let c := h.complete
    (atEnd → left ≠ 0 → c.pc = ((h.psta.getD h.lsta) &&& ~~~3) ∧ c.lcnt = left ∧ c.lsta = h.psta.getD h.lsta ∧ c.lend = h.pend.getD h.lend ∧
      (c.pcnt, c.psta, c.pend) = (none, none, none)) ∧
    (atEnd → left = 0 → c.pc = h.npc ∧ c.lcnt = 0 ∧ (c.pcnt, c.psta, c.pend) = (none, none, none)) ∧
    (¬ atEnd → c.pc = h.npc ∧ (c.lcnt, c.lsta, c.lend) = (h.lcnt, h.lsta, h.lend) ∧ (c.pcnt, c.psta, c.pend) = (h.pcnt, h.psta, h.pend))

/-- R281: a trap raised in place of an instruction writes the cause, the value and the trap pc of its target level, saves the interrupt
enable and the level in that level's status, disables interrupts there, and goes to that level's vector; the slots of the window and the
other levels' registers stay. R281, R294: where no level from the target up has a vector, a cell's hart stops in PARK: its task, if any, fails
as by `tabt` with detail 0xFFFFFF and nothing of what it staged, its stop is told to the Headstock, and its registers stay. R281: the target of a trap. A privilege trap of U and a service call of U go to S, those of S and F to F; any
other cause goes to F, or down to S and to U where each level above delegates it, and never below the level that raised it. -/
def Obligations.TrapEntry : Prop :=
  (∀ (s : State) (c : Cause) (v : Word) (m : Level),
     let h := s.hart
     let code := c.code h.level
     h.vectored (h.target code) = some m →
       ∃ t, s.trap c v = .next t ∧ OnlyHart s t ∧
         let b := h.block m
         let b' := t.hart.block m
         t.hart.level = m ∧ t.hart.st = .run ∧ t.hart.pc = (b.vec &&& ~~~3) ∧
         b'.cause = BitVec.ofNat 64 code ∧ b'.val = v ∧ b'.pc = (h.pc &&& ~~~3) ∧
         b'.stat.getLsbD 0 = false ∧ b'.stat.getLsbD 1 = b.stat.getLsbD 0 ∧ b'.stat.extractLsb' 2 2 = BitVec.ofNat 2 h.level.code ∧
         b'.stat.extractLsb' 4 60 = b.stat.extractLsb' 4 60 ∧ b'.vec = b.vec ∧ b'.ie = b.ie ∧ b'.ip = b.ip ∧ b'.scr = b.scr ∧ b'.del = b.del ∧
         (∀ k, k ≠ m → t.hart.block k = h.block k) ∧ t.hart.win = h.win ∧ t.hart.winSb = h.winSb ∧ FlagsKept h t.hart ∧
         (t.hart.lcnt, t.hart.lsta, t.hart.lend, t.hart.views, t.hart.task) = (h.lcnt, h.lsta, h.lend, h.views, h.task)) ∧
  (∀ (s : State) (c : Cause) (v : Word) (no : Nat), s.cur = .cell no → Numbered s →
     let h := s.hart
     h.vectored (h.target (c.code h.level)) = none →
       ∃ t, s.trap c v = .next t ∧ OthersKept s t ∧ BanksKept s t ∧ t.mem = s.mem ∧
         t.hart.st = .park false ∧ t.hart.stopped = true ∧ BlocksKept h t.hart ∧ FlagsKept h t.hart ∧ t.hart.win = h.win ∧
         t.hart.winSb = h.winSb ∧ t.hart.pc = h.pc ∧ (t.hart.lcnt, t.hart.lsta, t.hart.lend, t.hart.views) = (h.lcnt, h.lsta, h.lend, h.views) ∧
         t.hart.task = h.task.map (fun k => { k with stage := [], spawns := [], checks := [], ending := some (.failed 0x20 0xFFFFFF) }) ∧
         (s.head.hsq.length < 64 → t.head = { s.head with hsq := s.head.hsq ++ [(s.hartId, 1)] }) ∧
         (64 ≤ s.head.hsq.length → t.head = { s.head with hsqWait := s.head.hsqWait ++ [(s.hartId, 1)] })) ∧
  (∀ (h : Hart) (c : Cause),
     let code := c.code h.level
     (h.level.code ≤ (h.target code).code) ∧
     (c = .privilege ∨ c = .service → h.target code = if h.level = .u then .s else .f) ∧
     (c ≠ .privilege → c ≠ .service →
       h.target code =
         if h.level = .f ∨ h.tf.del.getLsbD code = false then .f
         else if h.level = .s ∨ h.ts.del.getLsbD code = false then .s else .u))

/-- R283, R284: `trap 0` is the breakpoint trap and `trap k` a service call with k as its value, raised at the caller's level; `eret`
restores the level and the enable that the status holds, sets the saved enable, and goes to the saved pc. R74: where slot 0 returns so from its
swap interrupt (cause 0x8000000000000004), its cell is counted among those whose handler has returned, and nothing else of the swap changes. R390: on
a Headstock hart an `eret` to U raises the privilege trap in its place. R281, R284: the return from a
trap's handler undoes its entry: the level and the interrupt enable are those of the trapped instruction, and the pc is the instruction's
own. -/
def Obligations.TrapsAndReturns : Prop :=
  (∀ (s : State) (k : BitVec 6),
     let h := s.hart
     let b := h.block h.level
     exec (.trap k) s = (if k = 0 then s.trap .breakpoint 0 else s.trap .service (k.setWidth 64)) ∧
     (s.isCore = true → b.stat.toNat / 4 % 4 = 0 → exec .eret s = s.trap .privilege s.firstWord) ∧
     let returns (g : Hart) : Prop := g.st = .run ∧ g.pc = b.pc ∧ g.level = Level.ofCode (b.stat.toNat / 4 % 4) ∧
       (g.block h.level).stat.getLsbD 0 = b.stat.getLsbD 1 ∧ (g.block h.level).stat.getLsbD 1 = true ∧
       (g.block h.level).stat.extractLsb' 2 62 = b.stat.extractLsb' 2 62 ∧
       (∀ m, m ≠ h.level → g.block m = h.block m) ∧ g.win = h.win ∧ FlagsKept h g
     let swaps (n : Nat) (v : Serving) (u : Team) (w : Swap) : Prop := s.cur = .cell n ∧ s.cell.slot.val = 0 ∧ h.level = .s ∧
       h.ts.cause = 0x8000000000000004 ∧ s.cell.serving = some v ∧ s.team? v.launch v.team = some u ∧ u.swap = some w
     ((s.isCore = true → b.stat.toNat / 4 % 4 ≠ 0) → (∀ n v u w, ¬ swaps n v u w) → ∃ t, exec .eret s = .next t ∧ OnlyHart s t ∧ returns t.hart) ∧
     ∀ n v u w, swaps n v u w → ∃ t, exec .eret s = .next t ∧ t = ({ s with launches := t.launches }).setHart t.hart ∧ returns t.hart ∧
       t.team? v.launch v.team = some { u with swap := some { w with back := n :: w.back } }) ∧
  (∀ (h : Hart) (m : Level) (cause val pc : Word), pc.toNat % 4 = 0 →
     let g := (h.enter m cause val pc).eret
     g.pc = pc ∧ g.level = h.level ∧ (g.block m).stat.getLsbD 0 = (h.block m).stat.getLsbD 0 ∧ g.win = h.win ∧ g.winSb = h.winSb ∧
     (∀ k, k ≠ m → g.block k = h.block k))

/-! ## State registers -/

/-- R276, R277, R390: `stget` of every listed register, at its level or above, writes its value to S(d) and changes nothing else. A Headstock hart
reads its core number and die 63 from `hplace`, 0 from the other placement registers, and at F its window's size from `hwin`; the cycle of the
cell's clock that it has not is a free value (LOG 2). -/
def Obligations.StateRegisterReads : Prop :=
  ∀ (s : State) (d : Reg) (n : Nat), InView s [d] [] →
    let h := s.hart
    let get (n : Nat) (v : Word) : Prop := ScalarResult s (.stget d (BitVec.ofNat 12 n)) d v
    (∀ r ∈ ([(0, h.fflags), (1, h.rngs), (2, h.fetry), (3, h.fwl), (4, h.views), (8, h.pcnt.getD h.lcnt), (9, h.psta.getD h.lsta),
      (10, h.pend.getD h.lend), (12, h.tcmp), (0x11, BitVec.ofNat 64 s.tbase)] : List (Nat × Word)), get r.1 r.2) ∧
    (∀ no, s.cur = .cell no →
      ∀ r ∈ ([(0x10, BitVec.ofNat 64 s.cell.cycle), (0x12, s.hplace), (0x13, s.cpos), (0x14, s.tplace), (0x15, s.lid), (0x18, s.pstat)] :
        List (Nat × Word)), get r.1 r.2) ∧
    (∀ no, s.cur = .core no →
      (∀ r ∈ ([(0x12, BitVec.ofNat 64 (no % 64 + 63 * 2 ^ 24)), (0x13, 0), (0x14, 0), (0x15, 0)] : List (Nat × Word)), get r.1 r.2) ∧
      (h.level = .f → get 0x16 h.hwin) ∧
      exec (.stget d 0x10) s = .next (({ s with free := s.free + 1 }).setHart (h.setS d (Config.freeValue s.free)).complete)) ∧
    (∀ m : Level, m.code ≤ h.level.code → n = 0x100 * (m.code + 1) →
      let b := h.block m
      let timer : Word := if h.tcmp ≠ 0 ∧ h.tcmp.toNat ≤ s.tbase ∧ m = (if h.ts.del.getLsbD 32 then .u else .s) then 1 else 0
      (∀ r ∈ ([(n, b.stat), (n + 1, b.vec), (n + 2, b.cause), (n + 3, b.val), (n + 4, b.pc), (n + 5, b.ie), (n + 6, b.ip ||| timer),
        (n + 7, b.scr)] : List (Nat × Word)), get r.1 r.2) ∧ (m ≠ .u → get (n + 8) b.del))

/-- R10, R151, R276 to R279, R282: `stset` writes the bits of S(d) that a register has, where its own rule allows it, and nothing else; bits
it does not have read zero. A loop register that no loop active at the hart's level uses takes its value at once, in the place of an earlier
pending one; while one is active the value is pending (R171). `views` takes what fits the window (R38) and, on a sweep hart, leaves its site in
view (R87). `hwin` of a Headstock hart sets its window's size where `views` fits it, and raises the illegal-register trap where it does not (R390); its
interrupt registers hold its notices (R391). A one written to a pending bit that software may clear clears it. -/
def Obligations.StateRegisterWrites : Prop :=
  ∀ (s : State) (d : Reg) (n : Nat) (m : Level), InView s [d] [] → m.code ≤ s.hart.level.code → n = 0x100 * (m.code + 1) →
    let h := s.hart
    let x := h.S d
    let core := s.isCore
    let set (n : Nat) (g : Hart) : Prop := HartResult s (.stset d (BitVec.ofNat 12 n)) g
    let b := h.block m
    let put (n : Nat) (c : TrapBlock) : Prop := set n (h.setBlock m c)
    set 0 { h with fflags := x &&& 0x3F } ∧ set 1 { h with rngs := x } ∧ set 2 { h with fetry := x &&& 1 } ∧
    set 3 { h with fwl := x &&& 0xFFFFFFFF } ∧ set 12 { h with tcmp := x } ∧
    (let active := h.lcnt ≠ 0 ∧ h.level.code = h.lend.toNat % 4
     (¬ active → set 8 { h with lcnt := x, pcnt := none } ∧ set 9 { h with lsta := x &&& ~~~3, psta := none } ∧
       (x.toNat % 4 ≠ 3 → set 10 { h with lend := x, pend := none })) ∧
     (active → set 8 { h with pcnt := some x } ∧ set 9 { h with psta := some (x &&& ~~~3) } ∧
       (x.toNat % 4 ≠ 3 → set 10 { h with pend := some x }))) ∧
    (let v := x &&& viewsMask
     Hart.viewsFit h.wsize v = true → (core = true ∨ s.sweepHart s.cell.no s.cell.slot = false ∨
       ∃ f, s.cellField s.cell.no = some f ∧ 9 ≤ v.toNat / 2 ^ 8 % 2 ^ 7 ∧ f.vNeed ≤ v.toNat / 2 ^ 24 % 2 ^ 6) → set 4 { h with views := v }) ∧
    (let w := (x.toNat % 32 + 1) * 256
     core = true → h.level = .f →
       (Hart.viewsFit w h.views = true → set 0x16 { h with hwin := x &&& 31, wsize := w }) ∧
       (Hart.viewsFit w h.views = false → exec (.stset d 0x16) s = s.trap .illegalReg s.firstWord)) ∧
    (x.toNat / 4 % 4 ≤ m.code → put n { b with stat := x &&& 0xF }) ∧
    put (n + 1) { b with vec := x &&& ~~~3 } ∧ put (n + 2) { b with cause := x &&& 0x800000000000001F } ∧ put (n + 3) { b with val := x } ∧
    put (n + 4) { b with pc := x &&& ~~~3 } ∧ put (n + 5) { b with ie := if m = .s then (x &&& (if core then 0x7E3 else 3)) ||| 0x1C else x &&& 3 } ∧
    put (n + 6) { b with ip := b.ip &&& ~~~(x &&& (if m = .s then (if core then 0x7FE else 0x1E) else 2)) } ∧ put (n + 7) { b with scr := x } ∧
    (m ≠ .u → put (n + 8) { b with del := x &&& (if m = .s then 0x3FFFF87FB else 0xFFFF87FB) })

/-- R276, R277: `stswp` of every register that may be written at the hart's level, the trap blocks of the levels below it among them, gives S(d) the value
it reads before and the register the old S(d), as `stset` would write it. R38, R87: so it does of `views`, S(d) lying in the view that the instruction
issued under, which is the model's reading (LOG 18); on a sweep hart `views` is written where its site stays in view. R285: `ienb` and
`idis` give the old enable of the issuing level and set it. R288: `view` writes `views` where R38 and R87 allow it. -/
def Obligations.SwapsAndEnables : Prop :=
  ∀ (s : State) (d a : Reg) (v : BitVec 32), InView s [d, a] [] →
    let h := s.hart
    let core := s.isCore
    let b := h.block h.level
    let fits (v : Word) : Prop := Hart.viewsFit h.wsize v = true ∧ (core = true ∨ s.sweepHart s.cell.no s.cell.slot = false ∨
      ∃ f, s.cellField s.cell.no = some f ∧ 9 ≤ v.toNat / 2 ^ 8 % 2 ^ 7 ∧ f.vNeed ≤ v.toNat / 2 ^ 24 % 2 ^ 6)
    let old := b.stat.getLsbD 0
    let x := h.S d
    let swp (n : Nat) (was : Word) (f : Hart → Hart) : Prop := HartResult s (.stswp d (BitVec.ofNat 12 n)) (f (h.setS d was))
    swp 0 h.fflags (fun g => { g with fflags := x &&& 0x3F }) ∧ swp 1 h.rngs (fun g => { g with rngs := x }) ∧
    swp 2 h.fetry (fun g => { g with fetry := x &&& 1 }) ∧ swp 3 h.fwl (fun g => { g with fwl := x &&& 0xFFFFFFFF }) ∧
    swp 12 h.tcmp (fun g => { g with tcmp := x }) ∧
    (let w := (x.toNat % 32 + 1) * 256
     core = true → h.level = .f → Hart.viewsFit w h.views = true → swp 0x16 h.hwin (fun g => { g with hwin := x &&& 31, wsize := w })) ∧
    (fits (x &&& viewsMask) → swp 4 h.views (fun g => { g with views := x &&& viewsMask })) ∧
    (let active := h.lcnt ≠ 0 ∧ h.level.code = h.lend.toNat % 4
     let cnt := h.pcnt.getD h.lcnt
     let sta := h.psta.getD h.lsta
     let end_ := h.pend.getD h.lend
     (¬ active → swp 8 cnt (fun g => { g with lcnt := x, pcnt := none }) ∧ swp 9 sta (fun g => { g with lsta := x &&& ~~~3, psta := none }) ∧
       (x.toNat % 4 ≠ 3 → swp 10 end_ (fun g => { g with lend := x, pend := none }))) ∧
     (active → swp 8 cnt (fun g => { g with pcnt := some x }) ∧ swp 9 sta (fun g => { g with psta := some (x &&& ~~~3) }) ∧
       (x.toNat % 4 ≠ 3 → swp 10 end_ (fun g => { g with pend := some x })))) ∧
    (∀ m : Level, m.code ≤ h.level.code →
     let b := h.block m
     let put (o : Nat) (was : Word) (c : TrapBlock) : Prop := swp (0x100 * (m.code + 1) + o) was fun g => g.setBlock m c
     let s1 := m = .s
     let timer : Word := if h.tcmp ≠ 0 ∧ h.tcmp.toNat ≤ s.tbase ∧ m = (if h.ts.del.getLsbD 32 then .u else .s) then 1 else 0
     (x.toNat / 4 % 4 ≤ m.code → put 0 b.stat { b with stat := x &&& 0xF }) ∧
     put 1 b.vec { b with vec := x &&& ~~~3 } ∧ put 2 b.cause { b with cause := x &&& 0x800000000000001F } ∧ put 3 b.val { b with val := x } ∧
     put 4 b.pc { b with pc := x &&& ~~~3 } ∧ put 5 b.ie { b with ie := if s1 then (x &&& (if core then 0x7E3 else 3)) ||| 0x1C else x &&& 3 } ∧
     put 6 (b.ip ||| timer) { b with ip := b.ip &&& ~~~(x &&& (if s1 then (if core then 0x7FE else 0x1E) else 2)) } ∧ put 7 b.scr { b with scr := x } ∧
     (m ≠ .u → put 8 b.del { b with del := x &&& (if s1 then 0x3FFFF87FB else 0xFFFF87FB) })) ∧
    HartResult s (.ienb d) ((h.setBlock h.level { b with stat := b.stat ||| 1 }).setS d (if old then 1 else 0)) ∧
    HartResult s (.idis d) ((h.setBlock h.level { b with stat := b.stat &&& ~~~1 }).setS d (if old then 1 else 0)) ∧
    (fits (h.S a &&& viewsMask) → HartResult s (.view (.reg a)) { h with views := h.S a &&& viewsMask }) ∧
    (fits (v.setWidth 64 &&& viewsMask) → HartResult s (.view (.imm v)) { h with views := v.setWidth 64 &&& viewsMask })

/-- R39: an s or v index outside its view raises the illegal-register trap, with the instruction's first word, in place of its effect. R276:
a number that is not listed, a write to a read-only register and a write that breaks a register's own rule raise the illegal-register trap;
an access below the register's level raises the privilege trap; the registers and S(d) stay. R275, R292, R293: an instruction above the
hart's level raises the privilege trap with its first word and has no other effect; `launch` and `fsvc` do so at every level of a cell's
hart, and `fsvc` below F on a Headstock hart. R390: what acts on a cell's LOCAL, engines, tasks, fields or banks raises the illegal-instruction trap on
a Headstock hart; that it does so for an index out of view too is the model's choice, R136 giving that trap no place of its own (LOG 46). R185, R191: a LOCAL access whose offset is no multiple of its width raises the misaligned trap, and one that leaves LOCAL the
access-fault trap, with the offset as trap value; nothing is read or written. -/
def Obligations.InstructionTraps : Prop :=
  (∀ (s : State) (d a b c : Reg) (w : EW) (mw : MW) (sw : SW) (sc : Scope) (f : FF) (rm : Rm) (sat tr : Bool) (fm fn : Fmt) (sf : StFmt) (imm off : Word)
      (m : MemOp) (k : BitVec 6) (p : BitVec 2) (p3 q3 : BitVec 3) (k5 : BitVec 5), s.hart.st = .run →
     let t := s.trap .illegalReg s.firstWord
     (∀ i ∈ ([.add d a b, .sub d a b, .mul d a b, .mulh d a b, .mulhn d a b, .div d a b, .divn d a b, .rem d a b, .remn d a b, .and d a b, .or d a b,
       .xor d a b, .andn d a b, .orn d a b, .shl d a b, .shr d a b, .sra d a b, .rol d a b, .ror d a b, .min d a b, .max d a b, .minn d a b,
       .maxn d a b, .ceq d a b, .cne d a b, .clt d a b, .cle d a b, .cltn d a b, .clen d a b, .fadd f rm sat d a b, .fsub f rm sat d a b,
       .fmul f rm sat d a b, .fdiv f rm sat d a b, .fmin f d a b, .fmax f d a b, .fsgn f d a b, .fcmpEq f d a b, .fcmpLt f d a b, .fcmpLe f d a b,
       .fcmpUn f d a b, .fcmpNe f d a b, .mand w d a b, .mor w d a b, .amoAdd sc d a b, .amoAnd sc d a b, .amoOr sc d a b, .amoXor sc d a b,
       .amoMin sc d a b, .amoMax sc d a b, .amoMinn sc d a b, .amoMaxn sc d a b, .amoSwp sc d a b, .amoCas sc d a b] : List Instr),
       ¬ InView s [d, a, b] [] → exec i s = t) ∧
     (∀ i ∈ ([.addi d a imm, .abs d a, .clz d a, .ctz d a, .popc d a, .calli d a, .sext w d a, .zext w d a, .mnot w d a, .mpopc w d a, .bext d a k k,
       .bins d a k k, .shlImm d a k, .shrImm d a k, .sraImm d a k, .rolImm d a k, .rorImm d a k, .fsqrt f rm sat d a, .fabs f d a, .fneg f d a,
       .fclass f d a, .frnd f rm d a, .fcvt fm fn rm sat d a, .ldAcq sw sc d a off, .ldStr sw sc d a off, .stRel sw sc d a off, .stStr sw sc d a off,
       .beq d a off, .bne d a off, .blt d a off, .bge d a off, .bltn d a off, .bgen d a off] : List Instr),
       ¬ InView s [d, a] [] → exec i s = t) ∧
     (∀ i ∈ ([.li d imm, .call d off, .tick d, .ident d k, .ienb d, .idis d, .stget d 0, .stset d 0, .stswp d 0, .loop d off, .pf d off, .sleep d,
       .cln d, .inv d, .view (.reg d)] : List Instr),
       ¬ InView s [d] [] → exec i s = t) ∧
     (∀ i ∈ ([.sel d a b c, .fma f rm d a b c, .fms f rm d a b c, .fnma f rm d a b c] : List Instr),
       ¬ InView s [d, a, b, c] [] → exec i s = t) ∧
     (∀ i ∈ ([.lea d m, .ld mw d m, .st mw d m] : List Instr),
       ¬ InView s (d :: regsOf m) [] → exec i s = t) ∧
     (∀ i ∈ ([.vadd w d a b, .vsub w d a b, .vmul w d a b, .vmac w d a b, .vmin w d a b, .vmax w d a b, .vand w d a b, .vor w d a b, .vxor w d a b,
       .vshl w d a b, .vshr w d a b, .vsra w d a b, .vminU w d a b, .vmaxU w d a b, .vperm w d a b, .vzipLo w d a b, .vzipHi w d a b,
       .vunzipEv w d a b, .vunzipOd w d a b, .vfadd f rm sat d a b, .vfsub f rm sat d a b, .vfmul f rm sat d a b, .vfma f rm d a b, .vfmax f d a b,
       .vfmin f d a b] : List Instr),
       ¬ InView s [] [d, a, b] → exec i s = t) ∧
     (∀ i ∈ ([.vabs w d a, .vneg w d a, .vfrcp f rm sat d a, .vfexp2 f rm sat d a, .vcvt fm fn rm sat d a p, .vdeq f fm d a p] : List Instr),
       ¬ InView s [] [d, a] → exec i s = t) ∧
     (∀ i ∈ ([.vcmpEq w d a b, .vcmpNe w d a b, .vcmpLt w d a b, .vcmpLe w d a b, .vcmpLtU w d a b, .vcmpLeU w d a b, .vfcmpEq f d a b,
       .vfcmpLt f d a b, .vfcmpLe f d a b, .vfcmpUn f d a b] : List Instr),
       ¬ InView s [d] [a, b] → exec i s = t) ∧
     (∀ i ∈ ([.vredsum w d a, .vredmax w d a, .vredmin w d a, .vredmaxU w d a, .vredminU w d a, .vfredsum f rm sat d a, .vfredmax f d a,
       .vfredmin f d a, .vsclg d a] : List Instr),
       ¬ InView s [d] [a] → exec i s = t) ∧
     (∀ i ∈ ([.vbcast w d a, .vscls d a, .ldv d a off, .stv d a off] : List Instr),
       ¬ InView s [a] [d] → exec i s = t) ∧
     (¬ InView s [d, b] [a] → exec (.vextr w d a b) s = t) ∧ (¬ InView s [a, b] [d] → exec (.vins w d a b) s = t ∧ exec (.ldvs w d a b) s = t) ∧
     (¬ InView s [b] [d, a] → exec (.vslideUp w d a b) s = t ∧ exec (.vslideDn w d a b) s = t) ∧
     (¬ InView s [a] [d, b] → exec (.vgat w d a b) s = t ∧ exec (.vsca w d a b) s = t) ∧ (¬ InView s [c] [d, a, b] → exec (.vsel w d a b c) s = t) ∧
     (¬ InView s [] ([d, a, b] ++ if f = .f32 then [a + 1, b + 1] else []) → exec (.vquant fm f rm sat d a b) s = t) ∧
     (s.hart.level ≠ .u →
       (∀ i ∈ ([.ptstGrant d a, .ptstRetract d a, .ptstHold d a, .ptstMove d a, .genb d a] : List Instr),
         ¬ InView s [d, a] [] → exec i s = t) ∧ (¬ InView s [d] [] → exec (.clnp d) s = t)) ∧
     (s.isCore = true → (s.hart.level ≠ .u → ¬ InView s [d, a] [] → exec (.launch d a) s = t) ∧
       (s.hart.level = .f → ¬ InView s [d, a, b] [] → exec (.fsvc d a b) s = t)) ∧
     (s.isCore = false →
       (∀ i ∈ ([.mstr d a b, .macrd d a b, .tcopy d a b, .tpack sf d a b, .tunpk sf d a b, .barv d a b, .bwait true d a b, .tbar true d a b,
         .fstop d a b, .fphase d a b, .fwaitb tr d a b, .sget d a b, .cplc d a b, .bern d a b, .samp d a b] : List Instr),
         ¬ InView s [d, a, b] [] → exec i s = t) ∧
       (∀ i ∈ ([.ldfeK tr d a off, .ldfeE tr d a off, .stfe tr d a off, .stfer tr d a, .mlds d a, .bexp d a, .btest d a, .tspawn d a, .evget d a,
         .bwait false b d a, .tbar false b d a, .fdecl d a, .fstart d a, .fpause d a, .snap d a, .fmig d a, .rngf d a] : List Instr),
         ¬ InView s [d, a] [] → exec i s = t) ∧
       (∀ i ∈ ([.feset d off, .feclr d off, .macz d, .mfmt d, .bini d, .tabt d, .sput d, .mstat d, .rng d, .pool d p3 q3 k5, .poolq d k] : List Instr),
         ¬ InView s [d] [] → exec i s = t) ∧
       (¬ InView s (d :: regsOf m) [] → exec (.ldl mw d m) s = t ∧ exec (.stl mw d m) s = t) ∧
       (¬ InView s [a] [d] → exec (.ldvl d a off) s = t ∧ exec (.stvl d a off) s = t))) ∧
  (∀ (s : State) (w : MW) (tr : Bool) (f : StFmt) (d a b : Reg) (m : MemOp) (off : Word) (p q : BitVec 3) (k : BitVec 5) (x : BitVec 6), s.isCore = true →
     ∀ i ∈ ([.ldfeK tr d a off, .ldfeE tr d a off, .stfe tr d a off, .stfer tr d a, .feset a off, .feclr a off, .ldl w d m, .stl w d m, .ldvl d a off,
       .stvl d a off, .mlds d a, .mswp, .mstr d a b, .macz a, .macrd d a b, .mfmt a, .mstat d, .mwait, .tend, .tcopy d a b, .tpack f d a b,
       .tunpk f d a b, .bini a, .bexp a b, .barv d a b, .bwait tr d a b, .btest d a, .waitw, .tabt a, .tspawn d a, .evget d a, .tbar tr d a b] ++
       [.fdecl d a, .fstart d a, .fstop d a b, .fpause d a, .fphase d a b, .fwaitb tr d a b, .sget d a b, .sput a, .snap d a, .cplc d a b, .fmig d a,
       .rng d, .rngf d a, .bern d a b, .samp d a b, .pool d p q k, .poolq d x] : List Instr),
       s.hart.st = .run → exec i s = s.trap .illegal s.firstWord) ∧
  (∀ (s : State) (d : Reg) (n : BitVec 12),
     let illegal (i : Instr) : Prop := exec i s = s.trap .illegalReg s.firstWord
     let all (p : Instr → Prop) : Prop := p (.stget d n) ∧ p (.stset d n) ∧ p (.stswp d n)
     (stateReg s.isCore n.toNat = none → all illegal) ∧
     (∀ l w, stateReg s.isCore n.toNat = some (l, w) → s.hart.level.code < l.code → all fun i => exec i s = s.trap .privilege s.firstWord) ∧
     (∀ l, stateReg s.isCore n.toNat = some (l, false) → l.code ≤ s.hart.level.code → illegal (.stset d n) ∧ illegal (.stswp d n)) ∧
     (∀ m : Level, m.code ≤ s.hart.level.code → n.toNat = 0x100 * (m.code + 1) → m.code < (s.hart.S d).toNat / 4 % 4 →
       illegal (.stset d n) ∧ (d ≠ 0 → illegal (.stswp d n))) ∧
     (n = 4 → Hart.viewsFit s.hart.wsize (s.hart.S d &&& viewsMask) = false → illegal (.stset d n))) ∧
  (∀ (s : State) (d a b : Reg),
     let t := s.trap .privilege s.firstWord
     (s.hart.level ≠ .f → exec .halt s = t) ∧
     (s.hart.level = .u → ∀ i ∈ ([.clnp a, .ptstGrant a b, .ptstRetract a b, .ptstHold a b, .ptstMove a b, .genb d a] : List Instr), exec i s = t) ∧
     (s.isCore = false ∨ s.hart.level = .u → exec (.launch d a) s = t) ∧ (s.isCore = false ∨ s.hart.level ≠ .f → exec (.fsvc d a b) s = t)) ∧
  (∀ (s : State) (w : MW) (d a : Reg) (m : MemOp) (off : Word), s.isCore = false →
     let n := MW.bytes w
     let x := s.hart.address m
     let y := s.hart.S a + off
     (InView s (d :: regsOf m) [] →
       (x.toNat % n ≠ 0 → exec (.ldl w d m) s = s.trap .misaligned x ∧ exec (.stl w d m) s = s.trap .misaligned x) ∧
       (x.toNat % n = 0 → s.cell.localSize < x.toNat + n → exec (.ldl w d m) s = s.trap .access x ∧ exec (.stl w d m) s = s.trap .access x)) ∧
     (InView s [a] [d] →
       (y.toNat % 64 ≠ 0 → exec (.ldvl d a off) s = s.trap .misaligned y ∧ exec (.stvl d a off) s = s.trap .misaligned y) ∧
       (y.toNat % 64 = 0 → s.cell.localSize < y.toNat + 64 → exec (.ldvl d a off) s = s.trap .access y ∧
         exec (.stvl d a off) s = s.trap .access y)))

/-! ## LOCAL -/

/-- R40, R188, R191: loads from LOCAL. An aligned offset inside LOCAL completes: `ldl` writes the little-endian value of its width, sign- or
zero-extended; `ldvl` writes 64 bytes and the two sideband bytes. Nothing else changes, no byte of any memory among it. R32, R191, R193:
stores to LOCAL. An aligned offset inside LOCAL completes: `stl` writes the low bytes of S(d), and the sideband stays; `stvl` writes the
slot and its sideband bytes. Every other byte of LOCAL reads as before, and every other memory and register stays; the waiters word of an
awaited barrier object is the cell's own (R249). -/
def Obligations.LocalAccesses : Prop :=
  (∀ (s : State) (w : MW) (d : Reg) (m : MemOp) (a : Reg) (off : Word), s.isCore = false →
     let o := (s.hart.address m).toNat
     let n := MW.bytes w
     let v := leNat (s.cell.loc.read o n)
     let p := (s.hart.S a + off).toNat
     (InView s (d :: regsOf m) [] → o % n = 0 → o + n ≤ s.cell.localSize →
       ScalarResult s (.ldl w d m) d (match w with
         | .i8 | .i16 | .i32 => BitVec.ofInt 64 (if 2 * v < 2 ^ (8 * n) then (v : Int) else v - 2 ^ (8 * n))
         | _ => BitVec.ofNat 64 v)) ∧
     (InView s [a] [d] → p % 64 = 0 → p + 64 ≤ s.cell.localSize →
       VectorResult s (.ldvl d a off) d 8 (fun e => s.cell.loc.byte (p + e)) (s.cell.locSb.byte (p / 32)) (s.cell.locSb.byte (p / 32 + 1)))) ∧
  (∀ (s : State) (w : MW) (d : Reg) (m : MemOp) (a : Reg) (off : Word) (no : Nat), s.cur = .cell no →
     let o := (s.hart.address m).toNat
     let n := MW.bytes w
     let p := (s.hart.S a + off).toNat
     (InView s (d :: regsOf m) [] → o % n = 0 → o + n ≤ s.cell.localSize → ∃ t, exec (.stl w d m) s = .next t ∧ OnlyLocal s t ∧
       HartKept s.hart t.hart ∧ LocalHolds s.cell t.cell o n (s.hart.S d).toNat ∧ LocalKept s.cell t.cell o n ∧ t.cell.locSb = s.cell.locSb) ∧
     (InView s [a] [d] → p % 64 = 0 → p + 64 ≤ s.cell.localSize → ∃ t, exec (.stvl d a off) s = .next t ∧ OnlyLocal s t ∧
       HartKept s.hart t.hart ∧ LocalHolds s.cell t.cell p 64 (s.hart.V d).toNat ∧ LocalKept s.cell t.cell p 64 ∧
       t.cell.locSb.byte (p / 32) = s.hart.sb d 0 ∧ t.cell.locSb.byte (p / 32 + 1) = s.hart.sb d 1 ∧ LocalSbKept s.cell t.cell (p / 32) 2))

/-- R103, R116, R198 to R200: full/empty words of the cell. `ldfe.k` and `ldfe.e` complete on a full word and give its value, `ldfe.e`
leaving it empty; `stfe` completes on an empty word, stores and leaves it full; `feset` and `feclr` write the state bit alone; `.try` writes
`fetry` 1. Where the word is in the other state, a `.try` completes with `fetry` 0 and changes neither, and any other waits, until the limit of R71. The state of every other word and every byte of LOCAL but the stored word's stay. R117, R201: a waiting `stfer` whose attempt was
accepted completes, and writes `fetry` 1 where it is a `.try`; a `.try` that was refused completes with 0. -/
def Obligations.FullEmptyWords : Prop :=
  (∀ (s : State) (tr : Bool) (d a : Reg) (off : Word) (no : Nat), s.cur = .cell no → InView s [d, a] [] →
     let x := (s.hart.S a + off).toNat
     let full := fullBit s.cell x
     let h := s.hart
     let word := BitVec.ofNat 64 (leNat (s.cell.loc.read x 8))
     (∀ c y, h.check ≠ .failed c y) → x % 8 = 0 → x + 8 ≤ s.cell.localSize →
     let kept (t : State) (after : Bool) : Prop :=
       OnlyLocal s t ∧ WentOn h t.hart ∧ SpecialsKept h t.hart ∧ t.hart.fflags = h.fflags ∧ t.hart.rngs = h.rngs ∧
       fullBit t.cell x = after ∧ ∀ y, y / 8 ≠ x / 8 → fullBit t.cell y = fullBit s.cell y
     let tried (t : State) (ok : Word) : Prop := t.hart.fetry = if tr then ok else h.fetry
     (full = true → ∃ t, exec (.ldfeK tr d a off) s = .next t ∧ kept t true ∧ tried t 1 ∧ WroteScalar h t.hart d word ∧ t.cell.loc = s.cell.loc) ∧
     (full = true → ∃ t, exec (.ldfeE tr d a off) s = .next t ∧ kept t false ∧ tried t 1 ∧ WroteScalar h t.hart d word ∧
       t.cell.loc = s.cell.loc) ∧
     (full = false → ∃ t, exec (.stfe tr d a off) s = .next t ∧ kept t true ∧ tried t 1 ∧ t.hart.win = h.win ∧
       LocalHolds s.cell t.cell x 8 (h.S d).toNat ∧ LocalKept s.cell t.cell x 8) ∧
     (∃ t, exec (.feset a off) s = .next t ∧ kept t true ∧ t.hart.fetry = h.fetry ∧ t.hart.win = h.win ∧ t.cell.loc = s.cell.loc) ∧
     (∃ t, exec (.feclr a off) s = .next t ∧ kept t false ∧ t.hart.fetry = h.fetry ∧ t.hart.win = h.win ∧ t.cell.loc = s.cell.loc) ∧
     let refused (i : Instr) : Prop := ∃ t, exec i s = .next t ∧ kept t full ∧ tried t 0 ∧ t.hart.win = h.win ∧ t.cell.loc = s.cell.loc
     (tr = true → (full = false → refused (.ldfeK tr d a off) ∧ refused (.ldfeE tr d a off)) ∧ (full = true → refused (.stfe tr d a off))) ∧
     let waits (i : Instr) : Prop := (h.st = .run → WaitsFor s i .fullEmpty) ∧
       (h.st = .wait .fullEmpty → (∀ t0, h.since = some t0 → s.tbase < t0 + h.fwl.toNat) → exec i s = .next s)
     tr = false → (full = false → waits (.ldfeK tr d a off) ∧ waits (.ldfeE tr d a off)) ∧ (full = true → waits (.stfe tr d a off))) ∧
  (∀ (s : State) (d a : Reg), s.hart.st = .wait .remote →
     let h := s.hart
     (h.req = .answered 1 → HartResult s (.stfer false d a) h ∧ HartResult s (.stfer true d a) { h with fetry := 1 }) ∧
     (h.req = .answered 0 → HartResult s (.stfer true d a) { h with fetry := 0 }))

/-- R113, R114: the arithmetic of a barrier object. An expectation adds to the expected bytes and a credit to the arrived ones, each stopping at
its largest value; a bad credit counts one error. When something is expected and as much has arrived, the expectation is taken off what
arrived, the phase turns and the waiters are cleared; the errors survive. -/
def Obligations.BarrierArithmetic : Prop :=
  ∀ (w0 w1 : Word) (n : Nat) (bad : Bool),
    let e := w0.toNat % 2 ^ 32
    let r := w0.toNat / 2 ^ 32
    let e' := min (e + n) 0xFFFFFFFF
    let r' := min (r + n) 0xFFFFFFFF
    let errors := (w1.extractLsb' 16 16).toNat
    let x := expectWords n w0 w1
    let c := creditWords n bad w0 w1
    let turned (v : Word) : Prop := v.getLsbD 0 = !w1.getLsbD 0 ∧ v.extractLsb' 32 16 = 0
    (e' ≠ 0 → e' ≤ r → x.1.toNat = (r - e') * 2 ^ 32 ∧ turned x.2 ∧ (x.2.extractLsb' 16 16).toNat = errors) ∧
    (r < e' → x.1.toNat = e' + r * 2 ^ 32 ∧ x.2 = w1) ∧
    (e ≠ 0 → e ≤ r' → c.1.toNat = (r' - e) * 2 ^ 32 ∧ turned c.2) ∧
    (e = 0 ∨ r' < e → c.1.toNat = e + r' * 2 ^ 32 ∧ c.2.getLsbD 0 = w1.getLsbD 0 ∧ c.2.extractLsb' 32 16 = w1.extractLsb' 32 16) ∧
    (c.2.extractLsb' 16 16).toNat = (if bad then min (errors + 1) 0xFFFF else errors) ∧
    x.2.extractLsb' 1 15 = w1.extractLsb' 1 15 ∧ c.2.extractLsb' 1 15 = w1.extractLsb' 1 15 ∧
    x.2.extractLsb' 48 16 = w1.extractLsb' 48 16 ∧ c.2.extractLsb' 48 16 = w1.extractLsb' 48 16

/-- R10, R248, R249: the barrier instructions on an aligned object inside LOCAL. `bini` makes the object zero, `bexp` and `barv`
make one step of it, `barv` giving the phase before, `btest` tells its state, and `bwait` completes at once where the phase is the one asked for, and enters WAIT among the object's waiters where it is
not; what is stored lies in the object's sixteen bytes, its reserved bits zero; the waiters of awaited objects are the cell's own. `btest` and a passed `bwait` are acquires: the cell's CACHE keeps registered words alone. -/
def Obligations.BarrierObjects : Prop :=
  ∀ (s : State) (tr : Bool) (d a b : Reg) (no : Nat), s.cur = .cell no → InView s [d, a, b] [] → s.hart.st = .run →
    let h := s.hart
    let o := (h.S a).toNat
    let w0 := BitVec.ofNat 64 (leNat (s.cell.loc.read o 8))
    let w1 := BitVec.ofNat 64 (leNat (s.cell.loc.read (o + 8) 8))
    let phase := w1.getLsbD 0
    o % 16 = 0 → o + 16 ≤ s.cell.localSize →
    let stored (t : State) (v0 v1 : Word) : Prop := OnlyLocal s t ∧ LocalKept s.cell t.cell o 16 ∧ t.cell.locSb = s.cell.locSb ∧
      ObjectHolds s.cell t.cell o (v0, v1)
    let passed (t : State) : Prop := WentOn h t.hart ∧ SpecialsKept h t.hart ∧ FlagsKept h t.hart ∧ t = { s with cell := t.cell } ∧
      t.cell = { s.cell with harts := t.cell.harts, cache := t.cell.cache } ∧
        (∀ k, k ≠ s.cell.slot → t.cell.hart k = s.cell.hart k) ∧ RegisteredOnly t.cell
    (∃ t, exec (.bini a) s = .next t ∧ HartKept h t.hart ∧ stored t 0 0) ∧
    (∃ t, exec (.bexp a b) s = .next t ∧ HartKept h t.hart ∧
      stored t (expectWords (h.S b).toNat w0 w1).1 (expectWords (h.S b).toNat w0 w1).2) ∧
    (∃ t, exec (.barv d a b) s = .next t ∧ WentOn h t.hart ∧ SpecialsKept h t.hart ∧ FlagsKept h t.hart ∧
      WroteScalar h t.hart d (if phase then 1 else 0) ∧ stored t (creditWords (h.S b).toNat false w0 w1).1 (creditWords (h.S b).toNat false w0 w1).2) ∧
    (∃ t v, exec (.btest d a) s = .next t ∧ passed t ∧ WroteScalar h t.hart d v ∧
      v.getLsbD 32 = phase ∧ v.extractLsb' 48 16 = w1.extractLsb' 16 16 ∧
      (v.extractLsb' 0 32).toNat = w0.toNat % 2 ^ 32 - w0.toNat / 2 ^ 32) ∧
    (phase = (h.S b).getLsbD 0 → ∃ t, exec (.bwait tr d a b) s = .next t ∧ passed t ∧
      (if tr then WroteScalar h t.hart d 1 else t.hart.win = h.win)) ∧
    (phase ≠ (h.S b).getLsbD 0 → ScalarResult s (.bwait true d a b) d 0 ∧ ∃ t, exec (.bwait false d a b) s = .next t ∧ OnlyLocal s t ∧
      t.hart = { h with st := .wait .barrier, winstr := some (.bwait false d a b), woken := false, since := some (h.since.getD s.tbase) } ∧
      (∀ x, x < o + 8 ∨ o + 16 ≤ x → t.cell.loc.byte x = s.cell.loc.byte x) ∧ t.cell.locSb = s.cell.locSb ∧
      let v := BitVec.ofNat 64 (leNat (t.cell.loc.read (o + 8) 8))
      v.getLsbD (32 + s.cell.slot.val) = true ∧ v.extractLsb' 0 32 = w1.extractLsb' 0 32 &&& 0xFFFF0001 ∧
        ∀ k : Slot, k ≠ s.cell.slot → v.getLsbD (32 + k.val) = w1.getLsbD (32 + k.val))


/-! ## Global memory -/

/-- R105, R106, R188, R193, R195: a load whose words the cell's CACHE holds, with rights that allow it, completes in its slot with their
values: scalars extended as their width says, vectors with their sideband, strided and indexed elements one by one with a zero sideband.
Nothing else changes. -/
def Obligations.LoadsFromCache : Prop :=
  ∀ (s : State) (w : MW) (sw : SW) (ew : EW) (d a b : Reg) (m : MemOp) (off : Word), s.hart.pending = [] →
    let h := s.hart
    let hit (x : Word) (n : Nat) (bs sb : List Byte) : Prop := Aligned x n ∧ ∃ kept, s.cacheHit .load x.toNat n = some (kept, bs, sb)
    let x := h.offset a off
    (∀ bs sb, InView s (d :: regsOf m) [] → hit (h.address m) (MW.bytes w) bs sb →
      ScalarResult s (.ld w d m) d (loadedWord (w == .i8 || w == .i16 || w == .i32) (MW.bytes w) bs)) ∧
    (∀ bs sb, InView s [d, a] [] → hit x (SW.bytes sw) bs sb →
      ScalarResult s (.ldStr sw .cell d a off) d (loadedWord (sw == .i32) (SW.bytes sw) bs) ∧
      ScalarResult s (.ldAcq sw .cell d a off) d (loadedWord (sw == .i32) (SW.bytes sw) bs)) ∧
    (∀ bs sb, InView s [a] [d] → hit x 64 bs sb →
      VectorResult s (.ldv d a off) d 8 (fun e => bs.getD e 0) (sb.getD 0 0) (sb.getD 1 0)) ∧
    (∀ bs sb : Nat → List Byte, InView s [a, b] [d] →
      (∀ e, e < 512 / ew.bits → hit (h.S a + BitVec.ofNat 64 e * h.S b) (ew.bits / 8) (bs e) (sb e)) →
      VectorResult s (.ldvs ew d a b) d ew.bits (fun e => BitVec.ofNat ew.bits (leNat (bs e))) 0 0) ∧
    (∀ bs sb : Nat → List Byte, InView s [a] [d, b] →
      (∀ e, e < 512 / ew.bits → hit (elemAddr h ew a b e) (ew.bits / 8) (bs e) (sb e)) →
      VectorResult s (.vgat ew d a b) d ew.bits (fun e => BitVec.ofNat ew.bits (leNat (bs e))) 0 0)

/-- R19, R105, R106, R186, R188, R193, R195, R196, R320: a load that CACHE does not serve misses. A scalar load or `ldv` waits, `ldvs` and `vgat` issue
again, each line that they need missed or answered by CACHE; a strong load or an acquire of a wider scope than the cell's always misses. Once every
miss has been answered, and what they brought can be read, the load completes with what its lines were answered with, and changes nothing else; after
an acquire CACHE holds registered words alone. An answer holds the line as the die has it, and reaches the hart's slot two cycles after it has
come. A prefetch completes whatever its address and changes no register (R194). R336, R337, R390: a Headstock hart's load misses and completes
likewise, in ASID 0; through window B, at level F, it reads a device register in its own slot; its prefetch does nothing. -/
def Obligations.LoadsFromLines : Prop :=
  (∀ (s : State) (w : MW) (sw : SW) (ew : EW) (sc : Scope) (d a b : Reg) (m : MemOp) (off : Word),
    let h := s.hart
    let x := h.offset a off
    let y := h.address m
    let sg := w == .i8 || w == .i16 || w == .i32
    let n := ew.bits / 8
    let strided (e : Nat) : Word := h.S a + BitVec.ofNat 64 e * h.S b
    let data (g : Got) (x : Word) (n : Nat) : List Byte := (g.data.drop (x.toNat % 128)).take n
    let fresh : Prop := Numbered s ∧ h.st = .run ∧ h.asks = [] ∧ h.got = []
    let served (x : Word) (n : Nat) : Prop := s.cacheHit .load x.toNat n ≠ none
    let spread (i : Instr) (p : Nat → Word) : Prop := (∀ e, e < 512 / ew.bits → Aligned (p e) n ∧ s.deviceHere (p e).toNat = false) →
      (∃ e, e < 512 / ew.bits ∧ ¬ served (p e) n) → ∃ t, exec i s = .next t ∧ t.hart.st = .run ∧ t.hart.pc = h.pc ∧ SpecialsKept h t.hart ∧
        FlagsKept h t.hart ∧ LoopKept h t.hart ∧ t.hart.win = h.win ∧ t.hart.winSb = h.winSb ∧ MineOnly s t ∧ BanksKept s t ∧
        t.mem = { s.mem with misses := t.mem.misses } ∧ ∀ e, e < 512 / ew.bits → t.hart.answer (p e).toNat ≠ none ∨
          ∃ m ∈ t.mem.misses, m.id ∈ t.hart.asks ∧ m.kind = .load false ∧ m.asid = s.asid ∧ m.va / 128 = (p e).toNat / 128
    (InView s (d :: regsOf m) [] →
      (fresh → Aligned y (MW.bytes w) → s.deviceHere y.toNat = false → ¬ served y (MW.bytes w) →
        Asks s (.ld w d m) (.wait .data) (.load false) [(y.toNat, MW.bytes w)]) ∧
      ∀ g, h.st = .wait .data → Came s y (MW.bytes w) g → ScalarResult s (.ld w d m) d (loadedWord sg (MW.bytes w) (data g y (MW.bytes w)))) ∧
    (InView s [d, a] [] →
      (fresh → Aligned x (SW.bytes sw) → s.deviceHere x.toNat = false → sc ≠ .cell ∨ ¬ served x (SW.bytes sw) →
        Asks s (.ldStr sw sc d a off) (.wait .data) (.load (sc != .cell)) [(x.toNat, SW.bytes sw)] ∧
        Asks s (.ldAcq sw sc d a off) (.wait .data) (.load (sc != .cell)) [(x.toNat, SW.bytes sw)]) ∧
      ∀ g, h.st = .wait .data → Came s x (SW.bytes sw) g →
        let v := loadedWord (sw == .i32) (SW.bytes sw) (data g x (SW.bytes sw))
        ScalarResult s (.ldStr sw sc d a off) d v ∧ (s.isCore = true ∨ sc = .cell → ScalarResult s (.ldAcq sw sc d a off) d v) ∧
        (s.isCore = false → sc ≠ .cell → ∃ t, exec (.ldAcq sw sc d a off) s = .next t ∧ WentOn h t.hart ∧ SpecialsKept h t.hart ∧
          FlagsKept h t.hart ∧ WroteScalar h t.hart d v ∧ t = { s with cell := t.cell } ∧
          t.cell = { s.cell with harts := t.cell.harts, cache := t.cell.cache } ∧
          (∀ k, k ≠ s.cell.slot → t.cell.hart k = s.cell.hart k) ∧ RegisteredOnly t.cell)) ∧
    (InView s [a] [d] →
      (fresh → Aligned x 64 → s.deviceHere x.toNat = false → ¬ served x 64 → Asks s (.ldv d a off) (.wait .data) (.load false) [(x.toNat, 64)]) ∧
      ∀ g, h.st = .wait .data → Came s x 64 g → VectorResult s (.ldv d a off) d 8 (fun e => g.data.getD (x.toNat % 128 + e) 0)
        (g.sb.getD (x.toNat % 128 / 32) 0) (g.sb.getD (x.toNat % 128 / 32 + 1) 0)) ∧
    (InView s [a, b] [d] → (fresh → spread (.ldvs ew d a b) strided) ∧
      ∀ gs : Nat → Got, (∀ e, e < 512 / ew.bits → Came s (strided e) n (gs e)) →
        VectorResult s (.ldvs ew d a b) d ew.bits (fun e => BitVec.ofNat ew.bits (leNat (data (gs e) (strided e) n))) 0 0) ∧
    (InView s [a] [d, b] → (fresh → spread (.vgat ew d a b) (elemAddr h ew a b)) ∧
      ∀ gs : Nat → Got, (∀ e, e < 512 / ew.bits → Came s (elemAddr h ew a b e) n (gs e)) →
        VectorResult s (.vgat ew d a b) d ew.bits (fun e => BitVec.ofNat ew.bits (leNat (data (gs e) (elemAddr h ew a b e) n))) 0 0) ∧
    (InView s [a] [] → (s.isCore = true → HartResult s (.pf a off) h) ∧
      (s.isCore = false → Numbered s → ∃ t, exec (.pf a off) s = .next t ∧ HartKept h t.hart ∧ OthersKept s t ∧ BanksKept s t ∧
        t.mem = { s.mem with misses := t.mem.misses })) ∧
    (s.isCore = true → InView s (d :: regsOf m) [] → h.level = .f → deviceVa y.toNat = true → w = .x64 → y.toNat % 8 = 0 →
      (h.st = .run → h.asks = [] → h.got = [] → WaitsFor s (.ld w d m) .data) ∧
      (h.st = .wait .data → h.asks = [] →
        let r := s.regRead (y.toNat % 2 ^ 52)
        exec (.ld w d m) s = .next (r.2.setHart (r.2.hart.setS d r.1).complete)))) ∧
  ∀ (s : State) (m : Miss) (t no : Nat) (wide : Bool), Numbered s → s.mem.misses = [m] → m.agent = .cell no → m.kind = .load wide →
    (∀ l, m.phase = .ask → wide = false → m.asid ≠ 0 → m.va < 2 ^ 55 → s.line? ⟨m.asid, s.gen m.asid, m.va / 128⟩ = some l →
      l.perm.allows m.level .load = true → (s.cohLine l.key).readable (dieOf no) = true → (s.hartAt no m.slot).pending = [] →
      ∃ u, s.missAct t m = some u ∧ u.mem = { s.mem with misses := [{ m with phase := .back ⟨m.va / 128, l.data, l.sb, true, none⟩ }] } ∧
        ∀ c k, u.hartAt c k = s.hartAt c k) ∧
    (∀ u g, m.phase = .come u g → (s.hartAt no m.slot).asks = [m.id] → ∃ v, s.missAct t m = some v ∧ v.mem = { s.mem with misses := [] } ∧
      HartSet s v no m.slot { s.hartAt no m.slot with asks := [], got := (s.hartAt no m.slot).got ++ [g],
                                                             ready := max (s.hartAt no m.slot).ready ((s.cellAt no).cycleFrom t + 3) } ∧ BanksKept s v)

/-- R66, R187, R190: a store of a REPLAY task that STAGE has room for completes at issue: it enters STAGE behind the stores already there,
and a write check leaves for each line that has a word not registered to the cell and no check under way. No byte of any memory changes. R66: a store
that STAGE has no room for ends the attempt with reason 0x11, discarding what it has staged; the hart parks. -/
def Obligations.StagedStores : Prop :=
  (∀ (s : State) (w : MW) (sw : SW) (ew : EW) (sc : Scope) (d a b : Reg) (m : MemOp) (off : Word) (k : Task), s.isCore = false → Numbered s →
     s.hart.task = some k → k.replay = true →
     let h := s.hart
     let x := h.offset a off
     let staged (i : Instr) (rs : List StoreRec) : Prop := s.cell.stageUsed + stageBytes rs ≤ s.cell.count 6 * 4096 →
       let lines := (rs.filter fun r => !s.registeredHere r.addr r.bytes.length && !k.checks.contains (r.addr / 128)).map fun r => r.addr / 128
       ∃ t ms, exec i s = .next t ∧ t.hart = ({ h with task := some { k with stage := k.stage ++ rs, checks := (k.checks ++ lines).dedup } }).complete ∧
         OthersKept s t ∧ BanksKept s t ∧ t.mem = { s.mem with misses := s.mem.misses ++ ms } ∧
         ms.map (fun (m : Miss) => (m.kind, m.agent, m.slot, m.asid, m.task, m.va / 128)) =
           lines.dedup.map fun l => (.replay, s.cur, s.cell.slot, s.asid, some (k.launch, k.node, k.attempt), l)
     let one (x : Word) (n : Nat) (kind : AccKind) (sc : Scope) : List StoreRec := [⟨x.toNat, leBytes n (h.S d).toNat, [], kind, sc, [], h.level⟩]
     (InView s (d :: regsOf m) [] → Aligned (h.address m) (MW.bytes w) →
       staged (.st w d m) (one (h.address m) (MW.bytes w) .weak .cell)) ∧
     (InView s [d, a] [] → Aligned x (SW.bytes sw) →
       staged (.stRel sw sc d a off) (one x (SW.bytes sw) .rel sc) ∧ staged (.stStr sw sc d a off) (one x (SW.bytes sw) .strong sc)) ∧
     (InView s [a] [d] → Aligned x 64 →
       staged (.stv d a off) [⟨x.toNat, leBytes 64 (h.V d).toNat, [h.sb d 0, h.sb d 1], .weak, .cell, [], h.level⟩]) ∧
     (InView s [a] [d, b] → (∀ e, e < 512 / ew.bits → Aligned (elemAddr h ew a b e) (ew.bits / 8)) →
       staged (.vsca ew d a b) ((List.range (512 / ew.bits)).map fun e =>
         ⟨(elemAddr h ew a b e).toNat, leBytes (ew.bits / 8) (velem ew.bits (h.V d) e).toNat, [], .weak, .cell, [], h.level⟩))) ∧
  (∀ (s : State) (w : MW) (d : Reg) (m : MemOp) (k : Task), s.isCore = false → s.hart.task = some k → k.replay = true →
     InView s (d :: regsOf m) [] → Aligned (s.hart.address m) (MW.bytes w) → s.cell.count 6 * 4096 < s.cell.stageUsed + 16 →
     ∃ t, exec (.st w d m) s = .next t ∧ OnlyHart s t ∧ t.hart.st = .park false ∧ t.hart.win = s.hart.win ∧
       t.hart.task = some { k with stage := [], spawns := [], checks := [], ending := some (.again 0x11) })

/-- R66, R188, R189, R193, R195: a store outside REPLAY, of no task or of a PRECISE one, whose words are registered to its cell, or whose write check has
passed, completes behind no release: its bytes are the line's on-die value, every other byte on the dies and in every memory is as before, and the
registers stay. One whose words are not registered sends its write check and issues again. R336, R337, R390: the same of a Headstock hart's store, in
ASID 0, whose words no cell registers; at level F one through window B writes the device register that its address names. -/
def Obligations.PerformedStores : Prop :=
  (∀ (s : State) (w : MW) (sw : SW) (sc : Scope) (d a : Reg) (m : MemOp) (off : Word), Numbered s → Direct s.hart → s.hart.req ≠ .sent → s.hart.check = .idle →
    let h := s.hart
    let x := h.offset a off
    let y := h.address m
    let checks (i : Instr) (x n : Nat) : Prop := s.registeredHere x n = false → Asks s i .run .check [(x, n)] ∧
      ∃ t, exec i s = .next t ∧ t.hart.check = .sent [(x, n)] ∧ t.hart.again = true
    (InView s (d :: regsOf m) [] → Aligned y (MW.bytes w) → ¬ (s.isCore = true ∧ h.level = .f ∧ deviceVa y.toNat = true) →
      checks (.st w d m) y.toNat (MW.bytes w)) ∧
    (InView s [d, a] [] → Aligned x (SW.bytes sw) → ¬ (s.isCore = true ∧ h.level = .f ∧ deviceVa x.toNat = true) →
      checks (.stStr sw sc d a off) x.toNat (SW.bytes sw) ∧ checks (.stRel sw sc d a off) x.toNat (SW.bytes sw))) ∧
  (∀ (s : State) (w : MW) (sw : SW) (ew : EW) (sc : Scope) (d a b : Reg) (m : MemOp) (off : Word) (l : OLine) (no : Nat), s.cur = .cell no →
    Numbered s → Direct s.hart → s.hart.req ≠ .sent → s.hart.held = [] → s.hart.relAfter = [] → s.outstanding = [] →
    let h := s.hart
    let x := h.offset a off
    let y := h.address m
    let did (i : Instr) (f : Nat → Nat → Option Byte) (p : State → Prop) : Prop := ∃ t, exec i s = .next t ∧ HartKept h t.hart ∧
      OthersKept s t ∧ BanksKept s t ∧ MemoryKept s t ∧ OnDieIs t f ∧ p t
    let may (l : OLine) (x : Word) (n : Nat) : Prop := Aligned x n ∧ Storable s l x.toNat ∧
      (h.check = .passed ∧ s.answeredHere = true ∨ h.check = .idle ∧ s.registeredHere x.toNat n = true)
    (InView s (d :: regsOf m) [] → may l y (MW.bytes w) →
      did (.st w d m) (stored s.asid y.toNat (MW.bytes w) (h.S d).toNat (onDie s)) fun _ => True) ∧
    (InView s [d, a] [] → may l x (SW.bytes sw) →
      did (.stStr sw sc d a off) (stored s.asid x.toNat (SW.bytes sw) (h.S d).toNat (onDie s)) (fun _ => True) ∧
      did (.stRel sw sc d a off) (stored s.asid x.toNat (SW.bytes sw) (h.S d).toNat (onDie s)) fun _ => True) ∧
    (InView s [a] [d] → may l x 64 → l.sb.length = 4 →
      did (.stv d a off) (stored s.asid x.toNat 64 (h.V d).toNat (onDie s)) fun t =>
        ∃ k, t.line? l.key = some k ∧ ∀ g, g < 2 → k.sb.getD (x.toNat % 128 / 32 + g) 0 = if l.kept then h.sb d g else 0) ∧
    (∀ ls : Nat → OLine, InView s [a] [d, b] → (∀ e, e < 512 / ew.bits → may (ls e) (elemAddr h ew a b e) (ew.bits / 8)) →
      did (.vsca ew d a b) ((List.range (512 / ew.bits)).foldl (fun f e =>
        stored s.asid (elemAddr h ew a b e).toNat (ew.bits / 8) (velem ew.bits (h.V d) e).toNat f) (onDie s)) fun _ => True)) ∧
  (∀ (s : State) (w : MW) (sw : SW) (sc : Scope) (d a : Reg) (m : MemOp) (off : Word) (l : OLine) (no : Nat), s.cur = .core no →
    Direct s.hart → s.hart.req ≠ .sent → s.hart.held = [] → s.hart.relAfter = [] →
    let h := s.hart
    let x := h.offset a off
    let y := h.address m
    let may (x : Word) (n : Nat) : Prop := Aligned x n ∧ ServedCore s l .store x.toNat ∧ h.check = .passed ∧ s.answeredHere = true ∧
      (x.toNat < 2 ^ 54 ∨ s.registered (x.toNat % 2 ^ 52 / 128) = false)
    let did (i : Instr) (x n : Nat) : Prop := ∃ t, exec i s = .next t ∧ HartKept h t.hart ∧ CoreOnly s t no ∧ BanksKept s t ∧ MemoryKept s t ∧
      OnDieIs t (stored 0 x n (h.S d).toNat (onDie s))
    (InView s (d :: regsOf m) [] →
      (may y (MW.bytes w) → did (.st w d m) y.toNat (MW.bytes w)) ∧
      (h.level = .f → Aligned y 8 → deviceVa y.toNat = true → w = .x64 →
        let u := s.regWrite (y.toNat % 2 ^ 52) (h.S d)
        exec (.st w d m) s = .next (u.setHart u.hart.complete))) ∧
    (InView s [d, a] [] → may x (SW.bytes sw) →
      did (.stStr sw sc d a off) x.toNat (SW.bytes sw) ∧ did (.stRel sw sc d a off) x.toNat (SW.bytes sw)))

/-- R106, R197, R320: an atomic misses and waits. Once its miss has been answered and the stores and pushes before it are acknowledged, each gives S(d)
the old word and stores the new one at the word's place in one step: nothing else of any memory changes. `amo.cas` compares with the old S(d). At a
scope wider than the cell's it is an acquire too: the cell's CACHE keeps registered words alone. The same of a Headstock hart in ASID 0 (R390). -/
def Obligations.Atomics : Prop :=
  ∀ (s : State) (sc : Scope) (d a b : Reg), Numbered s → InView s [d, a, b] [] → Direct s.hart → Aligned (s.hart.S a) 8 →
    s.deviceHere (s.hart.S a).toNat = false →
    let h := s.hart
    let x := (h.S a).toNat
    let y := h.S b
    (h.st = .run → h.asks = [] → h.got = [] → ∀ i ∈ ([.amoAdd sc d a b, .amoAnd sc d a b, .amoOr sc d a b, .amoXor sc d a b, .amoMin sc d a b,
      .amoMax sc d a b, .amoMinn sc d a b, .amoMaxn sc d a b, .amoSwp sc d a b, .amoCas sc d a b] : List Instr),
      Asks s i (.wait .data) (.amo (sc != .cell)) [(x, 8)]) ∧
    ∀ (l : OLine) (g : Got), h.st = .wait .data → s.acked = true → Came s (h.S a) 8 g → (sc = .cell ∨ s.mustPublish s.cur s.asid x 8 = none) →
      (if s.isCore then ServedCore s l .amo x ∧ (x < 2 ^ 54 ∨ s.registered (x % 2 ^ 52 / 128) = false)
       else Served s l .amo x ∧ Ownable s s.myDie l.key) →
      let old : Word := BitVec.ofNat 64 (leNat ((l.data.drop (x % 128)).take 8))
      ∀ r ∈ ([(.amoAdd sc d a b, old + y), (.amoAnd sc d a b, old &&& y), (.amoOr sc d a b, old ||| y), (.amoXor sc d a b, old ^^^ y),
        (.amoMin sc d a b, if old.sle y then old else y), (.amoMax sc d a b, if old.sle y then y else old),
        (.amoMinn sc d a b, if old ≤ y then old else y), (.amoMaxn sc d a b, if old ≤ y then y else old), (.amoSwp sc d a b, y),
        (.amoCas sc d a b, if old = h.S d then y else old)] : List (Instr × Word)),
        ∃ t, exec r.1 s = .next t ∧ WentOn h t.hart ∧ SpecialsKept h t.hart ∧ FlagsKept h t.hart ∧ WroteScalar h t.hart d old ∧
          MineOnly s t ∧ BanksKept s t ∧ MemoryKept s t ∧ OnDieIs t (stored s.asid x 8 r.2.toNat (onDie s)) ∧
          (sc ≠ .cell → s.isCore = false → RegisteredOnly t.cell)

/-- R196: a fence completes once every earlier store and push of the hart is acknowledged, and issues again before; an acquire fence completes
at once. After a scope wider than the cell's CACHE holds registered words alone. A release fence completes at once, and later stores follow
the pushes that are outstanding. A Headstock hart, which has no CACHE, goes on (R390). -/
def Obligations.Fences : Prop :=
  (∀ (s : State) (sc : Scope), s.isCore = true → s.hart.held = [] →
     HartResult s (.fence sc) s.hart ∧ HartResult s (.fenceAcq sc) s.hart ∧ HartResult s (.fenceRel sc) { s.hart with relAfter := s.hart.relAfter.dedup }) ∧
  ∀ (s : State) (sc : Scope) (no : Nat), s.cur = .cell no →
    let h := s.hart
    let passed (i : Instr) : Prop :=
      (sc = .cell → HartResult s i h) ∧
      (sc ≠ .cell → ∃ t, exec i s = .next t ∧ HartKept h t.hart ∧ t = { s with cell := t.cell } ∧
        t.cell = { s.cell with harts := t.cell.harts, cache := t.cell.cache } ∧
        (∀ k, k ≠ s.cell.slot → t.cell.hart k = s.cell.hart k) ∧ RegisteredOnly t.cell)
    (s.acked = true → passed (.fence sc)) ∧ passed (.fenceAcq sc) ∧
    HartResult s (.fenceRel sc) { h with relAfter := (h.relAfter ++ s.outstanding).dedup } ∧
    (s.acked = false → exec (.fence sc) s = .next (s.setHart { h with again := true, st := .run }))

/-- R289, R359, R361: `cln` and `clnp` complete once the line, or every line of the page, that is newer on the dies than in memory has reached the
controller that its page translates to: memory holds its 128 bytes there and every other byte as before; no cell keeps a word of it
registered, and no die holds it in M or O. `inv` takes the line out of the cell's CACHE and
CODE alone. -/
def Obligations.CleanAndInvalidate : Prop :=
  ∀ (s : State) (a : Reg) (l : OLine) (e : AgentEntry) (no : Nat), s.cur = .cell no → Numbered s → InView s [a] [] →
    let h := s.hart
    let x := (h.S a).toNat
    x < 2 ^ 55 →
    let mine (p : Nat → Bool) (k : LineKey) : Bool := k.asid == s.asid && k.gen == s.gen s.asid && p k.line
    let cleaned (i : Instr) (p : Nat → Bool) : Prop := h.again = true → s.mem.wbPark = [] →
      let given (t : State) : Prop := ∀ c ∈ t.cells, ∀ k ∈ c.cache, mine p k.key = true → k.regs = 0
      ((s.mem.lines.filter fun m => mine p m.key) = [] →
        ∃ t, exec i s = .next t ∧ HartKept h t.hart ∧ OthersKept s t ∧ BanksKept s t ∧ t.mem = s.mem ∧ given t) ∧
      ((s.mem.lines.filter fun m => mine p m.key) = [l] → s.asid ≠ 0 → l.dirty = true → l.data.length = 128 →
        s.entry? s.asid (l.key.line / 512) = some e → e.held = false →
        let pa := e.pa + l.key.line * 128 % 65536
        inStack pa = true → s.failed (dieOfPa pa) = false → s.refreshing (dieOfPa pa) = false →
        ∃ t, exec i s = .next t ∧ HartKept h t.hart ∧ OthersKept s t ∧ BanksKept s t ∧ t.line? l.key = some { l with dirty := false } ∧ given t ∧
          ((s.cohLine l.key).msgs = [] → (s.cohLine l.key).busy = none →
            ∀ d, (t.cohLine l.key).dieState d ≠ .m ∧ (t.cohLine l.key).dieState d ≠ .o) ∧
          ∀ y, t.mem.phys.byte y = if pa ≤ y ∧ y < pa + 128 then l.data.getD (y - pa) 0 else s.mem.phys.byte y)
    cleaned (.cln a) (fun n => n == x / 128) ∧
    (1 ≤ h.level.code → Direct h → cleaned (.clnp a) (fun n => n / 512 == x / 65536)) ∧
    ∃ t, exec (.inv a) s = .next t ∧ HartKept h t.hart ∧ t = { s with cell := t.cell } ∧
      t.cell = { s.cell with harts := t.cell.harts, cache := s.cell.cache.filter fun k => !mine (fun n => n == x / 128) k.key,
                             code := s.cell.code.filter fun k => !mine (fun n => n == x / 128) k.key } ∧
      ∀ k, k ≠ s.cell.slot → t.cell.hart k = s.cell.hart k

/-! ## Tasks, records, team barriers -/

/-- R67, R70, R250: the end of an attempt. `tend` commits what the attempt has staged, oldest store last to show, reports success and parks;
`waitw` and `tabt` end the attempt with reason 0x20 and S(a)'s low 24 bits, performing none of its stores. A hart that holds no task parks.
R170: each completes, so that the end check counts a loop down; the pc stays at the instruction. -/
def Obligations.TaskEnds : Prop :=
  ∀ (s : State) (a : Reg) (no : Nat), s.cur = .cell no → Numbered s → InView s [a] [] → s.hart.hand = none →
    let h := s.hart
    let rested (i : Instr) : Prop := exec i s = .next (s.setHart { h.complete with pc := h.pc, st := s.parkKind })
    (h.task = none → rested .tend ∧ rested .waitw ∧ rested (.tabt a)) ∧
    ∀ k, h.task = some k →
      let ended (i : Instr) (detail : Nat) : Prop := ∃ t, exec i s = .next t ∧ OnlyHart s t ∧ t.hart.st = .park false ∧
        t.hart.win = h.win ∧ SpecialsKept { h with task := t.hart.task, engErr := [] } t.hart ∧ t.hart.pc = h.pc ∧ t.hart.lcnt = h.complete.lcnt ∧
        t.hart.task = some { k with stage := [], spawns := [], checks := [], ending := some (.failed 0x20 detail) }
      ended .waitw 0 ∧ ended (.tabt a) ((h.S a).toNat % 2 ^ 24) ∧
      (k.checks = [] → k.spawns = [] → s.acked = true → (∀ q ∈ s.cell.cq, q.owner ≠ some (k.launch, k.node, k.attempt)) →
        (∀ r ∈ k.stage, r.addr % 128 + r.bytes.length ≤ 128 ∧ r.addr < 2 ^ 55 ∧ r.level = h.level ∧ ∃ l, Storable s l r.addr) →
        ∃ t, exec .tend s = .next t ∧ OthersKept s t ∧ BanksKept s t ∧ MemoryKept s t ∧
          OnDieIs t (k.stage.foldl (fun f r asid va =>
            if asid = s.asid ∧ r.addr ≤ va ∧ va < r.addr + r.bytes.length then some (r.bytes.getD (va - r.addr) 0) else f asid va) (onDie s)) ∧
          t.hart.st = s.parkKind ∧ t.hart.task = none ∧ t.hart.win = h.win ∧ t.hart.pc = h.pc ∧ t.hart.lcnt = h.complete.lcnt ∧
          t.hart.heldRec = some ⟨k.node, k.launch, k.team, 0, !k.replay, hartNo no s.cell.slot, k.attempt, 0, 0, k.minimum, none⟩)

/-- R251, R252: `tspawn` reads the node's 64 bytes and sends its request at its first issue, once what comes before it is acknowledged; it
completes with the answer. `evget` gives the lead die's oldest record, its sixteen bytes stored in LOCAL, and 0 with nothing stored where
the ring holds none. R253: a team barrier. An arriving hart is added to its cell's episode of the word and waits, or writes 0 with `.try`; a
hart whose episode has ended goes on as after an acquire, and `.try` writes 1. -/
def Obligations.SpawnsRecordsBarriers : Prop :=
  (∀ (s : State) (d a : Reg) (no : Nat), s.cur = .cell no → InView s [d, a] [] →
     let h := s.hart
     let o := (h.S a).toNat
     (∀ v, h.req = .answered v → ScalarResult s (.tspawn d a) d v) ∧
     (h.req = .idle → h.again = false → s.acked = true → o % 64 = 0 → o + 64 ≤ s.cell.localSize →
       exec (.tspawn d a) s = .next (s.setHart { h with buf := s.cell.loc.read o 64, winstr := some (.tspawn d a), req := .sent, again := true, st := .run })) ∧
     (Direct h → h.req = .sent → o % 16 = 0 → o + 16 ≤ s.cell.localSize → ∀ l, s.launchOf s.cell = some l →
       (l.ring = [] → ScalarResult s (.evget d a) d 0) ∧
       ∀ r rs, l.ring = r :: rs → ∃ t, exec (.evget d a) s = .next t ∧ WentOn h t.hart ∧ SpecialsKept h t.hart ∧ FlagsKept h t.hart ∧
         WroteScalar h t.hart d 1 ∧ LocalHolds s.cell t.cell o 16 (leNat r.bytes) ∧ LocalKept s.cell t.cell o 16 ∧
         t.cell.locSb = s.cell.locSb ∧ t.mem = s.mem ∧ t.launches = s.launches.map fun m => if m.id == l.id then { l with ring := rs } else m)) ∧
  (∀ (s : State) (tr : Bool) (d a b : Reg) (no : Nat), s.cur = .cell no → InView s [d, a, b] [] →
     let h := s.hart
     let x := h.S a
     let y := h.S b
     let w : IWord := BitVec.ofNat 32 x.toNat
     let bit : BitVec 16 := BitVec.ofNat 16 (2 ^ s.cell.slot.val)
     let passed (c : Cell) (t : State) : Prop := WentOn h t.hart ∧ SpecialsKept h t.hart ∧ FlagsKept h t.hart ∧ t = { s with cell := t.cell } ∧
       t.cell = { c with harts := t.cell.harts, cache := t.cell.cache } ∧ (∀ k, k ≠ s.cell.slot → t.cell.hart k = s.cell.hart k) ∧ RegisteredOnly t.cell ∧
       if tr then WroteScalar h t.hart d 1 else t.hart.win = h.win
     (h.st = .wait .teamBarrier → h.woken = true → ∃ t, exec (.tbar tr d a b) s = .next t ∧
       passed { s.cell with tbarDone := s.cell.tbarDone.erase ⟨w, s.cell.slot⟩ } t) ∧
     (h.st = .run → s.wordLegal x = true → s.cell.maskOk y = true → s.inSubgroup w = true →
       (⟨w, s.cell.slot⟩ ∈ s.cell.tbarDone → ∃ t, exec (.tbar tr d a b) s = .next t ∧
         passed { s.cell with tbarDone := s.cell.tbarDone.erase ⟨w, s.cell.slot⟩ } t) ∧
       (⟨w, s.cell.slot⟩ ∉ s.cell.tbarDone → (∀ e ∈ s.cell.tbars, e.word ≠ w) → s.cell.tbars.length < 4 →
         ∃ t, exec (.tbar tr d a b) s = .next t ∧ t = { s with cell := t.cell } ∧
           t.cell = { s.cell with harts := t.cell.harts, tbars := s.cell.tbars ++ [⟨w, BitVec.ofNat 16 y.toNat, bit⟩] } ∧
           (∀ k, k ≠ s.cell.slot → t.cell.hart k = s.cell.hart k) ∧
           if tr then WentOn h t.hart ∧ WroteScalar h t.hart d 0
           else t.hart.st = .wait .teamBarrier ∧ t.hart.win = h.win ∧ t.hart.pc = h.pc) ∧
       ∀ e, ⟨w, s.cell.slot⟩ ∉ s.cell.tbarDone → (s.cell.tbars.find? fun t => t.word == w) = some e →
         (e.mask = BitVec.ofNat 16 y.toNat → ∃ t, exec (.tbar tr d a b) s = .next t ∧ t = { s with cell := t.cell } ∧
           t.cell = { s.cell with harts := t.cell.harts,
                                  tbars := s.cell.tbars.map fun e => if e.word == w then { e with arrived := e.arrived ||| bit } else e } ∧
           (∀ k, k ≠ s.cell.slot → t.cell.hart k = s.cell.hart k) ∧
           if tr then WentOn h t.hart ∧ WroteScalar h t.hart d 0
           else t.hart.st = .wait .teamBarrier ∧ t.hart.win = h.win ∧ t.hart.pc = h.pc) ∧
         (e.mask ≠ BitVec.ofNat 16 y.toNat → exec (.tbar tr d a b) s = s.trap .engine y)))

/-! ## The engines' queues -/

/-- R24, R225, R228, R231, R232, R235: a matrix command whose operands keep their limits enters a queue that has an entry free, and its hart
goes on; the bytes it is to bring are expected of its barrier object, and nothing else changes; as its entry is ordered as a release (R109), it
goes with the pushes and the held stores of its hart that it must follow. R236, R237: `mstat` tells the entries in
use, whether the hart has a command that has not retired, and the formats; `mwait` goes on once none of the hart's has, and issues again
before. -/
def Obligations.MatrixCommands : Prop :=
  (∀ (s : State) (d a b : Reg) (no : Nat), s.cur = .cell no → InView s [d, a, b] [] → s.hart.st = .run → s.cell.mclosed = false →
     s.cell.mUsed < 2 → 1 ≤ s.cell.count 5 →
     let h := s.hart
     let c := s.cell
     let o := (h.S d).toNat
     let x := h.S a
     let t := h.S b
     let word (i : Nat) : Word := BitVec.ofNat 64 (leNat (c.loc.read (o + i) 8))
     let object : Prop := o % 16 = 0 ∧ o + 16 ≤ c.localSize
     let range (p n align : Nat) : Prop := p % align = 0 ∧ p + n ≤ c.localSize
     let tile (clr : Bool) (t : Word) : Prop := tileOk clr t = true ∧ tileOff t + 16 * tileRows t ≤ 4096 * c.count 5
     let enters (i : Instr) (op : MatOp) (need : Option Nat) : Prop := ∃ u, exec i s = .next u ∧ HartKept h u.hart ∧
       u = { s with cell := u.cell } ∧ u.cell = { c with harts := u.cell.harts, loc := u.cell.loc, mq := u.cell.mq, mresv := u.cell.mresv } ∧
       u.cell.mq = c.mq ++ [⟨c.slot, op, c.cycle, none, false, 0, false, 0, [], [], s.releases.1, s.releases.2⟩] ∧ u.cell.mresv = c.mresv.filter (· != c.slot) ∧
       (∀ k, k ≠ c.slot → u.cell.hart k = { c.hart k with woken := (u.cell.hart k).woken }) ∧
       match need with
       | none => u.cell.loc = c.loc
       | some n => LocalKept c u.cell o 16 ∧ ObjectHolds c u.cell o (expectWords n (word 0) (word 8))
     (object → range x.toNat 128 32 → enters (.mlds d a) (.mlds o x.toNat) (some 128)) ∧ enters .mswp .mswp none ∧
     (object → x.toNat < 2 ^ 17 → tile false t → range x.toNat (32 * tileRows t) 32 →
       enters (.mstr d a b) (.mstr o x.toNat (tileOff t) (tileRows t)) (some (32 * tileRows t))) ∧
     (tile false x → enters (.macz a) (.macz (tileOff x) (tileRows x)) none) ∧
     (let f := fieldOf x 17 6
      let n := outRow f * tileRows t
      let q := x.getLsbD 23
      object → outOk (tileRows t) x = true → tile true t → range (fieldOf x 0 17) n (if q then 32 else outRow f) →
       enters (.macrd d a b) (.macrd o (fieldOf x 0 17) (tileOff t) (tileRows t) (BitVec.ofNat 6 f) q (t.getLsbD 23)
         ((rmOf (BitVec.ofNat 3 (fieldOf x 24 3))).getD .rne) (x.getLsbD 27)) (some n)) ∧
     (fmtWordOk x = true → enters (.mfmt a) (.mfmt x) none)) ∧
  (∀ (s : State) (d : Reg) (no : Nat), s.cur = .cell no → InView s [d] [] →
     let mine : Prop := ∃ q ∈ s.cell.mq, q.slot = s.cell.slot
     (s.cell.mUsed ≤ 2 → ∃ v, ScalarResult s (.mstat d) d v ∧ v.extractLsb' 0 2 = BitVec.ofNat 2 s.cell.mUsed ∧ (v.getLsbD 5 = true ↔ mine) ∧
       v.getLsbD 4 = s.cell.narrow ∧ v.extractLsb' 16 6 = s.cell.fmtWord.extractLsb' 0 6 ∧ v.extractLsb' 24 6 = s.cell.fmtWord.extractLsb' 8 6) ∧
     (¬ mine → HartResult s .mwait s.hart) ∧ (mine → exec .mwait s = .next (s.setHart { s.hart with again := true, st := .run })))

/-- R24, R109, R241, R242, R246: a copy or pack command whose operands keep their limits enters a queue that has an entry free, with its hart's
address space and level, and its hart goes on; the bytes it is to bring are expected of its object, and nothing else changes. -/
def Obligations.CopyCommands : Prop :=
  ∀ (s : State) (f : StFmt) (d a b : Reg) (no : Nat), s.cur = .cell no → InView s [d, a, b] [] → s.hart.st = .run → s.cell.cclosed = false →
    s.cell.cUsed < 2 → Direct s.hart →
    let h := s.hart
    let c := s.cell
    let o := (h.S d).toNat
    let x := h.S a
    let w := h.S b
    let word (i : Nat) : Word := BitVec.ofNat 64 (leNat (c.loc.read (o + i) 8))
    o % 16 = 0 → o + 16 ≤ c.localSize →
    let enters (i : Instr) (op : CopyOp) (n : Nat) : Prop := ∃ u, exec i s = .next u ∧ HartKept h u.hart ∧
      u = { s with cell := u.cell, cmdNo := s.cmdNo + 1 } ∧
      u.cell = { c with harts := u.cell.harts, loc := u.cell.loc, cq := u.cell.cq, cresv := u.cell.cresv } ∧
      (∃ q, u.cell.cq = c.cq ++ [q] ∧ q.id = s.cmdNo ∧ q.slot = c.slot ∧ q.asid = s.asid ∧ q.level = h.level ∧ q.op = op ∧ q.obj = o ∧
        q.after = s.releases.1 ∧ q.upto = s.releases.2 ∧ q.started = false ∧ q.run = 0 ∧ q.pos = 0 ∧ q.owner = h.task.map fun t => (t.launch, t.node, t.attempt)) ∧
      u.cell.cresv = c.cresv.filter (· != c.slot) ∧
      (∀ k, k ≠ c.slot → u.cell.hart k = { c.hart k with woken := (u.cell.hart k).woken }) ∧
      LocalKept c u.cell o 16 ∧ ObjectHolds c u.cell o (expectWords n (word 0) (word 8))
    (let ws := leWords (c.loc.read x.toNat 64)
     let t := tileOf ws
     x.toNat % 64 = 0 → x.toNat + 64 ≤ c.localSize → t.legal (ws.getD 0 0) = true →
      (t.kind = 2 → w.toNat % 16 = 0 ∧ s.targetsIn t (ws.getD 2 0) = true) →
      enters (.tcopy d a b) (.tile ws w.toNat) (t.n0 * t.n1 * t.n2 * t.targets)) ∧
    (let l := fieldOf w 0 17
     let n := fieldOf w 32 16
     l % 32 = 0 → l + 32 * n ≤ c.localSize → fieldOf w 17 15 = 0 → fieldOf w 48 16 = 0 → 1 ≤ n →
      enters (.tpack f d a b) (.pack f false x.toNat l n) ((if f.w then 17 else 25) * n) ∧
      enters (.tunpk f d a b) (.pack f true x.toNat l n) ((if f.w then 17 else 25) * n))

/-! ## Hart control, random numbers -/

/-- R254, R285, R294, R295: `tick`, `ident`, `sleep`, `yield`, `wfi` and `halt`. `tick` gives the time base and `ident` the fused words; `sleep` completes once the time base has reached S(a), and waits
before; `yield` completes in the hart's next slot; `wfi` completes where an enabled interrupt is pending, and waits otherwise; `halt` at
level F parks the hart for good and posts it. -/
def Obligations.HartControl : Prop :=
  ∀ (s : State) (d a : Reg), InView s [d, a] [] →
    let h := s.hart
    let again (i : Instr) : Prop := exec i s = .next (s.setHart { h with again := true, st := .run })
    let waits (i : Instr) (c : WaitCause) : Prop := h.st = .run →
      exec i s = .next (s.setHart { h with st := .wait c, winstr := some i, woken := false, since := some (h.since.getD s.tbase) })
    ScalarResult s (.tick d) d (BitVec.ofNat 64 s.tbase) ∧
    ScalarResult s (.ident d 0) d (BitVec.ofNat 64 (0x0100545352 + 2 ^ 40 * Config.stepping.toNat)) ∧
    ScalarResult s (.ident d 1) d 0xA20A20001036 ∧
    ((h.S a).toNat ≤ s.tbase → HartResult s (.sleep a) h) ∧ (s.tbase < (h.S a).toNat → waits (.sleep a) .sleep) ∧
    (h.again = true → HartResult s .yield h) ∧ (h.again = false → again .yield) ∧
    ((∃ m, h.ip m s.tbase &&& (h.block m).ie ≠ 0) → HartResult s .wfi h) ∧
    ((∀ m, h.ip m s.tbase &&& (h.block m).ie = 0) → waits .wfi .wfi) ∧
    (h.level = .f → s.head.hsq.length < 64 → ∃ t, exec .halt s = .next t ∧ t.hart.st = .park false ∧ t.hart.stopped = true ∧
      t.hart.win = h.win ∧ t.head = { s.head with hsq := s.head.hsq ++ [(s.hartId, 0)] } ∧ t.mem = s.mem)

/-- R150, R272 to R274: the random stream and what draws on a word of it. `rng` makes one step of SplitMix64. `bern` writes whether the drawn
number lies below p, no flag raised but NV for a NaN. `samp` completes in the slot that reads the last of its table and writes the smallest
state whose prefix of the weights exceeds the threshold, or the table's length where every weight is zero. -/
def Obligations.RandomNumbers : Prop :=
  ∀ (s : State) (d a b : Reg) (no : Nat), s.cur = .cell no → InView s [d, a, b] [] →
    let h := s.hart
    let r : Word := h.rngs + 0x9E3779B97F4A7C15
    let z1 : Word := (r ^^^ (r >>> 30)) * 0xBF58476D1CE4E5B9
    let z2 : Word := (z1 ^^^ (z1 >>> 27)) * 0x94D049BB133111EB
    let u := (h.S b).toNat / 2 ^ 32
    HartResult s (.rng d) ({ h with rngs := r }.setS d (z2 ^^^ (z2 >>> 31))) ∧
    (match valueOf (wideSpec .f32) ((h.S a).toNat % 2 ^ 32) with
      | .nan _ => HartResult s (.bern d a b) ({ h with fflags := h.fflags ||| 0x10 }.setS d 0)
      | .inf neg => ScalarResult s (.bern d a b) d (if neg then 0 else 1)
      | .fin neg m e _ => ScalarResult s (.bern d a b) d (if neg = false ∧ u * 2 ^ 149 < m * 2 ^ (e + 149).toNat * 2 ^ 32 then 1 else 0)) ∧
    (let o := fieldOf (h.S a) 0 17
     let k := fieldOf (h.S a) 17 8 + 1
     let weight (j : Nat) : FVal := valueOf (wideSpec .f32) (leNat (s.cell.loc.read (o + 4 * j) 4))
     let upTo (j : Nat) : Nat := ((List.range j).map fun i => grain (weight i)).sum
     fieldOf (h.S a) 25 39 = 0 → o % 4 = 0 → o + 4 * k ≤ s.cell.localSize →
     h.buf = s.cell.loc.read o h.buf.length → h.buf.length ≤ 4 * k → 4 * k ≤ h.buf.length + 64 →
      ((∀ j, j < k → weightOk (weight j) = true) → ∃ j, ScalarResult s (.samp d a b) d (BitVec.ofNat 64 j) ∧
        if upTo k = 0 then j = k else j < k ∧ u * upTo k < 2 ^ 32 * upTo (j + 1) ∧ 2 ^ 32 * upTo j ≤ u * upTo k) ∧
      ((∃ j, j < k ∧ weightOk (weight j) = false) →
        HartResult s (.samp d a b) ({ h with fflags := h.fflags ||| 0x10 }.setS d (BitVec.ofNat 64 k))))

/-! ## Fields -/

/-- R109, R257, R259 to R266: control requests. A request about a declared field leaves for the field's origin cell with what it asks, a command once
every earlier store and push of its hart is acknowledged, and its hart issues again; `snap` and `fmig` read their request block at the first issue, and `fdecl` its descriptor, whose own checks its cell
makes (R81); when the answer has come the instruction completes with it, and the bytes it announces are expected of its object. -/
def Obligations.FieldRequests : Prop :=
  ∀ (s : State) (d a b : Reg) (no : Nat), s.cur = .cell no → InView s [d, a, b] [] → Direct s.hart →
    let h := s.hart
    let x := h.S a
    (∀ f v, s.cell.serving = some v → s.myField x = some f → h.req = .idle →
      let sends (i : Instr) (ask : FieldAsk) (obj : Nat) : Prop :=
        ∃ t, exec i s = .next t ∧ t = ({ s with net := t.net }).setHart t.hart ∧
          t.hart = { h with req := .sent, winstr := some i, buf := [], again := true, st := .run } ∧
          t.net = { s.net with asks := s.net.asks ++
            [⟨⟨s.cell.no, s.cell.slot, h.level, obj⟩, v.launch, v.team, f.handle, (s.groupCells v.launch v.team f.place).getD 0 0, ask, none⟩] }
      let o := (h.S b).toNat
      sends (.fphase d a b) (.phase ((h.S b).getLsbD 0)) 0 ∧
      (s.acked = true → sends (.fstart d a) .start 0 ∧ sends (.fpause d a) .pause 0 ∧ sends (.cplc d a b) (.cplc o) 0 ∧
        (h.again = true ∨ o % 16 = 0 ∧ o + 16 ≤ s.cell.localSize → sends (.fstop d a b) .stop o)) ∧
      (s.acked = false → h.again = true → ∀ i ∈ ([.fstart d a, .fpause d a, .fstop d a b, .cplc d a b] : List Instr),
        exec i s = .next (s.setHart { h with st := .run }))) ∧
    (∀ f v, s.cell.serving = some v → h.req = .idle → h.again = false → x.toNat % 32 = 0 → x.toNat + 32 ≤ s.cell.localSize →
      let bs := s.cell.loc.read x.toNat 32
      let w (i : Nat) : Word := (leWords bs).getD i 0
      let sends (i : Instr) (ask : FieldAsk) : Prop :=
        (s.acked = false → exec i s = .next (s.setHart { h with buf := bs, again := true, st := .run })) ∧
        (s.acked = true → ∃ t, exec i s = .next t ∧ t = ({ s with net := t.net }).setHart t.hart ∧
          t.hart = { h with req := .sent, winstr := some i, buf := [], again := true, st := .run } ∧
          t.net = { s.net with asks := s.net.asks ++ [⟨⟨s.cell.no, s.cell.slot, h.level, (w 3).toNat⟩, v.launch, v.team, f.handle,
            (s.groupCells v.launch v.team f.place).getD 0 0, ask, none⟩] })
      s.myField (w 0) = some f → (w 3).toNat < 2 ^ 17 → (w 3).toNat % 16 = 0 → (w 3).toNat + 16 ≤ s.cell.localSize →
        ((w 2).toNat < 2 ^ 55 → sends (.snap d a) (.snap (w 1).toNat (w 2).toNat)) ∧
        ((w 2).toNat < 2 ^ 32 → sends (.fmig d a) (.mig (w 1).toNat (BitVec.ofNat 32 (w 2).toNat)))) ∧
    (∀ l v o, s.cell.serving = some v → s.launchOf s.cell = some l → h.req = .idle → x.toNat % 128 = 0 → x.toNat < 2 ^ 55 → s.asid ≠ 0 →
      s.line? ⟨s.asid, s.gen s.asid, x.toNat / 128⟩ = some o → o.perm.allows h.level .load = true → o.data.length = 128 →
      (s.cohLine o.key).readable (dieOf s.cell.no) = true →
      let f := fieldFrom v.launch v.team (leWords o.data)
      let answered (v : Word) : Prop := exec (.fdecl d a) s = .next (s.setHart { h with req := .answered v, buf := [], again := true, st := .run })
      (s.acked = false → exec (.fdecl d a) s = .next (s.setHart { h with again := true, st := .run })) ∧
      (s.acked = true → (f.inRange l = false → answered 1) ∧ (f.inRange l = true → subgroupLegal l.lw l.lh f.place = false → answered 3) ∧
        (f.inRange l = true → subgroupLegal l.lw l.lh f.place = true → ∃ t, exec (.fdecl d a) s = .next t ∧ t = ({ s with net := t.net }).setHart t.hart ∧
          t.hart = { h with req := .sent, winstr := some (.fdecl d a), buf := [], again := true, st := .run } ∧
          t.net = { s.net with asks := s.net.asks ++ [⟨⟨s.cell.no, s.cell.slot, h.level, 0⟩, v.launch, v.team, 16,
            (s.groupCells v.launch v.team f.place).getD 0 0, .decl (leWords o.data), none⟩] }))) ∧
    ∀ v, h.req = .answered v →
      ScalarResult s (.fdecl d a) d v ∧
      (leNat (h.buf.take 8) = 0 → (∀ i ∈ ([.fstart d a, .fpause d a, .fstop d a b, .snap d a, .cplc d a b, .fmig d a] : List Instr),
        ScalarResult s i d v) ∧
        ∃ t, exec (.fphase d a b) s = .next t ∧ WentOn h t.hart ∧ SpecialsKept h t.hart ∧ FlagsKept h t.hart ∧ WroteScalar h t.hart d v ∧
          OthersKept s t ∧ BanksKept s t ∧ t.mem = s.mem ∧ RegisteredOnly t.cell) ∧
      (let n := leNat (h.buf.take 8)
       let o := leNat (h.buf.drop 8)
       let word (i : Nat) : Word := BitVec.ofNat 64 (leNat (s.cell.loc.read (o + i) 8))
       n ≠ 0 → o + 16 ≤ s.cell.localSize → ∀ i ∈ ([.fstop d a b, .snap d a, .fmig d a] : List Instr),
        ∃ t, exec i s = .next t ∧ OnlyLocal s t ∧ WentOn h t.hart ∧ WroteScalar h t.hart d v ∧ LocalKept s.cell t.cell o 16 ∧
          ObjectHolds s.cell t.cell o (expectWords n (word 0) (word 8)))

/-- R267 to R271: what a hart does with a field of its team and with a site handed to it. `fwaitb` completes with 1 at or past the boundary, with 2
where there is no such field, and `.try` with 0 before it. `sget` gives the site's value. `sput` of a legal value, where no snapshot marks
the site, stores it, frees the hart's hand and parks the hart for the Spindle. `rngf` gives the counter's block of the site. -/
def Obligations.SiteInstructions : Prop :=
  ∀ (s : State) (tr : Bool) (d a b : Reg) (no : Nat), s.cur = .cell no → Numbered s → InView s [d, a, b] [] →
    let h := s.hart
    let x := h.S a
    let i := (h.S b).toNat
    let passed (j : Instr) (v : Word) : Prop := ∃ t, exec j s = .next t ∧ WentOn h t.hart ∧ SpecialsKept h t.hart ∧ FlagsKept h t.hart ∧
      WroteScalar h t.hart d v ∧ OthersKept s t ∧ BanksKept s t ∧ t.mem = s.mem ∧ t.fields = s.fields ∧ RegisteredOnly t.cell
    ((∀ v, h.req ≠ .answered v) →
      (s.myField x = none → ScalarResult s (.fwaitb tr d a b) d 2) ∧
      ∀ f, s.myField x = some f → (i ≤ f.phase → passed (.fwaitb tr d a b) 1) ∧
        (f.phase < i → ScalarResult s (.fwaitb true d a b) d 0)) ∧
    (∀ f, s.myField x = some f → i < f.n → h.st = .wait .data → passed (.sget d a b) (BitVec.ofNat 64 (f.value i))) ∧
    ∀ k f, h.hand = some k → s.field? k.launch k.team k.handle = some f →
      (x.toNat ≤ f.nblk → f.replayed = false → ScalarResult s (.rngf d a) d (f.counterBlock k.site f.sweep x.toNat)) ∧
      (let v := x.toNat % 2 ^ (8 * f.size)
       f.legalValue v = true → s.acked = true → f.snaps = [] →
        ∃ t, exec (.sput a) s = .next t ∧ t.hart.hand = none ∧ t.hart.st = .park true ∧ t.hart.win = h.win ∧ OthersKept s t ∧ BanksKept s t ∧
          t.mem = s.mem ∧ t.fields = s.fields.map fun g =>
            if f.same g then { f with sites := f.sites.set k.site v, handed := f.handed.filter (· != k.site) } else g)

/-! ## Pool, page tables, generations, firmware -/

/-- R42, R44, R45, R47, R49, R51, R286, R287: `pool` and `poolq` complete. `pool` of no banks completes with 0; one that admission or the placement
test refuses, while no re-division is under way, completes with its code; one that they accept starts its re-division and issues again, and
one behind another waits in order; and each completes in the slot that finds its code. `poolq` completes for every selector up to 8: it reads
the profile, the high-water marks (and resets them), the quota, the minimums and the bank map. -/
def Obligations.PoolInstructions : Prop :=
  ∀ (s : State) (d : Reg) (src dst : BitVec 3) (m : BitVec 5) (no : Nat), s.cur = .cell no → InView s [d] [] →
    let h := s.hart
    let c := s.cell
    let i := Instr.pool d src dst m
    let completes (i : Instr) (v : Word) : Prop := ∃ t, exec i s = .next t ∧ WentOn h t.hart ∧ SpecialsKept h t.hart ∧ FlagsKept h t.hart ∧
      WroteScalar h t.hart d v ∧ OthersKept s t ∧ t.cell.banks = c.banks ∧ t.cell.rediv = c.rediv ∧ t.mem = s.mem
    let again (p : Hart → Cell → Prop) : Prop := ∃ t, exec i s = .next t ∧ t = { s with cell := t.cell } ∧ OthersKept s t ∧ t.hart.again = true ∧
      t.hart.st = .run ∧ t.hart.pc = h.pc ∧ t.hart.win = h.win ∧ t.cell.banks = c.banks ∧ p t.hart t.cell
    let code := s.accept c src.toNat dst.toNat m.toNat
    (src = dst ∨ m = 0 → ScalarResult s i d 0) ∧
    (src ≠ dst → m ≠ 0 → (∀ v, h.req = .answered v → ScalarResult s i d v) ∧
      (h.req = .sent → exec i s = .next (s.setHart { h with again := true, st := .run })) ∧
      (h.req = .idle → c.rediv = none → c.redivQ = [] →
        (code ≠ 0 → completes i (BitVec.ofNat 64 code)) ∧
        (code = 0 → c.placement src.toNat dst.toNat m.toNat = none → completes i 5) ∧
        (∀ take moves, code = 0 → c.placement src.toNat dst.toNat m.toNat = some (take, moves) → again fun g e => g.req = .sent ∧
          e.rediv = some ⟨c.slot, c.poolNo, src.toNat, dst.toNat, m.toNat, .handshake, c.cycle, take, moves⟩)) ∧
      (h.req = .idle → c.rediv ≠ none ∨ c.redivQ ≠ [] → again fun g e => g.req = .sent ∧ e.rediv = c.rediv ∧
        e.redivQ = c.redivQ ++ [⟨c.slot, c.poolNo, src.toNat, dst.toNat, m.toNat⟩])) ∧
    (∀ sel : BitVec 6, sel.toNat ≤ 8 → ∃ v, completes (.poolq d sel) v) ∧
    ScalarResult s (.poolq d 0) d c.profile ∧ ScalarResult s (.poolq d 1) d c.high ∧ ScalarResult s (.poolq d 3) d c.quota ∧
    ScalarResult s (.poolq d 4) d (s.minimums c) ∧
    (∀ n : Nat, n < 4 → ∃ v, ScalarResult s (.poolq d (BitVec.ofNat 6 (5 + n))) d v ∧
      ∀ j, j < 8 → v.extractLsb' (8 * j) 8 = c.banks.toList.getD (8 * n + j) 0) ∧
    (∃ t, exec (.poolq d 2) s = .next t ∧ t = { s with cell := t.cell } ∧ t.cell = { c with harts := t.cell.harts, high := c.profile } ∧
      (∀ k, k ≠ c.slot → t.cell.hart k = c.hart k) ∧ WentOn h t.hart ∧ SpecialsKept h t.hart ∧ FlagsKept h t.hart ∧
      WroteScalar h t.hart d c.high)

/-- R290, R342: each `ptst` of an entry in direct window A, at level S or above, sends its store to the entry's line, which begins to drain what it drains if the
entry's old value makes it a RETRACT (`ptKind`, R342), and issues again until it is performed, and then completes; nothing of memory changes before. The model's choice, LOG 41,
R342's last sentence calling a store to a line without a registered agent an ordinary one: such a line keeps the kinds too, and what is performed as a
RETRACT drains, beside the ranges of registered agents, those whose lines some die still holds (R309, R344). R291, R335, R349, R368: `genb`
issued again, on an ASID whose scrub is not under way, whose lines are clean and acknowledged and whose context entry the dies have latched, makes the next generation modulo 64 the
present one, latches the seed and the die set, starts the scrub and answers the new generation; ASID 0 and a reserved bit set are answered
2, and a scrub under way 1, with nothing changed. -/
def Obligations.TranslationInstructions : Prop :=
  (∀ (s : State) (a b : Reg) (i : Instr) (no : Nat), s.cur = .cell no → Numbered s →
     i ∈ ([.ptstGrant a b, .ptstRetract a b, .ptstHold a b, .ptstMove a b] : List Instr) → InView s [a, b] [] → Direct s.hart →
     s.hart.level ≠ .u →
     let h := s.hart
     let x := (h.S a).toNat
     x % 8 = 0 → 2 ^ 54 ≤ x → x < 2 ^ 54 + 2 ^ 52 →
     (h.req = .sent → (∀ p ∈ s.mem.ptStores, p.owner ≠ some (hartNo no s.cell.slot)) → HartResult s i h) ∧
     (h.req = .sent → (∃ p ∈ s.mem.ptStores, p.owner = some (hartNo no s.cell.slot)) →
       exec i s = .next (s.setHart { h with again := true, st := .run })) ∧
     (h.req = .idle → s.acked = true → ∀ l, s.line? ⟨0, 0, x / 128⟩ = some l → l.data.length = 128 →
       let pa := x % 2 ^ 52
       let on := s.registered (pa / 128)
       let old : Word := BitVec.ofNat 64 (leNat ((l.data.drop (x % 128)).take 8))
       let asked : Nat := if i = .ptstGrant a b then 0 else if i = .ptstRetract a b then 1 else if i = .ptstHold a b then 2 else 3
       let kind := ptKind asked (!on || s.isPt1 (pa / 128)) old (h.S b)
       ∃ t, exec i s = .next t ∧ t.hart = { h with req := .sent, again := true, st := .run } ∧ OthersKept s t ∧ BanksKept s t ∧ t.coh = s.coh ∧
         t.mem = { s.mem with ptStores := s.mem.ptStores ++
           [⟨asked, pa, leBytes 8 (h.S b).toNat, if kind ≠ 1 then [] else (s.rangesAt pa 8 ++ s.rangesKept pa).dedup,
             some (hartNo no s.cell.slot), s.tbase⟩] })) ∧
  (∀ (s : State) (d a : Reg), InView s [d, a] [] → Direct s.hart → s.hart.level ≠ .u →
     let h := s.hart
     let x := h.S a
     let asid := x.toNat % 4096
     (2 ^ 12 ≤ x.toNat ∨ asid = 0 → ScalarResult s (.genb d a) d 2) ∧
     (x.toNat < 2 ^ 12 → asid ≠ 0 → h.again = true →
       ((∃ p ∈ s.mem.scrubs, p.1 = asid) → ScalarResult s (.genb d a) d 1) ∧
       ((∀ p ∈ s.mem.scrubs, p.1 ≠ asid) → (∀ l ∈ s.mem.lines, l.key.asid = asid → l.dirty = false) → s.context asid ≠ .wait →
         (∀ w ∈ s.mem.wbPark, w.line.key.asid ≠ asid) → s.entryDiffers asid = false →
         ∃ t, exec (.genb d a) s = .next t ∧ WentOn h t.hart ∧ SpecialsKept h t.hart ∧ FlagsKept h t.hart ∧
           WroteScalar h t.hart d (BitVec.ofNat 64 (256 * ((s.gen asid + 1) % 64))) ∧
           t.gen asid = (s.gen asid + 1) % 64 ∧ (∀ b, b ≠ asid → t.gen b = s.gen b) ∧
           t.mem = { s.mem with gens := t.mem.gens, latched := t.mem.latched, scrubs := t.mem.scrubs } ∧
           (∀ ws, s.context asid = .ok ws → t.mem.latched =
             (asid, ws.getD 2 0, BitVec.ofNat 54 (ws.getD 1 0).toNat) :: s.mem.latched.filter fun p => p.1 != asid) ∧
           ∃ tick, t.mem.scrubs = s.mem.scrubs ++ [(asid, tick)])))

/-- R275, R292, R293, R354, R398, R399: the Headstock's own instructions complete at their second issue. `launch`, at level S or above, completes with its answer: code 3
for an address that is no descriptor's; for a readable descriptor of a launch, the code that refuses it, or 0 and the identifier of the launch, which
the module then holds; for any other readable descriptor, what the lead die answers. `fsvc` of a fault unit's entry frees it, and of a page or of every
page makes the die's nodes parked there ready now and counts them; no byte of memory changes but where a node finds its die's ready pool
full (R65). -/
def Obligations.FirmwareInstructions : Prop :=
  (∀ (s : State) (d a : Reg) (n : Nat) (ws : List Word) (u : State), s.cur = .core n → s.hart.level ≠ .u → InView s [d, a] [] → s.hart.again = true →
    let h := s.hart
    let x := (h.S a).toNat
    let completes (v : Word) (p : State → Prop) : Prop := ∃ t, exec (.launch d a) s = .next t ∧ WentOn h t.hart ∧ WroteScalar h t.hart d v ∧ p t
    x < 2 ^ 55 → x % 128 = 0 → s.readWords 54 0 h.level x 16 = (.ok ws, u) →
      (dField ws 0 0 2 = 0 → ∀ tb s₁, u.readTables ws = (.ok tb, s₁) →
        (s₁.launchCode ws tb ≠ 0 → completes (BitVec.ofNat 64 (s₁.launchCode ws tb)) fun t => t.launches = s₁.launches) ∧
        ∀ id ns s₂, s₁.launchCode ws tb = 0 → s₁.freeId = some id →
          s₁.firstNodes (dField ws 0 42 6) (dField ws 0 48 12) (ws.getD 5 0).toNat (List.range (dField ws 6 32 32)) [] = (ns, s₂) →
          completes (BitVec.ofNat 64 (2 ^ 16 * id)) fun t => ∃ l, t.launch? id = some l ∧ l.desc = ws ∧ l.nodes = ns) ∧
      ∀ v t₁, dField ws 0 0 2 ≠ 0 → u.serveLaunch ws = some (v, t₁) → completes v fun _ => True) ∧
  ∀ (s : State) (d a b : Reg) (n : Nat), s.cur = .core n → s.hart.level = .f → InView s [d, a, b] [] →
    let h := s.hart
    let x := h.S a
    let y := h.S b
    let die := fieldOf x 8 6
    let again (i : Instr) : Prop := h.again = false → exec i s = .next (s.setHart { h with again := true, st := .run })
    again (.launch d a) ∧
    (h.again = true → (2 ^ 55 ≤ x.toNat ∨ x.toNat % 128 ≠ 0) → ScalarResult s (.launch d a) d 3) ∧
    (fsvcOk x y = true → again (.fsvc d a b)) ∧
    (fsvcOk x y = false → exec (.fsvc d a b) s = s.trap .engine x) ∧
    (fsvcOk x y = true → h.again = true →
      let answers (v : Nat) (p : State → Prop) : Prop := ∃ t, exec (.fsvc d a b) s = .next t ∧ WentOn h t.hart ∧ SpecialsKept h t.hart ∧
        FlagsKept h t.hart ∧ WroteScalar h t.hart d (BitVec.ofNat 64 v) ∧ p t
      let kept (t : State) : Prop := t.mem.phys = s.mem.phys ∧ t.mem.lines = s.mem.lines
      let picked (q : ParkedNode) : Bool := q.die == die && (fieldOf x 0 2 == 2 || q.asid == fieldOf x 20 12 && q.page == y.toNat / 65536)
      (fieldOf x 0 2 = 0 → answers 0 fun t => (t.unit die).recs = (s.unit die).recs.filter (fun r => r.1 != fieldOf x 16 4) ∧
        kept t ∧ ∀ e, e ≠ die → t.unit e = s.unit e) ∧
      (fieldOf x 0 2 ≠ 0 → answers (s.mem.waitList.filter picked).length fun t =>
        t.mem.waitList = s.mem.waitList.filter (fun q => !picked q) ∧ t.mem.units = s.mem.units ∧
          ((s.mem.waitList.filter picked).length ≤ 1 → (∀ e, s.poolUsed e < 4096) → kept t) ∧
          ∀ q ∈ s.mem.waitList, picked q = true → ∀ l m, t.launch? q.launch = some l → l.nodes.find? (fun m => m.index == q.node) = some m →
            ∃ spilled, m.st = .ready s.now spilled))

/-! ## Steps of the units -/

/-- R19, R21, R71, R88, R117, R135 to R139, R201, R282: what happens to a hart between its instructions. A fetch that CODE does not serve misses its
lines and waits; a miss that waits at a held page goes on waiting, and one whose line the die has is answered with it; a line that comes delivers the
instruction's bytes, in time for the slot two cycles later; a wait whose event has come is completed, by its instruction, in its hart's slot; a takeable interrupt enters its level; a timer that is due
is pending with nothing stored, the bit being derived (the model's choice, LOG 14); the full/empty and routine limits trap; a remote store travels, acts at the cell that serves its team's
coordinates, follows a team that has moved, is refused for a saved one (R386), and is answered; words that are no instruction trap. -/
def Obligations.HartEvents : Prop :=
  ∀ (s : State) (c : Nat) (k : Slot), s.cur = .cell c → Numbered s → k = s.cell.slot →
    let h := s.hart
    let act (i : Instr) (t : State) : Prop := exec i s = .next t
    (s.active = true → h.st = .run → h.again = false → h.pc.toNat < 2 ^ 55 → s.cell.fetch s.asid (s.gen s.asid) h.level h.pc.toNat = none →
      ∃ t ms, act (.instructionFetch c k) t ∧ t.hart.st = .wait .fetch ∧ t.hart.pc = h.pc ∧ t.hart.win = h.win ∧ SpecialsKept h t.hart ∧ OthersKept s t ∧
        BanksKept s t ∧ t.mem = { s.mem with misses := s.mem.misses ++ ms } ∧ t.hart.asks = ms.map (fun (m : Miss) => m.id) ∧
        (∀ m ∈ ms, m.kind = .fetch ∧ m.agent = .cell c ∧ m.slot = k ∧ m.asid = s.asid ∧
          (m.va = h.pc.toNat ∨ 112 ≤ h.pc.toNat % 128 ∧ m.va = (h.pc.toNat / 128 + 1) * 128)) ∧
        (s.cell.codeLine? s.asid (s.gen s.asid) h.level (h.pc.toNat / 128) = none → ∃ m ∈ ms, m.va = h.pc.toNat)) ∧
    (∀ m l u g, s.mem.misses = [m] → m.agent = .cell c → m.slot = k → m.kind = .fetch → m.va = h.pc.toNat → m.phase = .come u g → g.fault = none →
      g.held = true → g.line = m.va / 128 → h.st = .wait .fetch → h.asks = [m.id] → h.got = [] → s.cell.storesCode (m.va / 128) = false →
      s.line? (s.missKey m) = some l →
      let bs := l.data.drop (m.va % 128)
      instrLen bs ≤ bs.length → ∃ t, act (.codeLineFill c k) t ∧ t.mem = { s.mem with misses := [] } ∧ BanksKept s t ∧
        HartSet s t c k { h with woken := true, buf := bs.take (instrLen bs), check := .passed, asks := [], got := [{ g with data := l.data, sb := l.sb }],
                                 ready := max h.ready (s.cell.cycleFrom u + 3) }) ∧
    (∀ m, s.mem.misses = [m] → m.agent = .cell c → m.slot = k → m.phase = .ask →
      ((s.missPlace m).1 = .wait → act (.heldRetry c k) s) ∧
      ∀ l, m.kind = .fetch → m.asid ≠ 0 → m.va < 2 ^ 55 → s.line? ⟨m.asid, s.gen m.asid, m.va / 128⟩ = some l → l.perm.allows m.level .fetch = true →
        (s.cohLine l.key).readable (dieOf c) = true → ∃ t, act (.heldRetry c k) t ∧
          t.mem = { s.mem with misses := [{ m with phase := .back ⟨m.va / 128, l.data, l.sb, true, none⟩ }] } ∧ ∀ n j, t.hartAt n j = s.hartAt n j) ∧
    (∀ i d a b w sc m off, s.active = true → (∃ e, e ≠ WaitCause.fetch ∧ h.st = .wait e) → h.winstr = some i →
      i ∈ ([.ld w d m, .amoAdd sc d a b, .ldfeK false d a off, .mlds d a, .tcopy d a b, .bwait false d a b, .tbar false d a b,
        .fwaitb false d a b, .sget d a b, .stfer false d a, .sleep a, .wfi] : List Instr) → exec (.waitComplete c k) s = exec i s) ∧
    (s.active = true →
      let waits (e : WaitCause) (i : Instr) : Prop := h.st = .wait e ∧ h.winstr = some i
      let completes (p : State → Prop) : Prop := ∃ t, exec (.waitComplete c k) s = .next t ∧ t.mem = s.mem ∧ OthersKept s t ∧ SpecialsKept h t.hart ∧
        FlagsKept h t.hart ∧ WentOn h t.hart ∧ p t
      let quiet (t : State) : Prop := t.hart.win = h.win ∧ t.hart.winSb = h.winSb
      (∀ a, waits .sleep (.sleep a) → InView s [a] [] → (h.S a).toNat ≤ s.tbase → completes fun t => t = s.setHart h.complete ∧ quiet t) ∧
      (waits .wfi .wfi → h.anyPending s.tbase = true → completes fun t => t = s.setHart h.complete ∧ quiet t) ∧
      (∀ d a b, waits .barrier (.bwait false d a b) → h.woken = true → (∀ e x, h.check ≠ .failed e x) → completes fun t => RegisteredOnly t.cell ∧ quiet t) ∧
      (∀ d a b, waits .teamBarrier (.tbar false d a b) → h.woken = true → completes fun t => RegisteredOnly t.cell ∧ quiet t) ∧
      (∀ d a b v, waits .boundary (.fwaitb false d a b) → InView s [d, a, b] [] → h.req = .answered v → completes fun t => WroteScalar h t.hart d v) ∧
      (∀ d a, waits .remote (.stfer false d a) → h.req = .answered 1 → completes fun t => t = s.setHart h.complete ∧ quiet t) ∧
      (∀ d a off, waits .fullEmpty (.ldfeK false d a off) → InView s [d, a] [] → (h.offset a off).toNat % 8 = 0 →
        (h.offset a off).toNat + 8 ≤ s.cell.localSize → (∀ e x, h.check ≠ .failed e x) → fullBit s.cell (h.offset a off).toNat = true →
        completes fun t => WroteScalar h t.hart d (BitVec.ofNat 64 (leNat (s.cell.loc.read (h.offset a off).toNat 8)))) ∧
      (∀ w d m g, waits .data (.ld w d m) → InView s (d :: regsOf m) [] → Came s (h.address m) (MW.bytes w) g →
        completes fun t => WroteScalar h t.hart d (loadedWord (w == .i8 || w == .i16 || w == .i32) (MW.bytes w)
          ((g.data.drop ((h.address m).toNat % 128)).take (MW.bytes w))))) ∧
    (∀ m bit, s.active = true → h.st = .run → h.again = false → s.gangAt s.cell = false → h.takeable s.tbase = some (m, bit) → (h.block m).vec ≠ 0 →
      ∃ t, act (.interruptTaken c k) t ∧ t.mem = s.mem ∧ t.hart.level = m ∧ t.hart.st = .run ∧ t.hart.pc = addrOf (h.block m).vec ∧
        t.hart.win = h.win ∧ (t.hart.block m).cause = BitVec.ofNat 64 (2 ^ 63 + bit) ∧ (t.hart.block m).val = 0 ∧
        (t.hart.block m).pc = addrOf h.pc ∧ (t.hart.block m).stat.getLsbD 0 = false ∧
        (t.hart.block m).stat.getLsbD 1 = (h.block m).stat.getLsbD 0 ∧ fieldOf (t.hart.block m).stat 2 2 = h.level.code ∧
        ∀ n, n ≠ m → t.hart.block n = h.block n) ∧
    (act (.timerPending c k) s ∧ ∀ m, (h.block m).ip.getLsbD 0 = false →
      ((h.ip m s.tbase).getLsbD 0 = true ↔ h.tcmp ≠ 0 ∧ h.tcmp.toNat ≤ s.tbase ∧ m = if h.ts.del.getLsbD 32 then .u else .s)) ∧
    (∀ d a off t0 i, s.active = true → h.st = .wait .fullEmpty → h.since = some t0 → t0 + h.fwl.toNat ≤ s.tbase → h.winstr = some i →
      (i = .ldfeK false d a off ∨ i = .ldfeE false d a off → s.cell.full (h.offset a off).toNat = false →
        exec (.fwlLimit c k) s = s.trap .feLimit (h.offset a off)) ∧
      (i = .stfe false d a off → s.cell.full (h.offset a off).toNat = true →
        exec (.fwlLimit c k) s = s.trap .feLimit (h.offset a off))) ∧
    (∀ x f t0, s.active = true → h.hand = some x → s.field? x.launch x.team x.handle = some f → x.tick = some t0 → f.rlim ≠ 0 → t0 + f.rlim ≤ s.tbase →
      ∃ t, act (.rlimExpire c k) t ∧ t.hart.win = h.win ∧ t.mem = s.mem ∧ (t.hart.hand = some { x with tick := none } ∨ t.hart.stopped = true) ∧
        ∀ m, h.vectored (h.target 10) = some m → t.hart.level = m ∧ t.hart.pc = addrOf (h.block m).vec ∧ t.hart.stopped = h.stopped ∧
          (t.hart.block m).cause = 10 ∧ (t.hart.block m).val = BitVec.ofNat 64 x.site) ∧
    (∀ w, exec (.illegalEncoding w) s = s.trap .illegal (w.setWidth 64)) ∧
    (∀ d a v, h.st = .wait .remote → h.winstr = some (.stfer false d a) → s.net.remote = [] → s.cell.serving = some v → h.held = [] →
      h.relAfter = [] → h.req = .answered 0 → (∀ t0, h.since = some t0 → s.tbase < t0 + h.fwl.toNat) →
      let p := peerRef (h.S a)
      ∃ u r, act (.stferResend c k) u ∧ HartSet s u c k { h with req := .sent } ∧ BanksKept s u ∧ u.net.remote = [r] ∧
        (r.cell, r.slot, r.launch, r.team, r.tx, r.ty, r.off, r.value) =
          (c, k, v.launch, v.team, p.tx, p.ty, (h.S a).toNat % 2 ^ 17, h.S d) ∧
        match s.teamCell v.launch v.team p.tx p.ty with
        | some m => r.dest = m ∧ r.answer = none ∧ (r.travel = true ↔ m ≠ c)
        | none => r.answer = some 2) ∧
    (∀ r rs, s.net.remote = r :: rs → r.cell = c → r.slot = k → r.travel = false → (∀ q ∈ rs, q.id ≠ r.id) →
      (∀ v, r.answer = some v → ∃ u, act (.stferAnswer c k) u ∧ u.net.remote = rs ∧ BanksKept s u ∧ HartSet s u c k
        { h with req := .answered (BitVec.ofNat 64 v), since := if v = 0 then some (h.since.getD s.tbase) else h.since }) ∧
      (r.answer = none → ∃ u, act (.stferAttempt c k) u ∧
        let e := s.cellAt r.dest
        let f := u.cellAt r.dest
        let reply (v : Nat) : Prop := u.net.remote = { r with travel := r.dest != r.cell, answer := some v } :: rs
        (s.remoteTarget r = some r.dest → e.bankFree r.off = false → u = s) ∧
        (s.remoteTarget r = some r.dest → e.bankFree r.off = true →
          (e.localSize < r.off + 8 → f = e ∧ reply 2) ∧
          (r.off + 8 ≤ e.localSize → fullBit e r.off = true → f = e ∧ reply 0) ∧
          (r.off % 8 = 0 → r.off + 8 ≤ e.localSize → fullBit e r.off = false → fullBit f r.off = true ∧ LocalHolds e f r.off 8 r.value.toNat ∧
            LocalKept e f r.off 8 ∧ reply 1)) ∧
        (∀ m, s.remoteTarget r = some m → m ≠ r.dest → f = e ∧ u.net.remote = { r with dest := m, travel := true } :: rs) ∧
        (s.remoteTarget r = none → f = e ∧
          (∀ t, s.team? r.launch r.team = some t → t.image ≠ [] → reply 0) ∧ (s.team? r.launch r.team = none → reply 2))))

/-- R58, R61, R63 to R72, R251, R253: the graph engine and the Chucks. A ready node goes to its cell's slot; the Chuck writes the node's arguments and
starts the hart; an accepted record enters the ring, in global memory too, and settles its node: done, parked on its page, or ready again; an
ended attempt is reported; starvation, at most one record of a team held, the drained launch, the gang's start, spawned nodes, and team
barriers, which complete once the stores and pushes of their harts are acknowledged. It is stated of a machine with one launch. The model's choices:
a record is written into the ring in the launch's own address space at level S (LOG 7), and a node's rank is the clock of `State.now` (LOG 23). -/
def Obligations.GraphEvents : Prop :=
  ∀ (s : State) (l : Launch), Numbered s → s.launches = [l] →
    (∀ n team c k, l.gangWait = false → l.unresolved = [] → s.candidate l = some (n, team, c) → s.eligibleSlot (s.cellAt c) = some k →
      ∃ t, exec (.dispatch l.lead) s = .next t ∧
        t.launches = [{ l.putNode { n with st := .running } with age := 0, pointer := (c + 1) % 663552 }] ∧
        HartSet s t c k { s.hartAt c k with chosen := some ⟨l.id, team, n.index, n.attempt, !n.precise, [], [], [], none,
          setField n.minimum 48 8 (max (profByte n.minimum 6) n.minStage)⟩ }) ∧
    (∀ c k t n, (s.hartAt c k).chosen = some t → t.launch = l.id → l.node? t.node = some n →
      ∃ u, exec (.chuckStart c k) s = .next u ∧ u.mem = s.mem ∧ u.launches = s.launches ∧ RegisteredOnly (u.cellAt c) ∧
        (∀ c' k', (c', k') ≠ (c, k) → u.hartAt c' k' = s.hartAt c' k') ∧
        let g := u.hartAt c k
        g.st = .run ∧ g.level = .u ∧ g.task = some t ∧ g.chosen = none ∧ g.pc = BitVec.ofNat 64 (l.imageBase + n.entry) ∧
          (∀ j, j < 6 → g.S (BitVec.ofNat 8 (j + 1)) = if j < n.argc then n.word (2 + j) else 0) ∧
          g.S 7 = BitVec.ofNat 64 t.node ∧ g.S 8 = BitVec.ofNat 64 t.attempt ∧ g.ts = (s.hartAt c k).ts ∧ g.tf = (s.hartAt c k).tf) ∧
    (∀ r rs o n, l.heldRecs = r :: rs → l.ring.length < l.ringCap → l.node? r.node = some n →
      let a := l.ringBase + 16 * (l.written % l.ringCap)
      l.asid ≠ 0 → a < 2 ^ 55 → a % 128 + 16 ≤ 128 → r.bytes.length = 16 → s.line? ⟨l.asid, s.gen l.asid, a / 128⟩ = some o →
      o.perm.allows .s .store = true → o.data.length = 128 → Settled s o.key → Ownable s l.lead o.key →
      let writes (n : Node) (w : List ParkedNode) : Prop := ∃ t, exec (.recordWrite l.lead) s = .next t ∧
        OnDieIs t (stored l.asid a 16 (leNat r.bytes) (onDie s)) ∧ t.mem = { s.mem with lines := t.mem.lines, waitList := s.mem.waitList ++ w } ∧
        BanksKept s t ∧ t.launches = [{ l.putNode n with heldRecs := rs, ring := l.ring ++ [r], written := l.written + 1 }]
      (r.kind = 1 → writes { n with st := .done } []) ∧
      (∀ p, r.kind = 2 → r.page = some p →
        writes { n with attempt := n.attempt + 1, st := .parked } [⟨dieOf (r.hart / 16), l.id, n.index, l.asid, p⟩]) ∧
      (r.kind = 2 → r.page = none → s.poolUsed l.lead < 4096 → writes { n with attempt := n.attempt + 1, st := .ready s.now none } [])) ∧
    (∀ c k t n r d, (s.hartAt c k).task = some t → t.ending = some (.failed r d) → (s.cellAt c).taskIdle t k = true → t.launch = l.id →
      l.node? t.node = some n → (s.hartAt c k).stopped = false →
      ∃ u, exec (.taskAbort c k r) s = .next u ∧ u.mem = s.mem ∧ u.hartAt c k = (s.hartAt c k).report t (hartNo c k) 1 r d none (s.sweepHart c k) ∧
        ∀ c' k', (c', k') ≠ (c, k) → u.hartAt c' k' = s.hartAt c' k') ∧
    (∀ c k t n p, (s.hartAt c k).task = some t → t.ending = some (.parkOn p) → (s.cellAt c).taskIdle t k = true → t.launch = l.id →
      l.node? t.node = some n → t.attempt < 255 →
      ∃ u, exec (.taskAbort c k 0x10) s = .next u ∧ u.launches = [l] ∧ u.mem = s.mem ∧
        ((u.hartAt c k).heldRec.map fun r => (r.kind, r.reason, r.hart, r.page)) = some (2, 0x10, hartNo c k, some p)) ∧
    (∀ t t0, l.team? t.no = some t → t.starve = some t0 → t.starved = false → t0 + 10000 ≤ s.tbase → s.starving l t = true →
      (∀ r ∈ l.heldRecs, r.kind = 3 → r.team ≠ t.no) →
      exec (.starvationRecord l.id t.no) s = .next { s with launches := [{ l.putTeam { t with starved := true } with
        heldRecs := l.heldRecs ++ [⟨0xFFFFFFFF, l.id, t.no, 3, false, 0, 0, 0, 0, 0, none⟩] }] }) ∧
    (l.drained = false → s.idleLaunch l = true → exec (.launchDrained l.id) s = .next { s with launches :=
      [{ l with drained := true, heldRecs := l.heldRecs ++ [⟨0xFFFFFFFF, l.id, 0xFF, 4, false, 0, 0, 0, 0, 0, none⟩] }] }) ∧
    (l.gangWait = true → l.start ≤ s.tbase →
      exec (.gangStart l.id) s = .next { s with launches := [{ l with gangWait := false }] }) ∧
    (∀ c k, s.spawner l.id = some (c, k) →
      let h := s.hartAt c k
      (l.capacity ≤ l.next → EventSets s (.spawnAdd l.id) c k { h with req := .answered (BitVec.allOnes 64) }) ∧
      (l.next < l.capacity → ∀ t, h.task = some t → t.replay = true → ∃ u, exec (.spawnAdd l.id) s = .next u ∧
        u.launches = [{ l with next := l.next + 1 }] ∧ u.mem = s.mem ∧ HartSet s u c k { h with
          req := .answered (BitVec.ofNat 64 l.next), task := some { t with spawns := t.spawns ++ [⟨l.next, leWords h.buf⟩] } })) ∧
    (∀ team w, s.groupCells l.id team w ≠ [] → (s.groupCells l.id team w).Nodup →
      (∀ c ∈ s.groupCells l.id team w, (s.cellAt c).arrived w = true ∧ (s.cellAt c).released w = true) →
      ∃ u, exec (.tbarComplete l.id team w) s = .next u ∧ u.mem = s.mem ∧ ∀ c ∈ s.groupCells l.id team w,
        (∀ e ∈ (u.cellAt c).tbars, e.word ≠ w) ∧ RegisteredOnly (u.cellAt c) ∧
        ∀ k, (∃ e ∈ (s.cellAt c).tbars.head?, e.word = w ∧ e.mask.getLsbD k.val = true) →
          ((s.hartAt c k).tbarWord = some w → (u.hartAt c k).woken = true) ∧
          ⟨w, k⟩ ∈ (u.cellAt c).tbarDone)

/-- R24, R109, R110, R113, R114, R229 to R232, R243 to R247, R298, R320, R321, R386, R389: the matrix and copy engines, cell by cell. Commands
start, behind what their entry follows, and retire in order; due credits are made; a copy's piece misses its line, and its
answer brings its bytes, has its bytes stored, or fails it; a piece is written a granule a cycle, and its last granule brings its credit: on the sender's object, or at a push's target on
the receive object with the credit going back in a packet; a forced publish makes the credits that are due; a failed copy traps in its
hart's slot; a push for a team that nothing serves is counted and fails. The model's choices: an `mswp` or `mfmt` starts from the second cycle after a
retirement on (`mfree`, LOG 46), and a credit or a retirement acts in the cycle after its own (LOG 21). -/
def Obligations.EngineEvents : Prop :=
  ∀ (s : State) (c : Nat), Numbered s →
    let e := s.cellAt c
    let sets (i : Instr) (f : Cell) : Prop := ∃ t, exec i s = .next t ∧ CellSet s t f ∧ t.mem = s.mem
    let makes (i : Instr) (p : State → Prop) : Prop := ∃ t, exec i s = .next t ∧ p t
    (∀ q qs, e.mq = q :: qs → (∀ r ∈ q :: qs, r.start = none) → q.entered < e.cycle → e.mfree ≤ e.cycle →
      e.follows q.slot q.after q.upto = true →
      let go (str : Bool) : MatCmd := { q with start := some e.cycle, narrow := str && s.alarmAt c, fmtWord := e.fmtWord, plane := e.aplane }
      (q.op = .mswp → sets (.matrixStart c) { e with mq := go false :: qs, aplane := !e.aplane }) ∧
      (∀ w, q.op = .mfmt w → sets (.matrixStart c) { e with mq := go false :: qs, fmtWord := w }) ∧
      (∀ o src tile m, q.op = .mstr o src tile m → sets (.matrixStart c) { e with mq := go true :: qs, narrow := s.alarmAt c }) ∧
      (∀ o src, q.op = .mlds o src → sets (.matrixStart c) { e with mq := go false :: qs })) ∧
    (∀ q qs t0, e.mq = q :: qs → q.start = some t0 → q.lastCycle t0 < e.cycle → e.mwait = [] → e.cwait = [] →
      sets (.matrixRetire c) { e with mq := qs, mfree := q.lastCycle t0 + 2 }) ∧
    (∀ k ks, e.credits = k :: ks → k.cmd = none → k.cycle < e.cycle → k.obj + 16 ≤ e.localSize → makes (.matrixPieceCredit c) fun t =>
      (t.cellAt c).credits = ks ∧ Credited e (t.cellAt c) k.obj k.bytes k.bad ∧ LocalKept e (t.cellAt c) k.obj 16 ∧ t.mem = s.mem ∧
        ∀ d, d ≠ c → t.cellAt d = s.cellAt d) ∧
    (∀ q qs, e.cq = q :: qs → (∀ r ∈ q :: qs, r.started = false) → q.entered < e.cycle → e.cfree ≤ e.cycle → e.rediv = none →
      sets (.copyStart c) { e with cq := { q with started := true, portTo := e.cycle - 1 } :: qs }) ∧
    (∀ q qs, e.cq = q :: qs → q.started = true → e.follows q.slot q.after q.upto = true → q.portTo < e.cycle → (∀ r ∈ qs, r.id ≠ q.id) →
      let issued (i : Instr) (a n off : Nat) : Prop := a % 128 + n ≤ 128 → 1 ≤ n →
        makes i fun t => BanksKept s t ∧ (t.cellAt c).cq = { q.step with portTo := e.cycle } :: qs ∧ ∃ p m, (t.cellAt c).pushes = e.pushes ++ [p] ∧
          t.mem = { s.mem with misses := s.mem.misses ++ [m] } ∧ p.cmd = q.id ∧ p.obj = q.obj ∧ p.size = n ∧ p.off = off ∧ p.state = .asked [m.id] ∧
          p.wrote = 0 ∧ p.fault = none ∧ (m.kind, m.agent, m.slot, m.asid, m.level, m.va, m.size) = (.pieceIn, .cell c, q.slot, q.asid, q.level, a, n)
      (∀ ws o, q.op = .tile ws o → q.run < (tileOf ws).n1 * (tileOf ws).n2 → (tileOf ws).kind = 0 →
        let p := q.piece (tileOf ws)
        issued (.copyPieceIssue c) p.1 p.2.2 p.2.1) ∧
      (∀ f addr loc n, q.op = .pack f true addr loc n → q.run < n →
        let z := if f.w then 17 else 25
        issued (.packBlock c) ((addr + q.run * z) % 2 ^ 64) z (loc + 32 * q.run))) ∧
    (∀ p ps q m u g, e.pushes = p :: ps → p.state = .asked [m.id] → (e.cq.find? fun x => x.id == p.cmd) = some q → s.mem.misses = [m] → m.phase = .come u g →
      let becomes (t : State) (f : Push) : Prop := (t.cellAt c).pushes = f :: ps ∧ BanksKept s t ∧ t.mem.misses = []
      let at_ := e.cycleFrom u
      let brings (bs sb : List Byte) : Prop := g.fault = none → m.kind = .pieceIn → ∃ t, s.copyAnswer c = some t ∧
        becomes t { p with state := .own, bytes := bs, sb := sb, ready := at_ + 2 }
      let bs := (g.data.drop (m.va % 128)).take m.size
      (∀ ws o, q.op = .tile ws o → brings bs (if (tileOf ws).gran then sbSlice g.sb (m.va % 128) m.size else [])) ∧
      (∀ f addr loc n, q.op = .pack f true addr loc n → m.size = (if f.w then 17 else 25) →
        brings (unpackCodes f (bs.take (m.size - 1))) (bs.drop (m.size - 1))) ∧
      (∀ l, g.fault = none → m.kind = .pieceOut → m.asid ≠ 0 → m.va < 2 ^ 55 → m.va % 128 + m.size ≤ 128 → p.bytes.length = m.size →
        s.line? ⟨m.asid, s.gen m.asid, m.va / 128⟩ = some l → l.perm.allows m.level .store = true → l.data.length = 128 → Settled s l.key →
        Ownable s (dieOf c) l.key → ∃ t, s.copyAnswer c = some t ∧ becomes t { p with state := .done false, bytes := [], sb := [], ready := at_ } ∧
          OnDieIs t (stored m.asid m.va m.size (leNat p.bytes) (onDie s)) ∧ t.mem.phys = s.mem.phys) ∧
      ∀ f ws o, g.fault = some f → q.op = .tile ws o → ∃ t, s.copyAnswer c = some t ∧ t.mem = { s.mem with misses := [] } ∧
        becomes t { p with state := .done true, bytes := [], sb := [], ready := at_, fault := some (f, m.va) }) ∧
    (∀ p ps, e.pushes = p :: ps → p.fault = none → p.obj % 16 = 0 → p.obj + 16 ≤ e.localSize → p.ready ≤ e.cycle →
      (∀ bad, p.state = .done bad → p.ready < e.cycle → makes (.copyPieceCredit c) fun t => (t.cellAt c).pushes = ps ∧
        Credited e (t.cellAt c) p.obj p.size bad ∧ LocalKept e (t.cellAt c) p.obj 16) ∧
      (let g := granuleAt p.off p.bytes.length p.wrote
       let bs := (p.bytes.drop (g.1 - p.off)).take g.2
       p.state = .own → (∀ r ∈ ps, ∀ bad, r.state ≠ .done bad) → p.sb = [] → e.takesPiece p = true → e.bankFree g.1 = true →
       p.wrote < granules p.off p.bytes.length →
        (p.lastWrite = false → makes (.copyPieceCredit c) fun t => t.mem = s.mem ∧
          (t.cellAt c).pushes = { p with wrote := p.wrote + 1, ready := e.cycle + 1 } :: ps ∧
          LocalHolds e (t.cellAt c) g.1 g.2 (leNat bs) ∧ LocalKept e (t.cellAt c) g.1 g.2) ∧
        (p.lastWrite = true → p.obj + 16 ≤ g.1 ∨ g.1 + g.2 ≤ p.obj → (∀ x, p.obj ≤ x → x < p.obj + 16 → ¬ Awaited e x) →
          makes (.copyPieceCredit c) fun t => (t.cellAt c).pushes = ps ∧ Credited e (t.cellAt c) p.obj p.size false ∧
            LocalHolds e (t.cellAt c) g.1 g.2 (leNat bs)))) ∧
    (∀ n p, s.pushFor c = some (n, p) → n ≠ c → p.sb = [] → e.takesPush p = true → p.wrote < granules p.off p.bytes.length →
      let g := granuleAt p.off p.bytes.length p.wrote
      let bs := (p.bytes.drop (g.1 - p.off)).take g.2
      let becomes (t : State) (f : Push → Push) : Prop := LocalHolds e (t.cellAt c) g.1 g.2 (leNat bs) ∧ t.mem = s.mem ∧
        (t.cellAt n).loc = (s.cellAt n).loc ∧ (t.cellAt n).pushes = mapFirst (· == p) f (s.cellAt n).pushes
      e.bankFree g.1 = true →
      (p.lastWrite = false → makes (.pushPerform c) fun t => becomes t fun x => { x with wrote := x.wrote + 1, ready := e.cycle + 1 }) ∧
      (p.lastWrite = true → p.robj + 16 ≤ g.1 ∨ g.1 + g.2 ≤ p.robj → (∀ x, p.robj ≤ x → x < p.robj + 16 → ¬ Awaited e x) →
        makes (.pushPerform c) fun t => becomes t (fun x => { x with state := .credit false, bytes := [], sb := [] }) ∧
          Credited e (t.cellAt c) p.robj p.size false ∧
          (s.net.closed = [] → ∃ q, t.net.sends = s.net.sends ++ [(q, e.begins)] ∧ q.id = p.id ∧ q.kind = .pieceCredit ∧ q.dsts = [portOf n]))) ∧
    (∀ p bad, e.pushes = [p] → p.state = .done bad → p.ready < e.cycle → p.fault = none → p.obj % 16 = 0 → p.obj + 16 ≤ e.localSize →
      makes (.forcedPublish c) fun t => (t.cellAt c).pushes = [] ∧ Credited e (t.cellAt c) p.obj p.size bad) ∧
    (∀ p ps, e.pushes = p :: ps → p.state = .peer → p.serving = none → p.cell ≠ c → makes (.teamDelivery c) fun t =>
      (t.cellAt c).pushes = { p with state := .credit true, bytes := [], sb := [] } :: ps ∧
      t.mem = (s.countDiverted (dieOf p.cell)).mem ∧ ∀ d, d ≠ c → t.cellAt d = s.cellAt d) ∧
    (∀ f fs m, s.cur = .cell c → s.active = true → s.attempting c s.cell.slot = false → s.hart.engErr = f :: fs → Direct s.hart → f.1 ≠ .fieldRoutine → s.hart.takesFaults = true → s.hart.vectored (s.hart.target 9) = some m →
      makes (.copyGlobalFault c) fun t => t.hart.level = m ∧ t.hart.pc = addrOf (s.hart.block m).vec ∧ (t.hart.block m).cause = 9 ∧
        (t.hart.block m).val = BitVec.ofNat 64 f.2 ∧ (t.hart.block m).pc = addrOf s.hart.pc ∧ t.hart.win = s.hart.win ∧ t.hart.engErr = fs)

/-- R27, R28, R31 to R35, R45 to R49, R405: the pool and the wheel of a cell. A re-division ends its handshake, copies, zeroes and switches at a
wheel boundary, with its code for the hart that asked; a matrix queue that does not drain ends it with code 4. A slot cap and a divider act at
a wheel boundary, the part of a tick that has passed kept; residents that a cap pauses are made known to slot 0 as its cycle ends (R11). -/
def Obligations.PoolEvents : Prop :=
  ∀ (s : State) (c : Nat), Numbered s →
    let e := s.cellAt c
    let sets (i : Instr) (f : Cell) : Prop := ∃ t, exec i s = .next t ∧ CellSet s t f ∧ t.mem = s.mem
    let ends (i : Instr) (r : Rediv) (code : Nat) (p : Cell → Prop) : Prop := ∃ t, exec i s = .next t ∧ t.mem = s.mem ∧
      (t.cellAt c).rediv = none ∧ ((e.hart r.slot).asksPool r.ticket = true → ((t.cellAt c).hart r.slot).req = .answered (BitVec.ofNat 64 code)) ∧
      p (t.cellAt c)
    (∀ r, e.rediv = some r →
      (r.phase = .handshake → e.shrinkDrained r = true →
        (r.moves = [] → sets (.poolHandshake c) { e with rediv := some { r with phase := r.afterMoves } }) ∧
        (r.moves ≠ [] → sets (.poolHandshake c) { e with rediv := some { r with phase := .relocate 0 }, cclosed := true })) ∧
      (r.phase = .handshake → r.src = 5 → e.mq ≠ [] → r.began + 8192 < e.cycle → e.redivQ = [] →
        ends (.matDrainTimeout c) r 4 fun f => f.banks = e.banks ∧ f.mclosed = false) ∧
      (∀ g, r.phase = .relocate g → (∀ q ∈ e.cq, q.started = false) → e.moveFree r g = true → sets (.localRelocation c) { e with
        rediv := some { r with phase := if g + 1 < 128 * r.moves.length then .relocate (g + 1) else r.afterMoves } }) ∧
      (r.phase = .switch → e.cycle % 16 = 0 → r.began < e.cycle → e.redivQ = [] →
        (s.accept e r.src r.dst r.m ≠ 0 → ends (.poolSwitch c) r (s.accept e r.src r.dst r.m) fun f => f.banks = e.banks ∧ f.loc = e.loc) ∧
        (s.accept e r.src r.dst r.m = 0 → r.src = 0 → r.dst ≠ 0 → r.moves = [] → r.take.Nodup → (∀ b ∈ r.take, b < 32) →
          ends (.poolSwitch c) r 0 fun f =>
            ∀ b, b < 32 → (b ∉ r.take → f.banks.toList.getD b 0 = e.banks.toList.getD b 0) ∧
              ∀ j, r.take[j]? = some b → f.banks.toList.getD b 0 = BitVec.ofNat 8 (r.dst + 8 * (e.count r.dst + j))))) ∧
    (e.cycle % 16 = 0 → (e.newDiv ≠ none ∨ e.m ≠ s.mnow (dieOf c) (railOf c)) →
      let m := s.mnow (dieOf c) (railOf c)
      sets (.dividerChange c) { e with div := e.newDiv.getD e.div, newDiv := none, m := m, acc := e.acc * m / e.m }) ∧
    (e.cycle % 16 = 0 → s.capDiffers e = true → ∃ t, exec (.slotCapApply c) s = .next t ∧ t.mem = s.mem ∧
      (t.cellAt c).removed = s.removedSlots e ∧ (∀ d, d ≠ c → t.cellAt d = s.cellAt d) ∧
      (∀ k, (t.cellAt c).hart k = { e.hart k with paused := decide (k.val < e.nres) && (s.removedSlots e).getLsbD k.val }) ∧
      ((∃ k : Slot, k.val < e.nres ∧ (s.removedSlots e).getLsbD k.val = true ∧ (e.hart k).paused = false) → (t.cellAt c).notice = true)) ∧
    (e.notice = true → (e.giveNotice.hart 0).ts.ip.getLsbD 2 = true ∧ e.giveNotice.notice = false)

/-- R359 to R367, R374: lines between dies, where no link is closed and no message of the line is stale. A request leaves its die where the slice has a
miss-table entry for it, and, once it has come, is judged by the home against the directory's state; a forward, an invalidation, data, counts and acknowledgements move the dies' states; an eviction asks for a
place, and a place is granted while the home has one; a write-back is written to memory where its sender still owns the line, and discarded
otherwise; a PutE takes an eviction entry's pending bit, is judged likewise and frees the bit. Data that a die gives up as they come serve the loads of
its that wait for them. The words that cells have registered are recalled or returned. -/
def Obligations.CoherenceEvents : Prop :=
  ∀ (s : State) (d : Nat) (l : LineKey), Numbered s → s.net.closed = [] → (∀ y ∈ s.coh, y.key = l → ∀ m ∈ y.msgs, s.stale m = false) →
    let x := s.cohLine l
    let line (i : Instr) (y : CohLine) (ms : List CohMsg) : Prop := ms ≠ [] ∨ { y with msgs := [] }.idle = false →
      ∃ t, exec i s = .next t ∧ LineIs (t.cohLine l) y ms ∧ (∀ k, k ≠ l → t.cohLine k = s.cohLine k) ∧ t.mem = s.mem
    let came (m : CohMsg) (ms : List CohMsg) : Prop := ∃ a rest, x.msgs = a :: rest ∧ a.msg = m ∧ rest.map (·.msg) = ms ∧ a.acts s.instant = true
    let inv : List CohMsg := (x.others d).map fun i => .inval i d
    (∀ m, m ∉ x.said → .pute d ∉ x.said → s.missFull d l = false →
      (m = .gets d → x.dieState d = .i → line (.gets d l) (x.setDie d .isD) (x.said ++ [m])) ∧
      (m = .getm d → x.dieState d = .i → line (.getm d l) (x.setDie d .imAd) (x.said ++ [m])) ∧
      (m = .upg d → x.dieState d = .s ∨ x.dieState d = .o → line (.upg d l) (x.setDie d .smAd) (x.said ++ [m]))) ∧
    (∀ m rest, x.msgs = m :: rest → m.acts s.instant = true → (∀ y ∈ rest, CohLine.asker y.msg = none) → x.busy = none →
      let ms := rest.map (·.msg)
      (let y := { x with busy := some d }
       m.msg = .gets d →
         (x.st = .i → line (.gets d l) { y with st := .x, owner := d } (ms ++ [.data d false])) ∧
         (x.st = .s → line (.gets d l) (y.addSharer d) (ms ++ [.data d true])) ∧
         (x.st = .o → line (.gets d l) (y.addSharer d) (ms ++ [.fwdGets x.owner d])) ∧
         (x.st = .x → line (.gets d l) { y.addSharer d with st := .o } (ms ++ [.fwdGets x.owner d]))) ∧
      (let y := { x with st := .x, owner := d, sharers := 0, busy := some d }
       (m.msg = .getm d →
         (x.st = .i → line (.getm d l) y (ms ++ [.data d false, .ackCount d 0])) ∧
         (x.st = .s → line (.getm d l) y (ms ++ [.data d false] ++ inv ++ [.ackCount d inv.length])) ∧
         (x.st = .x → line (.getm d l) y (ms ++ [.fwdGetm x.owner d, .ackCount d 0])) ∧
         (x.st = .o → line (.getm d l) y (ms ++ [.fwdGetm x.owner d] ++ inv ++ [.ackCount d inv.length]))) ∧
       (m.msg = .upg d → x.st = .s → x.sharer d = true → line (.upg d l) y (ms ++ inv ++ [.ackCount d inv.length])))) ∧
    (∀ m, m ∈ x.msgs → m.msg = .gets d → m.acts s.instant = false → (∀ y ∈ x.msgs, y.msg = .gets d → y = m) →
      s.missFull d l = false → ∃ t, exec (.gets d l) s = .next t ∧ t.cohLine l = x) ∧
    (∀ r ms, came (.fwdGets d r) ms → x.dieState d = .m ∨ x.dieState d = .e →
      line (.fwdGets d l) (x.setDie d .o) (ms ++ [.data r true])) ∧
    (∀ r ms, came (.fwdGetm d r) ms → x.dieState d = .m ∨ x.dieState d = .e ∨ x.dieState d = .o →
      line (.fwdGetm d l) (x.setDie d .i) (ms ++ [.data r false])) ∧
    (∀ r ms, came (.inval d r) ms → x.dieState d = .s → line (.invalidation d l) (x.setDie d .i) (ms ++ [.invAck r])) ∧
    (∀ sh ms, came (.data d sh) ms → .data d true ∉ ms → x.dieState d = .isD → (x.die d).once = false → (x.die d).seen = none →
      line (.data d l) (x.setDie d (if sh then .s else .e)) (ms ++ [.unblock d])) ∧
    (∀ sh ms v o, came (.data d sh) ms → .data d true ∉ ms → x.dieState d = .isD → (x.die d).once = true → (x.die d).seen = some v → s.line? l = some o →
      ∃ t, exec (.data d l) s = .next t ∧ LineIs (t.cohLine l) (x.setDie d .i) (ms ++ [.unblock d]) ∧ (∀ c k, t.hartAt c k = s.hartAt c k) ∧
        ∀ m ∈ s.mem.misses, (∃ n, m.agent = .cell n ∧ (s.hartAt n m.slot).pending = []) → m.die = d → m.phase = .ask → m.kind = .load false →
          s.missKey m = l → (∀ y ∈ s.mem.misses, y.id = m.id → y = m) → { m with phase := .back ⟨m.va / 128, v.1, v.2, false, none⟩ } ∈ t.mem.misses) ∧
    (∀ n ms, came (.ackCount d n) ms → x.dieState d = .smAd → (x.die d).acks = n →
      line (.ackCount d l) (x.setDie d .m) (ms ++ [.unblock d])) ∧
    (∀ ms, came (.invAck d) ms → x.dieState d = .smA ∨ x.dieState d = .imA → (x.die d).count = some ((x.die d).acks + 1) →
      line (.invAck d l) (x.setDie d .m) (ms ++ [.unblock d])) ∧
    (∀ ms, came (.unblock d) ms → line (.unblock d l) { x with busy := none } ms) ∧
    (∀ entry, entry < 2 → s.lineHome l.asid (l.line * 128) ≠ d → s.entryBusy d (s.homeSlice l) entry = false →
      (x.dieState d = .m → line (.placeRequest d (s.homeSlice l) entry l) (x.setDie d .miA) (x.said ++ [.placeReq d (s.homeSlice l) entry])) ∧
      (x.dieState d = .o → line (.placeRequest d (s.homeSlice l) entry l) (x.setDie d .oiA) (x.said ++ [.placeReq d (s.homeSlice l) entry]))) ∧
    (∀ i e ms, came (.placeReq d i e) ms → line (.placeRequest d i e l) { x with places := x.places ++ [(d, i, e)] } ms) ∧
    (∀ p, s.coh = [x] → x.places = [p] → .pute p.1 ∉ x.said → s.placesUsed (s.lineHome l.asid (l.line * 128)) (s.homeSlice l) < 32 →
      line (.placeGrant (s.lineHome l.asid (l.line * 128)) (s.homeSlice l)) { x with places := [] } (x.said ++ [.placeGrant p.1])) ∧
    (∀ ms, came (.writeBack d) ms → x.busy = none →
      let acked := ms ++ [.wbAck d]
      (x.st = .x → x.owner ≠ d → line (.writeBack d l) x acked) ∧
      (∀ o pa, x.st = .x → x.owner = d → s.line? l = some o → o.dirty = true → o.data.length = 128 → s.wbTarget o = some (pa, false) →
        inStack pa = true → s.failed (dieOfPa pa) = false → s.refreshing (dieOfPa pa) = false →
        ∃ t, exec (.writeBack d l) s = .next t ∧ LineIs (t.cohLine l) { x with st := .i, owner := 0 } acked ∧
          t.line? l = some { o with dirty := false } ∧
          ∀ y, t.mem.phys.byte y = if pa ≤ y ∧ y < pa + 128 then o.data.getD (y - pa) 0 else s.mem.phys.byte y)) ∧
    (∀ ms, came (.wbAck d) ms → ∃ t, exec (.wback d l) s = .next t ∧ (t.cohLine l).dieState d = .i ∧ (t.cohLine l).said = ms ∧
      t.mem.phys = s.mem.phys) ∧
    (x.dieState d = .e → .pute d ∉ x.said →
      let bit (e : Nat) := { x.setDie d .i with places := x.places ++ [(d, s.homeSlice l, e)] }
      let taken (e : Nat) : Bool := s.entryBusy d (s.homeSlice l) e
      (taken 0 = false → line (.pute d l) (bit 0) (x.said ++ [.pute d])) ∧
      (taken 0 = true → taken 1 = false → line (.pute d l) (bit 1) (x.said ++ [.pute d])) ∧
      (taken 0 = true → taken 1 = true → exec (.pute d l) s = .next s)) ∧
    (∀ ms, came (.pute d) ms → x.busy = none → x.st = .x → x.owner = d → ∃ t, exec (.pute d l) s = .next t ∧ (t.cohLine l).st = .i ∧
      (t.cohLine l).said = ms ∧ (t.cohLine l).places = x.places.filter (fun p => p.1 != d) ∧ t.mem.phys = s.mem.phys) ∧
    (∃ t, exec (.recallLine d l) s = .next t ∧ t.mem = s.mem ∧ ∀ c, t.cellAt c = if dieOf c = d then { s.cellAt c with
      cache := (s.cellAt c).cache.map fun k => if k.key == l then { k with valid := k.valid &&& ~~~ k.regs, regs := 0 } else k } else s.cellAt c) ∧
    ∀ c, let e := s.cellAt c
      (∃ t, exec (.wordReturn c l) s = .next t ∧ t.mem = s.mem ∧
        CellSet s t { e with cache := e.cache.map fun k => if k.key == l then { k with regs := 0 } else k }) ∧
      ∃ t, exec (.cacheEvict c l) s = .next t ∧ t.mem = s.mem ∧ CellSet s t { e with cache := e.cache.filter fun k => k.key != l }

/-- R189, R190, R338, R340 to R351, R353, R359: translation and faults. A walk fills an entry or sets a mark; the agents registered on a line drop what
they derive from it and its store is performed; a RETRACT is performed once its pages hold no copy; a page fault is recorded, its entry freed and the nodes parked on it made ready again; a scrub clears
the tags of old generations; write checks pass, registering the words, or end in their failure. -/
def Obligations.TranslationEvents : Prop :=
  ∀ (s : State) (asid page : Nat), Numbered s →
    (s.dieSet asid ≠ 0 → s.draining asid page = false → s.entry? asid page = none →
      (∀ m ∈ s.mem.marks, ¬ (m.asid = asid ∧ m.page = page)) →
      (∀ w pa ls, s.walk asid page = .ok (w, pa, ls) → ∃ t, exec (.translationWalk asid page) s = .next t ∧
        t.entry? asid page = some ⟨asid, s.gen asid, page, w, pa, pteH w, s.agentDie asid page, ls⟩ ∧ (t.mem.phys, t.mem.lines) = (s.mem.phys, s.mem.lines) ∧
        t.cell = s.cell) ∧
      ∀ line level, s.walk asid page = .page line level →
        (∃ t, exec (.translationWalk asid page) s = .next t ∧ t.mem.marks = ⟨asid, page, line, level, []⟩ :: s.mem.marks ∧
          t.registered line = true ∧ (t.mem.phys, t.mem.lines) = (s.mem.phys, s.mem.lines)) ∧
        ∀ c k va kind park, asid = ((s.launchOf (s.cellAt c)).map (·.asid)).getD 0 → va / 65536 = page → (s.unit (dieOf c)).recs = [] →
          ∃ t, exec (.pageFault c k va kind park) s = .next t ∧ (t.unit (dieOf c)).recs =
            [(0, ⟨page, asid, s.gen asid, kind, c, k.val, 1, kind == 1, !park, park, s.tbase⟩)] ∧ t.mem.phys = s.mem.phys) ∧
    (∀ (p : PtStore) (l : OLine), s.mem.ptStores = [p] → p.bytes.length = 8 → p.pa < 2 ^ 52 → p.pa % 8 = 0 → s.line? (windowKey p.pa) = some l →
      l.data.length = 128 → s.gen 0 = 0 → Settled s l.key → Ownable s (dieOfPa p.pa) l.key → s.drained p = true →
      let stored' (t : State) : Prop := t.mem.ptStores = [] ∧ (∀ e ∈ t.mem.agents, p.pa / 128 ∉ e.ptLines) ∧ t.registered (p.pa / 128) = false
      ((s.ptPlan p).1 = 0 → ∃ t, exec (.agentDrop (p.pa / 128)) s = .next t ∧ stored' t ∧ t.mem.phys = s.mem.phys ∧
        OnDieIs t (stored 0 (windowA p.pa) 8 (leNat p.bytes) (onDie s))) ∧
      (∀ a, s.ptPlan p = (1, [(a, page, 1)]) → a ≠ 0 → s.drainStalled { p with drain := [(a, page, 1)] } = false → ∃ t, exec .retractDrain s = .next t ∧ stored' t ∧
        (∀ k ∈ t.mem.lines, k.key.asid = a → k.key.line / 512 ≠ page) ∧ ∀ c, ∀ k ∈ (t.cellAt c).cache, k.key.asid = a → k.key.line / 512 ≠ page)) ∧
    (∀ d e, ∃ t, exec (.mapDone d e) s = .next t ∧ (t.unit d).recs = (s.unit d).recs.filter (fun r => r.1 != e) ∧
      (∀ f, f ≠ d → t.unit f = s.unit f) ∧ t.mem.waitList = s.mem.waitList) ∧
    (∀ d i all, i = (if all then .replayAll d else .replayPage d asid page) →
      let picked (q : ParkedNode) : Bool := q.die == d && (all || q.asid == asid && q.page == page)
      ∃ t, exec i s = .next t ∧ t.mem.waitList = s.mem.waitList.filter (fun q => !picked q) ∧
        ((s.mem.waitList.filter picked).length ≤ 1 → (∀ e, s.poolUsed e < 4096) → t.mem.phys = s.mem.phys) ∧
        ∀ q ∈ s.mem.waitList, picked q = true → ∀ l m, t.launch? q.launch = some l → l.nodes.find? (fun m => m.index == q.node) = some m →
          ∃ spilled, m.st = .ready s.now spilled) ∧
    ((∃ p ∈ s.mem.scrubs, p.1 = asid) → ∃ t, exec (.generationScrub asid) s = .next t ∧ t.gen asid = s.gen asid ∧ t.mem.phys = s.mem.phys ∧
      (∀ p ∈ t.mem.scrubs, p.1 ≠ asid) ∧ (∀ k ∈ t.mem.lines, k.key.asid = asid → k.key.gen = s.gen asid) ∧
      (∀ e ∈ t.mem.agents, e.asid = asid → e.gen = s.gen asid) ∧ (∀ k ∈ s.mem.lines, k.key.asid ≠ asid → k ∈ t.mem.lines) ∧
      ∀ c, ∀ k ∈ (t.cellAt c).code, k.key.asid = asid → k.key.gen = s.gen asid) ∧
    ∀ (c : Nat) (k : Slot) (m : Miss), s.cur = .cell c → k = s.cell.slot → s.mem.misses = [m] → m.agent = .cell c → m.slot = k →
      (∀ l, m.kind = .check ∨ m.kind = .replay → m.phase = .ask → m.asid ≠ 0 → m.va < 2 ^ 55 →
        s.line? ⟨m.asid, s.gen m.asid, m.va / 128⟩ = some l → l.perm.allows m.level .store = true → (s.cohLine l.key).writable (dieOf c) = true →
        ∃ t, exec (.heldRetry c k) s = .next t ∧ (∀ n j, t.hartAt n j = s.hartAt n j) ∧
          t.mem.misses = [{ m with phase := .back ⟨m.va / 128, l.data, l.sb, true, none⟩ }] ∧
          (m.words ≠ 0 → s.cell.roomFor 4 ≠ 0 → ∃ x ∈ (t.cellAt c).cache, x.key = l.key) ∧
          ∀ x ∈ (t.cellAt c).cache, x.key = l.key → x.regs &&& m.words = m.words) ∧
      ∀ u g, m.phase = .come u g →
        let h := s.hart
        let comes (i : Instr) (g' : Hart) : Prop := ∃ t, exec i s = .next t ∧ HartSet s t c k g' ∧ t.mem = { s.mem with misses := [] }
        (∀ n, m.kind = .check → h.check = .sent [(m.va, n)] → h.asks = [m.id] → h.got = [] → g.line = m.va / 128 →
          comes (.writeCheck c k) { h with asks := [], got := [g], ready := max h.ready (s.cell.cycleFrom u + 1),
                                           check := match g.fault with
                                             | some e => .failed e m.va
                                             | none => .passed }) ∧
        ∀ t, m.kind = .replay → h.task = some t → t.ending = none → h.attempt = m.task → m.va / 128 ∈ t.checks →
          comes (.replayCheckFault c k) { h with task := some { t with checks := t.checks.filter (· != m.va / 128) },
                                                 engErr := h.engErr ++ (g.fault.map fun e => (e, m.va)).toList }

/-- R82, R83, R85, R86, R89, R93 to R98, R257 to R266: the steps of fields. A request is served at its origin cell and its answer reaches the hart; the
Spindle hands the next site of the phase to a parked sweep hart, with its registers; the phase barrier advances P and acts at the
boundary; a move is made or refused, and the cells that it brings in make an acquire; a marked site's old value is copied and credited; the end
writes every site back and frees the handle. A field stopped from IDLE counts as stopped while it is written back by the model's choice (LOG 46);
the corners of moves, marks and ends are its reading (LOG 30). -/
def Obligations.FieldEvents : Prop :=
  ∀ (s : State) (f : Field) (l : Launch), Numbered s → s.field? f.launch f.team f.handle = some f → s.launch? f.launch = some l →
    let now (g : Field) : List Field := s.fields.map fun x => if f.same x then g else x
    let makes (i : Instr) (p : State → Prop) : Prop := ∃ t, exec i s = .next t ∧ p t
    let quiet (t : State) : Prop := t.mem = s.mem ∧ t.cell = s.cell ∧ t.others = s.others ∧ t.launches = s.launches
    (∀ r, s.net.asks = [r] → r.answer = none → r.launch = f.launch → r.team = f.team → r.handle = f.handle →
      let served (v : Word) (n : Nat) (g : Field) : Prop := makes (.fieldRequestServe r.origin) fun t => quiet t ∧ t.fields = now g ∧
        t.net.asks = [{ r with answer := some (v, n) }]
      let told (v : Word) : Prop := makes (.fieldRequestServe r.origin) fun t => quiet t ∧ t.fields = s.fields ∧
        t.net.asks = [{ r with answer := some (v, 0) }]
      let bytes := f.n * f.size
      (r.ask = .start → f.st = .idle → s.viewsHold f = true → served 0 0 { f with st := .sweeping, swapPause := false, todo := f.phaseSites f.phase }) ∧
      (r.ask = .start → f.st = .idle → s.viewsHold f = false → told 4) ∧
      (r.ask = .pause → f.st = .sweeping → served 0 0 { f with st := .pausing }) ∧
      (r.ask = .stop → f.st = .idle → f.commit = none → f.snaps = [] → served 0 bytes { f with st := .ending, stop := some r.client }) ∧
      (r.ask = .stop → f.st = .sweeping → f.commit = none → f.snaps = [] → served 0 bytes { f with st := .stopping, stop := some r.client }) ∧
      (r.ask = .phase false → told (BitVec.ofNat 64 f.phase)) ∧
      (∀ b buf, r.ask = .snap b buf → f.stops = true → told 9) ∧
      (∀ b buf, r.ask = .snap b buf → f.stops = false → b ≤ f.phase → told 5) ∧
      (∀ b buf, r.ask = .snap b buf → f.stops = false → f.phase < b → f.snaps.length < 2 →
        served 0 bytes { f with snaps := f.snaps ++ [⟨s.cmdNo, b, buf, r.client, none⟩] }) ∧
      (∀ b, r.ask = .cplc b → f.stops = false → f.phase < b → f.commit = none → served 0 0 { f with commit := some b }) ∧
      (∀ b w, r.ask = .mig b w → f.stops = false → s.moveRefused f l w = true → told 3) ∧
      (∀ b w, r.ask = .mig b w → f.stops = false → s.moveRefused f l w = false → f.move = none → f.phase < b →
        served 0 bytes { f with move := some ⟨b, w, r.client⟩ })) ∧
    (∀ r rs a, s.net.asks = r :: rs → r.answer = some a → (s.hartAt r.client.cell r.client.slot).req = .sent →
      s.clientServes r.client r.launch r.team = true → makes (.fieldAnswer r.client.cell r.client.slot) fun t => t.net.asks = rs ∧ t.mem = s.mem ∧ HartSet s t r.client.cell r.client.slot
        { s.hartAt r.client.cell r.client.slot with req := .answered a.1, buf := leBytes 8 a.2 ++ leBytes 8 r.client.obj }) ∧
    (∀ c i k, s.cellField c = some f → f.sweeps = true → f.moving = false → f.replayed = false →
      (f.todo.find? fun i => (s.fieldCells f).getD (f.siteHome i).1 0 == c) = some i → (s.cellAt c).parkedSweep f.hsw = some k →
      (s.hartAt c k).sAddr 9 ≤ (s.hartAt c k).vAddr 0 → makes (.spindleHand c) fun t =>
        let g := t.hartAt c k
        let w (n : Nat) : Word := BitVec.ofNat 64 n
        t.fields = now { f with todo := f.todo.filter (· != i), handed := f.handed ++ [i] } ∧ t.mem = s.mem ∧
        (∀ c' k', (c', k') ≠ (c, k) → t.hartAt c' k' = s.hartAt c' k') ∧ g.st = .run ∧ g.level = .u ∧
        g.pc = w (l.imageBase + fieldOf (f.word 12) 0 32) ∧ g.hand = some ⟨f.launch, f.team, f.handle, i, some s.tbase⟩ ∧
        g.S 1 = w i ∧ g.S 2 = w (f.value i) ∧ g.S 4 = f.counterBlock i f.sweep 0 ∧ g.S 5 = w f.phase ∧ g.S 6 = w (f.places i).length ∧
        g.S 7 = w f.handle ∧ g.S 8 = w (f.present i)) ∧
    (f.sweeps = true → f.todo = [] → f.handed = [] → f.moving = false →
      let b := f.phase + 1
      let st := if f.st = .pausing then FieldState.idle else if f.st = .stopping then FieldState.ending else f.st
      makes (.phaseBarrier f.launch f.team f.handle) fun t => t.mem = s.mem ∧ t.launches = s.launches ∧ t.fields = now { f with
          phase := b, st := st,
          snaps := f.snaps.map (fun x => if x.b == b then { x with marked := some (List.range f.n) } else x),
          bank := if f.commit = some b then !f.bank else f.bank, commit := if f.commit = some b then none else f.commit,
          todo := if st = .sweeping then f.phaseSites b else [] } ∧
        (f.commit = some b → ∀ n ∈ s.liveCells f, RegisteredOnly (t.cellAt n)) ∧
        (f.commit ≠ some b → ∀ n, (t.cellAt n).cache = (s.cellAt n).cache) ∧ (∀ n, (t.cellAt n).loc = (s.cellAt n).loc) ∧
        (∀ n k, t.hartAt n k = s.hartAt n k ∨ t.hartAt n k = { s.hartAt n k with req := .answered 1, woken := true }) ∧
        ∀ u, s.team? f.launch f.team = some u → u.placed = true → ∀ n ∈ s.teamCells f.launch f.team, ∀ k y d a a',
          let h := s.hartAt n k
          h.st = .wait .boundary → h.winstr = some (.fwaitb y d a a') → (h.S a).toNat = f.handle → h.req = .idle →
            t.hartAt n k = if (h.S a').toNat ≤ b then { h with req := .answered 1, woken := true } else h) ∧
    (∀ m, f.move = some m → m.b ≤ f.phase → (∀ x ∈ f.snaps, x.marked = none) → s.fieldPlaced f = true →
      let g := { f with place := m.word, move := none }
      let bad := s.fewBanks g (s.fieldCells g) || s.otherField f (s.fieldCells g) || s.fewHarts f (s.fieldCells g) || !s.viewsHold g
      makes (.fieldMove f.launch f.team f.handle) fun t => t.mem = s.mem ∧
        t.fields = now (if bad then { f with move := none } else g) ∧
        ∀ n, (bad = false ∧ n ∈ s.fieldCells g ∧ n ∉ s.fieldCells f → RegisteredOnly (t.cellAt n)) ∧
          (bad = true ∨ n ∉ s.fieldCells g ∨ n ∈ s.fieldCells f → (t.cellAt n).cache = (s.cellAt n).cache)) ∧
    (let asid := s.asidOf f.launch
     let served (cl : Client) (a : Nat) : Prop := a < 2 ^ 55 ∧ a % 128 + f.size ≤ 128 ∧ asid ≠ 0 ∧ ∃ o, s.line? ⟨asid, s.gen asid, a / 128⟩ = some o ∧
      o.perm.allows cl.level .store = true ∧ o.data.length = 128 ∧ Settled s o.key ∧ Ownable s (dieOf cl.cell) o.key
     (∀ c x i, s.cellField c = some f → f.snaps = [x] → x.marked = some [i] → (s.fieldCells f).getD (f.siteHome i).1 0 = c →
      let a := (x.buf + i * f.size) % 2 ^ 64
      served x.client a → x.client.obj % 16 = 0 → x.client.obj + 16 ≤ (s.cellAt x.client.cell).localSize →
      s.clientServes x.client f.launch f.team = true → makes (.backgroundCopy c) fun t =>
        t.fields = now { f with snaps := [] } ∧ OnDieIs t (stored asid a f.size (f.value i) (onDie s)) ∧
        Credited (s.cellAt x.client.cell) (t.cellAt x.client.cell) x.client.obj f.size false) ∧
     (∀ cl, f.stop = some cl → f.st = .ending → f.move = none → f.snaps = [] → s.fieldPlaced f = true → (∀ i, i < f.n → served cl ((f.init + i * f.size) % 2 ^ 64)) →
      makes (.fieldWriteBack f.launch f.team f.handle) fun t => (t.fields = s.fields.filter fun x => !f.same x) ∧
        OnDieIs t ((List.range f.n).foldl (fun g i => stored asid ((f.init + i * f.size) % 2 ^ 64) f.size (f.value i) g) (onDie s))))

/-- R320, R374, R379, R382 to R384, R387, R388, R425: the network. A packet that arrives takes the room it has reserved, enters at its port where the link
is free, none of a lower source may go first and there is room, and leaves at its target; a miss begins its lookup there, and an answer has come; a
stale packet is dropped and counted; a lone head with room beyond is granted from the cycle after it heads its buffer on, leaves it and comes to the
next. That packets are moved with no data in them, what a cell's input keeps, and the instants are the model's choice (LOG 29). -/
def Obligations.NetworkEvents : Prop :=
  ∀ (s : State) (node inp : Nat) (p : Packet),
    let b := s.net.buf node inp p.vc
    let now := s.instant
    let others (t : State) : Prop := ∀ n i v, (n, i, v) ≠ (node, inp, p.vc) → t.net.buf n i v = s.net.buf n i v
    (∀ x ps, b.coming = x :: ps → x.pkt = p → x.came ≤ now →
      (node < 4000 → ∃ t, exec (.packetArrival node inp p) s = .next t ∧ t.mem = s.mem ∧
        (t.net.buf node inp p.vc).queue = b.queue ++ [x] ∧ (t.net.buf node inp p.vc).coming = ps ∧ others t) ∧
      (4000 ≤ node → s.current p = true → ∃ t, exec (.packetArrival node inp p) s = .next t ∧
        (t.net.buf node inp p.vc).queue = b.queue ++ (if p.kind = .piece then [x] else []) ∧ (t.net.buf node inp p.vc).coming = ps ∧ others t ∧
        ((p.kind = .attempt ∨ p.kind = .answer) → ∀ r ∈ t.net.remote, r.id = p.id → r.travel = false) ∧
        (if p.kind = .miss ∨ p.kind = .request ∨ p.kind = .bulkLine then
          t.mem = { s.mem with misses := s.mem.misses.map fun (m : Miss) => if m.id ≠ p.id then m else match m.phase with
            | .out => { m with phase := .look (now + s.netTime node 10) }
            | .back r => { m with phase := .come now r }
            | _ => m }
         else t.mem = s.mem)) ∧
      (inp = 0 → s.current p = false → ∃ t, exec (.staleDrop node p) s = .next t ∧
        (t.net.buf node inp p.vc).queue = b.queue ∧ (t.net.buf node inp p.vc).coming = ps ∧ others t ∧
        let a := netBlock (siteOf node).1 + 0x18
        fieldOf (t.devReg a) 32 16 = min (fieldOf (s.devReg a) 32 16 + 1) 0xFFFF)) ∧
    (∀ q, b.coming = [] → entryOf p.src = (node, inp) → (s.net.sends.find? fun q => q.1 == p) = some q → s.netHere.mayEnter q = true →
      s.netHere.linkTurn p = true → ∃ t, exec (.packetArrival node inp p) s = .next t ∧
      t.mem = s.mem ∧ t.net.sends = s.net.sends.erase q ∧ others t ∧ t.net.linkFree node inp = now + s.netTime node p.flits ∧
      (t.net.buf node inp p.vc).queue = b.queue ++ [⟨p, now + s.netTime node (if 2000000 ≤ p.src then 4 else 1) +
        (if isCell p.src then s.cellCrossing (p.src - 4000) else 0), false⟩]) ∧
    (b.coming = [] → now < s.net.linkFree node inp ∨ s.netHere.room b p = false ∨ (∀ q ∈ s.net.sends, q.1 = p → now < q.2) →
      exec (.packetArrival node inp p) s = .next s) ∧
    (∀ x ps d, s.net.bufs = [b] → b.queue = x :: ps → x.pkt = p → x.came + s.netTime node (grantDelay node inp (packetOuts p node)) ≤ now → b.age = 0 →
      (∀ y ∈ b.leaving, y.sent + s.netTime node 1 ≤ now) → p.dsts = [d] → p.flits ≤ 6 →
      let o := outputFor node p.src d
      let next := if isLast node o then (d, 0) else beyond node o
      next ≠ (node, inp) → (s.outPort node o).free ≤ now → ∃ t, exec (.routerGrant node o) s = .next t ∧
        t.mem = s.mem ∧ (t.net.buf node inp p.vc).queue = ps ∧
        (t.net.buf next.1 next.2 p.vc).coming = [⟨p, now + s.hopTime node o next.1, false⟩] ∧
        (t.outPort node o).free = now + s.netTime node p.flits ∧ (t.outPort node o).lastVc = vcOrder.idxOf p.vc)

/-- R27, R28, R403 to R410, R412: power. A write of RCTL is applied or refused; the voltage moves one code of 5 mV every 200 ticks, a rise in clock waits
for it and a fall does not, all of it under the rail's clamp; CPWR and DPWR take their values but where a placed team stands in the way; a window's
estimate and reading act eight rail cycles later on alarm and hcap, the module's windows on mclamp; a point reaches every rail of every powered die
or none. What operand toggles and pool accesses add to the current is a free value (LOG 2); the controller's ceiling, its single steps and the rail's
cycles are the model's reading (LOG 38), events that do nothing its convention (LOG 15). -/
def Obligations.PowerEvents : Prop :=
  ∀ (s : State) (d r : Nat), Numbered s →
    let x := s.railAt d r
    let clamp := s.clampOf d r
    let makes (i : Instr) (p : State → Prop) : Prop := ∃ t, exec i s = .next t ∧ p t
    let idle (i : Instr) : Prop := exec i s = .next s
    let onRails (t : State) : Prop := t = { s with rails := t.rails, dies := t.dies }
    let moves (y : Rail) (v m : Nat) : Prop := y.busy = true ∧ y.goal = (v, m) ∧ ∀ tick, s.tbase ≤ tick →
      y.volts tick = (if x.vnow ≤ v then min v (x.vnow + (tick - s.tbase) / 200) else max v (x.vnow - (tick - s.tbase) / 200)) ∧
      y.clock tick = (if x.mown < m ∧ tick < s.tbase + 200 * (max x.vnow v - min x.vnow v) then x.mown else m)
    (∀ v, let vc := fieldOf v 0 8
      let m := fieldOf v 8 7
      let cm := fieldOf v 16 5
      (vc < 84 ∨ m < 8 ∨ 90 < m ∨ cm < 1 ∨ 16 < cm ∨ vft d (min vc 180) < m → exec (.rctlWrite d r v) s = .next (s.putRail { x with rej := true })) ∧
      (84 ≤ vc → 8 ≤ m → m ≤ 90 → 1 ≤ cm → cm ≤ 16 → m ≤ vft d (min vc 180) → x.busy = false → makes (.rctlWrite d r v) fun t =>
        let y := t.railAt d r
        onRails t ∧ y.rctl = v &&& 0x1FFFFF ∧ y.rej = x.rej ∧ y.hcap = x.hcap ∧ y.rthr = x.rthr ∧
        moves y (min (min vc 180) clamp.1) (min m clamp.2))) ∧
    (x.busy = true → x.until_ ≤ s.tbase →
      let y := { x.turnClock x.until_ with vnow := x.goal.1, mown := x.goal.2, busy := false }
      (x.want = none → makes (.railChangeDone d r) fun t => onRails t ∧ t.railAt d r = y) ∧
      ∀ p, x.want = some p → s.railListed d r = true → makes (.railChangeDone d r) fun t => onRails t ∧
        t.railAt d r = { y with want := none }.write clamp (withPoint x.rctl p) s.tbase) ∧
    (∀ c v, makes (.cpwrWrite c v) fun t =>
      let e := s.cellAt c
      let f := t.cellAt c
      let cap := fieldOf v 8 5
      (∀ n, n ≠ c → t.cellAt n = s.cellAt n) ∧ t.mem = s.mem ∧
      (cap = 0 ∨ 16 < cap → f = e) ∧
      (1 ≤ cap → cap ≤ 16 → f.newDiv = some (fieldOf v 0 2 + 1) ∧ f.scap = cap ∧ f.prot = BitVec.ofNat 16 (fieldOf v 16 16) ∧
        f.on = (v.getLsbD 2 || (e.on && e.serving.isSome)) ∧
        (v.getLsbD 2 = true → e.on = false → f.cycle = 0 ∧ f.tick = s.tbase) ∧
        (v.getLsbD 2 = true ∨ e.serving.isSome = true → f.harts = e.harts ∧ f.loc = e.loc ∧ f.mat = e.mat ∧ f.banks = e.banks) ∧
        (v.getLsbD 2 = false → e.serving = none → f.nres = 0 ∧ f.loc = [] ∧ f.mat = [] ∧ f.cache = []))) ∧
    (let empty (e : Cell) : Prop := e.nres = 0 ∧ e.loc = [] ∧ e.mat = [] ∧ e.cache = [] ∧ e.serving = none
     ∀ v, (v.getLsbD 0 = true → (s.dieAt d).tier = true → idle (.dpwrWrite d v)) ∧
      (v.getLsbD 0 = true → (s.dieAt d).tier = false → makes (.dpwrWrite d v) fun t =>
        t = { s with dies := t.dies, rails := t.rails, cell := t.cell, others := t.others } ∧
        t.dieAt d = { s.dieAt d with tier := true, rails := (s.dieAt d).rails.restart s.tbase } ∧ t.railAt d r = x.restart s.tbase ∧
        ∀ n, if dieOf n = d then (t.cellAt n).cycle = 0 ∧ (t.cellAt n).tick = s.tbase ∧ (t.cellAt n).on = (s.cellAt n).on ∧ empty (t.cellAt n)
          else t.cellAt n = s.cellAt n) ∧
      (v.getLsbD 0 = false → s.dieServes d = true ∨ s.inDieSets d = true ∨ (∃ l ∈ s.launches, l.lead = d) → idle (.dpwrWrite d v)) ∧
      (v.getLsbD 0 = false → s.dieServes d = false → s.inDieSets d = false → (∀ l ∈ s.launches, l.lead ≠ d) → makes (.dpwrWrite d v) fun t =>
        t.dieAt d = { s.dieAt d with tier := false } ∧ t.mem = s.mem ∧ t.rails = s.rails ∧
        ∀ n, if dieOf n = d then empty (t.cellAt n) else t.cellAt n = s.cellAt n)) ∧
    (∀ at_ iest isense sensed, x.pend = some (at_, iest, isense) → at_ ≤ (x.clkAt s.tbase).cycle → makes (.currentWindow d r sensed) fun t =>
      let y := t.railAt d r
      let ithr := fieldOf x.rthr 0 16
      let hyst := fieldOf x.rthr 16 16
      onRails t ∧ y.pend = none ∧ y.iest = iest ∧ y.isense = isense ∧ (y.rctl, y.vnow, y.mown, y.goal, y.judged) = (x.rctl, x.vnow, x.mown, x.goal, x.judged) ∧
      (ithr < iest ∨ ithr < isense → y.alarm = true ∧ y.hcap = max (x.hcap - 4) (fieldOf x.rctl 16 5) ∧ y.low = 0) ∧
      (iest ≤ ithr → isense ≤ ithr → iest + hyst < ithr → isense + hyst < ithr → y.low = x.low + 1 ∧
        if 4 ≤ x.low + 1 then y.alarm = false ∧ y.hcap = min (x.hcap + 4) 16 else y.alarm = x.alarm ∧ y.hcap = x.hcap) ∧
      (iest ≤ ithr → isense ≤ ithr → ithr ≤ iest + hyst ∨ ithr ≤ isense + hyst → y.low = 0 ∧ y.alarm = x.alarm ∧ y.hcap = x.hcap)) ∧
    (∀ sensed, let k := s.windowAt d r
      (x.pend = none → x.judged < k → makes (.currentWindow d r sensed) fun t => t.mem = s.mem ∧ t.cell = s.cell ∧ t.others = s.others ∧
        ∃ toggles accesses,
          let c := s.dcoef d
          let vectors := ((railCells d r).map fun n => if (s.cellAt n).on then (s.cellAt n).vectorsIn (k - 1) else 0).sum
          t.railAt d r = { x with judged := k, pend := some (256 * k + 8, (fieldOf c 48 16 * s.cellsOn d r +
            (fieldOf c 0 16 * toggles + fieldOf c 16 16 * vectors + fieldOf c 32 16 * accesses) / 1024) % 2 ^ 32, sensed % 2 ^ 32) }) ∧
      (x.pend = none → k ≤ x.judged → idle (.currentWindow d r sensed)) ∧
      ∀ p, x.pend = some p → (x.clkAt s.tbase).cycle < p.1 → idle (.currentWindow d r sensed)) ∧
    (let raised := (x.window.filter id).length
     let steps (a : Nat) : Prop := makes (.autoClockStep d r) fun t =>
       let v := min (min (fieldOf x.rctl 0 8) 180) clamp.1
       let m := min (min (fieldOf x.rctl 8 7) a) clamp.2
       onRails t ∧ (t.railAt d r).amax = a ∧ ((v, m) = x.goal → t.railAt d r = { x with amax := a }) ∧ ((v, m) ≠ x.goal → moves (t.railAt d r) v m)
     (x.auto_ = true → x.busy = false → 1024 ≤ raised → steps (max (x.mown - 2) 8)) ∧
     (x.auto_ = true → x.busy = false → raised < 1024 → 16384 ≤ x.quiet → steps (min (min x.amax (fieldOf x.rctl 8 7) + 2) (fieldOf x.rctl 8 7))) ∧
     (x.auto_ = false ∨ x.busy = true ∨ (raised < 1024 ∧ x.quiet < 16384) → idle (.autoClockStep d r))) ∧
    (∀ w, w < 65536 → makes (.mpwrWindow w) fun t =>
      let p := s.tail
      let q := t.tail
      let cap := min 3800 (max p.pcap 150)
      t = { s with tail := q, rails := t.rails, dies := t.dies } ∧ q.pnow = w ∧ q.pcap = p.pcap ∧
      (cap < w → q.mclamp = max (p.mclamp - 4) 8 ∧ q.overCap = true) ∧
      (w ≤ cap → 100 * w < 95 * cap → 9 ≤ p.under → q.mclamp = min (p.mclamp + 4) 90 ∧ q.overCap = p.overCap) ∧
      (w ≤ cap → 95 * cap ≤ 100 * w ∨ p.under < 9 → q.mclamp = p.mclamp ∧ q.overCap = p.overCap) ∧
      (q.mclamp = p.mclamp → t.rails = s.rails ∧ t.dies = s.dies) ∧
      (q.mclamp ≠ p.mclamp → d < 54 → t.railAt d r = x.retarget (t.clampOf d r) s.tbase ∧ (t.clampOf d r).2 ≤ q.mclamp)) ∧
    (∀ w, exec (.powerLimitPatch w) s = .next { s with tail := { s.tail with pcap := w / 10 % 65536 } }) ∧
    (∀ v m, let powered (e : Nat) : Prop := e < 54 ∧ (s.dieAt e).tier = true
      (v < 84 ∨ 255 < v ∨ m < 8 ∨ 90 < m ∨ (∃ e, powered e ∧ vft e (min v 180) < m) →
        exec (.operatingPointPatch v m) s = .next { s with tail := { s.tail with patch400 := true } }) ∧
      (84 ≤ v → v ≤ 255 → 8 ≤ m → m ≤ 90 → (∀ e, powered e → m ≤ vft e (min v 180)) → makes (.operatingPointPatch v m) fun t =>
        t = { s with tail := { s.tail with point := some (v, m), patch400 := false }, rails := t.rails, dies := t.dies } ∧
        (powered d → (s.railListed d r = true ∨ (s.dieAt d).rails.die = d ∧ clamp = s.dieClamp d) →
          if x.busy then t.railAt d r = { x with want := some (v, m) } else t.railAt d r = x.write clamp (withPoint x.rctl (v, m)) s.tbase) ∧
        (¬ powered d → t.railAt d r = x)))

/-- R402, R413 to R421: heat. A reading stands, and is judged with the others of its tick; the level rises at once at a mark and falls a level after a
second below; at warning the runtime swaps a team out, which is stated of a die with one; critical dies take the Save ladder or the Drop ladder; the comparator gates the tier; recovery restores the die and brings the saved teams
back; a team moves away from heat only under the conditions of R416. Where R414 states no reading, no median or no die temperature, the values are the
model's (LOG 12); that recovery goes in stages and brings teams back to their old origins where those are free and powered, that self-refresh
begins only where a team has been saved, and which teams the runtime swaps out and how, is its reading (LOG 37). -/
def Obligations.HeatEvents : Prop :=
  ∀ (s : State) (d : Nat), Numbered s → d < 54 →
    let x := s.dieAt d
    let makes (i : Instr) (p : State → Prop) : Prop := ∃ t, exec i s = .next t ∧ p t
    let idle (i : Instr) : Prop := exec i s = .next s
    let onDies (t : State) : Prop := t = { s with dies := t.dies, rails := t.rails, launches := t.launches, tail := { s.tail with events := t.tail.events } }
    let reclamped (t : State) : Prop := ∀ r, t.railAt d r = (s.railAt d r).retarget (t.clampOf d r) s.tbase
    let swapsTo (t : State) (l : Launch) (u : Team) (k : SwapKind) : Prop :=
      (t.team? l.id u.no).map (·.swap) = some (some
        { phase := if s.dividing (s.teamCells l.id u.no) then .waitPool else .waitFields, kind := k, since := s.tbase, save := u.save, done := 0, back := [] })
    let heldAs (l : Launch) (u : Team) : Prop := s.launch? l.id = some l ∧ l.team? u.no = some u
    (∀ i raw, i < 64 → x.unjudged = [] ∨ x.readAt = s.tbase → makes (.sensorReading d i raw) fun t =>
      onDies t ∧ t.launches = s.launches ∧ t.rails = s.rails ∧ t.tail = s.tail ∧
      t.dieAt d = { x with sensors := (t.dieAt d).sensors, unjudged := i :: x.unjudged.filter (· != i), readAt := s.tbase } ∧
      (∀ j, j ≠ i → (t.dieAt d).sensor? j = x.sensor? j) ∧
      ∃ y, (t.dieAt d).sensor? i = some y ∧ y.raw = raw ∧ y.fail = (x.sensor? i).any (·.fail) ∧
        (∀ o, x.sensor? i = some o → o.raw = raw → y = o) ∧
        ((∀ o, x.sensor? i = some o → o.raw ≠ raw) → y.since = s.tbase ∧ y.iests = (sensorRails i).map fun r => (s.railAt d r).iest)) ∧
    (∀ i y, i < 64 → x.unjudged = [i] → x.readAt < s.tbase → x.sensor? i = some y → makes (.thermalLevel d) fun t =>
      let near := x.good (sensorNeighbours i)
      let stuck := y.since + 10000000000 ≤ s.tbase ∧ ∃ k, k < 12 ∧ ∃ a, y.iests[k]? = some a ∧
        let z := s.railAt d ((sensorRails i).getD k 0)
        fieldOf z.rthr 0 16 < 10 * (max a z.iest - min a z.iest)
      let bad := y.raw < -20 ∨ 150 < y.raw ∨ (near ≠ [] ∧ 8 < (y.raw - median near).natAbs) ∨ stuck
      onDies t ∧ reclamped t ∧ (t.dieAt d).unjudged = [] ∧ (t.dieAt d).lvl = x.lvl ∧ (∀ j, j ≠ i → (t.dieAt d).sensor? j = x.sensor? j) ∧
      ∃ f, (t.dieAt d).sensor? i = some { y with fail := f } ∧ (f = true ↔ y.fail = true ∨ bad) ∧
        t.tail.events = s.tail.events ++ (if f = true ∧ y.fail = false then [.sensorFailure d i] else []) ∧
        (f = false → (t.dieAt d).used i = some y.raw) ∧ (f = true → near ≠ [] → (t.dieAt d).used i = some (median near + 5))) ∧
    (∀ v, makes (.snsWrite d v) fun t => t = { s with dies := t.dies, rails := t.rails } ∧ reclamped t ∧
      ∀ i y, x.sensor? i = some y → (t.dieAt d).sensor? i = some { y with fail := y.fail && !v.getLsbD i }) ∧
    (x.sensors ≠ [] → x.unjudged = [] →
      let turns (v : Nat) : Prop := makes (.thermalLevel d) fun t => (t.dieAt d).lvl = v ∧ (t.dieAt d).chg = true ∧ (t.dieAt d).cooled = (v == 0) ∧
        t.mem = s.mem ∧ t.cores = (s.notice 7 16).cores ∧ t.cell = s.cell ∧ t.others = s.others
      let old (m : Option Nat) : Prop := ∃ u, m = some u ∧ u + 1000000000 ≤ s.tbase
      (x.lvl < 2 → (x.tcrit : Int) ≤ x.tnow → turns 2) ∧ (x.lvl = 0 → (x.twarn : Int) ≤ x.tnow → x.tnow < x.tcrit → turns 1) ∧
      (x.lvl = 2 → x.tnow < x.tcrit → old x.underC → turns 1) ∧ (x.lvl = 1 → x.tnow < x.twarn → x.tnow < x.tcrit → old x.underW → turns 0)) ∧
    (x.lvl = 1 → x.unjudged = [] → x.level s.tbase = 1 → x.tier = true → ∀ l u, s.teamsOn d = [(l, u)] → heldAs l u → u.swap = none → u.save ≠ 0 →
      (l.id, u.no) ∉ x.saves → makes (.thermalLevel d) fun t => swapsTo t l u .quiesce ∧ (t.dieAt d).saves = x.saves ++ [(l.id, u.no)]) ∧
    (x.lvl = 2 → x.tier = true →
      (∀ l u, s.teamsOn d = [(l, u)] → heldAs l u → u.swap = none →
        (s.saveClass l u = true → makes (.saveLadderStep d) fun t => swapsTo t l u .save ∧ (t.dieAt d).saves = x.saves ++ [(l.id, u.no)]) ∧
        (s.saveClass l u = false → x.dropAt ≤ s.tbase →
          let cs := s.teamCells l.id u.no
          (x.dropped l.id u.no = 0 → makes (.dropLadderStep d) fun t => t.mem = s.mem ∧ (t.dieAt d).dropAt = s.tbase + 1000000 ∧
            ∀ n, if n ∈ cs then t.cellAt n = (s.cellAt n).setHart 0 (((s.cellAt n).hart 0).raiseIp .s 3) else t.cellAt n = s.cellAt n) ∧
          (x.dropped l.id u.no = 1 → makes (.dropLadderStep d) fun t => t.mem = s.mem ∧ t.cell = s.cell ∧ t.others = s.others ∧
            ∀ n ∈ cs, (t.railAt (dieOf n) (railOf n)).goal.2 ≤ 8 ∧ moduleRail (dieOf n) (railOf n) ∈ (t.dieAt d).clamps ∧
              (t.railAt (dieOf n) (railOf n)).hcap = (s.railAt (dieOf n) (railOf n)).capmin) ∧
          (2 ≤ x.dropped l.id u.no → makes (.dropLadderStep d) fun t =>
            (∃ v, t.team? l.id u.no = some v ∧ v.placed = false ∧ v.image = []) ∧ t.teamFields l.id u.no = [] ∧
            (∀ n ∈ cs, (t.cellAt n).serving = none ∧ (t.cellAt n).nres = 0 ∧ (t.cellAt n).loc = []) ∧
            ∀ n ∈ cs, ∀ k a, ((s.cellAt n).hart k).task = some a → a.replay = true → a.attempt < 255 →
              ∃ m, t.launch? l.id = some m ∧ ∃ c ∈ m.heldRecs, c.node = a.node ∧ c.kind = 2 ∧ c.reason = 0x13))) ∧
      ((∀ p ∈ s.teamsOn d, p.2.swap = none ∧ s.saveClass p.1 p.2 = false) → x.saves ≠ [] →
        (x.refresh = false → exec (.saveLadderStep d) s = .next ((s.logEvent (.ladderStep d true)).putDie { x with refresh := true })) ∧
        (x.refresh = true → makes (.saveLadderStep d) fun t => (t.dieAt d).tier = false ∧
          (∀ n, dieOf n = d → (t.cellAt n).nres = 0 ∧ (t.cellAt n).loc = []) ∧
          (s.teamsOn d = [] → t.mem = s.mem ∧ ∀ n, dieOf n ≠ d → t.cellAt n = s.cellAt n))) ∧
      (∀ l u, s.teamsOn d = [(l, u)] → u.swap ≠ none → s.saveClass l u = true → (l.id, u.no) ∉ x.saves →
        exec (.saveLadderStep d) s = .next ((s.putDie { x with saves := x.saves ++ [(l.id, u.no)] }).logEvent (.ladderStep d true)))) ∧
    ((∃ p ∈ x.sensors, 115 ≤ p.2.raw) → x.tripped = false → makes (.comparatorTrip d) fun t =>
      (t.dieAt d).tier = false ∧ (∀ n, dieOf n = d → (t.cellAt n).nres = 0 ∧ (t.cellAt n).loc = []) ∧
      (s.dieServes d = true → s.head.decl = [] → t.failed d = true)) ∧
    (x.lvl = 0 → (∀ p ∈ x.sensors, p.2.raw < 115) →
      (x.refresh = true ∨ x.clamps ≠ [] ∨ x.drops ≠ [] ∨ x.tripped = true ∨ (x.cooled = true ∧ x.saves ≠ []) → makes (.thermalRecovery d) fun t =>
        let y := t.dieAt d
        y.tier = true ∧ (y.refresh, y.tripped, y.cooled, y.clamps, y.drops) = (false, false, false, [], []) ∧ y.saves = x.saves ∧ y.sensors = x.sensors ∧
        ∀ r, let z := if x.tier then s.railAt d r else (s.railAt d r).restart s.tbase
          x.rails.die = d → z.busy = false → s.railListed d r = true ∨ t.clampOf d r = t.dieClamp d →
          t.railAt d r = (z.write (t.clampOf d r) (withPoint z.rctl (s.tail.point.getD (170, 90))) s.tbase).retarget (t.clampOf d r) s.tbase) ∧
      (x.refresh = false → x.clamps = [] → x.drops = [] → x.tripped = false → x.cooled = false →
        ((∃ p ∈ x.saves, s.savedStill p = false) →
          exec (.thermalRecovery d) s = .next (s.putDie { x with saves := x.saves.filter s.savedStill })) ∧
        ∀ l u, (∀ p ∈ x.saves, s.savedStill p = true) → s.savedTeams x = [(l, u)] → heldAs l u → u.swap = none → u.image ≠ [] →
          s.areaStalled l u.savedAt = false → makes (.thermalRecovery d) fun t =>
            t.team? l.id u.no = some { u with placed := true, image := [] })) ∧
    (∀ l u x0 y0, heldAs l u → u.swap = none →
      (s.mayMove l u x0 y0 = true → u.placed = true → u.save ≠ 0 → makes (.hotSpotMove l.id u.no x0 y0) fun t => swapsTo t l u .quiesce) ∧
      (s.mayMove l u x0 y0 = true → u.placed = false → u.image ≠ [] → s.areaStalled l u.savedAt = false → makes (.hotSpotMove l.id u.no x0 y0) fun t =>
        t.team? l.id u.no = some { u with x0 := x0, y0 := y0, placed := true, image := [], moved := some ⟨s.tbase, u.x0, u.y0, false, false⟩ }) ∧
      (s.mayMove l u x0 y0 = false → u.placed = false ∨ s.anyTarget l u = true → idle (.hotSpotMove l.id u.no x0 y0)) ∧
      (s.mayMove l u x0 y0 = false → u.placed = true → s.anyTarget l u = false → (s.teamCells l.id u.no).Nodup →
        makes (.hotSpotMove l.id u.no x0 y0) fun t =>
        let hot (n : Nat) : Prop := n ∈ s.teamCells l.id u.no ∧ ∃ v, (s.dieAt (dieOf n)).used (localX n / 16 + 8 * (localY n / 12)) = some v ∧
          ((s.dieAt (dieOf n)).twarn : Int) - 5 ≤ v
        t.launches = s.launches ∧ t.mem = s.mem ∧
        ∀ n, (hot n → t.cellAt n = { s.cellAt n with scap := max 1 ((s.cellAt n).scap - 1) }) ∧ (¬ hot n → t.cellAt n = s.cellAt n)))

/-- R15, R74, R282, R369, R370, R373, R391, R398 to R401, R423: launches, swaps and failed dies. An accepted launch takes its identifier and places its
teams; a swap-out aborts the REPLAY tasks, interrupts slot 0 and pauses the fields, waits, and is refused or saves the team and frees its cells; a
swap-in restores it; an end stops every placed team; a declared die is marked, its cells lose everything, the launches it leads end; a die
rejoins with the next incarnation, and one taken off the list of retired dies rejoins in its turn. That a swap-out takes over a declaration's stop, that a
failed die's cells are emptied, and that the launches it leads end with it, are the model's reading (LOG 36); so are what an image holds, and what a
swap-in takes from memory and what as it was saved (LOG 32). Requests that do nothing leave the state (LOG 15). -/
def Obligations.SwapEvents : Prop :=
  ∀ (s : State), Numbered s →
    let makes (i : Instr) (p : State → Prop) : Prop := ∃ t, exec i s = .next t ∧ p t
    let idle (i : Instr) : Prop := exec i s = .next s
    let waits (i : Instr) (id : Nat) (u : Team) (w : Swap) : Prop := makes i fun t => t = { s with launches := t.launches } ∧
      t.team? id u.no = some { u with swap := some { w with phase := .waitPool } }
    let begun (t : State) (id : Nat) (u : Team) (w : Swap) : Prop := t.team? id u.no = some { u with swap := some w } ∧
      ((∀ n ∈ s.teamCells id u.no, ∀ k, (s.hartAt n k).chosen = none) → t.mem = s.mem) ∧
      ∀ n, n ∈ s.teamCells id u.no →
        ((s.cellAt n).nres ≠ 0 → ((t.hartAt n 0).ts.ip).getLsbD 4 = true) ∧
        ∀ k a, (s.hartAt n k).task = some a → a.replay = true → a.ending = none →
          ∃ b, (t.hartAt n k).task = some b ∧ b.ending = some (.again (if w.kind = .save then 0x13 else 0x12)) ∧ b.stage = []
    let pauses (t : State) (id no : Nat) : Prop := ∀ f ∈ s.teamFields id no, f.st = .sweeping → { f with st := .pausing, swapPause := true } ∈ t.fields
    let doneWord (t : State) (lead done v : Nat) : Prop := ∀ o, done + 8 ≤ 2 ^ 54 → done % 8 = 0 → s.line? ⟨0, s.gen 0, done / 128⟩ = some o →
      o.perm.allows .s .store = true → o.data.length = 128 → Settled s o.key → Ownable s lead o.key →
      OnDieIs t (stored 0 done 8 v (onDie s))
    (∀ (l : Launch) (u : Team) save done, s.launch? l.id = some l → l.team? u.no = some u →
      let base := if save = 0 then u.save else save
      let w (k : SwapKind) : Swap := { phase := .waitFields, kind := k, since := s.tbase, save := base, done := done, back := [] }
      (u.placed = true → u.swap = none → base ≠ 0 → save % 65536 = 0 → done % 8 = 0 →
        (s.dividing (s.teamCells l.id u.no) = true → waits (.swapOut l.id u.no save done) l.id u (w .out)) ∧
        (s.dividing (s.teamCells l.id u.no) = false → makes (.swapOut l.id u.no save done) fun t => begun t l.id u (w .out) ∧ pauses t l.id u.no)) ∧
      (u.placed = false ∨ (∃ p, u.swap = some p ∧ p.kind ≠ .declare) ∨ base = 0 ∨ save % 65536 ≠ 0 ∨ done % 8 ≠ 0 →
        idle (.swapOut l.id u.no save done)) ∧
      (∀ p, u.placed = true → u.swap = some p → p.kind = .declare → base ≠ 0 → save % 65536 = 0 → done % 8 = 0 →
        let q : Swap := { p with kind := .out, since := s.tbase, save := base, done := done }
        (p.phase = .waitPool ∨ s.fieldsIdle l.id u.no = true → makes (.swapOut l.id u.no save done) fun t => t = { s with launches := t.launches } ∧
          t.team? l.id u.no = some { u with swap := some { q with phase := if p.phase = .drain then .stopSlot0 else p.phase } }) ∧
        (p.phase ≠ .waitPool → s.fieldsIdle l.id u.no = false → makes (.swapOut l.id u.no save done) fun t => t.mem = s.mem ∧
          t.team? l.id u.no = some { u with swap := some { q with phase := .waitFields } } ∧ pauses t l.id u.no ∧
          ∀ n k, t.hartAt n k = if n ∈ s.teamCells l.id u.no then { s.hartAt n k with frozen := false } else s.hartAt n k)) ∧
      (∀ x0 y0, u.placed = false → u.swap = none → base ≠ 0 → save % 65536 = 0 → done % 8 = 0 → u.image ≠ [] →
        let place (v : Serving) : Nat := cellNo (x0 + v.tx) (y0 + v.ty)
        (badRect x0 y0 l.lw l.lh = true ∨ s.held? x0 y0 l.lw l.lh = true ∨ s.areaStalled l base = true → idle (.swapIn l.id u.no save done x0 y0)) ∧
        (badRect x0 y0 l.lw l.lh = false → s.held? x0 y0 l.lw l.lh = false → s.areaStalled l base = false → (u.image.map fun c => c.serving.map place).Nodup →
          makes (.swapIn l.id u.no save done x0 y0) fun t => doneWord t l.lead done 1 ∧
            t.team? l.id u.no = some { u with x0 := x0, y0 := y0, placed := true, image := [] } ∧
            ∀ c ∈ u.image, ∀ v, c.serving = some v → (s.dieAt (dieOf (place v))).tier = true →
              let e := t.cellAt (place v)
              let i := s.imageCell l base c
              e.serving = some v ∧ e.on = true ∧ e.harts = i.harts.map (fun h => { h with stopped := false, ready := 0 }) ∧ e.banks = i.banks ∧
              e.loc = i.loc ∧ e.locSb = i.locSb ∧ e.mat = i.mat ∧ e.matSb = i.matSb ∧
              ((∀ a, a < 0x25000 → Sound s (saveArea base l v + a)) → saveArea base l v % 128 = 0 → ∀ k : Slot, k.val < c.nres →
                (e.hart k).pc.toNat = leNat (s.mem.phys.read (saveArea base l v + 0x100 + 512 * k.val) 8) / 4 * 4))) ∧
      (∀ p, u.swap = some p → p.kind ≠ .ends → p.since + fieldOf s.head.swg 0 32 ≤ s.tbase →
        let cells := s.teamCells l.id u.no
        let goes (q : State → Prop) : Prop := makes (.swapGraceExpire l.id u.no) q
        (p.phase = .waitPool → s.dividing cells = false → goes fun t => begun t l.id u { p with phase := .waitFields } ∧ pauses t l.id u.no) ∧
        (p.phase = .waitFields → s.fieldsIdle l.id u.no = false → goes fun t => (∀ n k, t.hartAt n k = s.hartAt n k) ∧
          t.team? l.id u.no = some { u with swap := none } ∧ (p.kind = .out → doneWord t l.lead p.done 3) ∧
          t.fields = s.fields.map fun f => if f.launch == l.id && f.team == u.no then f.resume else f) ∧
        (p.phase = .waitFields → s.fieldsIdle l.id u.no = true → s.dividing cells = false → goes fun t => t.mem = s.mem ∧ t.cell = s.cell ∧
          t.others = s.others ∧ t.team? l.id u.no = some { u with swap := some { p with phase := .stopSlot0 } }) ∧
        (p.phase = .stopSlot0 → cells.Nodup → (∃ n ∈ cells, (s.cellAt n).allFrozen p = false) → (∀ n ∈ cells, ∀ k : Slot, k.val < (s.cellAt n).nres →
            (s.hartAt n k).mayStop = true ∧ s.attempting n k = false) → goes fun t => t.mem = s.mem ∧
          ∀ n ∈ cells, ∀ k : Slot, k.val < (s.cellAt n).nres → (k.val ≠ 0 ∨ p.kind ≠ .declare → (t.hartAt n k).frozen = true) ∧ (t.hartAt n k).pc = (s.hartAt n k).pc ∧
            (t.hartAt n k).win = (s.hartAt n k).win) ∧
        (p.phase = .drain → p.kind ≠ .declare → s.teamBusy l.id u.no = false → (∀ n ∈ cells, (s.cellAt n).quiet = true) → goes fun t =>
          t.team? l.id u.no = some { u with placed := false, swap := none, image := cells.map (fun n => (s.cellAt n).saved), savedAt := p.save } ∧
          (∀ n ∈ cells, (t.cellAt n).serving = none ∧ (t.cellAt n).nres = 0) ∧
          ∀ n, cells = [n] → p.kind = .save → p.save ≠ 0 → p.save % 65536 = 0 → (∀ a, a < 0x25000 → Sound s (p.save + a)) →
            (∀ k : Slot, leNat (t.mem.phys.read (p.save + 0x100 + 512 * k.val) 8) = (s.hartAt n k).pc.toNat) ∧
            ∀ b i, b < 32 → i < 4096 → (s.cellAt n).role b = 3 →
              t.mem.phys.byte (p.save + 0x4000 + 0x1080 * b + i) = (s.cellAt n).loc.byte (4096 * (s.cellAt n).bankIndex b + i)))) ∧
    (∀ (l : Launch) done, s.launch? l.id = some l → done % 8 = 0 → (∀ u ∈ l.teams, u.swap = none) →
      (∀ u, l.teams = [u] → u.placed = true →
        let w : Swap := { phase := .waitFields, kind := .ends, since := s.tbase, save := 0, done := done, back := [] }
        (s.dividing (s.teamCells l.id u.no) = true → waits (.launchEnd l.id done) l.id u w) ∧
        (s.dividing (s.teamCells l.id u.no) = false → makes (.launchEnd l.id done) fun t => begun t l.id u w ∧ pauses t l.id u.no)) ∧
      ((∀ u ∈ l.teams, u.placed = false) → idle (.launchEnd l.id done))) ∧
    (∀ l id done, done % 8 ≠ 0 ∨ s.launch? id = none ∨ (s.launch? id = some l ∧ ∃ u ∈ l.teams, ∃ p, u.swap = some p ∧ p.kind ≠ .declare) →
      idle (.launchEnd id done)) ∧
    (∀ ws tb s₁, dField ws 0 0 2 = 0 → s.readTables ws = (.ok tb, s₁) →
      (s₁.launchCode ws tb ≠ 0 → makes (.launchAccept ws) fun t => t.launches = s₁.launches ∧ t.cell = s₁.cell ∧ t.others = s₁.others) ∧
      (∀ id ns s₂ e, s₁.launchCode ws tb = 0 → s₁.freeId = some id → tb.teams = [e] → tb.maps.length = 1 → entryUnplaced e = false →
        s₁.firstNodes (dField ws 0 42 6) (dField ws 0 48 12) (ws.getD 5 0).toNat (List.range (dField ws 6 32 32)) [] = (ns, s₂) → s₂.launches = s₁.launches → Numbered s₂ →
        makes (.launchAccept ws) fun t => ∃ l u, t.launch? id = some l ∧ l.team? 0 = some u ∧ l.asid = dField ws 0 48 12 ∧ l.lead = dField ws 0 42 6 ∧
          l.nres = dField ws 0 32 5 + 1 ∧ l.wsize = (dField ws 0 37 5 + 1) * 256 ∧ l.nodes = ns ∧ u.placed = true ∧ u.x0 = entryX e ∧ u.y0 = entryY e ∧
          ∀ i j, i < 2 ^ l.lw → j < 2 ^ l.lh → (s₂.dieAt (dieOf (cellNo (u.x0 + i) (u.y0 + j)))).tier = true →
            let c := t.cellAt (cellNo (u.x0 + i) (u.y0 + j))
            c.serving = some ⟨id, 0, i, j⟩ ∧ c.on = true ∧ c.nres = l.nres ∧ c.loc = Mem.write [] 0 tb.image ∧ c.cache = [] ∧ c.mat = [] ∧
            ∀ k : Slot, k.val < l.nres → (c.hart k).st = .park false ∧ (c.hart k).level = .u ∧ (c.hart k).win = [] ∧ (c.hart k).task = none)) ∧
    (∀ id no, makes (.teamInterrupt id no) fun t => t.mem = s.mem ∧
      ∀ n k, t.hartAt n k = if n ∈ s.teamCells id no ∧ k.val < (s.cellAt n).nres then (s.hartAt n k).raiseIp ((s.hartAt n k).idel 1) 1 else s.hartAt n k) ∧
    (∀ d, d < 54 →
      let empty (t : State) : Prop := ∀ n, dieOf n = d → (t.cellAt n).nres = 0 ∧ (t.cellAt n).serving = none ∧ (t.cellAt n).loc = []
      (s.head.decl ≠ [] → idle (.dieDeclare d) ∧ idle (.dieRejoin d)) ∧
      (s.head.decl = [] → s.failed d = false → makes (.dieDeclare d) fun t => t.failed d = true ∧ (∀ e, e ≠ d → t.failed e = s.failed e) ∧
        t.head.decl = [d] ∧ empty t ∧ ∀ l ∈ t.launches, l.lead ≠ d) ∧
      (d ∈ s.tail.retired → idle (.dieRejoin d)) ∧
      (s.head.decl = [] → s.failed d = true → d ∉ s.tail.retired → makes (.dieRejoin d) fun t => t.failed d = false ∧ (∀ e, e ≠ d → t.failed e = s.failed e) ∧
        t.inc d = (s.inc d + 1) % 256 ∧ empty t) ∧
      (∀ ds, exec (.retiredDies ds) s = .next { s with tail := { s.tail with retired := ds, back :=
        ((s.tail.back ++ s.tail.retired).filter fun e => !ds.contains e).dedup } }) ∧
      ∀ ds, s.tail.back = d :: ds → s.head.decl = [] → s.failed d = true → d ∉ s.tail.retired →
        ∃ t, s.retireDue = some t ∧ t.failed d = false ∧ t.tail.back = ds)

/-- R10, R295, R391 to R397, R403, R410: the Headstock's queue, boot and measurement, scale links, queue pairs, inbound DMA, and the device registers. A
register keeps the bits that its table gives it; no write raises a fused limit. The length of an extension's log entry, and
the stage and flags of the boot's, are free values, and what the model numbers BAR0 with is its own (LOG 2, LOG 13). The submission tail kept at a
start, a k outside 4 to 12 that is stored, all or none of a host's move, code 3 for a host's bad launch address, and DMA beside the caches, are the
model's reading (LOG 39); so are the bytes that digests and lengths are hashed as (LOG 43). What does nothing leaves the state (LOG 15). -/
def Obligations.LinkHostEvents : Prop :=
  ∀ (s : State),
    let makes (i : Instr) (p : State → Prop) : Prop := ∃ t, exec i s = .next t ∧ p t
    let idle (i : Instr) : Prop := exec i s = .next s
    let tail (i : Instr) (t : Tailstock) : Prop := exec i s = .next { s with tail := t }
    let m := s.tail
    let digest (d : BitVec 256) : List Byte := leBytes 32 d.toNat
    (s.head.hsq = [] → s.hsqRead.1 = BitVec.allOnes 64 ∧ idle .hsqRead) ∧
    (∀ p ps, s.head.hsq = p :: ps → s.hsqRead.1 = BitVec.ofNat 64 (p.1 + 2 ^ 24 * p.2) ∧ makes .hsqRead fun t => t.mem = s.mem ∧
      t.head = { s.head with hsq := ps ++ s.head.hsqWait.take 1, hsqWait := s.head.hsqWait.drop 1 }) ∧
    (m.booted = true → idle .boot) ∧
    (∀ f, m.booted = false → m.slotA = some f → f.accepted m.keyh = true → makes .boot fun t =>
      let image := Config.sm3 f.image
      t = { s with tail := t.tail, cores := t.cores, coreAt := t.coreAt, free := t.free } ∧ t.tail.booted = true ∧ t.tail.bootFail = false ∧
      t.tail.measure = Config.sm3 (zeros 32 ++ digest image) ∧ (∃ st fl, t.tail.log = [⟨st, fl, BitVec.ofNat 64 f.image.length, image⟩]) ∧
      assocGet 0 t.coreAt = some s.tbase ∧ ∃ h, assocGet 0 t.cores = some h ∧ h.pc = f.entry ∧ h.level = .f ∧ h.st = .run ∧
        ∀ n, n ≠ 0 → assocGet n t.cores = assocGet n s.cores) ∧
    (∀ f : Firmware, f.accepted m.keyh = true ↔ Config.sm3 f.key = m.keyh ∧ Config.sm2Verify f.key (Config.sm3 f.image) f.sig = true) ∧
    (m.booted = false → (∀ f, m.slotA = some f ∨ m.slotB = some f → f.accepted m.keyh = false) → tail .boot { m with bootFail := true }) ∧
    (∀ st fl d, (m.booted = false → idle (.measureExtend st fl d)) ∧ (m.booted = true → makes (.measureExtend st fl d) fun t =>
      t.mem = s.mem ∧ t.cores = s.cores ∧ t.tail.measure = Config.sm3 (digest m.measure ++ digest d) ∧ ∃ n, t.tail.log = m.log ++ [⟨st, fl, n, d⟩])) ∧
    (∀ nonce, tail (.attestQuote nonce) { m with quote := some (Config.sm2Sign (Config.sm3 (digest nonce ++ digest m.measure ++
      leBytes 8 ident0.toNat ++ leBytes 8 flim.toNat ++ leBytes 8 m.log.length))) }) ∧
    (∀ l, l < 24 →
      let x := s.link l
      let links (i : Instr) (p : State → Link → Prop) : Prop := makes i fun t => t.mem = s.mem ∧ t.cell = s.cell ∧ t.others = s.others ∧
        (∀ e, e ≠ l → t.link e = s.link e) ∧ p t (t.link l)
      (∀ v, v.getLsbD 0 = true → links (.slctlWrite l v) fun t y => t.cores = s.cores ∧
        y = { x with train := true, k := if x.train then x.k else fieldOf v 32 4 }) ∧
      (∀ v, v.getLsbD 0 = false → links (.slctlWrite l v) fun t y => y.train = false ∧ y.up = false ∧ y.lanes = 0 ∧ y.rate = 0 ∧
        y.txtail = x.txtail ∧ y.txhead = x.txhead ∧ (t.cores = if x.up then (s.notice 10 40).cores else s.cores)) ∧
      (∀ lanes rate peer, x.train = true → x.up = false → rate ≤ 212 → lanes = 4 ∨ lanes = 8 → peer < 65536 →
        links (.linkStateChange l true lanes rate peer) fun t y => y.up = true ∧ y.lanes = lanes ∧ y.rate = rate ∧ y.peer = peer ∧
          t.cores = (s.notice 10 40).cores ∧ (x.txhead = x.txtail → y.sent = x.sent)) ∧
      (∀ lanes rate peer, x.train = false ∨ 212 < rate → idle (.linkStateChange l true lanes rate peer)) ∧
      (∀ lanes rate peer, x.up = true → links (.linkStateChange l false lanes rate peer) fun t y => y.up = false ∧ y.lanes = 0 ∧ y.rate = 0 ∧
        y.txhead = x.txhead ∧ y.txtail = x.txtail ∧ t.cores = (s.notice 10 40).cores) ∧
      (∀ v, 2 ^ x.k < (v - x.txhead).toNat → idle (.txtailWrite l v)) ∧
      (∀ v, (v - x.txhead).toNat ≤ 2 ^ x.k → (v - x.txhead).toNat ≤ 4096 → x.up = true → x.prxhead = x.txhead → (∀ d, s.refreshing d = false) →
        links (.txtailWrite l v) fun _ y =>
        y.txtail = v ∧ y.txhead = v ∧ y.sent.length = x.sent.length + (v - x.txhead).toNat) ∧
      (∀ e, x.up = true → (x.rxtail - x.rxhead).toNat < 2 ^ x.k → e.length = 256 →
        let a := 4096 * fieldOf x.rxb 12 40 + 256 * (x.rxtail.toNat % 2 ^ x.k)
        (∀ i, i < 256 → Sound s (a + i)) →
        makes (.linkEntryReceive l e) fun t => t.link l = { x with rxtail := x.rxtail + 1 } ∧ t.cores = (s.notice 10 40).cores ∧
          (∀ i, i < 256 → t.mem.phys.byte (a + i) = if 3 ≤ i ∧ i < 16 then 0 else e.getD i 0) ∧ ∀ i, i < a ∨ a + 256 ≤ i → t.mem.phys.byte i = s.mem.phys.byte i) ∧
      (∀ v, x.up = true → x.txhead = x.txtail → links (.linkControlFlit l v) fun _ y => y = { x with prxhead := v })) ∧
    (∀ q, q < 16 →
      let x := s.qp q
      let pair (i : Instr) (y : QueuePair) : Prop := makes i fun t => t.mem = s.mem ∧ t.qp q = y ∧ (∀ r, r ≠ q → t.qp r = s.qp r) ∧
        t.cores = (s.notice 8 24).cores
      (∀ v, 2 ^ x.ks < (v - x.shead).toNat → idle (.sqt q v)) ∧ (∀ v, (v - x.shead).toNat ≤ 2 ^ x.ks → pair (.sqt q v) { x with sqt := v }) ∧
      (∀ v, pair (.cqh q v) { x with cqh := v }) ∧
      (∀ v, let y := { x with qcfg := v &&& 0x7FF011F1F }
        v.getLsbD 16 = true → x.en = false →
        let fits := 4 ≤ fieldOf v 0 5 ∧ fieldOf v 0 5 ≤ 16 ∧ 4 ≤ fieldOf v 8 5 ∧ fieldOf v 8 5 ≤ 16 ∧ x.sqb.toNat % 4096 = 0 ∧ x.cqb.toNat % 4096 = 0
        (fits → pair (.qcfg q v) { y with shead := 0, ctail := 0, cqh := 0, phase := true, rdy := true, err := false }) ∧
        (¬ fits → pair (.qcfg q v) { y with err := true, rdy := false })) ∧
      (∀ v, v.getLsbD 16 = false → pair (.qcfg q v) { x with qcfg := v &&& 0x7FF011F1F, rdy := x.rdy && !x.done.isEmpty }) ∧
      (∀ e host, x.rdy = true → x.en = true → x.shead ≠ x.sqt →
        let cid := fieldOf (e.getD 0 0) 16 16
        let took (t : State) (st : Nat) (v : Word) : Prop := t.qp q = { x with shead := x.shead + 1, done := x.done ++ [(cid, st, v)] }
        (fieldOf (e.getD 0 0) 0 8 ∉ [1, 2, 3] → makes (.hostSubmission q e host) fun t => took t 1 0 ∧ t.mem = s.mem) ∧
        (fieldOf (e.getD 0 0) 0 8 = 2 → host.length = (e.getD 3 0).toNat →
          let a := (e.getD 2 0).toNat
          (∀ i, i < host.length + 256 → ∀ b, a + i = b + 128 ∨ a + i = b → Sound s b) → makes (.hostSubmission q e host) fun t => took t 0 (BitVec.ofNat 64 host.length) ∧
            (∀ i, i < host.length → t.mem.phys.byte (a + i) = host.getD i 0) ∧
            ∀ i, i < a ∨ a + host.length ≤ i → t.mem.phys.byte i = s.mem.phys.byte i) ∧
        ((fieldOf (e.getD 0 0) 0 8 = 3 ∨ fieldOf (e.getD 0 0) 0 8 = 2 ∧ host.length = (e.getD 3 0).toNat) →
          s.stalled (e.getD 2 0).toNat (e.getD 3 0).toNat = true → idle (.hostSubmission q e host)) ∧
        (fieldOf (e.getD 0 0) 0 8 = 3 → s.stalled (e.getD 2 0).toNat (e.getD 3 0).toNat = false →
          moved s (e.getD 2 0).toNat (e.getD 3 0).toNat = 0 → makes (.hostSubmission q e host) fun t => took t 0 0 ∧ t.mem = s.mem) ∧
        (fieldOf (e.getD 0 0) 0 8 = 3 → moved s (e.getD 2 0).toNat (e.getD 3 0).toNat = (e.getD 3 0).toNat → e.getD 3 0 ≠ 0 →
          makes (.hostSubmission q e host) fun t => t.mem = s.mem ∧
            t.qp q = { x with shead := x.shead + 1, done := x.done ++ [(cid, 0, e.getD 3 0)],
                              moved := x.moved ++ [(e.getD 1 0, s.getB (e.getD 2 0).toNat (e.getD 3 0).toNat)] }) ∧
        (fieldOf (e.getD 0 0) 0 8 = 1 → 2 ^ 55 ≤ (e.getD 1 0).toNat ∨ (e.getD 1 0).toNat % 128 ≠ 0 →
          makes (.hostSubmission q e host) fun t => took t 0 3 ∧ t.mem = s.mem) ∧
        (fieldOf (e.getD 0 0) 0 8 = 1 → (e.getD 1 0).toNat < 2 ^ 55 → (e.getD 1 0).toNat % 128 = 0 → ∀ ws t₁ v t₂, s.readWords 54 0 .s (e.getD 1 0).toNat 16 = (.ok ws, t₁) → t₁.serveLaunch ws = some (v, t₂) →
          makes (.hostSubmission q e host) fun t => t = t₂.putQp { t₂.qp q with shead := (t₂.qp q).shead + 1, done := (t₂.qp q).done ++ [(cid, 0, v)] })) ∧
      (∀ cid st v rest, x.done = (cid, st, v) :: rest →
        let room := (x.ctail - x.cqh).toNat < 2 ^ x.kc
        (¬ room → idle (.hostCompletion q)) ∧
        (room → makes (.hostCompletion q) fun t => let y := t.qp q
          t.mem = s.mem ∧ y.done = rest ∧ y.ctail = x.ctail + 1 ∧ y.msix = x.msix ++ [fieldOf x.qcfg 24 11] ∧
          y.ring = x.ring ++ [(x.ctail.toNat, BitVec.ofNat 64 (cid * 2 ^ 16 + (if x.phase then 2 ^ 32 else 0) + st * 2 ^ 40), v)] ∧
          y.phase = (if (x.ctail + 1).toNat % 2 ^ x.kc = 0 then !x.phase else x.phase) ∧ y.rdy = (x.rdy && (x.en || !rest.isEmpty))))) ∧
    (∀ p w a bs, let seen := exec (.inboundDma p w a bs) s
      (s.admits p a bs.length = false → seen = .next (s.notice 9 32)) ∧ (s.admits p a bs.length = true → w = false → seen = .next s) ∧
      (s.admits p a bs.length = true → w = true → (∀ i, i < bs.length + 256 → ∀ b, a + i = b + 128 ∨ a + i = b → Sound s b) → ∃ t, seen = .next t ∧
        (∀ i, i < bs.length → t.mem.phys.byte (a + i) = bs.getD i 0) ∧ (∀ i, i < a ∨ a + bs.length ≤ i → t.mem.phys.byte i = s.mem.phys.byte i))) ∧
    (∀ p, exec (.pciePortEvent p) s = .next (if p < 9 then s.notice 9 32 else s)) ∧
    (∀ v d, d < 54 →
      let stores (o : Nat) (mask : Word) : Prop := makes (.registerWrite (deviceBase + o) v) fun t => t.peek (deviceBase + o) = v &&& mask ∧
        t.cell = s.cell ∧ t.others = s.others ∧ t.mem.phys = s.mem.phys
      let block := 0x1000000 + 0x100000 * d
      stores 0 0xFFFFFFFFF0000 ∧ stores 8 0xFFFFFFFFF0000 ∧ stores 0x10 0xFFFFFFFFF0000 ∧ stores 0x28 0xFFFFFFFFFFFFF ∧
      stores (0x300000 + 0x1000 * d) 0xFFFFFF ∧ stores (0x300008 + 0x1000 * d) 0xFF ∧ stores (0x300010 + 0x1000 * d) (BitVec.allOnes 64) ∧
      stores 0x400000 0x3F3F3F3F3F3F ∧ stores 0x400010 0xFFFFFFFF ∧ stores 0x400F00 0xFFFF ∧ stores (block + 0x20008) (BitVec.allOnes 64) ∧
      (∀ r, r < 769 → stores (block + 0x20 * r + 0x10) 0xFFFFFFFF) ∧
      idle (.registerWrite (deviceBase + 0x400100) v) ∧ s.peek (deviceBase + 0x400100) = 0x6D40ED8B4 ∧
      makes (.registerWrite (deviceBase + 0x400400) v) fun t => t.tail.pcap = fieldOf v 0 16 ∧ t.tail.mclamp = m.mclamp)

/-! ## Encodings -/

/-- R119 to R135: every encoding of a well-formed instruction decodes to it, every operand at every value that the encoding admits, and the
words come out whole: as many as the first word's L field says. -/
def Obligations.DecodeEncodeRoundTrip : Prop :=
  ∀ i : Instr, i.WellFormed → decode (encode i) = .ok i ∧ (encode i).length = lengthWords ((encode i).headD 0)

/-- R119, R120, R132, R133: words written out from the tables decode to the instructions they stand for, and a reserved major, a reserved
operation, a field that is fixed and an L of 0b11 are refused by name. -/
def Obligations.WordsDecode : Prop :=
  decode [0b000001_000011_000010_000001_000001_00] = .ok (.sub 1 2 3) ∧
  decode [0b111111_000000_000010_000001_000010_00] = .ok (.addi 1 2 (-1)) ∧
  decode [0b000110_000001_000010_000011_011000_00] = .ok (.ld .x64 3 ⟨2, none, 8⟩) ∧
  decode [0b000000_000011_000010_111111_010000_00] = .ok (.beq 2 3 252) ∧
  decode [0b100000_000011_000010_000001_100000_00] = .ok (.vadd .w32 1 2 3) ∧
  decode [0b000110_000011_000010_000001_101000_00] = .ok (.fsub .f32 .rne false 1 2 3) ∧
  decode [0b000000_000011_000010_000001_101001_01, 0b0000_00_0_001_001100_00_00_00_00_00000100, 0] = .ok (.fma .f64 .rtz 1 2 3 4) ∧
  decode [0b000010_000000_001100_000001_111111_00] = .ok (.stget 1 12) ∧
  decode [0b010000_000000_000010_000001_111111_00] = .ok (.launch 1 2) ∧
  decode [0b000000_000000_000000_000000_000000_00] = .error .major ∧ decode [0b011101_000011_000010_000001_000001_00] = .error .field ∧
  decode [0b000000_000001_000010_000001_000100_00] = .error .field ∧ decode [0b11, 0, 0, 0, 0] = .error .length

/-! ## The machine as a whole -/

/-- R16, R18, R136, R137, R390: when nothing else is due, no failure and no interrupt waits and a hart takes part in its slot, a step is its instruction:
the bytes that CODE holds at its pc, or that the fetch it waits for has brought (always so for a core, which has no CODE), decoded and run with the
pc past them, or issued again; where CODE does not hold them, the fetch begins; then the cycle ends. A vector instruction that issues is counted by its cell (R407). Bytes that decode to nothing raise
the illegal-instruction trap (R135). -/
def Obligations.StepRunsDecoded : Prop :=
  ∀ (s : State), s.agenda = [] → s.due = none → s.active = true → (s.isCore = true ∨ s.runs s.cell = true) → s.globalFault = none →
    s.rlimExpire = none → s.takePending = none →
    let h := s.hart
    let runs (i : Instr) (q : State) : Prop := step s = match exec i q with
      | .next t => .next t.advance
      | r => r
    let issues (bs : List Byte) (q : State) : Prop := let w := (wordsOfBytes bs).headD 0
      (∀ i, decodeBytes bs = .ok i →
        runs i ((q.countIssue w).mapHart fun h => { h.settle with st := .run, npc := h.pc + BitVec.ofNat 64 bs.length, ir := w, winstr := some i })) ∧
      (∀ e, decodeBytes bs = .error e → runs (.illegalEncoding w) (q.mapHart fun h => { h.settle with st := .run, ir := w }))
    (∀ i, h.st = .run → h.again = true → h.winstr = some i → runs i s) ∧
    (∀ bs, h.st = .run → h.again = false → h.pc.toNat < 2 ^ 55 → s.isCore = false →
      s.cell.fetch s.asid (s.gen s.asid) h.level h.pc.toNat = some bs → issues bs s) ∧
    (h.st = .run → h.again = false → h.pc.toNat < 2 ^ 55 →
      (s.isCore = true ∨ s.cell.fetch s.asid (s.gen s.asid) h.level h.pc.toNat = none) → step s = .next s.fetchWait.advance) ∧
    (h.st = .wait .fetch → h.woken = true → s.answeredHere = true → (∀ c a, h.check ≠ .failed c a) → issues h.buf s)

/-- R22, R136, R294: nothing that a program, a driver, a host or the outside can bring about stops the module: every instruction and every step of
the hardware goes on from every state, by its effect, by a trap, or by a wait. -/
def Obligations.EverythingGoesOn : Prop :=
  (∀ (i : Instr) (s : State), Goes (exec i s)) ∧ ∀ s : State, Goes (step s)

/-- R1, R3, R10: every step keeps the invariant: a cell is listed under its own number, and physical memory and its sideband, of which a byte that
nothing has written reads as zero (LOG 3), stay in their canonical form. -/
def Obligations.StepsKeepTheInvariant : Prop :=
  ∀ s t : State, Canonical s → step s = .next t → Canonical t

/-- R9, R10, R277, R392, R395, R397, R403, R410, R417: the module right after reset has the invariant and the values that the spec states: no hart is resident and nothing
is booted, links are down, every rail stands at Midsummer with its cap open, the marks are 95 and 105, the swap grace is 100,000 ticks, and
`fwl`, `sie` and `views` read as a reset register does. That the time base stands at 0 the spec does not say: it is the model's choice (LOG 8). -/
def Obligations.ResetValues : Prop :=
  let s := State.reset
  Canonical s ∧ s.tbase = 0 ∧ s.tail.booted = false ∧ s.tail.log = [] ∧ s.tail.pcap = 3800 ∧ s.tail.mclamp = 90 ∧
  s.peek (deviceBase + 0x400010) = 100000 ∧ s.peek (deviceBase + 0x400000) = 0 ∧
  (∀ n k, (s.hartAt n k).st = .absent ∧ (s.hartAt n k).fwl = 1000000 ∧ (s.hartAt n k).ts.ie = 0x1C ∧ (s.hartAt n k).fflags = 0) ∧
  (∀ n, let c := s.cellAt n
    c.on = true ∧ c.scap = 16 ∧ c.prot = 0 ∧ c.div = 1 ∧ c.nres = 0 ∧ c.serving = none ∧ c.fmtWord = 0x2424) ∧
  (∀ l, let x := s.link l
    x.up = false ∧ x.train = false ∧ x.k = 4 ∧ x.txhead = 0 ∧ x.rxtail = 0) ∧
  (∀ d r, let x := s.railAt d r
    fieldOf x.rctl 0 8 = 170 ∧ fieldOf x.rctl 8 7 = 90 ∧ x.auto_ = true ∧ x.capmin = 4 ∧ x.hcap = 16 ∧ x.alarm = false ∧ x.busy = false ∧
    s.vnow d r = 170 ∧ s.mnow d r = 90) ∧
  (∀ d, let x := s.dieAt d
    x.tier = true ∧ x.twarn = 95 ∧ x.tcrit = 105 ∧ x.lvl = 0) ∧
  (∀ q, (s.qp q).qcfg = 0 ∧ (s.qp q).rdy = false) ∧
  ∀ w, viewsReset w = BitVec.ofNat 64 (2 ^ 8 * min 64 (w / 8) + 2 ^ 16 * min 16 (w / 32) + 2 ^ 24 * min 32 ((w - 512) / 64))
end

