-- ==== Sys2Proof/Laws/Memory.lean ====
section
/-! SUPPORT. Byte memories: a byte written and every other byte, the canonical form, little-endian values. -/

namespace Sys2Proof

namespace Mem

/-! ## Reading after writing -/

theorem byte_insert (m : Mem) (a b : Nat) (v : Byte) : (m.insert a v).byte b = if b = a then v else m.byte b := by
  induction m with
  | nil => simp [insert, byte]
  | cons c r ih =>
    obtain ⟨k, w⟩ := c
    simp only [insert]
    split
    · simp only [byte]
    · split
      · subst_vars; simp only [byte]; split <;> rfl
      · simp only [byte, ih]; split
        · subst_vars; split <;> first | rfl | omega
        · rfl

theorem byte_filter (m : Mem) (p : Nat → Bool) (a : Nat) (h : p a = true) :
    byte (m.filter fun c => p c.1) a = m.byte a := by
  induction m with
  | nil => rfl
  | cons c r ih =>
    obtain ⟨k, w⟩ := c
    simp only [List.filter_cons]
    split
    · simp only [byte, ih]
    · simp only [byte, ih]
      split
      · subst_vars; simp_all
      · rfl

theorem byte_filter_out (m : Mem) (p : Nat → Bool) (a : Nat) (h : p a = false) :
    byte (m.filter fun c => p c.1) a = unlisted := by
  induction m with
  | nil => rfl
  | cons c r ih =>
    obtain ⟨k, w⟩ := c
    simp only [List.filter_cons]
    split
    · simp only [byte, ih]
      split
      · subst_vars; simp_all
      · rfl
    · exact ih

theorem byte_put (m : Mem) (a b : Nat) (v : Byte) : (m.put a v).byte b = if b = a then v else m.byte b := by
  unfold put
  split
  · split
    · subst_vars
      exact byte_filter_out m (fun k => decide (k ≠ b)) b (by simp)
    · exact byte_filter m (fun k => decide (k ≠ a)) b (by simpa using by assumption)
  · exact byte_insert m a b v

theorem byte_write (bs : List Byte) : ∀ (m : Mem) (a b : Nat),
    (m.write a bs).byte b = if a ≤ b ∧ b < a + bs.length then bs.getD (b - a) 0 else m.byte b := by
  induction bs with
  | nil => intro m a b; simp only [write, List.length_nil]; split <;> first | rfl | omega
  | cons c r ih =>
    intro m a b
    simp only [write, ih, byte_put, List.length_cons]
    by_cases hb : b = a
    · subst hb
      simp
    · by_cases h : a + 1 ≤ b ∧ b < a + 1 + r.length
      · rw [if_pos h, if_pos (by omega)]
        obtain ⟨n, hn⟩ : ∃ n, b - a = n + 1 := ⟨b - a - 1, by omega⟩
        rw [hn, show b - (a + 1) = n by omega]
        simp
      · rw [if_neg h, if_neg hb, if_neg (by omega)]

/-- A byte outside the written range is as before. -/
theorem byte_write_other (m : Mem) (a b : Nat) (bs : List Byte) (h : b < a ∨ a + bs.length ≤ b) :
    (m.write a bs).byte b = m.byte b := by
  rw [byte_write, if_neg (by omega)]

@[simp] theorem length_read (m : Mem) (a n : Nat) : (m.read a n).length = n := by
  induction n generalizing a with
  | zero => rfl
  | succ n ih => simp [read, ih]

theorem read_congr {m k : Mem} {a n : Nat} (h : ∀ i, a ≤ i → i < a + n → m.byte i = k.byte i) : m.read a n = k.read a n := by
  induction n generalizing a with
  | zero => rfl
  | succ n ih =>
    simp only [read]
    rw [h a (by omega) (by omega), ih fun i h1 h2 => h i (by omega) (by omega)]

theorem read_getD (m : Mem) (n : Nat) : ∀ (a i : Nat), i < n → (m.read a n).getD i 0 = m.byte (a + i) := by
  induction n with
  | zero => intro a i h; omega
  | succ n ih =>
    intro a i h
    cases i with
    | zero => simp [read]
    | succ i => simp only [read, List.getD_cons_succ]; rw [ih (a + 1) i (by omega)]; congr 1; omega

/-- What is written reads back. -/
theorem read_write_self (bs : List Byte) (m : Mem) (a : Nat) : (m.write a bs).read a bs.length = bs := by
  apply List.ext_getElem (by simp)
  intro i h1 h2
  have hi : i < bs.length := h2
  have := read_getD (m.write a bs) bs.length a i hi
  rw [byte_write, if_pos (by omega), show a + i - a = i by omega] at this
  simpa [List.getD_eq_getElem?_getD, h1, h2] using this

/-- A range that meets nothing of what is written reads as before. -/
theorem read_write_other (bs : List Byte) (m : Mem) (a b n : Nat) (h : b + n ≤ a ∨ a + bs.length ≤ b) :
    (m.write a bs).read b n = m.read b n :=
  read_congr fun i _ _ => byte_write_other m a i bs (by omega)

/-! ## The canonical form -/

theorem wfFrom_mono {lo hi : Nat} {m : Mem} (h : wfFrom hi m = true) (l : lo ≤ hi) : wfFrom lo m = true := by
  cases m with
  | nil => rfl
  | cons c r =>
    obtain ⟨k, v⟩ := c
    simp only [wfFrom, Bool.and_eq_true, decide_eq_true_eq] at h ⊢
    exact ⟨⟨by omega, h.1.2⟩, h.2⟩

theorem wfFrom_insert {lo a : Nat} {m : Mem} {v : Byte} (h : wfFrom lo m = true) (la : lo ≤ a) (hv : v ≠ unlisted) :
    wfFrom lo (m.insert a v) = true := by
  induction m generalizing lo with
  | nil => simp [insert, wfFrom, la, hv]
  | cons c r ih =>
    obtain ⟨k, w⟩ := c
    simp only [wfFrom, Bool.and_eq_true, decide_eq_true_eq] at h
    simp only [insert]
    split
    · simp only [wfFrom, Bool.and_eq_true, decide_eq_true_eq]
      exact ⟨⟨la, hv⟩, ⟨by omega, h.1.2⟩, h.2⟩
    · split
      · subst_vars; simp only [wfFrom, Bool.and_eq_true, decide_eq_true_eq]; exact ⟨⟨la, hv⟩, h.2⟩
      · simp only [wfFrom, Bool.and_eq_true, decide_eq_true_eq]
        exact ⟨h.1, ih h.2 (by omega)⟩

theorem wfFrom_filter {lo : Nat} {m : Mem} {p : Nat × Byte → Bool} (h : wfFrom lo m = true) : wfFrom lo (m.filter p) = true := by
  induction m generalizing lo with
  | nil => rfl
  | cons c r ih =>
    obtain ⟨k, w⟩ := c
    simp only [wfFrom, Bool.and_eq_true, decide_eq_true_eq] at h
    simp only [List.filter_cons]
    split
    · simp only [wfFrom, Bool.and_eq_true, decide_eq_true_eq]
      exact ⟨h.1, ih h.2⟩
    · exact wfFrom_mono (ih h.2) (by omega)

theorem wf_put {m : Mem} (a : Nat) (v : Byte) (h : m.wf = true) : (m.put a v).wf = true := by
  unfold put wf
  split
  · exact wfFrom_filter h
  · exact wfFrom_insert h (Nat.zero_le a) (by assumption)

theorem wf_write {m : Mem} (a : Nat) (bs : List Byte) (h : m.wf = true) : (m.write a bs).wf = true := by
  induction bs generalizing m a with
  | nil => exact h
  | cons b r ih => exact ih _ (wf_put a b h)

theorem wf_clear {m : Mem} (a n : Nat) (h : m.wf = true) : (m.clear a n).wf = true := wfFrom_filter h

theorem wf_below {m : Mem} (a : Nat) (h : m.wf = true) : (m.below a).wf = true := wfFrom_filter h

theorem wf_nil : Mem.wf [] = true := rfl

end Mem

namespace Machine

/-! ## Little-endian values -/

@[simp] theorem length_leBytes (n x : Nat) : (leBytes n x).length = n := by
  induction n generalizing x with
  | zero => rfl
  | succ n ih => simp [leBytes, ih]

theorem leNat_leBytes (n x : Nat) : leNat (leBytes n x) = x % 256 ^ n := by
  induction n generalizing x with
  | zero => simp [leBytes, leNat, Nat.mod_one]
  | succ n ih =>
    simp only [leBytes, leNat, ih, BitVec.toNat_ofNat]
    rw [show (256 : Nat) ^ (n + 1) = 256 * 256 ^ n by rw [Nat.pow_succ, Nat.mul_comm], Nat.mod_mul]

theorem leNat_lt (bs : List Byte) : leNat bs < 256 ^ bs.length := by
  induction bs with
  | nil => simp [leNat]
  | cons b r ih =>
    simp only [leNat, List.length_cons, Nat.pow_succ]
    have := b.isLt
    omega

theorem leBytes_getD (n : Nat) : ∀ (x i : Nat), i < n → (leBytes n x).getD i 0 = BitVec.ofNat 8 (x / 256 ^ i) := by
  induction n with
  | zero => intro x i h; omega
  | succ n ih =>
    intro x i h
    cases i with
    | zero => simp [leBytes]
    | succ i => simp only [leBytes, List.getD_cons_succ]; rw [ih _ i (by omega), Nat.div_div_eq_div_mul, Nat.pow_succ, Nat.mul_comm 256]

/-! ## Association lists -/

theorem assocGet_assocSet {α : Type} (k : Nat) (v : α) (l : List (Nat × α)) : assocGet k (assocSet k v l) = some v := by
  induction l with
  | nil => simp [assocSet, assocGet]
  | cons c r ih =>
    obtain ⟨j, w⟩ := c
    simp only [assocSet]
    split
    · simp [assocGet]
    · split
      · simp [assocGet]
      · rename_i h _
        simp only [assocGet, List.find?_cons] at ih ⊢
        rw [show (j == k) = false by simpa using h]
        exact ih

theorem assocGet_assocSet_ne {α : Type} {j k : Nat} (v : α) (l : List (Nat × α)) (h : j ≠ k) :
    assocGet j (assocSet k v l) = assocGet j l := by
  induction l with
  | nil => simp [assocSet, assocGet, Ne.symm h]
  | cons c r ih =>
    obtain ⟨i, w⟩ := c
    simp only [assocSet]
    split
    · subst_vars; simp [assocGet, Ne.symm h]
    · split
      · simp [assocGet, List.find?_cons, Ne.symm h]
      · simp only [assocGet, List.find?_cons] at ih ⊢
        split
        · rfl
        · exact ih

end Machine
end Sys2Proof
end

