-- ==== Sys2Proof/Laws/State.lean ====
section
/-! SUPPORT. One lemma per field and update: what the named updates of a hart, a cell and the module leave as it was. -/

namespace Sys2Proof.Machine

/-! ## `setS`, `setV`, `setSb` -/

@[simp] theorem Hart.setS_pc (h : Hart) (i : Reg) (x : Word) : (h.setS i x).pc = h.pc := by unfold Hart.setS; split <;> rfl
@[simp] theorem Hart.setV_pc (h : Hart) (i : Reg) (x : BitVec 512) : (h.setV i x).pc = h.pc := rfl
@[simp] theorem Hart.setSb_pc (h : Hart) (i : Reg) (g : Nat) (y : Byte) : (h.setSb i g y).pc = h.pc := rfl
@[simp] theorem Hart.setS_npc (h : Hart) (i : Reg) (x : Word) : (h.setS i x).npc = h.npc := by unfold Hart.setS; split <;> rfl
@[simp] theorem Hart.setV_npc (h : Hart) (i : Reg) (x : BitVec 512) : (h.setV i x).npc = h.npc := rfl
@[simp] theorem Hart.setSb_npc (h : Hart) (i : Reg) (g : Nat) (y : Byte) : (h.setSb i g y).npc = h.npc := rfl
@[simp] theorem Hart.setS_ir (h : Hart) (i : Reg) (x : Word) : (h.setS i x).ir = h.ir := by unfold Hart.setS; split <;> rfl
@[simp] theorem Hart.setV_ir (h : Hart) (i : Reg) (x : BitVec 512) : (h.setV i x).ir = h.ir := rfl
@[simp] theorem Hart.setSb_ir (h : Hart) (i : Reg) (g : Nat) (y : Byte) : (h.setSb i g y).ir = h.ir := rfl
@[simp] theorem Hart.setS_level (h : Hart) (i : Reg) (x : Word) : (h.setS i x).level = h.level := by unfold Hart.setS; split <;> rfl
@[simp] theorem Hart.setV_level (h : Hart) (i : Reg) (x : BitVec 512) : (h.setV i x).level = h.level := rfl
@[simp] theorem Hart.setSb_level (h : Hart) (i : Reg) (g : Nat) (y : Byte) : (h.setSb i g y).level = h.level := rfl
@[simp] theorem Hart.setS_st (h : Hart) (i : Reg) (x : Word) : (h.setS i x).st = h.st := by unfold Hart.setS; split <;> rfl
@[simp] theorem Hart.setV_st (h : Hart) (i : Reg) (x : BitVec 512) : (h.setV i x).st = h.st := rfl
@[simp] theorem Hart.setSb_st (h : Hart) (i : Reg) (g : Nat) (y : Byte) : (h.setSb i g y).st = h.st := rfl
@[simp] theorem Hart.setS_paused (h : Hart) (i : Reg) (x : Word) : (h.setS i x).paused = h.paused := by unfold Hart.setS; split <;> rfl
@[simp] theorem Hart.setV_paused (h : Hart) (i : Reg) (x : BitVec 512) : (h.setV i x).paused = h.paused := rfl
@[simp] theorem Hart.setSb_paused (h : Hart) (i : Reg) (g : Nat) (y : Byte) : (h.setSb i g y).paused = h.paused := rfl
@[simp] theorem Hart.setSb_win (h : Hart) (i : Reg) (g : Nat) (y : Byte) : (h.setSb i g y).win = h.win := rfl
@[simp] theorem Hart.setS_winSb (h : Hart) (i : Reg) (x : Word) : (h.setS i x).winSb = h.winSb := by unfold Hart.setS; split <;> rfl
@[simp] theorem Hart.setV_winSb (h : Hart) (i : Reg) (x : BitVec 512) : (h.setV i x).winSb = h.winSb := rfl
@[simp] theorem Hart.setS_wsize (h : Hart) (i : Reg) (x : Word) : (h.setS i x).wsize = h.wsize := by unfold Hart.setS; split <;> rfl
@[simp] theorem Hart.setV_wsize (h : Hart) (i : Reg) (x : BitVec 512) : (h.setV i x).wsize = h.wsize := rfl
@[simp] theorem Hart.setSb_wsize (h : Hart) (i : Reg) (g : Nat) (y : Byte) : (h.setSb i g y).wsize = h.wsize := rfl
@[simp] theorem Hart.setS_views (h : Hart) (i : Reg) (x : Word) : (h.setS i x).views = h.views := by unfold Hart.setS; split <;> rfl
@[simp] theorem Hart.setV_views (h : Hart) (i : Reg) (x : BitVec 512) : (h.setV i x).views = h.views := rfl
@[simp] theorem Hart.setSb_views (h : Hart) (i : Reg) (g : Nat) (y : Byte) : (h.setSb i g y).views = h.views := rfl
@[simp] theorem Hart.setS_fflags (h : Hart) (i : Reg) (x : Word) : (h.setS i x).fflags = h.fflags := by unfold Hart.setS; split <;> rfl
@[simp] theorem Hart.setV_fflags (h : Hart) (i : Reg) (x : BitVec 512) : (h.setV i x).fflags = h.fflags := rfl
@[simp] theorem Hart.setSb_fflags (h : Hart) (i : Reg) (g : Nat) (y : Byte) : (h.setSb i g y).fflags = h.fflags := rfl
@[simp] theorem Hart.setS_rngs (h : Hart) (i : Reg) (x : Word) : (h.setS i x).rngs = h.rngs := by unfold Hart.setS; split <;> rfl
@[simp] theorem Hart.setV_rngs (h : Hart) (i : Reg) (x : BitVec 512) : (h.setV i x).rngs = h.rngs := rfl
@[simp] theorem Hart.setSb_rngs (h : Hart) (i : Reg) (g : Nat) (y : Byte) : (h.setSb i g y).rngs = h.rngs := rfl
@[simp] theorem Hart.setS_fetry (h : Hart) (i : Reg) (x : Word) : (h.setS i x).fetry = h.fetry := by unfold Hart.setS; split <;> rfl
@[simp] theorem Hart.setV_fetry (h : Hart) (i : Reg) (x : BitVec 512) : (h.setV i x).fetry = h.fetry := rfl
@[simp] theorem Hart.setSb_fetry (h : Hart) (i : Reg) (g : Nat) (y : Byte) : (h.setSb i g y).fetry = h.fetry := rfl
@[simp] theorem Hart.setS_fwl (h : Hart) (i : Reg) (x : Word) : (h.setS i x).fwl = h.fwl := by unfold Hart.setS; split <;> rfl
@[simp] theorem Hart.setV_fwl (h : Hart) (i : Reg) (x : BitVec 512) : (h.setV i x).fwl = h.fwl := rfl
@[simp] theorem Hart.setSb_fwl (h : Hart) (i : Reg) (g : Nat) (y : Byte) : (h.setSb i g y).fwl = h.fwl := rfl
@[simp] theorem Hart.setS_lcnt (h : Hart) (i : Reg) (x : Word) : (h.setS i x).lcnt = h.lcnt := by unfold Hart.setS; split <;> rfl
@[simp] theorem Hart.setV_lcnt (h : Hart) (i : Reg) (x : BitVec 512) : (h.setV i x).lcnt = h.lcnt := rfl
@[simp] theorem Hart.setSb_lcnt (h : Hart) (i : Reg) (g : Nat) (y : Byte) : (h.setSb i g y).lcnt = h.lcnt := rfl
@[simp] theorem Hart.setS_lsta (h : Hart) (i : Reg) (x : Word) : (h.setS i x).lsta = h.lsta := by unfold Hart.setS; split <;> rfl
@[simp] theorem Hart.setV_lsta (h : Hart) (i : Reg) (x : BitVec 512) : (h.setV i x).lsta = h.lsta := rfl
@[simp] theorem Hart.setSb_lsta (h : Hart) (i : Reg) (g : Nat) (y : Byte) : (h.setSb i g y).lsta = h.lsta := rfl
@[simp] theorem Hart.setS_lend (h : Hart) (i : Reg) (x : Word) : (h.setS i x).lend = h.lend := by unfold Hart.setS; split <;> rfl
@[simp] theorem Hart.setV_lend (h : Hart) (i : Reg) (x : BitVec 512) : (h.setV i x).lend = h.lend := rfl
@[simp] theorem Hart.setSb_lend (h : Hart) (i : Reg) (g : Nat) (y : Byte) : (h.setSb i g y).lend = h.lend := rfl
@[simp] theorem Hart.setS_pcnt (h : Hart) (i : Reg) (x : Word) : (h.setS i x).pcnt = h.pcnt := by unfold Hart.setS; split <;> rfl
@[simp] theorem Hart.setV_pcnt (h : Hart) (i : Reg) (x : BitVec 512) : (h.setV i x).pcnt = h.pcnt := rfl
@[simp] theorem Hart.setSb_pcnt (h : Hart) (i : Reg) (g : Nat) (y : Byte) : (h.setSb i g y).pcnt = h.pcnt := rfl
@[simp] theorem Hart.setS_psta (h : Hart) (i : Reg) (x : Word) : (h.setS i x).psta = h.psta := by unfold Hart.setS; split <;> rfl
@[simp] theorem Hart.setV_psta (h : Hart) (i : Reg) (x : BitVec 512) : (h.setV i x).psta = h.psta := rfl
@[simp] theorem Hart.setSb_psta (h : Hart) (i : Reg) (g : Nat) (y : Byte) : (h.setSb i g y).psta = h.psta := rfl
@[simp] theorem Hart.setS_pend (h : Hart) (i : Reg) (x : Word) : (h.setS i x).pend = h.pend := by unfold Hart.setS; split <;> rfl
@[simp] theorem Hart.setV_pend (h : Hart) (i : Reg) (x : BitVec 512) : (h.setV i x).pend = h.pend := rfl
@[simp] theorem Hart.setSb_pend (h : Hart) (i : Reg) (g : Nat) (y : Byte) : (h.setSb i g y).pend = h.pend := rfl
@[simp] theorem Hart.setS_tcmp (h : Hart) (i : Reg) (x : Word) : (h.setS i x).tcmp = h.tcmp := by unfold Hart.setS; split <;> rfl
@[simp] theorem Hart.setV_tcmp (h : Hart) (i : Reg) (x : BitVec 512) : (h.setV i x).tcmp = h.tcmp := rfl
@[simp] theorem Hart.setSb_tcmp (h : Hart) (i : Reg) (g : Nat) (y : Byte) : (h.setSb i g y).tcmp = h.tcmp := rfl
@[simp] theorem Hart.setS_tu (h : Hart) (i : Reg) (x : Word) : (h.setS i x).tu = h.tu := by unfold Hart.setS; split <;> rfl
@[simp] theorem Hart.setV_tu (h : Hart) (i : Reg) (x : BitVec 512) : (h.setV i x).tu = h.tu := rfl
@[simp] theorem Hart.setSb_tu (h : Hart) (i : Reg) (g : Nat) (y : Byte) : (h.setSb i g y).tu = h.tu := rfl
@[simp] theorem Hart.setS_ts (h : Hart) (i : Reg) (x : Word) : (h.setS i x).ts = h.ts := by unfold Hart.setS; split <;> rfl
@[simp] theorem Hart.setV_ts (h : Hart) (i : Reg) (x : BitVec 512) : (h.setV i x).ts = h.ts := rfl
@[simp] theorem Hart.setSb_ts (h : Hart) (i : Reg) (g : Nat) (y : Byte) : (h.setSb i g y).ts = h.ts := rfl
@[simp] theorem Hart.setS_tf (h : Hart) (i : Reg) (x : Word) : (h.setS i x).tf = h.tf := by unfold Hart.setS; split <;> rfl
@[simp] theorem Hart.setV_tf (h : Hart) (i : Reg) (x : BitVec 512) : (h.setV i x).tf = h.tf := rfl
@[simp] theorem Hart.setSb_tf (h : Hart) (i : Reg) (g : Nat) (y : Byte) : (h.setSb i g y).tf = h.tf := rfl
@[simp] theorem Hart.setS_hwin (h : Hart) (i : Reg) (x : Word) : (h.setS i x).hwin = h.hwin := by unfold Hart.setS; split <;> rfl
@[simp] theorem Hart.setV_hwin (h : Hart) (i : Reg) (x : BitVec 512) : (h.setV i x).hwin = h.hwin := rfl
@[simp] theorem Hart.setSb_hwin (h : Hart) (i : Reg) (g : Nat) (y : Byte) : (h.setSb i g y).hwin = h.hwin := rfl
@[simp] theorem Hart.setS_task (h : Hart) (i : Reg) (x : Word) : (h.setS i x).task = h.task := by unfold Hart.setS; split <;> rfl
@[simp] theorem Hart.setV_task (h : Hart) (i : Reg) (x : BitVec 512) : (h.setV i x).task = h.task := rfl
@[simp] theorem Hart.setSb_task (h : Hart) (i : Reg) (g : Nat) (y : Byte) : (h.setSb i g y).task = h.task := rfl
@[simp] theorem Hart.setS_hand (h : Hart) (i : Reg) (x : Word) : (h.setS i x).hand = h.hand := by unfold Hart.setS; split <;> rfl
@[simp] theorem Hart.setV_hand (h : Hart) (i : Reg) (x : BitVec 512) : (h.setV i x).hand = h.hand := rfl
@[simp] theorem Hart.setSb_hand (h : Hart) (i : Reg) (g : Nat) (y : Byte) : (h.setSb i g y).hand = h.hand := rfl
@[simp] theorem Hart.setS_winstr (h : Hart) (i : Reg) (x : Word) : (h.setS i x).winstr = h.winstr := by unfold Hart.setS; split <;> rfl
@[simp] theorem Hart.setV_winstr (h : Hart) (i : Reg) (x : BitVec 512) : (h.setV i x).winstr = h.winstr := rfl
@[simp] theorem Hart.setSb_winstr (h : Hart) (i : Reg) (g : Nat) (y : Byte) : (h.setSb i g y).winstr = h.winstr := rfl
@[simp] theorem Hart.setS_woken (h : Hart) (i : Reg) (x : Word) : (h.setS i x).woken = h.woken := by unfold Hart.setS; split <;> rfl
@[simp] theorem Hart.setV_woken (h : Hart) (i : Reg) (x : BitVec 512) : (h.setV i x).woken = h.woken := rfl
@[simp] theorem Hart.setSb_woken (h : Hart) (i : Reg) (g : Nat) (y : Byte) : (h.setSb i g y).woken = h.woken := rfl
@[simp] theorem Hart.setS_since (h : Hart) (i : Reg) (x : Word) : (h.setS i x).since = h.since := by unfold Hart.setS; split <;> rfl
@[simp] theorem Hart.setV_since (h : Hart) (i : Reg) (x : BitVec 512) : (h.setV i x).since = h.since := rfl
@[simp] theorem Hart.setSb_since (h : Hart) (i : Reg) (g : Nat) (y : Byte) : (h.setSb i g y).since = h.since := rfl
@[simp] theorem Hart.setS_req (h : Hart) (i : Reg) (x : Word) : (h.setS i x).req = h.req := by unfold Hart.setS; split <;> rfl
@[simp] theorem Hart.setV_req (h : Hart) (i : Reg) (x : BitVec 512) : (h.setV i x).req = h.req := rfl
@[simp] theorem Hart.setSb_req (h : Hart) (i : Reg) (g : Nat) (y : Byte) : (h.setSb i g y).req = h.req := rfl
@[simp] theorem Hart.setS_check (h : Hart) (i : Reg) (x : Word) : (h.setS i x).check = h.check := by unfold Hart.setS; split <;> rfl
@[simp] theorem Hart.setV_check (h : Hart) (i : Reg) (x : BitVec 512) : (h.setV i x).check = h.check := rfl
@[simp] theorem Hart.setSb_check (h : Hart) (i : Reg) (g : Nat) (y : Byte) : (h.setSb i g y).check = h.check := rfl
@[simp] theorem Hart.setS_buf (h : Hart) (i : Reg) (x : Word) : (h.setS i x).buf = h.buf := by unfold Hart.setS; split <;> rfl
@[simp] theorem Hart.setV_buf (h : Hart) (i : Reg) (x : BitVec 512) : (h.setV i x).buf = h.buf := rfl
@[simp] theorem Hart.setSb_buf (h : Hart) (i : Reg) (g : Nat) (y : Byte) : (h.setSb i g y).buf = h.buf := rfl
@[simp] theorem Hart.setS_again (h : Hart) (i : Reg) (x : Word) : (h.setS i x).again = h.again := by unfold Hart.setS; split <;> rfl
@[simp] theorem Hart.setV_again (h : Hart) (i : Reg) (x : BitVec 512) : (h.setV i x).again = h.again := rfl
@[simp] theorem Hart.setSb_again (h : Hart) (i : Reg) (g : Nat) (y : Byte) : (h.setSb i g y).again = h.again := rfl
@[simp] theorem Hart.setS_held (h : Hart) (i : Reg) (x : Word) : (h.setS i x).held = h.held := by unfold Hart.setS; split <;> rfl
@[simp] theorem Hart.setV_held (h : Hart) (i : Reg) (x : BitVec 512) : (h.setV i x).held = h.held := rfl
@[simp] theorem Hart.setSb_held (h : Hart) (i : Reg) (g : Nat) (y : Byte) : (h.setSb i g y).held = h.held := rfl
@[simp] theorem Hart.setS_relAfter (h : Hart) (i : Reg) (x : Word) : (h.setS i x).relAfter = h.relAfter := by unfold Hart.setS; split <;> rfl
@[simp] theorem Hart.setV_relAfter (h : Hart) (i : Reg) (x : BitVec 512) : (h.setV i x).relAfter = h.relAfter := rfl
@[simp] theorem Hart.setSb_relAfter (h : Hart) (i : Reg) (g : Nat) (y : Byte) : (h.setSb i g y).relAfter = h.relAfter := rfl
@[simp] theorem Hart.setS_chosen (h : Hart) (i : Reg) (x : Word) : (h.setS i x).chosen = h.chosen := by unfold Hart.setS; split <;> rfl
@[simp] theorem Hart.setV_chosen (h : Hart) (i : Reg) (x : BitVec 512) : (h.setV i x).chosen = h.chosen := rfl
@[simp] theorem Hart.setSb_chosen (h : Hart) (i : Reg) (g : Nat) (y : Byte) : (h.setSb i g y).chosen = h.chosen := rfl
@[simp] theorem Hart.setS_heldRec (h : Hart) (i : Reg) (x : Word) : (h.setS i x).heldRec = h.heldRec := by unfold Hart.setS; split <;> rfl
@[simp] theorem Hart.setV_heldRec (h : Hart) (i : Reg) (x : BitVec 512) : (h.setV i x).heldRec = h.heldRec := rfl
@[simp] theorem Hart.setSb_heldRec (h : Hart) (i : Reg) (g : Nat) (y : Byte) : (h.setSb i g y).heldRec = h.heldRec := rfl
@[simp] theorem Hart.setS_stopped (h : Hart) (i : Reg) (x : Word) : (h.setS i x).stopped = h.stopped := by unfold Hart.setS; split <;> rfl
@[simp] theorem Hart.setV_stopped (h : Hart) (i : Reg) (x : BitVec 512) : (h.setV i x).stopped = h.stopped := rfl
@[simp] theorem Hart.setSb_stopped (h : Hart) (i : Reg) (g : Nat) (y : Byte) : (h.setSb i g y).stopped = h.stopped := rfl
@[simp] theorem Hart.setS_frozen (h : Hart) (i : Reg) (x : Word) : (h.setS i x).frozen = h.frozen := by unfold Hart.setS; split <;> rfl
@[simp] theorem Hart.setV_frozen (h : Hart) (i : Reg) (x : BitVec 512) : (h.setV i x).frozen = h.frozen := rfl
@[simp] theorem Hart.setSb_frozen (h : Hart) (i : Reg) (g : Nat) (y : Byte) : (h.setSb i g y).frozen = h.frozen := rfl
@[simp] theorem Hart.setS_engErr (h : Hart) (i : Reg) (x : Word) : (h.setS i x).engErr = h.engErr := by unfold Hart.setS; split <;> rfl
@[simp] theorem Hart.setV_engErr (h : Hart) (i : Reg) (x : BitVec 512) : (h.setV i x).engErr = h.engErr := rfl
@[simp] theorem Hart.setSb_engErr (h : Hart) (i : Reg) (g : Nat) (y : Byte) : (h.setSb i g y).engErr = h.engErr := rfl
@[simp] theorem Hart.setS_ticket (h : Hart) (i : Reg) (x : Word) : (h.setS i x).ticket = h.ticket := by unfold Hart.setS; split <;> rfl
@[simp] theorem Hart.setV_ticket (h : Hart) (i : Reg) (x : BitVec 512) : (h.setV i x).ticket = h.ticket := rfl
@[simp] theorem Hart.setSb_ticket (h : Hart) (i : Reg) (g : Nat) (y : Byte) : (h.setSb i g y).ticket = h.ticket := rfl
@[simp] theorem Hart.setS_heldNo (h : Hart) (i : Reg) (x : Word) : (h.setS i x).heldNo = h.heldNo := by unfold Hart.setS; split <;> rfl
@[simp] theorem Hart.setV_heldNo (h : Hart) (i : Reg) (x : BitVec 512) : (h.setV i x).heldNo = h.heldNo := rfl
@[simp] theorem Hart.setSb_heldNo (h : Hart) (i : Reg) (g : Nat) (y : Byte) : (h.setSb i g y).heldNo = h.heldNo := rfl
@[simp] theorem Hart.setS_ready (h : Hart) (i : Reg) (x : Word) : (h.setS i x).ready = h.ready := by unfold Hart.setS; split <;> rfl
@[simp] theorem Hart.setV_ready (h : Hart) (i : Reg) (x : BitVec 512) : (h.setV i x).ready = h.ready := rfl
@[simp] theorem Hart.setSb_ready (h : Hart) (i : Reg) (g : Nat) (y : Byte) : (h.setSb i g y).ready = h.ready := rfl
@[simp] theorem Hart.setS_asks (h : Hart) (i : Reg) (x : Word) : (h.setS i x).asks = h.asks := by unfold Hart.setS; split <;> rfl
@[simp] theorem Hart.setS_got (h : Hart) (i : Reg) (x : Word) : (h.setS i x).got = h.got := by unfold Hart.setS; split <;> rfl
@[simp] theorem Hart.setV_asks (h : Hart) (i : Reg) (x : BitVec 512) : (h.setV i x).asks = h.asks := rfl
@[simp] theorem Hart.setV_got (h : Hart) (i : Reg) (x : BitVec 512) : (h.setV i x).got = h.got := rfl
@[simp] theorem Hart.setSb_asks (h : Hart) (i : Reg) (g : Nat) (y : Byte) : (h.setSb i g y).asks = h.asks := rfl
@[simp] theorem Hart.setSb_got (h : Hart) (i : Reg) (g : Nat) (y : Byte) : (h.setSb i g y).got = h.got := rfl
@[simp] theorem Hart.setS_left (h : Hart) (i : Reg) (x : Word) : (h.setS i x).left = h.left := by unfold Hart.setS; split <;> rfl
@[simp] theorem Hart.setV_left (h : Hart) (i : Reg) (x : BitVec 512) : (h.setV i x).left = h.left := rfl
@[simp] theorem Hart.setSb_left (h : Hart) (i : Reg) (g : Nat) (y : Byte) : (h.setSb i g y).left = h.left := rfl

/-! ## `settle`, `goTo`, `complete` -/

@[simp] theorem Hart.settle_pc (h : Hart) : h.settle.pc = h.pc := rfl
@[simp] theorem Hart.settle_npc (h : Hart) : h.settle.npc = h.npc := rfl
@[simp] theorem Hart.goTo_npc (h : Hart) (p : Word) : (h.goTo p).npc = h.npc := rfl
@[simp] theorem Hart.settle_ir (h : Hart) : h.settle.ir = h.ir := rfl
@[simp] theorem Hart.goTo_ir (h : Hart) (p : Word) : (h.goTo p).ir = h.ir := rfl
@[simp] theorem Hart.settle_level (h : Hart) : h.settle.level = h.level := rfl
@[simp] theorem Hart.goTo_level (h : Hart) (p : Word) : (h.goTo p).level = h.level := rfl
@[simp] theorem Hart.settle_st (h : Hart) : h.settle.st = h.st := rfl
@[simp] theorem Hart.settle_paused (h : Hart) : h.settle.paused = h.paused := rfl
@[simp] theorem Hart.goTo_paused (h : Hart) (p : Word) : (h.goTo p).paused = h.paused := rfl
@[simp] theorem Hart.settle_win (h : Hart) : h.settle.win = h.win := rfl
@[simp] theorem Hart.goTo_win (h : Hart) (p : Word) : (h.goTo p).win = h.win := rfl
@[simp] theorem Hart.settle_winSb (h : Hart) : h.settle.winSb = h.winSb := rfl
@[simp] theorem Hart.goTo_winSb (h : Hart) (p : Word) : (h.goTo p).winSb = h.winSb := rfl
@[simp] theorem Hart.settle_wsize (h : Hart) : h.settle.wsize = h.wsize := rfl
@[simp] theorem Hart.goTo_wsize (h : Hart) (p : Word) : (h.goTo p).wsize = h.wsize := rfl
@[simp] theorem Hart.settle_views (h : Hart) : h.settle.views = h.views := rfl
@[simp] theorem Hart.goTo_views (h : Hart) (p : Word) : (h.goTo p).views = h.views := rfl
@[simp] theorem Hart.settle_fflags (h : Hart) : h.settle.fflags = h.fflags := rfl
@[simp] theorem Hart.goTo_fflags (h : Hart) (p : Word) : (h.goTo p).fflags = h.fflags := rfl
@[simp] theorem Hart.settle_rngs (h : Hart) : h.settle.rngs = h.rngs := rfl
@[simp] theorem Hart.goTo_rngs (h : Hart) (p : Word) : (h.goTo p).rngs = h.rngs := rfl
@[simp] theorem Hart.settle_fetry (h : Hart) : h.settle.fetry = h.fetry := rfl
@[simp] theorem Hart.goTo_fetry (h : Hart) (p : Word) : (h.goTo p).fetry = h.fetry := rfl
@[simp] theorem Hart.settle_fwl (h : Hart) : h.settle.fwl = h.fwl := rfl
@[simp] theorem Hart.goTo_fwl (h : Hart) (p : Word) : (h.goTo p).fwl = h.fwl := rfl
@[simp] theorem Hart.settle_lcnt (h : Hart) : h.settle.lcnt = h.lcnt := rfl
@[simp] theorem Hart.goTo_lcnt (h : Hart) (p : Word) : (h.goTo p).lcnt = h.lcnt := rfl
@[simp] theorem Hart.settle_lsta (h : Hart) : h.settle.lsta = h.lsta := rfl
@[simp] theorem Hart.goTo_lsta (h : Hart) (p : Word) : (h.goTo p).lsta = h.lsta := rfl
@[simp] theorem Hart.settle_lend (h : Hart) : h.settle.lend = h.lend := rfl
@[simp] theorem Hart.goTo_lend (h : Hart) (p : Word) : (h.goTo p).lend = h.lend := rfl
@[simp] theorem Hart.settle_pcnt (h : Hart) : h.settle.pcnt = h.pcnt := rfl
@[simp] theorem Hart.goTo_pcnt (h : Hart) (p : Word) : (h.goTo p).pcnt = h.pcnt := rfl
@[simp] theorem Hart.settle_psta (h : Hart) : h.settle.psta = h.psta := rfl
@[simp] theorem Hart.goTo_psta (h : Hart) (p : Word) : (h.goTo p).psta = h.psta := rfl
@[simp] theorem Hart.settle_pend (h : Hart) : h.settle.pend = h.pend := rfl
@[simp] theorem Hart.goTo_pend (h : Hart) (p : Word) : (h.goTo p).pend = h.pend := rfl
@[simp] theorem Hart.settle_tcmp (h : Hart) : h.settle.tcmp = h.tcmp := rfl
@[simp] theorem Hart.goTo_tcmp (h : Hart) (p : Word) : (h.goTo p).tcmp = h.tcmp := rfl
@[simp] theorem Hart.settle_tu (h : Hart) : h.settle.tu = h.tu := rfl
@[simp] theorem Hart.goTo_tu (h : Hart) (p : Word) : (h.goTo p).tu = h.tu := rfl
@[simp] theorem Hart.settle_ts (h : Hart) : h.settle.ts = h.ts := rfl
@[simp] theorem Hart.goTo_ts (h : Hart) (p : Word) : (h.goTo p).ts = h.ts := rfl
@[simp] theorem Hart.settle_tf (h : Hart) : h.settle.tf = h.tf := rfl
@[simp] theorem Hart.goTo_tf (h : Hart) (p : Word) : (h.goTo p).tf = h.tf := rfl
@[simp] theorem Hart.settle_hwin (h : Hart) : h.settle.hwin = h.hwin := rfl
@[simp] theorem Hart.goTo_hwin (h : Hart) (p : Word) : (h.goTo p).hwin = h.hwin := rfl
@[simp] theorem Hart.settle_task (h : Hart) : h.settle.task = h.task := rfl
@[simp] theorem Hart.goTo_task (h : Hart) (p : Word) : (h.goTo p).task = h.task := rfl
@[simp] theorem Hart.settle_hand (h : Hart) : h.settle.hand = h.hand := rfl
@[simp] theorem Hart.goTo_hand (h : Hart) (p : Word) : (h.goTo p).hand = h.hand := rfl
@[simp] theorem Hart.settle_held (h : Hart) : h.settle.held = h.held := rfl
@[simp] theorem Hart.goTo_held (h : Hart) (p : Word) : (h.goTo p).held = h.held := rfl
@[simp] theorem Hart.settle_relAfter (h : Hart) : h.settle.relAfter = h.relAfter := rfl
@[simp] theorem Hart.goTo_relAfter (h : Hart) (p : Word) : (h.goTo p).relAfter = h.relAfter := rfl
@[simp] theorem Hart.settle_chosen (h : Hart) : h.settle.chosen = h.chosen := rfl
@[simp] theorem Hart.goTo_chosen (h : Hart) (p : Word) : (h.goTo p).chosen = h.chosen := rfl
@[simp] theorem Hart.settle_heldRec (h : Hart) : h.settle.heldRec = h.heldRec := rfl
@[simp] theorem Hart.goTo_heldRec (h : Hart) (p : Word) : (h.goTo p).heldRec = h.heldRec := rfl
@[simp] theorem Hart.settle_stopped (h : Hart) : h.settle.stopped = h.stopped := rfl
@[simp] theorem Hart.goTo_stopped (h : Hart) (p : Word) : (h.goTo p).stopped = h.stopped := rfl
@[simp] theorem Hart.settle_frozen (h : Hart) : h.settle.frozen = h.frozen := rfl
@[simp] theorem Hart.goTo_frozen (h : Hart) (p : Word) : (h.goTo p).frozen = h.frozen := rfl
@[simp] theorem Hart.settle_engErr (h : Hart) : h.settle.engErr = h.engErr := rfl
@[simp] theorem Hart.goTo_engErr (h : Hart) (p : Word) : (h.goTo p).engErr = h.engErr := rfl
@[simp] theorem Hart.settle_ticket (h : Hart) : h.settle.ticket = h.ticket := rfl
@[simp] theorem Hart.goTo_ticket (h : Hart) (p : Word) : (h.goTo p).ticket = h.ticket := rfl
@[simp] theorem Hart.settle_heldNo (h : Hart) : h.settle.heldNo = h.heldNo := rfl
@[simp] theorem Hart.goTo_heldNo (h : Hart) (p : Word) : (h.goTo p).heldNo = h.heldNo := rfl
@[simp] theorem Hart.settle_ready (h : Hart) : h.settle.ready = h.ready := rfl
@[simp] theorem Hart.goTo_ready (h : Hart) (p : Word) : (h.goTo p).ready = h.ready := rfl
@[simp] theorem Hart.settle_left (h : Hart) : h.settle.left = h.left := rfl
@[simp] theorem Hart.goTo_left (h : Hart) (p : Word) : (h.goTo p).left = h.left := rfl
@[simp] theorem Hart.goTo_pc (h : Hart) (p : Word) : (h.goTo p).pc = p := rfl
@[simp] theorem Hart.goTo_st (h : Hart) (p : Word) : (h.goTo p).st = .run := rfl
@[simp] theorem Hart.complete_npc (h : Hart) : h.complete.npc = h.npc := by unfold Hart.complete; dsimp only; (repeat' split) <;> rfl
@[simp] theorem Hart.complete_ir (h : Hart) : h.complete.ir = h.ir := by unfold Hart.complete; dsimp only; (repeat' split) <;> rfl
@[simp] theorem Hart.complete_level (h : Hart) : h.complete.level = h.level := by unfold Hart.complete; dsimp only; (repeat' split) <;> rfl
@[simp] theorem Hart.complete_paused (h : Hart) : h.complete.paused = h.paused := by unfold Hart.complete; dsimp only; (repeat' split) <;> rfl
@[simp] theorem Hart.complete_win (h : Hart) : h.complete.win = h.win := by unfold Hart.complete; dsimp only; (repeat' split) <;> rfl
@[simp] theorem Hart.complete_winSb (h : Hart) : h.complete.winSb = h.winSb := by unfold Hart.complete; dsimp only; (repeat' split) <;> rfl
@[simp] theorem Hart.complete_wsize (h : Hart) : h.complete.wsize = h.wsize := by unfold Hart.complete; dsimp only; (repeat' split) <;> rfl
@[simp] theorem Hart.complete_views (h : Hart) : h.complete.views = h.views := by unfold Hart.complete; dsimp only; (repeat' split) <;> rfl
@[simp] theorem Hart.complete_fflags (h : Hart) : h.complete.fflags = h.fflags := by unfold Hart.complete; dsimp only; (repeat' split) <;> rfl
@[simp] theorem Hart.complete_rngs (h : Hart) : h.complete.rngs = h.rngs := by unfold Hart.complete; dsimp only; (repeat' split) <;> rfl
@[simp] theorem Hart.complete_fetry (h : Hart) : h.complete.fetry = h.fetry := by unfold Hart.complete; dsimp only; (repeat' split) <;> rfl
@[simp] theorem Hart.complete_fwl (h : Hart) : h.complete.fwl = h.fwl := by unfold Hart.complete; dsimp only; (repeat' split) <;> rfl
@[simp] theorem Hart.complete_tcmp (h : Hart) : h.complete.tcmp = h.tcmp := by unfold Hart.complete; dsimp only; (repeat' split) <;> rfl
@[simp] theorem Hart.complete_tu (h : Hart) : h.complete.tu = h.tu := by unfold Hart.complete; dsimp only; (repeat' split) <;> rfl
@[simp] theorem Hart.complete_ts (h : Hart) : h.complete.ts = h.ts := by unfold Hart.complete; dsimp only; (repeat' split) <;> rfl
@[simp] theorem Hart.complete_tf (h : Hart) : h.complete.tf = h.tf := by unfold Hart.complete; dsimp only; (repeat' split) <;> rfl
@[simp] theorem Hart.complete_hwin (h : Hart) : h.complete.hwin = h.hwin := by unfold Hart.complete; dsimp only; (repeat' split) <;> rfl
@[simp] theorem Hart.complete_task (h : Hart) : h.complete.task = h.task := by unfold Hart.complete; dsimp only; (repeat' split) <;> rfl
@[simp] theorem Hart.complete_hand (h : Hart) : h.complete.hand = h.hand := by unfold Hart.complete; dsimp only; (repeat' split) <;> rfl
@[simp] theorem Hart.complete_held (h : Hart) : h.complete.held = h.held := by unfold Hart.complete; dsimp only; (repeat' split) <;> rfl
@[simp] theorem Hart.complete_relAfter (h : Hart) : h.complete.relAfter = h.relAfter := by unfold Hart.complete; dsimp only; (repeat' split) <;> rfl
@[simp] theorem Hart.complete_chosen (h : Hart) : h.complete.chosen = h.chosen := by unfold Hart.complete; dsimp only; (repeat' split) <;> rfl
@[simp] theorem Hart.complete_heldRec (h : Hart) : h.complete.heldRec = h.heldRec := by unfold Hart.complete; dsimp only; (repeat' split) <;> rfl
@[simp] theorem Hart.complete_stopped (h : Hart) : h.complete.stopped = h.stopped := by unfold Hart.complete; dsimp only; (repeat' split) <;> rfl
@[simp] theorem Hart.complete_frozen (h : Hart) : h.complete.frozen = h.frozen := by unfold Hart.complete; dsimp only; (repeat' split) <;> rfl
@[simp] theorem Hart.complete_engErr (h : Hart) : h.complete.engErr = h.engErr := by unfold Hart.complete; dsimp only; (repeat' split) <;> rfl
@[simp] theorem Hart.complete_ticket (h : Hart) : h.complete.ticket = h.ticket := by unfold Hart.complete; dsimp only; (repeat' split) <;> rfl
@[simp] theorem Hart.complete_heldNo (h : Hart) : h.complete.heldNo = h.heldNo := by unfold Hart.complete; dsimp only; (repeat' split) <;> rfl
@[simp] theorem Hart.complete_ready (h : Hart) : h.complete.ready = h.ready := by unfold Hart.complete; dsimp only; (repeat' split) <;> rfl
@[simp] theorem Hart.complete_left (h : Hart) : h.complete.left = h.left := by unfold Hart.complete; dsimp only; (repeat' split) <;> rfl
@[simp] theorem Hart.complete_st (h : Hart) : h.complete.st = .run := by unfold Hart.complete; dsimp only; (repeat' split) <;> rfl
@[simp] theorem Hart.complete_winstr (h : Hart) : h.complete.winstr = none := by unfold Hart.complete; dsimp only; (repeat' split) <;> rfl
@[simp] theorem Hart.complete_woken (h : Hart) : h.complete.woken = false := by unfold Hart.complete; dsimp only; (repeat' split) <;> rfl
@[simp] theorem Hart.complete_since (h : Hart) : h.complete.since = none := by unfold Hart.complete; dsimp only; (repeat' split) <;> rfl
@[simp] theorem Hart.complete_req (h : Hart) : h.complete.req = .idle := by unfold Hart.complete; dsimp only; (repeat' split) <;> rfl
@[simp] theorem Hart.complete_check (h : Hart) : h.complete.check = .idle := by unfold Hart.complete; dsimp only; (repeat' split) <;> rfl
@[simp] theorem Hart.complete_buf (h : Hart) : h.complete.buf = [] := by unfold Hart.complete; dsimp only; (repeat' split) <;> rfl
@[simp] theorem Hart.complete_again (h : Hart) : h.complete.again = false := by unfold Hart.complete; dsimp only; (repeat' split) <;> rfl
@[simp] theorem Hart.complete_asks (h : Hart) : h.complete.asks = [] := by unfold Hart.complete; dsimp only; (repeat' split) <;> rfl
@[simp] theorem Hart.complete_got (h : Hart) : h.complete.got = [] := by unfold Hart.complete; dsimp only; (repeat' split) <;> rfl

/-! ## `setBlock` -/

@[simp] theorem Hart.setBlock_pc (h : Hart) (l : Level) (b : TrapBlock) : (h.setBlock l b).pc = h.pc := by cases l <;> rfl
@[simp] theorem Hart.setBlock_npc (h : Hart) (l : Level) (b : TrapBlock) : (h.setBlock l b).npc = h.npc := by cases l <;> rfl
@[simp] theorem Hart.setBlock_ir (h : Hart) (l : Level) (b : TrapBlock) : (h.setBlock l b).ir = h.ir := by cases l <;> rfl
@[simp] theorem Hart.setBlock_level (h : Hart) (l : Level) (b : TrapBlock) : (h.setBlock l b).level = h.level := by cases l <;> rfl
@[simp] theorem Hart.setBlock_st (h : Hart) (l : Level) (b : TrapBlock) : (h.setBlock l b).st = h.st := by cases l <;> rfl
@[simp] theorem Hart.setBlock_paused (h : Hart) (l : Level) (b : TrapBlock) : (h.setBlock l b).paused = h.paused := by cases l <;> rfl
@[simp] theorem Hart.setBlock_win (h : Hart) (l : Level) (b : TrapBlock) : (h.setBlock l b).win = h.win := by cases l <;> rfl
@[simp] theorem Hart.setBlock_winSb (h : Hart) (l : Level) (b : TrapBlock) : (h.setBlock l b).winSb = h.winSb := by cases l <;> rfl
@[simp] theorem Hart.setBlock_wsize (h : Hart) (l : Level) (b : TrapBlock) : (h.setBlock l b).wsize = h.wsize := by cases l <;> rfl
@[simp] theorem Hart.setBlock_views (h : Hart) (l : Level) (b : TrapBlock) : (h.setBlock l b).views = h.views := by cases l <;> rfl
@[simp] theorem Hart.setBlock_fflags (h : Hart) (l : Level) (b : TrapBlock) : (h.setBlock l b).fflags = h.fflags := by cases l <;> rfl
@[simp] theorem Hart.setBlock_rngs (h : Hart) (l : Level) (b : TrapBlock) : (h.setBlock l b).rngs = h.rngs := by cases l <;> rfl
@[simp] theorem Hart.setBlock_fetry (h : Hart) (l : Level) (b : TrapBlock) : (h.setBlock l b).fetry = h.fetry := by cases l <;> rfl
@[simp] theorem Hart.setBlock_fwl (h : Hart) (l : Level) (b : TrapBlock) : (h.setBlock l b).fwl = h.fwl := by cases l <;> rfl
@[simp] theorem Hart.setBlock_lcnt (h : Hart) (l : Level) (b : TrapBlock) : (h.setBlock l b).lcnt = h.lcnt := by cases l <;> rfl
@[simp] theorem Hart.setBlock_lsta (h : Hart) (l : Level) (b : TrapBlock) : (h.setBlock l b).lsta = h.lsta := by cases l <;> rfl
@[simp] theorem Hart.setBlock_lend (h : Hart) (l : Level) (b : TrapBlock) : (h.setBlock l b).lend = h.lend := by cases l <;> rfl
@[simp] theorem Hart.setBlock_pcnt (h : Hart) (l : Level) (b : TrapBlock) : (h.setBlock l b).pcnt = h.pcnt := by cases l <;> rfl
@[simp] theorem Hart.setBlock_psta (h : Hart) (l : Level) (b : TrapBlock) : (h.setBlock l b).psta = h.psta := by cases l <;> rfl
@[simp] theorem Hart.setBlock_pend (h : Hart) (l : Level) (b : TrapBlock) : (h.setBlock l b).pend = h.pend := by cases l <;> rfl
@[simp] theorem Hart.setBlock_tcmp (h : Hart) (l : Level) (b : TrapBlock) : (h.setBlock l b).tcmp = h.tcmp := by cases l <;> rfl
@[simp] theorem Hart.setBlock_hwin (h : Hart) (l : Level) (b : TrapBlock) : (h.setBlock l b).hwin = h.hwin := by cases l <;> rfl
@[simp] theorem Hart.setBlock_task (h : Hart) (l : Level) (b : TrapBlock) : (h.setBlock l b).task = h.task := by cases l <;> rfl
@[simp] theorem Hart.setBlock_hand (h : Hart) (l : Level) (b : TrapBlock) : (h.setBlock l b).hand = h.hand := by cases l <;> rfl
@[simp] theorem Hart.setBlock_winstr (h : Hart) (l : Level) (b : TrapBlock) : (h.setBlock l b).winstr = h.winstr := by cases l <;> rfl
@[simp] theorem Hart.setBlock_woken (h : Hart) (l : Level) (b : TrapBlock) : (h.setBlock l b).woken = h.woken := by cases l <;> rfl
@[simp] theorem Hart.setBlock_since (h : Hart) (l : Level) (b : TrapBlock) : (h.setBlock l b).since = h.since := by cases l <;> rfl
@[simp] theorem Hart.setBlock_req (h : Hart) (l : Level) (b : TrapBlock) : (h.setBlock l b).req = h.req := by cases l <;> rfl
@[simp] theorem Hart.setBlock_check (h : Hart) (l : Level) (b : TrapBlock) : (h.setBlock l b).check = h.check := by cases l <;> rfl
@[simp] theorem Hart.setBlock_buf (h : Hart) (l : Level) (b : TrapBlock) : (h.setBlock l b).buf = h.buf := by cases l <;> rfl
@[simp] theorem Hart.setBlock_again (h : Hart) (l : Level) (b : TrapBlock) : (h.setBlock l b).again = h.again := by cases l <;> rfl
@[simp] theorem Hart.setBlock_held (h : Hart) (l : Level) (b : TrapBlock) : (h.setBlock l b).held = h.held := by cases l <;> rfl
@[simp] theorem Hart.setBlock_relAfter (h : Hart) (l : Level) (b : TrapBlock) : (h.setBlock l b).relAfter = h.relAfter := by cases l <;> rfl
@[simp] theorem Hart.setBlock_chosen (h : Hart) (l : Level) (b : TrapBlock) : (h.setBlock l b).chosen = h.chosen := by cases l <;> rfl
@[simp] theorem Hart.setBlock_heldRec (h : Hart) (l : Level) (b : TrapBlock) : (h.setBlock l b).heldRec = h.heldRec := by cases l <;> rfl
@[simp] theorem Hart.setBlock_stopped (h : Hart) (l : Level) (b : TrapBlock) : (h.setBlock l b).stopped = h.stopped := by cases l <;> rfl
@[simp] theorem Hart.setBlock_frozen (h : Hart) (l : Level) (b : TrapBlock) : (h.setBlock l b).frozen = h.frozen := by cases l <;> rfl
@[simp] theorem Hart.setBlock_engErr (h : Hart) (l : Level) (b : TrapBlock) : (h.setBlock l b).engErr = h.engErr := by cases l <;> rfl
@[simp] theorem Hart.setBlock_ticket (h : Hart) (l : Level) (b : TrapBlock) : (h.setBlock l b).ticket = h.ticket := by cases l <;> rfl
@[simp] theorem Hart.setBlock_heldNo (h : Hart) (l : Level) (b : TrapBlock) : (h.setBlock l b).heldNo = h.heldNo := by cases l <;> rfl
@[simp] theorem Hart.setBlock_ready (h : Hart) (l : Level) (b : TrapBlock) : (h.setBlock l b).ready = h.ready := by cases l <;> rfl
@[simp] theorem Hart.setBlock_asks (h : Hart) (l : Level) (b : TrapBlock) : (h.setBlock l b).asks = h.asks := by cases l <;> rfl
@[simp] theorem Hart.setBlock_got (h : Hart) (l : Level) (b : TrapBlock) : (h.setBlock l b).got = h.got := by cases l <;> rfl
@[simp] theorem Hart.setBlock_left (h : Hart) (l : Level) (b : TrapBlock) : (h.setBlock l b).left = h.left := by cases l <;> rfl

/-! ## A cell with one hart changed -/

@[simp] theorem Cell.setHart_no (c : Cell) (k : Slot) (h : Hart) : (c.setHart k h).no = c.no := rfl
@[simp] theorem Cell.setHart_cycle (c : Cell) (k : Slot) (h : Hart) : (c.setHart k h).cycle = c.cycle := rfl
@[simp] theorem Cell.setHart_tick (c : Cell) (k : Slot) (h : Hart) : (c.setHart k h).tick = c.tick := rfl
@[simp] theorem Cell.setHart_acc (c : Cell) (k : Slot) (h : Hart) : (c.setHart k h).acc = c.acc := rfl
@[simp] theorem Cell.setHart_div (c : Cell) (k : Slot) (h : Hart) : (c.setHart k h).div = c.div := rfl
@[simp] theorem Cell.setHart_newDiv (c : Cell) (k : Slot) (h : Hart) : (c.setHart k h).newDiv = c.newDiv := rfl
@[simp] theorem Cell.setHart_m (c : Cell) (k : Slot) (h : Hart) : (c.setHart k h).m = c.m := rfl
@[simp] theorem Cell.setHart_on (c : Cell) (k : Slot) (h : Hart) : (c.setHart k h).on = c.on := rfl
@[simp] theorem Cell.setHart_scap (c : Cell) (k : Slot) (h : Hart) : (c.setHart k h).scap = c.scap := rfl
@[simp] theorem Cell.setHart_prot (c : Cell) (k : Slot) (h : Hart) : (c.setHart k h).prot = c.prot := rfl
@[simp] theorem Cell.setHart_removed (c : Cell) (k : Slot) (h : Hart) : (c.setHart k h).removed = c.removed := rfl
@[simp] theorem Cell.setHart_notice (c : Cell) (k : Slot) (h : Hart) : (c.setHart k h).notice = c.notice := rfl
@[simp] theorem Cell.setHart_vwin (c : Cell) (k : Slot) (h : Hart) : (c.setHart k h).vwin = c.vwin := rfl
@[simp] theorem Cell.setHart_vnew (c : Cell) (k : Slot) (h : Hart) : (c.setHart k h).vnew = c.vnew := rfl
@[simp] theorem Cell.setHart_vold (c : Cell) (k : Slot) (h : Hart) : (c.setHart k h).vold = c.vold := rfl
@[simp] theorem Cell.setHart_serving (c : Cell) (k : Slot) (h : Hart) : (c.setHart k h).serving = c.serving := rfl
@[simp] theorem Cell.setHart_nres (c : Cell) (k : Slot) (h : Hart) : (c.setHart k h).nres = c.nres := rfl
@[simp] theorem Cell.setHart_banks (c : Cell) (k : Slot) (h : Hart) : (c.setHart k h).banks = c.banks := rfl
@[simp] theorem Cell.setHart_high (c : Cell) (k : Slot) (h : Hart) : (c.setHart k h).high = c.high := rfl
@[simp] theorem Cell.setHart_quota (c : Cell) (k : Slot) (h : Hart) : (c.setHart k h).quota = c.quota := rfl
@[simp] theorem Cell.setHart_floor (c : Cell) (k : Slot) (h : Hart) : (c.setHart k h).floor = c.floor := rfl
@[simp] theorem Cell.setHart_loc (c : Cell) (k : Slot) (h : Hart) : (c.setHart k h).loc = c.loc := rfl
@[simp] theorem Cell.setHart_locSb (c : Cell) (k : Slot) (h : Hart) : (c.setHart k h).locSb = c.locSb := rfl
@[simp] theorem Cell.setHart_locBad (c : Cell) (k : Slot) (h : Hart) : (c.setHart k h).locBad = c.locBad := rfl
@[simp] theorem Cell.setHart_mat (c : Cell) (k : Slot) (h : Hart) : (c.setHart k h).mat = c.mat := rfl
@[simp] theorem Cell.setHart_matSb (c : Cell) (k : Slot) (h : Hart) : (c.setHart k h).matSb = c.matSb := rfl
@[simp] theorem Cell.setHart_aplane (c : Cell) (k : Slot) (h : Hart) : (c.setHart k h).aplane = c.aplane := rfl
@[simp] theorem Cell.setHart_fmtWord (c : Cell) (k : Slot) (h : Hart) : (c.setHart k h).fmtWord = c.fmtWord := rfl
@[simp] theorem Cell.setHart_mq (c : Cell) (k : Slot) (h : Hart) : (c.setHart k h).mq = c.mq := rfl
@[simp] theorem Cell.setHart_mwait (c : Cell) (k : Slot) (h : Hart) : (c.setHart k h).mwait = c.mwait := rfl
@[simp] theorem Cell.setHart_mresv (c : Cell) (k : Slot) (h : Hart) : (c.setHart k h).mresv = c.mresv := rfl
@[simp] theorem Cell.setHart_mclosed (c : Cell) (k : Slot) (h : Hart) : (c.setHart k h).mclosed = c.mclosed := rfl
@[simp] theorem Cell.setHart_mfree (c : Cell) (k : Slot) (h : Hart) : (c.setHart k h).mfree = c.mfree := rfl
@[simp] theorem Cell.setHart_narrow (c : Cell) (k : Slot) (h : Hart) : (c.setHart k h).narrow = c.narrow := rfl
@[simp] theorem Cell.setHart_cq (c : Cell) (k : Slot) (h : Hart) : (c.setHart k h).cq = c.cq := rfl
@[simp] theorem Cell.setHart_cwait (c : Cell) (k : Slot) (h : Hart) : (c.setHart k h).cwait = c.cwait := rfl
@[simp] theorem Cell.setHart_cresv (c : Cell) (k : Slot) (h : Hart) : (c.setHart k h).cresv = c.cresv := rfl
@[simp] theorem Cell.setHart_cclosed (c : Cell) (k : Slot) (h : Hart) : (c.setHart k h).cclosed = c.cclosed := rfl
@[simp] theorem Cell.setHart_credits (c : Cell) (k : Slot) (h : Hart) : (c.setHart k h).credits = c.credits := rfl
@[simp] theorem Cell.setHart_pushes (c : Cell) (k : Slot) (h : Hart) : (c.setHart k h).pushes = c.pushes := rfl
@[simp] theorem Cell.setHart_cache (c : Cell) (k : Slot) (h : Hart) : (c.setHart k h).cache = c.cache := rfl
@[simp] theorem Cell.setHart_code (c : Cell) (k : Slot) (h : Hart) : (c.setHart k h).code = c.code := rfl
@[simp] theorem Cell.setHart_rediv (c : Cell) (k : Slot) (h : Hart) : (c.setHart k h).rediv = c.rediv := rfl
@[simp] theorem Cell.setHart_redivQ (c : Cell) (k : Slot) (h : Hart) : (c.setHart k h).redivQ = c.redivQ := rfl
@[simp] theorem Cell.setHart_poolNo (c : Cell) (k : Slot) (h : Hart) : (c.setHart k h).poolNo = c.poolNo := rfl
@[simp] theorem Cell.setHart_cfree (c : Cell) (k : Slot) (h : Hart) : (c.setHart k h).cfree = c.cfree := rfl
@[simp] theorem Cell.setHart_tbars (c : Cell) (k : Slot) (h : Hart) : (c.setHart k h).tbars = c.tbars := rfl
@[simp] theorem Cell.setHart_tbarDone (c : Cell) (k : Slot) (h : Hart) : (c.setHart k h).tbarDone = c.tbarDone := rfl
@[simp] theorem Cell.setHart_background (c : Cell) (k : Slot) (h : Hart) : (c.setHart k h).background = c.background := rfl

/-! ## The module with its issuing hart changed -/

@[simp] theorem State.setHart_agenda (s : State) (h : Hart) : (s.setHart h).agenda = s.agenda := by unfold State.setHart; split <;> rfl
@[simp] theorem State.setHart_cur (s : State) (h : Hart) : (s.setHart h).cur = s.cur := by unfold State.setHart; split <;> rfl
@[simp] theorem State.setHart_others (s : State) (h : Hart) : (s.setHart h).others = s.others := by unfold State.setHart; split <;> rfl
@[simp] theorem State.setHart_mem (s : State) (h : Hart) : (s.setHart h).mem = s.mem := by unfold State.setHart; split <;> rfl
@[simp] theorem State.setHart_coh (s : State) (h : Hart) : (s.setHart h).coh = s.coh := by unfold State.setHart; split <;> rfl
@[simp] theorem State.setHart_places (s : State) (h : Hart) : (s.setHart h).places = s.places := by unfold State.setHart; split <;> rfl
@[simp] theorem State.setHart_launches (s : State) (h : Hart) : (s.setHart h).launches = s.launches := by unfold State.setHart; split <;> rfl
@[simp] theorem State.setHart_lastServed (s : State) (h : Hart) : (s.setHart h).lastServed = s.lastServed := by unfold State.setHart; split <;> rfl
@[simp] theorem State.setHart_fields (s : State) (h : Hart) : (s.setHart h).fields = s.fields := by unfold State.setHart; split <;> rfl
@[simp] theorem State.setHart_net (s : State) (h : Hart) : (s.setHart h).net = s.net := by unfold State.setHart; split <;> rfl
@[simp] theorem State.setHart_rails (s : State) (h : Hart) : (s.setHart h).rails = s.rails := by unfold State.setHart; split <;> rfl
@[simp] theorem State.setHart_dies (s : State) (h : Hart) : (s.setHart h).dies = s.dies := by unfold State.setHart; split <;> rfl
@[simp] theorem State.setHart_links (s : State) (h : Hart) : (s.setHart h).links = s.links := by unfold State.setHart; split <;> rfl
@[simp] theorem State.setHart_qps (s : State) (h : Hart) : (s.setHart h).qps = s.qps := by unfold State.setHart; split <;> rfl
@[simp] theorem State.setHart_tail (s : State) (h : Hart) : (s.setHart h).tail = s.tail := by unfold State.setHart; split <;> rfl
@[simp] theorem State.setHart_head (s : State) (h : Hart) : (s.setHart h).head = s.head := by unfold State.setHart; split <;> rfl
@[simp] theorem State.setHart_rt (s : State) (h : Hart) : (s.setHart h).rt = s.rt := by unfold State.setHart; split <;> rfl
@[simp] theorem State.setHart_tbase (s : State) (h : Hart) : (s.setHart h).tbase = s.tbase := by unfold State.setHart; split <;> rfl
@[simp] theorem State.setHart_coreAt (s : State) (h : Hart) : (s.setHart h).coreAt = s.coreAt := by unfold State.setHart; split <;> rfl
@[simp] theorem State.setHart_free (s : State) (h : Hart) : (s.setHart h).free = s.free := by unfold State.setHart; split <;> rfl
@[simp] theorem State.setHart_cmdNo (s : State) (h : Hart) : (s.setHart h).cmdNo = s.cmdNo := by unfold State.setHart; split <;> rfl

/-! ## The module with its focused cell changed, or another one -/

@[simp] theorem State.setCell_agenda (s : State) (c : Cell) : State.agenda { s with cell := c } = s.agenda := rfl
@[simp] theorem State.putCell_agenda (s : State) (c : Cell) : (s.putCell c).agenda = s.agenda := by unfold State.putCell; split <;> rfl
@[simp] theorem State.setCell_cur (s : State) (c : Cell) : State.cur { s with cell := c } = s.cur := rfl
@[simp] theorem State.putCell_cur (s : State) (c : Cell) : (s.putCell c).cur = s.cur := by unfold State.putCell; split <;> rfl
@[simp] theorem State.setCell_others (s : State) (c : Cell) : State.others { s with cell := c } = s.others := rfl
@[simp] theorem State.setCell_cores (s : State) (c : Cell) : State.cores { s with cell := c } = s.cores := rfl
@[simp] theorem State.putCell_cores (s : State) (c : Cell) : (s.putCell c).cores = s.cores := by unfold State.putCell; split <;> rfl
@[simp] theorem State.setCell_mem (s : State) (c : Cell) : State.mem { s with cell := c } = s.mem := rfl
@[simp] theorem State.putCell_mem (s : State) (c : Cell) : (s.putCell c).mem = s.mem := by unfold State.putCell; split <;> rfl
@[simp] theorem State.setCell_coh (s : State) (c : Cell) : State.coh { s with cell := c } = s.coh := rfl
@[simp] theorem State.putCell_coh (s : State) (c : Cell) : (s.putCell c).coh = s.coh := by unfold State.putCell; split <;> rfl
@[simp] theorem State.setCell_places (s : State) (c : Cell) : State.places { s with cell := c } = s.places := rfl
@[simp] theorem State.putCell_places (s : State) (c : Cell) : (s.putCell c).places = s.places := by unfold State.putCell; split <;> rfl
@[simp] theorem State.setCell_launches (s : State) (c : Cell) : State.launches { s with cell := c } = s.launches := rfl
@[simp] theorem State.putCell_launches (s : State) (c : Cell) : (s.putCell c).launches = s.launches := by unfold State.putCell; split <;> rfl
@[simp] theorem State.setCell_lastServed (s : State) (c : Cell) : State.lastServed { s with cell := c } = s.lastServed := rfl
@[simp] theorem State.putCell_lastServed (s : State) (c : Cell) : (s.putCell c).lastServed = s.lastServed := by unfold State.putCell; split <;> rfl
@[simp] theorem State.setCell_fields (s : State) (c : Cell) : State.fields { s with cell := c } = s.fields := rfl
@[simp] theorem State.putCell_fields (s : State) (c : Cell) : (s.putCell c).fields = s.fields := by unfold State.putCell; split <;> rfl
@[simp] theorem State.setCell_net (s : State) (c : Cell) : State.net { s with cell := c } = s.net := rfl
@[simp] theorem State.putCell_net (s : State) (c : Cell) : (s.putCell c).net = s.net := by unfold State.putCell; split <;> rfl
@[simp] theorem State.setCell_rails (s : State) (c : Cell) : State.rails { s with cell := c } = s.rails := rfl
@[simp] theorem State.putCell_rails (s : State) (c : Cell) : (s.putCell c).rails = s.rails := by unfold State.putCell; split <;> rfl
@[simp] theorem State.setCell_dies (s : State) (c : Cell) : State.dies { s with cell := c } = s.dies := rfl
@[simp] theorem State.putCell_dies (s : State) (c : Cell) : (s.putCell c).dies = s.dies := by unfold State.putCell; split <;> rfl
@[simp] theorem State.setCell_links (s : State) (c : Cell) : State.links { s with cell := c } = s.links := rfl
@[simp] theorem State.putCell_links (s : State) (c : Cell) : (s.putCell c).links = s.links := by unfold State.putCell; split <;> rfl
@[simp] theorem State.setCell_qps (s : State) (c : Cell) : State.qps { s with cell := c } = s.qps := rfl
@[simp] theorem State.putCell_qps (s : State) (c : Cell) : (s.putCell c).qps = s.qps := by unfold State.putCell; split <;> rfl
@[simp] theorem State.setCell_tail (s : State) (c : Cell) : State.tail { s with cell := c } = s.tail := rfl
@[simp] theorem State.putCell_tail (s : State) (c : Cell) : (s.putCell c).tail = s.tail := by unfold State.putCell; split <;> rfl
@[simp] theorem State.setCell_head (s : State) (c : Cell) : State.head { s with cell := c } = s.head := rfl
@[simp] theorem State.putCell_head (s : State) (c : Cell) : (s.putCell c).head = s.head := by unfold State.putCell; split <;> rfl
@[simp] theorem State.setCell_rt (s : State) (c : Cell) : State.rt { s with cell := c } = s.rt := rfl
@[simp] theorem State.putCell_rt (s : State) (c : Cell) : (s.putCell c).rt = s.rt := by unfold State.putCell; split <;> rfl
@[simp] theorem State.setCell_tbase (s : State) (c : Cell) : State.tbase { s with cell := c } = s.tbase := rfl
@[simp] theorem State.putCell_tbase (s : State) (c : Cell) : (s.putCell c).tbase = s.tbase := by unfold State.putCell; split <;> rfl
@[simp] theorem State.setCell_coreAt (s : State) (c : Cell) : State.coreAt { s with cell := c } = s.coreAt := rfl
@[simp] theorem State.putCell_coreAt (s : State) (c : Cell) : (s.putCell c).coreAt = s.coreAt := by unfold State.putCell; split <;> rfl
@[simp] theorem State.setCell_free (s : State) (c : Cell) : State.free { s with cell := c } = s.free := rfl
@[simp] theorem State.putCell_free (s : State) (c : Cell) : (s.putCell c).free = s.free := by unfold State.putCell; split <;> rfl
@[simp] theorem State.setCell_cmdNo (s : State) (c : Cell) : State.cmdNo { s with cell := c } = s.cmdNo := rfl
@[simp] theorem State.putCell_cmdNo (s : State) (c : Cell) : (s.putCell c).cmdNo = s.cmdNo := by unfold State.putCell; split <;> rfl

/-! ## Harts read back -/

@[simp] theorem Cell.hart_setHart (c : Cell) (k : Slot) (h : Hart) : (c.setHart k h).hart k = h := by
  simp [Cell.hart, Cell.setHart]

theorem Cell.hart_setHart_ne (c : Cell) {j k : Slot} (h : Hart) (n : j ≠ k) : (c.setHart k h).hart j = c.hart j := by
  have : k.val ≠ j.val := fun e => n (Fin.ext e.symm)
  simp [Cell.hart, Cell.setHart, Vector.getElem_set_ne, this]

@[simp] theorem Cell.setHart_setHart (c : Cell) (k : Slot) (h g : Hart) : (c.setHart k h).setHart k g = c.setHart k g := by
  simp [Cell.setHart]

@[simp] theorem Cell.slot_setHart (c : Cell) (k : Slot) (h : Hart) : (c.setHart k h).slot = c.slot := rfl

@[simp] theorem State.hart_setHart (s : State) (h : Hart) : (s.setHart h).hart = h := by
  cases hc : s.cur <;> simp [State.setHart, State.hart, hc, assocGet_assocSet, Cell.hart, Cell.setHart, Cell.slot]

theorem assocSet_assocSet {α : Type} (k : Nat) (v w : α) (l : List (Nat × α)) : assocSet k w (assocSet k v l) = assocSet k w l := by
  induction l with
  | nil => simp [assocSet]
  | cons c r ih =>
    obtain ⟨j, x⟩ := c
    simp only [assocSet]
    split
    · simp [assocSet]
    · split
      · simp [assocSet]
      · rename_i h1 h2; simp [assocSet, h1, h2, ih]

@[simp] theorem State.setHart_setHart (s : State) (h g : Hart) : (s.setHart h).setHart g = s.setHart g := by
  cases hc : s.cur <;> simp [State.setHart, hc, assocSet_assocSet, Cell.setHart, Cell.slot]

@[simp] theorem State.isCore_setHart (s : State) (h : Hart) : (s.setHart h).isCore = s.isCore := by
  simp [State.isCore]

@[simp] theorem State.mapHart_eq (s : State) (f : Hart → Hart) : s.mapHart f = s.setHart (f s.hart) := rfl

@[simp] theorem State.setHart_cell_loc (s : State) (h : Hart) : (s.setHart h).cell.loc = s.cell.loc := by
  unfold State.setHart; split <;> rfl

@[simp] theorem State.setHart_cell_locSb (s : State) (h : Hart) : (s.setHart h).cell.locSb = s.cell.locSb := by
  unfold State.setHart; split <;> rfl

@[simp] theorem State.setHart_cell_mat (s : State) (h : Hart) : (s.setHart h).cell.mat = s.cell.mat := by
  unfold State.setHart; split <;> rfl

@[simp] theorem State.setHart_cell_cache (s : State) (h : Hart) : (s.setHart h).cell.cache = s.cell.cache := by
  unfold State.setHart; split <;> rfl

end Sys2Proof.Machine
end

