-- ==== Sys2Proof/Laws/Effects.lean ====
section
/-! SUPPORT. What each shared operation can do, said once: register slots read back, completion, the checks of R136, traps. -/

namespace Sys2Proof.Machine

/-! ## Slots of the window -/

theorem ofNat_leNat_leBytes_8 (x : Word) : BitVec.ofNat 64 (leNat (leBytes 8 x.toNat)) = x := by
  rw [leNat_leBytes]
  apply BitVec.eq_of_toNat_eq
  have := x.isLt
  rw [BitVec.toNat_ofNat]
  omega

theorem ofNat_leNat_leBytes_64 (x : BitVec 512) : BitVec.ofNat 512 (leNat (leBytes 64 x.toNat)) = x := by
  rw [leNat_leBytes]
  apply BitVec.eq_of_toNat_eq
  have := x.isLt
  rw [BitVec.toNat_ofNat, show (256 : Nat) ^ 64 = 2 ^ 512 by rw [show (256 : Nat) = 2 ^ 8 by rfl, ← Nat.pow_mul]]
  rw [Nat.mod_mod, Nat.mod_eq_of_lt this]

@[simp] theorem Hart.S_zero (h : Hart) : h.S 0#8 = 0#64 := rfl

@[simp] theorem Hart.setS_zero (h : Hart) (x : Word) : h.setS 0#8 x = h := rfl

/-- A scalar slot written reads back. -/
@[simp] theorem Hart.S_setS_self (h : Hart) (d : Reg) (x : Word) : (h.setS d x).S d = if d = 0 then 0 else x := by
  by_cases hd : d = 0
  · simp [hd]
  · simp only [Hart.S, if_neg hd, Hart.sRaw, Hart.sAddr, Hart.sbase, Hart.setS_views]
    simp only [Hart.setS, if_neg hd, Hart.sAddr, Hart.sbase]
    have := Mem.read_write_self (leBytes 8 x.toNat) h.win (fieldOf h.views 0 8 * 32 + 8 * d.toNat)
    rw [length_leBytes] at this
    rw [this, ofNat_leNat_leBytes_8]

theorem Hart.win_setS (h : Hart) (d : Reg) (x : Word) (a : Nat) (o : a < h.sAddr d.toNat ∨ h.sAddr d.toNat + 8 ≤ a) :
    (h.setS d x).win.byte a = h.win.byte a := by
  unfold Hart.setS
  split
  · rfl
  · exact Mem.byte_write_other _ _ _ _ (by simpa using o)

/-- A vector slot written reads back. -/
@[simp] theorem Hart.V_setV_self (h : Hart) (d : Reg) (x : BitVec 512) : (h.setV d x).V d = x := by
  simp only [Hart.V, Hart.setV, Hart.vAddr, Hart.vbase]
  have := Mem.read_write_self (leBytes 64 x.toNat) h.win (fieldOf h.views 16 8 * 32 + 64 * d.toNat)
  rw [length_leBytes] at this
  rw [this, ofNat_leNat_leBytes_64]

theorem Hart.win_setV (h : Hart) (d : Reg) (x : BitVec 512) (a : Nat) (o : a < h.vAddr d.toNat ∨ h.vAddr d.toNat + 64 ≤ a) :
    (h.setV d x).win.byte a = h.win.byte a :=
  Mem.byte_write_other _ _ _ _ (by simpa using o)

@[simp] theorem Hart.V_setSb (h : Hart) (d i : Reg) (g : Nat) (y : Byte) : (h.setSb i g y).V d = h.V d := rfl

@[simp] theorem Hart.sb_setV (h : Hart) (d i : Reg) (g : Nat) (x : BitVec 512) : (h.setV i x).sb d g = h.sb d g := rfl

theorem Hart.sb_setSb (h : Hart) (d i : Reg) (f g : Nat) (y : Byte) :
    (h.setSb i g y).sb d f = if h.sbAddr d.toNat f = h.sbAddr i.toNat g then y else h.sb d f := by
  simp only [Hart.sb, Hart.setSb, Hart.sbAddr, Hart.vbase, Mem.byte_put] <;> rfl

/-! ## Completion (R17, R170) -/

/-- A completion that starts from the same pc and the same loop registers ends alike. -/
theorem WentOn.of_same {h k : Hart} (e : (k.npc, k.lcnt, k.lsta, k.lend, k.level, k.pcnt, k.psta, k.pend) =
    (h.npc, h.lcnt, h.lsta, h.lend, h.level, h.pcnt, h.psta, h.pend)) : WentOn h k.complete := by
  simp only [Prod.mk.injEq] at e
  obtain ⟨e1, e2, e3, e4, e5, e6, e7, e8⟩ := e
  refine ⟨Hart.complete_st k, ?_⟩
  simp only [Hart.complete, Hart.atLoop, e1, e2, e3, e4, e5, e6, e7, e8]
  (repeat' split) <;> exact ⟨rfl, by simp_all, by simp_all, by simp_all⟩

theorem State.finish_eq (s : State) : s.finish = .next (s.setHart s.hart.complete) := rfl

theorem State.done_eq (s : State) (f : Hart → Hart) : s.done f = .next (s.setHart (f s.hart).complete) := by
  simp [State.done, State.finish]

theorem State.writeS_eq (s : State) (d : Reg) (v : Word) : s.writeS d v = .next (s.setHart (s.hart.setS d v).complete) :=
  s.done_eq _

/-- What a scalar result does: it is all that `writeS` does. -/
theorem ScalarResult.of_writeS {s : State} {i : Instr} {d : Reg} {v : Word} (h : exec i s = s.writeS d v) : ScalarResult s i d v := by
  refine ⟨_, h.trans (s.writeS_eq d v), ?_⟩
  refine ⟨by simp [OnlyHart], ?_, by simp [SpecialsKept, BlocksKept], by simp [FlagsKept], ?_⟩
  · rw [State.hart_setHart]; exact WentOn.of_same (by simp)
  · rw [State.hart_setHart]
    refine ⟨?_, by simp⟩
    split
    · subst_vars; simp
    · rename_i hd
      refine ⟨?_, fun x hx => by simpa using Hart.win_setS s.hart d v x hx⟩
      have := Hart.S_setS_self s.hart d v
      rw [if_neg hd] at this
      simpa only [Hart.S, if_neg hd, Hart.sRaw, Hart.sAddr, Hart.sbase, Hart.complete_win, Hart.complete_views] using this

/-! ## The checks of R136 -/

theorem State.withRegs_inView {s : State} {ss vs : List Reg} {k : Out} (h : InView s ss vs) : s.withRegs ss vs k = k := by
  simp [State.withRegs, h.1, h.2]

theorem State.withRegs_outside {s : State} {ss vs : List Reg} {k : Out} (h : ¬ InView s ss vs) :
    s.withRegs ss vs k = s.trap .illegalReg s.firstWord := by
  simp only [InView] at h
  simp only [State.withRegs, Bool.and_eq_true, if_neg h]

theorem State.cellOnly_cell {s : State} {k : Out} (h : s.isCore = false) : s.cellOnly k = k := by simp [State.cellOnly, h]

theorem State.withLevel_ok {s : State} {l : Level} {k : Out} (h : l.code ≤ s.hart.level.code) : s.withLevel l k = k := by
  simp [State.withLevel, h]

/-! ## The shared operations go on -/

theorem goes_next (t : State) : Goes (.next t) := ⟨t, rfl⟩

theorem State.finish_goes (s : State) : Goes s.finish := goes_next _

theorem State.done_goes (s : State) (f : Hart → Hart) : Goes (s.done f) := goes_next _

theorem State.writeS_goes (s : State) (d : Reg) (v : Word) : Goes (s.writeS d v) := goes_next _

theorem State.reissue_goes (s : State) : Goes s.reissue := goes_next _

theorem State.trap_goes (s : State) (c : Cause) (v : Word) : Goes (s.trap c v) := goes_next _

theorem State.waitOn_goes (s : State) (c : WaitCause) (i : Instr) : Goes (s.waitOn c i) := goes_next _

/-- The check of the indices goes on where what it guards does. -/
theorem State.withRegs_goes {s : State} {ss vs : List Reg} {k : Out} (h : Goes k) : Goes (s.withRegs ss vs k) := by
  unfold State.withRegs
  split
  exacts [h, s.trap_goes _ _]

theorem State.withLevel_goes {s : State} {l : Level} {k : Out} (h : Goes k) : Goes (s.withLevel l k) := by
  unfold State.withLevel
  split
  exacts [h, s.trap_goes _ _]

theorem State.cellOnly_goes {s : State} {k : Out} (h : Goes k) : Goes (s.cellOnly k) := by
  unfold State.cellOnly
  split
  exacts [s.trap_goes _ _, h]

theorem State.notReplay_goes {s : State} {k : Out} (h : Goes k) : Goes (s.notReplay k) := by
  unfold State.notReplay
  repeat' split
  exacts [goes_next _, h, h]

end Sys2Proof.Machine
end

