-- ==== Sys2Proof/Machine/Redfish.lean ====
section
/-! DEFINITION. What the Tailstock's Redfish resources read (R393, R409, R410, R413, R415, R422). -/

namespace Sys2Proof.Machine

/-! ## Chassis -/

/-- The part number of a module (R422). -/
def partNumber : String := "SRL-V54-M1"

/-- `PowerLimitWatts` and `PowerWatts` (R410, R422). -/
def State.powerLimitWatts (s : State) : Nat := 10 * s.tail.pcap

def State.powerWatts (s : State) : Nat := 10 * s.tail.pnow

/-- A rail of a powered die is still changing. -/
def State.switching (s : State) : Bool :=
  (s.dies.any fun x => x.tier && x.rails.busy) || s.rails.any fun x => x.busy && (s.dieAt x.die).tier

/-- `OperatingPoint` (R409): none while it reads `Switching`, else the point asked for last. -/
def State.operatingPoint (s : State) : Option (Nat × Nat) := if s.switching then none else some s.point

/-! ## Processors -/

/-- The resource of a die (R415, R422). -/
structure Processor where
  die         : Nat
  tier        : Bool
  tnow        : Int
  failed      : List Nat
  incarnation : Nat
  /-- `Status.Health` is Critical. -/
  critical    : Bool
  deriving DecidableEq, Repr

def State.processor (s : State) (d : Nat) : Processor :=
  let x := s.dieAt d
  { die := d, tier := x.tier, tnow := x.tnow, failed := (List.range 64).filter x.failedSensor, incarnation := s.inc d, critical := x.blind }

/-! ## Logs and attestation -/

/-- `LogServices/Event`: counts of corrected and uncorrectable errors of a die, and the events. -/
def State.errorCounts (s : State) (d : Nat) : Nat × Nat :=
  ((assocGet d s.tail.corrected).getD 0, (assocGet d s.tail.uncorrected).getD 0)

/-- `ComponentIntegrity`: the quote signed last, with the measurement log (R393, R422). -/
def State.integrity (s : State) : Option (List Byte) × List LogEntry := (s.tail.quote, s.tail.log)

end Sys2Proof.Machine
end

