-- ==== Sys2Proof/Tests/Slice0.lean ====
section
/-! SUPPORT. Tests: words written out from the encoding tables, ill-formed terms, one step at a time, and a witness for the hypotheses of every statement. -/

open Sys2Proof Sys2Proof.Machine

namespace Sys2Proof.Tests

/-! ## Words -/

/-- Every word sequence decodes to the instruction beside it, which is well-formed and encodes to the same words. The fields stand in the
order of R119 from bit 31 down: minor, b, a, d, major, L; of word 2 in that of R120: reserved, wait, sat, rm, fmt, scope, bh, ah, dh, c. -/
abbrev Says (l : List (List IWord × Instr)) : Prop := ∀ p ∈ l, decode p.1 = .ok p.2 ∧ encode p.2 = p.1 ∧ p.2.WellFormed

set_option maxRecDepth 100000
set_option exponentiation.threshold 600

/-- R133, major 0x01. -/
theorem test_words_alu : Says [
    ([0b000000_000011_000010_000001_000001_00], .add 1 2 3),
    ([0b000001_000011_000010_000001_000001_00], .sub 1 2 3),
    ([0b000010_000011_000010_000001_000001_00], .mul 1 2 3),
    ([0b000011_000011_000010_000001_000001_00], .mulh 1 2 3),
    ([0b000100_000011_000010_000001_000001_00], .mulhn 1 2 3),
    ([0b000101_000011_000010_000001_000001_00], .div 1 2 3),
    ([0b000110_000011_000010_000001_000001_00], .divn 1 2 3),
    ([0b000111_000011_000010_000001_000001_00], .rem 1 2 3),
    ([0b001000_000011_000010_000001_000001_00], .remn 1 2 3),
    ([0b001001_000011_000010_000001_000001_00], .and 1 2 3),
    ([0b001010_000011_000010_000001_000001_00], .or 1 2 3),
    ([0b001011_000011_000010_000001_000001_00], .xor 1 2 3),
    ([0b001100_000011_000010_000001_000001_00], .andn 1 2 3),
    ([0b001101_000011_000010_000001_000001_00], .orn 1 2 3),
    ([0b001110_000011_000010_000001_000001_00], .shl 1 2 3),
    ([0b001111_000011_000010_000001_000001_00], .shr 1 2 3),
    ([0b010000_000011_000010_000001_000001_00], .sra 1 2 3),
    ([0b010001_000011_000010_000001_000001_00], .rol 1 2 3),
    ([0b010010_000011_000010_000001_000001_00], .ror 1 2 3),
    ([0b010011_000011_000010_000001_000001_00], .min 1 2 3),
    ([0b010100_000011_000010_000001_000001_00], .max 1 2 3),
    ([0b010101_000011_000010_000001_000001_00], .minn 1 2 3),
    ([0b010110_000011_000010_000001_000001_00], .maxn 1 2 3),
    ([0b010111_000011_000010_000001_000001_00], .ceq 1 2 3),
    ([0b011000_000011_000010_000001_000001_00], .cne 1 2 3),
    ([0b011001_000011_000010_000001_000001_00], .clt 1 2 3),
    ([0b011010_000011_000010_000001_000001_00], .cle 1 2 3),
    ([0b011011_000011_000010_000001_000001_00], .cltn 1 2 3),
    ([0b011100_000011_000010_000001_000001_00], .clen 1 2 3),
    ([0b000001_000011_000010_000001_000001_01, 0b0000_00_0_000_000000_00_11_10_01_00000000, 0], .sub 65 130 195)] := by decide

/-- R132, majors 0x02 to 0x0A. -/
theorem test_words_integer : Says [
    ([0b111101_000000_000010_000001_000010_00], .addi 1 2 (-3)),
    ([0b000000_000000_000010_000001_000010_01, 0b0000_00_0_000_000000_00_00_00_01_00000000, 0xfffffffe], .addi 65 2 (-2)),
    ([0b000000_000000_000010_000001_000010_10, 0x9abcdef0, 0x12345678], .addi 1 2 0x123456789ABCDEF0),
    ([0b111111_111110_000000_000001_000011_00], .li 1 (-2)),
    ([0b011111_000001_000000_000001_000011_00], .li 1 0x7C1),
    ([0b000000_000000_000000_000001_000011_10, 0x9abcdef0, 0x12345678], .li 1 0x123456789ABCDEF0),
    ([0b000000_000000_000010_000001_000100_00], .abs 1 2),
    ([0b000001_000000_000010_000001_000100_00], .clz 1 2),
    ([0b000010_000000_000010_000001_000100_00], .ctz 1 2),
    ([0b000011_000000_000010_000001_000100_00], .popc 1 2),
    ([0b000001_000000_000010_000001_000101_00], .sext .w16 1 2),
    ([0b000110_000000_000010_000001_000101_00], .zext .w32 1 2),
    ([0b001001_000111_000010_000001_000110_00], .bext 1 2 7 9),
    ([0b001001_000111_000010_000001_000111_00], .bins 1 2 7 9),
    ([0b000000_000011_000010_000001_001000_01, 0b0000_00_0_000_000000_00_00_00_00_11001000, 0], .sel 1 2 3 200),
    ([0b000000_000101_000010_000001_001001_00], .lea 1 ⟨2, none, 5⟩),
    ([0b110000_000011_000010_000001_001001_00], .lea 1 ⟨2, some (3, 2), 0⟩),
    ([0b101101_000000_000010_000001_001010_00], .shlImm 1 2 45),
    ([0b101101_000001_000010_000001_001010_00], .shrImm 1 2 45),
    ([0b101101_000010_000010_000001_001010_00], .sraImm 1 2 45),
    ([0b101101_000011_000010_000001_001010_00], .rolImm 1 2 45),
    ([0b101101_000100_000010_000001_001010_00], .rorImm 1 2 45),
    ([0b000000_000010_000010_000001_001010_01, 0b0000_00_0_000_000000_00_00_00_01_00000000, 0x3f], .sraImm 65 2 63)] := by decide

/-- R132, major 0x0E. -/
theorem test_words_full_empty : Says [
    ([0b000000_000011_000010_000001_001110_00], .ldfeK false 1 2 24),
    ([0b000001_000011_000010_000001_001110_00], .ldfeE false 1 2 24),
    ([0b000010_000011_000010_000001_001110_00], .stfe false 1 2 24),
    ([0b000011_000000_000010_000001_001110_00], .stfer false 1 2),
    ([0b000100_000011_000010_000000_001110_00], .feset 2 24),
    ([0b000101_000011_000010_000000_001110_00], .feclr 2 24),
    ([0b000000_000000_000010_000001_001110_01, 0b0000_01_0_000_000000_00_00_00_00_00000000, 0x108], .ldfeK true 1 2 264)] := by decide

/-- R128, R132, majors 0x0F to 0x17. -/
theorem test_words_control : Says [
    ([0b111111_000000_000010_111110_001111_00], .loop 2 (-8)),
    ([0b000001_000011_000010_000001_010000_00], .beq 2 3 (4 * 65)),
    ([0b000001_000011_000010_000001_010001_00], .bne 2 3 (4 * 65)),
    ([0b000001_000011_000010_000001_010010_00], .blt 2 3 (4 * 65)),
    ([0b000001_000011_000010_000001_010011_00], .bge 2 3 (4 * 65)),
    ([0b000001_000011_000010_000001_010100_00], .bltn 2 3 (4 * 65)),
    ([0b000001_000011_000010_000001_010101_00], .bgen 2 3 (4 * 65)),
    ([0b000000_000011_000010_000000_010001_01, 0b0000_00_0_000_000000_00_00_01_00_00000000, 0xfffffff8], .bne 66 3 (-8)),
    ([0b111111_111111_111111_000001_010110_00], .call 1 (-4)),
    ([0b000100_000011_000010_000000_010110_00], .call 0 (4 * (2 + 64 * 3 + 4096 * 4))),
    ([0b000000_000000_000010_000001_010111_00], .calli 1 2)] := by decide

/-- R127, R132, R133, majors 0x18 to 0x1C. -/
theorem test_words_memory : Says [
    ([0b000000_000011_000010_000001_011000_00], .ld .i8 1 ⟨2, none, 3⟩),
    ([0b000101_000011_000010_000001_011000_00], .ld .n32 1 ⟨2, none, 12⟩),
    ([0b000110_000011_000010_000001_011000_00], .ld .x64 1 ⟨2, none, 24⟩),
    ([0b101010_000011_000010_000001_011000_00], .ld .i16 1 ⟨2, some (3, 1), 0⟩),
    ([0b000000_000011_000010_000001_011001_00], .st .i8 1 ⟨2, none, 3⟩),
    ([0b000101_000011_000010_000001_011001_00], .st .n32 1 ⟨2, none, 12⟩),
    ([0b000110_000011_000010_000001_011001_00], .st .x64 1 ⟨2, none, 24⟩),
    ([0b101010_000011_000010_000001_011001_00], .st .i16 1 ⟨2, some (3, 1), 0⟩),
    ([0b000000_000011_000010_000001_011010_00], .ldl .i8 1 ⟨2, none, 3⟩),
    ([0b000101_000011_000010_000001_011010_00], .ldl .n32 1 ⟨2, none, 12⟩),
    ([0b000110_000011_000010_000001_011010_00], .ldl .x64 1 ⟨2, none, 24⟩),
    ([0b101010_000011_000010_000001_011010_00], .ldl .i16 1 ⟨2, some (3, 1), 0⟩),
    ([0b000000_000011_000010_000001_011011_00], .stl .i8 1 ⟨2, none, 3⟩),
    ([0b000101_000011_000010_000001_011011_00], .stl .n32 1 ⟨2, none, 12⟩),
    ([0b000110_000011_000010_000001_011011_00], .stl .x64 1 ⟨2, none, 24⟩),
    ([0b101010_000011_000010_000001_011011_00], .stl .i16 1 ⟨2, some (3, 1), 0⟩),
    ([0b111110_000011_000010_000001_011000_01, 0b0000_00_0_000_000000_00_00_00_00_00000000, 0xfffffff0], .ld .x64 1 ⟨2, some (3, 3), -16⟩),
    ([0b000000_000011_000010_000001_011100_00], .ldv 1 2 192),
    ([0b000001_000011_000010_000001_011100_00], .stv 1 2 192),
    ([0b000010_000011_000010_000001_011100_00], .ldvl 1 2 192),
    ([0b000011_000011_000010_000001_011100_00], .stvl 1 2 192),
    ([0b010100_000011_000010_000001_011100_00], .ldvs .w32 1 2 3),
    ([0b010101_000011_000010_000001_011100_00], .vgat .w32 1 2 3),
    ([0b010110_000011_000010_000001_011100_00], .vsca .w32 1 2 3),
    ([0b000111_000011_000010_000000_011100_00], .pf 2 384)] := by decide

/-- R132, R133, R195, R197, majors 0x1D to 0x1F. -/
theorem test_words_atomic : Says [
    ([0b100000_000011_000010_000001_011101_00], .amoAdd .module 1 2 3),
    ([0b100001_000011_000010_000001_011101_00], .amoAnd .module 1 2 3),
    ([0b100010_000011_000010_000001_011101_00], .amoOr .module 1 2 3),
    ([0b100011_000011_000010_000001_011101_00], .amoXor .module 1 2 3),
    ([0b100100_000011_000010_000001_011101_00], .amoMin .module 1 2 3),
    ([0b100101_000011_000010_000001_011101_00], .amoMax .module 1 2 3),
    ([0b100110_000011_000010_000001_011101_00], .amoMinn .module 1 2 3),
    ([0b100111_000011_000010_000001_011101_00], .amoMaxn .module 1 2 3),
    ([0b101000_000011_000010_000001_011101_00], .amoSwp .module 1 2 3),
    ([0b101001_000011_000010_000001_011101_00], .amoCas .module 1 2 3),
    ([0b001000_000011_000010_000001_011101_01, 0b0000_00_0_000_000000_11_00_00_01_00000000, 0], .amoSwp .system 65 2 3),
    ([0b100001_000011_000010_000001_011110_00], .ldAcq .x64 .die 1 2 24),
    ([0b100101_000011_000010_000001_011110_00], .stRel .x64 .die 1 2 24),
    ([0b101001_000011_000010_000001_011110_00], .ldStr .x64 .die 1 2 24),
    ([0b101101_000011_000010_000001_011110_00], .stStr .x64 .die 1 2 24),
    ([0b011100_000000_000010_000001_011110_01, 0b0000_00_0_000_000000_11_00_00_00_00000000, 0xfffffffc], .stStr .i32 .system 1 2 (-4)),
    ([0b000010_000000_000000_000000_011111_00], .fence .module),
    ([0b000110_000000_000000_000000_011111_00], .fenceAcq .module),
    ([0b001010_000000_000000_000000_011111_00], .fenceRel .module)] := by decide

/-- R133, majors 0x20 to 0x23. -/
theorem test_words_vector_integer : Says [
    ([0b100000_000011_000010_000001_100000_00], .vadd .w32 1 2 3),
    ([0b100001_000011_000010_000001_100000_00], .vsub .w32 1 2 3),
    ([0b100010_000011_000010_000001_100000_00], .vmul .w32 1 2 3),
    ([0b100011_000011_000010_000001_100000_00], .vmac .w32 1 2 3),
    ([0b100100_000011_000010_000001_100000_00], .vmin .w32 1 2 3),
    ([0b100101_000011_000010_000001_100000_00], .vmax .w32 1 2 3),
    ([0b100110_000011_000010_000001_100000_00], .vand .w32 1 2 3),
    ([0b100111_000011_000010_000001_100000_00], .vor .w32 1 2 3),
    ([0b101000_000011_000010_000001_100000_00], .vxor .w32 1 2 3),
    ([0b101001_000011_000010_000001_100000_00], .vshl .w32 1 2 3),
    ([0b101010_000011_000010_000001_100000_00], .vshr .w32 1 2 3),
    ([0b101011_000011_000010_000001_100000_00], .vsra .w32 1 2 3),
    ([0b101100_000000_000010_000001_100000_00], .vabs .w32 1 2),
    ([0b101101_000000_000010_000001_100000_00], .vneg .w32 1 2),
    ([0b101110_000011_000010_000001_100000_00], .vminU .w32 1 2 3),
    ([0b101111_000011_000010_000001_100000_00], .vmaxU .w32 1 2 3),
    ([0b000010_000011_000010_000001_100000_01, 0b0000_00_0_000_000100_00_00_00_01_00000000, 0], .vmul .w64 65 2 3),
    ([0b010000_000011_000010_000001_100001_00], .vcmpEq .w16 1 2 3),
    ([0b010001_000011_000010_000001_100001_00], .vcmpNe .w16 1 2 3),
    ([0b010010_000011_000010_000001_100001_00], .vcmpLt .w16 1 2 3),
    ([0b010011_000011_000010_000001_100001_00], .vcmpLe .w16 1 2 3),
    ([0b010100_000011_000010_000001_100001_00], .vcmpLtU .w16 1 2 3),
    ([0b010101_000011_000010_000001_100001_00], .vcmpLeU .w16 1 2 3),
    ([0b000110_000011_000010_000001_100001_01, 0b0000_00_0_000_000001_00_00_00_00_11001000, 0], .vsel .w8 1 2 3 200),
    ([0b000111_000011_000010_000001_100001_00], .mand .w8 1 2 3),
    ([0b001000_000011_000010_000001_100001_00], .mor .w8 1 2 3),
    ([0b111001_000000_000010_000001_100001_00], .mnot .w64 1 2),
    ([0b111010_000000_000010_000001_100001_00], .mpopc .w64 1 2),
    ([0b010000_000011_000010_000001_100010_00], .vperm .w16 1 2 3),
    ([0b010001_000000_000010_000001_100010_00], .vbcast .w16 1 2),
    ([0b010010_000011_000010_000001_100010_00], .vextr .w16 1 2 3),
    ([0b010011_000011_000010_000001_100010_00], .vins .w16 1 2 3),
    ([0b010100_000011_000010_000001_100010_00], .vslideUp .w16 1 2 3),
    ([0b010101_000011_000010_000001_100010_00], .vslideDn .w16 1 2 3),
    ([0b010110_000011_000010_000001_100010_00], .vzipLo .w16 1 2 3),
    ([0b010111_000011_000010_000001_100010_00], .vzipHi .w16 1 2 3),
    ([0b011000_000011_000010_000001_100010_00], .vunzipEv .w16 1 2 3),
    ([0b011001_000011_000010_000001_100010_00], .vunzipOd .w16 1 2 3),
    ([0b100000_000000_000010_000001_100011_00], .vredsum .w32 1 2),
    ([0b100001_000000_000010_000001_100011_00], .vredmax .w32 1 2),
    ([0b100010_000000_000010_000001_100011_00], .vredmin .w32 1 2),
    ([0b100011_000000_000010_000001_100011_00], .vredmaxU .w32 1 2),
    ([0b100100_000000_000010_000001_100011_00], .vredminU .w32 1 2)] := by decide

/-- R133, R214, R219 to R222, majors 0x24 to 0x27. -/
theorem test_words_vector_float : Says [
    ([0b000001_000011_000010_000001_100100_00], .vfadd .bf16 .rne false 1 2 3),
    ([0b000101_000011_000010_000001_100100_00], .vfsub .bf16 .rne false 1 2 3),
    ([0b001001_000011_000010_000001_100100_00], .vfmul .bf16 .rne false 1 2 3),
    ([0b001101_000011_000010_000001_100100_00], .vfma .bf16 .rne 1 2 3),
    ([0b010001_000011_000010_000001_100100_00], .vfmax .bf16 1 2 3),
    ([0b010101_000011_000010_000001_100100_00], .vfmin .bf16 1 2 3),
    ([0b011001_000000_000010_000001_100100_00], .vfrcp .bf16 .rne false 1 2),
    ([0b011101_000000_000010_000001_100100_00], .vfexp2 .bf16 .rne false 1 2),
    ([0b100001_000000_000010_000001_100100_00], .vfredsum .bf16 .rne false 1 2),
    ([0b100101_000000_000010_000001_100100_00], .vfredmax .bf16 1 2),
    ([0b101001_000000_000010_000001_100100_00], .vfredmin .bf16 1 2),
    ([0b101101_000011_000010_000001_100100_00], .vfcmpEq .bf16 1 2 3),
    ([0b110001_000011_000010_000001_100100_00], .vfcmpLt .bf16 1 2 3),
    ([0b110101_000011_000010_000001_100100_00], .vfcmpLe .bf16 1 2 3),
    ([0b111001_000011_000010_000001_100100_00], .vfcmpUn .bf16 1 2 3),
    ([0b001000_000011_000010_000001_100100_01, 0b0000_00_1_010_001011_00_00_00_00_00000000, 0], .vfmul .f32 .rup true 1 2 3),
    ([0b001001_000001_000010_000001_100101_01, 0b0000_00_0_001_001011_00_00_00_00_00000000, 0], .vcvt (.wide .f32) (.wide .f16) .rtz false 1 2 1),
    ([0b001010_000011_000010_000001_100110_01, 0b0000_00_1_011_110011_00_00_00_00_00000000, 0], .vquant (.b8 3 false true) .bf16 .rdn true 1 2 3),
    ([0b001000_000011_000010_000001_100111_01, 0b0000_00_0_000_101101_00_00_00_00_00000000, 0], .vdeq .f32 (.b8 5 true false) 1 2 3),
    ([0b000001_000000_000010_000001_100111_00], .vsclg 1 2),
    ([0b000010_000000_000010_000001_100111_00], .vscls 1 2)] := by decide

/-- R133, R175, R183, majors 0x28 to 0x2B. -/
theorem test_words_scalar_float : Says [
    ([0b000011_000011_000010_000001_101000_00], .fadd .f64 .rne false 1 2 3),
    ([0b000111_000011_000010_000001_101000_00], .fsub .f64 .rne false 1 2 3),
    ([0b001011_000011_000010_000001_101000_00], .fmul .f64 .rne false 1 2 3),
    ([0b001111_000011_000010_000001_101000_00], .fdiv .f64 .rne false 1 2 3),
    ([0b010011_000011_000010_000001_101000_00], .fmin .f64 1 2 3),
    ([0b010111_000011_000010_000001_101000_00], .fmax .f64 1 2 3),
    ([0b011011_000011_000010_000001_101000_00], .fsgn .f64 1 2 3),
    ([0b011111_000000_000010_000001_101000_00], .fsqrt .f64 .rne false 1 2),
    ([0b100011_000000_000010_000001_101000_00], .fabs .f64 1 2),
    ([0b100111_000000_000010_000001_101000_00], .fneg .f64 1 2),
    ([0b101011_000000_000010_000001_101000_00], .fclass .f64 1 2),
    ([0b101111_000000_000010_000001_101000_00], .frnd .f64 .rne 1 2),
    ([0b001100_000011_000010_000001_101000_01, 0b0000_00_1_100_001001_00_00_00_01_00000000, 0], .fdiv .f16 .rst true 65 2 3),
    ([0b000000_000011_000010_000001_101001_01, 0b0000_00_0_001_001100_00_00_00_00_11001000, 0], .fma .f64 .rtz 1 2 3 200),
    ([0b000100_000011_000010_000001_101001_01, 0b0000_00_0_001_001100_00_00_00_00_11001000, 0], .fms .f64 .rtz 1 2 3 200),
    ([0b001000_000011_000010_000001_101001_01, 0b0000_00_0_001_001100_00_00_00_00_11001000, 0], .fnma .f64 .rtz 1 2 3 200),
    ([0b000010_000011_000010_000001_101010_00], .fcmpEq .f32 1 2 3),
    ([0b000110_000011_000010_000001_101010_00], .fcmpLt .f32 1 2 3),
    ([0b001010_000011_000010_000001_101010_00], .fcmpLe .f32 1 2 3),
    ([0b001110_000011_000010_000001_101010_00], .fcmpUn .f32 1 2 3),
    ([0b010010_000011_000010_000001_101010_00], .fcmpNe .f32 1 2 3),
    ([0b001100_000000_000010_000001_101011_01, 0b0000_00_1_001_000110_00_00_00_00_00000000, 0], .fcvt (.int false .w16) (.wide .f64) .rtz true 1 2)] := by decide

/-- R132, R246, majors 0x30, 0x38 to 0x3B. -/
theorem test_words_matrix_copy : Says [
    ([0b000000_000000_000010_000001_110000_00], .mlds 1 2),
    ([0b000001_000000_000000_000000_110000_00], .mswp),
    ([0b000010_000011_000010_000001_110000_00], .mstr 1 2 3),
    ([0b000011_000000_000010_000000_110000_00], .macz 2),
    ([0b000100_000011_000010_000001_110000_00], .macrd 1 2 3),
    ([0b000101_000000_000010_000000_110000_00], .mfmt 2),
    ([0b000110_000000_000000_000001_110000_00], .mstat 1),
    ([0b000111_000000_000000_000000_110000_00], .mwait),
    ([0b000000_000000_000000_000000_111000_00], .tend),
    ([0b000000_000011_000010_000001_111001_00], .tcopy 1 2 3),
    ([0b010101_000011_000010_000001_111010_00], .tpack ⟨false, true, false, 5⟩ 1 2 3),
    ([0b101011_000011_000010_000001_111011_00], .tunpk ⟨true, false, true, 3⟩ 1 2 3)] := by decide

/-- R132, majors 0x3C and 0x3D. -/
theorem test_words_barrier_sched : Says [
    ([0b000000_000000_000010_000000_111100_00], .bini 2),
    ([0b000001_000011_000010_000000_111100_00], .bexp 2 3),
    ([0b000010_000011_000010_000001_111100_00], .barv 1 2 3),
    ([0b000011_000011_000010_000000_111100_00], .bwait false 0 2 3),
    ([0b000100_000000_000010_000001_111100_00], .btest 1 2),
    ([0b000011_000011_000010_000001_111100_01, 0b0000_01_0_000_000000_00_00_00_00_00000000, 0], .bwait true 1 2 3),
    ([0b000000_000000_000000_000000_111101_00], .waitw),
    ([0b000001_000000_000010_000000_111101_00], .tabt 2),
    ([0b000010_000000_000010_000001_111101_00], .tspawn 1 2),
    ([0b000011_000000_000010_000001_111101_00], .evget 1 2),
    ([0b000100_000011_000010_000000_111101_00], .tbar false 0 2 3),
    ([0b000101_000000_000000_000000_111101_00], .yield),
    ([0b000110_000000_000010_000000_111101_00], .sleep 2),
    ([0b000111_000000_000000_000001_111101_00], .tick 1),
    ([0b000100_000011_000010_000001_111101_01, 0b0000_01_0_000_000000_00_00_00_00_00000000, 0], .tbar true 1 2 3)] := by decide

/-- R132, major 0x3E. -/
theorem test_words_fields : Says [
    ([0b000000_000000_000010_000001_111110_00], .fdecl 1 2),
    ([0b000001_000000_000010_000001_111110_00], .fstart 1 2),
    ([0b000010_000011_000010_000001_111110_00], .fstop 1 2 3),
    ([0b000011_000000_000010_000001_111110_00], .fpause 1 2),
    ([0b000100_000011_000010_000001_111110_00], .fphase 1 2 3),
    ([0b000101_000011_000010_000001_111110_00], .fwaitb false 1 2 3),
    ([0b000110_000011_000010_000001_111110_00], .sget 1 2 3),
    ([0b000111_000000_000010_000000_111110_00], .sput 2),
    ([0b001000_000000_000010_000001_111110_00], .snap 1 2),
    ([0b001001_000011_000010_000001_111110_00], .cplc 1 2 3),
    ([0b001010_000000_000010_000001_111110_00], .fmig 1 2),
    ([0b001011_000000_000000_000001_111110_00], .rng 1),
    ([0b001100_000000_000010_000001_111110_00], .rngf 1 2),
    ([0b001101_000011_000010_000001_111110_00], .bern 1 2 3),
    ([0b001110_000011_000010_000001_111110_00], .samp 1 2 3),
    ([0b000101_000011_000010_000001_111110_01, 0b0000_01_0_000_000000_00_00_00_00_00000000, 0], .fwaitb true 1 2 3)] := by decide

/-- R132, R276, R288, major 0x3F. -/
theorem test_words_system : Says [
    ([0b000000_001001_000000_000000_111111_00], .trap 9),
    ([0b000001_000000_000000_000000_111111_00], .eret),
    ([0b000010_000011_000010_000001_111111_00], .stget 1 (2 + 64 * 3)),
    ([0b000011_000011_000010_000001_111111_00], .stset 1 (2 + 64 * 3)),
    ([0b000100_000011_000010_000001_111111_00], .stswp 1 (2 + 64 * 3)),
    ([0b000101_000000_000000_000001_111111_00], .ienb 1),
    ([0b000110_000000_000000_000001_111111_00], .idis 1),
    ([0b000111_000000_000000_000000_111111_00], .wfi),
    ([0b001000_010001_101011_000001_111111_00], .pool 1 3 5 17),
    ([0b001001_001000_000000_000001_111111_00], .poolq 1 8),
    ([0b001010_000000_000010_000000_111111_00], .view (.reg 2)),
    ([0b001011_000000_000010_000000_111111_00], .cln 2),
    ([0b001100_000000_000010_000000_111111_00], .inv 2),
    ([0b001101_000000_000010_000000_111111_00], .clnp 2),
    ([0b001110_000011_000010_000000_111111_00], .ptstGrant 2 3),
    ([0b001110_000011_000010_000001_111111_00], .ptstRetract 2 3),
    ([0b001110_000011_000010_000010_111111_00], .ptstHold 2 3),
    ([0b001110_000011_000010_000011_111111_00], .ptstMove 2 3),
    ([0b001111_000000_000010_000001_111111_00], .genb 1 2),
    ([0b010000_000000_000010_000001_111111_00], .launch 1 2),
    ([0b010001_000011_000010_000001_111111_00], .fsvc 1 2 3),
    ([0b010010_000000_000000_000000_111111_00], .halt),
    ([0b010011_000001_000000_000001_111111_00], .ident 1 1),
    ([0b001010_000000_000000_000000_111111_01, 0b0000_00_0_000_000000_00_00_00_00_00000000, 0x20104000], .view (.imm 0x20104000))] := by decide
/-- R134: a longer form than needed decodes to the same instruction (R130 writes the shorter one). -/
theorem test_words_long_forms :
    decode [0b000000_000011_000010_000001_000001_01, 0, 0] = .ok (.add 1 2 3) ∧
    decode [0b000000_000000_000010_000001_000010_01, 0, 7] = .ok (.addi 1 2 7) ∧
    decode [0b000000_000011_000010_000001_100000_01, 0b0000_00_0_000_000011_00_00_00_00_00000000, 0] = .ok (.vadd .w32 1 2 3) := by decide

/-- R135: what is refused, and under which name. -/
theorem test_words_refused :
    decode [] = .error .truncated ∧ decode [0b000001_01, 0] = .error .truncated ∧ decode [0b11, 0, 0, 0, 0] = .error .length ∧
    decode [0b001011_00] = .error .major ∧ decode [0b110001_00] = .error .major ∧
    decode [0b011101_000000_000000_000000_000001_00] = .error .field ∧ decode [0b010100_000000_000000_000000_111111_00] = .error .field ∧
    decode [0b000000_000011_000010_000001_001000_00] = .error .field ∧ decode [0b000001_000011_000010_000001_000001_10, 0, 0] = .error .field ∧
    decode [0b000000_000001_000010_000001_000100_00] = .error .field ∧ decode [0b000011_111110_000010_000001_000110_00] = .error .field ∧
    decode [0b000000_000011_000010_000001_000001_01, 1, 0] = .error .field ∧
    decode [0b000000_000011_000010_000001_000001_01, 0x10000000, 0] = .error .field ∧
    decode [0b000000_000011_000010_000001_000001_01, 0, 1] = .error .field ∧
    decode [0b000111_000011_000010_000001_011000_00] = .error .field ∧ decode [0b000000_000011_000010_000000_010001_01, 0, 6] = .error .field := by
  decide

/-- The opcode table's numbering: the first word in bits 31 to 0. -/
theorem test_table_words :
    decodeTableWord 32 0b000001_000011_000010_000001_000001_00 = some (.sub 1 2 3) ∧
    decodeTableWord 96 (0b000000_000000_000010_000001_000010_01 + 2 ^ 64 * 0xFFFFFFFE) = some (.addi 1 2 (-2)) ∧
    decodeTableWord 32 0 = none := by decide

/-! ## Ill-formed terms: one for each check -/

theorem test_ill_formed : ∀ i ∈ ([.addi 65 2 0x100000000, .li 65 0x100000000, .sext .w64 1 2, .zext .w64 1 2, .bext 1 2 60 4, .bins 1 2 60 4,
    .lea 1 ⟨2, none, 0x80000000⟩, .ldfeK false 1 2 0x80000000, .feset 2 0x80000000, .loop 2 6, .beq 2 3 6, .call 1 6, .ld .x64 1 ⟨2, none, 0x80000000⟩,
    .ldv 1 2 0x80000000, .pf 2 0x80000000, .ldAcq .x64 .cell 1 2 0x80000000, .vfadd .f64 .rne false 1 2 3, .vfredmax .f64 1 2,
    .vcvt (.wide .f16) (.wide .bf16) .rne false 1 2 1, .vcvt (.b8 0 false false) (.wide .f16) .rne false 1 2 0,
    .vcvt (.int true .w16) (.wide .f16) .rst false 1 2 0, .vquant (.wide .f16) .f16 .rne false 1 2 3, .vquant (.b8 3 false false) .f64 .rne false 1 2 3,
    .vdeq .f16 (.b8 3 false false) 1 2 2, .vdeq .f64 (.b8 3 false false) 1 2 0, .fadd .f64 .rst false 1 2 3, .frnd .f64 .rst 1 2,
    .fcvt (.b8 0 false false) (.wide .f64) .rne false 1 2, .mlds 64 2, .mstr 1 2 64, .macz 64, .mstat 64, .tcopy 64 2 3, .tpack ⟨true, false, false, 4⟩ 1 2 3,
    .tunpk ⟨false, false, false, 6⟩ 1 2 3, .bini 64, .bexp 1 64, .barv 1 2 64, .bwait false 1 2 3, .tbar false 1 2 3, .btest 64 2, .tabt 64,
    .tspawn 64 2, .tick 64, .fdecl 64 2, .fstop 1 2 64, .fwaitb true 64 2 3, .sput 64, .rng 64, .stget 64 0, .ienb 64, .pool 64 1 2 3,
    .poolq 1 9, .view (.reg 64), .view (.imm 0x40000000), .cln 64, .ptstGrant 1 64, .genb 64 2, .fsvc 1 2 64, .ident 1 2] : List Instr),
    i.wellFormed = false := by decide

/-- A step of the hardware has no words. -/
theorem test_steps_have_no_words : (Instr.hsqRead).wellFormed = false ∧ encode .hsqRead = [] ∧ (Instr.matrixStart 0).wellFormed = false := by decide


/-! The encodings that the spec's instruction tables print beside their instructions. -/

/-- Each word sequence decodes to the instruction beside it. -/
abbrev Prints (l : List (List IWord × Instr)) : Prop := ∀ p ∈ l, decode p.1 = .ok p.2

theorem test_printed_integers : Prints [([0x00510304], .add 3 4 5), ([0x04510304], .sub 3 4 5), ([0x0C510304], .mulh 3 4 5), ([0x14510304], .div 3 4 5),
    ([0x50510404], .max 4 4 5), ([0x64510304], .clt 3 4 5), ([0xFC01C708], .addi 7 7 (-1)), ([0x0001C709, 0, 0x64], .addi 7 7 100),
    ([0x0001030A, 0, 1], .addi 3 4 0x100000000), ([0x0640030C], .li 3 100), ([0x0000030E, 0x56789ABC, 0x1234], .li 3 0x123456789ABC),
    ([0x04010314], .sext .w16 3 4), ([0x18010314], .zext .w32 3 4), ([0x3C810318], .bext 3 4 8 15), ([0x0FC1031C], .bins 3 4 60 3),
    ([0x00510321, 6, 0], .sel 3 4 5 6), ([0x01014324], .lea 3 ⟨5, none, 16⟩), ([0xE0614324], .lea 3 ⟨5, some (6, 3), 0⟩),
    ([0x14010328], .shlImm 3 4 5), ([0xFC210328], .sraImm 3 4 63), ([0x0040C240], .beq 3 4 8), ([0xFC40FD48], .blt 3 4 (-12)),
    ([0x0003095C], .calli 9 12), ([0x0000843C], .loop 2 16), ([0x0000803D, 0, 16], .loop 2 16)] := by decide

theorem test_printed_floats : Prints [([0x085103A0], .fadd .f32 .rne false 3 4 5), ([0x3C5103A0], .fdiv .f64 .rne false 3 4 5),
    ([0x7001C6A0], .fsqrt .f16 .rne false 6 7), ([0xA80103A0], .fclass .f32 3 4), ([0x005103A1, 0x004B0000, 0], .fadd .f32 .rtz false 3 4 5),
    ([0x005103A5, 0x000B0006, 0], .fma .f32 .rne 3 4 5 6), ([0x2C0103AD, 0x02240000, 0], .fcvt (.b8 4 false false) (.wide .f32) .rne true 3 4),
    ([0x300185AD, 0x00430000, 0], .fcvt (.int true .w32) (.wide .f64) .rtz false 5 6), ([0x00920AA8], .fcmpEq .f16 10 8 9)] := by decide

theorem test_printed_memory : Prints [([0x18214360], .ld .x64 3 ⟨5, none, 16⟩), ([0xF8614360], .ld .x64 3 ⟨5, some (6, 3), 0⟩),
    ([0x10014361, 0, 0xFFFFFFFC], .ld .i32 3 ⟨5, none, -4⟩), ([0x18004464], .st .x64 4 ⟨1, none, 0⟩), ([0x0C308964], .st .n16 9 ⟨2, none, 6⟩),
    ([0x10308468], .ldl .i32 4 ⟨2, none, 12⟩), ([0x1810866C], .stl .x64 6 ⟨2, none, 8⟩), ([0x00114170], .ldv 1 5 64), ([0x0C20C270], .stvl 2 3 128),
    ([0x30710370], .ldvs .w16 3 4 7), ([0x54518470], .vgat .w32 4 6 5), ([0x1C214070], .pf 5 256), ([0x88114378], .ldAcq .x64 .module 3 5 8),
    ([0x98114478], .stRel .x64 .module 4 5 8), ([0x64008678], .ldStr .i32 .die 6 2 0), ([0x80614374], .amoAdd .module 3 5 6),
    ([0x64614374], .amoCas .die 3 5 6), ([0x04208438], .ldfeE false 4 2 16), ([0x08308538], .stfe false 5 2 24), ([0x0C018538], .stfer false 5 6),
    ([0x14008038], .feclr 2 0), ([0x00008439, 0x04000000, 16], .ldfeK true 4 2 16)] := by decide

theorem test_printed_vectors : Prints [([0x80308180], .vadd .w32 1 2 3), ([0x4C614480], .vmac .w16 4 5 6), ([0x2C21C780], .vsra .w8 7 7 2),
    ([0xFC308180], .vmaxU .w64 1 2 3), ([0x00308181, 0x00030000, 0], .vadd .w32 1 2 3), ([0x88510384], .vcmpLt .w32 3 4 5), ([0x10510384], .vcmpLtU .w8 3 4 5),
    ([0x18308185, 0x00020004, 0], .vsel .w16 1 2 3 4), ([0x9C40C684], .mand .w32 6 3 4), ([0x2800C584], .mpopc .w8 5 3), ([0x00308188], .vperm .w8 1 2 3),
    ([0x8401C288], .vbcast .w32 2 7), ([0xD450C388], .vslideDn .w64 3 3 5), ([0x8C204288], .vins .w32 2 1 2), ([0x8801C488], .vextr .w32 4 7 0),
    ([0x8000438C], .vredsum .w32 3 1), ([0x4C00438C], .vredmaxU .w16 3 1), ([0x08308190], .vfadd .f32 .rne false 1 2 3), ([0x34614490], .vfma .bf16 .rne 4 5 6),
    ([0x7000C290], .vfexp2 .f16 .rne false 2 3), ([0x88004390], .vfredsum .f32 .rne false 3 1), ([0xC8510390], .vfcmpLt .f32 3 4 5),
    ([0x00308191, 0x010B0000, 0], .vfadd .f32 .rst false 1 2 3), ([0x24104295, 0x000B0000, 0], .vcvt (.wide .f32) (.wide .f16) .rne false 2 1 1),
    ([0x2C208595, 0x01240000, 0], .vcvt (.b8 4 false false) (.wide .f32) .rst false 5 2 2),
    ([0x2C408699, 0x00240000, 0], .vquant (.b8 4 false false) .f32 .rne false 6 2 4), ([0x2001879D, 0x00240000, 0], .vdeq .f32 (.b8 4 false false) 7 6 0),
    ([0x0401839C], .vsclg 3 6), ([0x0801069C], .vscls 6 4)] := by decide

theorem test_printed_engines : Prints [([0x000040C0], .mlds 0 1), ([0x040000C0], .mswp), ([0x083106C0], .mstr 6 4 3), ([0x0C00C0C0], .macz 3),
    ([0x103147C0], .macrd 7 5 3), ([0x140080C0], .mfmt 2), ([0x180008C0], .mstat 8), ([0x1C0000C0], .mwait), ([0x006144E4], .tcopy 4 5 6),
    ([0x0C6144E8], .tpack ⟨false, false, false, 3⟩ 4 5 6), ([0x886144EC], .tunpk ⟨true, false, false, 2⟩ 4 5 6), ([0x0000C0F0], .bini 3), ([0x0440C0F0], .bexp 3 4),
    ([0x0840C5F0], .barv 5 3 4), ([0x0C40C0F0], .bwait false 0 3 4), ([0x0C40C5F1, 0x04000000, 0], .bwait true 5 3 4), ([0x1000C5F0], .btest 5 3),
    ([0x000000F4], .waitw), ([0x0400C0F4], .tabt 3), ([0x0800C5F4], .tspawn 5 3), ([0x0C00C5F4], .evget 5 3), ([0x1040C0F4], .tbar false 0 3 4),
    ([0x140000F4], .yield), ([0x1800C0F4], .sleep 3), ([0x1C0005F4], .tick 5), ([0x000000E0], .tend), ([0x0840C5F8], .fstop 5 3 4), ([0x1040C5F8], .fphase 5 3 4),
    ([0x1440C5F9, 0x04000000, 0], .fwaitb true 5 3 4), ([0x1C00C0F8], .sput 3), ([0x2400C5F8 + 0x400000], .cplc 5 3 4), ([0x3840C5F8], .samp 5 3 4)] := by decide

theorem test_printed_system : Prints [([0x007000FC], .trap 7), ([0x040000FC], .eret), ([0x0C0103FC], .stset 3 4), ([0x08808AFC], .stget 10 0x202),
    ([0x0C810CFC], .stset 12 0x204), ([0x140003FC], .ienb 3), ([0x201B05FC], .pool 5 4 5 1), ([0x280000FD, 0, 0x08081000], .view (.imm 0x08081000)), ([0x100047FC], .stswp 7 1), ([0x1C0000FC], .wfi), ([0x201B85FC], .pool 5 6 5 1), ([0x201809FC], .pool 9 0 4 1),
    ([0x242006FC], .poolq 6 2), ([0x2C00C0FC], .cln 3), ([0x3400C0FC], .clnp 3), ([0x3840C1FC], .ptstRetract 3 4), ([0x38E340FC], .ptstGrant 13 14),
    ([0x392442FC], .ptstHold 17 18), ([0x393443FC], .ptstMove 17 19), ([0x3C00C5FC], .genb 5 3), ([0x4000C5FC], .launch 5 3), ([0x4440C5FC], .fsvc 5 3 4),
    ([0x480000FC], .halt), ([0x4C1005FC], .ident 5 1)] := by decide
/-! ## A small machine -/

/-- A hart that runs at a level, with both trap vectors set. -/
def aHart (lv : Level) : Hart := { Hart.resident 8192 (viewsReset 8192) 0x1000 0x2000 with st := .run, level := lv, tu := { TrapBlock.reset with vec := 0x3000 } }

/-- A bank map: REG 0 to 1, CODE 2, STAGE 3, CACHE 4, FIELD 5, LOCAL 6 to 13, MAT 24 and 25; the rest is FREE. -/
def aMap : List Byte := [1, 9, 2, 6, 4, 7, 3, 11, 19, 27, 35, 43, 51, 59] ++ zeros 10 ++ [5, 13] ++ zeros 6

/-- Cell 0 of a team, with two harts resident. -/
def aCell (h : Hart) : Cell :=
  { Cell.reset 0 with banks := bankVector aMap, serving := some ⟨1, 0, 0, 0⟩, nres := 2,
                      harts := Vector.ofFn fun k : Fin 16 => if k.val < 2 then h else Hart.reset }

def aTeam : Team :=
  { no := 0, x0 := 0, y0 := 0, placed := true, save := 0x10000, map := 0, starve := none, starved := false, swap := none, moved := none, image := [], savedAt := 0 }

def aNode : Node :=
  { index := 0, words := List.replicate 8 0, spawned := false, deps := 0, st := .running, attempt := 0, minStage := 0, succs := [], minimum := 0, parent := none }

def aLaunch : Launch :=
  { id := 1, desc := List.replicate 16 0, asid := 5, lead := 0, lw := 0, lh := 0, prio := 0, nres := 2, wsize := 8192, teams := [aTeam],
    nodes := [aNode], next := 1, pointer := 0, age := 0, ring := [], written := 0, heldRecs := [], spills := 0, gangWait := false, drained := false, ended := false }

/-- A line of an address space, all of its bytes 7, with every right. -/
def aLine (asid line : Nat) : OLine :=
  { key := ⟨asid, 0, line⟩, data := List.replicate 128 7, sb := zeros 4, perm := ⟨true, true, true, true⟩, kept := false, dirty := false }

/-- The module with that team: hart 0 of cell 0 is in its slot. -/
def aState (h : Hart) : State :=
  { State.reset with cell := aCell h, launches := [aLaunch], mem := { MemSys.reset with lines := [aLine 5 0, aLine 5 1] } }

/-- The same with other registers in s1 to s3. -/
def withRegs (h : Hart) (x y z : Word) : Hart := ((h.setS 1 x).setS 2 y).setS 3 z

/-- A machine whose hart of a Headstock core is in its slot. -/
def coreState (h : Hart) : State := { State.reset with cur := .core 0, cores := [(0, h)] }

def aTask (replay : Bool) : Task :=
  { launch := 1, team := 0, node := 0, attempt := 0, replay := replay, stage := [], spawns := [], checks := [], ending := none, minimum := 0 }

theorem numbered_of {s : State} {n : Nat} (c : s.cur = .cell n) (e : s.cell.no = n) (o : ∀ p ∈ s.others, p.2.no = p.1) : Numbered s :=
  ⟨fun _ h => by rw [c] at h; cases h; exact e, o⟩

theorem numbered_aState (h : Hart) : Numbered (aState h) := numbered_of rfl rfl (by simp [aState, State.reset])

/-- A miss of hart 0 of cell 0 at an address. -/
def aMiss (k : MissKind) (va size : Nat) (ph : MissPhase) : Miss :=
  { id := 7, sort := .miss, agent := .cell 0, slot := 0, kind := k, asid := 5, level := .u, va := va, size := size, words := 1, task := none, phase := ph }

/-- What a miss of line 0 of ASID 5 is answered with. -/
def aGot : Got := ⟨0, List.replicate 128 7, zeros 4, true, none⟩

/-- A machine whose only miss is this one. -/
def missing (h : Hart) (m : Miss) : State := { aState h with mem := { (aState h).mem with misses := [m] } }

/-! ## The hypotheses of the statements are met -/

theorem witness_scalars : InView (aState (aHart .u)) [1, 2, 3] [] ∧ InView (aState (aHart .u)) [63, 63, 63, 63] [] ∧
    (63 : BitVec 6).toNat + (0 : BitVec 6).toNat + 1 ≤ 64 := by decide

theorem witness_FloatConverts : InView (aState (aHart .u)) [1, 2] [] ∧ (Fmt.b8 1 true true).legal = true ∧ (Fmt.int false .w16).legal = true := by decide

theorem witness_RoundingKeepsCodes : 0 < 2 ^ (wideSpec .f64).n ∧ (Fmt.wide .f64).legal = true ∧ wideSpec .f64 = specOf (.wide .f64) ∧
    (Fmt.b8 1 true true).legal = true ∧ (⟨true, true, true, 3⟩ : StFmt).legal = true ∧ 0 < 2 ^ (specOf (.b8 1 true true)).n ∧
    0 < 2 ^ (storageSpec ⟨true, true, true, 3⟩).n ∧ (valueOf (wideSpec .f64) 0x7FEFFFFFFFFFFFFF).isNan = false ∧ 0 < 64 ∧ 64 ≤ 64 := by decide

theorem witness_WideningNarrowsBack : (⟨true, true, true, 3⟩ : StFmt).legal = true ∧ 15 < 2 ^ (storageSpec ⟨true, true, true, 3⟩).bits := by decide

theorem witness_vectors : let s := aState (aHart .u)
    InView s [] [1, 2, 31] ∧ InView s [63] [1, 31] ∧ InView s [1] [31] ∧ InView s [1, 2] [3] ∧ InView s [1] [2, 3] ∧ InView s [1, 2, 3] [] ∧
    InView s [1] [1, 2, 3] ∧ FF.f32 ≠ .f64 := by decide

theorem witness_VectorConversions : let s := aState (aHart .u)
    InView s [] [1, 2] ∧ vcvtLegal (.wide .f16) (.wide .bf16) .rup 0 = true ∧ Fmt.bits (.wide .f16) = Fmt.bits (.wide .bf16) ∧
    vcvtLegal (.wide .f32) (.wide .f16) .rst 1 = true ∧ vcvtLegal (.wide .f16) (.wide .f32) .rup 1 = true ∧ vdeqLegal .f32 (.b8 3 false true) 3 = true ∧ Fmt.isB8 (.b8 3 false true) = true ∧
    (Fmt.b8 3 false true).legal = true ∧ InView s [] (1 :: groupRegs .f32 4 ++ groupRegs .f32 28) ∧ InView s [1] [31] := by decide

theorem witness_BranchesAndCalls :
    let s := aState (withRegs (aHart .u) 0x404 0x402 0)
    InView s [1, 2] [] ∧ (s.hart.S 1).toNat % 4 = 0 ∧ (s.hart.S 2).toNat % 4 ≠ 0 ∧ (s.hart.pc + 0xFFFFFFFFFFFFFFFC).toNat % 4 = 0 := by decide

theorem witness_LoopEndCheck : let h (n : Word) : Hart := { aHart .s with lcnt := n, lsta := 0x100, lend := 0x201, npc := 0x200 }
    (h 2).pcnt = none ∧ (h 2).psta = none ∧ (h 2).pend = none ∧ (h 2).lcnt ≠ 0 ∧ (h 2).level.code = (h 2).lend.toNat % 4 ∧
    (h 2).npc = (h 2).lend &&& ~~~3 ∧ (h 2).lcnt - 1 ≠ 0 ∧ (h 1).lcnt - 1 = 0 ∧ ¬ ((h 0).lcnt ≠ 0) ∧
    ({ h 1 with pcnt := some 2 } : Hart).pcnt = some 2 ∧ (2 : Word) - 1 ≠ 0 ∧ ({ h 2 with pcnt := some 0 } : Hart).pcnt = some 0 := by decide

theorem witness_TrapEntry : let h := (aState (aHart .u)).hart
    h.vectored (h.target (Cause.privilege.code h.level)) = some .s ∧ h.vectored (h.target (Cause.illegal.code h.level)) = some .f ∧
    h.vectored (h.target (Cause.misaligned.code h.level)) = some .u := by decide

theorem witness_trap_stop : let s (n : Nat) : State := { aState { Hart.reset with st := .run } with head := { HeadRegs.reset with hsq := List.replicate n (1, 2) } }
    (s 0).cur = .cell 0 ∧ (s 0).hart.vectored ((s 0).hart.target (Cause.illegal.code .u)) = none ∧ (s 63).head.hsq.length < 64 ∧ 64 ≤ (s 64).head.hsq.length := by
  decide

theorem witness_TrapsAndReturns : let s := aState (aHart .s)
    let w : Swap := { phase := .stopSlot0, kind := .out, since := 0, save := 0x10000, done := 0x80, back := [] }
    let t : State := { aState { aHart .s with ts := { (aHart .s).ts with cause := 0x8000000000000004 } } with launches := [{ aLaunch with teams := [{ aTeam with swap := some w }] }] }
    s.isCore = false ∧ (s.hart.block s.hart.level).cause ≠ 0x8000000000000004 ∧ (0x404 : Word).toNat % 4 = 0 ∧ t.cur = .cell 0 ∧ t.cell.slot.val = 0 ∧
    t.hart.level = .s ∧ t.hart.ts.cause = 0x8000000000000004 ∧ t.cell.serving = some ⟨1, 0, 0, 0⟩ ∧ t.team? 1 0 = some { aTeam with swap := some w } := by decide

theorem witness_StateRegisters : let s := aState (withRegs (aHart .f) 0xA 0 0)
    InView s [1] [] ∧ s.isCore = false ∧ s.cur = .cell 0 ∧ Level.f.code ≤ s.hart.level.code ∧ 0x300 = 0x100 * (Level.f.code + 1) ∧ s.hart.lcnt = 0 ∧
    (s.hart.S 1).toNat % 4 ≠ 3 ∧ (s.hart.S 1).toNat / 4 % 4 ≤ Level.f.code := by decide

theorem witness_loop_writes : let s := aState { withRegs (aHart .s) 0xA 0 0 with lcnt := 2, lsta := 0x100, lend := 0x201 }
    InView s [1] [] ∧ s.hart.lcnt ≠ 0 ∧ s.hart.level.code = s.hart.lend.toNat % 4 ∧ (s.hart.S 1).toNat % 4 ≠ 3 := by decide

theorem witness_core_registers : let s := coreState (withRegs (Hart.core 0x1000) 31 0 0)
    InView s [1, 2] [] ∧ s.cur = .core 0 ∧ s.isCore = true ∧ s.hart.level = .f ∧ Level.f.code ≤ s.hart.level.code ∧
    Hart.viewsFit (((s.hart.S 1).toNat % 32 + 1) * 256) s.hart.views = true ∧ Hart.viewsFit (((s.hart.S 2).toNat % 32 + 1) * 256) s.hart.views = false ∧
    (s.hart.block s.hart.level).stat.toNat / 4 % 4 = 0 ∧
    (({ s.hart with tf := { s.hart.tf with stat := 8 } } : Hart).block s.hart.level).stat.toNat / 4 % 4 ≠ 0 ∧ s.hart.st = .run ∧ stateReg true 0x17 = none ∧
    ¬ InView s [64, 1] [] ∧ ¬ InView s [64, 1, 2] [] ∧ ({ s.hart with level := .s } : Hart).level ≠ .f := by
  decide

theorem witness_SwapsAndEnables : let s := aState (withRegs (aHart .s) (viewsReset 8192) 0 0)
    InView s [1, 2] [] ∧ s.isCore = false ∧ s.sweepHart s.cell.no s.cell.slot = false ∧ Level.u.code ≤ s.hart.level.code ∧
    (s.hart.S 1).toNat / 4 % 4 ≤ Level.u.code ∧ (s.hart.S 1).toNat % 4 ≠ 3 ∧
    Hart.viewsFit s.hart.wsize (s.hart.S 1 &&& viewsMask) = true ∧ Hart.viewsFit s.hart.wsize ((0x20104000 : BitVec 32).setWidth 64 &&& viewsMask) = true := by
  decide

theorem witness_InstructionTraps : let s := aState (withRegs (aHart .u) 0x8 0x3 0x8000)
    ¬ InView s [64, 1, 2] [] ∧ ¬ InView s [1, 200] [] ∧ ¬ InView s [] [32, 1, 2] ∧ ¬ InView s [1, 2, 3, 64] [] ∧ ¬ InView s [64] [1] ∧ s.isCore = false ∧
    stateReg false 0x16 = none ∧ stateReg false 0x200 = some (.s, true) ∧ s.hart.level.code < Level.s.code ∧ stateReg false 0x18 = some (.u, false) ∧
    0x100 = 0x100 * (Level.u.code + 1) ∧ Level.u.code < (s.hart.S 1).toNat / 4 % 4 ∧ Hart.viewsFit s.hart.wsize (0x7F00 &&& viewsMask) = false ∧
    ¬ InView s [1] [32, 2] ∧ ¬ InView s [64, 1] [2] ∧ ¬ InView s [] [1, 32] ∧ s.hart.st = .run ∧ (aState (aHart .s)).hart.level ≠ .u ∧
    s.hart.level ≠ .f ∧ (s.hart.S 2).toNat % 8 ≠ 0 ∧ (s.hart.S 3).toNat % 64 = 0 ∧ s.cell.localSize < (s.hart.S 3).toNat + 1 ∧
    s.cell.localSize < (s.hart.S 3).toNat + 64 := by decide

/-! LOCAL, barriers and queues: the last byte of LOCAL is in reach. -/

theorem witness_LocalAccesses : let s := aState (withRegs (aHart .u) 0x7FF8 0x7FC0 0)
    InView s [3, 1] [] ∧ s.cur = .cell 0 ∧ (s.hart.S 1).toNat % 8 = 0 ∧ (s.hart.S 1).toNat + 8 ≤ s.cell.localSize ∧ InView s [2] [31] ∧
    (s.hart.S 2).toNat % 64 = 0 ∧ (s.hart.S 2).toNat + 64 ≤ s.cell.localSize := by decide

/-- LOCAL with the state bit of one word set. -/
def fullAt (s : State) (o : Nat) : State := { s with cell := { s.cell with locSb := [(o / 32, BitVec.ofNat 8 (2 ^ (o / 8 % 4)))] } }

theorem witness_FullEmptyWords : let s := aState (withRegs (aHart .u) 0x7FF8 0 0)
    let t := fullAt s 0x7FF8
    let w (v : Word) := aState { aHart .u with st := .wait .remote, req := .answered v }
    InView s [2, 1] [] ∧ s.cur = .cell 0 ∧ s.hart.check = .idle ∧ (s.hart.S 1).toNat % 8 = 0 ∧ (s.hart.S 1).toNat + 8 ≤ s.cell.localSize ∧
    fullBit s.cell 0x7FF8 = false ∧ fullBit t.cell 0x7FF8 = true ∧ (w 0).hart.st = .wait .remote ∧ (w 0).hart.req = .answered 0 ∧
    (w 1).hart.req = .answered 1 ∧ s.hart.st = .run ∧
    (let x := aState { withRegs (aHart .u) 0x7FF8 0 0 with st := .wait .fullEmpty, since := some 0 }
     x.hart.st = .wait .fullEmpty ∧ x.tbase < 0 + x.hart.fwl.toNat) := by decide

theorem witness_no_failure : ∀ c y, (aHart .u).check ≠ .failed c y := fun _ _ => nofun

theorem witness_BarrierArithmetic :
    (let e' := min (3 + 5) 0xFFFFFFFF
     e' ≠ 0 ∧ e' ≤ 8 ∧ ¬ e' ≤ 7) ∧ (3 ≠ 0 ∧ 3 ≤ min (1 + 2) 0xFFFFFFFF ∧ min (1 + 1) 0xFFFFFFFF < 3) := by decide

/-- LOCAL with these 8-byte words from an offset on. -/
def withWords (s : State) (o : Nat) (ws : List Nat) : State := { s with cell := { s.cell with loc := Mem.write [] o (ws.flatMap (leBytes 8)) } }

theorem witness_BarrierObjects : let s := withWords (aState (withRegs (aHart .u) 0x7FF0 1 0)) 0x7FF0 [4, 1]
    InView s [3, 1, 2] [] ∧ s.cur = .cell 0 ∧ s.hart.st = .run ∧ (s.hart.S 1).toNat % 16 = 0 ∧ (s.hart.S 1).toNat + 16 ≤ s.cell.localSize ∧
    (BitVec.ofNat 64 (leNat (s.cell.loc.read 0x7FF8 8)) : Word).getLsbD 0 = (s.hart.S 2).getLsbD 0 ∧
    (BitVec.ofNat 64 (leNat (s.cell.loc.read 0x7FF8 8)) : Word).getLsbD 0 ≠ (s.hart.S 3).getLsbD 0 := by decide

/-! Global memory. -/

/-- CACHE with a line of ASID 5 that every word of is registered. -/
def cached (s : State) (line : Nat) : State :=
  { s with cell := { s.cell with cache := [⟨⟨5, 0, line⟩, List.replicate 128 7, zeros 4, ⟨true, true, true, true⟩, false, BitVec.allOnes 16, BitVec.allOnes 16⟩] } }

theorem witness_LoadsFromCache : let s := cached (aState (withRegs (aHart .u) 0x40 8 0)) 0
    s.hart.pending = [] ∧ InView s [3, 1] [] ∧ Aligned (s.hart.S 1) 64 ∧ InView s [1, 2] [31] ∧ InView s [1] [1, 2] ∧
    s.cacheHit .load 0x40 8 = some (false, List.replicate 8 7, [0]) ∧ s.cacheHit .load 0x40 64 = some (false, List.replicate 64 7, [0, 0]) ∧
    (∀ e, e < 512 / EW.w64.bits → (Aligned (s.hart.S 1 + BitVec.ofNat 64 e * s.hart.S 2) 8 ∧
      (s.cacheHit .load (s.hart.S 1 + BitVec.ofNat 64 e * s.hart.S 2).toNat 8).isSome = true)) ∧
    ∀ e, e < 512 / EW.w64.bits → (Aligned (elemAddr s.hart .w64 1 1 e) 8 ∧ (s.cacheHit .load (elemAddr s.hart .w64 1 1 e).toNat 8).isSome = true) := by
  decide

theorem witness_LoadsFromLines : let s := aState { withRegs (aHart .u) 0x78 8 0 with st := .wait .data, got := [aGot] }
    let n := aState (withRegs (aHart .u) 0x78 8 0)
    s.cur = .cell 0 ∧ s.hart.st = .wait .data ∧ InView s [3, 1] [] ∧ InView s [1, 2] [3] ∧ InView s [1] [3, 4] ∧ Came s (s.hart.S 1) 8 aGot ∧ Scope.die ≠ .cell ∧
    n.hart.st = .run ∧ n.hart.asks = [] ∧ n.hart.got = [] ∧ n.deviceHere 0x78 = false ∧ n.cacheHit .load 0x78 8 = none ∧ Aligned (n.hart.S 1) 8 ∧
    Came (aState { withRegs (aHart .u) 0x40 8 0 with st := .wait .data, got := [aGot] }) 0x40 64 aGot := by decide

theorem witness_spread : let s := aState { withRegs (aHart .u) 0x40 8 0 with got := [aGot] }
    (∀ e, e < 512 / EW.w64.bits → Came s (s.hart.S 1 + BitVec.ofNat 64 e * s.hart.S 2) 8 aGot) ∧
    (∀ e, e < 512 / EW.w64.bits → Came s (elemAddr s.hart .w64 1 31 e) 8 aGot) ∧
    (∀ e, e < 512 / EW.w64.bits → s.deviceHere (elemAddr s.hart .w64 1 31 e).toNat = false ∧ s.cacheHit .load (elemAddr s.hart .w64 1 31 e).toNat 8 = none) := by
  decide

theorem witness_misses : let m := aMiss (.load false) 0x40 8
    let g := aState { aHart .u with asks := [7] }
    ((missing (aHart .u) (m .ask)).mem.misses = [m .ask]) ∧ (m .ask).agent = .cell 0 ∧ (m .ask).kind = .load false ∧ (m .ask).asid ≠ 0 ∧ (m .ask).va < 2 ^ 55 ∧
    (aState (aHart .u)).line? ⟨5, 0, 0x40 / 128⟩ = some (aLine 5 0) ∧ (aLine 5 0).perm.allows .u .load = true ∧
    (({ aState (aHart .u) with coh := [{ CohLine.reset ⟨5, 0, 0⟩ with st := .x, dies := [⟨0, .e, none, 0, false, false, none⟩] }] } : State).cohLine (aLine 5 0).key).readable (dieOf 0) = true ∧
    ((aState (aHart .u)).hartAt 0 (m .ask).slot).pending = [] ∧ (m (.come 0 aGot)).phase = .come 0 aGot ∧ (g.hartAt 0 0).asks = [(m .ask).id] := by decide

theorem witness_StagedStores : let s := aState { withRegs (aHart .u) 0x40 8 0 with task := some (aTask true) }
    let t := { s with cell := { s.cell with banks := bankVector (aMap.map fun b => if b = 6 then 0 else b) } }
    s.isCore = false ∧ s.hart.task = some (aTask true) ∧ (aTask true).replay = true ∧ InView s [3, 1] [] ∧ Aligned (s.hart.S 1) 64 ∧ InView s [1] [1, 2] ∧
    s.cell.stageUsed + stageBytes [⟨0x40, leBytes 8 0, [], .weak, .cell, [], .u⟩] ≤ s.cell.count 6 * 4096 ∧
    (∀ e, e < 512 / EW.w8.bits → Aligned (elemAddr s.hart .w8 1 1 e) 1) ∧ t.cell.count 6 * 4096 < t.cell.stageUsed + 16 := by decide

theorem witness_PerformedStores : let s := aState { withRegs (aHart .u) 0x40 8 0 with check := .passed }
    let t := cached (aState (withRegs (aHart .u) 0x40 8 0)) 0
    let n := aState (withRegs (aHart .u) 0x40 8 0)
    s.cur = .cell 0 ∧ s.hart.task = none ∧ s.hart.held = [] ∧ s.hart.relAfter = [] ∧ s.outstanding = [] ∧ InView s [3, 1] [] ∧ InView s [1] [31, 30] ∧
    Aligned (s.hart.S 1) 64 ∧ Storable s (aLine 5 0) (s.hart.S 1).toNat ∧ s.hart.check = .passed ∧ s.answeredHere = true ∧ s.hart.req ≠ .sent ∧
    (aLine 5 0).sb.length = 4 ∧ Direct s.hart ∧ Direct (aState { aHart .u with task := some (aTask false) }).hart ∧
    t.hart.check = .idle ∧ t.registeredHere (t.hart.S 1).toNat 64 = true ∧ n.hart.check = .idle ∧ n.registeredHere (n.hart.S 1).toNat 8 = false ∧ n.isCore = false ∧
    ∀ e, e < 512 / EW.w64.bits → Aligned (elemAddr s.hart .w64 1 31 e) 8 ∧ Storable s (aLine 5 0) (elemAddr s.hart .w64 1 31 e).toNat := by decide

theorem witness_Atomics : let s := aState { withRegs (aHart .u) 0x78 8 0 with st := .wait .data, got := [aGot] }
    let n := aState (withRegs (aHart .u) 0x78 8 0)
    s.cur = .cell 0 ∧ InView s [3, 1, 2] [] ∧ s.hart.st = .wait .data ∧ Direct s.hart ∧ s.acked = true ∧ Aligned (s.hart.S 1) 8 ∧
    s.deviceHere (s.hart.S 1).toNat = false ∧ Came s (s.hart.S 1) 8 aGot ∧ Served s (aLine 5 0) .amo (s.hart.S 1).toNat ∧
    s.mustPublish s.cur s.asid (s.hart.S 1).toNat 8 = none ∧ Ownable s s.myDie (aLine 5 0).key ∧ n.hart.st = .run ∧ n.hart.asks = [] ∧ n.hart.got = [] := by decide

/-- A push of the focused cell that waits at its peer. -/
def aPush (st : Flight) : Push :=
  { cmd := 0, id := 0, obj := 0x100, size := 32, cell := 1, tx := 1, ty := 0, serving := some ⟨1, 0, 1, 0⟩, off := 0x200, bytes := List.replicate 32 9, sb := [],
    robj := 0x100, state := st, wrote := 0, ready := 0, fault := none }

/-- A copy command of the hart in slot 0, at its first piece. -/
def aCopy (op : CopyOp) : CopyCmd := ⟨3, 0, 5, .u, op, 0x100, 0, true, 0, 0, 0, 0, [], [], false, false, none, some ⟨1, 0, 0, 0⟩, [], 0⟩

theorem witness_Fences : let s := aState (aHart .u)
    let t := { s with cell := { s.cell with pushes := [aPush .peer], cq := [aCopy (.tile [2] 0)] } }
    s.cur = .cell 0 ∧ s.acked = true ∧ t.acked = false ∧ Scope.module ≠ .cell := by decide

theorem witness_CleanAndInvalidate : let l := { aLine 5 1 with dirty := true }
    let e : AgentEntry := ⟨5, 0, 0, 0x3F, 0x30000, false, 0, []⟩
    let s := aState { withRegs (aHart .s) 0x80 8 0 with again := true }
    let t := { s with mem := { s.mem with lines := [l], agents := [e] } }
    s.cur = .cell 0 ∧ InView s [1] [] ∧ (t.hart.S 1).toNat < 2 ^ 55 ∧ t.hart.again = true ∧ t.mem.wbPark = [] ∧ t.asid ≠ 0 ∧ l.data.length = 128 ∧
    (t.mem.lines.filter fun m => m.key.asid == t.asid && m.key.gen == t.gen t.asid && (m.key.line == (t.hart.S 1).toNat / 128)) = [l] ∧
    t.entry? t.asid (l.key.line / 512) = some e ∧ inStack (e.pa + l.key.line * 128 % 65536) = true ∧ t.failed 0 = false ∧ 1 ≤ t.hart.level.code ∧
    Direct t.hart ∧ (t.cohLine l.key).msgs = [] ∧ (t.cohLine l.key).busy = none ∧
    (t.mem.lines.filter fun m => m.key.asid == t.asid && m.key.line / 512 == 1) = [] := by decide

theorem witness_TaskEnds :
    let s := aState { withRegs (aHart .u) 0x80 8 0 with task := some { aTask true with stage := [⟨0x40, [1, 2, 3, 4], [], .weak, .cell, [], .u⟩] } }
    s.cur = .cell 0 ∧ InView s [1] [] ∧ s.hart.hand = none ∧ (aState (aHart .u)).hart.task = none ∧ s.acked = true ∧ s.cell.cq = [] ∧
    0x40 % 128 + 4 ≤ 128 ∧ Storable s (aLine 5 0) 0x40 ∧ s.hart.level = .u := by decide

theorem witness_SpawnsRecordsBarriers : let s := aState { withRegs (aHart .u) 0x7FC0 1 0 with req := .sent }
    let r : TaskRecord := ⟨0, 1, 0, 0, false, 0, 0, 0, 0, 0, none⟩
    let t := { s with launches := [{ aLaunch with ring := [r] }] }
    let u := aState (withRegs (aHart .u) 0 1 0)
    let w := aState { aHart .u with st := .wait .teamBarrier, woken := true }
    s.cur = .cell 0 ∧ InView s [2, 1] [] ∧ (s.hart.S 1).toNat % 64 = 0 ∧ (s.hart.S 1).toNat + 64 ≤ s.cell.localSize ∧ u.hart.req = .idle ∧ u.hart.again = false ∧
    u.acked = true ∧ Direct s.hart ∧ s.launchOf s.cell = some aLaunch ∧ aLaunch.ring = [] ∧ (t.launchOf t.cell).map (·.ring) = some [r] ∧
    w.hart.st = .wait .teamBarrier ∧ w.hart.woken = true ∧ u.hart.st = .run ∧ u.wordLegal (u.hart.S 1) = true ∧ u.cell.maskOk (u.hart.S 2) = true ∧
    u.inSubgroup 0 = true ∧ u.cell.tbarDone = [] ∧ u.cell.tbars = [] ∧
    (([⟨0, 1, 2⟩] : List Tbar).find? fun t => t.word == BitVec.ofNat 32 (u.hart.S 1).toNat) = some ⟨0, 1, 2⟩ ∧
    (1 : BitVec 16) = BitVec.ofNat 16 (u.hart.S 2).toNat ∧ (3 : BitVec 16) ≠ BitVec.ofNat 16 (u.hart.S 2).toNat ∧
    ⟨0, 0⟩ ∈ ({ u.cell with tbarDone := [⟨0, 0⟩] } : Cell).tbarDone := by decide

theorem witness_MatrixCommands : let s := aState (withRegs (aHart .u) 0x100 0x400 0x20100)
    let mine : MatCmd := ⟨0, .mswp, 0, none, false, 0, false, 0, [], [], [], 0⟩
    s.cur = .cell 0 ∧ InView s [1, 2, 3] [] ∧ s.hart.st = .run ∧ s.cell.mclosed = false ∧ s.cell.mUsed < 2 ∧ 1 ≤ s.cell.count 5 ∧
    (s.hart.S 1).toNat % 16 = 0 ∧ (s.hart.S 1).toNat + 16 ≤ s.cell.localSize ∧ (s.hart.S 2).toNat % 32 = 0 ∧
    (s.hart.S 2).toNat + 128 ≤ s.cell.localSize ∧ tileOk false (s.hart.S 3) = true ∧ tileOk true (s.hart.S 3) = true ∧
    tileOff (s.hart.S 3) + 16 * tileRows (s.hart.S 3) ≤ 4096 * s.cell.count 5 ∧ outOk (tileRows (s.hart.S 3)) (0x400 + 2 ^ 17 * 9) = true ∧
    fmtWordOk 0x2424 = true ∧ (∃ q ∈ ({ s.cell with mq := [mine] } : Cell).mq, q.slot = s.cell.slot) ∧ s.cell.mq = [] := by decide

theorem witness_CopyCommands :
    let s := withWords (aState (withRegs (aHart .u) 0x100 0x400 0)) 0x400 [2 ^ 20 + 2 ^ 28 + 2 ^ 40, 0, 0, 0, 0, 0, 0, 0]
    s.cur = .cell 0 ∧ InView s [1, 2, 3] [] ∧ s.hart.st = .run ∧ s.cell.cclosed = false ∧ s.cell.cUsed < 2 ∧ Direct s.hart ∧
    (s.hart.S 1).toNat % 16 = 0 ∧ (s.hart.S 1).toNat + 16 ≤ s.cell.localSize ∧ (s.hart.S 2).toNat % 64 = 0 ∧
    (s.hart.S 2).toNat + 64 ≤ s.cell.localSize := by decide

theorem witness_HartControl : let s := aState { withRegs (aHart .f) 1 0 0 with again := true }
    let t := aState { aHart .s with ts := { TrapBlock.resetS with ip := 2, ie := 2 } }
    InView s [1, 2] [] ∧ (s.hart.S 2).toNat ≤ s.tbase ∧ s.tbase < (s.hart.S 1).toNat ∧ s.hart.again = true ∧ t.hart.again = false ∧ s.hart.st = .run ∧
    t.hart.ip .s t.tbase &&& (t.hart.block .s).ie ≠ 0 ∧ (∀ m ∈ [Level.u, .s, .f], s.hart.ip m s.tbase &&& (s.hart.block m).ie = 0) ∧ s.hart.level = .f ∧
    s.head.hsq.length < 64 := by decide

/-! Fields, pages, firmware. -/

/-- Four categorical sites in a row, two colours, one sweep hart a cell, on the cell at the team's origin. -/
def aField (st : FieldState) : Field :=
  { launch := 1, team := 0, handle := 0, desc := [4 + 2 ^ 32 + 3 * 2 ^ 40 + 2 * 2 ^ 48 + 2 ^ 56, 4 + 2 ^ 16 + 2 ^ 32, 0x10000, 0x40] ++ List.replicate 12 0,
    place := 0, nbrs := [], cols := [], sites := [1, 2, 3, 0], st := st, phase := 0, bank := false, commit := none, snaps := [], move := none,
    stop := none, swapPause := false, todo := [], handed := [] }

theorem witness_RandomNumbers : let s := aState (withRegs (aHart .u) 0x400 (2 ^ 40) 0)
    let t := { s with cell := { s.cell with loc := Mem.write [] 0x400 (leBytes 4 0xBF800000) } }
    s.cur = .cell 0 ∧ InView s [3, 1, 2] [] ∧ fieldOf (s.hart.S 1) 25 39 = 0 ∧ fieldOf (s.hart.S 1) 0 17 % 4 = 0 ∧
    fieldOf (s.hart.S 1) 0 17 + 4 * (fieldOf (s.hart.S 1) 17 8 + 1) ≤ s.cell.localSize ∧ s.hart.buf = s.cell.loc.read 0x400 s.hart.buf.length ∧
    s.hart.buf.length ≤ 4 ∧ 4 ≤ s.hart.buf.length + 64 ∧ weightOk (valueOf (wideSpec .f32) (leNat (s.cell.loc.read 0x400 4))) = true ∧
    weightOk (valueOf (wideSpec .f32) (leNat (t.cell.loc.read 0x400 4))) = false := by decide

theorem witness_FieldRequests : let s := { aState (withRegs (aHart .u) 0 0x400 0) with fields := [aField .idle] }
    let h : Hart := { withRegs (aHart .u) 0 0x400 0 with req := .answered 0, buf := leBytes 8 4 ++ leBytes 8 0x400 }
    s.cur = .cell 0 ∧ InView s [3, 1, 2] [] ∧ Direct s.hart ∧ s.cell.serving = some ⟨1, 0, 0, 0⟩ ∧ s.myField (s.hart.S 1) = some (aField .idle) ∧
    s.hart.req = .idle ∧ (∃ v, h.req = .answered v) ∧ leNat (h.buf.take 8) ≠ 0 ∧ leNat (h.buf.drop 8) + 16 ≤ s.cell.localSize ∧
    leNat (({ h with buf := [] } : Hart).buf.take 8) = 0 := by
  refine ⟨rfl, by decide, by decide, rfl, by decide, rfl, ⟨0, rfl⟩, by decide, by decide, by decide⟩

theorem witness_request_blocks : let s := { withWords (aState (withRegs (aHart .u) 0x400 0 0)) 0x400 [0, 1, 0, 0x800] with fields := [aField .idle] }
    let w (i : Nat) : Word := (leWords (s.cell.loc.read 0x400 32)).getD i 0
    s.cell.serving = some ⟨1, 0, 0, 0⟩ ∧ s.hart.req = .idle ∧ s.hart.again = false ∧ (s.hart.S 1).toNat % 32 = 0 ∧ (s.hart.S 1).toNat + 32 ≤ s.cell.localSize ∧
    s.myField (w 0) = some (aField .idle) ∧ (w 3).toNat < 2 ^ 17 ∧ (w 3).toNat % 16 = 0 ∧ (w 3).toNat + 16 ≤ s.cell.localSize ∧ (w 2).toNat < 2 ^ 32 ∧ s.acked = true := by
  decide

/-- A descriptor of the field of `aField`. -/
def fieldLine : List Byte := ((aField .idle).desc.flatMap fun w => leBytes 8 w.toNat).take 128

theorem witness_declaration : let o : OLine := { aLine 5 0 with data := fieldLine }
    let y : CohLine := { CohLine.reset ⟨5, 0, 0⟩ with st := .x, dies := [⟨0, .e, none, 0, false, false, none⟩] }
    let at_ (o : OLine) : State := { aState (aHart .u) with mem := { MemSys.reset with lines := [o] }, coh := [y] }
    let s := at_ o
    let bad := fieldFrom 1 0 (leWords (aLine 5 0).data)
    s.cell.serving = some ⟨1, 0, 0, 0⟩ ∧ s.launchOf s.cell = some aLaunch ∧ s.hart.req = .idle ∧ (s.hart.S 1).toNat % 128 = 0 ∧ s.asid ≠ 0 ∧
    s.line? ⟨s.asid, s.gen s.asid, (s.hart.S 1).toNat / 128⟩ = some o ∧ o.perm.allows s.hart.level .load = true ∧ o.data.length = 128 ∧
    (s.cohLine o.key).readable (dieOf s.cell.no) = true ∧ bad.inRange aLaunch = false ∧
    (fieldFrom 1 0 (leWords fieldLine)).inRange { aLaunch with desc := aLaunch.desc.set 9 (2 ^ 16) } = true ∧
    subgroupLegal 0 0 0 = true ∧ subgroupLegal 0 0 1 = false := by decide

theorem witness_SiteInstructions : let s := { aState (withRegs (aHart .u) 0 1 0) with fields := [{ aField .sweeping with phase := 1 }] }
    let t := { aState { withRegs (aHart .u) 2 1 0 with st := .wait .data, hand := some ⟨1, 0, 0, 3, none⟩ } with fields := [aField .sweeping] }
    s.cur = .cell 0 ∧ InView s [3, 1, 2] [] ∧ s.hart.req = .idle ∧ s.myField (s.hart.S 1) = some { aField .sweeping with phase := 1 } ∧
    s.myField (s.hart.S 2) = none ∧ (s.hart.S 2).toNat ≤ 1 ∧ (aField .sweeping).phase < (s.hart.S 2).toNat ∧ (s.hart.S 2).toNat < (aField .sweeping).n ∧
    t.hart.st = .wait .data ∧ t.hart.hand = some ⟨1, 0, 0, 3, none⟩ ∧ t.field? 1 0 0 = some (aField .sweeping) ∧ (s.hart.S 1).toNat ≤ (aField .sweeping).nblk ∧
    (aField .sweeping).replayed = false ∧ (aField .sweeping).size = 1 ∧ (aField .sweeping).legalValue ((t.hart.S 1).toNat % 2 ^ 8) = true ∧ t.acked = true ∧
    (aField .sweeping).snaps = [] := by decide

theorem witness_PoolInstructions : let s := aState (aHart .s)
    let t := aState { aHart .s with req := .answered 0 }
    let u := aState { aHart .s with req := .sent }
    let v : State := { s with cell := { s.cell with quota := 0x0101010109020101 } }
    let w : State := { s with cell := { s.cell with rediv := some ⟨1, 0, 0, 3, 1, .handshake, 0, [14], []⟩ } }
    s.cur = .cell 0 ∧ InView s [3] [] ∧ (0 : BitVec 3) ≠ 3 ∧ (1 : BitVec 5) ≠ 0 ∧ t.hart.req = .answered 0 ∧ u.hart.req = .sent ∧
    s.hart.req = .idle ∧ s.cell.rediv = none ∧ s.cell.redivQ = [] ∧ s.accept s.cell 0 3 1 ≠ 0 ∧ v.accept v.cell 0 2 1 = 0 ∧
    v.cell.placement 0 2 1 = none ∧ v.accept v.cell 0 3 1 = 0 ∧ v.cell.placement 0 3 1 = some ([14], []) ∧ w.cell.rediv ≠ none ∧
    (8 : BitVec 6).toNat ≤ 8 ∧ ¬ (9 : BitVec 6).toNat ≤ 8 := by decide

theorem witness_TranslationInstructions :
    let s := { aState (withRegs (aHart .s) (2 ^ 54 + 0x40000) 0x55 0) with mem := { MemSys.reset with lines := [aLine 0 (2 ^ 47 + 0x800)] } }
    let h : Hart := { withRegs (aHart .s) (2 ^ 54 + 0x40000) 0x55 0 with req := .sent }
    let t := aState { withRegs (aHart .s) 7 0 0 with again := true }
    let u := { t with mem := { t.mem with scrubs := [(7, 100)] } }
    s.cur = .cell 0 ∧ InView s [1, 2] [] ∧ Direct s.hart ∧ s.hart.level ≠ .u ∧ (s.hart.S 1).toNat % 8 = 0 ∧ 2 ^ 54 ≤ (s.hart.S 1).toNat ∧
    (s.hart.S 1).toNat < 2 ^ 54 + 2 ^ 52 ∧ h.req = .sent ∧ s.mem.ptStores = [] ∧
    (∃ p ∈ [(⟨0, 0x40000, [], [], some (hartNo 0 s.cell.slot), 0⟩ : PtStore)], p.owner = some (hartNo 0 s.cell.slot)) ∧ s.hart.req = .idle ∧
    s.acked = true ∧ s.line? ⟨0, 0, (s.hart.S 1).toNat / 128⟩ = some (aLine 0 (2 ^ 47 + 0x800)) ∧ (aLine 0 (2 ^ 47 + 0x800)).data.length = 128 ∧
    (s.cohLine ⟨0, 0, 2 ^ 47 + 0x800⟩).msgs = [] ∧ s.registered ((s.hart.S 1).toNat % 2 ^ 52 / 128) = false ∧ s.gen 0 = 0 ∧
    InView t [3, 1] [] ∧ Direct t.hart ∧ (t.hart.S 1).toNat < 2 ^ 12 ∧ (t.hart.S 1).toNat % 4096 ≠ 0 ∧ t.hart.again = true ∧
    (∃ p ∈ u.mem.scrubs, p.1 = 7) ∧ (∀ p ∈ t.mem.scrubs, p.1 ≠ 7) ∧ (∀ l ∈ t.mem.lines, l.key.asid = 7 → l.dirty = false) ∧ t.context 7 ≠ .wait ∧ t.entryDiffers 7 = false := by decide

theorem witness_FirmwareInstructions : let s := { aState (aHart .u) with cur := .core 0, cores := [(0, withRegs { Hart.core 0x1000 with again := true } 0x101 0x30000 0)] }
    s.hart.level = .f ∧ InView s [3, 1, 2] [] ∧ s.hart.again = true ∧ (s.hart.S 1).toNat % 128 ≠ 0 ∧ fsvcOk (s.hart.S 1) (s.hart.S 2) = true ∧
    fieldOf (s.hart.S 1) 0 2 ≠ 0 ∧ fieldOf (0x100 : Word) 0 2 = 0 ∧ fsvcOk 0x100 0 = true ∧ fsvcOk 0x104 0 = false := by decide

/-- The only launch's nodes bound what a ready pool holds. -/
theorem poolUsed_le {s : State} {l : Launch} (h : s.launches = [l]) (e : Nat) : s.poolUsed e ≤ l.nodes.length := by
  simp only [State.poolUsed, h, List.filter_cons, List.filter_nil]
  split <;> simp [List.countP_le_length]

theorem witness_replay (e : Nat) : let s := { aState (aHart .u) with mem := { MemSys.reset with waitList := [⟨0, 1, 0, 5, 9⟩] } }
    (s.mem.waitList.filter fun q => q.die == 0 && q.asid == 5 && q.page == 9).length ≤ 1 ∧ s.poolUsed e < 4096 :=
  ⟨by decide, Nat.lt_of_le_of_lt (poolUsed_le rfl e) (by decide)⟩

/-- Tables that give ASID 5 the first 512 MiB, with every right, and nothing after them. -/
def tables : Mem :=
  Mem.write (Mem.write (Mem.write [] 160 (leBytes 8 0x10001 ++ leBytes 8 1)) 0x10000 (leBytes 8 0x20001)) 0x20000 (leBytes 8 0x3F)

/-- A descriptor of one team of one cell, its team entry at 0x40000 and 256 bytes of window for its one hart. -/
def aDesc : List Word :=
  [2 ^ 16 + 5 * 2 ^ 48, 0, 0, 0, 0, 0, 1, 0, 0, 1 + 2 ^ 16 + 16 * 2 ^ 32, 0, 0, 0x0001000000010100, 0x0001000000010100, 2 ^ 54 + 0x40000, 0]

/-- Tables, the descriptor of a launch at 0x50000, one of another kind at 0x51000, and one that is refused at 0x52000. -/
def descs : Mem :=
  let at_ (m : Mem) (a : Nat) (ws : List Word) : Mem := Mem.write m a (ws.flatMap fun w => leBytes 8 w.toNat)
  at_ (at_ (at_ tables 0x50000 aDesc) 0x51000 (1 :: List.replicate 15 0)) 0x52000 (aDesc.set 6 0)

/-- A core whose `launch` has an address of window A. -/
def launcher (pa : Nat) : State :=
  { State.reset with cur := .core 0, cores := [(0, { withRegs (Hart.core 0x1000) (BitVec.ofNat 64 (2 ^ 54 + pa)) 0 0 with again := true })],
                     mem := { MemSys.reset with phys := descs } }

theorem witness_launcher : let read (pa : Nat) := (launcher pa).readWords 54 0 .f (2 ^ 54 + pa) 16
    let u (pa : Nat) := (read pa).2
    let tb : Tables := ⟨[[0, 0, 0, 0]], [[]], [], []⟩
    (launcher 0x50000).hart.level ≠ .u ∧ InView (launcher 0x50000) [3, 1] [] ∧ ((launcher 0x50000).hart.S 1).toNat = 2 ^ 54 + 0x50000 ∧
    (2 ^ 54 + 0x50000) % 128 = 0 ∧ (read 0x50000).1 = .ok aDesc ∧ dField aDesc 0 0 2 = 0 ∧ ((u 0x50000).readTables aDesc).1 = .ok tb ∧
    ((u 0x50000).readTables aDesc).2.launchCode aDesc tb = 0 ∧ ((u 0x50000).readTables aDesc).2.freeId = some 1 ∧
    (((u 0x50000).readTables aDesc).2.firstNodes (dField aDesc 0 42 6) (dField aDesc 0 48 12) (aDesc.getD 5 0).toNat
      (List.range (dField aDesc 6 32 32)) []).1 = [] := by decide

theorem witness_launcher_others : let read (pa : Nat) := (launcher pa).readWords 54 0 .f (2 ^ 54 + pa) 16
    let ws := 1 :: List.replicate 15 0
    let vs := aDesc.set 6 0
    (read 0x51000).1 = .ok ws ∧ dField ws 0 0 2 ≠ 0 ∧ ((read 0x51000).2.serveLaunch ws).isSome = true ∧ (read 0x52000).1 = .ok vs ∧
    dField vs 0 0 2 = 0 ∧ (match ((read 0x52000).2.readTables vs) with
      | (.ok tb, s) => s.launchCode vs tb != 0
      | _ => false) = true := by decide

/-! Steps of harts, the graph engine and the Chucks. -/

theorem witness_HartEvents : let s := aState (aHart .u)
    let f := missing { aHart .u with st := .wait .fetch, asks := [7] } (aMiss .fetch 0 20 (.come 0 aGot))
    let m := aMiss .fetch 0 20 .ask
    let d := aState { aHart .u with st := .wait .data, winstr := some (.ld .x64 3 ⟨1, none, 0⟩) }
    let q := aState { aHart .s with ts := { (aHart .s).ts with stat := 1, ip := 4 } }
    let e := { aState { withRegs (aHart .u) 0x100 0 0 with st := .wait .fullEmpty, since := some 0, winstr := some (.ldfeK false 3 1 0) } with tbase := 1000000 }
    let w := fullAt { aState { withRegs (aHart .u) 0x100 0 0 with st := .wait .fullEmpty, since := some 0, winstr := some (.stfe false 3 1 0) } with tbase := 1000000 } 0x100
    let g : Field := { aField .sweeping with desc := (aField .sweeping).desc.set 11 (2 ^ 32) }
    let r := { aState { aHart .u with hand := some ⟨1, 0, 0, 3, some 0⟩ } with fields := [g], tbase := 1 }
    let x := aState { withRegs (aHart .u) 0x100 0 0 with st := .wait .remote, winstr := some (.stfer false 3 1), req := .answered 0 }
    s.cur = .cell 0 ∧ s.active = true ∧ s.hart.st = .run ∧ s.hart.again = false ∧ s.hart.pc.toNat < 2 ^ 55 ∧
    s.cell.fetch s.asid (s.gen s.asid) s.hart.level s.hart.pc.toNat = none ∧ s.cell.codeLine? s.asid (s.gen s.asid) s.hart.level 0 = none ∧
    q.gangAt q.cell = false ∧ q.hart.st = .run ∧ q.hart.again = false ∧
    f.hart.st = .wait .fetch ∧ f.hart.asks = [7] ∧ f.hart.got = [] ∧ f.cell.storesCode 0 = false ∧ f.line? (f.missKey m) = some (aLine 5 0) ∧ aGot.fault = none ∧
    aGot.held = true ∧ f.hart.pc.toNat = 0 ∧ instrLen (aLine 5 0).data ≤ (aLine 5 0).data.length ∧
    m.asid ≠ 0 ∧ m.va < 2 ^ 55 ∧ f.line? ⟨5, f.gen 5, 0⟩ = some (aLine 5 0) ∧ (aLine 5 0).perm.allows m.level .fetch = true ∧
    d.hart.st = .wait .data ∧ d.hart.winstr = some (.ld .x64 3 ⟨1, none, 0⟩) ∧ d.active = true ∧
    q.active = true ∧ q.hart.takeable q.tbase = some (.s, 2) ∧ (q.hart.block .s).vec ≠ 0 ∧ (q.hart.block .u).ip.getLsbD 0 = false ∧
    0 + e.hart.fwl.toNat ≤ e.tbase ∧ e.cell.full (e.hart.offset 1 0).toNat = false ∧ w.cell.full (w.hart.offset 1 0).toNat = true ∧
    r.field? 1 0 0 = some g ∧ g.rlim ≠ 0 ∧ 0 + g.rlim ≤ r.tbase ∧ r.hart.vectored (r.hart.target 10) = some .u ∧
    x.net.remote = [] ∧ x.hart.req = .answered 0 ∧ x.hart.since = none := by decide

/-- A miss whose page's stack refreshes itself waits. -/
theorem witness_held : let s : State := { missing (aHart .u) (aMiss .fetch 0x10000 20 .ask) with dies := [{ Die.reset 0 with refresh := true }] }
    (s.missPlace (aMiss .fetch 0x10000 20 .ask)).1 = .wait := by decide

theorem witness_waits : let w (c : WaitCause) (i : Instr) (h : Hart) : State := aState { h with st := .wait c, winstr := some i }
    let h := withRegs (aHart .u) 0x78 8 0
    let b := w .barrier (.bwait false 3 1 2) { h with woken := true }
    let t := w .teamBarrier (.tbar false 3 1 2) { h with woken := true }
    let f := w .boundary (.fwaitb false 3 1 2) { h with req := .answered 1 }
    let r := w .remote (.stfer false 3 1) { h with req := .answered 1 }
    let e := fullAt (w .fullEmpty (.ldfeK false 3 1 0) h) 0x78
    let d := w .data (.ld .x64 3 ⟨1, none, 0⟩) { h with got := [aGot] }
    (∀ s ∈ [w .sleep (.sleep 0) h, w .wfi .wfi { h with ts := { h.ts with ip := 4 } }, b, t, f, r, e, d], s.active = true) ∧
    (w .sleep (.sleep 0) h).hart.S 0 = 0 ∧ (w .wfi .wfi { h with ts := { h.ts with ip := 4 } }).hart.anyPending 0 = true ∧ b.hart.woken = true ∧
    b.hart.check = .idle ∧ t.hart.woken = true ∧ f.hart.req = .answered 1 ∧ InView f [3, 1, 2] [] ∧ r.hart.req = .answered 1 ∧ InView e [3, 1] [] ∧
    (e.hart.offset 1 0).toNat % 8 = 0 ∧ (e.hart.offset 1 0).toNat + 8 ≤ e.cell.localSize ∧ e.hart.check = .idle ∧
    fullBit e.cell (e.hart.offset 1 0).toNat = true ∧ Came d (d.hart.address ⟨1, none, 0⟩) 8 aGot := by decide

theorem witness_remote_stores : let s := aState (withRegs (aHart .u) 0x100 0 0)
    let at_ (dest tx : Nat) : RemoteFe := ⟨3, 0, s.cell.slot, 1, 0, tx, 0, dest, 0x100, 9, false, none⟩
    let t (r : RemoteFe) : State := { s with net := { s.net with remote := [r] } }
    let out : State := { t (at_ 0 0) with launches := [{ aLaunch with teams := [{ aTeam with placed := false, image := [s.cell] }] }] }
    let far : State := { s with launches := [{ aLaunch with lw := 1 }] }
    (t (at_ 0 0)).net.remote = [at_ 0 0] ∧ (at_ 0 0).travel = false ∧ (at_ 0 0).cell = 0 ∧ (at_ 0 0).slot = s.cell.slot ∧
    (t (at_ 0 0)).remoteTarget (at_ 0 0) = some 0 ∧ s.cell.bankFree 0x100 = true ∧ 0x100 % 8 = 0 ∧ 0x100 + 8 ≤ s.cell.localSize ∧ fullBit s.cell 0x100 = false ∧
    fullBit (fullAt s 0x100).cell 0x100 = true ∧ (fullAt (t (at_ 0 0)) 0x100).remoteTarget (at_ 0 0) = some 0 ∧ s.cell.localSize < 0x8000 + 8 ∧
    (t (at_ 1 0)).remoteTarget (at_ 1 0) = some 0 ∧ out.remoteTarget (at_ 0 0) = none ∧ (out.team? 1 0).isSome = true ∧
    ({ t (at_ 0 0) with launches := [] } : State).remoteTarget (at_ 0 0) = none ∧ ({ t (at_ 0 0) with launches := [] } : State).team? 1 0 = none ∧
    s.teamCell 1 0 (peerRef (s.hart.S 1)).tx (peerRef (s.hart.S 1)).ty = some 0 ∧ far.teamCell 1 0 1 0 = some 1 ∧ s.teamCell 1 0 1 0 = none := by decide

/-- The launch with other nodes, whose ring of four records begins at 0x40 and whose capacity is 2. -/
def ringed (ns : List Node) : Launch :=
  { aLaunch with desc := ((List.replicate 16 0).set 6 2 |>.set 9 (4 * 2 ^ 32) |>.set 11 0x40), nodes := ns }

/-- The module with such a launch. -/
def launching (h : Hart) (l : Launch) : State := { aState h with launches := [l] }

theorem witness_GraphEvents : let ready : Node := { aNode with st := .ready 5 none }
    let p := launching { aHart .u with st := .park false } (ringed [ready])
    let k : State := launching { aHart .u with st := .park false, chosen := some (aTask true) } (ringed [aNode])
    let rec1 : TaskRecord := ⟨0, 1, 0, 1, false, 0, 0, 0, 0, 0, none⟩
    let r := launching (aHart .u) { ringed [aNode] with heldRecs := [rec1] }
    let o : OLine := aLine 5 0
    let e := launching { aHart .u with task := some { aTask true with ending := some (.failed 3 4) } } (ringed [aNode])
    let f := launching { aHart .u with task := some { aTask true with ending := some (.parkOn 9) } } (ringed [aNode])
    p.launches = [ringed [ready]] ∧ (ringed [ready]).gangWait = false ∧ (ringed [ready]).unresolved = [] ∧
    p.candidate (ringed [ready]) = some (ready, 0, 0) ∧ p.eligibleSlot (p.cellAt 0) = some 0 ∧
    (k.hartAt 0 0).chosen = some (aTask true) ∧ (aTask true).launch = (ringed [aNode]).id ∧ (ringed [aNode]).node? (aTask true).node = some aNode ∧
    (ringed [aNode]).ring.length < (ringed [aNode]).ringCap ∧ (ringed [aNode]).ringBase + 16 * (0 % 4) = 0x40 ∧ (ringed [aNode]).asid ≠ 0 ∧
    rec1.bytes.length = 16 ∧ r.line? ⟨5, r.gen 5, 0x40 / 128⟩ = some o ∧ o.perm.allows .s .store = true ∧ o.data.length = 128 ∧ (r.cohLine o.key).msgs = [] ∧
    (e.cellAt 0).taskIdle { aTask true with ending := some (.failed 3 4) } 0 = true ∧ (e.hartAt 0 0).stopped = false ∧
    (f.cellAt 0).taskIdle { aTask true with ending := some (.parkOn 9) } 0 = true ∧ (aTask true).attempt < 255 ∧ r.poolUsed 0 < 4096 ∧
    (∀ q ∈ [{ rec1 with kind := 2, page := some 9 }, { rec1 with kind := 2 }], TaskRecord.bytes q ≠ []) ∧ (aTask true).launch = 1 := by decide

theorem witness_launch_events : let ready : Node := { aNode with st := .ready 5 none }
    let u : Team := { aTeam with starve := some 0 }
    let s : State := { launching { aHart .u with st := .wait .barrier } { ringed [ready] with teams := [u] } with tbase := 10000 }
    let d := launching { aHart .u with st := .park false } (ringed [{ aNode with st := .done }])
    let g := launching (aHart .u) { ringed [aNode] with gangWait := true }
    let w := launching { aHart .u with req := .sent, winstr := some (.tspawn 3 1), task := some (aTask true) } (ringed [aNode])
    let full : Launch := { ringed [aNode] with next := 2 }
    let tb : Cell := { aCell { aHart .u with st := .wait .teamBarrier, winstr := some (.tbar false 3 1 2) } with tbars := [⟨0, 3, 3⟩] }
    let b : State := { launching (aHart .u) (ringed [aNode]) with cell := tb }
    ({ ringed [ready] with teams := [u] } : Launch).team? 0 = some u ∧ 0 + 10000 ≤ s.tbase ∧ s.starving { ringed [ready] with teams := [u] } u = true ∧
    d.idleLaunch (ringed [{ aNode with st := .done }]) = true ∧ (ringed [aNode]).drained = false ∧ (ringed [aNode]).start ≤ g.tbase ∧
    w.spawner 1 = some (0, 0) ∧ full.capacity ≤ full.next ∧ (ringed [aNode]).next < (ringed [aNode]).capacity ∧ (w.hartAt 0 0).task = some (aTask true) ∧
    (aTask true).replay = true ∧ b.groupCells 1 0 0 = [0] ∧ (b.cellAt 0).arrived 0 = true ∧ (b.cellAt 0).released 0 = true ∧ (b.groupCells 1 0 0).Nodup ∧ ((b.cellAt 0).tbars.head?.map (·.mask.getLsbD 1)) = some true ∧
    (b.hartAt 0 1).tbarWord = some 0 ∧ (s.hartAt 0 1).tbarWord ≠ some 0 := by decide
/-! Engines and the pool. -/

/-- Two cells of one team, side by side. -/
def pair (h : Hart) : State :=
  { aState h with launches := [{ aLaunch with lw := 1 }], others := [(1, { aCell h with no := 1, serving := some ⟨1, 0, 1, 0⟩ })] }

theorem notAwaited {c : Cell} (h : ∀ k, (c.hart k).awaits = none) (x : Nat) : ¬ Awaited c x := fun ⟨k, _, _, e, _⟩ => by simp [h k] at e

theorem witness_EngineEvents : let s := pair (aHart .u)
    let q (op : MatOp) (start : Option Nat) : MatCmd := ⟨0, op, 0, start, false, 0, false, 0, [], [], [], 0⟩
    let on (f : Cell → Cell) : State := { s with cell := f { s.cell with cycle := 5000 } }
    let e (f : Cell → Cell) : Cell := (on f).cellAt 0
    let k : Credit := ⟨10, 0x100, 32, false, none⟩
    let tile : List Word := [0, 0x10, 0x200, 64 + 2 ^ 32 + 2 ^ 48, 0, 0, 0, 0]
    let st : StFmt := ⟨false, true, true, 3⟩
    (∀ k, ((s.cellAt 0).hart k).awaits = none) ∧ (∀ k, ((s.cellAt 1).hart k).awaits = none) ∧
    (e id).cfree ≤ 5000 ∧
    (∀ op ∈ [MatOp.mswp, .mfmt 0x2424, .mstr 0x100 0 0x100 1, .mlds 0x100 0], (q op none).start = none ∧
      (q op none).entered < (e fun c => { c with mq := [q op none] }).cycle ∧ (e id).mfree ≤ (e id).cycle ∧ (e id).follows 0 [] 0 = true) ∧
    (q .mswp (some 9)).lastCycle 9 < 5000 ∧ (s.cellAt 0).mwait = [] ∧ (s.cellAt 0).cwait = [] ∧ k.cmd = none ∧ k.cycle < 5000 ∧
    k.obj + 16 ≤ (s.cellAt 0).localSize ∧ (s.cellAt 0).rediv = none ∧ ({ aCopy (.tile tile 0) with started := false } : CopyCmd).entered < 5000 ∧
    (aCopy (.tile tile 0)).portTo < 5000 ∧ (aCopy (.tile tile 0)).after = [] ∧ (aCopy (.tile tile 0)).upto = 0 ∧ (aCopy (.tile tile 0)).asid ≠ 0 ∧
    (aCopy (.tile tile 0)).run < (tileOf tile).n1 * (tileOf tile).n2 ∧ (tileOf tile).kind = 0 ∧
    (let p := (aCopy (.tile tile 0)).piece (tileOf tile)
     p.1 % 128 + p.2.2 ≤ 128 ∧ 1 ≤ p.2.2) ∧
    (aCopy (.pack st true 0 0x200 1)).run < 1 ∧ (aCopy (.pack st true 0 0x200 1)).portTo < 5000 := by decide

theorem witness_copyAnswer : let m := aMiss .pieceOut 0x40 32 (.come 0 aGot)
    let p : Push := { aPush (.asked [7]) with cmd := 3 }
    let q := aCopy (.tile [1] 0)
    let s := missing (aHart .u) m
    let e : Cell := { s.cell with pushes := [p], cq := [q] }
    e.pushes = [p] ∧ p.state = .asked [m.id] ∧ (e.cq.find? fun x => x.id == p.cmd) = some q ∧ s.mem.misses = [m] ∧ aGot.fault = none ∧
    ({ aGot with fault := some .page } : Got).fault = some .page ∧ m.kind = .pieceOut ∧ m.asid ≠ 0 ∧ m.va < 2 ^ 55 ∧ m.va % 128 + m.size ≤ 128 ∧
    p.bytes.length = m.size ∧ s.line? ⟨5, s.gen 5, m.va / 128⟩ = some (aLine 5 0) ∧ (aLine 5 0).perm.allows m.level .store = true ∧
    Settled s (aLine 5 0).key ∧ Ownable s (dieOf 0) (aLine 5 0).key ∧ (aMiss .pieceIn 0x40 25 (.come 0 aGot)).size = 25 := by decide

/-- A push of two granules. -/
def longPush (st : Flight) : Push := { aPush st with size := 64, bytes := List.replicate 64 9 }

theorem witness_pushes : let s := pair (aHart .u)
    let own (p : Push) : State := { s with cell := { s.cell with pushes := [p] } }
    let ready (c : Cell) (p : Push) : Prop := p.fault = none ∧ p.obj % 16 = 0 ∧ p.obj + 16 ≤ c.localSize ∧ p.ready ≤ c.cycle ∧ p.ready < c.cycle + 1
    let writes (c : Cell) (p : Push) : Prop := p.sb = [] ∧ c.takesPiece p = true ∧ c.takesPush p = true ∧
      c.bankFree (granuleAt p.off p.bytes.length p.wrote).1 = true ∧ p.wrote < granules p.off p.bytes.length ∧ p.obj + 16 ≤ p.off ∧ p.robj + 16 ≤ p.off
    (∀ b, ready (s.cellAt 0) (aPush (.done b))) ∧ ready (s.cellAt 0) (aPush .own) ∧ writes (s.cellAt 0) (aPush .own) ∧ writes (s.cellAt 0) (longPush .own) ∧
    (aPush .own).lastWrite = true ∧ (longPush .own).lastWrite = false ∧ (own (aPush .peer)).pushFor 1 = some (0, aPush .peer) ∧
    (own (longPush .peer)).pushFor 1 = some (0, longPush .peer) ∧ writes (s.cellAt 1) (aPush .peer) ∧ writes (s.cellAt 1) (longPush .peer) ∧
    ((own (aPush (.done false))).cellAt 0).pushes = [aPush (.done false)] ∧ ({ aPush .peer with serving := none } : Push).cell ≠ 0 ∧
    (let u := aState { aHart .u with engErr := [(.page, 0x10000)] }
     u.cur = .cell 0 ∧ u.active = true ∧ u.attempting 0 u.cell.slot = false ∧ u.hart.takesFaults = true ∧ Direct u.hart ∧ Cause.page ≠ .fieldRoutine ∧ u.hart.vectored (u.hart.target 9) = some .u) := by decide

theorem witness_PoolEvents : let s := aState { aHart .s with req := .sent, winstr := some (.pool 3 0 3 1) }
    let r (src : Nat) (ph : RedivPhase) : Rediv := ⟨0, 0, src, 3, 1, ph, 0, [14], []⟩
    let e (src : Nat) (ph : RedivPhase) (f : Cell → Cell) : State := { s with cell := f { s.cell with rediv := some (r src ph), cycle := 9008 } }
    (s.cell.hart 0).asksPool 0 = true ∧
    (e 0 .handshake id).cell.shrinkDrained (r 0 .handshake) = true ∧ (r 0 .handshake).moves = [] ∧ ({ r 0 .handshake with moves := [(1, 2)] } : Rediv).moves ≠ [] ∧
    (e 5 .handshake fun c => { c with mq := [⟨0, .mswp, 0, none, false, 0, false, 0, [], [], [], 0⟩] }).cell.mq ≠ [] ∧
    (r 5 .handshake).began + 8192 < (e 5 .handshake id).cell.cycle ∧ (e 5 .handshake id).cell.redivQ = [] ∧
    (∀ q ∈ (e 3 (.relocate 0) id).cell.cq, q.started = false) ∧ (e 3 (.relocate 0) id).cell.moveFree (r 3 (.relocate 0)) 0 = true ∧ (e 0 .switch id).cell.cycle % 16 = 0 ∧ (r 0 .switch).began < (e 0 .switch id).cell.cycle ∧
    (e 0 .switch id).accept (e 0 .switch id).cell 0 3 1 ≠ 0 ∧
    (let w := e 0 .switch fun c => { c with quota := 0x0101010109010101, nres := 2 }
     w.accept w.cell 0 3 1 = 0) ∧ (r 0 .switch).take.Nodup ∧ (∀ b ∈ (r 0 .switch).take, b < 32) ∧
    ({ s.cell with newDiv := some 2 } : Cell).newDiv ≠ none ∧ ({ s.cell with notice := true } : Cell).notice = true ∧
    (let c : Cell := { s.cell with scap := 1 }
     s.capDiffers c = true ∧ (s.removedSlots c).getLsbD 1 = true ∧ 1 < c.nres ∧ (c.hart 1).paused = false) := by decide

/-- The record of one line. -/
def aCoh (st : DirState) (owner : Nat) (d : Option DieState) (msgs : List CohMsg) : CohLine :=
  { CohLine.reset ⟨5, 0, 0⟩ with st := st, owner := owner, msgs := msgs.map fun m => ⟨m, some 0, some ⟨0, 0, 0, some 0⟩⟩, dies := (d.map fun x => ⟨0, x, none, 0, false, false, none⟩).toList }

/-- The module that has that record. -/
def inFlight (x : CohLine) : State := { aState (aHart .u) with coh := [x] }

/-- No request waits at the line's home, and it is not busy. -/
abbrev Unasked (x : CohLine) : Prop := (inFlight x).cohLine ⟨5, 0, 0⟩ = x ∧ x.busy = none ∧ (x.said = [] ∨ x.said = [.wbAck 3])

/-- One line leaves room in every miss table. -/
theorem notFull (x : CohLine) (d : Nat) (k : LineKey) : (inFlight x).missFull d k = false := by
  have h : ((inFlight x).openLines d ((inFlight x).homeSlice k)).length ≤ 1 := by
    refine le_trans (List.dedup_sublist _).length_le (le_trans (List.length_filter_le _ _) ?_)
    have h0 : (inFlight x).coh = [x] := rfl
    have h1 : (inFlight x).mem.misses = [] := rfl
    rw [h0, h1]; cases hm : x.missing d <;> simp [hm]
  simp only [State.missFull, Bool.and_eq_false_imp, decide_eq_true_eq]; omega

/-- A line that asks for no place and leaves no die takes no eviction entry. -/
theorem notBusy (x : CohLine) (d h e : Nat) (p : x.places = []) (m : x.msgs = []) (v : x.evicting d = false) : (inFlight x).entryBusy d h e = false := by
  simp [State.entryBusy, State.entriesUsed, inFlight, CohLine.holds, p, m, v]

theorem witness_CoherenceEvents :
    (∀ st ∈ [DirState.i, .s, .o, .x], Unasked (aCoh st 3 none [.wbAck 3]) ∧ (aCoh st 3 none [.wbAck 3]).dieState 0 = .i) ∧
    (let x : CohLine := { aCoh .s 0 (some .s) [] with sharers := 9 }
     Unasked x ∧ x.dieState 0 = .s ∧ x.sharer 0 = true ∧ x.others 0 = [3]) ∧
    (∀ d ∈ [DieState.m, .e], (aCoh .x 0 (some d) [.fwdGets 0 3]).dieState 0 = d) ∧ (aCoh .o 0 (some .o) [.fwdGetm 0 3]).dieState 0 = .o ∧
    (aCoh .x 3 (some .s) [.inval 0 3]).dieState 0 = .s ∧
    ((aCoh .s 0 (some .isD) [.data 0 false]).dieState 0 = .isD ∧ CohMsg.data 0 true ∉ ([] : List CohMsg) ∧
      ((aCoh .s 0 (some .isD) [.data 0 false]).die 0).once = false) ∧
    ((aCoh .x 0 (some .smAd) [.ackCount 0 0]).dieState 0 = .smAd ∧ ((aCoh .x 0 (some .smAd) [.ackCount 0 0]).die 0).acks = 0) ∧
    (let x : CohLine := { aCoh .x 0 none [.invAck 0] with dies := [⟨0, .imA, some 2, 1, true, false, none⟩] }
     x.said = [.invAck 0] ∧ x.dieState 0 = .imA ∧ (x.die 0).count = some ((x.die 0).acks + 1)) ∧
    ((aCoh .x 0 (some .e) []).dieState 0 = .e ∧ CohMsg.pute 0 ∉ (aCoh .x 0 (some .e) []).said) ∧ (aCoh .x 0 none [.pute 0]).said = [.pute 0] ∧
    (aCoh .x 0 none [.pute 0]).busy = none ∧ (aCoh .x 3 none [.writeBack 0]).owner ≠ 0 ∧ (aCoh .x 3 none [.unblock 0]).said = [.unblock 0] ∧
    (let w : LineKey := windowKey (2 ^ 36)
     let x (d : DieState) : CohLine := { aCoh .x 0 (some d) [] with key := w }
     let s (d : DieState) : State := { aState (aHart .u) with coh := [x d] }
     ∀ d ∈ [DieState.m, .o], (s d).cohLine w = x d ∧ (s d).lineHome w.asid (w.line * 128) ≠ 0 ∧ (x d).dieState 0 = d ∧
       (x d).places = [] ∧ (x d).msgs = [] ∧ (x d).evicting 0 = false) ∧
    (let w : LineKey := windowKey 0x40000
     let o : OLine := { aLine 0 0 with key := w, dirty := true }
     let s : State := { aState (aHart .u) with mem := { MemSys.reset with lines := [o] }, coh := [{ aCoh .x 0 none [.writeBack 0] with key := w }] }
     s.cohLine w = { aCoh .x 0 none [.writeBack 0] with key := w } ∧ s.line? w = some o ∧ o.dirty = true ∧ o.data.length = 128 ∧
     s.wbTarget o = some (0x40000, false) ∧ inStack 0x40000 = true ∧ s.failed (dieOfPa 0x40000) = false) := by decide

theorem witness_requests : let x := aCoh .i 3 none [.gets 0]
    let y : CohLine := { x with msgs := [⟨.gets 0, some 0, some ⟨0, 0, 0, none⟩⟩] }
    let once : CohLine := { aCoh .s 0 none [.data 0 false] with dies := [⟨0, .isD, none, 0, false, true, some (zeros 128, zeros 4)⟩] }
    let m := aMiss (.load false) 0x40 8 .ask
    let t : State := { missing (aHart .u) m with coh := [once] }
    (inFlight x).net.closed = [] ∧ (∀ y ∈ (inFlight x).coh, y.key = ⟨5, 0, 0⟩ → ∀ m ∈ y.msgs, (inFlight x).stale m = false) ∧
    (inFlight x).cohLine ⟨5, 0, 0⟩ = x ∧ (inFlight y).cohLine ⟨5, 0, 0⟩ = y ∧ (∀ m ∈ x.msgs, m.msg = .gets 0 ∧ m.acts (inFlight x).instant = true) ∧
    x.msgs.length = 1 ∧ x.busy = none ∧ (∀ m ∈ y.msgs, m.msg = .gets 0 ∧ m.acts (inFlight y).instant = false) ∧ y.msgs.length = 1 ∧
    t.cohLine ⟨5, 0, 0⟩ = once ∧ once.said = [.data 0 false] ∧ (∀ m ∈ once.msgs, m.acts t.instant = true) ∧ once.dieState 0 = .isD ∧
    (once.die 0).once = true ∧ (once.die 0).seen = some (zeros 128, zeros 4) ∧ t.line? ⟨5, 0, 0⟩ = some (aLine 5 0) ∧ t.mem.misses = [m] ∧
    m.agent = .cell 0 ∧ (t.hartAt 0 m.slot).pending = [] ∧ m.die = 0 ∧ m.phase = .ask ∧ m.kind = .load false ∧ t.missKey m = ⟨5, 0, 0⟩ := by decide

theorem witness_pute (h : Nat) : let x (ps : List (Nat × Nat × Nat)) : CohLine := { aCoh .x 0 (some .e) [] with places := ps }
    let s (ps : List (Nat × Nat × Nat)) := inFlight (x ps)
    (s []).entryBusy 0 h 0 = false ∧ (s [(0, h, 0)]).entryBusy 0 h 0 = true ∧ (s [(0, h, 0)]).entryBusy 0 h 1 = false ∧
    (s [(0, h, 0), (0, h, 1)]).entryBusy 0 h 1 = true := by
  have used (y : CohLine) : ((inFlight y).entriesUsed 0 h) ≤ 1 := List.length_filter_le _ _
  have one (y : CohLine) : decide (2 ≤ (inFlight y).entriesUsed 0 h) = false := by have := used y; simp; omega
  refine ⟨?_, ?_, ?_, ?_⟩ <;> simp [State.entryBusy, one] <;> simp [inFlight, CohLine.holds, aCoh]

theorem witness_placeGrant (d h : Nat) : let x : CohLine := { aCoh .x 0 (some .miA) [] with places := [(0, 1, 0)] }
    (inFlight x).coh = [x] ∧ x.places = [(0, 1, 0)] ∧ (inFlight x).placesUsed d h < 32 := by
  refine ⟨rfl, rfl, ?_⟩
  simp only [State.placesUsed, inFlight, List.filter_cons, List.filter_nil]
  split <;> simp [aCoh]

theorem witness_TranslationEvents : let s : State := { aState (aHart .u) with mem := { MemSys.reset with phys := tables, lines := [aLine 5 0] } }
    s.dieSet 5 ≠ 0 ∧ s.draining 5 0 = false ∧ s.entry? 5 0 = none ∧ s.mem.marks = [] ∧ s.walk 5 0 = .ok (0x3F, 0, [0x200, 0x400]) ∧
    s.walk 5 8192 = .page 0x400 2 ∧ s.entry? 5 8192 = none ∧ ((s.launchOf (s.cellAt 0)).map (·.asid)).getD 0 = 5 ∧ 2 ^ 29 / 65536 = 8192 ∧ (s.unit (dieOf 0)).recs = [] ∧
    (∃ p ∈ ({ s.mem with scrubs := [(5, 1)] } : MemSys).scrubs, p.1 = 5) := by decide

theorem witness_page_stores : let l : OLine := { aLine 0 0 with key := windowKey 0x40000, data := zeros 128 }
    let p (k : Nat) : PtStore := ⟨k, 0x40000, zeros 8, [], none, 0⟩
    let s (k : Nat) (rs : List PtReg) : State :=
      { aState (aHart .u) with mem := { MemSys.reset with phys := tables, lines := [l], ptStores := [p k], ptRegs := rs } }
    (∀ k ∈ [0, 1], (p k).bytes.length = 8 ∧ (p k).pa < 2 ^ 52 ∧ (p k).pa % 8 = 0 ∧ (s k []).line? (windowKey (p k).pa) = some l ∧ l.data.length = 128 ∧
      (s k []).gen 0 = 0 ∧ Settled (s k []) l.key ∧ Ownable (s k []) (dieOfPa (p k).pa) l.key) ∧ (s 0 []).drained (p 0) = true ∧
    ((s 0 []).ptPlan (p 0)).1 = 0 ∧ (s 1 [⟨0x800, 5, 1, 3⟩]).ptPlan (p 1) = (1, [(5, 3, 1)]) ∧ (s 1 [⟨0x800, 5, 1, 3⟩]).drained (p 1) = true ∧
    (s 1 [⟨0x800, 5, 1, 3⟩]).drainStalled { p 1 with drain := [(5, 3, 1)] } = false ∧ (5 : Nat) ≠ 0 := by decide

theorem witness_checks : let m (k : MissKind) (ph : MissPhase) := aMiss k 0x40 8 ph
    let y : CohLine := { CohLine.reset ⟨5, 0, 0⟩ with st := .x, dies := [⟨0, .e, none, 0, false, false, none⟩] }
    let s (k : MissKind) : State := { missing (aHart .u) (m k .ask) with coh := [y] }
    let h : Hart := { aHart .u with check := .sent [(0x40, 8)], asks := [7] }
    let t : Task := { aTask true with checks := [0] }
    (∀ k ∈ [MissKind.check, .replay], (s k).cur = .cell 0 ∧ (s k).mem.misses = [m k .ask] ∧ (m k .ask).agent = .cell 0 ∧ (m k .ask).slot = (s k).cell.slot ∧
      (m k .ask).asid ≠ 0 ∧ (m k .ask).va < 2 ^ 55 ∧ (s k).line? ⟨5, (s k).gen 5, 0x40 / 128⟩ = some (aLine 5 0) ∧
      (aLine 5 0).perm.allows .u .store = true ∧ ((s k).cohLine (aLine 5 0).key).writable (dieOf 0) = true ∧ (m k .ask).words ≠ 0 ∧ (s k).cell.roomFor 4 ≠ 0) ∧
    (let c := missing h (m .check (.come 0 aGot))
     c.hart.check = .sent [(0x40, 8)] ∧ c.hart.asks = [7] ∧ c.hart.got = [] ∧ aGot.line = 0x40 / 128) ∧
    (let c := missing { aHart .u with task := some t } { m .replay (.come 0 aGot) with task := some (1, 0, 0) }
     c.hart.task = some t ∧ t.ending = none ∧ c.hart.attempt = some (1, 0, 0) ∧ 0x40 / 128 ∈ t.checks) := by decide

theorem witness_FieldEvents : let with' (f : Field) : State := { aState (aHart .u) with fields := [f] }
    let s := with' (aField .sweeping)
    let f := aField .sweeping
    let r : FieldReq := ⟨⟨0, 0, .u, 0x100⟩, 1, 0, 0, 0, .start, none⟩
    s.field? 1 0 0 = some f ∧ s.launch? 1 = some aLaunch ∧ r.answer = none ∧ (with' (aField .idle)).viewsHold (aField .idle) = true ∧
    (with' { aField .idle with nbrs := [] }).fieldCells f = [0] ∧ f.stops = false ∧ (aField .stopping).stops = true ∧ f.phase < 1 ∧ f.snaps.length < 2 ∧
    f.commit = none ∧ f.move = none ∧ s.clientServes r.client 1 0 = true ∧ s.fieldPlaced f = true ∧ s.moveRefused f aLaunch 0 = false ∧ s.moveRefused f aLaunch 3 = true ∧ (s.hartAt 0 0).req ≠ .sent ∧
    ({ aHart .u with req := .sent } : Hart).req = .sent ∧
    (let small : State := { aState { aHart .u with views := 0x1A } with fields := [aField .idle] }
     small.viewsHold (aField .idle) = false) := by decide

theorem witness_site_events : let f : Field := { aField .sweeping with todo := [1] }
    let h : Hart := { aHart .u with st := .park true }
    let s : State := { aState h with fields := [f] }
    let m : Field := { aField .idle with move := some ⟨0, 0, ⟨0, 0, .u, 0x100⟩⟩ }
    let cl : Client := ⟨0, 0, .u, 0x100⟩
    let g : Field := { aField .idle with snaps := [⟨0, 1, 0x40, cl, some [2]⟩] }
    let t : State := { aState (aHart .u) with fields := [g] }
    let e : Field := { aField .ending with stop := some cl }
    let u : State := { aState (aHart .u) with fields := [e] }
    s.cellField 0 = some f ∧ f.sweeps = true ∧ f.moving = false ∧ f.replayed = false ∧
    (f.todo.find? fun i => (s.fieldCells f).getD (f.siteHome i).1 0 == 0) = some 1 ∧ (s.cellAt 0).parkedSweep f.hsw = some 1 ∧
    (s.hartAt 0 1).sAddr 9 ≤ (s.hartAt 0 1).vAddr 0 ∧ (aField .sweeping).todo = [] ∧ (aField .sweeping).handed = [] ∧
    m.move = some ⟨0, 0, cl⟩ ∧ 0 ≤ m.phase ∧ m.snaps = [] ∧
    t.cellField 0 = some g ∧ (t.fieldCells g).getD (g.siteHome 2).1 0 = 0 ∧ (0x40 + 2 * g.size) % 2 ^ 64 < 2 ^ 55 ∧
    ((0x40 + 2 * g.size) % 2 ^ 64) % 128 + g.size ≤ 128 ∧ t.asidOf 1 = 5 ∧ t.line? ⟨5, t.gen 5, 0x42 / 128⟩ = some (aLine 5 0) ∧
    (aLine 5 0).perm.allows cl.level .store = true ∧ Settled t (aLine 5 0).key ∧ Ownable t (dieOf cl.cell) (aLine 5 0).key ∧
    t.clientServes cl 1 0 = true ∧ u.fieldPlaced e = true ∧ cl.obj % 16 = 0 ∧ cl.obj + 16 ≤ (t.cellAt cl.cell).localSize ∧
    u.field? 1 0 0 = some e ∧ e.st = .ending ∧ e.move = none ∧ e.snaps = [] ∧
    (∀ i, i < e.n → ((e.init + i * e.size) % 2 ^ 64) % 128 + e.size ≤ 128 ∧ (e.init + i * e.size) % 2 ^ 64 / 128 = 0) := by decide
/-- At a phase's end a hart of the team waits for the boundary that comes. -/
theorem witness_boundary : let f : Field := { aField .sweeping with commit := some 1 }
    let h : Hart := { withRegs (aHart .u) 0 1 0 with st := .wait .boundary, winstr := some (.fwaitb false 3 1 2) }
    let s : State := { aState h with fields := [f] }
    f.sweeps = true ∧ f.todo = [] ∧ f.handed = [] ∧ f.moving = false ∧ f.commit = some (f.phase + 1) ∧ (aField .sweeping).commit ≠ some 1 ∧
    s.liveCells f = [0] ∧ s.team? 1 0 = some aTeam ∧ aTeam.placed = true ∧ 0 ∈ s.teamCells 1 0 ∧ (s.hartAt 0 0).st = .wait .boundary ∧
    (s.hartAt 0 0).winstr = some (.fwaitb false 3 1 2) ∧ ((s.hartAt 0 0).S 1).toNat = f.handle ∧ (s.hartAt 0 0).req = .idle ∧
    ((s.hartAt 0 0).S 2).toNat ≤ f.phase + 1 := by decide

/-! Network, power, heat. -/

/-- A module whose network holds these buffers. -/
def netState (bs : List InBuf) : State := { State.reset with tbase := 100, net := { State.reset.net with bufs := bs } }

theorem witness_NetworkEvents : let p : Packet := ⟨2, .attempt, 16, some (1, 0), 0, 0, 4000, [4009]⟩
    let n := (entryOf p.src).1
    let i := (entryOf p.src).2
    let x : Held := ⟨p, 3, false⟩
    let b : InBuf := ⟨n, i, .req, [x], [], [], 0, 0⟩
    let w := netState [b]
    n < 4000 ∧ p.vc = .req ∧ ((netState [⟨n, i, .req, [], [x], [], 0, 0⟩]).net.buf n i .req).coming = [x] ∧ 3 ≤ w.instant ∧
    (State.reset.net.buf n i .req).coming = [] ∧ State.reset.netHere.room (State.reset.net.buf n i .req) p = true ∧ State.reset.current p = true ∧
    ((netState [⟨4009, 0, .req, [], [x], [], 0, 0⟩]).net.buf 4009 0 .req).coming = [x] ∧ 4000 ≤ 4009 ∧
    w.current { p with inc := 1 } = false ∧ w.net.bufs = [w.net.buf n i .req] ∧ w.net.buf n i .req = b ∧ b.queue = [x] ∧ b.leaving = [] ∧ b.age = 0 ∧
    3 + w.netTime n (grantDelay n i (packetOuts p n)) ≤ w.instant ∧ p.dsts = [4009] ∧ p.flits ≤ 6 ∧
    (let next := if isLast n (outputFor n p.src 4009) then (4009, 0) else beyond n (outputFor n p.src 4009)
     next ≠ (n, i)) ∧ (w.outPort n (outputFor n p.src 4009)).free ≤ w.instant := by decide

theorem witness_entering : let p : Packet := ⟨2, .attempt, 16, some (1, 0), 0, 0, 4000, [4009]⟩
    let e := entryOf p.src
    let s : State := { netState [] with net := { State.reset.net with sends := [(p, 5)] } }
    let full : InBuf := ⟨e.1, e.2, .req, List.replicate 16 ⟨p, 3, false⟩, [], [], 0, 0⟩
    (s.net.buf e.1 e.2 p.vc).coming = [] ∧ (s.net.sends.find? fun q => q.1 == p) = some (p, 5) ∧ s.netHere.mayEnter (p, 5) = true ∧
    s.netHere.linkTurn p = true ∧ full.coming = [] ∧ (netState [full]).netHere.room full p = false ∧
    (netState [⟨4009, 0, .req, [], [⟨{ p with inc := 1 }, 5, false⟩], [], 0, 0⟩]).current { p with inc := 1 } = false := by
  decide

theorem vft_top (d : Nat) : 90 ≤ vft d 170 := by unfold vft; split <;> omega

/-- A machine with one team on die 0, whose context table lies where nothing is. -/
def powered (x : Rail) : State :=
  { aState (aHart .u) with rails := [x], mem := { MemSys.reset with regs := [(ctxbAddr, 0xFFFFFFFFF0000)] } }

theorem witness_PowerEvents : let x : Rail := Rail.reset 0 0
    let s := powered x
    let y : Rail := { x with window := List.replicate 1024 true }
    let r : Word := 0x15AAA
    fieldOf (0 : Word) 0 8 < 84 ∧ 84 ≤ fieldOf r 0 8 ∧ 8 ≤ fieldOf r 8 7 ∧ fieldOf r 8 7 ≤ 90 ∧ 1 ≤ fieldOf r 16 5 ∧ fieldOf r 16 5 ≤ 16 ∧
    min (fieldOf r 0 8) 180 = 170 ∧ x.busy = false ∧ ({ x with busy := true } : Rail).until_ ≤ s.tbase ∧ x.want = none ∧ s.railListed 0 0 = true ∧
    1 ≤ fieldOf (0x100 : Word) 8 5 ∧ fieldOf (0x100 : Word) 8 5 ≤ 16 ∧ (0x104 : Word).getLsbD 2 = true ∧ (0x100 : Word).getLsbD 2 = false ∧
    (s.cellAt 0).serving.isSome = true ∧ (s.cellAt 1).serving = none ∧ s.dieServes 0 = true ∧ s.dieServes 1 = false ∧
    (∀ l ∈ s.launches, l.lead ≠ 1) ∧ (s.dieAt 0).tier = true ∧
    (({ s with dies := [{ Die.reset 0 with tier := false }] } : State).dieAt 0).tier = false ∧ (s.cellAt 0).on = true ∧ x.auto_ = true ∧ 1024 ≤ (y.window.filter id).length ∧ (x.window.filter id).length < 1024 ∧
    16384 ≤ ({ x with quiet := 16384 } : Rail).quiet ∧ s.tail.pcap < 3801 ∧ 100 * 3000 < 95 * s.tail.pcap ∧
    9 ≤ ({ s.tail with under := 9 } : Tailstock).under ∧ (s.dieAt 0).rails.die = 0 ∧ (s.dieAt 0).tier = true ∧ ¬ (60 < 54) := by decide

theorem witness_unlisted_rail : let s : State := { State.reset with dies := [Die.reset 0] }
    s.railListed 0 0 = false ∧ (s.dieAt 0).rails.die = 0 ∧ s.clampOf 0 0 = s.dieClamp 0 ∧ (s.dieAt 0).tier = true := by decide

theorem witness_die_off : (powered (Rail.reset 0 0)).inDieSets 1 = false := by decide

theorem witness_point : 84 ≤ 170 ∧ (∀ e : Nat, 90 ≤ vft e (min 170 180)) := ⟨by decide, fun e => vft_top e⟩

theorem witness_current_window : let x : Rail := { Rail.reset 0 0 with rthr := 0x640FFF }
    let s : State := { State.reset with tbase := 1000 }
    let y : Rail := { x with pend := some (2056, 0x1000, 0) }
    y.pend = some (2056, 0x1000, 0) ∧ 2056 ≤ (y.clkAt s.tbase).cycle ∧ (y.clkAt 100).cycle < 2056 ∧ fieldOf x.rthr 0 16 < 0x1000 ∧
    0xFF0 ≤ fieldOf x.rthr 0 16 ∧ fieldOf x.rthr 0 16 ≤ 0xFF0 + fieldOf x.rthr 16 16 ∧ 5 + fieldOf x.rthr 16 16 < fieldOf x.rthr 0 16 ∧
    x.pend = none ∧ (s.railAt 0 0).judged < s.windowAt 0 0 ∧ State.reset.windowAt 0 0 ≤ x.judged := by decide

/-- A die at a level, one of its sensors read. -/
def aDie (lvl : Nat) (raw : Int) : Die := { Die.reset 0 with lvl := lvl, sensors := [(0, ⟨raw, false, 0, []⟩)] }

/-- A machine with that die, long after. -/
def warm (h : Hart) (x : Die) : State := { aState h with dies := [x], tbase := 10000000000 }

theorem witness_HeatEvents : let precise : Hart := { aHart .u with task := some (aTask false) }
    (warm (aHart .u) (aDie 0 20)).dieAt 0 = aDie 0 20 ∧ (aDie 0 20).sensor? 0 = some ⟨20, false, 0, []⟩ ∧ (aDie 0 20).good (sensorNeighbours 0) = [] ∧
    (aDie 0 20).good (sensorNeighbours 1) ≠ [] ∧ ((aDie 0 110).tcrit : Int) ≤ (aDie 0 110).tnow ∧ ((aDie 0 100).twarn : Int) ≤ (aDie 0 100).tnow ∧
    (aDie 0 100).tnow < (aDie 0 100).tcrit ∧ (aDie 2 20).tnow < (aDie 2 20).tcrit ∧ (aDie 1 20).tnow < (aDie 1 20).twarn ∧
    0 + 1000000000 ≤ (warm (aHart .u) { aDie 2 20 with underC := some 0 }).tbase ∧
    (warm (aHart .u) (aDie 2 110)).teamsOn 0 = [(aLaunch, aTeam)] ∧ (warm (aHart .u) (aDie 2 110)).launch? 1 = some aLaunch ∧ aLaunch.team? 0 = some aTeam ∧
    aTeam.swap = none ∧ (aDie 2 110).tier = true ∧ (warm precise (aDie 2 110)).saveClass aLaunch aTeam = true ∧
    (warm (aHart .u) (aDie 2 110)).saveClass aLaunch aTeam = false ∧ (aDie 2 110).dropAt ≤ 10000000000 ∧
    (∀ n, n < 4 → ({ aDie 2 110 with drops := [(1, 0, n)] } : Die).dropped 1 0 = n) ∧
    ({ aDie 2 110 with saves := [(1, 0)] } : Die).saves ≠ [] ∧ (∃ p ∈ (aDie 2 120).sensors, 115 ≤ p.2.raw) ∧ (aDie 2 120).tripped = false ∧
    (warm (aHart .u) (aDie 2 120)).dieServes 0 = true ∧ (warm (aHart .u) (aDie 2 120)).head.decl = [] ∧
    (aTask false).replay = false ∧ (aTask true).replay = true := ⟨rfl, by decide⟩

theorem witness_readings : let x : Die := aDie 0 20
    let y : Die := { x with unjudged := [0], readAt := 5 }
    x.unjudged = [] ∧ ({ y with readAt := 10000000000 } : Die).readAt = (warm (aHart .u) y).tbase ∧ y.unjudged = [0] ∧ y.readAt < (warm (aHart .u) y).tbase ∧
    y.sensor? 0 = some ⟨20, false, 0, []⟩ ∧ x.sensors ≠ [] := by decide

theorem witness_warning : let x := aDie 1 100
    let s := warm (aHart .u) x
    s.dieAt 0 = x ∧ x.unjudged = [] ∧ x.level s.tbase = 1 ∧ x.tier = true ∧ s.teamsOn 0 = [(aLaunch, aTeam)] ∧ s.launch? 1 = some aLaunch ∧
    aLaunch.team? 0 = some aTeam ∧ aTeam.swap = none ∧ aTeam.save ≠ 0 ∧ (1, 0) ∉ x.saves := ⟨rfl, by decide⟩

theorem witness_joined_swap : let u : Team := { aTeam with swap := some { phase := .waitFields, kind := .out, since := 0, save := 0x10000, done := 0x80, back := [] } }
    let l : Launch := { aLaunch with teams := [u] }
    let s : State := { warm { aHart .u with task := some (aTask false) } (aDie 2 110) with launches := [l] }
    s.teamsOn 0 = [(l, u)] ∧ u.swap ≠ none ∧ s.saveClass l u = true ∧ (1, 0) ∉ (aDie 2 110).saves ∧
    ({ State.reset with dies := [{ aDie 2 110 with saves := [(1, 0)], refresh := true }] } : State).teamsOn 0 = [] := by decide

/-- The team, out. -/
def outTeam : Team := { aTeam with placed := false, image := [{ Cell.reset 0 with serving := some ⟨1, 0, 0, 0⟩ }] }

/-- A machine in which it is out. -/
def outState (x : Die) : State := { aState (aHart .u) with launches := [{ aLaunch with teams := [outTeam] }], dies := [x], tbase := 10000000000 }

theorem witness_recovery : let x : Die := { aDie 0 20 with saves := [(1, 0)] }
    let s : State := { outState x with rails := [Rail.reset 0 0] }
    x.lvl = 0 ∧ (∀ p ∈ x.sensors, p.2.raw < 115) ∧ ({ x with refresh := true } : Die).refresh = true ∧ ({ x with clamps := [0] } : Die).clamps ≠ [] ∧
    ({ x with drops := [(1, 0, 1)] } : Die).drops ≠ [] ∧ ({ x with tripped := true } : Die).tripped = true ∧ ({ x with cooled := true } : Die).cooled = true ∧
    x.saves ≠ [] ∧ x.rails.die = 0 ∧ (s.railAt 0 0).busy = false ∧ ((s.railAt 0 0).restart s.tbase).busy = false ∧ s.railListed 0 0 = true := by decide

theorem witness_brought_back : let x : Die := { aDie 0 20 with saves := [(1, 0)] }
    let l : Launch := { aLaunch with teams := [outTeam] }
    let s : State := outState x
    x.refresh = false ∧ x.clamps = [] ∧ x.drops = [] ∧ x.tripped = false ∧ x.cooled = false ∧ s.savedStill (9, 0) = false ∧
    (∀ p ∈ x.saves, s.savedStill p = true) ∧ s.savedTeams x = [(l, outTeam)] ∧ s.launch? 1 = some l ∧ l.team? 0 = some outTeam ∧ outTeam.swap = none ∧
    outTeam.image ≠ [] ∧ s.areaStalled l outTeam.savedAt = false := by decide

theorem witness_hot_spot : let hot : Die := { aDie 0 20 with sensors := [(0, ⟨100, false, 0, []⟩), (1, ⟨20, false, 0, []⟩)] }
    let out : Launch := { aLaunch with teams := [outTeam] }
    (warm (aHart .u) hot).mayMove aLaunch aTeam 16 0 = true ∧ (outState hot).mayMove out outTeam 16 0 = true ∧
    (outState hot).areaStalled out outTeam.savedAt = false ∧ outTeam.image ≠ [] ∧
    aTeam.placed = true ∧ aTeam.save ≠ 0 ∧ (warm (aHart .u) (aDie 0 20)).mayMove aLaunch aTeam 16 0 = false ∧
    (warm (aHart .u) (aDie 0 20)).anyTarget aLaunch aTeam = false ∧ ((warm (aHart .u) (aDie 0 20)).teamCells 1 0).Nodup := by decide

theorem witness_other_target : let hot : Die := { aDie 0 20 with sensors := [(0, ⟨100, false, 0, []⟩), (1, ⟨20, false, 0, []⟩)] }
    (warm (aHart .u) hot).mayMove aLaunch aTeam 0 0 = false ∧ (warm (aHart .u) hot).anyTarget aLaunch aTeam = true ∧ outTeam.placed = false := by decide

/-! Swaps, launches, hosts. -/

/-- The team in a swap of some kind and phase. -/
def swapping (ph : SwapPhase) (k : SwapKind) : Team :=
  { aTeam with swap := some { phase := ph, kind := k, since := 0, save := 0x10000, done := 0x80, back := [] } }

/-- A machine in which it is, with the grace past, and with the line of the done word. -/
def swapState (u : Team) : State :=
  { aState (aHart .u) with launches := [{ aLaunch with teams := [u] }], tbase := 100000, mem := { MemSys.reset with lines := [aLine 0 1] } }

theorem witness_SwapEvents : let l (u : Team) : Launch := { aLaunch with teams := [u] }
    let s (ph : SwapPhase) := swapState (swapping ph .out)
    let p (k : SwapKind) : Swap := { phase := .stopSlot0, kind := k, since := 0, save := 0x10000, done := 0x80, back := [] }
    let f : State := { s .waitFields with fields := [aField .sweeping] }
    let busy (t : State) : State := { t with cell := { t.cell with rediv := some ⟨1, 0, 0, 3, 1, .handshake, 0, [14], []⟩ } }
    (swapState aTeam).launch? 1 = some (l aTeam) ∧ (l aTeam).team? 0 = some aTeam ∧ aTeam.placed = true ∧ aTeam.save ≠ 0 ∧ 0 % 65536 = 0 ∧ 0x80 % 8 = 0 ∧
    (swapState aTeam).dividing ((swapState aTeam).teamCells 1 0) = false ∧ (busy (swapState aTeam)).dividing ((busy (swapState aTeam)).teamCells 1 0) = true ∧
    (∀ n ∈ (swapState aTeam).teamCells 1 0, ∀ k, ((swapState aTeam).hartAt n k).chosen = none) ∧
    (swapState aTeam).line? ⟨0, (swapState aTeam).gen 0, 0x80 / 128⟩ = some (aLine 0 1) ∧ (aLine 0 1).perm.allows .s .store = true ∧
    ((swapState aTeam).cohLine ⟨0, 0, 1⟩).msgs = [] ∧ badRect 2000 0 0 0 = true ∧ badRect 0 0 0 0 = false ∧
    (swapping .drain .declare).swap = some { p .declare with phase := .drain } ∧ (swapping .waitFields .out).swap.isSome = true ∧
    (swapState outTeam).held? 0 0 0 0 = false ∧ (swapState outTeam).areaStalled (l outTeam) 0x10000 = false ∧ ((swapState outTeam).dieAt 0).tier = true ∧ (outTeam.image.map fun c => c.serving.map fun v => cellNo (0 + v.tx) (0 + v.ty)).Nodup ∧
    0 + fieldOf (s .drain).head.swg 0 32 ≤ (s .drain).tbase ∧ f.fieldsIdle 1 0 = false ∧ (s .waitPool).dividing ((s .waitPool).teamCells 1 0) = false ∧
    (s .waitFields).fieldsIdle 1 0 = true ∧ (s .waitFields).dividing ((s .waitFields).teamCells 1 0) = false ∧ (s .stopSlot0).teamCells 1 0 = [0] ∧
    (∀ k ∈ [SwapKind.out, .declare], ((s .stopSlot0).cellAt 0).allFrozen (p k) = false) ∧
    (∀ k : Slot, k.val < 2 → ((s .stopSlot0).hartAt 0 k).mayStop = true ∧ (s .stopSlot0).attempting 0 k = false) ∧
    (s .drain).teamBusy 1 0 = false ∧ ((s .drain).cellAt 0).quiet = true ∧ ((s .drain).cellAt 0).role 6 = 3 ∧ outTeam.placed = false := by decide

theorem witness_carried_on : let s (ph : SwapPhase) := swapState (swapping ph .declare)
    let f : State := { s .drain with fields := [aField .sweeping] }
    (swapping .waitPool .declare).swap.map (·.phase) = some .waitPool ∧ (s .drain).fieldsIdle 1 0 = true ∧ f.fieldsIdle 1 0 = false ∧
    (swapping .drain .declare).swap.map (·.kind) = some .declare ∧ 1 % 8 ≠ 0 ∧ (swapState aTeam).launch? 9 = none ∧
    ({ swapState outTeam with dies := [{ Die.reset 0 with refresh := true }] } : State).areaStalled aLaunch 0x10000 = true := by decide

theorem witness_done_word : let s := swapState aTeam
    0x80 + 8 ≤ 2 ^ 54 ∧ s.line? ⟨0, s.gen 0, 0x80 / 128⟩ = some (aLine 0 1) ∧ (aLine 0 1).data.length = 128 ∧ Settled s (aLine 0 1).key ∧
    (s.cohLine (aLine 0 1).key).evicting 54 = false := by decide

theorem stack_page {s : State} (hf : s.failed 0 = false) (hr : s.refreshing 0 = false) (hp : s.mem.poison = []) {a : Nat} (ha : a < 0xC00000000) :
    Sound s a := by
  have h : dieOfPa a = 0 := by unfold dieOfPa; omega
  simp only [Sound, inStack, h, hf, hr, hp, Nat.mod_eq_of_lt (show a < 2 ^ 36 by omega)]
  simpa using ha

theorem witness_save_area : ∀ a, a < 0x25000 → Sound (swapState (swapping .drain .save)) (0x10000 + a) :=
  fun _ _ => stack_page (by decide) (by decide) rfl (by omega)

theorem witness_image_area : (∀ a, a < 0x25000 → Sound (swapState outTeam) (saveArea 0x10000 aLaunch ⟨1, 0, 0, 0⟩ + a)) ∧
    saveArea 0x10000 aLaunch ⟨1, 0, 0, 0⟩ % 128 = 0 :=
  ⟨fun _ _ => stack_page (by decide) (by decide) rfl (by simp [saveArea]; omega), by decide⟩

theorem witness_host_moves : moved State.reset 0 128 = 128 ∧ moved State.reset deviceBase 128 = 0 ∧ fieldOf (3 : Word) 0 8 = 3 ∧
    2 ^ 55 ≤ (BitVec.ofNat 64 (2 ^ 55)).toNat ∧ (2 ^ 54 + 0x40000) % 128 = 0 := by decide

theorem witness_launch : let s : State := { State.reset with mem := { MemSys.reset with phys := tables } }
    let u := (s.readTables aDesc).2
    (s.readTables aDesc).1 = .ok ⟨[[0, 0, 0, 0]], [[]], [], []⟩ ∧ u.launchCode aDesc ⟨[[0, 0, 0, 0]], [[]], [], []⟩ = 0 ∧
    u.launchCode (aDesc.set 6 0) ⟨[[0, 0, 0, 0]], [[]], [], []⟩ ≠ 0 ∧ u.freeId = some 1 ∧
    entryUnplaced [0, 0, 0, 0] = false ∧ dField aDesc 6 32 32 = 0 ∧ u.others = [] ∧ dField aDesc 0 0 2 = 0 ∧
    (u.firstNodes (dField aDesc 0 42 6) (dField aDesc 0 48 12) (aDesc.getD 5 0).toNat (List.range (dField aDesc 6 32 32)) []).1 = [] := by
  decide

theorem witness_dies : let s := State.reset
    let t := { s with head := { s.head with fail := 1 } }
    let u := { s with head := { s.head with decl := [3] } }
    s.head.decl = [] ∧ s.failed 0 = false ∧ t.failed 0 = true ∧ t.head.decl = [] ∧ u.head.decl ≠ [] ∧
    (0 : Nat) ∈ ({ s.tail with retired := [0] } : Tailstock).retired ∧ (0 : Nat) ∉ t.tail.retired ∧ ({ t.tail with back := [0] } : Tailstock).back = [0] := by
  decide

theorem witness_LinkHostEvents : let s := State.reset
    let up : Link := { s.link 0 with up := true, train := true }
    let q : QueuePair := { s.qp 0 with rdy := true, qcfg := 0x10404, sqt := 1 }
    let w : State := { s with qps := [q] }
    s.head.hsq = [] ∧ ({ s.head with hsq := [(1, 2)] } : HeadRegs).hsq = [(1, 2)] ∧ s.tail.booted = false ∧
    s.tail.slotA = none ∧ s.tail.slotB = none ∧ (1 : Word).getLsbD 0 = true ∧ up.up = true ∧ ({ s with links := [up] }).link 0 = up ∧
    2 ^ up.k < (17 - up.txhead).toNat ∧ (3 - up.txhead).toNat ≤ 2 ^ up.k ∧ (3 - up.txhead).toNat ≤ 4096 ∧ up.prxhead = up.txhead ∧
    (up.rxtail - up.rxhead).toNat < 2 ^ up.k ∧ up.rxb.toNat % 4096 = 0 ∧ (zeros 256).length = 256 ∧
    s.stalled 0 128 = false ∧ ({ s with dies := [{ Die.reset 0 with refresh := true }] } : State).stalled 0 128 = true ∧
    w.qp 0 = q ∧ 2 ^ q.ks < (100 - q.shead).toNat ∧ q.en = true ∧ q.shead ≠ q.sqt ∧ (s.qp 0).en = false ∧
    (∀ i, i < 256 → Sound { s with links := [up] } (4096 * fieldOf up.rxb 12 40 + 256 * (up.rxtail.toNat % 2 ^ up.k) + i)) ∧
    fieldOf (0x10404 : Word) 0 5 = 4 ∧ (0x10404 : Word).getLsbD 16 = true ∧ fieldOf ([0x700000005] : List Word)[0] 0 8 ∉ [1, 2, 3] ∧
    ((s.readWords 54 0 .s (2 ^ 54 + 0x40000) 16).1 = .ok (List.replicate 16 0)) ∧
    ((s.readWords 54 0 .s (2 ^ 54 + 0x40000) 16).2.serveLaunch (List.replicate 16 0)).isSome = true ∧
    (∃ c ∈ [(5, 0, (7 : Word))], ({ q with done := [c] } : QueuePair).done = [c]) ∧ (q.ctail - q.cqh).toNat < 2 ^ q.kc ∧
    ¬ ({ q with ctail := 16 }.ctail - q.cqh).toNat < 2 ^ q.kc := by decide

theorem witness_no_refresh : ∀ d, State.reset.refreshing d = false := fun _ => rfl

theorem witness_boot : let f : Firmware := ⟨Config.sm2Known.2.1, Config.sm2Known.1, Config.sm2Known.2.2, 0x1000⟩
    let s : State := { State.reset with tail := { Tailstock.reset with slotA := some f, keyh := Config.sm3 f.key } }
    let t : State := { s with tail := { s.tail with keyh := Config.sm3 f.key + 1 } }
    s.tail.booted = false ∧ s.tail.slotA = some f ∧ f.accepted s.tail.keyh = true ∧ f.accepted t.tail.keyh = false := by
  refine ⟨rfl, rfl, by simp [Firmware.accepted, Firmware.digest, Config.sm2Verify], ?_⟩
  have h (k : BitVec 256) : (k == k + 1) = false := by
    rw [beq_eq_false_iff_ne]; intro e
    have := congrArg BitVec.toNat e; rw [BitVec.toNat_add] at this; have := k.isLt; simp at *
  simp only [Firmware.accepted, h, Bool.false_and]

/-- The ceiling of a port reaches from a page of some stack to a page past it. -/
theorem ceiling_page (p : Nat) : ∃ d k, d < 54 ∧ k < 0xC0000 ∧ (Config.dmaCeiling p).1 = d * 2 ^ 20 + k ∧
    d * 2 ^ 20 + k < (Config.dmaCeiling p).2 ∧ (Config.dmaCeiling p).2 < 2 ^ 36 :=
  ⟨_, _, Nat.mod_lt _ (by decide), Nat.mod_lt _ (by decide), rfl, by
    have := Nat.mod_lt (Config.dmaFuse p).1 (show 54 > 0 by decide)
    have := Nat.mod_lt (Config.dmaFuse p).2.1 (show 0xC0000 > 0 by decide)
    simp only [Config.dmaCeiling]; omega, by simp only [Config.dmaCeiling]; omega⟩

/-- Its window 0 open over the whole of the ceiling of port 0. -/
def ported : State :=
  let c := Config.dmaCeiling 0
  { State.reset with mem := { MemSys.reset with regs := [(portBase 0 + 0x10, BitVec.ofNat 64 (c.1 * 65536 + 1)), (portBase 0 + 0x18, BitVec.ofNat 64 (c.2 * 65536))] } }

theorem fieldOf_page {n b : Nat} (h : n < 68719476736) (hb : b < 65536) : fieldOf (BitVec.ofNat 64 (n * 65536 + b)) 16 36 = n := by
  have e : (n * 65536 + b) % 18446744073709551616 = n * 65536 + b := Nat.mod_eq_of_lt (by omega)
  show (n * 65536 + b) % 18446744073709551616 / 65536 % 68719476736 = n
  rw [e]; omega

theorem witness_inboundDma : ∃ a, ported.admits 0 a 1 = true ∧ ported.admits 9 a 1 = false ∧ ∀ i, i < 1 + 256 → ∀ b, a + i = b + 128 ∨ a + i = b →
    Sound ported b := by
  obtain ⟨d, k, hd, hk, h1, h2, h3⟩ := ceiling_page 0
  refine ⟨(d * 2 ^ 20 + k) * 65536 + 512, ?_, by simp [State.admits], ?_⟩
  · have hb : ported.devReg (portBase 0 + 0x10 + 16 * 0) = BitVec.ofNat 64 ((d * 2 ^ 20 + k) * 65536 + 1) := by rw [← h1]; rfl
    have hl : ported.devReg (portBase 0 + 0x18 + 16 * 0) = BitVec.ofNat 64 ((Config.dmaCeiling 0).2 * 65536) := rfl
    have w : ported.dmaWindow 0 0 = some (d * 2 ^ 20 + k, (Config.dmaCeiling 0).2) := by
      have e1 := fieldOf_page (n := d * 2 ^ 20 + k) (b := 1) (by omega) (by decide)
      have e2 : fieldOf (BitVec.ofNat 64 ((Config.dmaCeiling 0).2 * 65536)) 16 36 = (Config.dmaCeiling 0).2 := by
        have e := fieldOf_page (n := (Config.dmaCeiling 0).2) (b := 0) h3 (by decide)
        rwa [Nat.add_zero] at e
      have e3 (n : Nat) : (BitVec.ofNat 64 (n * 65536 + 1)).getLsbD 0 = true := by
        simp only [BitVec.getLsbD, BitVec.toNat_ofNat, Nat.testBit_zero]; simp; omega
      simp only [State.dmaWindow, hb, hl, e1, e2, e3, h1]; simp
    simp only [State.admits, List.any_eq_true, Bool.and_eq_true]
    refine ⟨by decide, 0, by decide, ?_⟩
    rw [w]; simp only [Bool.and_eq_true, decide_eq_true_eq]; omega
  · intro i hi b hb
    have e : dieOfPa b = d := by unfold dieOfPa; omega
    refine ⟨?_, ?_, rfl, rfl⟩
    · simp only [inStack, e, Bool.and_eq_true, decide_eq_true_eq]; exact ⟨hd, by omega⟩
    · simp only [State.failed]; simp [ported, State.reset, HeadRegs.reset]

/-! Headstock cores (R390): the line of a page of ASID 0, a device register, window A. -/

/-- The core, at level F, with three registers set and the line of address 0x80 on the dies. -/
def coreAt (st : HartState) (x : Word) : State :=
  { coreState { withRegs (Hart.core 0x1000) x 8 0 with st := st } with mem := { MemSys.reset with lines := [aLine 0 1, aLine 0 (2 ^ 47)] } }

theorem witness_core_hart : let s := coreAt (.wait .data) 0x80
    s.cur = .core 0 ∧ InView s [3, 1, 2] [] ∧ s.hart.st = .wait .data ∧ s.hart.pending = [] ∧ Direct s.hart ∧ s.hart.held = [] ∧
    s.hart.relAfter = [] ∧ s.acked = true ∧ s.isCore = true ∧ (coreAt .run 0x80).hart.st = .run ∧ s.hart.req ≠ .sent ∧ s.hart.check = .idle := by decide

theorem witness_core_lines : ∀ n ∈ [Need.load, .store, .amo],
    ServedCore (coreAt (.wait .data) 0x80) (aLine 0 1) n 0x80 ∧ ServedCore (coreAt (.wait .data) (2 ^ 54)) (aLine 0 (2 ^ 47)) n (2 ^ 54) := by decide

theorem witness_core_access : let s := coreAt (.wait .data) (2 ^ 54)
    let at_ (h : Hart → Hart) : State := s.setHart (h s.hart)
    let g : Got := { aGot with line := 2 ^ 47 }
    Aligned (s.hart.S 1) 8 ∧ (s.hart.S 1).toNat = 2 ^ 54 ∧ s.mustPublish s.cur s.asid (s.hart.S 1).toNat 8 = none ∧
    s.registered (2 ^ 54 % 2 ^ 52 / 128) = false ∧ s.answeredHere = true ∧ Came (at_ fun h => { h with got := [g] }) (s.hart.S 1) 8 g ∧
    (at_ fun h => { h with check := .passed }).hart.check = .passed ∧ s.registeredHere (s.hart.S 1).toNat 8 = false ∧
    (coreAt .run (2 ^ 54)).hart.asks = [] ∧ (coreAt .run (2 ^ 54)).hart.got = [] ∧ s.deviceHere (s.hart.S 1).toNat = false := by
  decide

theorem witness_core_device : let s := coreAt (.wait .data) (BitVec.ofNat 64 (2 ^ 54 + 2 * 2 ^ 52 + deviceBase + 0x400100))
    s.hart.level = .f ∧ deviceVa (s.hart.S 1).toNat = true ∧ Aligned (s.hart.S 1) 8 ∧ s.hart.asks = [] ∧ s.hart.got = [] := by decide

theorem witness_core_numbered : Numbered (coreAt .run 0x80) := ⟨fun _ h => (by cases h), fun _ h => (by cases h)⟩

/-! The machine as a whole. -/

theorem witness_DecodeEncodeRoundTrip : (Instr.add 1 2 3).WellFormed := by decide

theorem witness_StepRunsDecoded : let s := State.reset.withFetchWord 32 0x0C208204
    let t := coreState { Hart.core 0x1000 with again := true, winstr := some (.add 1 2 3) }
    let d := { s with cell := s.cell.setHart s.cell.slot { s.hart with st := .wait .fetch, woken := true } }
    (∀ u ∈ [s, t, d], u.agenda = [] ∧ u.due.isNone = true ∧ u.active = true ∧ (u.isCore = true ∨ u.runs u.cell = true) ∧ u.globalFault.isNone = true ∧
      u.rlimExpire.isNone = true ∧ u.takePending.isNone = true) ∧
    t.hart.st = .run ∧ t.hart.again = true ∧ t.hart.winstr = some (.add 1 2 3) ∧ s.hart.st = .run ∧ s.hart.again = false ∧ s.hart.pc.toNat < 2 ^ 55 ∧
    s.isCore = false ∧ (s.cell.fetch s.asid (s.gen s.asid) s.hart.level s.hart.pc.toNat).isSome = true ∧
    ({ s.cell with code := [] }.fetch s.asid (s.gen s.asid) s.hart.level s.hart.pc.toNat) = none ∧
    (d.hart.st = .wait .fetch ∧ d.hart.woken = true ∧ d.hart.check = .idle) ∧ (coreState (Hart.core 0x1000)).hart.again = false ∧
    (coreState (Hart.core 0x1000)).isCore = true ∧ d.answeredHere = true := by decide

theorem witness_core_fetch : let s := coreState { Hart.core 0x1000 with st := .wait .fetch, woken := true, buf := leBytes 4 0x0C208204 }
    s.agenda = [] ∧ s.due.isNone = true ∧ s.active = true ∧ s.globalFault.isNone = true ∧ s.rlimExpire.isNone = true ∧ s.takePending.isNone = true ∧
    s.hart.st = .wait .fetch ∧ s.hart.woken = true ∧ s.answeredHere = true ∧ s.hart.check = .idle ∧ decodeBytes s.hart.buf = .ok (.mulh 2 2 2) := by decide

theorem witness_StepsKeepTheInvariant : Canonical State.reset := by
  refine ⟨numbered_of rfl rfl (by decide), by decide, by decide⟩

/-! ## One step at a time

The expected values are the spec's worked examples, which each comment names, or worked out by hand from the rule it names. -/

/-- What an instruction leaves, where it goes on. -/
def after (i : Instr) (s : State) (p : State → Bool) : Bool := match exec i s with
  | .next t => p t
  | _ => false

/-- A user hart with three registers set. -/
def user (x y z : Word) : State := aState (withRegs (aHart .u) x y z)

-- R154 to R158: wraps, signs, the corners of division, a shift count over 63.
theorem test_add_wraps : after (.add 3 1 2) (user (BitVec.allOnes 64) 2 0) (fun t => t.hart.S 3 == 1) = true := by decide
theorem test_sub_same_register : after (.sub 1 1 2) (user 3 5 0) (fun t => t.hart.S 1 == 0xFFFFFFFFFFFFFFFE) = true := by decide
theorem test_mulh_sign : after (.mulh 3 1 2) (user (BitVec.allOnes 64) 2 0) (fun t => t.hart.S 3 == BitVec.allOnes 64) = true := by decide
theorem test_mulhn_unsigned : after (.mulhn 3 1 2) (user (BitVec.allOnes 64) 2 0) (fun t => t.hart.S 3 == 1) = true := by decide
theorem test_div_overflow : after (.div 3 1 2) (user 0x8000000000000000 (BitVec.allOnes 64) 0) (fun t => t.hart.S 3 == 0x8000000000000000) = true := by decide
theorem test_div_by_zero : after (.div 3 1 0) (user 7 0 0) (fun t => t.hart.S 3 == BitVec.allOnes 64) = true := by decide
theorem test_rem_sign : after (.rem 3 1 2) (user 0xFFFFFFFFFFFFFFF9 2 0) (fun t => t.hart.S 3 == BitVec.allOnes 64) = true := by decide
theorem test_sra_count : after (.sra 3 1 2) (user 0x8000000000000000 65 0) (fun t => t.hart.S 3 == 0xC000000000000000) = true := by decide
theorem test_s0_discards : after (.add 0 1 2) (user 4 5 0) (fun t => t.hart.S 0 == 0 && t.hart.win == (user 4 5 0).hart.win) = true := by decide
theorem test_bins_keeps : after (.bins 3 1 8 7) (user 0x1FF 0 0xFFFF0000) (fun t => t.hart.S 3 == 0xFFFFFF00) = true := by decide
theorem test_clz_zero : after (.clz 3 1) (user 0 0 0) (fun t => t.hart.S 3 == 64) = true := by decide

-- "Worked conversions" of 08_number_formats.md: FP32 0x40533333 and 0x43960000 (300) into b8p4sf, 0xBFC00000 (-1.5) into b8p4nf.
theorem test_fcvt_inexact : after (.fcvt (.b8 4 false false) (.wide .f32) .rne false 3 1) (user 0x40533333 0 0)
    (fun t => t.hart.S 3 == 0x4D && t.hart.fflags == 1) = true := by decide
theorem test_fcvt_overflow : after (.fcvt (.b8 4 false false) (.wide .f32) .rne false 3 1) (user 0x43960000 0 0)
    (fun t => t.hart.S 3 == 0x80 && t.hart.fflags == 5) = true := by decide
theorem test_rnd_saturates : rnd (specOf (.b8 4 false false)) .rne true 0 (valueOf (wideSpec .f32) 0x43960000) = (0x7F, flagSA ||| flagNX) := by decide
theorem test_rnd_toward_zero : rnd (specOf (.b8 4 false false)) .rtz false 0 (valueOf (wideSpec .f32) 0x43960000) = (0x7F, flagOF ||| flagNX) := by decide
theorem test_rnd_extended : rnd (specOf (.b8 4 false true)) .rne false 0 (valueOf (wideSpec .f32) 0x43960000) = (0x7F, flagOF ||| flagNX) := by decide
theorem test_rnd_negative : rnd (specOf (.b8 4 true false)) .rne false 0 (valueOf (wideSpec .f32) 0xBFC00000) = (0xFF, flagNV) := by decide
theorem test_rnd_stochastic_down : rnd (specOf (.b8 4 false false)) .rst false 0xCCCC (valueOf (wideSpec .f32) 0x40533333) = (0x4D, flagNX) := by decide
theorem test_rnd_stochastic_up : rnd (specOf (.b8 4 false false)) .rst false 0xCCCD (valueOf (wideSpec .f32) 0x40533333) = (0x4E, flagNX) := by decide
theorem test_rnd_underflow : rnd (specOf (.b8 4 false false)) .rup false 0 (valueOf (wideSpec .f32) 0x39800000) = (0x01, flagUF ||| flagNX) := by decide
-- "Worked widening" of the same file: binary4 P2 signed 0110 is 0x42 in b8p2sf.
theorem test_widen : widen ⟨true, false, false, 2⟩ 0b0110 = 0x42 := by decide

-- 1.0 + 2^-24 is halfway between two codes and goes to the even one (R147); 0 / 0 is the NaN 0x7FC00000 with NV (R173, R176).
theorem test_fadd_tie : after (.fadd .f32 .rne false 3 1 2) (user 0x3F800000 0x33800000 0) (fun t => t.hart.S 3 == 0x3F800000 && t.hart.fflags == 1) = true := by decide
theorem test_fdiv_zero : after (.fdiv .f32 .rne false 3 1 2) (user 0 0 0) (fun t => t.hart.S 3 == 0x7FC00000 && t.hart.fflags == 16) = true := by decide
-- 3 * 5 - 15 is an exact zero.
theorem test_fms_exact : after (.fms .f32 .rne 3 1 2 3) (user 0x40400000 0x40A00000 0x41700000) (fun t => t.hart.S 3 == 0 && t.hart.fflags == 0) = true := by decide

/-- A user hart with two v slots set. -/
def vuser (x y : BitVec 512) : State := aState (((aHart .u).setVS 1 x 9 8).setVS 2 y 0 0)

-- R203, R206: elements wrap each by itself; the sideband is A's.
theorem test_vadd : after (.vadd .w8 3 1 2) (vuser 0xFF01 0x0102) (fun t => (t.hart.V 3).extractLsb' 0 16 == 0x0003 && t.hart.sb 3 0 == 9) = true := by decide
-- Step 1 of the worked visit in 15_field_instructions.md: 01 00 01 01 sum to 3.
theorem test_vredsum : after (.vredsum .w8 3 1) (vuser 0x01010001 0) (fun t => t.hart.S 3 == 3) = true := by decide
-- Step 4 of that visit: 0xBFFFFFFF is below 0.75 * 2^32, and 0xC0000000 is not.
theorem test_bern : after (.bern 3 1 2) (user 0x3F400000 0xBFFFFFFF00001234 0) (fun t => t.hart.S 3 == 1 && t.hart.fflags == 0) = true := by decide
theorem test_bern_strict : after (.bern 3 1 2) (user 0x3F400000 0xC000000000000000 0) (fun t => t.hart.S 3 == 0) = true := by decide

-- R165 to R170: a taken branch goes to the pc plus four times the offset; an end check goes back to the loop's start.
theorem test_beq : after (.beq 1 2 8) (aState { withRegs (aHart .u) 5 5 0 with pc := 0x100, npc := 0x104 }) (fun t => t.hart.pc == 0x108) = true := by decide
theorem test_loop_end : after (.add 3 1 2) (aState { withRegs (aHart .u) 1 1 0 with npc := 0x200, lcnt := 2, lsta := 0x100, lend := 0x200 })
    (fun t => t.hart.pc == 0x100 && t.hart.lcnt == 1) = true := by decide

-- R278 to R282, R316: a misaligned load of a hart at U goes to U with the address; a privileged read goes to S; `eret` comes back.
theorem test_misaligned : after (.ld .x64 3 ⟨1, none, 0⟩) (aState { withRegs (aHart .u) 0x43 0 0 with pc := 0x100, npc := 0x104 })
    (fun t => t.hart.pc == 0x3000 && t.hart.tu.cause == 3 && t.hart.tu.val == 0x43 && t.hart.tu.pc == 0x100) = true := by decide
theorem test_privilege : after (.stget 3 0x203) (aState { aHart .u with pc := 0x100 }) (fun t => t.hart.level == .s && t.hart.pc == 0x1000) = true := by decide
theorem test_eret : after .eret (aState { aHart .s with ts := { (aHart .s).ts with pc := 0x500, stat := 0x2 } })
    (fun t => t.hart.level == .u && t.hart.pc == 0x500 && t.hart.ts.stat.getLsbD 0) = true := by decide

-- R71, R198: a load that empties a full word, and one that finds it empty and waits.
theorem test_ldfeE : after (.ldfeE true 3 1 0) (fullAt (withWords (user 0x100 0 0) 0x100 [77]) 0x100)
    (fun t => t.hart.S 3 == 77 && !t.cell.full 0x100) = true := by decide
theorem test_ldfeE_waits : after (.ldfeE false 3 1 0) (user 0x100 0 0) (fun t => t.hart.st == .wait .fullEmpty) = true := by decide
-- R188, R191: a byte of LOCAL, zero-extended.
theorem test_lds : after (.ldl .n8 3 ⟨1, none, 4⟩) (withWords (user 0x100 0 0) 0x100 [0x8877665544332211]) (fun t => t.hart.S 3 == 0x55) = true := by decide
-- R106, R189: a load from CACHE; a store by a hart with its check passed, which the line shows at once.
theorem test_ld_cache : after (.ld .n32 3 ⟨1, none, 0⟩) (cached (user 0x40 0 0) 0) (fun t => t.hart.S 3 == 0x07070707) = true := by decide

-- A step fetches and decodes what lies at the pc, and moves past it (R136, R137).
theorem test_step_addi : (match step (State.reset.withFetchWord 32 0xFC000A08) with
    | .next t => (t.hartAt 0 0).S 10 == BitVec.allOnes 64
    | _ => false) = true := by decide

-- "Worked example" of 00_scope.md: the cell at (300, 500).
theorem test_place : cellNo 300 500 = 384300 ∧ dieOf 384300 = 32 ∧ clusterOf 384300 = 42 ∧ indexOf 384300 = 12 ∧ railOf 384300 = 162 ∧
    hartNo 384300 7 = 6148807 := by decide
-- 03_tasks_teams_launches.md: in a team of 8 by 4 cells the word 0x00040611 is legal.
theorem test_subgroup : subgroupLegal 3 2 0x00040611 = true ∧ subgroupLegal 3 2 0x00040511 = false := by decide
-- 28_headstock_boot_preemption.md: the fields of a descriptor's word 0.
theorem test_descriptor : dField [0x0005002011010300] 0 48 12 = 5 ∧ dField [0x0005002011010300] 0 8 8 = 3 ∧ dField [0x0005002011010300] 0 37 5 = 1 := by decide

end Sys2Proof.Tests
end

namespace Sys2Proof.Machine

theorem canonical_reset : Canonical State.reset :=
  ⟨⟨by simp [State.reset, Cell.reset], by simp [State.reset]⟩, rfl, rfl⟩

/-- A cell of the reset module holds its resets, wherever its clock stands. -/
theorem reset_cellAt (n : Nat) : ∃ k, State.reset.cellAt n = (Cell.reset n).setClock k := by
  unfold State.cellAt
  split
  · subst_vars; exact ⟨⟨0, 0, 0, 90⟩, rfl⟩
  · exact ⟨_, rfl⟩

theorem reset_hartAt (n : Nat) (k : Slot) : State.reset.hartAt n k = Hart.reset := by
  obtain ⟨c, h⟩ := reset_cellAt n
  simp [State.hartAt, Cell.hart, h, Cell.setClock, Cell.reset]

theorem reset_railAt (d r : Nat) : State.reset.railAt d r = Rail.reset d r := rfl

theorem reset_dieAt (d : Nat) : State.reset.dieAt d = Die.reset d := rfl

theorem Rail.reset_rctl (d r : Nat) : (Rail.reset d r).rctl = 0x4DAAA := rfl

/-- Settles O60: each value is that of the reset cell, rail, die, link and queue pair. -/
theorem resetValues : Obligations.ResetValues := by
  unfold Obligations.ResetValues
  refine ⟨canonical_reset, rfl, rfl, rfl, rfl, rfl, rfl, rfl, ?harts, ?cells, fun l => ⟨rfl, rfl, rfl, rfl, rfl⟩, ?rails, ?dies,
    fun q => ⟨rfl, rfl⟩, fun w => rfl⟩
  case harts =>
    intro n k
    rw [reset_hartAt]
    exact ⟨rfl, rfl, rfl, rfl⟩
  case cells =>
    intro n
    obtain ⟨c, h⟩ := reset_cellAt n
    simp only [h]
    exact ⟨rfl, rfl, rfl, rfl, rfl, rfl, rfl⟩
  case rails =>
    intro d r
    rw [reset_railAt]
    refine ⟨?_, ?_, ?_, ?_, rfl, rfl, rfl, rfl, rfl⟩
    all_goals simp only [Rail.auto_, Rail.capmin, Rail.reset_rctl]; decide
  case dies =>
    intro d
    rw [reset_dieAt]
    refine ⟨rfl, ?_, ?_, rfl⟩
    all_goals simp only [Die.twarn, Die.tcrit, Die.reset]; decide
end Sys2Proof.Machine

namespace Sys2Proof.Machine

/-- Every state that an outcome or an answer may hold is canonical. -/
def CanonicalOpt (o : Option State) : Prop := ∀ t, o = some t → Canonical t

def CanonicalSnd {α : Type} (o : Option (α × State)) : Prop := ∀ p, o = some p → Canonical p.2

def CanonicalOut (o : Out) : Prop := ∀ t, o = .next t → Canonical t

section
variable {s t : State}

theorem Canonical.of_pair {α : Type} {p : α × State} {x : α} (h : Canonical p.2) (e : p = (x, t)) : Canonical t := by
  rw [e] at h; exact h

theorem Canonical.ite {p : Prop} [Decidable p] (h : Canonical s) (k : Canonical t) : Canonical (if p then s else t) := by
  split
  exacts [h, k]

theorem CanonicalOpt.none : CanonicalOpt none := by rintro _ ⟨⟩
theorem CanonicalOpt.some (h : Canonical s) : CanonicalOpt (some s) := by rintro _ ⟨⟩; exact h
theorem CanonicalOut.next (h : Canonical s) : CanonicalOut (.next s) := by rintro _ ⟨⟩; exact h

theorem CanonicalOpt.getD {o : Option State} (h : CanonicalOpt o) (k : Canonical s) : Canonical (o.getD s) := by
  cases o with
  | none => exact k
  | some t => exact h t rfl

theorem CanonicalOpt.orElse {o p : Option State} (h : CanonicalOpt o) (k : CanonicalOpt p) : CanonicalOpt (o <|> p) := by
  cases o with
  | none => exact k
  | some t => exact h

theorem CanonicalOpt.bind {o : Option State} {f : State → Option State} (h : CanonicalOpt o) (k : ∀ t, Canonical t → CanonicalOpt (f t)) :
    CanonicalOpt (o.bind f) := by
  cases o with
  | none => exact .none
  | some t => exact k t (h t rfl)

theorem CanonicalOpt.bindOf {α : Type} {o : Option α} {f : α → Option State} (k : ∀ x, CanonicalOpt (f x)) : CanonicalOpt (o.bind f) := by
  cases o with
  | none => exact .none
  | some x => exact k x

theorem CanonicalOpt.map {o : Option State} {f : State → State} (h : CanonicalOpt o) (k : ∀ t, Canonical t → Canonical (f t)) :
    CanonicalOpt (o.map f) := by
  cases o with
  | none => exact .none
  | some t => exact .some (k t (h t rfl))

theorem CanonicalOpt.mapOf {α : Type} {o : Option α} {f : α → State} (k : ∀ x, Canonical (f x)) : CanonicalOpt (o.map f) := by
  cases o with
  | none => exact .none
  | some x => exact .some (k x)

theorem CanonicalSnd.none {α : Type} : CanonicalSnd (α := α) none := by rintro _ ⟨⟩

theorem CanonicalSnd.some {α : Type} {p : α × State} (h : Canonical p.2) : CanonicalSnd (some p) := by rintro _ ⟨⟩; exact h

theorem CanonicalSnd.bind {α β : Type} {o : Option (α × State)} {f : α × State → Option (β × State)} (h : CanonicalSnd o)
    (k : ∀ p, Canonical p.2 → CanonicalSnd (f p)) : CanonicalSnd (o.bind f) := by
  cases o with
  | none => exact .none
  | some p => exact k p (h p rfl)

theorem CanonicalSnd.mapPair {α β : Type} {o : Option (α × State)} {f : α × State → β × State} (h : CanonicalSnd o)
    (k : ∀ p, Canonical p.2 → Canonical (f p).2) : CanonicalSnd (o.map f) := by
  cases o with
  | none => exact .none
  | some p => exact .some (k p (h p rfl))

theorem CanonicalSnd.mapOpt {α : Type} {o : Option State} {f : State → α × State} (h : CanonicalOpt o)
    (k : ∀ t, Canonical t → Canonical (f t).2) : CanonicalSnd (o.map f) := by
  cases o with
  | none => exact .none
  | some t => exact .some (k t (h t rfl))

theorem CanonicalSnd.map {α : Type} {o : Option (α × State)} {f : α × State → State} (h : CanonicalSnd o)
    (k : ∀ p, Canonical p.2 → Canonical (f p)) : CanonicalOpt (o.map f) := by
  cases o with
  | none => exact .none
  | some p => exact .some (k p (h p rfl))

theorem CanonicalOpt.findSome {α : Type} {l : List α} {f : α → Option State} (k : ∀ x, CanonicalOpt (f x)) :
    CanonicalOpt (l.findSome? f) := by
  intro t e
  obtain ⟨x, -, e⟩ := List.exists_of_findSome?_eq_some e
  exact k x t e

/-- A fold keeps what each of its steps keeps. -/
theorem foldl_keeps {α β : Type} {P : β → Prop} {l : List α} {f : β → α → β} {b : β} (h : P b) (k : ∀ c x, P c → P (f c x)) :
    P (l.foldl f b) := by
  induction l generalizing b with
  | nil => exact h
  | cons x r ih => exact ih (k b x h)

theorem Canonical.foldl {α : Type} {l : List α} {f : State → α → State} (h : Canonical s) (k : ∀ t x, Canonical t → Canonical (f t x)) :
    Canonical (l.foldl f s) := foldl_keeps h k

theorem Canonical.foldlSnd {α β : Type} {l : List β} {f : α × State → β → α × State} {b : α × State} (h : Canonical b.2)
    (k : ∀ r x, Canonical r.2 → Canonical (f r x).2) : Canonical (l.foldl f b).2 :=
  foldl_keeps (P := fun r : α × State => Canonical r.2) h k

theorem Canonical.foldlFst {α β : Type} {l : List β} {f : State × α → β → State × α} {b : State × α} (h : Canonical b.1)
    (k : ∀ r x, Canonical r.1 → Canonical (f r x).1) : Canonical (l.foldl f b).1 :=
  foldl_keeps (P := fun r : State × α => Canonical r.1) h k

theorem CanonicalOpt.foldl {α : Type} {l : List α} {f : Option State → α → Option State} {o : Option State} (h : CanonicalOpt o)
    (k : ∀ p x, CanonicalOpt p → CanonicalOpt (f p x)) : CanonicalOpt (l.foldl f o) :=
  foldl_keeps h k

theorem CanonicalOut.nextOf {o : Out} (h : CanonicalOut o) : CanonicalOpt (nextOf o) := by
  intro t e
  cases o with
  | next u => exact h t (by simpa [Sys2Proof.Machine.nextOf] using e)
  | fault _ => simp [Sys2Proof.Machine.nextOf] at e
  | refused _ => simp [Sys2Proof.Machine.nextOf] at e

/-! ## The operations of a cell keep its number -/

theorem Cell.foldl_no {α : Type} {l : List α} {f : Cell → α → Cell} (k : ∀ c x, (f c x).no = c.no) (c : Cell) : (l.foldl f c).no = c.no :=
  foldl_keeps (P := fun e => e.no = c.no) rfl fun e x h => (k e x).trans h

@[simp] theorem Cell.retest_no (c : Cell) (a n : Nat) : (c.retest a n).no = c.no := by
  unfold Cell.retest
  refine Cell.foldl_no (fun c k => ?_) c
  dsimp only
  split
  · rfl
  split
  · split <;> rfl
  · rfl

@[simp] theorem Cell.lwrite_no (c : Cell) (a : Nat) (bs : List Byte) : (c.lwrite a bs).no = c.no := by simp [Cell.lwrite]

@[simp] theorem Cell.lwriteSb_no (c : Cell) (a : Nat) (bs sb : List Byte) : (c.lwriteSb a bs sb).no = c.no := by simp [Cell.lwriteSb]

@[simp] theorem Cell.objStep_no (c : Cell) (o : Nat) (f : Word → Word → Word × Word) : (c.objStep o f).no = c.no := by
  unfold Cell.objStep
  split
  exacts [Cell.lwrite_no _ _ _, rfl]

@[simp] theorem Cell.expect_no (c : Cell) (o n : Nat) : (c.expect o n).no = c.no := c.objStep_no _ _

@[simp] theorem Cell.credit_no (c : Cell) (o n : Nat) (bad : Bool) : (c.credit o n bad).no = c.no := c.objStep_no _ _

@[simp] theorem Cell.setFull_no (c : Cell) (a : Nat) (b : Bool) : (c.setFull a b).no = c.no := by
  unfold Cell.setFull
  split <;> rfl

@[simp] theorem Cell.arrive_no (c : Cell) (w : IWord) (m : BitVec 16) : (c.arrive w m).no = c.no := by
  unfold Cell.arrive
  dsimp only
  split <;> rfl

@[simp] theorem Cell.reserveM_no (c : Cell) : c.reserveM.no = c.no := by
  unfold Cell.reserveM
  split
  · rfl
  · split <;> rfl

@[simp] theorem Cell.reserveC_no (c : Cell) : c.reserveC.no = c.no := by
  unfold Cell.reserveC
  split
  · rfl
  · split <;> rfl

@[simp] theorem Cell.serveQueues_no (c : Cell) : c.serveQueues.no = c.no := by simp [Cell.serveQueues]

@[simp] theorem Cell.leaveQueues_no (c : Cell) (k : Slot) : (c.leaveQueues k).no = c.no := by simp [Cell.leaveQueues]

@[simp] theorem Cell.setWaiter_no (c : Cell) (o : Nat) (k : Slot) (b : Bool) : (c.setWaiter o k b).no = c.no := rfl

@[simp] theorem Cell.abandon_no (c : Cell) (k : Slot) : (c.abandon k).no = c.no := by
  unfold Cell.abandon
  dsimp only
  rw [Cell.leaveQueues_no, Cell.setHart_no]
  split <;> rfl

@[simp] theorem Cell.mapCache_no (c : Cell) (f : CLine → CLine) : (c.mapCache f).no = c.no := rfl

@[simp] theorem Cell.acquireDrop_no (c : Cell) : c.acquireDrop.no = c.no := rfl

@[simp] theorem Cell.nextCycle_no (c : Cell) : c.nextCycle.no = c.no := rfl

@[simp] theorem Cell.startAt_no (c : Cell) (t : Nat) : (c.startAt t).no = c.no := rfl

@[simp] theorem Cell.placeCode_no (c : Cell) (a g l : Nat) (bs : List Byte) : (c.placeCode a g l bs).no = c.no := rfl

@[simp] theorem Cell.beginShrink_no (c : Cell) (r m k : Nat) : (c.beginShrink r m k).no = c.no := by
  unfold Cell.beginShrink
  dsimp only
  (repeat' split) <;> rfl

@[simp] theorem Cell.poolAnswer_no (c : Cell) (k : Slot) (t n : Nat) : (c.poolAnswer k t n).no = c.no := by
  unfold Cell.poolAnswer
  split <;> rfl

@[simp] theorem State.startRediv_no (s : State) (c : Cell) (r : PoolReq) : (s.startRediv c r).no = c.no := by
  unfold State.startRediv
  split <;> simp

@[simp] theorem Cell.zeroCycle_no (c : Cell) : c.zeroCycle.no = c.no := by
  unfold Cell.zeroCycle
  split
  · split <;> rfl
  · rfl

@[simp] theorem Cell.creditLater_no (c : Cell) (o n : Nat) (b : Bool) : (c.creditLater o n b).no = c.no := rfl

@[simp] theorem Cell.strCycle_no (c : Cell) (q : MatCmd) (k obj src tile m : Nat) : (c.strCycle q k obj src tile m).1.no = c.no := by
  unfold Cell.strCycle
  dsimp only
  split
  · (repeat' split) <;> rfl
  · rfl

@[simp] theorem Cell.czCycle_no (c : Cell) (k tile m : Nat) : (c.czCycle k tile m).no = c.no := by
  unfold Cell.czCycle
  split <;> rfl

@[simp] theorem Cell.output_no (c : Cell) (q : MatCmd) (obj dst tile size o n : Nat) (bs sb : List Byte) (clr : Bool) :
    (c.output q obj dst tile size o n bs sb clr).1.no = c.no := by
  unfold Cell.output
  dsimp only
  (repeat' split) <;> simp

@[simp] theorem Cell.rdCycle_no (c : Cell) (q : MatCmd) (k obj dst tile m : Nat) (f : BitVec 6) (quant clr : Bool) (rm : Rm) (sat : Bool) :
    (c.rdCycle q k obj dst tile m f quant clr rm sat).1.no = c.no := by
  unfold Cell.rdCycle
  dsimp only
  (repeat' split) <;> simp

@[simp] theorem Cell.ldsCycle_no (c : Cell) (q : MatCmd) (g obj src : Nat) : (c.ldsCycle q g obj src).1.no = c.no := by
  unfold Cell.ldsCycle
  dsimp only
  (repeat' split) <;> rfl

@[simp] theorem Cell.matAccess_no (c : Cell) (q : MatCmd) : (c.matAccess q).1.no = c.no := by
  unfold Cell.matAccess
  split
  · rfl
  · dsimp only
    split <;> simp

@[simp] theorem Cell.matrixCycle_no (c : Cell) : c.matrixCycle.no = c.no := by
  unfold Cell.matrixCycle
  dsimp only
  (repeat' split) <;> simp

@[simp] theorem Cell.powerOf_no (c old : Cell) : (c.powerOf old).no = old.no := rfl

@[simp] theorem Cell.emptied_no (c : Cell) : c.emptied.no = c.no := rfl

@[simp] theorem Cell.giveNotice_no (c : Cell) : c.giveNotice.no = c.no := by
  unfold Cell.giveNotice
  split <;> rfl

@[simp] theorem Cell.countVector_no (c : Cell) (w : Nat) : (c.countVector w).no = c.no := by
  unfold Cell.countVector
  split <;> rfl

/-! ## Cells listed under their numbers -/

theorem mem_assocSet {α : Type} {k : Nat} {v : α} {l : List (Nat × α)} {p : Nat × α} (h : p ∈ assocSet k v l) : p = (k, v) ∨ p ∈ l := by
  induction l with
  | nil => simpa [assocSet] using h
  | cons c r ih =>
    obtain ⟨j, w⟩ := c
    simp only [assocSet] at h
    split at h
    · rcases List.mem_cons.1 h with h | h
      exacts [.inl h, .inr (List.mem_cons_of_mem _ h)]
    · split at h
      · rcases List.mem_cons.1 h with h | h
        exacts [.inl h, .inr h]
      · rcases List.mem_cons.1 h with h | h
        · exact .inr (h ▸ List.mem_cons_self)
        · exact (ih h).imp_right (List.mem_cons_of_mem _)

theorem mem_of_assocGet {α : Type} {k : Nat} {v : α} {l : List (Nat × α)} (h : assocGet k l = some v) : (k, v) ∈ l := by
  obtain ⟨p, hp, rfl⟩ := Option.map_eq_some_iff.1 h
  have hk : p.1 = k := by simpa using List.find?_some hp
  exact hk ▸ List.mem_of_find?_eq_some hp

/-- A cell is listed under its own number. -/
theorem Numbered.cellAt_no (h : Numbered s) (n : Nat) : (s.cellAt n).no = n := by
  unfold State.cellAt
  split
  · exact Eq.symm ‹_›
  · cases hg : assocGet n s.others with
    | none => rfl
    | some c => exact h.2 _ (mem_of_assocGet hg)

theorem Numbered.putCell (h : Numbered s) (c : Cell) : Numbered (s.putCell c) := by
  unfold State.putCell
  split
  · rename_i e
    exact ⟨fun n hn => e.trans (h.1 n hn), h.2⟩
  · refine ⟨h.1, fun p hp => ?_⟩
    rcases mem_assocSet hp with rfl | hp
    exacts [rfl, h.2 p hp]

theorem Numbered.focus (h : Numbered s) (n : Nat) : Numbered (s.focus n) := by
  unfold State.focus
  split
  · refine ⟨fun m hm => ?_, h.2⟩
    cases hm
    exact Eq.symm ‹_›
  · refine ⟨fun m hm => ?_, fun p hp => ?_⟩
    · cases hm
      exact h.cellAt_no n
    · rcases mem_assocSet hp with rfl | hp
      exacts [rfl, h.2 p (List.mem_filter.1 hp).1]

theorem Canonical.of_phys {s t : State} (h : Canonical s) (n : Numbered t)
    (e : t.mem.phys = s.mem.phys ∧ t.mem.physSb = s.mem.physSb) : Canonical t :=
  ⟨n, by rw [e.1]; exact h.2.1, by rw [e.2]; exact h.2.2⟩

/-- Nothing of the state but the cells and the memory matters to the invariant. -/
theorem Canonical.update {agenda cores coh places launches lastServed fields net rails dies links qps tail head rt tbase coreAt free cmdNo}
    (h : Canonical s) : Canonical ⟨agenda, s.cur, s.cell, s.others, cores, s.mem, coh, places, launches, lastServed, fields, net, rails, dies,
      links, qps, tail, head, rt, tbase, coreAt, free, cmdNo⟩ := h

/-- Of the memory, its bytes and its sideband alone matter. -/
theorem Canonical.updateMem {agenda cores poison lines misses gens latched scrubs agents marks ptRegs wbPark ptStores units waitList owed late regs
    coh places launches lastServed fields net rails dies links qps tail head rt tbase coreAt free cmdNo} (h : Canonical s) :
    Canonical ⟨agenda, s.cur, s.cell, s.others, cores, ⟨s.mem.phys, s.mem.physSb, poison, lines, misses, gens, latched, scrubs, agents, marks,
      ptRegs, wbPark, ptStores, units, waitList, owed, late, regs⟩, coh, places, launches, lastServed, fields, net, rails, dies, links, qps,
      tail, head, rt, tbase, coreAt, free, cmdNo⟩ := h

theorem Canonical.putCell {c : Cell} (h : Canonical s) : Canonical (s.putCell c) := h.of_phys (h.1.putCell c) (by simp)

theorem Canonical.focus {n : Nat} (h : Canonical s) : Canonical (s.focus n) :=
  h.of_phys (h.1.focus n) (by unfold State.focus; split <;> exact ⟨rfl, rfl⟩)

theorem Canonical.mapCell {f : Cell → Cell} (h : Canonical s) (k : ∀ c, (f c).no = c.no) : Canonical (s.mapCell f) :=
  ⟨⟨fun n hn => (k _).trans (h.1.1 n hn), h.1.2⟩, h.2⟩

theorem Canonical.mapCells {f : Cell → Cell} (h : Canonical s) (k : ∀ c, (f c).no = c.no) : Canonical (s.mapCells f) := by
  refine ⟨⟨fun n hn => (k _).trans (h.1.1 n hn), fun p hp => ?_⟩, h.2⟩
  obtain ⟨q, hq, rfl⟩ := List.mem_map.1 hp
  exact (k _).trans (h.1.2 q hq)

theorem Canonical.setHart {g : Hart} (h : Canonical s) : Canonical (s.setHart g) := by
  unfold State.setHart
  split
  · exact h.mapCell fun c => c.setHart_no c.slot g
  · exact h

theorem Canonical.setHartAt {n : Nat} {k : Slot} {g : Hart} (h : Canonical s) : Canonical (s.setHartAt n k g) := h.putCell

theorem Canonical.mapHart {f : Hart → Hart} (h : Canonical s) : Canonical (s.mapHart f) := h.setHart

theorem Canonical.fresh (h : Canonical s) : Canonical s.fresh.2 := h

theorem Canonical.finish (h : Canonical s) : CanonicalOut s.finish := .next h.mapHart

theorem Canonical.done {f : Hart → Hart} (h : Canonical s) : CanonicalOut (s.done f) := h.mapHart.finish

theorem Canonical.reissue (h : Canonical s) : CanonicalOut s.reissue := .next h.mapHart

theorem Canonical.writeS {d : Reg} {v : Word} (h : Canonical s) : CanonicalOut (s.writeS d v) := h.done

theorem Canonical.waitOn {c : WaitCause} {i : Instr} (h : Canonical s) : CanonicalOut (s.waitOn c i) := .next h.mapHart

theorem Canonical.notice {b l : Nat} (h : Canonical s) : Canonical (s.notice b l) := by
  unfold State.notice
  dsimp only
  split
  · exact h
  · exact h

theorem Canonical.postStop {n w : Nat} (h : Canonical s) : Canonical (s.postStop n w) := by
  unfold State.postStop
  split
  · exact Canonical.notice h
  · exact h

theorem Canonical.stopHart {w : Nat} (h : Canonical s) : Canonical (s.stopHart w) := h.mapHart.postStop

theorem Canonical.takeTrap {c : Nat} {v pc : Word} (h : Canonical s) : Canonical (s.takeTrap c v pc) := by
  unfold State.takeTrap
  dsimp only
  split
  · exact h.stopHart
  · exact h.setHart

theorem Canonical.trap {c : Cause} {v : Word} (h : Canonical s) : CanonicalOut (s.trap c v) := .next h.takeTrap

theorem Canonical.withRegs {ss vs : List Reg} {k : Out} (h : Canonical s) (hk : CanonicalOut k) : CanonicalOut (s.withRegs ss vs k) := by
  unfold State.withRegs
  split
  exacts [hk, h.trap]

theorem Canonical.withLevel {l : Level} {k : Out} (h : Canonical s) (hk : CanonicalOut k) : CanonicalOut (s.withLevel l k) := by
  unfold State.withLevel
  split
  exacts [hk, h.trap]

theorem Canonical.cellOnly {k : Out} (h : Canonical s) (hk : CanonicalOut k) : CanonicalOut (s.cellOnly k) := by
  unfold State.cellOnly
  split
  exacts [h.trap, hk]

theorem Canonical.notReplay {k : Out} (h : Canonical s) (hk : CanonicalOut k) : CanonicalOut (s.notReplay k) := by
  unfold State.notReplay
  split
  · split
    exacts [.next h.mapHart, hk]
  · exact hk
end

section
variable {s : State}

/-! ## Shared operations of the state -/

theorem Canonical.putDie {x : Die} (h : Canonical s) : Canonical (s.putDie x) := h

theorem Canonical.putRail {x : Rail} (h : Canonical s) : Canonical (s.putRail x) := h

theorem Canonical.takeInterrupt {bit : Nat} {m : Level} {pc : Word} (h : Canonical s) : Canonical (s.takeInterrupt bit m pc) := by
  unfold State.takeInterrupt
  dsimp only
  split
  exacts [h.stopHart, h.setHart]

/-! ## Integer operations on operands -/

theorem Canonical.alu {f : Word → Word → Word} {d a b : Reg} (h : Canonical s) : CanonicalOut (alu f d a b s) := h.withRegs h.writeS

theorem Canonical.unary {f : Word → Word} {d a : Reg} (h : Canonical s) : CanonicalOut (unary f d a s) := h.withRegs h.writeS

/-! ## Placed teams -/

theorem Canonical.putLaunch {l : Launch} (h : Canonical s) : Canonical (s.putLaunch l) := h

/-! ## Global memory and translation -/

theorem Canonical.setDevReg {a : Nat} {v : Word} (h : Canonical s) : Canonical (s.setDevReg a v) := h

theorem wf_writeGranule {m : Mem} {g : Region} {i : Nat} {bs : List Byte} {y : Byte} (h : m.wf = true) : (writeGranule m g i bs y).wf = true :=
  Mem.wf_put _ _ (Mem.wf_write _ _ h)

theorem wf_writeGranules {m : Mem} {l : List Nat} {g : Region} {i : Nat → Nat} {bs : Nat → List Byte} {y : Nat → Byte} (h : m.wf = true) :
    (l.foldl (fun m k => writeGranule m g (i k) (bs k) (y k)) m).wf = true := by
  induction l generalizing m with
  | nil => exact h
  | cons k r ih => exact ih (wf_writeGranule h)

theorem Canonical.putPhysLine {kept : Bool} {pa : Nat} {bs sb : List Byte} (h : Canonical s) : Canonical (s.putPhysLine kept pa bs sb) := by
  obtain ⟨n, p, q⟩ := h
  unfold State.putPhysLine
  split
  · exact ⟨n, p, q⟩
  split
  · refine ⟨n, Mem.wf_write _ _ p, ?_⟩
    dsimp only
    split
    exacts [Mem.wf_write _ _ q, q]
  split
  · split
    · exact ⟨n, p, q⟩
    · exact ⟨n, wf_writeGranules p, q⟩
  · exact ⟨n, p, q⟩

theorem Canonical.putLine {l : OLine} (h : Canonical s) : Canonical (s.putLine l) := h

theorem Canonical.dropLine {k : LineKey} (h : Canonical s) : Canonical (s.dropLine k) := h

theorem Canonical.registerPt {rs : List PtReg} (h : Canonical s) : Canonical (s.registerPt rs) := h

theorem Canonical.fillEntry {asid page : Nat} {w : Word} {pa : Nat} {ls : List Nat} (h : Canonical s) : Canonical (s.fillEntry asid page w pa ls).2 :=
  h.registerPt.updateMem

theorem Canonical.askAgent {asid page : Nat} (h : Canonical s) : Canonical (s.askAgent asid page).2 := by
  unfold State.askAgent
  split
  · exact h
  split
  · exact h
  split
  · exact h
  split
  · exact h
  split
  · exact h
  split
  · dsimp only
    exact h.fillEntry
  · dsimp only
    exact h.registerPt.updateMem
  all_goals exact h

theorem Canonical.window {core : Bool} {lv : Level} {n : Need} {va : Nat} (h : Canonical s) : Canonical (s.window core lv n va).2 := by
  unfold State.window
  dsimp only
  split
  · exact h
  split
  · split
    · exact h
    split
    · exact h.putLine
    all_goals exact h
  · repeat' split
    all_goals exact h
  · exact h

theorem Canonical.miss {asid : Nat} {lv : Level} {n : Need} {va : Nat} (h : Canonical s) : Canonical (s.miss asid lv n va).2 := by
  unfold State.miss
  dsimp only
  split
  · split
    · exact h.askAgent.of_pair ‹_›
    split
    · exact h.askAgent.of_pair ‹_›
    split
    · exact h.askAgent.of_pair ‹_›
    split
    · exact (h.askAgent.of_pair ‹_›).putLine
    split
    · split
      · exact h.askAgent.of_pair ‹_›
      · exact (h.askAgent.of_pair ‹_›).putLine
    all_goals exact h.askAgent.of_pair ‹_›
  all_goals exact h.askAgent.of_pair ‹_›

theorem Canonical.locate {core : Bool} {asid : Nat} {lv : Level} {n : Need} {va : Nat} (h : Canonical s) :
    Canonical (s.locate core asid lv n va).2 := by
  unfold State.locate
  split
  · exact h
  split
  · exact h.window
  split
  · split
    exacts [h, h.miss]
  · exact h.miss

theorem Canonical.storeLine {n : Option Nat} {key : LineKey} {o : Nat} {bs sb : List Byte} (h : Canonical s) :
    Canonical (s.storeLine n key o bs sb) := by
  unfold State.storeLine
  split
  · exact h
  dsimp only
  exact h.putLine.mapCells (by simp)

theorem Canonical.storeMem {pa : Nat} {kept : Bool} {bs sb : List Byte} (h : Canonical s) : Canonical (s.storeMem pa kept bs sb) := by
  unfold State.storeMem
  split
  exacts [h.putPhysLine, h, h]

theorem Canonical.storeLate (h : Canonical s) : Canonical s.storeLate := h.updateMem.foldl fun _ _ h1 => h1.storeMem

theorem Canonical.fillCache {n : Nat} {l : OLine} (h : Canonical s) : Canonical (s.fillCache n l) := by
  unfold State.fillCache
  dsimp only
  split
  exacts [h, h.putCell]

theorem Canonical.allocate {n : Nat} {key : LineKey} (h : Canonical s) : Canonical (s.allocate n key) := by
  unfold State.allocate
  dsimp only
  split
  · split
    exacts [h, h.putCell]
  · exact h

theorem Canonical.register {n : Option Nat} {key : LineKey} {m : BitVec 16} (h : Canonical s) : Canonical (s.register n key m) := by
  unfold State.register
  dsimp only
  split
  · split
    exacts [h.allocate, h]
  refine .mapCells ?_ (by simp)
  split
  exacts [h.allocate, h]

theorem Canonical.returnWords {key : LineKey} (h : Canonical s) : Canonical (s.returnWords key) := h.mapCells (by simp)

theorem Canonical.agentFor {l : OLine} (h : Canonical s) : Canonical (s.agentFor l) := by
  unfold State.agentFor
  dsimp only
  split
  · exact h
  split
  exacts [h.fillEntry, h]

theorem Canonical.writeBackLine {through : Bool} {l : OLine} (h : Canonical s) : Canonical (s.writeBackLine through l) := by
  unfold State.writeBackLine
  split
  · exact h
  split
  · exact h
  dsimp only
  split
  exacts [h.agentFor.putLine.returnWords, h.agentFor.putLine.returnWords.putPhysLine]

theorem Canonical.cleanLines {through : Bool} {p : LineKey → Bool} (h : Canonical s) : Canonical (s.cleanLines through p) := by
  unfold State.cleanLines
  refine h.foldl fun t x h1 => ?_
  split
  exacts [h1.writeBackLine, h1]

theorem Canonical.returnAll {p : LineKey → Bool} (h : Canonical s) : Canonical (s.returnAll p) := h.mapCells (by simp)

theorem Canonical.dropCopies {p : LineKey → Bool} (h : Canonical s) : Canonical (s.dropCopies p) := (h.mapCells (by simp)).updateMem

/-! ## The network -/

theorem Canonical.countNet {d off lo width n : Nat} (h : Canonical s) : Canonical (s.countNet d off lo width n) := h.setDevReg

theorem Canonical.ageLosers {node : Nat} {won : InBuf × Packet} {out : Nat} (h : Canonical s) : Canonical (s.ageLosers node won out) := by
  unfold State.ageLosers
  refine h.foldl fun t x h1 => ?_
  dsimp only
  repeat' split
  all_goals exact h1

theorem Canonical.move {node : Nat} {p : InBuf × Packet} (h : Canonical s) : Canonical (s.move node p) := h

theorem Canonical.putOut {o : OutPort} (h : Canonical s) : Canonical (s.putOut o) := h

theorem Canonical.countWaits {t : Nat} (h : Canonical s) : Canonical (s.countWaits t) := h.foldl fun _ _ h1 => h1.countNet

theorem Canonical.routerGrant {node out : Nat} (h : Canonical s) : CanonicalOpt (s.routerGrant node out) := by
  unfold State.routerGrant
  dsimp only
  refine .mapOf fun x => .move ?_
  split
  · exact ((h.foldl (fun t x1 h1 => h1.ageLosers)).foldl (fun t x1 h1 => h1.putOut)).countNet
  · exact (h.foldl (fun t x1 h1 => h1.ageLosers)).foldl fun t x1 h1 => h1.putOut

theorem Canonical.netHere (h : Canonical s) : Canonical s.netHere := h

theorem Canonical.sendPacket {p : Packet} {t : Nat} (h : Canonical s) : Canonical (s.sendPacket p t) := by
  unfold State.sendPacket
  dsimp only
  repeat' split
  all_goals exact h

theorem Canonical.enter {q : Packet × Nat} (h : Canonical s) : Canonical (s.enter q) := h

theorem Canonical.inject (h : Canonical s) : CanonicalOpt s.inject := by
  unfold State.inject
  split
  exacts [.none, .some h.enter]

theorem Canonical.putMiss {m : Miss} (h : Canonical s) : Canonical (s.putMiss m) := h

theorem Canonical.dropMiss {m : Miss} (h : Canonical s) : Canonical (s.dropMiss m) := h

theorem Canonical.answerMiss {t : Nat} {m : Miss} {r : Got} (h : Canonical s) : Canonical (s.answerMiss t m r) := by
  unfold State.answerMiss
  split
  exacts [h.putMiss, h.putMiss.sendPacket]

theorem Canonical.landMsg {node : Nat} {p : Packet} (h : Canonical s) : Canonical (s.landMsg node p) := h

theorem Canonical.landMiss {node : Nat} {p : Packet} (h : Canonical s) : Canonical (s.landMiss node p) := h

theorem Canonical.deliver {node : Nat} {p : Packet} (h : Canonical s) : Canonical (s.deliver node p) := by
  unfold State.deliver
  dsimp only
  split
  · exact h.mapCells (by simp)
  · exact h.putCell
  · exact h
  · exact h
  · exact h.landMiss
  · exact h.landMiss
  · exact h.landMiss
  · exact h.landMsg

theorem Canonical.packetArrival {node inp : Nat} {p : Packet} (h : Canonical s) : CanonicalOpt (s.packetArrival node inp p) := by
  unfold State.packetArrival
  dsimp only
  split
  · split
    · exact .none
    split
    · exact .some h
    split
    · exact .none
    refine .some (.deliver ?_)
    repeat' split
    all_goals exact h
  refine .bindOf fun x => ?_
  split
  exacts [.some h.enter, .none]

theorem Canonical.takeOut {n id : Nat} (h : Canonical s) : Canonical (s.takeOut n id) := h

theorem Canonical.staleDrop {node : Nat} {p : Packet} (h : Canonical s) : CanonicalOpt (s.staleDrop node p) := by
  unfold State.staleDrop
  dsimp only
  split
  · split
    exacts [.some h.countNet, .none]
  · exact .none

theorem Canonical.arrivalStep (h : Canonical s) : CanonicalOpt s.arrivalStep :=
  .findSome fun _ => .bindOf fun _ => h.packetArrival.orElse h.staleDrop

theorem Canonical.grantStep (h : Canonical s) : CanonicalOpt s.grantStep := by
  unfold State.grantStep
  refine h.inject.orElse (.findSome (fun x => ?_))
  split
  exacts [.none, .bindOf (fun x1 => .findSome (fun x2 => h.routerGrant))]

/-! ## Coherence messages -/

theorem Canonical.stampMsg {t : Nat} {k : LineKey} {m : Sent} (h : Canonical s) : Canonical (s.stampMsg t k m).2 := by
  unfold State.stampMsg
  split
  · exact h
  dsimp only
  split
  exacts [h, h.sendPacket]

theorem Canonical.putCoh {t : Nat} {l : CohLine} (h : Canonical s) : Canonical (s.putCoh t l) := by
  unfold State.putCoh
  dsimp only
  split
  exacts [h, h.foldlSnd (fun r x h1 => h1.stampMsg)]

theorem Canonical.recallWords {die : Nat} {k : LineKey} (h : Canonical s) : Canonical (s.recallWords die k) := by
  unfold State.recallWords
  refine h.mapCells fun c => ?_
  split <;> simp

theorem Canonical.onLine {t : Nat} {k : LineKey} {due : CohLine → Bool} {f : CohLine → CohLine} (h : Canonical s) :
    CanonicalOpt (s.onLine t k due f) := by
  unfold State.onLine
  dsimp only
  split
  exacts [.some h.putCoh, .none]

theorem Canonical.tidyLine {k : LineKey} (h : Canonical s) : Canonical (s.tidyLine k) := by
  unfold State.tidyLine
  split
  · split
    · split
      exacts [h, h.dropLine]
    · exact h
  · exact h

theorem Canonical.request {t : Nat} {k : LineKey} {d : Nat} {up : Bool} {m : CohMsg} {st : DieState} {serve : CohLine → CohLine} (h : Canonical s) :
    Canonical (s.request t k d up m st serve) := by
  unfold State.request
  dsimp only
  split
  · exact h.putCoh
  split
  exacts [h, h.putCoh]

theorem Canonical.getsAt {t d : Nat} {k : LineKey} (h : Canonical s) : Canonical (s.getsAt t d k) := h.request

theorem Canonical.getmAt {t d : Nat} {k : LineKey} (h : Canonical s) : Canonical (s.getmAt t d k) := h.request

theorem Canonical.upgAt {t d : Nat} {k : LineKey} (h : Canonical s) : Canonical (s.upgAt t d k) := h.request

theorem Canonical.fwdGetsAt {t d : Nat} {k : LineKey} (h : Canonical s) : CanonicalOpt (s.fwdGetsAt t d k) := .mapOf fun _ => h.recallWords.putCoh

theorem Canonical.fwdGetmAt {t d : Nat} {k : LineKey} (h : Canonical s) : CanonicalOpt (s.fwdGetmAt t d k) := .mapOf fun _ => h.recallWords.putCoh

theorem Canonical.invAckAt {t d : Nat} {k : LineKey} (h : Canonical s) : CanonicalOpt (s.invAckAt t d k) := h.onLine

theorem Canonical.serveOnce {t d : Nat} {k : LineKey} {v : Option (List Byte × List Byte)} (h : Canonical s) : Canonical (s.serveOnce t d k v) := by
  unfold State.serveOnce
  split
  exacts [h.foldl (fun t1 x h1 => h1.answerMiss), h]

theorem Canonical.dataAt {t d : Nat} {k : LineKey} (h : Canonical s) : CanonicalOpt (s.dataAt t d k) := by
  unfold State.dataAt
  dsimp only
  split
  · exact .some h.putCoh.serveOnce
  split
  exacts [.some h.putCoh.serveOnce, .none]

theorem Canonical.unblockAt {t d : Nat} {k : LineKey} (h : Canonical s) : CanonicalOpt (s.unblockAt t d k) := h.onLine

theorem Canonical.invalAt {t d : Nat} {k : LineKey} (h : Canonical s) : CanonicalOpt (s.invalAt t d k) := .mapOf fun _ => h.putCoh

theorem Canonical.ackCountAt {t d : Nat} {k : LineKey} (h : Canonical s) : CanonicalOpt (s.ackCountAt t d k) := .mapOf fun _ => h.putCoh

theorem Canonical.puteAt {t die : Nat} {k : LineKey} (h : Canonical s) : CanonicalOpt (s.puteAt t die k) := h.onLine.map fun _ h1 => h1.tidyLine

theorem Canonical.sendPute {t die : Nat} {k : LineKey} (h : Canonical s) : CanonicalOpt (s.sendPute t die k) := .bindOf fun _ => h.onLine

theorem Canonical.placeReqAt {t die slice entry : Nat} {k : LineKey} (h : Canonical s) : CanonicalOpt (s.placeReqAt t die slice entry k) := h.onLine

theorem Canonical.placeGrantAt {t die : Nat} {k : LineKey} (h : Canonical s) : CanonicalOpt (s.placeGrantAt t die k) := h.onLine

theorem Canonical.execPlaceRequest {die slice entry : Nat} {l : LineKey} (h : Canonical s) : CanonicalOut (execPlaceRequest die slice entry l s) := by
  unfold Machine.execPlaceRequest
  split
  · exact .next (h.placeReqAt _ ‹_›)
  split
  · exact .next h
  dsimp only
  split
  exacts [.next h.recallWords.putCoh, .next h]

theorem Canonical.writeBackAt {t die : Nat} {k : LineKey} (h : Canonical s) : CanonicalOpt (s.writeBackAt t die k) := by
  unfold State.writeBackAt
  dsimp only
  split
  · refine .some ?_
    split
    · split
      exacts [h.putCoh.writeBackLine, h.putCoh]
    · exact h.putCoh
  · exact .none

theorem Canonical.wbAckAt {t die : Nat} {k : LineKey} (h : Canonical s) : CanonicalOpt (s.wbAckAt t die k) := h.onLine.map fun _ h1 => h1.tidyLine

theorem Canonical.cohRead {d : Nat} {k : LineKey} (h : Canonical s) : CanonicalOpt (s.cohRead d k) := by
  unfold State.cohRead
  dsimp only
  split
  · exact .some h
  split
  · exact .none
  split
  · exact .some h.putCoh
  · exact .some h.putCoh
  split
  exacts [.none, .some h.recallWords.putCoh]

theorem Canonical.cohWrite {d : Nat} {k : LineKey} (h : Canonical s) : CanonicalOpt (s.cohWrite d k) := by
  unfold State.cohWrite
  dsimp only
  split
  · exact .some h
  split
  · exact .some h.putCoh
  split
  exacts [.none, .some ((h.foldl (fun t x h1 => h1.recallWords)).putCoh)]

theorem Canonical.msgAt {t : Nat} {k : LineKey} {m : CohMsg} (h : Canonical s) : CanonicalOpt (s.msgAt t k m) := by
  unfold State.msgAt
  dsimp only
  split
  · exact h.onLine
  · exact h.onLine
  · exact h.onLine
  · exact h.fwdGetsAt
  · exact h.fwdGetmAt
  · exact h.invalAt
  · exact h.invAckAt
  · exact h.ackCountAt
  · exact h.dataAt
  · exact h.unblockAt
  · exact h.writeBackAt
  · exact h.puteAt
  · exact h.wbAckAt
  · exact h.placeReqAt
  · exact h.placeGrantAt

theorem Canonical.cohStep {t : Nat} {l : CohLine} (h : Canonical s) : CanonicalOpt (s.cohStep t l) := by
  unfold State.cohStep
  split
  · exact .some h.putCoh
  refine .findSome fun x => ?_
  split
  exacts [h.msgAt, .none]

theorem Canonical.freeTag {k : LineKey} (h : Canonical s) : Canonical (s.freeTag k) := by
  unfold State.freeTag
  dsimp only
  split
  · exact h
  refine .tidyLine (.putCoh ?_)
  split
  · exact (h.foldl (fun t x h1 => h1.recallWords)).writeBackLine
  · exact h.foldl fun t x h1 => h1.recallWords

/-! ## Branches and loops -/

theorem Canonical.branch {cond : Word → Word → Bool} {a b : Reg} {off : Word} (h : Canonical s) : CanonicalOut (branch cond a b off s) := by
  unfold Machine.branch
  refine h.withRegs ?_
  split
  exacts [.next h.mapHart, h.finish]

theorem Canonical.execBlt {a b : Reg} {off : Word} (h : Canonical s) : CanonicalOut (execBlt a b off s) := h.branch

theorem Canonical.execBge {a b : Reg} {off : Word} (h : Canonical s) : CanonicalOut (execBge a b off s) := h.branch

theorem Canonical.execBltn {a b : Reg} {off : Word} (h : Canonical s) : CanonicalOut (execBltn a b off s) := h.branch

theorem Canonical.execBgen {a b : Reg} {off : Word} (h : Canonical s) : CanonicalOut (execBgen a b off s) := h.branch

theorem Canonical.execCalli {d a : Reg} (h : Canonical s) : CanonicalOut (execCalli d a s) := by
  unfold Machine.execCalli
  refine h.withRegs ?_
  dsimp only
  split
  exacts [h.trap, .next h.mapHart]

theorem Canonical.execLoop {a : Reg} {off : Word} (h : Canonical s) : CanonicalOut (execLoop a off s) := by
  unfold Machine.execLoop
  refine h.withRegs ?_
  dsimp only
  exact .next h.setHart

/-! ## LOCAL -/

theorem Canonical.withLocal {a : Word} {align n : Nat} {k : Nat → Out} (h : Canonical s) (hk : ∀ x, CanonicalOut (k x)) :
    CanonicalOut (s.withLocal a align n k) := by
  unfold State.withLocal
  split
  · exact h.trap
  split
  exacts [h.trap, hk _]

/-! ## Faults and fault records -/

theorem Canonical.putUnit {u : FaultUnit} (h : Canonical s) : Canonical (s.putUnit u) := h

theorem Canonical.faultNotice {u : FaultUnit} (h : Canonical s) : Canonical (s.faultNotice u) := by
  unfold State.faultNotice
  split
  exacts [h.notice, h]

theorem Canonical.markDropped {d asid page : Nat} (h : Canonical s) : Canonical (s.markDropped d asid page) := h

theorem Canonical.recordFault {cell : Nat} {k : Slot} {asid page kind : Nat} {wr prec park : Bool} (h : Canonical s) :
    Canonical (s.recordFault cell k asid page kind wr prec park) := by
  unfold State.recordFault
  dsimp only
  split
  · exact h.askAgent.putUnit
  split
  · exact h.askAgent.putUnit.faultNotice
  split
  exacts [h.askAgent, h.askAgent.putUnit.faultNotice.markDropped]

theorem Canonical.recordAccess {cell : Nat} {k : Slot} {asid page kind : Nat} {park : Bool} (h : Canonical s) :
    Canonical (s.recordAccess cell k asid page kind park) :=
  h.recordFault

theorem Canonical.failGlobal {c : Cause} {addr : Nat} (h : Canonical s) : CanonicalOut (s.failGlobal c addr) := by
  unfold State.failGlobal
  split
  exacts [.next h.mapHart, h.trap]

theorem Canonical.pageFault {n : Need} {addr : Nat} (h : Canonical s) : CanonicalOut (s.pageFault n addr) := by
  unfold State.pageFault
  dsimp only
  refine .failGlobal ?_
  split
  exacts [h.askAgent, h.recordAccess]

theorem Canonical.answerFails {α : Type} {n : Need} {addr : Nat} {x : Answer α} (h : Canonical s) : CanonicalOut (s.answerFails n addr x) := by
  unfold State.answerFails
  split
  · exact h.pageFault
  · exact h.failGlobal
  · exact h.failGlobal
  · exact .next h
  · exact h.failGlobal

theorem Canonical.mapDone {d e : Nat} (h : Canonical s) : Canonical (s.mapDone d e) := h.putUnit

theorem Canonical.execPageFault {c : Nat} {k : Slot} {va kind : Nat} {park : Bool} (h : Canonical s) :
    CanonicalOut (execPageFault c k va kind park s) := by
  unfold Machine.execPageFault
  dsimp only
  split
  · exact .next ((h.askAgent.of_pair ‹_›).recordAccess)
  · exact .next h

/-! ## The engines' own accesses and the translation's stores -/

theorem Canonical.dropDerived {line : Nat} (h : Canonical s) : Canonical (s.dropDerived line) := h

theorem Canonical.putTable {pa : Nat} {bs : List Byte} (h : Canonical s) : Canonical (s.putTable pa bs) := by
  unfold State.putTable
  split
  · exact (h.window.of_pair ‹_›).storeLine
  · exact h.window.of_pair ‹_›

theorem Canonical.drainParked {p : LineKey → Bool} (h : Canonical s) : Canonical (s.drainParked p) := by
  unfold State.drainParked
  dsimp only
  refine h.foldl fun t x h1 => ?_
  split
  · split
    exacts [h1.putPhysLine, h1]
  · exact h1

theorem Canonical.performRetract {p : PtStore} (h : Canonical s) : Canonical (s.performRetract p) :=
  h.drainParked.cleanLines.dropCopies.dropDerived.putTable

theorem Canonical.renewEntries {p : PtStore} (h : Canonical s) : Canonical (s.renewEntries p) := h

theorem Canonical.releaseParked (h : Canonical s) : Canonical s.releaseParked := by
  unfold State.releaseParked
  dsimp only
  refine h.foldl fun t x h1 => ?_
  split
  exacts [h1.putPhysLine, h1]

theorem Canonical.performPt {p : PtStore} (h : Canonical s) : CanonicalOpt (s.performPt p) := by
  unfold State.performPt
  dsimp only
  split
  · exact .some h
  split
  · exact .none
  refine h.cohWrite.map fun t h1 => ?_
  split
  · exact h1.updateMem.dropDerived.putTable
  · exact h1.updateMem.performRetract
  · exact h1.updateMem.renewEntries.putTable
  · exact h1.updateMem.renewEntries.putTable.releaseParked

theorem Canonical.sendPt {kind owner pa : Nat} {bs : List Byte} (h : Canonical s) : Canonical (s.sendPt kind owner pa bs) := h

theorem Canonical.storeTable {die pa : Nat} {bs : List Byte} (h : Canonical s) : CanonicalOpt (s.storeTable die pa bs) := by
  unfold State.storeTable
  dsimp only
  split
  exacts [.none, h.cohWrite.map (fun t h1 => h1.performRetract)]

theorem Canonical.storeFor {who : Party} {p : Place} {va : Nat} {bs sb : List Byte} (h : Canonical s) : CanonicalOpt (s.storeFor who p va bs sb) := by
  unfold State.storeFor
  split
  · dsimp only
    split
    exacts [h.storeTable, h.cohWrite.map (fun t h1 => h1.register.storeLine)]
  · exact .some h.storeMem
  · exact .some h

theorem Canonical.readPiece {die asid : Nat} {lv : Level} {va n : Nat} (h : Canonical s) : Canonical (s.readPiece die asid lv va n).2 := by
  unfold State.readPiece
  split
  · split
    · exact ((h.locate.of_pair ‹_›).cohRead) _ ‹_›
    · exact h.locate.of_pair ‹_›
  all_goals exact h.locate.of_pair ‹_›

theorem Canonical.storeAt {asid : Nat} {lv : Level} {va : Nat} (h : Canonical s) : Canonical (s.storeAt asid lv va).2 := by
  unfold State.storeAt
  split
  · exact h.locate.of_pair ‹_›
  · exact h.locate.of_pair ‹_›
  · exact h.locate

theorem Canonical.writePiece {who : Party} {asid : Nat} {lv : Level} {va : Nat} {bs sb : List Byte} (h : Canonical s) :
    Canonical (s.writePiece who asid lv va bs sb).2 := by
  unfold State.writePiece
  split
  · split
    · exact ((h.storeAt.of_pair ‹_›).storeFor) _ ‹_›
    · exact h.storeAt.of_pair ‹_›
  all_goals exact h.storeAt.of_pair ‹_›

theorem Canonical.readGlobal {die asid : Nat} {lv : Level} {va n : Nat} (h : Canonical s) : Canonical (s.readGlobal die asid lv va n).2 := by
  unfold State.readGlobal
  refine .foldlSnd h fun r p h => ?_
  split
  · split <;> exact Canonical.of_pair (Canonical.readPiece h) ‹_›
  · exact h

theorem Canonical.writeGlobal {who : Party} {asid : Nat} {lv : Level} {va : Nat} {bs : List Byte} (h : Canonical s) :
    Canonical (s.writeGlobal who asid lv va bs).2 := by
  unfold State.writeGlobal
  refine foldl_keeps (P := fun r : (Answer Unit × State) × List Byte => Canonical r.1.2) h fun r p h => ?_
  split
  exacts [Canonical.writePiece h, h]

theorem Canonical.noteFault {by_ : Nat × Slot} {need : Need} {asid : Nat} {lv : Level} {va n : Nat} (h : Canonical s) :
    Canonical (s.noteFault by_ need asid lv va n) := by
  unfold State.noteFault
  split
  exacts [h.recordFault, h]

theorem Canonical.writeNoted {o : Owed} (h : Canonical s) : CanonicalOpt (s.writeNoted o) := by
  unfold State.writeNoted
  split
  · exact .none
  · refine .some ?_
    split
    · exact (h.writeGlobal.of_pair ‹_›).noteFault
    · exact h.writeGlobal.of_pair ‹_›
  · exact .some (h.writeGlobal.of_pair ‹_›)

theorem Canonical.writeOwed {o : Owed} (h : Canonical s) : Canonical (s.writeOwed o) := h.writeNoted.getD h

theorem Canonical.owedStep (h : Canonical s) : CanonicalOpt s.owedStep := .findSome fun _ => h.writeNoted.map fun _ h1 => h1

theorem Canonical.readWords {die asid : Nat} {lv : Level} {va n : Nat} (h : Canonical s) : Canonical (s.readWords die asid lv va n).2 := by
  unfold State.readWords
  repeat' split
  all_goals exact h.readGlobal.of_pair ‹_›

theorem Canonical.engineRead {by_ : Nat × Slot} {asid : Nat} {lv : Level} {va n : Nat} (h : Canonical s) :
    Canonical (s.engineRead by_ asid lv va n).2 := by
  unfold State.engineRead
  split
  · exact (h.readGlobal.of_pair ‹_›).noteFault
  · exact h.readGlobal

/-! ## Graphs, dispatch and task ends -/

theorem Canonical.readNode {l : Launch} {n : Node} (h : Canonical s) : Canonical (s.readNode l n).2 := by
  unfold State.readNode
  dsimp only
  split
  · exact h
  split
  · exact h.engineRead.of_pair ‹_›
  · repeat' split
    all_goals exact ((h.engineRead.of_pair ‹_›).engineRead).of_pair ‹_›
  · exact h.engineRead.of_pair ‹_›

theorem Canonical.readLate {l : Launch} {n : Node} {counted : Nat} (h : Canonical s) : CanonicalOpt (s.readLate l n counted) := by
  unfold State.readLate
  dsimp only
  split
  · exact .none
  · exact .some ((h.engineRead.of_pair ‹_›).putLaunch)
  · exact .some ((h.engineRead.of_pair ‹_›).putLaunch)

theorem Canonical.readyNode {l : Launch} {n : Node} (h : Canonical s) : Canonical (s.readyNode l n) := by
  unfold State.readyNode
  split
  exacts [h.putLaunch, h.putLaunch.writeOwed]

theorem Canonical.resolve {l : Launch} {n : Node} (h : Canonical s) : CanonicalOpt (s.resolve l n) := by
  unfold State.resolve
  split
  · exact h.readLate
  split
  · exact .some ((h.readNode.of_pair ‹_›).readyNode)
  · exact .some ((h.readNode.of_pair ‹_›).putLaunch)
  · exact .none

theorem Canonical.refill {lead : Nat} (h : Canonical s) : CanonicalOpt (s.refill lead) := by
  unfold State.refill
  split
  · exact .none
  dsimp only
  refine .bindOf fun x => ?_
  split
  · exact .none
  · exact .some ((h.engineRead.of_pair ‹_›).putLaunch)

theorem Canonical.serve {lead : Nat} {all : List (Launch × Node × Nat × Nat)} {l : Launch} {n : Node} {team c : Nat} (h : Canonical s) :
    Canonical (s.serve lead all l n team c) := by
  unfold State.serve
  split
  · exact h
  dsimp only
  exact h.update.setHartAt

theorem Canonical.dispatch {lead : Nat} (h : Canonical s) : CanonicalOpt (s.dispatch lead) := by
  unfold State.dispatch
  split
  · exact .some ((CanonicalOpt.findSome (fun x => .findSome (fun x1 => h.resolve))) _ ‹_›)
  dsimp only
  exact .mapOf fun x => h.serve

theorem Canonical.execChuckStart {c : Nat} {k : Slot} (h : Canonical s) : CanonicalOut (execChuckStart c k s) := by
  unfold Machine.execChuckStart
  dsimp only
  split
  · exact .next h
  split
  · exact .next h
  split
  exacts [.next h, .next h.putCell]

theorem Canonical.parkNode {l : Launch} {n : Node} {die page : Nat} (h : Canonical s) : Canonical (s.parkNode l n die page) := h.putLaunch

theorem Canonical.settleRec {l : Launch} {r : TaskRecord} (h : Canonical s) : Canonical (s.settleRec l r) := by
  unfold State.settleRec
  split
  · exact h
  dsimp only
  split
  · exact h.putLaunch
  split
  · exact h.putLaunch
  split
  · split
    exacts [h.readyNode, h.parkNode]
  · exact h

theorem Canonical.ringPut {id : Nat} {r : TaskRecord} (h : Canonical s) : CanonicalOpt (s.ringPut id r) := by
  unfold State.ringPut
  refine .bindOf fun x => ?_
  dsimp only
  exact h.writeNoted.bind fun t h1 => .mapOf fun x1 => h1.putLaunch.settleRec

theorem Canonical.acceptRec {l : Launch} (h : Canonical s) : CanonicalOpt (s.acceptRec l) := by
  unfold State.acceptRec
  split
  · exact .none
  split
  · exact h.putLaunch.ringPut
  refine .bindOf fun x => ?_
  dsimp only
  exact .bindOf fun x1 => h.setHartAt.ringPut

theorem Canonical.recordWrite {lead : Nat} (h : Canonical s) : CanonicalOpt (s.recordWrite lead) := .findSome fun _ => h.acceptRec

theorem Canonical.taskAbort {c : Nat} {k : Slot} (h : Canonical s) : CanonicalOpt (s.taskAbort c k) := by
  unfold State.taskAbort
  dsimp only
  split
  · exact .none
  split
  · exact .none
  split
  · exact .none
  split
  · exact .some h.setHartAt
  split
  · exact .some h.setHartAt
  refine .some (.setHartAt ?_)
  split
  exacts [h, h.putLaunch]

theorem Canonical.execTaskAbort {c : Nat} {k : Slot} {reason : Nat} (h : Canonical s) : CanonicalOut (execTaskAbort c k reason s) := by
  unfold Machine.execTaskAbort
  dsimp only
  refine .next ?_
  split
  · split
    exacts [h.taskAbort.getD h, h]
  · split
    exacts [h.taskAbort.getD h, h]
  · split
    exacts [h.taskAbort.getD h, h]
  split
  exacts [h.taskAbort.getD h, h]

theorem Canonical.starvation {id team : Nat} (h : Canonical s) : CanonicalOpt (s.starvation id team) := by
  unfold State.starvation
  refine .bindOf fun x => .bindOf fun x1 => ?_
  split
  · exact .none
  split
  exacts [.some h.putLaunch, .none]

theorem Canonical.launchDrained {id : Nat} (h : Canonical s) : CanonicalOpt (s.launchDrained id) := by
  unfold State.launchDrained
  refine .bindOf fun x => ?_
  split
  exacts [.some h.putLaunch, .none]

theorem Canonical.gangStart {id : Nat} (h : Canonical s) : CanonicalOpt (s.gangStart id) := by
  unfold State.gangStart
  refine .bindOf fun x => ?_
  split
  exacts [.some h.putLaunch, .none]

theorem Canonical.addNode {id : Nat} {sp : Spawn} {parent : Option (Nat × Nat)} (h : Canonical s) : Canonical (s.addNode id sp parent) := by
  unfold State.addNode
  split
  · exact h
  dsimp only
  split
  · exact h.writeOwed
  repeat' split
  all_goals exact h.writeOwed.putLaunch

theorem Canonical.spawnAdd {id : Nat} (h : Canonical s) : CanonicalOpt (s.spawnAdd id) := by
  unfold State.spawnAdd
  refine .bindOf fun x => .mapOf fun x1 => ?_
  dsimp only
  split
  · exact h.setHartAt
  split
  · split
    exacts [h.putLaunch.setHartAt, h.putLaunch.setHartAt.addNode]
  · exact h.putLaunch.setHartAt.addNode

theorem Canonical.tbarComplete {id team : Nat} {w : IWord} (h : Canonical s) : CanonicalOpt (s.tbarComplete id team w) := by
  unfold State.tbarComplete
  dsimp only
  split
  exacts [.some (h.foldl (fun t x h1 => h1.putCell)), .none]

theorem Canonical.replayNodes {p : ParkedNode → Bool} (h : Canonical s) : Canonical (s.replayNodes p).2 := by
  unfold State.replayNodes
  dsimp only
  refine h.updateMem.foldl fun t x h1 => ?_
  split
  · exact h1
  split
  exacts [h1, h1.readyNode]

/-! ## Misses -/

theorem Canonical.sendMiss {t : Nat} {m : Miss} (h : Canonical s) : Canonical (s.sendMiss t m) := by
  unfold State.sendMiss
  dsimp only
  split
  exacts [h, h.updateMem.sendPacket]

theorem Canonical.sendHere {ms : List Miss} (h : Canonical s) : Canonical (s.sendHere ms) := h.foldl fun _ _ h1 => h1.sendMiss

theorem Canonical.askHere {ms : List Miss} (h : Canonical s) : Canonical (s.askHere ms) := h.sendHere.mapHart

/-! ## Stores that leave the cells -/

theorem Canonical.performRec {who : Party} {asid : Nat} {r : StoreRec} (h : Canonical s) : Canonical (s.performRec who asid r).2 := h.writePiece

theorem Canonical.performAll {who : Party} {asid : Nat} {rs : List StoreRec} (h : Canonical s) : CanonicalOpt (s.performAll who asid rs) := by
  unfold State.performAll
  refine .foldl (.some h) fun p x h1 => h1.bind fun t h2 => ?_
  split
  · exact .none
  · exact .some (h2.performRec.of_pair ‹_›)

theorem Canonical.heldFails {n : Nat} {k : Slot} {c : Cause} {a : Nat} (h : Canonical s) : Canonical (s.heldFails n k c a) := by
  unfold State.heldFails
  dsimp only
  refine .setHartAt ?_
  split
  exacts [h.recordAccess, h]

theorem Canonical.drainHeld {n : Nat} {k : Slot} {done : Nat → Bool} {rs : List StoreRec} (h : Canonical s) :
    Canonical (drainHeld n k done rs s).2 := by
  induction rs generalizing s with
  | nil => exact h
  | cons r rs ih =>
    unfold Machine.drainHeld
    split
    · exact h
    split
    · exact h
    refine ih ?_
    have k := h.performRec.of_pair ‹_›
    split
    exacts [k.heldFails, k]

theorem Canonical.drainCell {n : Nat} (h : Canonical s) : Canonical (s.drainCell n) := by
  unfold State.drainCell
  refine h.foldl fun t x h1 => ?_
  dsimp only
  split
  exacts [h1, h1.drainHeld.setHartAt]

theorem Canonical.heldDue {n : Nat} (h : Canonical s) : CanonicalOpt (s.heldDue n) := by
  unfold State.heldDue
  refine .findSome fun x => ?_
  split
  · exact .none
  split
  exacts [.some h.drainCell, .none]

theorem Canonical.stageStores {t : Task} {rs : List StoreRec} (h : Canonical s) : CanonicalOut (s.stageStores t rs) := by
  unfold State.stageStores
  split
  · exact .next h.mapHart
  dsimp only
  exact h.sendHere.done

theorem Canonical.performStores {rs : List StoreRec} {rel : Bool} (h : Canonical s) : CanonicalOut (s.performStores rs rel) := by
  unfold State.performStores
  dsimp only
  split
  · split
    · exact h.done
    split
    · exact h.reissue
    split
    · exact (h.performAll _ ‹_›).finish
    · exact (((h.performAll _ ‹_›).foldl (fun t x h1 => h1.sendPt)).mapHart).reissue
  split
  · exact h.done
  split
  · exact h.reissue
  split
  · exact (h.performAll _ ‹_›).finish
  · exact (((h.performAll _ ‹_›).foldl (fun t x h1 => h1.sendPt)).mapHart).reissue

theorem Canonical.storeFails {c : Cause} {a : Nat} (h : Canonical s) : CanonicalOut (s.storeFails c a) := by
  unfold State.storeFails
  split
  exacts [h.trap, h.pageFault, h.failGlobal]

theorem Canonical.storeChecked {rs : List StoreRec} {rel : Bool} {bad : Option (Cause × Nat)} (h : Canonical s) :
    CanonicalOut (s.storeChecked rs rel bad) := by
  unfold State.storeChecked
  dsimp only
  split
  · split
    exacts [h.reissue, h.finish]
  split
  · exact h.reissue
  · split
    exacts [h.failGlobal, h.reissue]
  · split
    · exact h.reissue
    split
    · exact h.storeFails
    split
    · exact h.reissue
    split
    exacts [h.storeFails, h.performStores]
  split
  · split
    exacts [h.storeFails, h.performStores]
  · exact h.askHere.mapHart.reissue

theorem Canonical.storeGlobal {rs : List StoreRec} {rel : Bool} {bad : Option (Cause × Nat)} (h : Canonical s) :
    CanonicalOut (s.storeGlobal rs rel bad) := by
  unfold State.storeGlobal
  split
  · split
    · split
      exacts [h.storeFails, h.stageStores]
    · exact h.storeChecked
  · exact h.storeChecked

/-! ## Scheduling instructions -/

theorem Canonical.onObject {ss : List Reg} {a : Reg} {k : Nat → Out} (h : Canonical s) (hk : ∀ x, CanonicalOut (k x)) :
    CanonicalOut (onObject ss a k s) :=
  h.cellOnly (h.withRegs (h.withLocal (fun _ => hk _)))

theorem Canonical.execBarv {d a b : Reg} (h : Canonical s) : CanonicalOut (execBarv d a b s) := by
  unfold Machine.execBarv
  refine h.onObject fun x => ?_
  dsimp only
  exact (h.mapCell (by simp)).writeS

theorem Canonical.acquire (h : Canonical s) : Canonical s.acquire := by
  unfold State.acquire
  split
  exacts [h, h.mapCell (by simp)]

theorem Canonical.execBwait {try_ : Bool} {d a b : Reg} (h : Canonical s) : CanonicalOut (execBwait try_ d a b s) := by
  unfold Machine.execBwait
  split
  · split
    · exact h.trap
    split
    exacts [h.acquire.finish, .next h]
  refine h.onObject fun x => ?_
  dsimp only
  split
  · split
    exacts [h.acquire.writeS, h.writeS]
  split
  exacts [h.acquire.finish, (h.mapCell (by simp)).waitOn]

theorem Canonical.execBtest {d a : Reg} (h : Canonical s) : CanonicalOut (execBtest d a s) := by
  unfold Machine.execBtest
  refine h.onObject fun x => ?_
  dsimp only
  exact h.acquire.writeS

theorem Canonical.parks (h : Canonical s) : CanonicalOut s.parks := .next h.mapHart

theorem Canonical.notHanded {k : Out} (h : Canonical s) (hk : CanonicalOut k) : CanonicalOut (s.notHanded k) := by
  unfold State.notHanded
  split
  exacts [h.trap, hk]

theorem Canonical.commit {t : Task} (h : Canonical s) : CanonicalOpt (s.commit t) := h.performAll

theorem Canonical.execTend (h : Canonical s) : CanonicalOut (execTend s) := by
  unfold Machine.execTend
  refine h.cellOnly (h.notHanded ?_)
  split
  · exact h.parks
  dsimp only
  split
  · exact h.reissue
  split
  · exact h.storeFails
  split
  · exact h.reissue
  split
  · exact h.reissue
  · exact .next (((h.commit _ ‹_›).foldl (fun t x h1 => h1.addNode)).mapHart)

theorem Canonical.abandonTask {detail : Nat} (h : Canonical s) : CanonicalOut (s.abandonTask detail) := by
  unfold State.abandonTask
  refine h.cellOnly (h.notHanded ?_)
  split
  exacts [h.parks, .next h.mapHart]

theorem Canonical.execTspawn {d a : Reg} (h : Canonical s) : CanonicalOut (execTspawn d a s) := by
  unfold Machine.execTspawn
  refine h.cellOnly (h.withRegs ?_)
  split
  · exact h.writeS
  · exact h.reissue
  dsimp only
  split
  · split
    exacts [h.mapHart.reissue, h.reissue]
  refine h.withLocal fun x => ?_
  split
  exacts [h.mapHart.mapHart.reissue, h.mapHart.reissue]

theorem Canonical.execEvget {d a : Reg} (h : Canonical s) : CanonicalOut (execEvget d a s) := by
  unfold Machine.execEvget
  refine h.cellOnly (h.withRegs (h.notReplay (h.withLocal (fun x => ?_))))
  split
  · split
    · exact h.writeS
    split
    exacts [h.writeS, (h.putLaunch.mapCell (by simp)).writeS]
  · exact h.mapHart.reissue

theorem Canonical.execTbar {try_ : Bool} {d a b : Reg} (h : Canonical s) : CanonicalOut (execTbar try_ d a b s) := by
  unfold Machine.execTbar
  dsimp only
  split
  · split
    · split
      exacts [(h.mapCell (by simp)).acquire.writeS, (h.mapCell (by simp)).acquire.finish]
    · exact .next h
  refine h.cellOnly (h.withRegs ?_)
  split
  · exact h.trap
  split
  · exact h.trap
  split
  · exact h.trap
  split
  · split
    exacts [(h.mapCell (by simp)).acquire.writeS, (h.mapCell (by simp)).acquire.finish]
  split
  · split
    · exact h.trap
    split
    exacts [(h.mapCell (by simp)).writeS, (h.mapCell (by simp)).waitOn]
  split
  · exact h.trap
  split
  exacts [(h.mapCell (by simp)).writeS, (h.mapCell (by simp)).waitOn]

theorem Canonical.execYield (h : Canonical s) : CanonicalOut (execYield s) := by
  unfold Machine.execYield
  split
  exacts [h.finish, h.reissue]

theorem Canonical.execSleep {a : Reg} (h : Canonical s) : CanonicalOut (execSleep a s) := by
  unfold Machine.execSleep
  refine h.withRegs ?_
  split
  · exact h.finish
  split
  exacts [.next h, h.waitOn]

/-! ## Pools -/

theorem Canonical.endRediv {c : Cell} {r : Rediv} {code : Nat} (h : Canonical s) : Canonical (s.endRediv c r code) := h.putCell

theorem Canonical.poolHandshake {n : Nat} (h : Canonical s) : CanonicalOpt (s.poolHandshake n) := by
  unfold State.poolHandshake
  dsimp only
  split
  · split
    · repeat' split
      all_goals exact .some h.putCell
    · exact .none
  · exact .none

theorem Canonical.matTimeout {n : Nat} (h : Canonical s) : CanonicalOpt (s.matTimeout n) := by
  unfold State.matTimeout
  dsimp only
  split
  · split
    exacts [.some h.endRediv, .none]
  · exact .none

theorem Canonical.poolSwitch {n : Nat} (h : Canonical s) : CanonicalOpt (s.poolSwitch n) := by
  unfold State.poolSwitch
  dsimp only
  split
  · split
    · refine .some ?_
      repeat' split
      all_goals exact h.endRediv
    · exact .none
  · exact .none

theorem Canonical.execPool {d : Reg} {src dst : BitVec 3} {m : BitVec 5} (h : Canonical s) : CanonicalOut (execPool d src dst m s) := by
  unfold Machine.execPool
  refine h.cellOnly (h.withRegs ?_)
  split
  · exact h.writeS
  dsimp only
  split
  · split
    · exact ((h.mapCell (by simp)).mapHart.mapCell (by simp)).reissue
    split
    · exact ((h.mapCell (by simp)).mapHart.mapCell (by simp)).writeS
    · exact ((h.mapCell (by simp)).mapHart.mapCell (by simp)).reissue
  split
  exacts [h.writeS, h.reissue]

theorem Canonical.execPoolq {d : Reg} {sel : BitVec 6} (h : Canonical s) : CanonicalOut (execPoolq d sel s) := by
  unfold Machine.execPoolq
  refine h.cellOnly (h.withRegs ?_)
  dsimp only
  split
  · exact h.writeS
  · exact h.writeS
  · exact (h.mapCell (by simp)).writeS
  · exact h.writeS
  · exact h.writeS
  split
  exacts [h.writeS, h.trap]

/-! ## The matrix engine -/

theorem Canonical.matIssue {i : Instr} {ss : List Reg} {checks : List (Bool × Cause × Word)} {op : MatOp} {expect : Option (Nat × Nat)}
    (h : Canonical s) :
    CanonicalOut (s.matIssue i ss checks op expect) := by
  unfold State.matIssue
  refine h.cellOnly (h.withRegs ?_)
  split
  · exact .next h
  dsimp only
  split
  · exact (h.mapCell (by simp)).trap
  split
  · refine (h.mapCell (fun c => ?_)).finish
    split <;> simp
  · exact (h.mapCell (by simp)).waitOn

theorem Canonical.execMlds {d a : Reg} (h : Canonical s) : CanonicalOut (execMlds d a s) := by
  unfold Machine.execMlds
  dsimp only
  exact h.matIssue

theorem Canonical.execMswp (h : Canonical s) : CanonicalOut (execMswp s) := h.matIssue

theorem Canonical.execMstr {d a b : Reg} (h : Canonical s) : CanonicalOut (execMstr d a b s) := by
  unfold Machine.execMstr
  dsimp only
  exact h.matIssue

theorem Canonical.execMacz {a : Reg} (h : Canonical s) : CanonicalOut (execMacz a s) := by
  unfold Machine.execMacz
  dsimp only
  exact h.matIssue

theorem Canonical.execMacrd {d a b : Reg} (h : Canonical s) : CanonicalOut (execMacrd d a b s) := by
  unfold Machine.execMacrd
  dsimp only
  exact h.matIssue

theorem Canonical.execMfmt {a : Reg} (h : Canonical s) : CanonicalOut (execMfmt a s) := by
  unfold Machine.execMfmt
  dsimp only
  exact h.matIssue

theorem Canonical.matrixStart {n : Nat} (h : Canonical s) : CanonicalOpt (s.matrixStart n) := by
  unfold State.matrixStart
  dsimp only
  split
  · exact .none
  split
  exacts [.none, .some h.putCell]

theorem Canonical.matrixRetire {n : Nat} (h : Canonical s) : CanonicalOpt (s.matrixRetire n) := .mapOf fun _ => h.putCell

theorem Canonical.matrixCredit {n : Nat} (h : Canonical s) : CanonicalOpt (s.matrixCredit n) := .mapOf fun _ => h.putCell

theorem Canonical.relocate {n : Nat} (h : Canonical s) : CanonicalOpt (s.relocate n) := by
  unfold State.relocate
  dsimp only
  split
  · split
    · split
      exacts [.none, .some h.putCell]
    · exact .none
  · exact .none

theorem Canonical.execMstat {d : Reg} (h : Canonical s) : CanonicalOut (execMstat d s) := by
  unfold Machine.execMstat
  refine h.cellOnly (h.withRegs ?_)
  dsimp only
  exact h.writeS

theorem Canonical.execMwait (h : Canonical s) : CanonicalOut (execMwait s) := by
  unfold Machine.execMwait
  refine h.cellOnly ?_
  split
  exacts [h.reissue, h.finish]

/-! ## The copy engine -/

theorem Canonical.copyIssue {i : Instr} {ss : List Reg} {checks : List Byte → List (Bool × Cause × Word)} {read : List Byte}
    {inReplay : List Byte → Bool} {op : List Byte → CopyOp} {obj : Word} {total : List Byte → Nat} (h : Canonical s) :
    CanonicalOut (s.copyIssue i ss checks read inReplay op obj total) := by
  unfold State.copyIssue
  refine h.cellOnly (h.withRegs ?_)
  split
  · exact .next h
  dsimp only
  split
  · exact (h.mapCell (by simp)).trap
  split
  · split
    · exact .next ((h.mapCell (by simp)).mapHart)
    split
    exacts [(h.update.mapCell (by simp)).finish, (h.mapCell (by simp)).mapHart.waitOn]
  split
  · exact .next ((h.mapCell (by simp)).mapHart)
  split
  exacts [(h.update.mapCell (by simp)).finish, (h.mapCell (by simp)).mapHart.waitOn]

theorem Canonical.execTcopy {d a b : Reg} (h : Canonical s) : CanonicalOut (execTcopy d a b s) := by
  unfold Machine.execTcopy
  dsimp only
  exact h.copyIssue

theorem Canonical.packIssue {i : Instr} {un : Bool} {f : StFmt} {d a b : Reg} (h : Canonical s) : CanonicalOut (packIssue i un f d a b s) := by
  unfold Machine.packIssue
  dsimp only
  exact h.copyIssue

theorem Canonical.execTpack {f : StFmt} {d a b : Reg} (h : Canonical s) : CanonicalOut (execTpack f d a b s) := h.packIssue

theorem Canonical.execTunpk {f : StFmt} {d a b : Reg} (h : Canonical s) : CanonicalOut (execTunpk f d a b s) := h.packIssue

theorem Canonical.askPiece {n : Nat} {q : CopyCmd} {out : Bool} {size : Nat} {ps : List (Nat × Nat)} (h : Canonical s) :
    Canonical (s.askPiece n q out size ps).2 :=
  h.foldl fun _ _ h1 => h1.sendMiss

theorem Canonical.pieceIn {n : Nat} {q : CopyCmd} {t : Tile} (h : Canonical s) : Canonical (s.pieceIn n q t).2 := by
  unfold State.pieceIn
  split
  dsimp only
  exact h.askPiece

theorem Canonical.pieceOut {n : Nat} {q : CopyCmd} {t : Tile} (h : Canonical s) : Canonical (s.pieceOut n q t).2 := by
  unfold State.pieceOut
  split
  split
  · exact h
  dsimp only
  exact h.askPiece

theorem Canonical.setCmdNo {n : Nat} (h : Canonical s) : Canonical { s with cmdNo :=
  n } := h

theorem Canonical.piecePeer {n : Nat} {q : CopyCmd} {t : Tile} {w2 : Word} {robj : Nat} (h : Canonical s) :
    Canonical (s.piecePeer n q t w2 robj).2 := by
  unfold State.piecePeer
  split
  exact (h.ite h.sendPacket).setCmdNo

theorem Canonical.blockIn {n : Nat} {q : CopyCmd} {f : StFmt} {addr loc : Nat} (h : Canonical s) : Canonical (s.blockIn n q f addr loc).2 := by
  unfold State.blockIn
  dsimp only
  exact h.askPiece

theorem Canonical.blockOut {n : Nat} {q : CopyCmd} {f : StFmt} {addr : Nat} (h : Canonical s) : Canonical (s.blockOut n q f addr).2 := by
  unfold State.blockOut
  dsimp only
  split
  · exact h
  · exact h.askPiece (size := blockBytes f)

theorem Canonical.nextPiece {n : Nat} {q : CopyCmd} (h : Canonical s) : Canonical (s.nextPiece n q).2 := by
  unfold State.nextPiece
  split
  · dsimp only
    split
    · exact h.pieceIn
    split
    exacts [h.pieceOut, h.piecePeer]
  split
  exacts [h.blockIn, h.blockOut]

theorem Canonical.storeParts {n : Nat} {ms : List Miss} {bs sb : List Byte} (h : Canonical s) : CanonicalOpt (s.storeParts n ms bs sb) := by
  induction ms generalizing s bs sb with
  | nil => exact .some h
  | cons m ms ih =>
    unfold State.storeParts
    split
    · exact .none
    · exact ih (h.writePiece.of_pair ‹_›)

theorem Canonical.pieceAnswer {n : Nat} {p : Push} (h : Canonical s) : CanonicalOpt (s.pieceAnswer n p) := by
  unfold State.pieceAnswer
  refine .bindOf fun x => .bindOf fun x1 => ?_
  dsimp only
  split
  · exact .some ((h.foldl (fun t x2 h1 => h1.dropMiss)).putCell)
  split
  · exact .some ((h.foldl (fun t x2 h1 => h1.dropMiss)).putCell)
  split
  · refine .some (.putCell (.foldl ?_ (fun t x2 h1 => h1.dropMiss)))
    split
    exacts [h.recordFault, h]
  · exact h.storeParts.map fun t h1 => (h1.foldl (fun t1 x2 h2 => h2.dropMiss)).putCell

theorem Canonical.copyAnswer {n : Nat} (h : Canonical s) : CanonicalOpt (s.copyAnswer n) := by
  unfold State.copyAnswer
  dsimp only
  refine .findSome fun x => ?_
  split
  exacts [h.pieceAnswer, .none]

theorem Canonical.copyStart {n : Nat} (h : Canonical s) : CanonicalOpt (s.copyStart n) := by
  unfold State.copyStart
  dsimp only
  split
  · exact .none
  split
  exacts [.some h.putCell, .none]

theorem Canonical.pieceIssue {n : Nat} (h : Canonical s) : CanonicalOpt (s.pieceIssue n) := by
  unfold State.pieceIssue
  dsimp only
  split
  · exact .none
  split
  exacts [.none, .some h.nextPiece.putCell]

theorem Canonical.execCopyPieceIssue {c : Nat} (h : Canonical s) : CanonicalOut (execCopyPieceIssue c s) := by
  unfold Machine.execCopyPieceIssue
  refine .next ?_
  split
  exacts [h, h.pieceIssue.getD h]

theorem Canonical.execPackBlock {c : Nat} (h : Canonical s) : CanonicalOut (execPackBlock c s) := by
  unfold Machine.execPackBlock
  refine .next ?_
  split
  exacts [h.pieceIssue.getD h, h]

theorem Canonical.mapPush {src : Nat} {p : Push} {f : Push → Push} (h : Canonical s) : Canonical (s.mapPush src p f) := h.putCell

theorem Canonical.pushDone {src m : Nat} {p : Push} {bad : Bool} (h : Canonical s) : Canonical (s.pushDone src m p bad) := by
  unfold State.pushDone
  split
  · exact h.mapPush
  dsimp only
  exact h.takeOut.mapPush.sendPacket

theorem Canonical.pushPerform {m : Nat} (h : Canonical s) : CanonicalOpt (s.pushPerform m) := by
  unfold State.pushPerform
  refine .bindOf fun x => ?_
  dsimp only
  split
  · exact .some h.pushDone
  split
  · exact .none
  split
  exacts [.some h.putCell.pushDone, .some h.putCell.mapPush]

theorem Canonical.copyRetire {n : Nat} (h : Canonical s) : Canonical (s.copyRetire n) := by
  unfold State.copyRetire
  dsimp only
  split
  exacts [h.putCell.drainCell, h]

theorem Canonical.creditPiece {n : Nat} {p : Push} {bad : Bool} (h : Canonical s) : Canonical (s.creditPiece n p bad) := h.putCell.copyRetire

theorem Canonical.ownWrite {n : Nat} (h : Canonical s) : CanonicalOpt (s.ownWrite n) := by
  unfold State.ownWrite
  dsimp only
  refine .bindOf fun x => ?_
  split
  · exact .some h.creditPiece
  split
  · exact .none
  split
  exacts [.some h.putCell.creditPiece, .some h.putCell.mapPush]

theorem Canonical.pieceCredit {n : Nat} (h : Canonical s) : CanonicalOpt (s.pieceCredit n) := by
  unfold State.pieceCredit
  dsimp only
  refine .findSome fun x => ?_
  split
  · split
    exacts [.some h.creditPiece, .none]
  · exact .none

theorem Canonical.pieceRead {n : Nat} (h : Canonical s) : CanonicalOpt (s.pieceRead n) := by
  unfold State.pieceRead
  dsimp only
  refine .bindOf fun x => ?_
  split
  exacts [.none, .some h.putCell]

theorem Canonical.portCycle {n : Nat} (h : Canonical s) : Canonical (s.portCycle n) := by
  unfold State.portCycle
  dsimp only
  split
  · split
    · exact h.pushPerform.getD h
    split
    · exact ((h.pushPerform.getD h).ownWrite).getD (h.pushPerform.getD h)
    · exact ((h.pushPerform.getD h).pieceRead).getD (h.pushPerform.getD h)
  split
  · exact h.pushPerform.getD h
  split
  · exact ((h.pushPerform.getD h).ownWrite).getD (h.pushPerform.getD h)
  · exact ((h.pushPerform.getD h).pieceRead).getD (h.pushPerform.getD h)

theorem Canonical.leaveWait {n : Nat} {k : Slot} (h : Canonical s) : Canonical (s.leaveWait n k) := h.putCell

theorem Canonical.globalFault (h : Canonical s) : CanonicalOpt s.globalFault := by
  unfold State.globalFault
  split
  · exact .none
  refine .mapOf fun x => ?_
  dsimp only
  split
  exacts [h.leaveWait.mapHart.mapHart, h.leaveWait.mapHart.takeTrap]

theorem Canonical.execCopyGlobalFault {c : Nat} (h : Canonical s) : CanonicalOut (execCopyGlobalFault c s) := by
  unfold Machine.execCopyGlobalFault
  refine .next ?_
  split
  exacts [h.globalFault.getD h, h]

/-! ## Fields -/

theorem Canonical.putField {f : Field} (h : Canonical s) : Canonical (s.putField f) := h

theorem Canonical.bindSweeps {cells : List Nat} {hsw : Nat} {on : Bool} (h : Canonical s) : Canonical (s.bindSweeps cells hsw on) :=
  h.foldl fun _ _ h1 => h1.putCell

theorem Canonical.readAll {by_ : Nat × Slot} {asid : Nat} {lv : Level} {ps : List (Nat × Nat)} (h : Canonical s) :
    Canonical (s.readAll by_ asid lv ps).2 := by
  induction ps generalizing s with
  | nil => exact h
  | cons p ps ih =>
    unfold State.readAll
    split
    · have k := ih (h.engineRead.of_pair ‹_›)
      split
      exacts [k.of_pair ‹_›, k]
    · exact h.engineRead.of_pair ‹_›

theorem Canonical.readField {f : Field} {by_ : Nat × Slot} {lv : Level} (h : Canonical s) : Canonical (s.readField f by_ lv).2 := by
  unfold State.readField
  dsimp only
  split
  · split
    · exact h.engineRead.of_pair ‹_›
    split
    · repeat' split
      all_goals exact ((((h.engineRead.of_pair ‹_›).engineRead).of_pair ‹_›).readAll).of_pair ‹_›
    · exact ((h.engineRead.of_pair ‹_›).engineRead).of_pair ‹_›
  · exact h.engineRead.of_pair ‹_›

theorem Canonical.serveDecl {f : Field} {cl : Client} (h : Canonical s) : CanonicalSnd (s.serveDecl f cl) := by
  unfold State.serveDecl
  dsimp only
  split
  · exact .some h
  split
  · exact .some h
  split
  · exact .none
  · exact .some (h.readField.of_pair ‹_›)
  split
  · exact .some (h.readField.of_pair ‹_›)
  · exact .some ((h.readField.of_pair ‹_›).update.bindSweeps)

theorem Canonical.serveField {l : Launch} {f : Field} {r : FieldReq} (h : Canonical s) : Canonical (s.serveField l f r).2 := by
  unfold State.serveField
  dsimp only
  repeat' split
  all_goals exact h

theorem Canonical.serveAsk {r : FieldReq} (h : Canonical s) : CanonicalSnd (s.serveAsk r) := by
  unfold State.serveAsk
  split
  · exact h.serveDecl.mapPair fun p h1 => h1
  split
  exacts [.some h.serveField, .some h]

theorem Canonical.fieldServe {n : Nat} (h : Canonical s) : CanonicalOpt (s.fieldServe n) := .bindOf fun _ => h.serveAsk.map fun _ h1 => h1

theorem Canonical.fieldAnswer {n : Nat} {k : Slot} (h : Canonical s) : CanonicalOpt (s.fieldAnswer n k) := by
  unfold State.fieldAnswer
  dsimp only
  refine .bindOf fun x => .mapOf fun x1 => ?_
  split
  exacts [h.update.setHartAt, h.update]

theorem Canonical.clientCredit {f : Field} {c : Client} {n : Nat} {bad : Bool} (h : Canonical s) : Canonical (s.clientCredit f c n bad) := by
  unfold State.clientCredit
  split
  exacts [h.putCell, h]

theorem Canonical.probe {asid : Nat} {lv : Level} {ps : List (Nat × Nat)} (h : Canonical s) : Canonical (s.probe asid lv ps).2 := by
  induction ps generalizing s with
  | nil => exact h
  | cons p ps ih =>
    unfold State.probe
    split
    · exact ih (h.storeAt.of_pair ‹_›)
    · exact h.storeAt.of_pair ‹_›

theorem Canonical.siteStore {f : Field} {cl : Client} {va i : Nat} (h : Canonical s) : CanonicalOpt (s.siteStore f cl va i) := by
  unfold State.siteStore
  dsimp only
  split
  · refine .mapOf fun x => .clientCredit ?_
    split
    · exact (h.probe.of_pair ‹_›).recordFault
    · exact h.probe.of_pair ‹_›
  split
  · exact .none
  · exact .some ((((h.probe.of_pair ‹_›).writeGlobal).of_pair ‹_›).clientCredit)

theorem Canonical.copyMark {f : Field} {x : Snap} {i : Nat} (h : Canonical s) : CanonicalOpt (s.copyMark f x i) := by
  unfold State.copyMark
  refine h.siteStore.map fun t h1 => ?_
  split
  · exact h1
  dsimp only
  exact h1.putField

theorem Canonical.copyMarks {f : Field} {i : Nat} (h : Canonical s) : CanonicalOpt (s.copyMarks f i) :=
  .foldl (.some h) fun _ _ h1 => h1.bind fun _ h2 => h2.copyMark

theorem Canonical.background {n : Nat} (h : Canonical s) : CanonicalOpt (s.background n) := .bindOf fun _ => .bindOf fun _ => h.copyMark

theorem Canonical.mapTeam {id team : Nat} {f : Hart → Hart} (h : Canonical s) : Canonical (s.mapTeam id team f) := by
  unfold State.mapTeam
  split
  · exact h
  split
  exacts [h.foldl (fun t x h1 => h1.putCell), h]

theorem Canonical.phaseBarrier {id team handle : Nat} (h : Canonical s) : CanonicalOpt (s.phaseBarrier id team handle) := by
  unfold State.phaseBarrier
  refine .bindOf fun x => ?_
  split
  · dsimp only
    refine .some (.mapTeam ?_)
    split
    exacts [h.putField.foldl (fun t x1 h1 => h1.putCell), h.putField]
  · exact .none

theorem Canonical.fieldMove {id team handle : Nat} (h : Canonical s) : CanonicalOpt (s.fieldMove id team handle) := by
  unfold State.fieldMove
  refine .bindOf fun x => ?_
  split
  · exact .none
  split
  · exact .none
  dsimp only
  split
  · exact .some h.putField.clientCredit
  · exact .some ((h.putField.bindSweeps.bindSweeps.foldl (fun t x1 h1 => h1.putCell)).foldl (fun t x1 h1 => h1.clientCredit))

theorem Canonical.dropField {f : Field} (h : Canonical s) : Canonical (s.dropField f) := by
  unfold State.dropField
  dsimp only
  refine .mapTeam (.bindSweeps ?_)
  split
  · exact (h.update.foldl (fun t x h1 => h1.clientCredit)).clientCredit
  · exact h.update.foldl fun t x h1 => h1.clientCredit

theorem Canonical.writeBackField {id team handle : Nat} (h : Canonical s) : CanonicalOpt (s.writeBackField id team handle) := by
  unfold State.writeBackField
  refine .bindOf fun x => ?_
  split
  · exact .none
  split
  · exact .none
  · exact ((CanonicalOpt.some h).foldl (fun p x1 h1 => h1.bind (fun t h2 => h2.siteStore))).map fun t h1 => h1.dropField

theorem Canonical.block {n : Nat} {hk : Slot} {f : Field} {i k : Nat} (h : Canonical s) : Canonical (s.block n hk f i k).2 := by
  unfold State.block
  split
  · exact h
  dsimp only
  split
  · exact h.readGlobal.of_pair ‹_›
  · exact h.readGlobal.of_pair ‹_›
  · exact (h.readGlobal.of_pair ‹_›).recordFault
  · exact h.readGlobal.of_pair ‹_›

theorem Canonical.spindle {n : Nat} (h : Canonical s) : CanonicalOpt (s.spindle n) := by
  unfold State.spindle
  refine .bindOf fun x => ?_
  split
  · exact .none
  dsimp only
  refine .bindOf fun x1 => .bindOf fun x2 => .bindOf fun x3 => ?_
  split
  · exact .none
  · exact .some (((h.block.of_pair ‹_›).putField).setHartAt)

theorem Canonical.rlimExpire (h : Canonical s) : CanonicalOpt s.rlimExpire := by
  unfold State.rlimExpire
  refine .bindOf fun x => .bindOf fun x1 => ?_
  split
  · exact .none
  split
  · exact .none
  dsimp only
  exact .some (((h.mapCell (by simp)).mapHart).takeTrap)

theorem Canonical.execRlimExpire {c : Nat} {k : Slot} (h : Canonical s) : CanonicalOut (execRlimExpire c k s) := by
  unfold Machine.execRlimExpire
  refine .next ?_
  split
  exacts [h.rlimExpire.getD h, h]

/-! ## Field instructions -/

theorem Canonical.takeAnswer {d : Reg} {v : Word} (h : Canonical s) : CanonicalOut (s.takeAnswer d v) := by
  unfold State.takeAnswer
  dsimp only
  refine .writeS ?_
  split
  exacts [h, h.mapCell (by simp)]

theorem Canonical.sendAsk {i : Instr} {place : IWord} {handle obj : Nat} {ask : FieldAsk} (h : Canonical s) :
    CanonicalOut (s.sendAsk i place handle obj ask) := by
  unfold State.sendAsk
  split
  · exact h.reissue
  dsimp only
  exact h.update.mapHart.reissue

theorem Canonical.answerSelf {v : Word} (h : Canonical s) : CanonicalOut (s.answerSelf v) := h.mapHart.reissue

theorem Canonical.control {i : Instr} {d : Reg} {handle : Word} {obj : Nat} {ask : FieldAsk} {none_ : Word} {query : Bool} (h : Canonical s) :
    CanonicalOut (s.control i d handle obj ask none_ query) := by
  unfold State.control
  split
  · refine .takeAnswer ?_
    split
    exacts [h.acquire, h]
  · exact h.reissue
  split
  · exact h.reissue
  split
  exacts [h.answerSelf, h.sendAsk]

theorem Canonical.declAtIssue {i : Instr} {x : Word} (h : Canonical s) : CanonicalOut (s.declAtIssue i x) := by
  unfold State.declAtIssue
  split
  · split
    · exact h.reissue
    · dsimp only
      split
      · exact (h.readWords.of_pair ‹_›).answerSelf
      split
      · exact (h.readWords.of_pair ‹_›).answerSelf
      · exact (h.readWords.of_pair ‹_›).sendAsk
    · exact ((h.readWords.of_pair ‹_›).recordFault).answerSelf
    · exact (h.readWords.of_pair ‹_›).answerSelf
  · exact h.answerSelf

theorem Canonical.execFdecl {d a : Reg} (h : Canonical s) : CanonicalOut (execFdecl d a s) := by
  unfold Machine.execFdecl
  refine h.cellOnly (h.withRegs (h.notReplay ?_))
  split
  · exact h.writeS
  · exact h.reissue
  dsimp only
  split
  · exact h.trap
  split
  exacts [h.reissue, h.declAtIssue]

theorem Canonical.execFstop {d a b : Reg} (h : Canonical s) : CanonicalOut (execFstop d a b s) := by
  unfold Machine.execFstop
  refine h.cellOnly (h.withRegs (h.notReplay ?_))
  dsimp only
  split
  exacts [h.withLocal (fun x => h.control), h.control]

theorem Canonical.withBlock {x : Word} {whereOk : Word → Bool} {k : State → Out} (h : Canonical s)
    (hk : ∀ t, Canonical t → CanonicalOut (k t)) :
    CanonicalOut (s.withBlock x whereOk k) := by
  unfold State.withBlock
  refine h.withLocal fun x1 => ?_
  dsimp only
  split
  exacts [h.trap, h.withLocal (fun x2 => hk _ h.mapHart)]

theorem Canonical.blockRequest {i : Instr} {d : Reg} {x : Word} {whereOk : Word → Bool} {ask : List Word → FieldAsk} (h : Canonical s) :
    CanonicalOut (s.blockRequest i d x whereOk ask) := by
  unfold State.blockRequest
  dsimp only
  split
  exacts [h.withBlock (fun t h1 => h1.control), h.control]

theorem Canonical.execFwaitb {try_ : Bool} {d a b : Reg} (h : Canonical s) : CanonicalOut (execFwaitb try_ d a b s) := by
  unfold Machine.execFwaitb
  refine h.cellOnly (h.withRegs ?_)
  split
  · refine .writeS ?_
    split
    exacts [h.acquire, h]
  split
  · exact h.writeS
  split
  · exact h.acquire.writeS
  split
  · exact h.writeS
  split
  exacts [.next h, h.waitOn]

theorem Canonical.execSget {d a b : Reg} (h : Canonical s) : CanonicalOut (execSget d a b s) := by
  unfold Machine.execSget
  refine h.cellOnly (h.withRegs ?_)
  split
  · exact h.trap
  split
  · exact h.trap
  split
  exacts [h.acquire.writeS, h.waitOn]

theorem Canonical.putSite {x : Hand} {f : Field} {v : Nat} (h : Canonical s) : CanonicalOpt (s.putSite x f v) := by
  unfold State.putSite
  refine h.copyMarks.map fun t h1 => ?_
  dsimp only
  refine .mapHart ?_
  split
  exacts [h1, h1.putField]

theorem Canonical.execSput {a : Reg} (h : Canonical s) : CanonicalOut (execSput a s) := by
  unfold Machine.execSput
  refine h.cellOnly (h.withRegs ?_)
  split
  · exact h.trap
  dsimp only
  split
  · exact h.trap
  split
  · exact h.reissue
  split
  · exact .next (h.putSite _ ‹_›)
  · exact h.reissue

theorem Canonical.execRngf {d a : Reg} (h : Canonical s) : CanonicalOut (execRngf d a s) := by
  unfold Machine.execRngf
  refine h.cellOnly (h.withRegs ?_)
  split
  · exact h.trap
  dsimp only
  split
  · exact h.trap
  split
  · exact h.writeS
  split
  · exact h.waitOn
  split
  · exact .next h
  · exact (h.block.of_pair ‹_›).writeS
  · exact (h.block.of_pair ‹_›).trap

theorem Canonical.execBern {d a b : Reg} (h : Canonical s) : CanonicalOut (execBern d a b s) := by
  unfold Machine.execBern
  refine h.cellOnly (h.withRegs ?_)
  dsimp only
  split
  exacts [h.done, h.writeS, h.writeS]

theorem Canonical.execSamp {d a b : Reg} (h : Canonical s) : CanonicalOut (execSamp d a b s) := by
  unfold Machine.execSamp
  refine h.cellOnly (h.withRegs ?_)
  dsimp only
  split
  · exact h.trap
  refine h.withLocal fun x => ?_
  split
  · exact h.mapHart.reissue
  split
  exacts [h.writeS, h.done]

/-! ## State registers -/

theorem Canonical.writeViews {x : Word} (h : Canonical s) : CanonicalOpt (s.writeViews x) := by
  unfold State.writeViews
  dsimp only
  split
  exacts [.some h.mapHart, .none]

theorem Canonical.writeSt {n : Nat} {x : Word} (h : Canonical s) : CanonicalOpt (s.writeSt n x) := by
  unfold State.writeSt
  dsimp only
  split
  · exact .some h.mapHart
  · exact .some h.mapHart
  · exact .some h.mapHart
  · exact .some h.mapHart
  · exact h.writeViews
  · exact .some h.mapHart
  · exact .some h.mapHart
  · split
    exacts [.none, .some h.mapHart]
  · exact .some h.mapHart
  · split
    exacts [.some h.mapHart, .none]
  · exact .mapOf fun x1 => h.mapHart

theorem Canonical.stAccess {d : Reg} {n : BitVec 12} {write : Bool} {k : Out} (h : Canonical s) (hk : CanonicalOut k) :
    CanonicalOut (s.stAccess d n write k) := by
  unfold State.stAccess
  split
  · exact h.trap
  refine h.withLevel (h.withRegs ?_)
  split
  exacts [h.trap, hk]

theorem Canonical.stRead {n : Nat} (h : Canonical s) : Canonical (s.stRead n).2 := by
  unfold State.stRead
  split
  exacts [h.fresh, h]

theorem Canonical.execStset {d : Reg} {n : BitVec 12} (h : Canonical s) : CanonicalOut (execStset d n s) := by
  unfold Machine.execStset
  refine h.stAccess ?_
  split
  · exact h.trap
  · exact (h.writeSt _ ‹_›).finish

theorem Canonical.execStswp {d : Reg} {n : BitVec 12} (h : Canonical s) : CanonicalOut (execStswp d n s) := by
  unfold Machine.execStswp
  refine h.stAccess ?_
  split
  · exact h.trap
  · exact (h.mapHart.writeSt _ ‹_›).finish

theorem Canonical.setIe {d : Reg} {v : Nat} (h : Canonical s) : CanonicalOut (s.setIe d v) := h.withRegs h.done

theorem Canonical.execView {o : ViewOp} (h : Canonical s) : CanonicalOut (execView o s) := by
  unfold Machine.execView
  dsimp only
  split
  · refine h.withRegs ?_
    split
    · exact h.trap
    · exact (h.writeViews _ ‹_›).finish
  split
  · exact h.trap
  · exact (h.writeViews _ ‹_›).finish

/-! ## Launches -/

theorem Canonical.readImage {ws : List Word} (h : Canonical s) : Canonical (s.readImage ws).2 := by
  unfold State.readImage
  dsimp only
  repeat' split
  all_goals exact h.readAll.of_pair ‹_›

theorem Canonical.readTables {ws : List Word} (h : Canonical s) : Canonical (s.readTables ws).2 := by
  unfold State.readTables
  dsimp only
  split
  · split
    · repeat' split
      all_goals exact ((((h.engineRead.of_pair ‹_›).readAll).of_pair ‹_›).readImage).of_pair ‹_›
    · exact ((h.engineRead.of_pair ‹_›).readAll).of_pair ‹_›
  · exact h.engineRead.of_pair ‹_›

theorem Canonical.placeTeam {id no x0 y0 : Nat} {map : List Byte} {tb : Tables} (h : Canonical s) : Canonical (s.placeTeam id no x0 y0 map tb) := by
  unfold State.placeTeam
  split
  · exact h
  split
  · exact h
  dsimp only
  refine h.putLaunch.foldl fun t x h1 => ?_
  split
  exacts [h1.putCell, h1]

theorem Canonical.firstNodes {lead asid base : Nat} {is : List Nat} {acc : List Node} (h : Canonical s) :
    Canonical (s.firstNodes lead asid base is acc).2 := by
  induction is generalizing s acc with
  | nil => exact h
  | cons i is ih =>
    unfold State.firstNodes
    split <;> exact ih (h.engineRead.of_pair ‹_›)

theorem Canonical.acceptLaunch {ws : List Word} (h : Canonical s) : CanonicalSnd (s.acceptLaunch ws) := by
  unfold State.acceptLaunch
  split
  · exact .none
  · have k := h.readTables.of_pair ‹_›
    dsimp only
    split
    · exact .none
    split
    · exact .some k
    split
    · exact .some k
    refine .some (k.firstNodes.update.foldl fun t x h1 => ?_)
    split
    exacts [h1, h1.placeTeam]
  · exact .some (h.readTables.of_pair ‹_›)

theorem Canonical.execLaunchAccept {desc : List Word} (h : Canonical s) : CanonicalOut (execLaunchAccept desc s) := by
  unfold Machine.execLaunchAccept
  split
  exacts [.next h, .next ((h.acceptLaunch.map (fun p h1 => h1)).getD h)]

/-! ## Saved teams -/

theorem Canonical.putPhys {pa : Nat} {bs : List Byte} (h : Canonical s) : Canonical (s.putPhys pa bs) := .foldlFst h fun _ _ h => h.dropLine.storeMem

theorem Canonical.writeImage {c : Cell} {w a : Nat} (h : Canonical s) : Canonical (s.writeImage c w a) :=
  (h.putPhys.foldl (fun _ _ h1 => h1.putPhys)).foldl fun _ _ h1 => h1.putPhys

theorem Canonical.putImage {a : Nat} {c : Cell} {off n : Nat} (h : Canonical s) : Canonical (s.putImage a c off n) := by
  unfold State.putImage
  dsimp only
  split
  · split
    · exact h
    split
    exacts [h, h.putPhys.putPhys]
  split
  · split
    · exact h
    split
    exacts [h, h.putPhys.putPhys]
  refine .putPhys (.putPhys ?_)
  split
  · exact h
  split
  exacts [h, h.putPhys.putPhys]

theorem Canonical.loadSites {l : Launch} {no base : Nat} (h : Canonical s) : Canonical (s.loadSites l no base) := h

theorem Canonical.countDiverted {die : Nat} (h : Canonical s) : Canonical (s.countDiverted die) := h.setDevReg

theorem Canonical.teamDelivery {n : Nat} (h : Canonical s) : CanonicalOpt (s.teamDelivery n) := by
  unfold State.teamDelivery
  refine .mapOf fun x => ?_
  dsimp only
  split
  · exact h.countDiverted.pushDone
  split
  · exact h.countDiverted.pushDone
  split
  · split
    exacts [h.countDiverted.takeOut.mapPush, h.countDiverted.takeOut.mapPush.sendPacket]
  split
  · exact h.countDiverted.pushDone
  split
  · exact h.countDiverted.pushDone
  split
  exacts [h.countDiverted.putLaunch.putImage.putImage.pushDone, h.countDiverted.pushDone]

theorem Canonical.orphan (h : Canonical s) : CanonicalOpt s.orphan := by
  unfold State.orphan
  refine .findSome fun x => ?_
  split
  · exact .none
  dsimp only
  exact .mapOf fun x1 => h.takeOut.countDiverted

/-! ## Swaps and the ends of launches -/

theorem Canonical.unchoose {c : Cell} (h : Canonical s) : Canonical (s.unchoose c) := by
  unfold State.unchoose
  refine h.foldl fun t x h1 => ?_
  split
  · exact h1
  split
  · exact h1
  split
  exacts [h1, h1.readyNode]

theorem Canonical.pauseFields {id no : Nat} (h : Canonical s) : Canonical (s.pauseFields id no) := h

theorem Canonical.putSwap {id no : Nat} {w : Option Swap} (h : Canonical s) : Canonical (s.putSwap id no w) := by
  unfold State.putSwap
  split
  · exact h
  split
  exacts [h, h.putLaunch]

theorem Canonical.startSwap {id no : Nat} {w : Swap} (h : Canonical s) : Canonical (s.startSwap id no w) :=
  (((h.foldl (fun _ _ h1 => h1.unchoose)).foldl (fun _ _ h1 => h1.putCell)).putSwap).pauseFields

theorem Canonical.beginSwap {id no : Nat} {kind : SwapKind} {save done : Nat} (h : Canonical s) : Canonical (s.beginSwap id no kind save done) := by
  unfold State.beginSwap
  dsimp only
  split
  · exact h
  split
  exacts [h.putSwap, h.startSwap]

theorem Canonical.resumeFields {id no : Nat} (h : Canonical s) : Canonical (s.resumeFields id no) := h

theorem Canonical.writeDone {id : Nat} {w : Swap} {v : Nat} (h : Canonical s) : Canonical (s.writeDone id w v) := by
  unfold State.writeDone
  split
  exacts [h.writeOwed, h]

theorem Canonical.noteReturn (h : Canonical s) : Canonical s.noteReturn := by
  unfold State.noteReturn
  split
  · split
    · split
      · split
        exacts [h.putSwap, h]
      · exact h
    · exact h
  · exact h

theorem Canonical.freeCell {n : Nat} (h : Canonical s) : Canonical (s.freeCell n) := h.putCell

theorem Canonical.saveTeam {l : Launch} {t : Team} {w : Swap} (h : Canonical s) : Canonical (s.saveTeam l t w) := by
  unfold State.saveTeam
  dsimp only
  refine .writeDone (.foldl (.putLaunch ?_) (fun t1 x h1 => h1.freeCell))
  split
  exacts [h, h.foldl (fun t1 x h1 => h1.writeImage)]

theorem Canonical.refuseSwap {id no : Nat} {w : Swap} (h : Canonical s) : Canonical (s.refuseSwap id no w) := h.putSwap.resumeFields.writeDone

theorem Canonical.swapStep {id no : Nat} (h : Canonical s) : CanonicalOpt (s.swapStep id no) := by
  unfold State.swapStep
  refine .bindOf fun x => .bindOf fun x1 => .bindOf fun x2 => ?_
  dsimp only
  split
  · split
    exacts [.none, .some h.startSwap]
  · split
    · exact .none
    split
    · split
      exacts [.none, .some h.putSwap]
    split
    exacts [.some h.refuseSwap, .none]
  · split
    · exact .some h.putSwap
    split
    exacts [.some (h.foldl (fun t x3 h1 => h1.putCell)), .none]
  split
  exacts [.some h.saveTeam, .none]

theorem Canonical.finishEnd {l : Launch} (h : Canonical s) : Canonical (s.finishEnd l) := by
  unfold State.finishEnd
  dsimp only
  split
  · exact (h.update.foldl (fun t x h1 => h1.dropField)).foldl fun t x h1 => h1.freeCell
  · exact ((h.update.foldl (fun t x h1 => h1.dropField)).foldl (fun t x h1 => h1.freeCell)).putLaunch

theorem Canonical.endStep {id : Nat} (h : Canonical s) : CanonicalOpt (s.endStep id) := by
  unfold State.endStep
  refine .bindOf fun x => .bindOf fun x1 => ?_
  split
  · split
    · dsimp only
      exact .some h.writeDone
    · exact .none
  split
  · exact .some h.finishEnd
  split
  · dsimp only
    exact .some (((h.foldl (fun t x2 h1 => h1.putSwap.resumeFields)).foldl (fun t x2 h1 => h1.putSwap)).writeDone)
  · exact .none

theorem Canonical.thaw {id no : Nat} (h : Canonical s) : Canonical (s.thaw id no) := h.mapTeam

theorem Canonical.carryOn {id no : Nat} {w : Swap} (h : Canonical s) : Canonical (s.carryOn id no w) := by
  unfold State.carryOn
  split
  · exact h.putSwap
  split
  exacts [h.putSwap, h.thaw.putSwap.pauseFields]

theorem Canonical.swapOut {id no save done : Nat} (h : Canonical s) : Canonical (s.swapOut id no save done).2 := by
  unfold State.swapOut
  split
  · exact h
  split
  · exact h
  split
  exacts [h.beginSwap, h.carryOn]

theorem Canonical.moveClients {id : Nat} {t : Team} {x0 y0 : Nat} (h : Canonical s) : Canonical (s.moveClients id t x0 y0) := h

theorem Canonical.bringIn {id no base x0 y0 : Nat} (h : Canonical s) : CanonicalOpt (s.bringIn id no base x0 y0) := by
  unfold State.bringIn
  split
  · exact .some h
  split
  · exact .some h
  split
  · split
    · exact .none
    split
    · exact .none
    dsimp only
    exact .some ((((h.engineRead.of_pair ‹_›).readImage).of_pair ‹_›).placeTeam)
  split
  · exact .none
  dsimp only
  refine .some ((((h.putLaunch.foldl (fun t x h1 => ?_)).loadSites).moveClients).resumeFields)
  split
  · exact h1
  split
  exacts [h1.putCell, h1]

theorem Canonical.swapIn {id no save done x0 y0 : Nat} (h : Canonical s) : CanonicalSnd (s.swapIn id no save done x0 y0) := by
  unfold State.swapIn
  split
  · exact .some h
  split
  · exact .some h
  split
  · exact .some h
  split
  · exact .some h
  split
  exacts [.some h, .mapOpt h.bringIn (fun t h1 => h1.writeDone)]

theorem Canonical.endLaunch {id done : Nat} (h : Canonical s) : Canonical (s.endLaunch id done).2 := by
  unfold State.endLaunch
  split
  · exact h
  split
  · exact h
  refine h.foldl fun t x h1 => .beginSwap ?_
  split
  exacts [h1.thaw, h1]

theorem Canonical.execSwapGraceExpire {launch team : Nat} (h : Canonical s) : CanonicalOut (execSwapGraceExpire launch team s) := by
  unfold Machine.execSwapGraceExpire
  split
  · exact .next h
  split
  · exact .next h
  refine .next (CanonicalOpt.getD ?_ h)
  split
  exacts [h.endStep, h.swapStep]

theorem Canonical.swapsDue (h : Canonical s) : CanonicalOpt s.swapsDue := by
  unfold State.swapsDue
  refine .findSome fun x => ?_
  split
  · exact .some (h.endStep _ ‹_›)
  · exact .findSome fun x1 => h.swapStep

theorem Canonical.execTeamInterrupt {launch team : Nat} (h : Canonical s) : CanonicalOut (execTeamInterrupt launch team s) := by
  unfold Machine.execTeamInterrupt
  refine .next (h.foldl (fun t x h1 => ?_))
  dsimp only
  exact h1.putCell

theorem Canonical.serveLaunch {ws : List Word} (h : Canonical s) : CanonicalSnd (s.serveLaunch ws) := by
  unfold State.serveLaunch
  dsimp only
  split
  · exact h.acceptLaunch
  · split
    exacts [.some h, .some h.swapOut]
  · split
    exacts [.some h, h.swapIn.bind (fun p h1 => .some h1)]
  split
  exacts [.some h, .some h.endLaunch]

/-! ## Power -/

theorem Canonical.logEvent {e : TailEvent} (h : Canonical s) : Canonical (s.logEvent e) := h

theorem Canonical.railDone {d r : Nat} (h : Canonical s) : CanonicalOpt (s.railDone d r) := by
  unfold State.railDone
  dsimp only
  split
  · refine .some ?_
    split
    exacts [h.putRail, h.putDie]
  · exact .none

theorem Canonical.reclamp {d : Nat} (h : Canonical s) : Canonical (s.reclamp d) := (h.foldl fun _ _ h1 => h1.putRail).update

theorem Canonical.emptyDie {d : Nat} (h : Canonical s) : Canonical (s.emptyDie d) := by
  unfold State.emptyDie
  refine h.mapCells fun c => ?_
  split <;> simp

theorem Canonical.gate {d : Nat} (h : Canonical s) : Canonical (s.gate d) := h.emptyDie.putDie

theorem Canonical.powerTier {d : Nat} (h : Canonical s) : Canonical (s.powerTier d) := by
  unfold State.powerTier
  split
  · exact h
  dsimp only
  refine (h.emptyDie.mapCells (fun c => ?_)).putDie.update
  split <;> simp

theorem Canonical.writeDpwr {d : Nat} {v : Word} (h : Canonical s) : Canonical (s.writeDpwr d v) := by
  unfold State.writeDpwr
  split
  · exact h.powerTier
  split
  exacts [h, h.gate]

theorem Canonical.slotCap {n : Nat} (h : Canonical s) : CanonicalOpt (s.slotCap n) := by
  unfold State.slotCap
  dsimp only
  split
  exacts [.some h.putCell, .none]

theorem Canonical.divider {n : Nat} (h : Canonical s) : CanonicalOpt (s.divider n) := by
  unfold State.divider
  dsimp only
  split
  exacts [.some h.putCell, .none]

theorem Canonical.countIssue {w : IWord} (h : Canonical s) : Canonical (s.countIssue w) := by
  unfold State.countIssue
  split
  · exact h
  · exact h.mapCell (f := fun c => c.countVector (s.windowAt (dieOf s.cell.no) (railOf s.cell.no))) (by simp)

theorem Canonical.windowActs {d r : Nat} (h : Canonical s) : CanonicalOpt (s.windowActs d r) := by
  unfold State.windowActs
  dsimp only
  split
  · split
    exacts [.some h.putRail, .none]
  · exact .none

theorem Canonical.judgeWindow {d r isense : Nat} (h : Canonical s) : Canonical (s.judgeWindow d r isense) := by
  unfold State.judgeWindow
  dsimp only
  split
  exacts [h, h.fresh.fresh.putRail]

theorem Canonical.windowEnds {d r : Nat} (h : Canonical s) : CanonicalOpt (s.windowEnds d r) := by
  unfold State.windowEnds
  dsimp only
  split
  exacts [.none, .some h.fresh.judgeWindow]

theorem Canonical.railsDue (h : Canonical s) : CanonicalOpt s.railsDue := by
  unfold State.railsDue
  refine (CanonicalOpt.findSome (fun x => h.railDone)).orElse
    ((CanonicalOpt.findSome (fun x => ?_)).orElse ((CanonicalOpt.findSome (fun x => h.windowActs)).orElse (.findSome (fun x => h.windowEnds))))
  split
  exacts [.some h.putDie, .none]

theorem Canonical.reclampAll (h : Canonical s) : Canonical s.reclampAll := h.foldl fun _ _ h1 => h1.putDie.reclamp

theorem Canonical.execMpwrWindow {pnow : Nat} (h : Canonical s) : CanonicalOut (execMpwrWindow pnow s) := by
  unfold Machine.execMpwrWindow
  dsimp only
  refine .next ?_
  split
  exacts [h, h.update.reclampAll]

theorem Canonical.pointDie {d : Nat} {p : Nat × Nat} (h : Canonical s) : Canonical (s.pointDie d p) := h.putDie.update

theorem Canonical.execOperatingPointPatch {vcode m : Nat} (h : Canonical s) : CanonicalOut (execOperatingPointPatch vcode m s) := by
  unfold Machine.execOperatingPointPatch
  dsimp only
  split
  exacts [.next h, .next (h.foldl (fun t x h1 => h1.pointDie))]

/-! ## Failed dies -/

theorem Canonical.putB {pa : Nat} {bs : List Byte} (h : Canonical s) : Canonical (s.putB pa bs) := .foldlFst h fun _ _ h => h.storeMem

theorem Canonical.reportEntry {ws : List Nat} (h : Canonical s) : Canonical (s.reportEntry ws) := by
  unfold State.reportEntry
  dsimp only
  split
  exacts [h.putB, h]

theorem Canonical.reportLine {kind : Nat} {l : OLine} {pa : Nat} (h : Canonical s) : Canonical (s.reportLine kind l pa) := h.reportEntry

theorem Canonical.reportTask {launch node attempt team : Nat} (h : Canonical s) : Canonical (s.reportTask launch node attempt team) := h.reportEntry

theorem Canonical.loseField {f : Field} (h : Canonical s) : Canonical (s.loseField f) := h.reportEntry.dropField

theorem Canonical.fence {d : Nat} (h : Canonical s) : Canonical (s.fence d) := h.updateMem.mapCells (by simp)

theorem Canonical.holdRec {r : TaskRecord} (h : Canonical s) : Canonical (s.holdRec r) := by
  unfold State.holdRec
  split
  exacts [h, h.putLaunch]

theorem Canonical.loseHart {c : Cell} {k : Slot} (h : Canonical s) : Canonical (s.loseHart c k) := by
  unfold State.loseHart
  dsimp only
  split
  · split
    exacts [h.holdRec, h]
  split
  · split
    exacts [h.holdRec, h]
  refine .reportTask (.holdRec ?_)
  split
  exacts [h.holdRec, h]

theorem Canonical.loseNode {p : ParkedNode} (h : Canonical s) : Canonical (s.loseNode p) := by
  unfold State.loseNode
  split
  · exact h
  split
  exacts [h, h.holdRec.reportTask]

theorem Canonical.loseDie {d : Nat} (h : Canonical s) : Canonical (s.loseDie d) :=
  (((h.foldl (fun _ _ h1 => h1.unchoose.foldl (fun _ _ h2 => h2.loseHart))).foldl (fun _ _ h1 => h1.loseNode)).updateMem.foldl
    (fun _ _ h1 => h1.loseField)).emptyDie

theorem Canonical.reportUnfinished {g : Hart} (h : Canonical s) : Canonical (s.reportUnfinished g) := by
  unfold State.reportUnfinished
  split
  exacts [h, h.reportTask]

theorem Canonical.loseLaunch {l : Launch} (h : Canonical s) : Canonical (s.loseLaunch l) :=
  (((h.foldl (fun _ _ h1 => h1.foldl (fun _ _ h2 => h2.reportUnfinished))).foldl (fun _ _ h1 => h1.loseField)).reportEntry).finishEnd.update

theorem Canonical.quiesce {d : Nat} (h : Canonical s) : Canonical (s.quiesce d) := h.foldl fun _ _ h1 => h1.foldl fun _ _ h2 => h2.beginSwap

theorem Canonical.declare {d : Nat} (h : Canonical s) : Canonical (s.declare d) := by
  unfold State.declare
  split
  · exact h
  dsimp only
  exact h.update.fence.quiesce.update.loseDie.foldl fun t x h1 => h1.loseLaunch

theorem Canonical.execDieDeclare {die : Nat} (h : Canonical s) : CanonicalOut (execDieDeclare die s) := by
  unfold Machine.execDieDeclare
  refine .next ?_
  split
  exacts [h.declare, h]

theorem Canonical.flushLine {ds : List Nat} {l : OLine} (h : Canonical s) : Canonical (s.flushLine ds l) := by
  unfold State.flushLine
  dsimp only
  split
  · exact h.reportLine
  split
  · exact h
  split
  exacts [h.reportLine, h.writeBackLine]

theorem Canonical.declareDone (h : Canonical s) : CanonicalOpt s.declareDone := by
  unfold State.declareDone
  dsimp only
  split
  · exact .none
  split
  · exact .some (h.foldl (fun t x h1 => h1.quiesce))
  split
  · exact .none
  · exact .some (((h.foldl (fun t x h1 => h1.flushLine)).dropCopies).foldl (fun t x h1 => h1.logEvent))

theorem Canonical.rejoin {d : Nat} (h : Canonical s) : Canonical (s.rejoin d) := by
  unfold State.rejoin
  split
  · exact h
  dsimp only
  exact h.emptyDie

theorem Canonical.writeDief {v : Word} (h : Canonical s) : Canonical (s.writeDief v) := by
  unfold State.writeDief
  split
  · exact h
  dsimp only
  exact (h.foldl (fun t x h1 => h1.rejoin)).foldl fun t x h1 => h1.declare

theorem Canonical.retireDue (h : Canonical s) : CanonicalOpt s.retireDue := by
  unfold State.retireDue
  split
  · exact .none
  split
  · exact .some h.update.rejoin
  split
  exacts [.mapOf (fun x => h.declare), .none]

/-! ## Heat -/

theorem Canonical.judgeOne {d i : Nat} (h : Canonical s) : Canonical (s.judgeOne d i) := by
  unfold State.judgeOne
  dsimp only
  split
  · exact h
  split
  exacts [h.putDie.logEvent, h.putDie]

theorem Canonical.judgeAll {d : Nat} (h : Canonical s) : Canonical (s.judgeAll d) := ((h.foldl (fun _ _ h1 => h1.judgeOne)).putDie).reclamp.update

theorem Canonical.judgeDue {d : Nat} (h : Canonical s) : CanonicalOpt (s.judgeDue d) := by
  unfold State.judgeDue
  dsimp only
  split
  exacts [.some h.judgeAll, .none]

theorem Canonical.execSensorReading {die sensor : Nat} {raw : Int} (h : Canonical s) : CanonicalOut (execSensorReading die sensor raw s) := by
  unfold Machine.execSensorReading
  split
  · exact .next h
  dsimp only
  exact .next ((h.judgeDue.getD h).putDie)

theorem Canonical.writeSns {d : Nat} {v : Word} (h : Canonical s) : Canonical (s.writeSns d v) := h.putDie.reclamp

theorem Canonical.execSnsWrite {die : Nat} {v : Word} (h : Canonical s) : CanonicalOut (execSnsWrite die v s) := by
  unfold Machine.execSnsWrite
  refine .next ?_
  split
  exacts [h, h.writeSns]

theorem Canonical.thermal {d : Nat} (h : Canonical s) : CanonicalOpt (s.thermal d) := by
  unfold State.thermal
  dsimp only
  split
  exacts [.none, .some h.putDie.notice]

theorem Canonical.warnStep {d : Nat} (h : Canonical s) : CanonicalOpt (s.warnStep d) := by
  unfold State.warnStep
  dsimp only
  split
  exacts [.none, .mapOf (fun x => h.putDie.beginSwap)]

theorem Canonical.dropOwned {d : Nat} (h : Canonical s) : Canonical (s.dropOwned d) := h.dropCopies

theorem Canonical.clampTeam {d : Nat} {cells : List Nat} (h : Canonical s) : Canonical (s.clampTeam d cells) :=
  (h.putDie.foldl (fun _ _ h1 => h1.putRail)).foldl fun _ _ h1 => h1.reclamp

theorem Canonical.haltTeam {id no : Nat} (h : Canonical s) : Canonical (s.haltTeam id no) := by
  unfold State.haltTeam
  dsimp only
  split
  · exact ((h.foldl (fun t x h1 => h1.unchoose)).foldl (fun t x h1 => h1.loseField)).foldl fun t x h1 => h1.freeCell
  split
  · exact ((h.foldl (fun t x h1 => h1.unchoose)).foldl (fun t x h1 => h1.loseField)).foldl fun t x h1 => h1.freeCell
  · exact (((h.foldl (fun t x h1 => h1.unchoose)).foldl (fun t x h1 => h1.loseField)).foldl (fun t x h1 => h1.freeCell)).putLaunch

theorem Canonical.dropTeam {d id no step : Nat} (h : Canonical s) : Canonical (s.dropTeam d id no step) := by
  unfold State.dropTeam
  dsimp only
  split
  exacts [h.foldl (fun t x h1 => h1.putCell), h.clampTeam, h.haltTeam]

theorem Canonical.dropStep {d : Nat} (h : Canonical s) : CanonicalOpt (s.dropStep d) := by
  unfold State.dropStep
  dsimp only
  split
  · exact .none
  split
  exacts [.none, .some ((h.putDie.foldl (fun t x h1 => h1.dropTeam)).logEvent)]

theorem Canonical.saveStep {d : Nat} (h : Canonical s) : CanonicalOpt (s.saveStep d) := by
  unfold State.saveStep
  dsimp only
  split
  · exact .none
  split
  · split
    exacts [.some h.putDie.logEvent, .none]
  split
  · exact .some h.putDie.logEvent.beginSwap
  split
  · exact .none
  split
  exacts [.some h.logEvent.putDie, .some ((h.logEvent.foldl (fun t x h1 => h1.haltTeam)).gate)]

theorem Canonical.comparator {d : Nat} (h : Canonical s) : CanonicalOpt (s.comparator d) := by
  unfold State.comparator
  dsimp only
  split
  · exact .none
  refine .some (.gate ?_)
  split
  exacts [h.putDie.logEvent.declare, h.putDie.logEvent.dropOwned]

theorem Canonical.restoreDie {d : Nat} (h : Canonical s) : Canonical (s.restoreDie d) :=
  h.powerTier.putDie.storeLate.releaseParked.pointDie.foldl fun _ _ h1 => h1.reclamp

theorem Canonical.bringBack {d : Nat} (h : Canonical s) : CanonicalOpt (s.bringBack d) := by
  unfold State.bringBack
  dsimp only
  split
  · exact .some h.putDie
  refine .bindOf fun x => ?_
  split
  exacts [.none, h.bringIn]

theorem Canonical.recover {d : Nat} (h : Canonical s) : CanonicalOpt (s.recover d) := by
  unfold State.recover
  dsimp only
  split
  · exact .none
  split
  exacts [.some h.restoreDie, h.bringBack]

theorem Canonical.coolCells {l : Launch} {t : Team} (h : Canonical s) : Canonical (s.coolCells l t) := by
  unfold State.coolCells
  refine h.foldl fun t1 x h1 => ?_
  dsimp only
  split
  · split
    exacts [h1.putCell, h1]
  · exact h1

theorem Canonical.execHotSpotMove {launch team x0 y0 : Nat} (h : Canonical s) : CanonicalOut (execHotSpotMove launch team x0 y0 s) := by
  unfold Machine.execHotSpotMove
  split
  · exact .next h
  split
  · exact .next h
  split
  · exact .next h
  split
  · split
    · refine .next ?_
      split
      exacts [h, h.beginSwap]
    split
    · exact .next h
    split
    · exact .next h
    refine .next ?_
    split
    · exact h.bringIn _ ‹_›
    split
    · exact h.bringIn _ ‹_›
    · exact (h.bringIn _ ‹_›).putLaunch
  split
  exacts [.next h.coolCells, .next h]

theorem Canonical.heatDue (h : Canonical s) : CanonicalOpt s.heatDue := by
  refine .findSome fun x => ?_
  intro t e
  obtain ⟨o, ho, e⟩ := List.exists_of_findSome?_eq_some e
  simp only [List.mem_cons, List.not_mem_nil, or_false] at ho
  rcases ho with rfl | rfl | rfl | rfl | rfl | rfl | rfl
  exacts [h.comparator t e, h.judgeDue t e, h.thermal t e, h.warnStep t e, h.saveStep t e, h.dropStep t e, h.recover t e]

/-! ## Hosts, boot and links -/

theorem Canonical.hsqRead (h : Canonical s) : Canonical s.hsqRead.2 := by
  unfold State.hsqRead
  split
  · exact h
  dsimp only
  split
  exacts [h, h.update.notice]

theorem Canonical.execBoot (h : Canonical s) : CanonicalOut (execBoot s) := by
  unfold Machine.execBoot
  dsimp only
  split
  · exact .next h
  split
  exacts [.next h, .next h.fresh]

theorem Canonical.releaseCore {n : Nat} {entry : Word} (h : Canonical s) : Canonical (s.releaseCore n entry) := by
  unfold State.releaseCore
  repeat' split
  all_goals exact h

theorem Canonical.execMeasureExtend {stage flags : IWord} {d : BitVec 256} (h : Canonical s) : CanonicalOut (execMeasureExtend stage flags d s) := by
  unfold Machine.execMeasureExtend
  split
  · exact .next h
  dsimp only
  exact .next h.fresh

theorem Canonical.putLink {x : Link} (h : Canonical s) : Canonical (s.putLink x) := h

theorem Canonical.linkSend {l n : Nat} (h : Canonical s) : Canonical (s.linkSend l n) := by
  induction n generalizing s with
  | zero => exact h
  | succ n ih =>
    unfold State.linkSend
    dsimp only
    split
    exacts [h, ih h.putLink]

theorem Canonical.sendLink {l : Nat} (h : Canonical s) : Canonical (s.sendLink l) := h.linkSend

theorem Canonical.writeSlctl {l : Nat} {v : Word} (h : Canonical s) : Canonical (s.writeSlctl l v) := by
  unfold State.writeSlctl
  dsimp only
  split
  · exact h.putLink
  split
  exacts [h.putLink.notice, h.putLink]

theorem Canonical.execSlctlWrite {l : Nat} {v : Word} (h : Canonical s) : CanonicalOut (execSlctlWrite l v s) := by
  unfold Machine.execSlctlWrite
  refine .next ?_
  split
  exacts [h, h.writeSlctl]

theorem Canonical.execLinkStateChange {l : Nat} {up : Bool} {lanes rate peer : Nat} (h : Canonical s) :
    CanonicalOut (execLinkStateChange l up lanes rate peer s) := by
  unfold Machine.execLinkStateChange
  dsimp only
  split
  · exact .next h
  refine .next ?_
  split
  exacts [h.putLink.sendLink.notice, h.putLink.sendLink]

theorem Canonical.writeTxtail {l : Nat} {v : BitVec 16} (h : Canonical s) : Canonical (s.writeTxtail l v) := by
  unfold State.writeTxtail
  dsimp only
  split
  exacts [h, h.putLink.sendLink]

theorem Canonical.execTxtailWrite {l : Nat} {v : BitVec 16} (h : Canonical s) : CanonicalOut (execTxtailWrite l v s) := by
  unfold Machine.execTxtailWrite
  refine .next ?_
  split
  exacts [h, h.writeTxtail]

theorem Canonical.execLinkEntryReceive {l : Nat} {entry : List Byte} (h : Canonical s) : CanonicalOut (execLinkEntryReceive l entry s) := by
  unfold Machine.execLinkEntryReceive
  dsimp only
  split
  exacts [.next h, .next h.putB.putLink.notice]

theorem Canonical.execLinkControlFlit {l : Nat} {rxhead : BitVec 16} (h : Canonical s) : CanonicalOut (execLinkControlFlit l rxhead s) := by
  unfold Machine.execLinkControlFlit
  split
  exacts [.next h, .next h.putLink.sendLink]

theorem Canonical.putQp {x : QueuePair} (h : Canonical s) : Canonical (s.putQp x) := h

theorem Canonical.execQcfg {q : Nat} {v : Word} (h : Canonical s) : CanonicalOut (execQcfg q v s) := by
  unfold Machine.execQcfg
  split
  · exact .next h
  dsimp only
  exact .next h.putQp.notice

theorem Canonical.execSqt {q : Nat} {v : BitVec 16} (h : Canonical s) : CanonicalOut (execSqt q v s) := by
  unfold Machine.execSqt
  dsimp only
  split
  exacts [.next h, .next h.putQp.notice]

theorem Canonical.complete {q : Nat} (h : Canonical s) : CanonicalOpt (s.complete q) := by
  unfold State.complete
  dsimp only
  split
  · exact .none
  split
  exacts [.none, .some h.putQp]

theorem Canonical.execCqh {q : Nat} {v : BitVec 16} (h : Canonical s) : CanonicalOut (execCqh q v s) := by
  unfold Machine.execCqh
  split
  exacts [.next h, .next h.putQp.notice]

theorem Canonical.submit {entry : List Word} {host : List Byte} (h : Canonical s) : CanonicalSnd (s.submit entry host) := by
  unfold State.submit
  dsimp only
  split
  · split
    · exact .some h
    split
    · exact .none
    · exact ((h.readWords.of_pair ‹_›).serveLaunch).mapPair fun p h1 => h1
    · exact .some (h.readWords.of_pair ‹_›)
  · split
    exacts [.none, .some h.putB]
  · split
    exacts [.none, .some h]
  · exact .some h

theorem Canonical.execHostSubmission {q : Nat} {entry : List Word} {host : List Byte} (h : Canonical s) :
    CanonicalOut (execHostSubmission q entry host s) := by
  unfold Machine.execHostSubmission
  dsimp only
  split
  · exact .next h
  split
  · exact .next h
  · exact .next ((h.submit _ ‹_›).putQp)

theorem Canonical.execInboundDma {port : Nat} {write : Bool} {pa : Nat} {bytes : List Byte} (h : Canonical s) :
    CanonicalOut (execInboundDma port write pa bytes s) := by
  unfold Machine.execInboundDma
  split
  · exact .next h.notice
  refine .next ?_
  split
  exacts [h.putB, h]

theorem Canonical.execPciePortEvent {port : Nat} (h : Canonical s) : CanonicalOut (execPciePortEvent port s) := by
  unfold Machine.execPciePortEvent
  refine .next ?_
  split
  exacts [h.notice, h]

theorem Canonical.linksDue (h : Canonical s) : CanonicalOpt s.linksDue := .mapOf fun _ => h.sendLink

theorem Canonical.hostDue (h : Canonical s) : CanonicalOpt s.hostDue := (CanonicalOpt.findSome (fun _ => h.complete)).orElse h.linksDue

/-! ## Device registers -/

theorem Canonical.regRead {a : Nat} (h : Canonical s) : Canonical (s.regRead a).2 := by
  unfold State.regRead
  split
  exacts [h.hsqRead, h]

theorem Canonical.barWrite {o : Nat} {v : Word} (h : Canonical s) : Canonical (s.barWrite o v) := by
  unfold State.barWrite
  dsimp only
  split
  · exact h.execSqt.nextOf.getD h
  split
  · exact h.execCqh.nextOf.getD h
  split
  · split
    · exact h.putQp
    · exact h.putQp
    · exact h.execQcfg.nextOf.getD h
    · exact h
  · exact h

theorem Canonical.writeSlptr {l : Nat} {v : Word} (h : Canonical s) : Canonical (s.writeSlptr l v) := h.putLink.writeTxtail

theorem Canonical.writeThc {d : Nat} {v : Word} (h : Canonical s) : Canonical (s.writeThc d v) := h.putDie

theorem Canonical.regWrite {a : Nat} {v : Word} (h : Canonical s) : Canonical (s.regWrite a v) := by
  unfold State.regWrite
  split
  · exact h.setDevReg
  · exact h.setDevReg
  · exact h.setDevReg
  · exact h.setDevReg
  · exact h.setDevReg
  · split
    exacts [h, h.setDevReg]
  · exact h.writeDief
  · exact h
  · dsimp only
    exact h.putUnit
  · exact h
  · exact h
  · dsimp only
    exact h
  · exact h
  · split
    exacts [h.putDie, h]
  · exact h.writeThc
  · exact h.writeSns
  · exact h.writeSlctl
  · exact h.putLink
  · exact h.putLink
  · exact h.writeSlptr
  · exact h.putRail
  · split
    exacts [h.putRail, h]
  · exact h.putRail
  · exact h.putCell
  · exact h.writeDpwr
  · exact h.setDevReg
  · exact h.barWrite
  · exact h

theorem Canonical.devRead {a n : Nat} (h : Canonical s) : Canonical (s.devRead a n).2 := h.foldlSnd fun _ _ h1 => h1.regRead

theorem Canonical.devWrite {a : Nat} {bs : List Byte} (h : Canonical s) : Canonical (s.devWrite a bs) := by
  unfold State.devWrite
  refine h.foldl fun t x h1 => ?_
  dsimp only
  exact h1.regWrite

theorem Canonical.execRegisterWrite {addr : Nat} {v : Word} (h : Canonical s) : CanonicalOut (execRegisterWrite addr v s) := by
  unfold Machine.execRegisterWrite
  refine .next ?_
  split
  exacts [h.regWrite, h]

/-! ## Publishing -/

theorem Canonical.placeGrant {t home slice : Nat} (h : Canonical s) : CanonicalOpt (s.placeGrant t home slice) := by
  unfold State.placeGrant
  split
  · exact .none
  dsimp only
  exact .mapOf fun x => h.putCoh

theorem Canonical.placeStep (h : Canonical s) : CanonicalOpt s.placeStep := by
  unfold State.placeStep
  refine .findSome fun x => ?_
  split
  exacts [.none, h.placeGrant]

theorem Canonical.creditAll {n k : Nat} (h : Canonical s) : Canonical (s.creditAll n k) := by
  induction k generalizing s with
  | zero => exact h
  | succ k ih =>
    unfold State.creditAll
    split
    exacts [ih (h.pieceCredit _ ‹_›), h]

theorem Canonical.publish {n : Nat} (h : Canonical s) : Canonical (s.publish n) := h.creditAll.drainCell

theorem Canonical.forcePublish {by_ : Agent} {asid va n : Nat} (h : Canonical s) : CanonicalOpt (s.forcePublish by_ asid va n) := by
  unfold State.forcePublish
  split
  · exact .some h
  dsimp only
  split
  exacts [.none, .some h.publish]

/-! ## Answers to misses -/

theorem Canonical.missPlace {m : Miss} (h : Canonical s) : Canonical (s.missPlace m).2 := by
  unfold State.missPlace
  split
  · exact h.storeAt
  split
  · exact h.locate.of_pair ‹_›
  · exact h.locate

theorem Canonical.wants {t d : Nat} {k : LineKey} {own : Bool} (h : Canonical s) : CanonicalOpt (s.wants t d k own) := by
  unfold State.wants
  dsimp only
  split
  · split
    exacts [.none, .some h.putCoh]
  split
  · split
    exacts [.none, .some h.putCoh]
  split
  exacts [.none, .some h.putCoh]

theorem Canonical.recordMiss {m : Miss} {c : Cause} (h : Canonical s) : Canonical (s.recordMiss m c) := by
  unfold State.recordMiss
  split
  · exact h
  split
  · exact h
  dsimp only
  exact h.recordFault

theorem Canonical.failMiss {s t : State} {at_ : Nat} {m : Miss} {c : Cause} (h : Canonical s) (ht : Canonical t) :
    Canonical (s.failMiss t at_ m c) := by
  unfold State.failMiss
  split
  exacts [h.dropMiss, ht.recordMiss.answerMiss]

theorem Canonical.lookStep {t : Nat} {m : Miss} (h : Canonical s) : CanonicalOpt (s.lookStep t m) := by
  unfold State.lookStep
  dsimp only
  split
  · exact .some h.putMiss
  split
  · split
    exacts [.some h.dropMiss, .none]
  · exact .some h.putMiss

theorem Canonical.serveLine {t : Nat} {m : Miss} {l : OLine} (h : Canonical s) : CanonicalOpt (s.serveLine t m l) := by
  unfold State.serveLine
  split
  · dsimp only
    refine .some (.answerMiss ?_)
    split
    exacts [h.putCoh, h.putCoh.register]
  split
  · refine h.forcePublish.map fun t1 h1 => ?_
    dsimp only
    exact h1.answerMiss
  refine (CanonicalOpt.some h).map fun t1 h1 => ?_
  dsimp only
  exact h1.answerMiss

theorem Canonical.askStep {t : Nat} {m : Miss} (h : Canonical s) : CanonicalOpt (s.askStep t m) := by
  unfold State.askStep
  split
  · exact .none
  · split
    · exact (h.missPlace.of_pair ‹_›).serveLine
    · exact (h.missPlace.of_pair ‹_›).wants
  · refine .some ?_
    split
    · exact h.dropMiss
    · exact (h.missPlace.of_pair ‹_›).putMiss
  · refine .some ?_
    split
    · exact h.dropMiss
    · exact (h.missPlace.of_pair ‹_›).answerMiss
  · exact .mapOf fun x => h.failMiss (h.missPlace.of_pair ‹_›)

theorem Canonical.farStep {t : Nat} {m : Miss} (h : Canonical s) : CanonicalOpt (s.farStep t m) := by
  unfold State.farStep
  split
  · exact .none
  · exact .some h.putMiss
  · exact .some ((h.missPlace.of_pair ‹_›).answerMiss)
  · exact .mapOf fun x => h.failMiss (h.missPlace.of_pair ‹_›)

theorem Canonical.setMissHart {m : Miss} {g : Hart} (h : Canonical s) : Canonical (s.setMissHart m g) := by
  unfold State.setMissHart
  split
  exacts [h.setHartAt, h]

theorem Canonical.handOver {m : Miss} {r : Got} {ready : Nat} {f : Hart → Hart} (h : Canonical s) : Canonical (s.handOver m r ready f) := by
  unfold State.handOver
  dsimp only
  refine .dropMiss ?_
  split
  exacts [h.setMissHart, h]

theorem Canonical.fillFor {m : Miss} {r : Got} (h : Canonical s) : Canonical (s.fillFor m r) := by
  unfold State.fillFor
  split
  · split
    exacts [h.fillCache, h]
  · exact h

theorem Canonical.fetchCome {m : Miss} {t : Nat} {r : Got} (h : Canonical s) : CanonicalOpt (s.fetchCome m t r) := by
  unfold State.fetchCome
  split
  · exact .some h.handOver
  dsimp only
  split
  · exact .some h.handOver
  split
  · exact .none
  split
  exacts [.some h.putMiss, .some h.putCell.handOver]

theorem Canonical.replayCome {m : Miss} {r : Got} (h : Canonical s) : Canonical (s.replayCome m r) := by
  unfold State.replayCome
  dsimp only
  refine .dropMiss ?_
  split
  · split
    exacts [h.setMissHart, h]
  · exact h

theorem Canonical.comeStep {m : Miss} {t : Nat} {r : Got} (h : Canonical s) : CanonicalOpt (s.comeStep m t r) := by
  unfold State.comeStep
  dsimp only
  split
  · refine .some (.handOver ?_)
    split
    exacts [h, h.fillFor]
  · exact .some h.handOver
  · exact .some h.handOver
  · exact .some h.replayCome
  · exact h.fetchCome
  · exact .some h.fillFor.dropMiss
  split
  · split
    exacts [.none, .some h.dropMiss]
  split
  exacts [.none, .some h.dropMiss]

theorem Canonical.missAct {t : Nat} {m : Miss} (h : Canonical s) : CanonicalOpt (s.missAct t m) := by
  unfold State.missAct
  split
  · split
    exacts [h.lookStep, .none]
  · split
    exacts [.some h.putMiss, .none]
  · split
    exacts [h.farStep, .none]
  · exact h.askStep
  · exact h.comeStep
  · exact .none

theorem Canonical.missStep (h : Canonical s) : CanonicalOpt s.missStep := .findSome fun _ => h.missAct

theorem Canonical.hartMisses {c : Nat} {k : Slot} {p : Miss → Bool} (h : Canonical s) : Canonical (s.hartMisses c k p) :=
  (CanonicalOpt.findSome (fun _ => h.missAct)).getD h

/-! ## Vectors -/

theorem Canonical.vec2 {w : EW} {f : Nat → Nat → Nat → Nat} {d a b : Reg} (h : Canonical s) :
    CanonicalOut (vec2 w f d a b s) := h.withRegs h.done

theorem Canonical.execVadd {w : EW} {d a b : Reg} (h : Canonical s) : CanonicalOut (execVadd w d a b s) := h.vec2

theorem Canonical.execVsub {w : EW} {d a b : Reg} (h : Canonical s) : CanonicalOut (execVsub w d a b s) := h.vec2

theorem Canonical.execVmul {w : EW} {d a b : Reg} (h : Canonical s) : CanonicalOut (execVmul w d a b s) := h.vec2

theorem Canonical.execVmac {w : EW} {d a b : Reg} (h : Canonical s) : CanonicalOut (execVmac w d a b s) := h.vec2

theorem Canonical.execVmin {w : EW} {d a b : Reg} (h : Canonical s) : CanonicalOut (execVmin w d a b s) := h.vec2

theorem Canonical.execVmax {w : EW} {d a b : Reg} (h : Canonical s) : CanonicalOut (execVmax w d a b s) := h.vec2

theorem Canonical.execVand {w : EW} {d a b : Reg} (h : Canonical s) : CanonicalOut (execVand w d a b s) := h.vec2

theorem Canonical.execVor {w : EW} {d a b : Reg} (h : Canonical s) : CanonicalOut (execVor w d a b s) := h.vec2

theorem Canonical.execVxor {w : EW} {d a b : Reg} (h : Canonical s) : CanonicalOut (execVxor w d a b s) := h.vec2

theorem Canonical.execVshl {w : EW} {d a b : Reg} (h : Canonical s) : CanonicalOut (execVshl w d a b s) := h.vec2

theorem Canonical.execVshr {w : EW} {d a b : Reg} (h : Canonical s) : CanonicalOut (execVshr w d a b s) := h.vec2

theorem Canonical.execVsra {w : EW} {d a b : Reg} (h : Canonical s) : CanonicalOut (execVsra w d a b s) := h.vec2

theorem Canonical.execVminU {w : EW} {d a b : Reg} (h : Canonical s) : CanonicalOut (execVminU w d a b s) := h.vec2

theorem Canonical.execVmaxU {w : EW} {d a b : Reg} (h : Canonical s) : CanonicalOut (execVmaxU w d a b s) := h.vec2

theorem Canonical.execVabs {w : EW} {d a : Reg} (h : Canonical s) : CanonicalOut (execVabs w d a s) := h.vec2

theorem Canonical.execVneg {w : EW} {d a : Reg} (h : Canonical s) : CanonicalOut (execVneg w d a s) := h.vec2

theorem Canonical.vecCompare {w : EW} {c : Nat → Nat → Bool} {d a b : Reg} (h : Canonical s) : CanonicalOut (vecCompare w c d a b s) :=
  h.withRegs h.done

theorem Canonical.execVcmpLt {w : EW} {d a b : Reg} (h : Canonical s) : CanonicalOut (execVcmpLt w d a b s) := h.vecCompare

theorem Canonical.execVcmpLe {w : EW} {d a b : Reg} (h : Canonical s) : CanonicalOut (execVcmpLe w d a b s) := h.vecCompare

theorem Canonical.execVcmpLtU {w : EW} {d a b : Reg} (h : Canonical s) : CanonicalOut (execVcmpLtU w d a b s) := h.vecCompare

theorem Canonical.execVcmpLeU {w : EW} {d a b : Reg} (h : Canonical s) : CanonicalOut (execVcmpLeU w d a b s) := h.vecCompare

theorem Canonical.arrange {w : EW} {f : List Nat → List Nat → Nat → Nat} {d a b : Reg} (h : Canonical s) : CanonicalOut (arrange w f d a b s) :=
  h.withRegs h.done

theorem Canonical.execVperm {w : EW} {d a b : Reg} (h : Canonical s) : CanonicalOut (execVperm w d a b s) := h.arrange

theorem Canonical.slide {w : EW} {f : List Nat → Nat → Nat → Nat} {d a b : Reg} (h : Canonical s) : CanonicalOut (slide w f d a b s) :=
  h.withRegs h.done

theorem Canonical.execVslideUp {w : EW} {d a b : Reg} (h : Canonical s) : CanonicalOut (execVslideUp w d a b s) := h.slide

theorem Canonical.execVslideDn {w : EW} {d a b : Reg} (h : Canonical s) : CanonicalOut (execVslideDn w d a b s) := h.slide

theorem Canonical.execVzipLo {w : EW} {d a b : Reg} (h : Canonical s) : CanonicalOut (execVzipLo w d a b s) := h.arrange

theorem Canonical.execVzipHi {w : EW} {d a b : Reg} (h : Canonical s) : CanonicalOut (execVzipHi w d a b s) := by
  unfold Machine.execVzipHi
  dsimp only
  exact h.arrange

theorem Canonical.execVunzipEv {w : EW} {d a b : Reg} (h : Canonical s) : CanonicalOut (execVunzipEv w d a b s) := by
  unfold Machine.execVunzipEv
  dsimp only
  exact h.arrange

theorem Canonical.execVunzipOd {w : EW} {d a b : Reg} (h : Canonical s) : CanonicalOut (execVunzipOd w d a b s) := by
  unfold Machine.execVunzipOd
  dsimp only
  exact h.arrange

theorem Canonical.vecReduce {w : EW} {f : Nat → Nat → Nat} {pre : Nat → Nat} {d a : Reg} (h : Canonical s) :
    CanonicalOut (vecReduce w f pre d a s) :=
  h.withRegs h.done

theorem Canonical.vecFloat {f : FF} {op : Nat → Nat → Nat → Hart → Nat × Hart} {d a b : Reg} (h : Canonical s) :
    CanonicalOut (vecFloat f op d a b s) :=
  h.withRegs h.done

theorem Canonical.execVfadd {f : FF} {rm : Rm} {sat : Bool} {d a b : Reg} (h : Canonical s) : CanonicalOut (execVfadd f rm sat d a b s) := h.vecFloat

theorem Canonical.execVfsub {f : FF} {rm : Rm} {sat : Bool} {d a b : Reg} (h : Canonical s) : CanonicalOut (execVfsub f rm sat d a b s) := h.vecFloat

theorem Canonical.execVfmul {f : FF} {rm : Rm} {sat : Bool} {d a b : Reg} (h : Canonical s) : CanonicalOut (execVfmul f rm sat d a b s) := h.vecFloat

theorem Canonical.execVfma {f : FF} {rm : Rm} {d a b : Reg} (h : Canonical s) : CanonicalOut (execVfma f rm d a b s) := h.vecFloat

theorem Canonical.execVfmax {f : FF} {d a b : Reg} (h : Canonical s) : CanonicalOut (execVfmax f d a b s) := h.vecFloat

theorem Canonical.execVfmin {f : FF} {d a b : Reg} (h : Canonical s) : CanonicalOut (execVfmin f d a b s) := h.vecFloat

theorem Canonical.execVfrcp {f : FF} {rm : Rm} {sat : Bool} {d a : Reg} (h : Canonical s) : CanonicalOut (execVfrcp f rm sat d a s) := h.vecFloat

theorem Canonical.execVfexp2 {f : FF} {rm : Rm} {sat : Bool} {d a : Reg} (h : Canonical s) : CanonicalOut (execVfexp2 f rm sat d a s) := h.vecFloat

theorem Canonical.vecFloatReduce {f : FF} {op : Nat → Nat → Hart → Nat × Hart} {d a : Reg} (h : Canonical s) :
    CanonicalOut (vecFloatReduce f op d a s) :=
  h.withRegs h.done

theorem Canonical.vecFloatCompare {f : FF} {c : FCond} {d a b : Reg} (h : Canonical s) : CanonicalOut (vecFloatCompare f c d a b s) :=
  h.withRegs h.done

/-! ## Memory instructions -/

theorem Canonical.loadFails {c : Cause} {a : Nat} (h : Canonical s) : CanonicalOut (s.loadFails c a) := by
  unfold State.loadFails
  split
  exacts [h.trap, h.failGlobal]

theorem Canonical.find {n : Need} {a : Nat} (h : Canonical s) : Canonical (s.find n a).2 := h.locate

theorem Canonical.takePart {p : Place} {a n : Nat} (h : Canonical s) : Canonical (s.takePart p a n).2 := by
  unfold State.takePart
  split
  · dsimp only
    exact h.devRead
  repeat' split
  all_goals exact h

theorem Canonical.takeParts {ps : List (Nat × Nat)} (h : Canonical s) : Canonical (s.takeParts ps).2 := by
  induction ps generalizing s with
  | nil => exact h
  | cons p ps ih =>
    unfold State.takeParts
    refine ih ?_
    split
    exacts [h.takePart, h]

theorem Canonical.askLines {sort : MsgKind} {kind : MissKind} {ps : List (Nat × Nat)} (h : Canonical s) : Canonical (s.askLines sort kind ps) :=
  h.mapHart.askHere

theorem Canonical.loadGlobal {i : Instr} {sort : MsgKind} {run wide : Bool} {ps : List (Nat × Nat)} {bad : Option (Cause × Nat)}
    {k : List (List Byte × List Byte) → State → Out} (h : Canonical s) (hk : ∀ x t, Canonical t → CanonicalOut (k x t)) :
    CanonicalOut (s.loadGlobal i sort run wide ps bad k) := by
  unfold State.loadGlobal
  dsimp only
  split
  · split
    exacts [h.loadFails, hk _ _ h]
  split
  · split
    exacts [h.loadFails, hk _ _ h]
  split
  · split
    · exact h.reissue
    split
    exacts [.next h, h.waitOn]
  split
  · split
    · exact h.askLines.reissue
    split
    exacts [.next h.askLines, h.askLines.waitOn]
  split
  · exact h.failGlobal
  split
  · split
    exacts [h.loadFails, hk _ _ h]
  split
  exacts [h.takeParts.loadFails, hk _ _ h.takeParts]

theorem Canonical.loadScalar {i : Instr} {wide : Bool} {a : Word} {n : Nat} {signed : Bool} {d : Reg} {after : State → State} (h : Canonical s)
    (hafter : ∀ t, Canonical t → Canonical (after t)) :
    CanonicalOut (s.loadScalar i wide a n signed d after) :=
  h.loadGlobal fun _ _ h1 => (hafter _ h1).writeS

theorem Canonical.execLd {w : MW} {d : Reg} {m : MemOp} (h : Canonical s) : CanonicalOut (execLd w d m s) :=
  h.withRegs (h.loadScalar (fun _ h1 => h1))

theorem Canonical.execLdStr {w : SW} {sc : Scope} {d a : Reg} {off : Word} (h : Canonical s) : CanonicalOut (execLdStr w sc d a off s) :=
  h.withRegs (h.loadScalar (fun _ h1 => h1))

theorem Canonical.acquireAt {sc : Scope} (h : Canonical s) : Canonical (s.acquireAt sc) := by
  unfold State.acquireAt
  split
  exacts [h, h.acquire]

theorem Canonical.execLdAcq {w : SW} {sc : Scope} {d a : Reg} {off : Word} (h : Canonical s) : CanonicalOut (execLdAcq w sc d a off s) :=
  h.withRegs (h.loadScalar (fun _ h1 => h1.acquireAt))

theorem Canonical.execLdv {d a : Reg} {off : Word} (h : Canonical s) : CanonicalOut (execLdv d a off s) := by
  unfold Machine.execLdv
  refine h.withRegs ?_
  dsimp only
  exact h.loadGlobal fun x t h1 => h1.done

theorem Canonical.loadElems {i : Instr} {w : EW} {d : Reg} {addrs : List Nat} (h : Canonical s) : CanonicalOut (s.loadElems i w d addrs) :=
  h.loadGlobal fun _ _ h1 => h1.done

theorem Canonical.execLdvs {w : EW} {d a b : Reg} (h : Canonical s) : CanonicalOut (execLdvs w d a b s) := h.withRegs h.loadElems

theorem Canonical.execVgat {w : EW} {d a b : Reg} (h : Canonical s) : CanonicalOut (execVgat w d a b s) := h.withRegs h.loadElems

theorem Canonical.execPf {a : Reg} {off : Word} (h : Canonical s) : CanonicalOut (execPf a off s) := by
  unfold Machine.execPf
  refine h.withRegs ?_
  dsimp only
  split
  exacts [h.finish, h.sendHere.finish]

theorem Canonical.storeDevices {rs : List StoreRec} {bad : Option (Cause × Nat)} (h : Canonical s) : CanonicalOut (s.storeDevices rs bad) := by
  unfold State.storeDevices
  dsimp only
  split
  · exact h.storeFails
  · exact h.storeFails
  split
  · exact h.reissue
  split
  · exact h.reissue
  · exact ((h.performAll _ ‹_›).foldl (fun t x h1 => h1.devWrite)).finish

theorem Canonical.store {rs : List StoreRec} {rel : Bool} {bad : Option (Cause × Nat)} (h : Canonical s) : CanonicalOut (s.store rs rel bad) := by
  unfold State.store
  split
  exacts [h.storeDevices, h.storeGlobal]

theorem Canonical.storeScalar {a : Word} {n : Nat} {v : Word} {k : AccKind} {sc : Scope} (h : Canonical s) :
    CanonicalOut (s.storeScalar a n v k sc) := by
  unfold State.storeScalar
  repeat' split
  all_goals exact h.store

theorem Canonical.execStv {d a : Reg} {off : Word} (h : Canonical s) : CanonicalOut (execStv d a off s) := by
  unfold Machine.execStv
  refine h.withRegs ?_
  dsimp only
  repeat' split
  all_goals exact h.store

theorem Canonical.execVsca {w : EW} {d a b : Reg} (h : Canonical s) : CanonicalOut (execVsca w d a b s) := by
  unfold Machine.execVsca
  refine h.withRegs ?_
  dsimp only
  exact h.store

theorem Canonical.forget {k : LineKey} {m : BitVec 16} (h : Canonical s) : Canonical (s.forget k m) := by
  unfold State.forget
  split
  exacts [h, h.mapCell (by simp)]

theorem Canonical.amoStore {p : Place} {a : Nat} {v : Word} (h : Canonical s) : CanonicalOpt (s.amoStore p a v) := by
  unfold State.amoStore
  dsimp only
  split
  exacts [h.storeFor.map (fun t h1 => h1.forget), .some h.devWrite, h.storeFor]

theorem Canonical.amo {i : Instr} {f : Word → Word → Word → Word} {sc : Scope} {d a b : Reg} (h : Canonical s) :
    CanonicalOut (amo i f sc d a b s) := by
  unfold Machine.amo
  refine h.withRegs (h.notReplay ?_)
  dsimp only
  split
  · exact h.loadFails
  split
  · exact h.askLines.waitOn
  split
  · exact .next h
  split
  · exact .next h.askLines
  split
  · exact h.failGlobal
  have k : CanonicalOpt (if sc == .cell then some s else s.forcePublish s.cur s.asid (s.hart.S a).toNat 8) := by
    split
    exacts [.some h, h.forcePublish]
  split
  · exact .next h
  have k := k _ ‹_›
  split
  · exact (k.find.of_pair ‹_›).failGlobal
  · split
    · exact ((k.find.of_pair ‹_›).takePart.amoStore _ ‹_›).acquireAt.writeS
    · exact .next (k.find.of_pair ‹_›)
  · exact (k.find.of_pair ‹_›).answerFails

theorem Canonical.execAmoAdd {sc : Scope} {d a b : Reg} (h : Canonical s) : CanonicalOut (execAmoAdd sc d a b s) := h.amo

theorem Canonical.execAmoAnd {sc : Scope} {d a b : Reg} (h : Canonical s) : CanonicalOut (execAmoAnd sc d a b s) := h.amo

theorem Canonical.execAmoOr {sc : Scope} {d a b : Reg} (h : Canonical s) : CanonicalOut (execAmoOr sc d a b s) := h.amo

theorem Canonical.execAmoXor {sc : Scope} {d a b : Reg} (h : Canonical s) : CanonicalOut (execAmoXor sc d a b s) := h.amo

theorem Canonical.execAmoMin {sc : Scope} {d a b : Reg} (h : Canonical s) : CanonicalOut (execAmoMin sc d a b s) := h.amo

theorem Canonical.execAmoMax {sc : Scope} {d a b : Reg} (h : Canonical s) : CanonicalOut (execAmoMax sc d a b s) := h.amo

theorem Canonical.execAmoMinn {sc : Scope} {d a b : Reg} (h : Canonical s) : CanonicalOut (execAmoMinn sc d a b s) := h.amo

theorem Canonical.execAmoMaxn {sc : Scope} {d a b : Reg} (h : Canonical s) : CanonicalOut (execAmoMaxn sc d a b s) := h.amo

theorem Canonical.execAmoSwp {sc : Scope} {d a b : Reg} (h : Canonical s) : CanonicalOut (execAmoSwp sc d a b s) := h.amo

theorem Canonical.execAmoCas {sc : Scope} {d a b : Reg} (h : Canonical s) : CanonicalOut (execAmoCas sc d a b s) := h.amo

theorem Canonical.execFence {sc : Scope} (h : Canonical s) : CanonicalOut (execFence sc s) := by
  unfold Machine.execFence
  split
  exacts [h.acquireAt.finish, h.reissue]

theorem Canonical.fullEmpty {i : Instr} {ss : List Reg} {a : Reg} {off : Word} {try_ need : Bool} {k : Nat → State → Out} (h : Canonical s)
    (hk : ∀ x t, Canonical t → CanonicalOut (k x t)) :
    CanonicalOut (fullEmpty i ss a off try_ need k s) := by
  unfold Machine.fullEmpty
  split
  · exact h.trap
  refine h.cellOnly (h.withRegs (h.withLocal (fun x => ?_)))
  split
  · exact hk _ _ h.mapHart
  split
  · exact h.done
  split
  · exact h.waitOn
  split
  exacts [h.trap, .next h]

theorem Canonical.execLdfeK {try_ : Bool} {d a : Reg} {off : Word} (h : Canonical s) : CanonicalOut (execLdfeK try_ d a off s) :=
  h.fullEmpty fun _ _ h1 => h1.writeS

theorem Canonical.execLdfeE {try_ : Bool} {d a : Reg} {off : Word} (h : Canonical s) : CanonicalOut (execLdfeE try_ d a off s) :=
  h.fullEmpty fun x t h1 => (h1.mapCell (by simp)).writeS

theorem Canonical.execStfe {try_ : Bool} {d a : Reg} {off : Word} (h : Canonical s) : CanonicalOut (execStfe try_ d a off s) :=
  h.fullEmpty fun x t h1 => (h1.mapCell (by simp)).finish

theorem Canonical.setState {b : Bool} {a : Reg} {off : Word} (h : Canonical s) : CanonicalOut (setState b a off s) :=
  h.cellOnly (h.withRegs (h.withLocal (fun x => (h.mapCell (by simp)).finish)))

theorem Canonical.sendRemote {n : Nat} {k : Slot} (h : Canonical s) : CanonicalOpt (s.sendRemote n k) := by
  unfold State.sendRemote
  dsimp only
  refine .bindOf fun x => .bindOf fun x1 => ?_
  split
  · exact .none
  refine .some (.setHartAt ?_)
  split
  · split
    exacts [h.update.sendPacket, h.update]
  split
  exacts [h.update.sendPacket, h]

theorem Canonical.sendFirst {n : Nat} {k : Slot} (h : Canonical s) : CanonicalOpt (s.sendFirst n k) := by
  unfold State.sendFirst
  split
  exacts [h.sendRemote, .none]

theorem Canonical.putRemote {r : RemoteFe} (h : Canonical s) : Canonical (s.putRemote r) := h

theorem Canonical.answerRemote {r : RemoteFe} {v : Nat} (h : Canonical s) : Canonical (s.answerRemote r v) := by
  unfold State.answerRemote
  dsimp only
  split
  exacts [h.putRemote.sendPacket, h.putRemote]

theorem Canonical.attempt {n : Nat} {k : Slot} (h : Canonical s) : CanonicalOpt (s.attempt n k) := by
  unfold State.attempt
  refine .bindOf fun x => ?_
  split
  · split
    · split
      · exact .none
      dsimp only
      exact .some h.putCell.answerRemote
    dsimp only
    exact .some h.countDiverted.putRemote.sendPacket
  dsimp only
  exact .some h.countDiverted.answerRemote

theorem Canonical.remoteAnswer {n : Nat} {k : Slot} (h : Canonical s) : CanonicalOpt (s.remoteAnswer n k) :=
  .bindOf fun _ => .mapOf fun _ => h.update.setHartAt

theorem Canonical.resend {n : Nat} {k : Slot} (h : Canonical s) : CanonicalOpt (s.resend n k) := by
  unfold State.resend
  dsimp only
  split
  · split
    · split
      exacts [h.sendRemote, .none]
    split
    exacts [h.sendRemote, .none]
  split
  · split
    exacts [h.sendRemote, .none]
  split
  exacts [h.sendRemote, .none]

theorem Canonical.execStfer {try_ : Bool} {d a : Reg} (h : Canonical s) : CanonicalOut (execStfer try_ d a s) := by
  unfold Machine.execStfer
  dsimp only
  split
  · split
    · split
      · exact h.done
      split
      · exact h.trap
      split
      · exact h.done
      split
      exacts [h.trap, .next (h.resend.getD h)]
    · exact .next h
  refine h.cellOnly (h.withRegs (h.notReplay ?_))
  split
  · exact h.trap
  split
  exacts [h.trap, .next (h.mapHart.sendRemote.getD h.mapHart)]

theorem Canonical.limitTrap (h : Canonical s) : CanonicalOpt s.limitTrap := by
  unfold State.limitTrap
  dsimp only
  split
  · exact .none
  split
  · split
    exacts [h.trap.nextOf, .none]
  · split
    exacts [h.trap.nextOf, .none]
  · split
    exacts [h.trap.nextOf, .none]
  · split
    exacts [h.trap.nextOf, .none]
  · exact .none

theorem Canonical.execFwlLimit {c : Nat} {k : Slot} (h : Canonical s) : CanonicalOut (execFwlLimit c k s) := by
  unfold Machine.execFwlLimit
  refine .next ?_
  split
  exacts [h.limitTrap.getD h, h]

/-! ## System instructions -/

theorem Canonical.execTrap {k : BitVec 6} (h : Canonical s) : CanonicalOut (execTrap k s) := by
  unfold Machine.execTrap
  repeat' split
  all_goals exact h.trap

theorem Canonical.execEret (h : Canonical s) : CanonicalOut (execEret s) := by
  unfold Machine.execEret
  split
  exacts [h.trap, .next h.noteReturn.mapHart]

theorem Canonical.execWfi (h : Canonical s) : CanonicalOut (execWfi s) := by
  unfold Machine.execWfi
  split
  · exact h.finish
  split
  exacts [.next h, h.waitOn]

theorem Canonical.execIdent {d : Reg} {sel : BitVec 6} (h : Canonical s) : CanonicalOut (execIdent d sel s) := by
  unfold Machine.execIdent
  refine h.withRegs ?_
  split
  exacts [h.writeS, h.writeS, h.trap]

theorem Canonical.cleaned {p : LineKey → Bool} (h : Canonical s) : Canonical (s.cleaned p) := h.cleanLines.returnAll

theorem Canonical.clean {p : LineKey → Bool} (h : Canonical s) : CanonicalOut (s.clean p) := by
  unfold State.clean
  dsimp only
  split
  exacts [h.cleaned.finish, h.cleaned.reissue]

theorem Canonical.inRange55 {x : Word} {k : Out} (h : Canonical s) (hk : CanonicalOut k) : CanonicalOut (s.inRange55 x k) := by
  unfold State.inRange55
  split
  exacts [h.failGlobal, hk]

theorem Canonical.execInv {a : Reg} (h : Canonical s) : CanonicalOut (execInv a s) := by
  unfold Machine.execInv
  refine h.withRegs (h.inRange55 ?_)
  split
  · exact h.finish
  dsimp only
  exact (h.mapCell (by simp)).finish

theorem Canonical.ptst {kind : Nat} {a b : Reg} (h : Canonical s) : CanonicalOut (ptst kind a b s) := by
  unfold Machine.ptst
  refine h.withLevel (h.withRegs (h.notReplay ?_))
  dsimp only
  split
  · exact h.trap
  split
  · exact h.failGlobal
  split
  · split
    · exact h.reissue
    split
    · exact (((h.window.of_pair ‹_›).sendPt).mapHart).reissue
    · exact (h.window.of_pair ‹_›).failGlobal
    · exact h.reissue
    · exact (h.window.of_pair ‹_›).answerFails
  split
  exacts [h.reissue, h.finish]

theorem Canonical.ptDue (h : Canonical s) : CanonicalOpt s.ptDue := by
  unfold State.ptDue
  refine .findSome fun x => ?_
  split
  exacts [h.performPt, .none]

theorem Canonical.parkDue (h : Canonical s) : CanonicalOpt s.parkDue := by
  unfold State.parkDue
  split
  exacts [.some h.releaseParked, .none]

theorem Canonical.bump {asid : Nat} (h : Canonical s) : Canonical (s.bump asid) := h

theorem Canonical.execGenb {d a : Reg} (h : Canonical s) : CanonicalOut (execGenb d a s) := by
  unfold Machine.execGenb
  refine h.withLevel (h.withRegs (h.notReplay ?_))
  dsimp only
  split
  · exact h.writeS
  split
  · exact h.reissue
  split
  · exact h.writeS
  split
  exacts [h.cleaned.reissue, h.cleaned.bump.writeS]

theorem Canonical.scrub {asid : Nat} (h : Canonical s) : Canonical (s.scrub asid) := (h.dropCopies.mapCells (by simp)).updateMem

theorem Canonical.execGenerationScrub {asid : Nat} (h : Canonical s) : CanonicalOut (execGenerationScrub asid s) := by
  unfold Machine.execGenerationScrub
  refine .next ?_
  split
  exacts [h.scrub, h]

theorem Canonical.scrubDue (h : Canonical s) : CanonicalOpt s.scrubDue := .mapOf fun _ => h.scrub

theorem Canonical.headOnly {l : Level} {k : Out} (h : Canonical s) (hk : CanonicalOut k) : CanonicalOut (s.headOnly l k) := by
  unfold State.headOnly
  split
  exacts [h.withLevel hk, h.trap]

theorem Canonical.execLaunch {d a : Reg} (h : Canonical s) : CanonicalOut (execLaunch d a s) := by
  unfold Machine.execLaunch
  refine h.headOnly (h.withRegs ?_)
  dsimp only
  split
  · exact h.reissue
  split
  · exact h.writeS
  split
  · exact h.reissue
  · split
    · exact h.reissue
    · exact (((h.readWords.of_pair ‹_›).serveLaunch) _ ‹_›).writeS
  · exact (h.readWords.of_pair ‹_›).writeS

theorem Canonical.fsvc {x y : Word} (h : Canonical s) : Canonical (s.fsvc x y).2 := by
  unfold State.fsvc
  dsimp only
  split
  exacts [h.mapDone, h.replayNodes, h.replayNodes]

theorem Canonical.execFsvc {d a b : Reg} (h : Canonical s) : CanonicalOut (execFsvc d a b s) := by
  unfold Machine.execFsvc
  refine h.headOnly (h.withRegs ?_)
  dsimp only
  split
  · exact h.trap
  split
  exacts [h.reissue, h.fsvc.writeS]

/-! ## What a waiting hart does -/

theorem Canonical.fetchWait (h : Canonical s) : Canonical s.fetchWait := h.mapHart.askHere

theorem Canonical.execInstructionFetch {c : Nat} {k : Slot} (h : Canonical s) : CanonicalOut (execInstructionFetch c k s) := by
  unfold Machine.execInstructionFetch
  dsimp only
  refine .next ?_
  split
  exacts [h.fetchWait, h]

theorem Canonical.fetchFails {c : Cause} {addr : Nat} (h : Canonical s) : CanonicalOut (s.fetchFails c addr) := h.failGlobal

theorem Canonical.execIllegalEncoding {w : IWord} (h : Canonical s) : CanonicalOut (execIllegalEncoding w s) := h.trap

theorem Canonical.resume {i : Instr} (h : Canonical s) : CanonicalOut (resume i s) := by
  cases i with
  | ld w d m => exact h.execLd
  | ldv d a off => exact h.execLdv
  | ldvs w d a b => exact h.execLdvs
  | vgat w d a b => exact h.execVgat
  | amoAdd sc d a b => exact h.execAmoAdd
  | amoAnd sc d a b => exact h.execAmoAnd
  | amoOr sc d a b => exact h.execAmoOr
  | amoXor sc d a b => exact h.execAmoXor
  | amoMin sc d a b => exact h.execAmoMin
  | amoMax sc d a b => exact h.execAmoMax
  | amoMinn sc d a b => exact h.execAmoMinn
  | amoMaxn sc d a b => exact h.execAmoMaxn
  | amoSwp sc d a b => exact h.execAmoSwp
  | amoCas sc d a b => exact h.execAmoCas
  | ldAcq w sc d a off => exact h.execLdAcq
  | ldStr w sc d a off => exact h.execLdStr
  | ldfeK t d a off => exact h.execLdfeK
  | ldfeE t d a off => exact h.execLdfeE
  | stfe t d a off => exact h.execStfe
  | stfer t d a => exact h.execStfer
  | tcopy d a b => exact h.execTcopy
  | tpack f d a b => exact h.execTpack
  | tunpk f d a b => exact h.execTunpk
  | mlds d a => exact h.execMlds
  | mswp => exact h.execMswp
  | mstr d a b => exact h.execMstr
  | macz a => exact h.execMacz
  | macrd d a b => exact h.execMacrd
  | mfmt a => exact h.execMfmt
  | bwait t d a b => exact h.execBwait
  | tbar t d a b => exact h.execTbar
  | fwaitb t d a b => exact h.execFwaitb
  | sget d a b => exact h.execSget
  | rngf d a => exact h.execRngf
  | sleep a => exact h.execSleep
  | wfi => exact h.execWfi
  | _ => exact .next h

theorem Canonical.waitSlot (h : Canonical s) : CanonicalOut s.waitSlot := by
  unfold State.waitSlot
  split
  exacts [h.resume, .next h]

theorem Canonical.execWaitComplete {c : Nat} {k : Slot} (h : Canonical s) : CanonicalOut (execWaitComplete c k s) := by
  unfold Machine.execWaitComplete
  split
  · split
    exacts [.next h, h.waitSlot, .next h]
  · exact .next h

theorem Canonical.cutWait {n : Nat} {k : Slot} (h : Canonical s) : CanonicalOpt (s.cutWait n k) := by
  unfold State.cutWait
  dsimp only
  split
  · split
    exacts [.some h.leaveWait, .none]
  · exact .none

theorem Canonical.takePending (h : Canonical s) : CanonicalOpt s.takePending := by
  unfold State.takePending
  split
  · exact .none
  refine .mapOf fun x => ?_
  dsimp only
  refine .takeInterrupt ?_
  split
  exacts [h.leaveWait, h.mapHart]

theorem Canonical.execInterruptTaken {c : Nat} {k : Slot} (h : Canonical s) : CanonicalOut (execInterruptTaken c k s) := by
  unfold Machine.execInterruptTaken
  refine .next ?_
  split
  exacts [h.takePending.getD h, h]

/-! ## Integer instructions -/

theorem Canonical.execAndn {d a b : Reg} (h : Canonical s) : CanonicalOut (execAndn d a b s) := h.alu

theorem Canonical.execOrn {d a b : Reg} (h : Canonical s) : CanonicalOut (execOrn d a b s) := h.alu

theorem Canonical.execShl {d a b : Reg} (h : Canonical s) : CanonicalOut (execShl d a b s) := h.alu

theorem Canonical.execShr {d a b : Reg} (h : Canonical s) : CanonicalOut (execShr d a b s) := h.alu

theorem Canonical.execSra {d a b : Reg} (h : Canonical s) : CanonicalOut (execSra d a b s) := h.alu

theorem Canonical.execRol {d a b : Reg} (h : Canonical s) : CanonicalOut (execRol d a b s) := h.alu

theorem Canonical.execRor {d a b : Reg} (h : Canonical s) : CanonicalOut (execRor d a b s) := h.alu

theorem Canonical.execCeq {d a b : Reg} (h : Canonical s) : CanonicalOut (execCeq d a b s) := h.alu

theorem Canonical.execCne {d a b : Reg} (h : Canonical s) : CanonicalOut (execCne d a b s) := h.alu

theorem Canonical.execClt {d a b : Reg} (h : Canonical s) : CanonicalOut (execClt d a b s) := h.alu

theorem Canonical.execCle {d a b : Reg} (h : Canonical s) : CanonicalOut (execCle d a b s) := h.alu

theorem Canonical.execCltn {d a b : Reg} (h : Canonical s) : CanonicalOut (execCltn d a b s) := h.alu

theorem Canonical.execClen {d a b : Reg} (h : Canonical s) : CanonicalOut (execClen d a b s) := h.alu

theorem Canonical.execAddi {d a : Reg} {imm : Word} (h : Canonical s) : CanonicalOut (execAddi d a imm s) := h.unary

theorem Canonical.execClz {d a : Reg} (h : Canonical s) : CanonicalOut (execClz d a s) := h.unary

theorem Canonical.execCtz {d a : Reg} (h : Canonical s) : CanonicalOut (execCtz d a s) := h.unary

theorem Canonical.execPopc {d a : Reg} (h : Canonical s) : CanonicalOut (execPopc d a s) := h.unary

theorem Canonical.execBext {d a : Reg} {pos len1 : BitVec 6} (h : Canonical s) : CanonicalOut (execBext d a pos len1 s) := h.unary

theorem Canonical.execBins {d a : Reg} {pos len1 : BitVec 6} (h : Canonical s) : CanonicalOut (execBins d a pos len1 s) := h.unary

theorem Canonical.execShlImm {d a : Reg} {k : BitVec 6} (h : Canonical s) : CanonicalOut (execShlImm d a k s) := h.unary

theorem Canonical.execShrImm {d a : Reg} {k : BitVec 6} (h : Canonical s) : CanonicalOut (execShrImm d a k s) := h.unary

theorem Canonical.execSraImm {d a : Reg} {k : BitVec 6} (h : Canonical s) : CanonicalOut (execSraImm d a k s) := h.unary

theorem Canonical.execRolImm {d a : Reg} {k : BitVec 6} (h : Canonical s) : CanonicalOut (execRolImm d a k s) := h.unary

theorem Canonical.execRorImm {d a : Reg} {k : BitVec 6} (h : Canonical s) : CanonicalOut (execRorImm d a k s) := h.unary

/-! ## Scalar floats -/

theorem Canonical.floatResult {d : Reg} {f : Hart → Nat × Hart} (h : Canonical s) : CanonicalOut (floatResult d f s) := h.done

theorem Canonical.float2 {op : Rm → FVal → FVal → FVal × Nat} {f : FF} {rm : Rm} {sat : Bool} {d a b : Reg} (h : Canonical s) :
    CanonicalOut (float2 op f rm sat d a b s) :=
  h.withRegs h.floatResult

theorem Canonical.execFmul {f : FF} {rm : Rm} {sat : Bool} {d a b : Reg} (h : Canonical s) : CanonicalOut (execFmul f rm sat d a b s) := h.float2

theorem Canonical.execFdiv {f : FF} {rm : Rm} {sat : Bool} {d a b : Reg} (h : Canonical s) : CanonicalOut (execFdiv f rm sat d a b s) := h.float2

theorem Canonical.floatExtreme {max : Bool} {f : FF} {d a b : Reg} (h : Canonical s) : CanonicalOut (floatExtreme max f d a b s) :=
  h.withRegs h.floatResult

theorem Canonical.floatFused {negP negC : Bool} {f : FF} {rm : Rm} {d a b c : Reg} (h : Canonical s) :
    CanonicalOut (floatFused negP negC f rm d a b c s) :=
  h.withRegs h.floatResult

theorem Canonical.floatCompare {c : FCond} {f : FF} {d a b : Reg} (h : Canonical s) : CanonicalOut (floatCompare c f d a b s) := h.withRegs h.done

/-! ## Any instruction -/

theorem Canonical.exec {i : Instr} (h : Canonical s) : CanonicalOut (exec i s) := by
  cases i with
  | add | sub | mul | mulh | mulhn | div | divn | rem | remn | and | or | xor | min | max | minn | maxn => exact h.alu
  | andn => exact h.execAndn
  | orn => exact h.execOrn
  | shl => exact h.execShl
  | shr => exact h.execShr
  | sra => exact h.execSra
  | rol => exact h.execRol
  | ror => exact h.execRor
  | ceq => exact h.execCeq
  | cne => exact h.execCne
  | clt => exact h.execClt
  | cle => exact h.execCle
  | cltn => exact h.execCltn
  | clen => exact h.execClen
  | addi => exact h.execAddi
  | li | sel | lea | mand | mor | mnot | mpopc | vsclg | fsgn | fabs | fneg | fclass | tick => exact h.withRegs h.writeS
  | abs | sext | zext => exact h.unary
  | clz => exact h.execClz
  | ctz => exact h.execCtz
  | popc => exact h.execPopc
  | bext => exact h.execBext
  | bins => exact h.execBins
  | shlImm => exact h.execShlImm
  | shrImm => exact h.execShrImm
  | sraImm => exact h.execSraImm
  | rolImm => exact h.execRolImm
  | rorImm => exact h.execRorImm
  | ldfeK => exact h.execLdfeK
  | ldfeE => exact h.execLdfeE
  | stfe => exact h.execStfe
  | stfer => exact h.execStfer
  | feset | feclr => exact h.setState
  | loop => exact h.execLoop
  | beq | bne => exact h.branch
  | blt => exact h.execBlt
  | bge => exact h.execBge
  | bltn => exact h.execBltn
  | bgen => exact h.execBgen
  | call => exact h.withRegs (.next h.mapHart)
  | calli => exact h.execCalli
  | ld => exact h.execLd
  | st | stRel | stStr => exact h.withRegs h.storeScalar
  | ldl => exact h.cellOnly (h.withRegs (h.withLocal (fun x => h.writeS)))
  | stl | stvl => exact h.cellOnly (h.withRegs (h.withLocal (fun x => (h.mapCell (by simp)).finish)))
  | ldv => exact h.execLdv
  | stv => exact h.execStv
  | ldvl => exact h.cellOnly (h.withRegs (h.withLocal (fun x => h.done)))
  | ldvs => exact h.execLdvs
  | vgat => exact h.execVgat
  | vsca => exact h.execVsca
  | pf => exact h.execPf
  | amoAdd => exact h.execAmoAdd
  | amoAnd => exact h.execAmoAnd
  | amoOr => exact h.execAmoOr
  | amoXor => exact h.execAmoXor
  | amoMin => exact h.execAmoMin
  | amoMax => exact h.execAmoMax
  | amoMinn => exact h.execAmoMinn
  | amoMaxn => exact h.execAmoMaxn
  | amoSwp => exact h.execAmoSwp
  | amoCas => exact h.execAmoCas
  | ldAcq => exact h.execLdAcq
  | ldStr => exact h.execLdStr
  | fence => exact h.execFence
  | fenceAcq => exact h.acquireAt.finish
  | fenceRel => exact h.done
  | vadd => exact h.execVadd
  | vsub => exact h.execVsub
  | vmul => exact h.execVmul
  | vmac => exact h.execVmac
  | vmin => exact h.execVmin
  | vmax => exact h.execVmax
  | vand => exact h.execVand
  | vor => exact h.execVor
  | vxor => exact h.execVxor
  | vshl => exact h.execVshl
  | vshr => exact h.execVshr
  | vsra => exact h.execVsra
  | vabs => exact h.execVabs
  | vneg => exact h.execVneg
  | vminU => exact h.execVminU
  | vmaxU => exact h.execVmaxU
  | vcmpEq | vcmpNe => exact h.vecCompare
  | vcmpLt => exact h.execVcmpLt
  | vcmpLe => exact h.execVcmpLe
  | vcmpLtU => exact h.execVcmpLtU
  | vcmpLeU => exact h.execVcmpLeU
  | vsel | vbcast | vextr | vins | vcvt | vquant | vdeq | vscls => exact h.withRegs h.done
  | vperm => exact h.execVperm
  | vslideUp => exact h.execVslideUp
  | vslideDn => exact h.execVslideDn
  | vzipLo => exact h.execVzipLo
  | vzipHi => exact h.execVzipHi
  | vunzipEv => exact h.execVunzipEv
  | vunzipOd => exact h.execVunzipOd
  | vredsum | vredmax | vredmin | vredmaxU | vredminU => exact h.vecReduce
  | vfadd => exact h.execVfadd
  | vfsub => exact h.execVfsub
  | vfmul => exact h.execVfmul
  | vfma => exact h.execVfma
  | vfmax => exact h.execVfmax
  | vfmin => exact h.execVfmin
  | vfrcp => exact h.execVfrcp
  | vfexp2 => exact h.execVfexp2
  | vfredsum | vfredmax | vfredmin => exact h.vecFloatReduce
  | vfcmpEq | vfcmpLt | vfcmpLe | vfcmpUn => exact h.vecFloatCompare
  | fadd | fsub => exact h.float2
  | fmul => exact h.execFmul
  | fdiv => exact h.execFdiv
  | fmin | fmax => exact h.floatExtreme
  | fsqrt | frnd | fcvt => exact h.withRegs h.floatResult
  | fma | fms | fnma => exact h.floatFused
  | fcmpEq | fcmpLt | fcmpLe | fcmpUn | fcmpNe => exact h.floatCompare
  | mlds => exact h.execMlds
  | mswp => exact h.execMswp
  | mstr => exact h.execMstr
  | macz => exact h.execMacz
  | macrd => exact h.execMacrd
  | mfmt => exact h.execMfmt
  | mstat => exact h.execMstat
  | mwait => exact h.execMwait
  | tend => exact h.execTend
  | tcopy => exact h.execTcopy
  | tpack => exact h.execTpack
  | tunpk => exact h.execTunpk
  | bini | bexp => exact h.onObject fun x => (h.mapCell (by simp)).finish
  | barv => exact h.execBarv
  | bwait => exact h.execBwait
  | btest => exact h.execBtest
  | waitw => exact h.abandonTask
  | tabt => exact h.cellOnly (h.withRegs h.abandonTask)
  | tspawn => exact h.execTspawn
  | evget => exact h.execEvget
  | tbar => exact h.execTbar
  | yield => exact h.execYield
  | sleep => exact h.execSleep
  | fdecl => exact h.execFdecl
  | fstart | fpause | cplc => exact h.cellOnly (h.withRegs (h.notReplay h.control))
  | fstop => exact h.execFstop
  | fphase => exact h.cellOnly (h.withRegs h.control)
  | fwaitb => exact h.execFwaitb
  | sget => exact h.execSget
  | sput => exact h.execSput
  | snap | fmig => exact h.cellOnly (h.withRegs (h.notReplay h.blockRequest))
  | rng => exact h.cellOnly (h.withRegs h.done)
  | rngf => exact h.execRngf
  | bern => exact h.execBern
  | samp => exact h.execSamp
  | trap => exact h.execTrap
  | eret => exact h.execEret
  | stget => exact h.stAccess h.stRead.writeS
  | stset => exact h.execStset
  | stswp => exact h.execStswp
  | ienb | idis => exact h.setIe
  | wfi => exact h.execWfi
  | pool => exact h.execPool
  | poolq => exact h.execPoolq
  | view => exact h.execView
  | cln => exact h.withRegs (h.inRange55 h.clean)
  | inv => exact h.execInv
  | clnp => exact h.withLevel (h.withRegs (h.notReplay (h.inRange55 h.clean)))
  | ptstGrant | ptstRetract | ptstHold | ptstMove => exact h.ptst
  | genb => exact h.execGenb
  | launch => exact h.execLaunch
  | fsvc => exact h.execFsvc
  | mapDone => exact .next h.mapDone
  | replayPage | replayAll => exact .next h.replayNodes
  | halt => exact h.withLevel (.next h.stopHart)
  | ident => exact h.execIdent
  | instructionFetch => exact h.execInstructionFetch
  | codeLineFill | writeCheck | replayCheckFault | heldRetry => exact .next h.hartMisses
  | waitComplete => exact h.execWaitComplete
  | interruptTaken => exact h.execInterruptTaken
  | timerPending | attestQuote | powerLimitPatch | retiredDies => exact .next h
  | fwlLimit => exact h.execFwlLimit
  | stferResend => exact .next (h.resend.getD h)
  | stferAttempt => exact .next (h.attempt.getD h)
  | stferAnswer => exact .next (h.remoteAnswer.getD h)
  | rlimExpire => exact h.execRlimExpire
  | slotCapApply => exact .next (h.slotCap.getD h)
  | dividerChange => exact .next (h.divider.getD h)
  | matrixStart => exact .next (h.matrixStart.getD h)
  | matrixRetire => exact .next (h.matrixRetire.getD h)
  | matrixPieceCredit => exact .next (h.matrixCredit.getD h)
  | copyStart => exact .next (h.copyStart.getD h)
  | copyPieceIssue => exact h.execCopyPieceIssue
  | pushPerform => exact .next (h.pushPerform.getD h)
  | copyPieceCredit => exact .next ((h.pieceCredit.orElse h.ownWrite).getD h)
  | copyGlobalFault => exact h.execCopyGlobalFault
  | packBlock => exact h.execPackBlock
  | wordReturn | cacheEvict | cpwrWrite => exact .next h.putCell
  | forcedPublish => exact .next h.publish
  | gets => exact .next h.getsAt
  | getm => exact .next h.getmAt
  | upg => exact .next h.upgAt
  | pute => exact .next (h.puteAt.getD (h.sendPute.getD h))
  | fwdGets => exact .next (h.fwdGetsAt.getD h)
  | fwdGetm => exact .next (h.fwdGetmAt.getD h)
  | invAck => exact .next (h.invAckAt.getD h)
  | data => exact .next (h.dataAt.getD h)
  | unblock => exact .next (h.unblockAt.getD h)
  | placeRequest => exact h.execPlaceRequest
  | placeGrant => exact .next (h.placeGrant.getD h)
  | writeBack => exact .next (h.writeBackAt.getD h)
  | wback => exact .next (h.wbAckAt.getD h)
  | recallLine => exact .next h.recallWords
  | translationWalk => exact .next h.askAgent
  | agentDrop => exact .next (h.foldl (fun t x h1 => h1.performPt.getD h1))
  | retractDrain => exact .next ((CanonicalOpt.bindOf (fun x => h.performPt)).getD h)
  | pageFault => exact h.execPageFault
  | generationScrub => exact h.execGenerationScrub
  | dispatch => exact .next (h.dispatch.getD h)
  | chuckStart => exact h.execChuckStart
  | recordWrite => exact .next (h.recordWrite.getD h)
  | taskAbort => exact h.execTaskAbort
  | starvationRecord => exact .next (h.starvation.getD h)
  | launchDrained => exact .next (h.launchDrained.getD h)
  | spawnAdd => exact .next (h.spawnAdd.getD h)
  | tbarComplete => exact .next (h.tbarComplete.getD h)
  | gangStart => exact .next (h.gangStart.getD h)
  | poolHandshake => exact .next (h.poolHandshake.getD h)
  | matDrainTimeout => exact .next (h.matTimeout.getD h)
  | localRelocation => exact .next (h.relocate.getD h)
  | poolSwitch => exact .next (h.poolSwitch.getD h)
  | fieldRequestServe => exact .next (h.fieldServe.getD h)
  | fieldAnswer => exact .next (h.fieldAnswer.getD h)
  | spindleHand => exact .next (h.spindle.getD h)
  | phaseBarrier => exact .next (h.phaseBarrier.getD h)
  | fieldMove => exact .next (h.fieldMove.getD h)
  | backgroundCopy => exact .next (h.background.getD h)
  | fieldWriteBack => exact .next (h.writeBackField.getD h)
  | routerGrant => exact .next (h.netHere.routerGrant.getD h)
  | packetArrival => exact .next (h.netHere.packetArrival.getD h)
  | teamDelivery => exact .next (h.teamDelivery.getD h)
  | staleDrop => exact .next (h.netHere.staleDrop.getD h)
  | dieDeclare => exact h.execDieDeclare
  | dieRejoin => exact .next h.rejoin
  | rctlWrite | autoClockStep => exact .next h.putRail
  | railChangeDone => exact .next (h.railDone.getD h)
  | dpwrWrite => exact .next h.writeDpwr
  | currentWindow => exact .next (h.windowActs.getD h.judgeWindow)
  | mpwrWindow => exact h.execMpwrWindow
  | sensorReading => exact h.execSensorReading
  | thermalLevel => exact .next ((h.judgeDue.orElse (h.thermal.orElse h.warnStep)).getD h)
  | saveLadderStep => exact .next (h.saveStep.getD h)
  | dropLadderStep => exact .next (h.dropStep.getD h)
  | comparatorTrip => exact .next (h.comparator.getD h)
  | thermalRecovery => exact .next (h.recover.getD h)
  | hotSpotMove => exact h.execHotSpotMove
  | swapOut => exact .next h.swapOut
  | swapGraceExpire => exact h.execSwapGraceExpire
  | swapIn => exact .next ((h.swapIn.map (fun p h1 => h1)).getD h)
  | launchEnd => exact .next h.endLaunch
  | launchAccept => exact h.execLaunchAccept
  | hsqRead => exact .next h.hsqRead
  | boot => exact h.execBoot
  | measureExtend => exact h.execMeasureExtend
  | slctlWrite => exact h.execSlctlWrite
  | linkStateChange => exact h.execLinkStateChange
  | txtailWrite => exact h.execTxtailWrite
  | linkEntryReceive => exact h.execLinkEntryReceive
  | sqt => exact h.execSqt
  | cqh => exact h.execCqh
  | qcfg => exact h.execQcfg
  | hostSubmission => exact h.execHostSubmission
  | hostCompletion => exact .next (h.complete.getD h)
  | inboundDma => exact h.execInboundDma
  | operatingPointPatch => exact h.execOperatingPointPatch
  | snsWrite => exact h.execSnsWrite
  | registerWrite => exact h.execRegisterWrite
  | illegalEncoding => exact h.execIllegalEncoding
  | invalidation => exact .next (h.invalAt.getD h)
  | ackCount => exact .next (h.ackCountAt.getD h)
  | teamInterrupt => exact h.execTeamInterrupt
  | pciePortEvent => exact h.execPciePortEvent
  | linkControlFlit => exact h.execLinkControlFlit

/-! ## What the units do of their own accord -/

theorem Canonical.chuck {n : Nat} {k : Slot} (h : Canonical s) : CanonicalOpt (s.chuck n k) := by
  unfold State.chuck
  split
  · exact .none
  refine h.execChuckStart.nextOf.bind fun t h1 => ?_
  split
  exacts [.some h1, .none]

/-- The cell focused before is focused again, and the same agent acts. -/
theorem Canonical.refocus {s t : State} (h : Canonical s) (k : Canonical t) : Canonical { t.focus s.cell.no with cur := s.cur } := by
  obtain ⟨⟨-, o⟩, w⟩ := k.focus (n := s.cell.no)
  refine ⟨⟨fun n hn => ?_, o⟩, w⟩
  rw [← h.1.1 n hn]
  unfold State.focus
  split
  exacts [Eq.symm ‹_›, k.1.cellAt_no _]

theorem Canonical.pausedData {n : Nat} {k : Slot} (h : Canonical s) : CanonicalOpt (s.pausedData n k) := by
  unfold State.pausedData
  extract_lets c hart stopping ends t
  split
  · exact .none
  refine .bind (CanonicalOut.nextOf (h.focus.mapCell (by simp)).waitSlot) fun u k => ?_
  split
  exacts [.none, .some (h.refocus (k.mapCell (by simp)))]

theorem Canonical.hartDue {n : Nat} {k : Slot} (h : Canonical s) : CanonicalOpt (s.hartDue n k) := by
  unfold State.hartDue
  dsimp only
  split
  · exact .none
  · exact h.sendFirst.orElse (h.attempt.orElse (h.remoteAnswer.orElse
      (h.fieldAnswer.orElse (h.cutWait.orElse (h.taskAbort.orElse (h.chuck.orElse h.pausedData))))))

theorem Canonical.cellDue {n : Nat} (h : Canonical s) : CanonicalOpt (s.cellDue n) :=
  h.divider.orElse (h.slotCap.orElse (h.matrixCredit.orElse
    (h.matrixRetire.orElse (h.pieceCredit.orElse (h.copyAnswer.orElse
    (h.teamDelivery.orElse (h.heldDue.orElse (h.matrixStart.orElse
    (h.copyStart.orElse (h.pieceIssue.orElse (h.matTimeout.orElse
    (h.poolHandshake.orElse (h.poolSwitch.orElse (h.fieldServe.orElse
    (h.background.orElse (h.spindle.orElse (.findSome (fun _ => h.hartDue))))))))))))))))))

theorem Canonical.launchDue {l : Launch} (h : Canonical s) : CanonicalOpt (s.launchDue l) :=
  h.gangStart.orElse (h.recordWrite.orElse (h.spawnAdd.orElse
    (h.refill.orElse (h.dispatch.orElse ((CanonicalOpt.findSome (fun _ => h.starvation)).orElse h.launchDrained)))))

theorem Canonical.fieldDue {f : Field} (h : Canonical s) : CanonicalOpt (s.fieldDue f) := h.fieldMove.orElse (h.phaseBarrier.orElse h.writeBackField)

theorem Canonical.tbarDue (h : Canonical s) : CanonicalOpt s.tbarDue := .findSome fun _ => .bindOf fun _ => .findSome fun _ => h.tbarComplete

theorem Canonical.netStep (h : Canonical s) : CanonicalOpt s.netStep := by
  unfold State.netStep
  refine h.arrivalStep.orElse (h.missStep.orElse ((CanonicalOpt.findSome (fun x => h.cohStep)).orElse
    (h.placeStep.orElse (h.grantStep.orElse (.mapOf (fun x => ?_))))))
  dsimp only
  exact h.countWaits

theorem Canonical.due (h : Canonical s) : CanonicalOpt s.due :=
  h.netStep.orElse (h.orphan.orElse (h.railsDue.orElse
    (h.heatDue.orElse ((CanonicalOpt.findSome (fun _ => h.cellDue)).orElse
    (h.tbarDue.orElse ((CanonicalOpt.findSome (fun _ => h.fieldDue)).orElse
    ((CanonicalOpt.findSome (fun _ => h.launchDue)).orElse
    (h.swapsDue.orElse (h.owedStep.orElse (h.ptDue.orElse
    (h.parkDue.orElse (h.scrubDue.orElse (h.declareDone.orElse (h.retireDue.orElse h.hostDue))))))))))))))

theorem Canonical.engines (h : Canonical s) : Canonical s.engines :=
  ((((h.mapCell (by simp)).relocate).getD (h.mapCell (by simp))).portCycle).mapCell (by simp)

theorem Canonical.watchAll (h : Canonical s) : Canonical s.watchAll := h

/-- A core that takes its turn leaves the cells as they are. -/
theorem Canonical.turnCore {n t : Nat} (h : Canonical s) : Canonical { s with cur := .core n, tbase := t } :=
  ⟨⟨by simp, h.1.2⟩, h.2⟩

theorem Canonical.takeTurn {a : Agent} (h : Canonical s) : Canonical (s.takeTurn a) := by
  unfold State.takeTurn
  split
  exacts [h.focus, h.turnCore]

theorem Canonical.pass (h : Canonical s) : Canonical s.pass := by
  unfold State.pass
  split
  · exact h
  · split
    exacts [h.mapCell Cell.nextCycle_no, h]

theorem Canonical.elapse (h : Canonical s) : Canonical s.elapse := by
  unfold State.elapse
  split
  · exact h.pass.takeTurn
  dsimp only
  exact h.pass

theorem Canonical.boundary (h : Canonical s) : Canonical s.boundary :=
  ((((h.divider.getD h).slotCap).getD (h.divider.getD h)).poolSwitch).getD (((h.divider.getD h).slotCap).getD (h.divider.getD h))

theorem Canonical.advance (h : Canonical s) : Canonical s.advance := by
  unfold State.advance
  dsimp only
  refine .watchAll (.elapse ?_)
  split
  exacts [h, h.boundary.engines]

/-! ## A slot -/

theorem Canonical.issueBytes {bs : List Byte} (h : Canonical s) : CanonicalOut (s.issueBytes bs) := by
  unfold State.issueBytes
  dsimp only
  split
  exacts [h.countIssue.mapHart.exec, h.mapHart.execIllegalEncoding]

theorem Canonical.runSlot (h : Canonical s) : CanonicalOut s.runSlot := by
  unfold State.runSlot
  dsimp only
  split
  · exact h.exec
  split
  · exact h.fetchFails
  split
  · exact .next h.fetchWait
  split
  exacts [h.issueBytes, .next h.fetchWait]

theorem Canonical.fetchSlot (h : Canonical s) : CanonicalOut s.fetchSlot := by
  unfold State.fetchSlot
  dsimp only
  split
  · exact .next h
  split
  exacts [h.fetchFails, h.issueBytes]

theorem Canonical.slot (h : Canonical s) : CanonicalOut s.slot := by
  unfold State.slot
  split
  · exact .next h
  split
  · exact .next (h.globalFault _ ‹_›)
  split
  · exact .next (h.rlimExpire _ ‹_›)
  split
  · exact .next (h.takePending _ ‹_›)
  split
  · exact h.runSlot
  · exact h.fetchSlot
  · exact h.waitSlot
  · exact .next h

theorem Canonical.event {i : Instr} (h : Canonical s) : CanonicalOut (s.event i) := by
  unfold State.event
  split
  · exact .next h
  split
  · refine .next ?_
    split
    · exact (h.exec _ ‹_›).advance
    · exact h.exec _ ‹_›
  · exact h.exec

theorem Canonical.memoryError {line : Nat} (h : Canonical s) : Canonical (s.memoryError line) := h

theorem Canonical.localError {n g : Nat} (h : Canonical s) : Canonical (s.localError n g) := h.putCell

theorem Canonical.agendum {a : Agendum} (h : Canonical s) : CanonicalOut (s.agendum a) := by
  unfold State.agendum
  split
  · exact h.event
  · refine .next ?_
    split
    exacts [h.takeTurn, h]
  · exact .next h.memoryError
  · exact .next h.localError
  · exact .next h.freeTag
  · exact .next h.releaseCore
  · exact .next h

theorem Canonical.cycle (h : Canonical s) : CanonicalOut s.cycle := by
  unfold State.cycle
  split
  · exact .next ((h.slot _ ‹_›).advance)
  · exact h.slot

/-! ## A step -/

theorem Canonical.step (h : Canonical s) : CanonicalOut (step s) := by
  unfold Machine.step
  split
  · exact Canonical.agendum h
  · split
    · exact .next (h.due _ ‹_›)
    · exact h.cycle

end

/-- Settles O59: the agendum taken, what is due, and the cycle each keep the invariant. -/
theorem stepsKeepTheInvariant : Obligations.StepsKeepTheInvariant := by
  unfold Obligations.StepsKeepTheInvariant
  intro s t h e
  exact h.step t e

end Sys2Proof.Machine

namespace Sys2Proof.Machine

/-- An address keeps all bits of the word but the two lowest. -/
theorem addrOf_eq (x : Word) : addrOf x = x &&& ~~~3 := by
  refine BitVec.eq_of_getLsbD_eq fun i hi => ?_
  have low : (3 : Word).getLsbD i = decide (i < 2) := Nat.testBit_two_pow_sub_one 2 i
  have shift : (x.toNat / 4 * 4).testBit i = (decide (2 ≤ i) && x.getLsbD i) := by
    rw [show (4 : Nat) = 2 ^ 2 from rfl, Nat.testBit_mul_two_pow, Nat.testBit_div_two_pow]
    by_cases h : 2 ≤ i
    · simp [h, BitVec.getLsbD]
    · simp [h]
  rw [BitVec.getLsbD_and, BitVec.getLsbD_not, low, addrOf, BitVec.getLsbD_ofNat, shift]
  by_cases h : i < 2
  · simp [h]
  · simp [h, hi, Nat.le_of_not_lt h]

/-- The end check is at the loop's end of the hart's level (R170). -/
theorem Hart.atLoop_iff (h : Hart) : h.atLoop = true ↔ h.lcnt ≠ 0 ∧ h.level.code = h.lend.toNat % 4 := by
  simp [Hart.atLoop, fieldOf]

section
variable {s : State} {d : Reg} {n : Nat} {l : Level}

/-- An `stset` that its level and its register's list let through does what the register's own rule says (R276). -/
theorem exec_stset (v : InView s [d] []) (hn : n < 4096) (hr : stateReg s.isCore n = some (l, true)) (hl : l.code ≤ s.hart.level.code) :
    exec (.stset d (BitVec.ofNat 12 n)) s =
      ((s.writeSt n (s.hart.S d)).map State.finish).getD (s.trap .illegalReg s.firstWord) := by
  change execStset d _ s = _
  have e : (BitVec.ofNat 12 n).toNat = n := by rw [BitVec.toNat_ofNat]; omega
  simp only [execStset, State.stAccess, e, hr, State.withLevel_ok hl, State.withRegs_inView v, Bool.not_true, Bool.and_false, Bool.false_eq_true,
    if_false]
  cases s.writeSt n (s.hart.S d) <;> rfl

theorem stset_sets {g : Hart} (v : InView s [d] []) (hn : n < 4096) (hr : stateReg s.isCore n = some (l, true))
    (hl : l.code ≤ s.hart.level.code) (hw : s.writeSt n (s.hart.S d) = some (s.setHart g)) :
    HartResult s (.stset d (BitVec.ofNat 12 n)) g := by
  rw [HartResult, exec_stset v hn hr hl, hw]
  simp [State.finish_eq]

/-- The registers that every level reaches. -/
theorem stset_user {g : Hart} (v : InView s [d] []) (hr : n < 5 ∨ (8 ≤ n ∧ n < 11) ∨ n = 12)
    (hw : s.writeSt n (s.hart.S d) = some (s.setHart g)) : HartResult s (.stset d (BitVec.ofNat 12 n)) g :=
  stset_sets (l := .u) v (by omega) (by simpa [stateReg] using fun a b c => by omega) (Nat.zero_le _) hw

/-- The registers of a level's trap block: its target and its delegation register are the last. -/
theorem stateReg_block {core : Bool} {m : Level} {o : Nat} (ho : o < 8 ∨ o = 8 ∧ m ≠ .u) :
    stateReg core (0x100 * (m.code + 1) + o) = some (m, true) := by
  rcases ho with ho | ⟨rfl, hm⟩
  · interval_cases o <;> cases m <;> rfl
  · cases m
    exacts [absurd rfl hm, rfl, rfl]

theorem writeSt_block (s : State) (m : Level) {o : Nat} (ho : o < 9) (x : Word) :
    s.writeSt (0x100 * (m.code + 1) + o) x = ((s.hart.block m).write s.isCore m o x).map fun b => s.mapHart fun h => h.setBlock m b := by
  interval_cases o <;> cases m <;> rfl

theorem stset_block {m : Level} {o : Nat} {c : TrapBlock} (v : InView s [d] []) (hm : m.code ≤ s.hart.level.code) (ho : o < 8 ∨ o = 8 ∧ m ≠ .u)
    (hw : (s.hart.block m).write s.isCore m o (s.hart.S d) = some c) :
    HartResult s (.stset d (BitVec.ofNat 12 (0x100 * (m.code + 1) + o))) (s.hart.setBlock m c) := by
  have lo : o < 9 := by omega
  have code : m.code ≤ 2 := by cases m <;> decide
  exact stset_sets v (by omega) (stateReg_block ho) hm (by rw [writeSt_block s m lo, hw]; rfl)

end

theorem fieldOf_zero (x : Word) (n : Nat) : fieldOf x 0 n = x.toNat % 2 ^ n := by simp [fieldOf]

/-- A write to a loop register takes effect at once unless the hart is at a loop (R171). -/
theorem writeSt_loop (s : State) (x : Word) :
    s.writeSt 8 x = some (s.setHart (s.hart.writeLoop 8 x)) ∧ s.writeSt 9 x = some (s.setHart (s.hart.writeLoop 9 x)) ∧
      (x.toNat % 4 ≠ 3 → s.writeSt 10 x = some (s.setHart (s.hart.writeLoop 10 x))) := by
  refine ⟨rfl, rfl, fun h => ?_⟩
  simp [State.writeSt, fieldOf_zero, h]

theorem viewsOk_iff {s : State} {v : Word} :
    s.viewsOk v = true ↔ Hart.viewsFit s.hart.wsize v = true ∧ (s.isCore = true ∨ s.sweepHart s.cell.no s.cell.slot = false ∨
      ∀ f, s.cellField s.cell.no = some f → 9 ≤ fieldOf v 8 7 ∧ f.vNeed ≤ fieldOf v 24 6) := by
  unfold State.viewsOk
  cases s.cellField s.cell.no <;> simp [or_assoc]

/-- Settles O18: every register by the branch of `writeSt` that writes it, the loop registers by whether the hart is at a loop. -/
theorem stateRegisterWrites : Obligations.StateRegisterWrites := by
  unfold Obligations.StateRegisterWrites
  rintro s d n m v hm rfl
  dsimp only
  have user {n : Nat} {g : Hart} := stset_user (s := s) (d := d) (n := n) (g := g) v
  have block {o : Nat} {c : TrapBlock} := stset_block (s := s) (d := d) (o := o) (c := c) v hm
  obtain ⟨l8, l9, l10⟩ := writeSt_loop s (s.hart.S d)
  refine ⟨user (by omega) rfl, user (by omega) rfl, user (by omega) rfl, user (by omega) rfl, user (by omega) rfl, ⟨fun i => ?idle, fun a => ?active⟩,
    fun fit site => ?views, fun core f => ⟨fun fit => ?size, fun unfit => ?refused⟩, fun le => block (o := 0) (by omega) ?stat,
    block (by omega) ?vec, block (by omega) rfl, block (by omega) rfl, block (by omega) ?pc, block (by omega) ?ie, block (by omega) ?ip,
    block (by omega) rfl, fun hu => block (.inr ⟨rfl, hu⟩) ?del⟩
  case idle =>
    rw [← Hart.atLoop_iff, Bool.not_eq_true] at i
    simp only [Hart.writeLoop, i, addrOf_eq] at l8 l9 l10
    exact ⟨user (by omega) l8, user (by omega) l9, fun h => user (by omega) (l10 h)⟩
  case active =>
    rw [← Hart.atLoop_iff] at a
    simp only [Hart.writeLoop, a, addrOf_eq] at l8 l9 l10
    exact ⟨user (by omega) l8, user (by omega) l9, fun h => user (by omega) (l10 h)⟩
  case views =>
    refine user (by omega) ?_
    have ok : s.viewsOk (s.hart.S d &&& viewsMask) = true := by
      refine viewsOk_iff.2 ⟨fit, site.imp_right (.imp_right ?_)⟩
      rintro ⟨f, hf, a, b⟩ g hg
      cases hf.symm.trans hg
      exact ⟨a, b⟩
    simp [State.writeSt, State.writeViews, ok]
  case size =>
    refine stset_sets (l := .f) v (by omega) (by simp [stateReg, core]) (by rw [f]) ?_
    simp [State.writeSt, fieldOf_zero, fit]
  case refused =>
    rw [show (22 : BitVec 12) = BitVec.ofNat 12 22 from rfl, exec_stset (l := .f) v (by omega) (by simp [stateReg, core]) (by rw [f])]
    simp [State.writeSt, fieldOf_zero, unfit]
  case stat =>
    have code : m.code ≤ 2 := by cases m <;> decide
    have ppl : fieldOf (s.hart.S d) 2 2 ≤ m.code := le
    exact if_neg (by simpa using ⟨fun e => by omega, ppl⟩)
  case vec => simp [TrapBlock.write, addrOf_eq]
  case pc => simp [TrapBlock.write, addrOf_eq]
  case ie => cases m <;> cases h : s.isCore <;> simp [TrapBlock.write, ieMask]
  case ip => cases m <;> cases h : s.isCore <;> simp [TrapBlock.write, ipMask]
  case del => cases m <;> simp [TrapBlock.write, cdelMask]
end Sys2Proof.Machine

namespace Sys2Proof.Machine

/-! ## Re-tests of waiters (R249) -/

/-- The hart's wait may have ended; nothing else of it is new. -/
theorem Hart.awaits_woken (h : Hart) (w : Bool) :
    { h with woken := w }.awaits = if w then none else { h with woken := false }.awaits := by
  cases w
  · rfl
  · unfold Hart.awaits
    split <;> simp

/-- What re-tests of waiters may change of a cell: which waits have ended, and the waiters words of awaited objects. -/
structure Retested (c e : Cell) : Prop where
  cell : e = { c with harts := e.harts, loc := e.loc }
  hart : ∀ k, e.hart k = { c.hart k with woken := (e.hart k).woken }
  idle : ∀ k, (c.hart k).awaits = none → e.hart k = c.hart k
  loc : ∀ x, ¬ Awaited c x → e.loc.byte x = c.loc.byte x

namespace Retested
variable {c e : Cell} {k : Slot} {o : Nat} {p : Bool}

theorem refl (c : Cell) : Retested c c := ⟨rfl, fun _ => rfl, fun _ _ => rfl, fun _ _ => rfl⟩

/-- A hart that still waits has waited from the start. -/
theorem awaits (h : Retested c e) (a : (e.hart k).awaits = some (o, p)) : (c.hart k).awaits = some (o, p) := by
  cases hc : (c.hart k).awaits with
  | none => rw [h.idle k hc, hc] at a; exact a
  | some q =>
    rw [h.hart k, Hart.awaits_woken] at a
    have b := Hart.awaits_woken (c.hart k) (c.hart k).woken
    rw [show ({ c.hart k with woken := (c.hart k).woken } : Hart) = c.hart k from rfl, hc] at b
    split at a <;> split at b <;> simp_all

theorem setWaiter (h : Retested c e) (a : (c.hart k).awaits = some (o, p)) (b : Bool) : Retested c (e.setWaiter o k b) := by
  refine ⟨?_, h.hart, h.idle, fun x hx => ?_⟩
  · rw [h.cell]; rfl
  · refine (Mem.byte_write_other _ _ _ _ ?_).trans (h.loc x hx)
    have out : ¬(o + 8 ≤ x ∧ x < o + 16) := fun i => hx ⟨k, o, p, a, i⟩
    simp only [length_leBytes]
    omega

theorem wake (h : Retested c e) (a : (c.hart k).awaits = some (o, p)) : Retested c (e.setHart k { e.hart k with woken := true }) := by
  refine ⟨?_, fun j => ?_, fun j hj => ?_, h.loc⟩
  · rw [h.cell]; rfl
  · by_cases hjk : j = k
    · subst hjk; rw [Cell.hart_setHart, h.hart j]
    · rw [Cell.hart_setHart_ne _ _ hjk]; exact h.hart j
  · have hjk : j ≠ k := by rintro rfl; simp [a] at hj
    rw [Cell.hart_setHart_ne _ _ hjk]; exact h.idle j hj

theorem slot (h : Retested c e) : e.slot = c.slot := by rw [h.cell]; rfl

theorem locSb (h : Retested c e) : e.locSb = c.locSb := by rw [h.cell]

theorem onlyLocal {s : State} {m : Mem} (h : Retested { s.cell with loc := m } e) (g : Hart) :
    OnlyLocal s { s with cell := e.setHart s.cell.slot g } := by
  refine ⟨rfl, ?_, fun k hk => ?_⟩
  · rw [h.cell]; rfl
  · rw [Cell.hart_setHart_ne _ _ hk]; exact h.hart k

end Retested

theorem Cell.retest_retested (c : Cell) (a n : Nat) : Retested c (c.retest a n) := by
  unfold Cell.retest
  refine foldl_keeps (P := Retested c) (.refl c) fun e k h => ?_
  split
  · exact h
  · have w := h.awaits ‹_›
    split
    · split
      exacts [(h.wake w).setWaiter w _, h.setWaiter w _]
    · exact h

/-! ## What a completed instruction leaves of its hart -/

theorem HartKept.complete (h : Hart) : HartKept h h.complete :=
  ⟨.of_same rfl, by simp [SpecialsKept, BlocksKept], by simp [FlagsKept], h.complete_win, h.complete_winSb⟩

/-- A hart that completes with a scalar written: what is new of it is that slot. -/
theorem Hart.completed_setS (h : Hart) (d : Reg) (v : Word) : WentOn h (h.setS d v).complete ∧ SpecialsKept h (h.setS d v).complete ∧
    FlagsKept h (h.setS d v).complete ∧ WroteScalar h (h.setS d v).complete d v := by
  refine ⟨.of_same (by simp), by simp [SpecialsKept, BlocksKept], by simp [FlagsKept], ?_, by simp⟩
  have slot (g : Hart) : g.complete.S d = g.S d := by simp [Hart.S, Hart.sRaw, Hart.sAddr, Hart.sbase]
  split
  · subst_vars; simp
  · exact ⟨by rw [slot, Hart.S_setS_self, if_neg ‹_›], fun x hx => by simpa using Hart.win_setS h d v x hx⟩

/-! ## A store to LOCAL of a cell's hart -/

theorem State.hart_cell {s : State} {no : Nat} (hc : s.cur = .cell no) : s.hart = s.cell.hart s.cell.slot := by simp [State.hart, hc]

/-- The issuing hart of a cell that another cell stands for. -/
theorem State.hart_setCell {s : State} {no : Nat} (hc : s.cur = .cell no) {c : Cell} (hs : c.slot = s.cell.slot) :
    { s with cell := c }.hart = c.hart s.cell.slot := by
  simp [State.hart, hc, hs]

theorem State.setHart_setCell {s : State} {no : Nat} (hc : s.cur = .cell no) {c : Cell} (hs : c.slot = s.cell.slot) (g : Hart) :
    { s with cell := c }.setHart g = { s with cell := c.setHart s.cell.slot g } := by
  simp [State.setHart, hc, hs]

theorem Hart.awaits_run {h : Hart} (r : h.st = .run) : h.awaits = none := by simp [Hart.awaits, r]

theorem Cell.lwrite_retested (c : Cell) (a : Nat) (bs : List Byte) : Retested { c with loc := c.loc.write a bs } (c.lwrite a bs) :=
  Cell.retest_retested _ _ _

section
variable {s : State} {no o : Nat} {bs : List Byte} {g : Hart}

theorem hart_lwrite (hc : s.cur = .cell no) (hr : s.hart.st = .run) : (s.mapCell fun c => c.lwrite o bs).hart = s.hart := by
  have r := s.cell.lwrite_retested o bs
  rw [State.hart_cell hc] at hr ⊢
  exact (State.hart_setCell hc r.slot).trans (r.idle _ (Hart.awaits_run hr))

/-- A store to LOCAL and a new state of the issuing hart leave all else as it was. -/
theorem lwrite_onlyLocal (hc : s.cur = .cell no) : OnlyLocal s ((s.mapCell fun c => c.lwrite o bs).setHart g) := by
  have r := s.cell.lwrite_retested o bs
  rw [State.mapCell, State.setHart_setCell hc r.slot]
  exact r.onlyLocal g

theorem lwrite_byte {x : Nat} (hx : ¬ Awaited s.cell x) :
    ((s.mapCell fun c => c.lwrite o bs).setHart g).cell.loc.byte x = (s.cell.loc.write o bs).byte x := by
  rw [State.setHart_cell_loc]
  exact (s.cell.lwrite_retested o bs).loc x hx

theorem lwrite_locSb : ((s.mapCell fun c => c.lwrite o bs).setHart g).cell.locSb = s.cell.locSb := by
  rw [State.setHart_cell_locSb]
  exact (s.cell.lwrite_retested o bs).locSb

theorem lwrite_localKept : LocalKept s.cell ((s.mapCell fun c => c.lwrite o bs).setHart g).cell o bs.length := fun x h hx => by
  rw [lwrite_byte hx, Mem.byte_write_other _ _ _ _ h]

end

/-! ## Barrier objects -/

/-- The sixteen bytes of an object (R113). -/
def objBytes (v0 v1 : Word) : List Byte := leBytes 8 v0.toNat ++ leBytes 8 (v1 &&& objMask).toNat

theorem length_objBytes (v0 v1 : Word) : (objBytes v0 v1).length = 16 := by simp [objBytes]

theorem Cell.objStep_eq {c : Cell} {o : Nat} (h : o + 16 ≤ c.localSize) (f : Word → Word → Word × Word) :
    c.objStep o f = c.lwrite o (objBytes (f (c.lword o) (c.lword (o + 8))).1 (f (c.lword o) (c.lword (o + 8))).2) := by
  simp [Cell.objStep, Cell.objOk, h, objBytes]

theorem byte_objBytes (m : Mem) (o : Nat) (v0 v1 : Word) {i : Nat} (hi : i < 8) :
    (m.write o (objBytes v0 v1)).byte (o + i) = BitVec.ofNat 8 (v0.toNat / 256 ^ i) ∧
      (m.write o (objBytes v0 v1)).byte (o + 8 + i) = BitVec.ofNat 8 ((v1 &&& objMask).toNat / 256 ^ i) := by
  rw [Mem.byte_write, Mem.byte_write, length_objBytes, if_pos (by omega), if_pos (by omega), show o + i - o = i by omega,
    show o + 8 + i - o = 8 + i by omega]
  refine ⟨?_, ?_⟩
  · rw [objBytes, List.getD_append _ _ _ _ (by simpa using hi), leBytes_getD 8 _ i hi]
  · rw [objBytes, List.getD_append_right _ _ _ _ (by simp), length_leBytes, show 8 + i - 8 = i by omega, leBytes_getD 8 _ i hi]

/-- An object stored is in LOCAL, with its reserved bits zero, and all else is as it was. -/
theorem object_stored {s : State} {no o : Nat} {g : Hart} (hc : s.cur = .cell no) (v0 v1 : Word) :
    let t := (s.mapCell fun c => c.lwrite o (objBytes v0 v1)).setHart g
    OnlyLocal s t ∧ LocalKept s.cell t.cell o 16 ∧ t.cell.locSb = s.cell.locSb ∧ ObjectHolds s.cell t.cell o (v0, v1) := by
  refine ⟨lwrite_onlyLocal hc, length_objBytes v0 v1 ▸ lwrite_localKept, lwrite_locSb, fun i hi hx => ?_, fun i hi hx => ?_⟩
  · rw [lwrite_byte hx, (byte_objBytes _ _ _ _ hi).1]
  · rw [lwrite_byte hx, (byte_objBytes _ _ _ _ hi).2]; rfl

/-- An object stored at a LOCAL offset: its words stand there, and all else but waiters words and ended waits is as it was. -/
def Stored (s t : State) (o : Nat) (v0 v1 : Word) : Prop :=
  OnlyLocal s t ∧ LocalKept s.cell t.cell o 16 ∧ t.cell.locSb = s.cell.locSb ∧ ObjectHolds s.cell t.cell o (v0, v1)

theorem stored_finish {s : State} {no o : Nat} {i : Instr} {v0 v1 : Word} (hc : s.cur = .cell no) (hr : s.hart.st = .run)
    (h : exec i s = (s.mapCell fun c => c.lwrite o (objBytes v0 v1)).finish) :
    ∃ t, exec i s = .next t ∧ HartKept s.hart t.hart ∧ Stored s t o v0 v1 := by
  rw [State.finish_eq, hart_lwrite hc hr] at h
  refine ⟨_, h, ?_, object_stored hc v0 v1⟩
  rw [State.hart_setHart]
  exact .complete _

theorem stored_writeS {s : State} {no o : Nat} {i : Instr} {d : Reg} {x : Word} {v0 v1 : Word} (hc : s.cur = .cell no)
    (hr : s.hart.st = .run) (h : exec i s = (s.mapCell fun c => c.lwrite o (objBytes v0 v1)).writeS d x) :
    ∃ t, exec i s = .next t ∧ WentOn s.hart t.hart ∧ SpecialsKept s.hart t.hart ∧ FlagsKept s.hart t.hart ∧ WroteScalar s.hart t.hart d x ∧
      Stored s t o v0 v1 := by
  obtain ⟨went, specials, flags, wrote⟩ := s.hart.completed_setS d x
  rw [State.writeS_eq, hart_lwrite hc hr] at h
  refine ⟨_, h, ?_, ?_, ?_, ?_, object_stored hc v0 v1⟩
  all_goals rw [State.hart_setHart]
  exacts [went, specials, flags, wrote]

/-- The checks of a barrier instruction let an aligned object inside LOCAL through. -/
theorem onObject_ok {s : State} {ss : List Reg} {a : Reg} {k : Nat → Out} {no : Nat} (hc : s.cur = .cell no) (v : InView s ss [])
    (al : (s.hart.S a).toNat % 16 = 0) (fits : (s.hart.S a).toNat + 16 ≤ s.cell.localSize) : onObject ss a k s = k (s.hart.S a).toNat := by
  have cell : s.isCore = false := by simp [State.isCore, hc]
  simp only [onObject, State.cellOnly_cell cell, State.withRegs_inView v, State.withLocal, al]
  simp [Nat.not_lt.2 fits]

theorem RegisteredOnly.acquireDrop (c : Cell) : RegisteredOnly c.acquireDrop := by
  intro l hl
  obtain ⟨k, -, rfl⟩ := List.mem_map.1 (List.mem_filter.1 hl).1
  simp [BitVec.and_assoc]

/-- An acquire touches the cell's CACHE alone, so it leaves the issuing hart as it was. -/
theorem State.acquire_cell {s : State} {no : Nat} (hc : s.cur = .cell no) : s.acquire = { s with cell := s.cell.acquireDrop } := by
  simp [State.acquire, State.isCore, hc, State.mapCell]

/-- What an acquire and a new state of the issuing hart leave of the module. -/
def Acquired (s t : State) : Prop :=
  t = { s with cell := t.cell } ∧ t.cell = { s.cell with harts := t.cell.harts, cache := t.cell.cache } ∧
    (∀ k, k ≠ s.cell.slot → t.cell.hart k = s.cell.hart k) ∧ RegisteredOnly t.cell

theorem acquire_acquired {s : State} {no : Nat} (hc : s.cur = .cell no) (g : Hart) : Acquired s (s.acquire.setHart g) := by
  rw [State.acquire_cell hc, State.setHart_setCell hc (c := s.cell.acquireDrop) rfl]
  exact ⟨rfl, rfl, fun k hk => Cell.hart_setHart_ne _ _ hk, RegisteredOnly.acquireDrop _⟩

theorem State.hart_acquire {s : State} {no : Nat} (hc : s.cur = .cell no) : s.acquire.hart = s.hart := by
  rw [State.acquire_cell hc, State.hart_setCell hc (c := s.cell.acquireDrop) rfl, State.hart_cell hc]; rfl

/-- The instruction completes as an acquire: its registers stay but for what it says it writes. -/
def Passed (s t : State) : Prop := WentOn s.hart t.hart ∧ SpecialsKept s.hart t.hart ∧ FlagsKept s.hart t.hart ∧ Acquired s t

theorem passed_finish {s : State} {no : Nat} {i : Instr} (hc : s.cur = .cell no) (h : exec i s = s.acquire.finish) :
    ∃ t, exec i s = .next t ∧ Passed s t ∧ t.hart.win = s.hart.win := by
  obtain ⟨went, specials, flags, win, -⟩ := HartKept.complete s.hart
  rw [State.finish_eq, State.hart_acquire hc] at h
  refine ⟨_, h, ⟨?_, ?_, ?_, acquire_acquired hc _⟩, ?_⟩
  all_goals rw [State.hart_setHart]
  exacts [went, specials, flags, win]

theorem passed_writeS {s : State} {no : Nat} {i : Instr} {d : Reg} {v : Word} (hc : s.cur = .cell no) (h : exec i s = s.acquire.writeS d v) :
    ∃ t, exec i s = .next t ∧ Passed s t ∧ WroteScalar s.hart t.hart d v := by
  obtain ⟨went, specials, flags, wrote⟩ := s.hart.completed_setS d v
  rw [State.writeS_eq, State.hart_acquire hc] at h
  refine ⟨_, h, ⟨?_, ?_, ?_, acquire_acquired hc _⟩, ?_⟩
  all_goals rw [State.hart_setHart]
  exacts [went, specials, flags, wrote]

/-! ## Bits of the words -/

/-- A field set stands in its bits, and the other bits are as before. -/
theorem getLsbD_setField (x : Word) (s n v : Nat) {i : Nat} (hi : i < 64) :
    (setField x s n v).getLsbD i = if s ≤ i ∧ i < s + n then v.testBit (i - s) else x.getLsbD i := by
  have parts (f : Nat) (hf : f < 2 ^ n) : (2 ^ s * (2 ^ n * (x.toNat / 2 ^ s / 2 ^ n) + f) + x.toNat % 2 ^ s).testBit i =
      if i < s then (x.toNat % 2 ^ s).testBit i else if i - s < n then f.testBit (i - s) else (x.toNat / 2 ^ s / 2 ^ n).testBit (i - s - n) := by
    rw [Nat.testBit_two_pow_mul_add _ (Nat.mod_lt _ (Nat.two_pow_pos s)), Nat.testBit_two_pow_mul_add _ hf]
  have old : 2 ^ s * (2 ^ n * (x.toNat / 2 ^ s / 2 ^ n) + fieldOf x s n) + x.toNat % 2 ^ s = x.toNat := by
    rw [fieldOf, Nat.div_add_mod, Nat.div_add_mod]
  have new : x.toNat - fieldOf x s n * 2 ^ s + v % 2 ^ n * 2 ^ s =
      2 ^ s * (2 ^ n * (x.toNat / 2 ^ s / 2 ^ n) + v % 2 ^ n) + x.toNat % 2 ^ s := by
    conv_lhs => rw [← old]
    rw [Nat.mul_add, Nat.mul_add, Nat.mul_comm (fieldOf x s n), Nat.mul_comm (v % 2 ^ n)]
    omega
  rw [setField, new, BitVec.getLsbD_ofNat, parts _ (Nat.mod_lt _ (Nat.two_pow_pos n)), decide_eq_true hi, Bool.true_and, BitVec.getLsbD]
  conv_rhs => rw [← old, parts (fieldOf x s n) (Nat.mod_lt _ (Nat.two_pow_pos n))]
  by_cases h1 : i < s
  · simp [h1, Nat.not_le.2 h1]
  · by_cases h2 : i - s < n
    · rw [if_neg h1, if_pos h2, if_pos (by omega), Nat.testBit_mod_two_pow, decide_eq_true h2, Bool.true_and]
    · rw [if_neg h1, if_neg h2, if_neg (by omega), if_neg h1, if_neg h2]

theorem getLsbD_objMask {i : Nat} (hi : i < 64) : objMask.getLsbD i = decide (i = 0 ∨ 16 ≤ i ∧ i < 48) := by
  interval_cases i <;> rfl

/-- The state word of `btest` (R248): its fields are its parts. -/
theorem testWord_fields {m p e : Nat} (hm : m < 2 ^ 32) (hp : p < 2) (he : e < 2 ^ 16) :
    let v : Word := BitVec.ofNat 64 (m + 2 ^ 32 * p + 2 ^ 48 * e)
    v.getLsbD 32 = decide (p = 1) ∧ (v.extractLsb' 48 16).toNat = e ∧ (v.extractLsb' 0 32).toNat = m := by
  refine ⟨?_, ?_, ?_⟩
  · rw [BitVec.getLsbD_ofNat, Nat.testBit_eq_decide_div_mod_eq]
    simp only [Nat.reduceLT, decide_true, Bool.true_and, decide_eq_decide]
    omega
  · simp only [BitVec.extractLsb'_toNat, BitVec.toNat_ofNat, Nat.shiftRight_eq_div_pow]
    omega
  · simp only [BitVec.extractLsb'_toNat, BitVec.toNat_ofNat, Nat.shiftRight_zero]
    omega

/-- The second word of an object after a waiter's bit of it is written. -/
theorem Cell.lword_setWaiter (c : Cell) (o : Nat) (k : Slot) (b : Bool) :
    (c.setWaiter o k b).lword (o + 8) = setField (c.lword (o + 8)) (32 + k.val) 1 (if b then 1 else 0) &&& objMask := by
  have := Mem.read_write_self (leBytes 8 (setField (c.lword (o + 8)) (32 + k.val) 1 (if b then 1 else 0) &&& objMask).toNat) c.loc (o + 8)
  rw [length_leBytes] at this
  simp only [Cell.setWaiter, Cell.lword, Cell.lread] at this ⊢
  rw [this, ofNat_leNat_leBytes_8]

/-- A waiter's bit set: it stands, the other waiters' are as before, and of the low half the bits that are not reserved stay. -/
theorem waiter_bits (w : Word) (k : Slot) : let v := setField w (32 + k.val) 1 1 &&& objMask
    v.getLsbD (32 + k.val) = true ∧ v.extractLsb' 0 32 = w.extractLsb' 0 32 &&& 0xFFFF0001 ∧
      ∀ j : Slot, j ≠ k → v.getLsbD (32 + j.val) = w.getLsbD (32 + j.val) := by
  have bit {i : Nat} (hi : i < 64) : (setField w (32 + k.val) 1 1 &&& objMask).getLsbD i =
      ((if i = 32 + k.val then true else w.getLsbD i) && decide (i = 0 ∨ 16 ≤ i ∧ i < 48)) := by
    rw [BitVec.getLsbD_and, getLsbD_setField _ _ _ _ hi, getLsbD_objMask hi]
    by_cases h : i = 32 + k.val
    · subst h; simp
    · rw [if_neg (by omega), if_neg h]
  refine ⟨?_, BitVec.eq_of_getLsbD_eq fun i hi => ?_, fun j hj => ?_⟩
  · rw [bit (by omega)]; simp; omega
  · have mask : (0xFFFF0001 : BitVec 32).getLsbD i = decide (i = 0 ∨ 16 ≤ i) := by interval_cases i <;> rfl
    rw [BitVec.getLsbD_and, mask, BitVec.getLsbD_extractLsb', BitVec.getLsbD_extractLsb', Nat.zero_add, bit (by omega), if_neg (by omega)]
    have : decide (i = 0 ∨ 16 ≤ i ∧ i < 48) = decide (i = 0 ∨ 16 ≤ i) := decide_eq_decide.2 (by omega)
    rw [this, Bool.and_assoc]
  · have ne : j.val ≠ k.val := fun e => hj (Fin.ext e)
    rw [bit (by omega), if_neg (by omega)]
    simp; omega

theorem fieldOf_extract (x : Word) (s n : Nat) : (x.extractLsb' s n).toNat = fieldOf x s n := by
  rw [BitVec.extractLsb'_toNat, Nat.shiftRight_eq_div_pow]; rfl

theorem getLsbD_zero (x : Word) : x.getLsbD 0 = decide (fieldOf x 0 1 = 1) := by
  simp [BitVec.getLsbD, Nat.testBit_zero, fieldOf]

/-- A hart that enters WAIT among the waiters of an object in LOCAL: its own state and the waiters word are new. -/
theorem waits_onlyLocal {s : State} {no : Nat} (hc : s.cur = .cell no) (o : Nat) (i : Instr) :
    ∃ t, (s.mapCell fun c => c.setWaiter o s.cell.slot true).waitOn .barrier i = .next t ∧ OnlyLocal s t ∧
      t.hart = { s.hart with st := .wait .barrier, winstr := some i, woken := false, since := some (s.hart.since.getD s.tbase) } ∧
      t.cell.loc = (s.cell.setWaiter o s.cell.slot true).loc ∧ t.cell.locSb = s.cell.locSb := by
  have hart : (s.mapCell fun c => c.setWaiter o s.cell.slot true).hart = s.hart :=
    (State.hart_setCell hc (c := s.cell.setWaiter o s.cell.slot true) rfl).trans (State.hart_cell hc).symm
  refine ⟨_, rfl, ?_, ?_, by simp [State.mapCell], by simp [State.mapCell, Cell.setWaiter]⟩
  · rw [State.mapHart_eq, State.mapCell, State.setHart_setCell hc (c := s.cell.setWaiter o s.cell.slot true) rfl]
    exact ⟨rfl, rfl, fun k hk => by rw [Cell.hart_setHart_ne _ _ hk]; rfl⟩
  · rw [State.mapHart_eq, State.hart_setHart, hart]; rfl

/-- Settles O24: what the object's step stores, what the acquire keeps of CACHE, and the waiter's bit of a hart that waits. -/
theorem barrierObjects : Obligations.BarrierObjects := by
  unfold Obligations.BarrierObjects
  intro s tr d a b no hc v hr
  dsimp only
  intro al fits
  simp only [InView, List.all_cons, List.all_nil, Bool.and_true, Bool.and_eq_true] at v
  obtain ⟨⟨hd, ha, hb⟩, -⟩ := v
  have ok {ss : List Reg} {k : Nat → Out} (hs : ss.all s.hart.sOk = true) : onObject ss a k s = k (s.hart.S a).toNat :=
    onObject_ok hc ⟨hs, rfl⟩ al fits
  have step (f : Word → Word → Word × Word) : (s.mapCell fun c => c.objStep (s.hart.S a).toNat f) = s.mapCell fun c =>
      c.lwrite (s.hart.S a).toNat (objBytes (f (s.cell.lword (s.hart.S a).toNat) (s.cell.lword ((s.hart.S a).toNat + 8))).1
        (f (s.cell.lword (s.hart.S a).toNat) (s.cell.lword ((s.hart.S a).toNat + 8))).2) :=
    congrArg (fun c => { s with cell := c }) (Cell.objStep_eq fits f)
  have issued (x : Bool) (hs : (tryReg x d ++ [a, b]).all s.hart.sOk = true) : exec (.bwait x d a b) s = _ :=
    (if_neg (by simp [Hart.waits, hr])).trans (ok hs)
  refine ⟨?bini, ?bexp, ?barv, ?btest, ?hit, ?miss⟩
  case bini => exact stored_finish (i := .bini a) (v0 := 0) (v1 := 0) hc hr (ok (by simp [ha]))
  case bexp => exact stored_finish (i := .bexp a b) hc hr ((ok (by simp [ha, hb])).trans (congrArg State.finish (step _)))
  case barv => exact stored_writeS (i := .barv d a b) hc hr ((ok (by simp [hd, ha, hb])).trans (congrArg (State.writeS · d _) (step _)))
  case btest =>
    obtain ⟨t, e, passed, wrote⟩ := passed_writeS (i := .btest d a) hc (ok (by simp [hd, ha]))
    obtain ⟨p, n, m⟩ := testWord_fields (m := fieldOf (s.cell.lword (s.hart.S a).toNat) 0 32 - fieldOf (s.cell.lword (s.hart.S a).toNat) 32 32)
      (p := fieldOf (s.cell.lword ((s.hart.S a).toNat + 8)) 0 1) (e := fieldOf (s.cell.lword ((s.hart.S a).toNat + 8)) 16 16)
      (Nat.lt_of_le_of_lt (Nat.sub_le _ _) (Nat.mod_lt _ (Nat.two_pow_pos 32))) (Nat.mod_lt _ (Nat.two_pow_pos 1)) (Nat.mod_lt _ (Nat.two_pow_pos 16))
    refine ⟨t, _, e, passed, wrote, p.trans (getLsbD_zero _).symm, BitVec.eq_of_toNat_eq (n.trans (fieldOf_extract _ _ _).symm), m.trans ?_⟩
    simp only [Cell.lword, Cell.lread, fieldOf]
    omega
  case hit =>
    intro e
    have now : (s.cell.phase (s.hart.S a).toNat == (s.hart.S b).getLsbD 0) = true := beq_iff_eq.2 e
    cases tr
    · exact passed_finish (i := .bwait false d a b) hc ((issued false (by simp [tryReg, ha, hb])).trans ((if_neg Bool.false_ne_true).trans (if_pos now)))
    · exact passed_writeS (i := .bwait true d a b) hc ((issued true (by simp [tryReg, hd, ha, hb])).trans ((if_pos rfl).trans (if_pos now)))
  case miss =>
    intro e
    have now : ¬(s.cell.phase (s.hart.S a).toNat == (s.hart.S b).getLsbD 0) = true := fun p => e (beq_iff_eq.1 p)
    refine ⟨.of_writeS ((issued true (by simp [tryReg, hd, ha, hb])).trans ((if_pos rfl).trans (if_neg now))), ?_⟩
    obtain ⟨t, waits, only, hart, loc, sb⟩ := waits_onlyLocal hc (s.hart.S a).toNat (.bwait false d a b)
    refine ⟨t, ((issued false (by simp [tryReg, ha, hb])).trans ((if_neg Bool.false_ne_true).trans (if_neg now))).trans waits, only, hart,
      fun x hx => ?_, sb, ?_⟩
    · rw [loc]
      exact Mem.byte_write_other _ _ _ _ (by rw [length_leBytes]; omega)
    · rw [loc]
      have word := s.cell.lword_setWaiter (s.hart.S a).toNat s.cell.slot true
      rw [if_pos rfl] at word
      rw [show BitVec.ofNat 64 (leNat ((s.cell.setWaiter (s.hart.S a).toNat s.cell.slot true).loc.read ((s.hart.S a).toNat + 8) 8)) = _ from word]
      exact waiter_bits _ _

end Sys2Proof.Machine

namespace Sys2Proof.Machine
/-! ## Notices (R391) -/

section
variable {s t : State} {b l : Nat}

/-- A notice changes the registers of a core and nothing else of the module. -/
theorem State.notice_eq (s : State) (b l : Nat) : s.notice b l = { s with cores := (s.notice b l).cores } := by
  unfold State.notice
  dsimp only
  split <;> rfl

@[simp] theorem State.notice_mem : (s.notice b l).mem = s.mem := by rw [State.notice_eq]
@[simp] theorem State.notice_head : (s.notice b l).head = s.head := by rw [State.notice_eq]
@[simp] theorem State.notice_link (e : Nat) : (s.notice b l).link e = s.link e := by rw [State.notice_eq]; rfl
@[simp] theorem State.notice_qp (q : Nat) : (s.notice b l).qp q = s.qp q := by rw [State.notice_eq]; rfl

/-- What a notice makes of the cores depends on HNR and the cores alone. -/
theorem State.notice_cores_congr (hh : t.head = s.head) (hc : t.cores = s.cores) : (t.notice b l).cores = (s.notice b l).cores := by
  simp only [State.notice, hh, hc]
  split <;> simp_all

end

/-! ## Records kept by their key -/

/-- A record in front of those of another key hides none that is looked for by a different key. -/
theorem find?_cons_filter {α : Type} {p keep : α → Bool} {x : α} (l : List α) (hx : p x = false) (h : ∀ y, p y = true → keep y = true) :
    (x :: l.filter keep).find? p = l.find? p := by
  rw [List.find?_cons_of_neg (by simp [hx]), List.find?_filter]
  congr 1
  funext y
  by_cases hy : p y = true
  · simp [h y hy]
  · simp [hy]

section
variable {s : State} {l q d r : Nat}

@[simp] theorem State.link_no : (s.link l).no = l := by
  unfold State.link
  cases h : s.links.find? fun x => x.no == l with
  | none => rfl
  | some x => simpa using List.find?_some h

@[simp] theorem State.qp_no : (s.qp q).no = q := by
  unfold State.qp
  cases h : s.qps.find? fun x => x.no == q with
  | none => rfl
  | some x => simpa using List.find?_some h

theorem State.railAt_key : (s.railAt d r).die = d ∧ (s.railAt d r).rail = r := by
  unfold State.railAt
  cases h : s.rails.find? fun x => x.die == d && x.rail == r with
  | none => exact ⟨rfl, rfl⟩
  | some x => simpa using List.find?_some h

theorem State.link_putLink {x : Link} (hx : x.no = l) : (s.putLink x).link l = x := by
  simp [State.link, State.putLink, hx]

theorem State.link_putLink_ne {x : Link} {e : Nat} (he : e ≠ x.no) : (s.putLink x).link e = s.link e := by
  unfold State.link State.putLink
  rw [find?_cons_filter s.links (by simpa using he.symm) fun y hy => by simp_all]

theorem State.qp_putQp {x : QueuePair} (hx : x.no = q) : (s.putQp x).qp q = x := by
  simp [State.qp, State.putQp, hx]

theorem State.qp_putQp_ne {x : QueuePair} {e : Nat} (he : e ≠ x.no) : (s.putQp x).qp e = s.qp e := by
  unfold State.qp State.putQp
  rw [find?_cons_filter s.qps (by simpa using he.symm) fun y hy => by simp_all]

theorem State.railAt_putRail {x : Rail} (hd : x.die = d) (hr : x.rail = r) : (s.putRail x).railAt d r = x := by
  simp [State.railAt, State.putRail, hd, hr]

end

/-! ## Bytes stored through window B (R337) -/

theorem inStack_line {a : Nat} (h : inStack a = true) : inStack (a / 128 * 128) = true ∧ dieOfPa (a / 128 * 128) = dieOfPa a := by
  have hd : dieOfPa (a / 128 * 128) = dieOfPa a := by unfold dieOfPa; omega
  refine ⟨?_, hd⟩
  simp only [inStack, hd, Bool.and_eq_true, decide_eq_true_eq] at h ⊢
  exact ⟨h.1, by unfold dieOfPa at hd; omega⟩

/-- The line of an address where a store lands can be read and written. -/
theorem Sound.physLine {s : State} {a : Nat} (h : Sound s a) :
    s.physLine false (a / 128 * 128) = .ok (s.mem.phys.read (a / 128 * 128) 128, zeros 4) := by
  obtain ⟨hi, hf, hr, hp⟩ := h
  obtain ⟨hl, hd⟩ := inStack_line hi
  simp only [State.physLine, hl, hd, hf, hr, Nat.mul_div_cancel _ (show 0 < 128 by decide), hp]
  rfl

/-- The bytes `bs` lie at `a` now; of the module no more than the bytes of memory and their error marks has changed. -/
structure Landed (s t : State) (a : Nat) (bs : List Byte) : Prop where
  same : t = { s with mem := { s.mem with phys := t.mem.phys, poison := t.mem.poison } }
  poison : ∀ p, s.mem.poison.contains p = false → t.mem.poison.contains p = false
  byte : ∀ i, t.mem.phys.byte i = if a ≤ i ∧ i < a + bs.length then bs.getD (i - a) 0 else s.mem.phys.byte i

namespace Landed
variable {s t u : State} {a : Nat} {bs cs : List Byte}

theorem sound {b : Nat} (h : Landed s t a bs) (hb : Sound s b) : Sound t b := by
  obtain ⟨hi, hf, hr, hp⟩ := hb
  refine ⟨hi, ?_, ?_, h.poison _ hp⟩
  · rw [h.same]; exact hf
  · rw [h.same]; exact hr

theorem nil : Landed s s a [] := ⟨rfl, fun _ h => h, fun i => by rw [if_neg]; simp⟩

theorem append (h : Landed s t a bs) (k : Landed t u (a + bs.length) cs) : Landed s u a (bs ++ cs) := by
  refine ⟨?_, fun p hp => k.poison p (h.poison p hp), fun i => ?_⟩
  · rw [k.same, h.same]
  · rw [k.byte, h.byte, List.length_append]
    by_cases h1 : i < a + bs.length
    · rw [if_neg (by omega)]
      by_cases h2 : a ≤ i
      · rw [if_pos ⟨h2, h1⟩, if_pos (by omega), List.getD_append _ _ _ _ (by omega)]
      · rw [if_neg (by omega), if_neg (by omega)]
    · by_cases h2 : i < a + bs.length + cs.length
      · rw [if_pos (by omega), if_pos (by omega), List.getD_append_right _ _ _ _ (by omega)]
        congr 1; omega
      · rw [if_neg (by omega), if_neg (by omega), if_neg (by omega)]

/-- The bytes as `∀ i` statements give them. -/
theorem bytes (h : Landed s t a bs) : (∀ i, i < bs.length → t.mem.phys.byte (a + i) = bs.getD i 0) ∧
    ∀ i, i < a ∨ a + bs.length ≤ i → t.mem.phys.byte i = s.mem.phys.byte i :=
  ⟨fun i hi => by rw [h.byte, if_pos (by omega), Nat.add_sub_cancel_left], fun i hi => by rw [h.byte, if_neg (by omega)]⟩

end Landed

theorem length_patch {l bs : List Byte} {i : Nat} (h : i + bs.length ≤ l.length) : (patch l i bs).length = l.length := by
  simp [patch]; omega

theorem patch_getD {l bs : List Byte} {i j : Nat} (h : i + bs.length ≤ l.length) :
    (patch l i bs).getD j 0 = if i ≤ j ∧ j < i + bs.length then bs.getD (j - i) 0 else l.getD j 0 := by
  have ht : (l.take i).length = i := by simp; omega
  unfold patch
  by_cases h1 : j < i + bs.length
  · rw [List.getD_append _ _ _ _ (by simp; omega)]
    by_cases h2 : i ≤ j
    · rw [if_pos ⟨h2, h1⟩, List.getD_append_right _ _ _ _ (by omega), ht]
    · rw [if_neg (by omega), List.getD_append _ _ _ _ (by omega)]
      simp only [List.getD_eq_getElem?_getD, List.getElem?_take]
      rw [if_pos (by omega)]
  · rw [if_neg (by omega), List.getD_append_right _ _ _ _ (by simp; omega)]
    simp only [List.getD_eq_getElem?_getD, List.getElem?_drop, List.length_append, ht]
    congr 2; omega

/-- Bytes inside one line land where the line is sound. -/
theorem landed_storeMem {s : State} {a : Nat} {bs : List Byte} (h : Sound s a) (hl : a % 128 + bs.length ≤ 128) :
    Landed s (s.storeMem a false bs []) a bs := by
  obtain ⟨hi, hd⟩ := inStack_line h.1
  have e : s.storeMem a false bs [] = { s with mem := { s.mem with
      phys := s.mem.phys.write (a / 128 * 128) (patch (s.mem.phys.read (a / 128 * 128) 128) (a % 128) bs),
      poison := s.mem.poison.filter (· != a / 128 * 128 / 128) } } := by
    simp only [State.storeMem, h.physLine, State.putPhysLine, hd, h.2.1, hi]
    rfl
  have hr : (s.mem.phys.read (a / 128 * 128) 128).length = 128 := Mem.length_read ..
  rw [e]
  refine ⟨rfl, fun p hp => ?_, fun i => ?_⟩
  · simp only [List.contains_eq_mem, decide_eq_false_iff_not, List.mem_filter] at hp ⊢
    exact fun hm => hp hm.1
  · show (Mem.write _ _ _).byte i = _
    rw [Mem.byte_write, length_patch (by omega), hr]
    by_cases hin : a / 128 * 128 ≤ i ∧ i < a / 128 * 128 + 128
    · rw [if_pos hin, patch_getD (by omega), Mem.read_getD _ _ _ _ (by omega), show a / 128 * 128 + (i - a / 128 * 128) = i by omega]
      by_cases hb : a ≤ i ∧ i < a + bs.length
      · rw [if_pos (by omega), if_pos hb, show i - a / 128 * 128 - a % 128 = i - a by omega]
      · rw [if_neg (by omega), if_neg hb]
    · rw [if_neg hin, if_neg (by omega)]

/-- The state and the bytes left after one piece of a range has been stored. -/
def storePiece (r : State × List Byte) (p : Nat × Nat) : State × List Byte := (r.1.storeMem p.1 false (r.2.take p.2) [], r.2.drop p.2)

theorem landed_pieces (fuel : Nat) : ∀ (s : State) (a : Nat) (bs : List Byte), bs = [] ∨ a % 128 + bs.length ≤ 128 * fuel →
    (∀ i, i < bs.length → Sound s (a + i)) → Landed s ((pieces fuel a bs.length).foldl storePiece (s, bs)).1 a bs := by
  induction fuel with
  | zero =>
    intro s a bs hf _
    obtain rfl : bs = [] := hf.elim id fun h => List.length_eq_zero_iff.mp (by omega)
    exact .nil
  | succ fuel ih =>
    intro s a bs hf hs
    by_cases hn : bs.length = 0
    · obtain rfl := List.length_eq_zero_iff.mp hn
      exact .nil
    · replace hf : a % 128 + bs.length ≤ 128 * (fuel + 1) := hf.resolve_left fun h => hn (by simp [h])
      simp only [pieces, if_neg hn, List.foldl_cons, storePiece]
      generalize hm : Nat.min bs.length (128 - a % 128) = m
      have hm' : m = min bs.length (128 - a % 128) := hm.symm
      have ht : (bs.take m).length = m := by simp; omega
      have h1 : Landed s (s.storeMem a false (bs.take m) []) a (bs.take m) :=
        landed_storeMem (by simpa using hs 0 (by omega)) (by omega)
      have h2 := ih (s.storeMem a false (bs.take m) []) (a + m) (bs.drop m) (by
        by_cases hd : bs.length = m
        · exact .inl (by rw [hd.symm]; simp)
        · exact .inr (by simp; omega)) fun i hi => h1.sound (by
          rw [List.length_drop] at hi
          rw [Nat.add_assoc]
          exact hs _ (by omega))
      rw [List.length_drop] at h2
      have h3 := h1.append (by rw [ht]; exact h2)
      rwa [List.take_append_drop] at h3

theorem landed_putB {s : State} {a : Nat} {bs : List Byte} (h : ∀ i, i < bs.length → Sound s (a + i)) : Landed s (s.putB a bs) a bs :=
  landed_pieces _ s a bs (.inr (by omega)) h

theorem mem_pieces {fuel : Nat} {p : Nat × Nat} : ∀ {a n : Nat}, p ∈ pieces fuel a n → a ≤ p.1 ∧ p.1 < a + n := by
  induction fuel with
  | zero => intro a n h; simp [pieces] at h
  | succ fuel ih =>
    intro a n h
    simp only [pieces] at h
    split at h
    · simp at h
    · obtain rfl | h := List.mem_cons.mp h
      · simp; omega
      · have := ih h
        have : Nat.min n (128 - a % 128) ≤ n := Nat.min_le_left ..
        omega

/-- The pieces of a range all of whose bytes are sound start at sound addresses. -/
theorem sound_of_mem_linePieces {s : State} {a n : Nat} {p : Nat × Nat} (h : ∀ i, i < n → Sound s (a + i)) (hp : p ∈ linePieces a n) :
    Sound s p.1 := by
  obtain ⟨h1, h2⟩ := mem_pieces hp
  rw [show p.1 = a + (p.1 - a) by omega]
  exact h _ (by omega)

theorem not_stalled_of_sound {s : State} {a n : Nat} (h : ∀ i, i < n → Sound s (a + i)) : s.stalled a n = false := by
  simp only [State.stalled, List.any_eq_false, Bool.not_eq_true]
  exact fun p hp => (sound_of_mem_linePieces h hp).2.2.1

theorem moved_of_sound {s : State} {a n : Nat} (h : ∀ i, i < n → Sound s (a + i)) : moved s a n = n := by
  unfold moved
  rw [if_pos]
  simp only [List.all_eq_true]
  intro p hp
  rw [(sound_of_mem_linePieces h hp).physLine]

/-- Bytes that have moved were not kept waiting by a stack in self-refresh. -/
theorem not_stalled_of_moved {s : State} {a n : Nat} (h : moved s a n = n) (hn : n ≠ 0) : s.stalled a n = false := by
  unfold moved at h
  split at h
  case isFalse => exact absurd h.symm hn
  case isTrue hall =>
    simp only [State.stalled, List.any_eq_false, Bool.not_eq_true]
    intro p hp
    have hp := List.all_eq_true.mp hall p hp
    by_contra hr
    rw [Bool.not_eq_false] at hr
    have hd : dieOfPa (p.1 / 128 * 128) = dieOfPa p.1 := by unfold dieOfPa; omega
    simp only [State.physLine, hd, hr] at hp
    split at hp
    case h_1 x hx => revert hx; split <;> [split; skip] <;> simp
    case h_2 => simp at hp

/-! ## Scale links (R395) -/

/-- No more than link `l` and the registers of cores has changed. -/
structure OnLink (s t : State) (l : Nat) : Prop where
  same : t = { s with links := t.links, cores := t.cores }
  other : ∀ e, e ≠ l → t.link e = s.link e

namespace OnLink
variable {s t u : State} {l : Nat}

theorem mem (h : OnLink s t l) : t.mem = s.mem := by rw [h.same]
theorem cell (h : OnLink s t l) : t.cell = s.cell := by rw [h.same]
theorem others (h : OnLink s t l) : t.others = s.others := by rw [h.same]
theorem head (h : OnLink s t l) : t.head = s.head := by rw [h.same]

theorem refl : OnLink s s l := ⟨rfl, fun _ _ => rfl⟩

theorem trans (h : OnLink s t l) (k : OnLink t u l) : OnLink s u l :=
  ⟨by rw [k.same, h.same], fun e he => (k.other e he).trans (h.other e he)⟩

theorem putLink {x : Link} (hx : x.no = l) : OnLink s (s.putLink x) l :=
  ⟨rfl, fun _ he => s.link_putLink_ne (hx ▸ he)⟩

theorem notice {b lo : Nat} : OnLink s (s.notice b lo) l :=
  ⟨by rw [State.notice_eq], fun _ _ => State.notice_link _⟩

end OnLink

/-- A link that may not send leaves the state as it is. -/
theorem State.linkSend_of_not_sends {s : State} {l : Nat} (h : (s.link l).sends = false) : ∀ n, s.linkSend l n = s
  | 0 => rfl
  | n + 1 => by simp [State.linkSend, h]

/-- A link with one entry more that its peer has got. -/
def Link.passed (x : Link) (e : List Byte) : Link := { x with sent := x.sent ++ [e], txhead := x.txhead + 1 }

/-- A link that may send, from memory that answers, sends the entry at its head and goes on. -/
theorem State.linkSend_succ {s : State} {l : Nat} {x : Link} (hx : s.link l = x) (hs : x.sends = true) (hst : s.stalled x.headAt 256 = false)
    (n : Nat) : s.linkSend l (n + 1) = (s.putLink (x.passed (s.getB x.headAt 256))).linkSend l n := by
  simp only [State.linkSend, hx, hs, hst]
  rfl

/-- Sending moves a link's head and what its peer has got, and nothing else. -/
theorem State.linkSend_keeps {l : Nat} (n : Nat) : ∀ {s : State} {x : Link}, s.link l = x → OnLink s (s.linkSend l n) l ∧
    (s.linkSend l n).cores = s.cores ∧ ∃ es h, (s.linkSend l n).link l = { x with sent := es, txhead := h } := by
  induction n with
  | zero => exact fun hx => ⟨.refl, rfl, _, _, hx⟩
  | succ n ih =>
    intro s x hx
    have hno : x.no = l := hx ▸ s.link_no
    by_cases hs : x.sends = true ∧ s.stalled x.headAt 256 = false
    · rw [State.linkSend_succ hx hs.1 hs.2]
      obtain ⟨hon, hc, es, h, hl⟩ := ih (s.link_putLink (x := x.passed (s.getB x.headAt 256)) hno)
      exact ⟨(OnLink.putLink (x := x.passed _) hno).trans hon, hc, es, h, hl⟩
    · have hstay : s.linkSend l (n + 1) = s := by
        simp only [State.linkSend, hx]
        exact if_pos (by simpa [Decidable.imp_iff_not_or] using hs)
      rw [hstay]
      exact ⟨.refl, rfl, _, _, hx⟩

/-- With room at the peer for all of them, and no stack asleep, the entries up to the tail are sent. -/
theorem State.linkSend_all {l : Nat} (n : Nat) : ∀ {s : State} {x : Link}, s.link l = x → x.up = true → (∀ d, s.refreshing d = false) →
    (x.txtail - x.txhead).toNat ≤ n → (x.txhead - x.prxhead).toNat + (x.txtail - x.txhead).toNat ≤ 2 ^ x.k →
    ((s.linkSend l n).link l).txhead = x.txtail ∧
    ((s.linkSend l n).link l).sent.length = x.sent.length + (x.txtail - x.txhead).toNat := by
  induction n with
  | zero =>
    intro s x hx _ _ hn _
    have h0 : x.txhead = x.txtail := by bv_omega
    simp [State.linkSend, hx, h0]
  | succ n ih =>
    intro s x hx hup hr hn hk
    by_cases h0 : x.txhead = x.txtail
    · rw [State.linkSend_of_not_sends (by simp [hx, Link.sends, h0]), hx]
      simp [h0]
    · have h1 : (x.txtail - (x.txhead + 1)).toNat + 1 = (x.txtail - x.txhead).toNat := by bv_omega
      have h2 : (x.txhead + 1 - x.prxhead).toNat ≤ (x.txhead - x.prxhead).toNat + 1 := by bv_omega
      have hs : x.sends = true := by
        simp only [Link.sends, hup, Bool.true_and, Bool.and_eq_true, bne_iff_ne, decide_eq_true_eq]
        exact ⟨h0, by omega⟩
      rw [State.linkSend_succ hx hs (by simp [State.stalled, hr])]
      have hno : x.no = l := hx ▸ s.link_no
      obtain ⟨hh, hsent⟩ := ih (s.link_putLink (x := x.passed (s.getB x.headAt 256)) hno) hup hr
        (by simp only [Link.passed]; omega) (by simp only [Link.passed]; omega)
      refine ⟨hh, hsent.trans ?_⟩
      simp only [Link.passed, List.length_append, List.length_singleton]
      omega

section
variable {s : State} {l : Nat} (hl : l < 24)
include hl

theorem exec_slctlWrite (v : Word) : exec (.slctlWrite l v) s = .next (s.writeSlctl l v) := by
  show execSlctlWrite l v s = _
  rw [execSlctlWrite, if_neg (by omega)]

theorem exec_txtailWrite (v : BitVec 16) : exec (.txtailWrite l v) s = .next (s.writeTxtail l v) := by
  show execTxtailWrite l v s = _
  rw [execTxtailWrite, if_neg (by omega)]

variable {x : Link} (hx : s.link l = x)
include hx

/-- Training set: the link trains, with the ring size asked for unless it trained already. -/
theorem slctlWrite_train {v : Word} (hv : v.getLsbD 0 = true) : ∃ t, exec (.slctlWrite l v) s = .next t ∧ OnLink s t l ∧ t.cores = s.cores ∧
    t.link l = { x with train := true, k := if x.train then x.k else fieldOf v 32 4 } := by
  subst hx
  exact ⟨_, (exec_slctlWrite hl v).trans (congrArg _ (if_pos hv)), .putLink s.link_no, rfl, s.link_putLink s.link_no⟩

/-- Training cleared: the link is down, which is a notice where it was up. -/
theorem slctlWrite_down {v : Word} (hv : v.getLsbD 0 = false) : ∃ t, exec (.slctlWrite l v) s = .next t ∧ OnLink s t l ∧
    (t.cores = if x.up then (s.notice 10 40).cores else s.cores) ∧
    ∃ k, t.link l = { x with train := false, k := k, up := false, lanes := 0, rate := 0 } := by
  have hno : x.no = l := hx ▸ s.link_no
  generalize hy : ({ x with train := false, k := if x.train then x.k else fieldOf v 32 4, up := false, lanes := 0, rate := 0 } : Link) = y
  have hyn : y.no = l := hy ▸ hno
  have e : exec (.slctlWrite l v) s = .next (if x.up then (s.putLink y).notice 10 40 else s.putLink y) := by
    rw [exec_slctlWrite hl, State.writeSlctl, if_neg (ne_true_of_eq_false hv), hx, ← hy]
  cases hup : x.up with
  | true =>
    rw [hup] at e
    exact ⟨_, e, (OnLink.putLink hyn).trans .notice, State.notice_cores_congr rfl rfl, _,
      (State.notice_link l).trans ((s.link_putLink hyn).trans hy.symm)⟩
  | false =>
    rw [hup] at e
    exact ⟨_, e, .putLink hyn, rfl, _, (s.link_putLink hyn).trans hy.symm⟩

/-- Training done: the link is up at the rate reached and sends what it may. -/
theorem linkStateChange_up {lanes rate peer : Nat} (ht : x.train = true) (hup : x.up = false) (hr : rate ≤ 212) (hn : lanes = 4 ∨ lanes = 8)
    (hp : peer < 65536) : ∃ t, exec (.linkStateChange l true lanes rate peer) s = .next t ∧ OnLink s t l ∧ t.cores = (s.notice 10 40).cores ∧
    ∃ es h, t.link l = { x with up := true, lanes := lanes, rate := rate, peer := peer, sent := es, txhead := h } ∧
      (x.txhead = x.txtail → es = x.sent) := by
  have hno : x.no = l := hx ▸ s.link_no
  generalize hy : ({ x with up := true, lanes := lanes, rate := rate, peer := peer } : Link) = y
  have hyn : y.no = l := hy ▸ hno
  have e : exec (.linkStateChange l true lanes rate peer) s = .next (((s.putLink y).sendLink l).notice 10 40) := by
    show execLinkStateChange l true lanes rate peer s = _
    simp only [execLinkStateChange, hx]
    rw [if_neg (by simp [ht]; omega), hup, ← hy]
    rfl
  obtain ⟨hon, hc, es, h, hl'⟩ := State.linkSend_keeps 4096 (s.link_putLink hyn)
  refine ⟨_, e, ((OnLink.putLink hyn).trans hon).trans .notice, State.notice_cores_congr hon.head hc, es, h, ?_, fun hemp => ?_⟩
  · rw [State.notice_link]; subst hy; exact hl'
  · have hst : (s.putLink y).linkSend l 4096 = s.putLink y := State.linkSend_of_not_sends (by
      rw [s.link_putLink hyn, ← hy]; simp [Link.sends, hemp]) _
    rw [hst, s.link_putLink hyn, ← hy] at hl'
    exact (congrArg Link.sent hl').symm

omit hl in
/-- A link that does not train, or a rate beyond the fused one, changes nothing. -/
theorem linkStateChange_ignored {lanes rate peer : Nat} (h : x.train = false ∨ 212 < rate) :
    exec (.linkStateChange l true lanes rate peer) s = .next s := by
  show execLinkStateChange l true lanes rate peer s = _
  rw [execLinkStateChange, hx]
  refine if_pos ?_
  obtain h | h := h <;> simp [h]

/-- A link that goes down keeps its rings and sends nothing. -/
theorem linkStateChange_down {lanes rate peer : Nat} (hup : x.up = true) :
    ∃ t, exec (.linkStateChange l false lanes rate peer) s = .next t ∧ OnLink s t l ∧ t.cores = (s.notice 10 40).cores ∧
      t.link l = { x with up := false, lanes := 0, rate := 0 } := by
  have hno : x.no = l := hx ▸ s.link_no
  generalize hy : ({ x with up := false, lanes := 0, rate := 0 } : Link) = y
  have hyn : y.no = l := hy ▸ hno
  have hst : (s.putLink y).sendLink l = s.putLink y := State.linkSend_of_not_sends (by
    rw [s.link_putLink hyn, ← hy]; simp [Link.sends]) _
  have e : exec (.linkStateChange l false lanes rate peer) s = .next ((s.putLink y).notice 10 40) := by
    rw [← hst]
    show execLinkStateChange l false lanes rate peer s = _
    simp only [execLinkStateChange, hx]
    rw [if_neg (by simp; omega), hup, ← hy]
    rfl
  exact ⟨_, e, (OnLink.putLink hyn).trans .notice, State.notice_cores_congr rfl rfl, (State.notice_link l).trans (s.link_putLink hyn)⟩

/-- A tail too far beyond the head is ignored. -/
theorem txtailWrite_ignored {v : BitVec 16} (h : 2 ^ x.k < (v - x.txhead).toNat) : exec (.txtailWrite l v) s = .next s := by
  rw [exec_txtailWrite hl, State.writeTxtail, hx, if_pos h]

/-- A tail that the ring holds: the entries up to it are sent where the peer has taken all that came before. -/
theorem txtailWrite_sends {v : BitVec 16} (h : (v - x.txhead).toNat ≤ 2 ^ x.k) (h4 : (v - x.txhead).toNat ≤ 4096) (hup : x.up = true)
    (hp : x.prxhead = x.txhead) (hr : ∀ d, s.refreshing d = false) : ∃ t, exec (.txtailWrite l v) s = .next t ∧ OnLink s t l ∧
    (t.link l).txtail = v ∧ (t.link l).txhead = v ∧ (t.link l).sent.length = x.sent.length + (v - x.txhead).toNat := by
  have hno : x.no = l := hx ▸ s.link_no
  have hput := s.link_putLink (x := { x with txtail := v }) hno
  have e : exec (.txtailWrite l v) s = .next ((s.putLink { x with txtail := v }).sendLink l) := by
    rw [exec_txtailWrite hl, State.writeTxtail, hx, if_neg (by omega)]
  obtain ⟨hon, -, es, h', hl'⟩ := State.linkSend_keeps 4096 hput
  obtain ⟨hh, hs⟩ := State.linkSend_all 4096 hput hup hr h4 (by simp only [hp]; simpa using h)
  exact ⟨_, e, (OnLink.putLink (x := { x with txtail := v }) hno).trans hon, by rw [State.sendLink, hl'], hh, hs⟩

/-- A control flit with nothing left to send moves the peer's head. -/
theorem linkControlFlit_moves (v : BitVec 16) (hup : x.up = true) (he : x.txhead = x.txtail) :
    exec (.linkControlFlit l v) s = .next (s.putLink { x with prxhead := v }) := by
  have hno : x.no = l := hx ▸ s.link_no
  have hput := s.link_putLink (x := { x with prxhead := v }) hno
  show execLinkControlFlit l v s = _
  simp only [execLinkControlFlit, hx]
  rw [if_neg (by simp [hup]; omega), State.sendLink, State.linkSend_of_not_sends (by rw [hput]; simp [Link.sends, he])]

end

/-- The bytes of an entry as the ring holds them: those of reserved bits are zero. -/
theorem ringEntry_getD {e : List Byte} (h : e.length = 256) (i : Nat) :
    (ringEntry e).getD i 0 = if 3 ≤ i ∧ i < 16 then 0 else e.getD i 0 := by
  have h3 : (e.take 3).length = 3 := by simp; omega
  have hz : (zeros 13).length = 13 := rfl
  unfold ringEntry
  rw [List.append_assoc]
  by_cases h1 : i < 3
  · rw [if_neg (by omega), List.getD_append _ _ _ _ (by omega)]
    simp [List.getD_eq_getElem?_getD, h1]
  · rw [List.getD_append_right _ _ _ _ (by omega), h3]
    by_cases h2 : i < 16
    · rw [if_pos (by omega), List.getD_append _ _ _ _ (by omega)]
      simp only [zeros, List.getD_eq_getElem?_getD, List.getElem?_replicate]
      split <;> rfl
    · rw [if_neg (by omega), List.getD_append_right _ _ _ _ (by omega), hz]
      simp only [List.getD_eq_getElem?_getD, List.getElem?_drop]
      congr 2; omega

theorem length_ringEntry {e : List Byte} (h : e.length = 256) : (ringEntry e).length = 256 := by simp [ringEntry, zeros, h]

/-- An entry received lies at the ring's tail, and is a notice. -/
theorem linkEntryReceive_lands {s : State} {l : Nat} {x : Link} {e : List Byte} (hl : l < 24) (hx : s.link l = x) (hup : x.up = true)
    (hroom : (x.rxtail - x.rxhead).toNat < 2 ^ x.k) (he : e.length = 256) {a : Nat}
    (ha : a = 4096 * fieldOf x.rxb 12 40 + 256 * (x.rxtail.toNat % 2 ^ x.k)) (hs : ∀ i, i < 256 → Sound s (a + i)) :
    ∃ t, exec (.linkEntryReceive l e) s = .next t ∧ t.link l = { x with rxtail := x.rxtail + 1 } ∧ t.cores = (s.notice 10 40).cores ∧
      ∀ i, t.mem.phys.byte i = if a ≤ i ∧ i < a + 256 then (ringEntry e).getD (i - a) 0 else s.mem.phys.byte i := by
  have hno : x.no = l := hx ▸ s.link_no
  have hlen := length_ringEntry he
  have hland := landed_putB (bs := ringEntry e) (hlen ▸ hs)
  have hex : exec (.linkEntryReceive l e) s = .next (((s.putB a (ringEntry e)).putLink { x with rxtail := x.rxtail + 1 }).notice 10 40) := by
    show execLinkEntryReceive l e s = _
    simp only [execLinkEntryReceive, hx, hup, he]
    rw [if_neg (by simp [-BitVec.toNat_sub]; omega), ha, Nat.mul_comm 4096]
  refine ⟨_, hex, (State.notice_link l).trans (State.link_putLink hno), State.notice_cores_congr ?_ ?_, fun i => ?_⟩
  · show (s.putB a (ringEntry e)).head = s.head
    rw [hland.same]
  · show (s.putB a (ringEntry e)).cores = s.cores
    rw [hland.same]
  · rw [State.notice_mem, ← hlen]
    exact hland.byte i

/-! ## Queue pairs (R396, R397) -/

/-- Pair `q` is `y` now, no other has changed, and notice 8 is raised. -/
def PairIs (s t : State) (q : Nat) (y : QueuePair) : Prop :=
  t.mem = s.mem ∧ t.qp q = y ∧ (∀ r, r ≠ q → t.qp r = s.qp r) ∧ t.cores = (s.notice 8 24).cores

theorem pairIs_putQp {s : State} {q : Nat} {y : QueuePair} (hy : y.no = q) : PairIs s ((s.putQp y).notice 8 24) q y :=
  ⟨State.notice_mem, (State.notice_qp q).trans (s.qp_putQp hy), fun _ hr => (State.notice_qp _).trans (s.qp_putQp_ne (hy ▸ hr)),
    State.notice_cores_congr rfl rfl⟩

/-- A field whose bits a mask keeps. -/
theorem fieldOf_and {v m : Word} {i n : Nat} (hm : m.extractLsb' i n = BitVec.allOnes n) : fieldOf (v &&& m) i n = fieldOf v i n := by
  rw [← fieldOf_extract, BitVec.extractLsb'_and, hm, BitVec.and_allOnes, fieldOf_extract]

namespace QueuePair
variable (x : QueuePair) (v : Word)

/-- The pair with the bits that a write of QCFG sets. -/
def masked : QueuePair := { x with qcfg := v &&& cfgMask }

theorem ks_masked : (x.masked v).ks = fieldOf v 0 5 := fieldOf_and (by decide)
theorem kc_masked : (x.masked v).kc = fieldOf v 8 5 := fieldOf_and (by decide)
theorem en_masked : (x.masked v).en = v.getLsbD 16 := by
  simp only [en, masked, BitVec.getLsbD_and, show cfgMask.getLsbD 16 = true by decide, Bool.and_true]

theorem tidy_eq : x.tidy = { x with rdy := x.rdy && (x.en || !x.done.isEmpty) } := by
  unfold tidy
  cases x.en <;> cases x.done.isEmpty <;> simp

theorem inRange_masked : (x.masked v).inRange = true ↔ 4 ≤ fieldOf v 0 5 ∧ fieldOf v 0 5 ≤ 16 ∧ 4 ≤ fieldOf v 8 5 ∧ fieldOf v 8 5 ≤ 16 ∧
    x.sqb.toNat % 4096 = 0 ∧ x.cqb.toNat % 4096 = 0 := by
  simp only [inRange, ks_masked, kc_masked, Bool.and_eq_true, decide_eq_true_eq, beq_iff_eq, and_assoc]
  rfl

/-- The pair once its oldest completion, of these parts, lies in the host's ring. -/
def completed (cid st : Nat) (rest : List (Nat × Nat × Word)) : QueuePair :=
  { x with done := rest, ctail := x.ctail + 1, msix := x.msix ++ [fieldOf x.qcfg 24 11],
           ring := x.ring ++ [(x.ctail.toNat, BitVec.ofNat 64 (cid * 2 ^ 16 + (if x.phase then 2 ^ 32 else 0) + st * 2 ^ 40), v)],
           phase := if (x.ctail + 1).toNat % 2 ^ x.kc = 0 then !x.phase else x.phase, rdy := x.rdy && (x.en || !rest.isEmpty) }

/-- The pair once the submission at its head has been taken, with its completion and what it moved. -/
def took (c : Nat × Nat × Word) (out : List (Word × List Byte)) : QueuePair :=
  { x with shead := x.shead + 1, done := x.done ++ [c], moved := x.moved ++ out }

end QueuePair

section
variable {s : State} {q : Nat} {x : QueuePair} (hx : s.qp q = x)
include hx

theorem sqt_ignored {v : BitVec 16} (h : 2 ^ x.ks < (v - x.shead).toNat) : exec (.sqt q v) s = .next s := by
  show execSqt q v s = _
  rw [execSqt, hx]
  exact if_pos (by simp only [h, decide_true, Bool.or_true])

/-- A pair without a completion, or without room in its ring for one, writes none. -/
theorem hostCompletion_waits {c : Nat × Nat × Word} {rest : List (Nat × Nat × Word)} (hd : x.done = c :: rest)
    (h : ¬ (x.ctail - x.cqh).toNat < 2 ^ x.kc) : exec (.hostCompletion q) s = .next s := by
  show Host.Outcome.next ((s.complete q).getD s) = _
  simp only [State.complete, hx, hd]
  rw [if_pos (by omega)]
  rfl

theorem complete_eq {cid st : Nat} {v : Word} {rest : List (Nat × Nat × Word)} (hd : x.done = (cid, st, v) :: rest)
    (h : (x.ctail - x.cqh).toNat < 2 ^ x.kc) : s.complete q = some (s.putQp (x.completed v cid st rest)) := by
  have hw : boolNat x.phase * 2 ^ 32 = if x.phase then 2 ^ 32 else 0 := by cases x.phase <;> rfl
  simp only [State.complete, hx, hd]
  rw [if_neg (by omega), hw, QueuePair.tidy_eq]
  rfl

/-- The completion that waited longest is written at the tail of its ring. -/
theorem hostCompletion_writes {cid st : Nat} {v : Word} {rest : List (Nat × Nat × Word)} (hd : x.done = (cid, st, v) :: rest)
    (h : (x.ctail - x.cqh).toNat < 2 ^ x.kc) : ∃ t, exec (.hostCompletion q) s = .next t ∧ t.mem = s.mem ∧
    t.qp q = x.completed v cid st rest := by
  refine ⟨s.putQp (x.completed v cid st rest), ?_, rfl, State.qp_putQp (hx ▸ s.qp_no)⟩
  show Host.Outcome.next ((s.complete q).getD s) = _
  rw [complete_eq hx hd h]
  rfl

variable (hq : q < 16)
include hq

theorem sqt_moves {v : BitVec 16} (h : (v - x.shead).toNat ≤ 2 ^ x.ks) :
    ∃ t, exec (.sqt q v) s = .next t ∧ PairIs s t q { x with sqt := v } := by
  refine ⟨_, ?_, pairIs_putQp (y := { x with sqt := v }) (hx ▸ s.qp_no)⟩
  show execSqt q v s = _
  rw [execSqt, hx]
  exact if_neg (by simp [-BitVec.toNat_sub]; omega)

theorem cqh_moves (v : BitVec 16) : ∃ t, exec (.cqh q v) s = .next t ∧ PairIs s t q { x with cqh := v } := by
  refine ⟨_, ?_, pairIs_putQp (y := { x with cqh := v }) (hx ▸ s.qp_no)⟩
  show execCqh q v s = _
  rw [execCqh, if_neg (by omega), hx]

/-- QCFG written: the pair starts as en is set, and settles whether it is ready otherwise. -/
theorem qcfg_writes (v : Word) : ∃ t, exec (.qcfg q v) s = .next t ∧
    PairIs s t q (if v.getLsbD 16 && !x.en then (x.masked v).start else (x.masked v).tidy) := by
  refine ⟨_, ?_, pairIs_putQp ?_⟩
  · show execQcfg q v s = _
    rw [execQcfg, if_neg (by omega), hx, ← x.en_masked v]
    rfl
  · rw [QueuePair.tidy_eq, QueuePair.start]
    split <;> [split; skip] <;> exact hx ▸ s.qp_no

theorem qcfg_starts {v : Word} (hv : v.getLsbD 16 = true) (hen : x.en = false) : ∃ t, exec (.qcfg q v) s = .next t ∧
    PairIs s t q (x.masked v).start := by
  simpa [hv, hen] using qcfg_writes hx hq v

theorem qcfg_settles {v : Word} (hv : v.getLsbD 16 = false) : ∃ t, exec (.qcfg q v) s = .next t ∧
    PairIs s t q { x.masked v with rdy := x.rdy && !x.done.isEmpty } := by
  have h := qcfg_writes hx hq v
  rw [hv, QueuePair.tidy_eq, QueuePair.en_masked, hv] at h
  exact h

end

/-! ## Submissions (R396) -/

section
variable {s : State} {e : List Word} {host : List Byte}

theorem submit_unknown (h : fieldOf (e.getD 0 0) 0 8 ∉ [1, 2, 3]) : s.submit e host = some ((1, 0), s) := by
  simp only [List.mem_cons, List.not_mem_nil, or_false, not_or] at h
  obtain ⟨h1, h2, h3⟩ := h
  unfold State.submit
  dsimp only
  split
  · exact absurd ‹_› h1
  · exact absurd ‹_› h2
  · exact absurd ‹_› h3
  · rfl

theorem submit_launch_refused (h : fieldOf (e.getD 0 0) 0 8 = 1) (ha : 2 ^ 55 ≤ (e.getD 1 0).toNat ∨ (e.getD 1 0).toNat % 128 ≠ 0) :
    s.submit e host = some ((0, 3), s) := by
  simp only [State.submit, h]
  exact if_pos (by simpa [-List.getD_eq_getElem?_getD] using ha)

theorem submit_launch {ws : List Word} {t₁ t₂ : State} {v : Word} (h : fieldOf (e.getD 0 0) 0 8 = 1) (ha : (e.getD 1 0).toNat < 2 ^ 55)
    (hm : (e.getD 1 0).toNat % 128 = 0) (hw : s.readWords 54 0 .s (e.getD 1 0).toNat 16 = (.ok ws, t₁))
    (hl : t₁.serveLaunch ws = some (v, t₂)) :
    s.submit e host = some ((0, v), t₂) := by
  simp only [State.submit, h, hw, hl]
  rw [if_neg (by simp only [hm, bne_self_eq_false, Bool.or_false, decide_eq_true_eq]; omega)]
  rfl

theorem submit_write (h : fieldOf (e.getD 0 0) 0 8 = 2) (hn : host.length = (e.getD 3 0).toNat) :
    s.submit e host = if s.stalled (e.getD 2 0).toNat host.length then none else
      some ((0, BitVec.ofNat 64 (moved s (e.getD 2 0).toNat host.length)),
        s.putB (e.getD 2 0).toNat (host.take (moved s (e.getD 2 0).toNat host.length))) := by
  simp only [State.submit, h, ← hn, List.take_length]

theorem submit_read (h : fieldOf (e.getD 0 0) 0 8 = 3) : s.submit e host = if s.stalled (e.getD 2 0).toNat (e.getD 3 0).toNat then none else
    some ((0, BitVec.ofNat 64 (moved s (e.getD 2 0).toNat (e.getD 3 0).toNat)), s) := by
  simp only [State.submit, h]

end

section
variable {s : State} {q : Nat} {x : QueuePair} (hx : s.qp q = x) (hq : q < 16)
variable (hr : x.rdy = true) (hen : x.en = true) (hne : x.shead ≠ x.sqt) {e : List Word} {host : List Byte}
include hx hq hr hen hne

/-- The submission at the head of a pair in service is performed where nothing holds it up. -/
theorem exec_hostSubmission : exec (.hostSubmission q e host) s = (match s.submit e host with
    | none => .next s
    | some (r, t) => .next (t.putQp ((t.qp q).took (fieldOf (e.getD 0 0) 16 16, r.1, r.2)
        (if fieldOf (e.getD 0 0) 0 8 = 3 && r.2 != 0 then [(e.getD 1 0, t.getB (e.getD 2 0).toNat r.2.toNat)] else [])))) := by
  show execHostSubmission q e host s = _
  simp only [execHostSubmission, hx]
  rw [if_neg (by simp [hr, hen, hne]; omega)]
  rfl

theorem hostSubmission_waits (h : s.submit e host = none) : exec (.hostSubmission q e host) s = .next s := by
  rw [exec_hostSubmission hx hq hr hen hne, h]

/-- A submission that gives the module's state but moves nothing out of it. -/
theorem hostSubmission_takes {st : Nat} {v : Word} {t : State} (h : s.submit e host = some ((st, v), t))
    (ho : fieldOf (e.getD 0 0) 0 8 = 3 → v = 0) : exec (.hostSubmission q e host) s =
      .next (t.putQp ((t.qp q).took (fieldOf (e.getD 0 0) 16 16, st, v) [])) := by
  rw [exec_hostSubmission hx hq hr hen hne, h]
  dsimp only
  rw [if_neg]
  simpa using ho

/-- A read that moves bytes out of the module. -/
theorem hostSubmission_moves {v : Word} (h : s.submit e host = some ((0, v), s)) (ho : fieldOf (e.getD 0 0) 0 8 = 3) (hv : v ≠ 0) :
    exec (.hostSubmission q e host) s = .next (s.putQp (x.took (fieldOf (e.getD 0 0) 16 16, 0, v)
      [(e.getD 1 0, s.getB (e.getD 2 0).toNat v.toNat)])) := by
  rw [exec_hostSubmission hx hq hr hen hne, h]
  dsimp only
  rw [if_pos (by simpa only [ho, decide_true, Bool.true_and] using bne_iff_ne.mpr hv), hx]

/-- A submission that leaves the pair to its completion: the completion waits, and the head has moved. -/
theorem hostSubmission_completes {st : Nat} {v : Word} {t : State} (h : s.submit e host = some ((st, v), t)) (hqp : t.qp q = x)
    (ho : fieldOf (e.getD 0 0) 0 8 = 3 → v = 0) : ∃ u, exec (.hostSubmission q e host) s = .next u ∧
    u.qp q = { x with shead := x.shead + 1, done := x.done ++ [(fieldOf (e.getD 0 0) 16 16, st, v)] } ∧ u.mem = t.mem := by
  have hno : x.no = q := hx ▸ s.qp_no
  refine ⟨_, hostSubmission_takes hx hq hr hen hne h ho, ?_, rfl⟩
  rw [hqp]
  refine (State.qp_putQp (x := x.took _ []) hno).trans ?_
  simp only [QueuePair.took, List.append_nil]

/-- A write whose bytes all lie in sound memory moves them all. -/
theorem hostSubmission_write {a : Nat} (ho : fieldOf (e.getD 0 0) 0 8 = 2) (hn : host.length = (e.getD 3 0).toNat)
    (ha : (e.getD 2 0).toNat = a) (hs : ∀ i, i < host.length → Sound s (a + i)) : ∃ u, exec (.hostSubmission q e host) s = .next u ∧
    u.qp q = { x with shead := x.shead + 1, done := x.done ++ [(fieldOf (e.getD 0 0) 16 16, 0, BitVec.ofNat 64 host.length)] } ∧
    (∀ i, i < host.length → u.mem.phys.byte (a + i) = host.getD i 0) ∧
    ∀ i, i < a ∨ a + host.length ≤ i → u.mem.phys.byte i = s.mem.phys.byte i := by
  have hsub := submit_write (s := s) ho hn
  rw [ha, not_stalled_of_sound hs, moved_of_sound hs, List.take_length] at hsub
  have hland := landed_putB hs
  obtain ⟨u, hu, hqp, hmem⟩ := hostSubmission_completes hx hq hr hen hne hsub (by rw [hland.same]; exact hx) fun h => by rw [ho] at h; cases h
  exact ⟨u, hu, hqp, hmem ▸ hland.bytes⟩

/-- A move that meets a stack in self-refresh waits. -/
theorem hostSubmission_stalled (ho : fieldOf (e.getD 0 0) 0 8 = 3 ∨ fieldOf (e.getD 0 0) 0 8 = 2 ∧ host.length = (e.getD 3 0).toNat)
    (hst : s.stalled (e.getD 2 0).toNat (e.getD 3 0).toNat = true) : exec (.hostSubmission q e host) s = .next s := by
  refine hostSubmission_waits hx hq hr hen hne ?_
  obtain ho | ⟨ho, hn⟩ := ho
  · rw [submit_read ho, if_pos hst]
  · rw [submit_write ho hn, hn, if_pos hst]

/-- A read of which no byte lies in memory completes with none. -/
theorem hostSubmission_read_none (ho : fieldOf (e.getD 0 0) 0 8 = 3) (hst : s.stalled (e.getD 2 0).toNat (e.getD 3 0).toNat = false)
    (hm : moved s (e.getD 2 0).toNat (e.getD 3 0).toNat = 0) : ∃ u, exec (.hostSubmission q e host) s = .next u ∧
    u.qp q = { x with shead := x.shead + 1, done := x.done ++ [(fieldOf (e.getD 0 0) 16 16, 0, 0)] } ∧ u.mem = s.mem := by
  have hsub := submit_read (s := s) (host := host) ho
  rw [hst, hm] at hsub
  exact hostSubmission_completes hx hq hr hen hne hsub hx fun _ => rfl

/-- A read whose bytes all lie in memory moves them to the host. -/
theorem hostSubmission_read_all (ho : fieldOf (e.getD 0 0) 0 8 = 3) (hm : moved s (e.getD 2 0).toNat (e.getD 3 0).toNat = (e.getD 3 0).toNat)
    (hn : e.getD 3 0 ≠ 0) : exec (.hostSubmission q e host) s = .next (s.putQp (x.took (fieldOf (e.getD 0 0) 16 16, 0, e.getD 3 0)
      [(e.getD 1 0, s.getB (e.getD 2 0).toNat (e.getD 3 0).toNat)])) := by
  have hn' : (e.getD 3 0).toNat ≠ 0 := fun h => hn (BitVec.eq_of_toNat_eq h)
  have hsub := submit_read (s := s) (host := host) ho
  rw [not_stalled_of_moved hm hn', hm, BitVec.ofNat_toNat, BitVec.setWidth_eq] at hsub
  exact hostSubmission_moves hx hq hr hen hne hsub ho hn

end

/-! ## Device registers (R10) -/

/-- What the addresses of a die's network block name (R387). -/
theorem regAt_net {d i : Nat} (hd : d < 54) (hi : i < 4) : regAt (deviceBase + (0x300000 + 0x1000 * d + 8 * i)) = .net d i := by
  have h1 : (0x1000 * d + 8 * i) / 0x1000 = d := by omega
  have h2 : (0x1000 * d + 8 * i) % 0x1000 = 8 * i := by omega
  have h3 : deviceBase + (0x300000 + 0x1000 * d + 8 * i) - deviceBase = 0x300000 + (0x1000 * d + 8 * i) := by omega
  unfold regAt
  dsimp only
  rw [if_neg (by simp only [barBase, deviceBase]; omega), if_neg (by omega), h3]
  iterate 6 rw [if_neg (by omega)]
  rw [if_neg (by simp only [Bool.and_eq_true, decide_eq_true_eq]; omega), if_neg (by omega), if_neg (by omega), if_neg (by omega),
    if_pos (by omega), Nat.add_sub_cancel_left, h1, blockOf, if_pos hd, h2, if_pos (by omega), Nat.mul_div_cancel_left _ (by decide)]

/-- What the addresses of a die's power block name (R403). -/
theorem regAt_power {d o : Nat} (hd : d < 54) (ho : o < 0x100000) : regAt (deviceBase + (0x1000000 + 0x100000 * d + o)) = powerReg d o := by
  have h1 : (0x100000 * d + o) / 0x100000 = d := by omega
  have h2 : (0x100000 * d + o) % 0x100000 = o := by omega
  have h3 : deviceBase + (0x1000000 + 0x100000 * d + o) - deviceBase = 0x1000000 + (0x100000 * d + o) := by omega
  unfold regAt
  dsimp only
  rw [if_neg (by simp only [barBase, deviceBase]; omega), if_neg (by omega), h3]
  iterate 6 rw [if_neg (by omega)]
  rw [if_neg (by simp only [Bool.and_eq_true, decide_eq_true_eq]; omega)]
  iterate 6 rw [if_neg (by omega)]
  rw [Nat.add_sub_cancel_left, h1, blockOf, if_pos hd, h2]

theorem powerReg_rail {d r : Nat} (hr : r < 769) : powerReg d (0x20 * r + 0x10) = .rail d r 2 := by
  unfold powerReg
  rw [if_pos (by omega)]
  congr 1 <;> omega

theorem powerReg_dcoef (d : Nat) : powerReg d 0x20008 = .dcoef d := by simp [powerReg]

theorem exec_registerWrite {s : State} {a : Nat} {v : Word} (ha : a % 8 = 0) : exec (.registerWrite a v) s = .next (s.regWrite a v) := by
  show execRegisterWrite a v s = _
  rw [execRegisterWrite, if_pos ha]

/-- A write of `v` to the register at `a` leaves there the bits of `mask`, and no cell and no byte of memory changes. -/
def Stores (s : State) (a : Nat) (v mask : Word) : Prop :=
  ∃ t, exec (.registerWrite a v) s = .next t ∧ t.peek a = v &&& mask ∧ t.cell = s.cell ∧ t.others = s.others ∧ t.mem.phys = s.mem.phys

theorem devReg_setDevReg (s : State) (a : Nat) (x : Word) : (s.setDevReg a x).devReg a = x := by
  simp [State.devReg, State.setDevReg, assocGet_assocSet]

section
variable {s : State} {a : Nat} {v mask : Word}

/-- A register that is held as stored. -/
theorem stores_devReg (ha : a % 8 = 0) (hw : s.regWrite a v = s.setDevReg a (v &&& mask)) (hp : ∀ t : State, t.peek a = t.devReg a) :
    Stores s a v mask :=
  ⟨_, (exec_registerWrite ha).trans (congrArg _ hw), (hp _).trans (devReg_setDevReg ..), rfl, rfl, rfl⟩

/-- NWGT, NAGE and NCNT (R387). -/
theorem stores_net {d i : Nat} (hd : d < 54) (hi : i < 4) :
    Stores s (deviceBase + (0x300000 + 0x1000 * d + 8 * i)) v (storedMask (.net d i)) := by
  have hreg := regAt_net hd hi
  refine stores_devReg (by simp only [deviceBase]; omega) ?_ fun t => ?_
  · simp only [State.regWrite, hreg]
  · simp only [State.peek, hreg]

/-- DCOEF (R403). -/
theorem stores_dcoef {d : Nat} (hd : d < 54) : Stores s (deviceBase + (0x1000000 + 0x100000 * d + 0x20008)) v (BitVec.allOnes 64) := by
  have hreg := (regAt_power hd (show 0x20008 < 0x100000 by decide)).trans (powerReg_dcoef d)
  refine ⟨_, exec_registerWrite (by simp only [deviceBase]; omega), ?_, ?_⟩
  · simp only [State.peek, State.regWrite, hreg, State.dcoef, State.setDevReg]
    rw [show deviceBase + 0x1000000 + d * 0x100000 + 0x20008 = deviceBase + (0x1000000 + 0x100000 * d + 0x20008) by omega,
      assocGet_assocSet, BitVec.and_allOnes]
    rfl
  · simp only [State.regWrite, hreg]
    exact ⟨rfl, rfl, rfl⟩

/-- RTHR of a rail (R403). -/
theorem stores_rthr {d r : Nat} (hd : d < 54) (hr : r < 769) : Stores s (deviceBase + (0x1000000 + 0x100000 * d + 0x20 * r + 0x10)) v 0xFFFFFFFF := by
  have hreg := (regAt_power (o := 0x20 * r + 0x10) hd (by omega)).trans (powerReg_rail (d := d) hr)
  rw [← Nat.add_assoc (0x1000000 + 0x100000 * d)] at hreg
  have hkey : (s.railAt d r).die = d ∧ (s.railAt d r).rail = r := State.railAt_key
  refine ⟨_, exec_registerWrite (by simp only [deviceBase]; omega), ?_, ?_⟩
  · simp only [State.peek, State.regWrite, hreg, State.railWord]
    exact congrArg Rail.rthr (State.railAt_putRail (x := { s.railAt d r with rthr := v &&& 0xFFFFFFFF }) hkey.1 hkey.2)
  · simp only [State.regWrite, hreg]
    exact ⟨rfl, rfl, rfl⟩

/-- SLID (R395). -/
theorem stores_slid : Stores s (deviceBase + 0x400F00) v 0xFFFF := by
  refine ⟨_, exec_registerWrite (by decide), ?_, rfl, rfl, rfl⟩
  show BitVec.ofNat 64 (BitVec.ofNat 16 (fieldOf v 0 16)).toNat = v &&& 0xFFFF
  apply BitVec.eq_of_toNat_eq
  simp only [fieldOf, BitVec.toNat_ofNat, BitVec.toNat_and]
  rw [show (0xFFFF : Word).toNat = 2 ^ 16 - 1 from rfl, Nat.and_two_pow_sub_one_eq_mod]
  omega

end

/-! ## The stop queue, boot and measurement (R391 to R393) -/

section
variable {s : State}

theorem hsqRead_nil (h : s.head.hsq = []) : s.hsqRead = (BitVec.allOnes 64, s) := by simp only [State.hsqRead, h]

/-- The oldest stop is read and gone, and one that waited at its cell takes the room. -/
theorem hsqRead_cons {p : Nat × Nat} {ps : List (Nat × Nat)} (h : s.head.hsq = p :: ps) :
    s.hsqRead.1 = BitVec.ofNat 64 (p.1 + 2 ^ 24 * p.2) ∧ s.hsqRead.2.mem = s.mem ∧
    s.hsqRead.2.head = { s.head with hsq := ps ++ s.head.hsqWait.take 1, hsqWait := s.head.hsqWait.drop 1 } := by
  cases hw : s.head.hsqWait with
  | nil =>
    have e : s.hsqRead = (BitVec.ofNat 64 (p.1 + 2 ^ 24 * p.2), { s with head := { s.head with hsq := ps } }) := by
      simp only [State.hsqRead, h, hw]
    rw [e]
    exact ⟨rfl, rfl, by simp only [hw, List.take_nil, List.append_nil, List.drop_nil]⟩
  | cons q qs =>
    have e : s.hsqRead = (BitVec.ofNat 64 (p.1 + 2 ^ 24 * p.2), { s with head := { s.head with hsq := ps ++ [q], hsqWait := qs } }.notice 6 8) := by
      simp only [State.hsqRead, h, hw]
    rw [e]
    exact ⟨rfl, State.notice_mem, State.notice_head⟩

theorem accepted_iff (f : Firmware) (k : BitVec 256) :
    f.accepted k = true ↔ Config.sm3 f.key = k ∧ Config.sm2Verify f.key (Config.sm3 f.image) f.sig = true := by
  simp [Firmware.accepted, Firmware.digest]

theorem boot_booted (h : s.tail.booted = true) : exec .boot s = .next s := by
  show execBoot s = _
  rw [execBoot, if_pos h]

theorem boot_refused (h : s.tail.booted = false) (hf : ∀ f, s.tail.slotA = some f ∨ s.tail.slotB = some f → f.accepted s.tail.keyh = false) :
    exec .boot s = .next { s with tail := { s.tail with bootFail := true } } := by
  have hn : (s.tail.slotA.toList ++ s.tail.slotB.toList).find? (fun f => f.accepted s.tail.keyh) = none := by
    rw [List.find?_eq_none]
    intro f hm
    simpa using hf f (by simpa using hm)
  show execBoot s = _
  simp only [execBoot, h, hn]
  rfl

/-- An accepted image in slot A is measured, and core 0 leaves reset at its entry. -/
theorem boot_slotA {f : Firmware} (h : s.tail.booted = false) (ha : s.tail.slotA = some f) (hf : f.accepted s.tail.keyh = true) :
    exec .boot s = .next { s.fresh.2 with
      tail := { s.tail with booted := true, bootFail := false, measure := Config.sm3 (zeros 32 ++ digestBytes f.digest),
                            log := [⟨s.fresh.1.setWidth 32, s.fresh.1.extractLsb' 32 32, BitVec.ofNat 64 f.image.length, f.digest⟩] },
      cores := assocSet 0 (Hart.core f.entry) s.cores, coreAt := assocSet 0 s.tbase s.coreAt } := by
  have hn : (s.tail.slotA.toList ++ s.tail.slotB.toList).find? (fun f => f.accepted s.tail.keyh) = some f := by
    rw [ha, Option.toList_some, List.singleton_append, List.find?_cons, hf]
  show execBoot s = _
  simp only [execBoot, h, hn]
  rfl

theorem measureExtend_idle {st fl : IWord} {d : BitVec 256} (h : s.tail.booted = false) : exec (.measureExtend st fl d) s = .next s := by
  show execMeasureExtend st fl d s = _
  rw [execMeasureExtend, if_pos (by rw [h]; rfl)]

theorem measureExtend_extends {st fl : IWord} {d : BitVec 256} (h : s.tail.booted = true) : exec (.measureExtend st fl d) s = .next
    { s.fresh.2 with tail := { s.tail with measure := Config.sm3 (digestBytes s.tail.measure ++ digestBytes d),
                                           log := s.tail.log ++ [⟨st, fl, s.fresh.1, d⟩] } } := by
  show execMeasureExtend st fl d s = _
  rw [execMeasureExtend, if_neg (by rw [h]; decide)]

end

/-! ## The statement -/

/-- What the step of a link leaves as it was, beside what it does. -/
theorem OnLink.frame {s t : State} {l : Nat} {p : Prop} (h : OnLink s t l) (hp : p) :
    t.mem = s.mem ∧ t.cell = s.cell ∧ t.others = s.others ∧ (∀ e, e ≠ l → t.link e = s.link e) ∧ p :=
  ⟨h.mem, h.cell, h.others, h.other, hp⟩

/-- Settles O54, instruction by instruction: the stop queue and boot, the links, the queue pairs, DMA and the registers. -/
theorem linkHostEvents : Obligations.LinkHostEvents := by
  unfold Obligations.LinkHostEvents
  intro s makes idle tail m digest
  refine ⟨?hsqEmpty, ?hsqOldest, boot_booted, ?boot, fun f => accepted_iff f _, boot_refused, ?extend, fun _ => rfl, ?links, ?pairs, ?dma,
    ?port, ?registers⟩
  case hsqEmpty =>
    intro h
    have e := hsqRead_nil h
    exact ⟨by rw [e], show Host.Outcome.next s.hsqRead.2 = _ by rw [e]⟩
  case hsqOldest =>
    intro p ps h
    obtain ⟨hv, hm, hh⟩ := hsqRead_cons h
    exact ⟨hv, _, rfl, hm, hh⟩
  case boot =>
    intro f hb ha hf
    exact ⟨_, boot_slotA hb ha hf, rfl, rfl, rfl, rfl, ⟨_, _, rfl⟩, assocGet_assocSet .., _, assocGet_assocSet .., rfl, rfl, rfl,
      fun n hn => assocGet_assocSet_ne _ _ hn⟩
  case extend =>
    exact fun st fl d => ⟨measureExtend_idle, fun h => ⟨_, measureExtend_extends h, rfl, rfl, rfl, _, rfl⟩⟩
  case links =>
    intro l hl x links
    have hx : s.link l = x := rfl
    refine ⟨?train, ?down, ?up, fun lanes rate peer => linkStateChange_ignored hx, ?lost, fun v => txtailWrite_ignored hl hx,
      ?tail, ?entry, ?flit⟩
    case train =>
      intro v hv
      obtain ⟨t, ht, hon, h⟩ := slctlWrite_train hl hx hv
      exact ⟨t, ht, hon.frame h⟩
    case down =>
      intro v hv
      obtain ⟨t, ht, hon, hc, k, hy⟩ := slctlWrite_down hl hx hv
      exact ⟨t, ht, hon.frame ⟨by rw [hy], by rw [hy], by rw [hy], by rw [hy], by rw [hy], by rw [hy], hc⟩⟩
    case up =>
      intro lanes rate peer ht hup hr hn hp
      obtain ⟨t, ht, hon, hc, es, h, hy, hes⟩ := linkStateChange_up hl hx ht hup hr hn hp
      exact ⟨t, ht, hon.frame ⟨by rw [hy], by rw [hy], by rw [hy], by rw [hy], hc, by rw [hy]; exact hes⟩⟩
    case lost =>
      intro lanes rate peer hup
      obtain ⟨t, ht, hon, hc, hy⟩ := linkStateChange_down hl hx (lanes := lanes) (rate := rate) (peer := peer) hup
      exact ⟨t, ht, hon.frame ⟨by rw [hy], by rw [hy], by rw [hy], by rw [hy], by rw [hy], hc⟩⟩
    case tail =>
      intro v h h4 hup hp hr
      obtain ⟨t, ht, hon, h⟩ := txtailWrite_sends hl hx h h4 hup hp hr
      exact ⟨t, ht, hon.frame h⟩
    case entry =>
      intro e hup hroom he a hs
      obtain ⟨t, ht, hy, hc, hb⟩ := linkEntryReceive_lands hl hx hup hroom he (a := a) rfl hs
      refine ⟨t, ht, hy, hc, fun i hi => ?_, fun i hi => ?_⟩
      · rw [hb, if_pos (by omega), Nat.add_sub_cancel_left, ringEntry_getD he]
      · rw [hb, if_neg (by omega)]
    case flit =>
      intro v hup he
      have hon : OnLink s (s.putLink { x with prxhead := v }) l := .putLink s.link_no
      exact ⟨_, linkControlFlit_moves hl hx v hup he, hon.frame (s.link_putLink s.link_no)⟩
  case pairs =>
    intro q hq x pair
    have hx : s.qp q = x := rfl
    have hno : x.no = q := s.qp_no
    refine ⟨fun v => sqt_ignored hx, fun v => sqt_moves hx hq, fun v => cqh_moves hx hq v, ?start, fun v hv => qcfg_settles hx hq hv,
      ?submissions, ?completion⟩
    case start =>
      intro v y hv hen fits
      obtain ⟨t, ht, hp⟩ := qcfg_starts hx hq hv hen
      have hfits : (x.masked v).inRange = true ↔ fits := QueuePair.inRange_masked x v
      rw [QueuePair.start] at hp
      exact ⟨fun hf => ⟨t, ht, by rwa [if_pos (hfits.mpr hf)] at hp⟩, fun hf => ⟨t, ht, by rwa [if_neg (mt hfits.mp hf)] at hp⟩⟩
    case completion =>
      intro cid st v rest hd room
      refine ⟨hostCompletion_waits hx hd, fun hroom => ?_⟩
      obtain ⟨t, ht, hm, hy⟩ := hostCompletion_writes hx hd hroom
      exact ⟨t, ht, hm, hy ▸ ⟨rfl, rfl, rfl, rfl, rfl, rfl⟩⟩
    case submissions =>
      intro e host hr hen hne cid took
      refine ⟨fun ho => hostSubmission_completes hx hq hr hen hne (submit_unknown ho) rfl fun _ => rfl,
        fun ho hn hs => hostSubmission_write hx hq hr hen hne ho hn rfl fun i hi => hs i (by omega) _ (.inr rfl),
        hostSubmission_stalled hx hq hr hen hne, hostSubmission_read_none hx hq hr hen hne,
        fun ho hm hn => ⟨_, hostSubmission_read_all hx hq hr hen hne ho hm hn, rfl, State.qp_putQp hno⟩,
        fun ho ha => hostSubmission_completes hx hq hr hen hne (submit_launch_refused ho ha) rfl fun h => ?_,
        fun ho ha hm ws t₁ v t₂ hw hl => ⟨_, hostSubmission_takes hx hq hr hen hne (submit_launch ho ha hm hw hl) fun h => ?_, ?_⟩⟩
      · rw [ho] at h; cases h
      · rw [ho] at h; cases h
      · simp only [QueuePair.took, List.append_nil]
        rfl
  case dma =>
    intro p w a bs seen
    refine ⟨fun h => ?_, fun h hw => ?_, fun h hw hs => ?_⟩
    · exact if_pos (by rw [h]; rfl)
    · exact (if_neg (by rw [h]; decide)).trans (by rw [hw]; rfl)
    · have hland := landed_putB (bs := bs) fun i hi => hs i (by omega) _ (.inr rfl)
      exact ⟨_, (if_neg (by rw [h]; decide)).trans (by rw [hw]; rfl), hland.bytes⟩
  case port => exact fun _ => rfl
  case registers =>
    intro v d hd stores block
    refine ⟨stores_devReg (by decide) rfl fun _ => rfl, stores_devReg (by decide) rfl fun _ => rfl, stores_devReg (by decide) rfl fun _ => rfl,
      ⟨_, exec_registerWrite (by decide), rfl, rfl, rfl, rfl⟩, stores_net hd (i := 0) (by decide), ?nage, ?ncnt,
      ⟨_, exec_registerWrite (by decide), rfl, rfl, rfl, rfl⟩, ⟨_, exec_registerWrite (by decide), rfl, rfl, rfl, rfl⟩, stores_slid,
      stores_dcoef hd, fun r hr => stores_rthr hd hr, exec_registerWrite (by decide), by rfl, ⟨_, exec_registerWrite (by decide), rfl, rfl⟩⟩
    case nage =>
      have h := stores_net (s := s) (v := v) hd (show 1 < 4 by decide)
      rwa [show 0x300000 + 0x1000 * d + 8 * 1 = 0x300008 + 0x1000 * d by omega] at h
    case ncnt =>
      have h := stores_net (s := s) (v := v) hd (show 2 < 4 by decide)
      rwa [show 0x300000 + 0x1000 * d + 8 * 2 = 0x300010 + 0x1000 * d by omega] at h

end Sys2Proof.Machine

/-! O58: each shared operation, then every instruction and step, answers a next state. The case split is that of the operation's branches;
a branch ends in a next state, a trap, a wait, or in what the operation was given to go on with. -/

namespace Sys2Proof.Machine

variable {s : State}

/-! ## Failures -/

theorem State.failGlobal_goes (s : State) (c : Cause) (a : Nat) : Goes (s.failGlobal c a) := by
  unfold State.failGlobal
  split
  exacts [goes_next _, s.trap_goes _ _]

theorem State.pageFault_goes (s : State) (n : Need) (a : Nat) : Goes (s.pageFault n a) := State.failGlobal_goes _ _ _

theorem State.answerFails_goes {α : Type} (s : State) (n : Need) (a : Nat) (x : Answer α) : Goes (s.answerFails n a x) := by
  unfold State.answerFails
  split
  exacts [s.pageFault_goes _ _, s.failGlobal_goes _ _, s.failGlobal_goes _ _, goes_next _, s.failGlobal_goes _ _]

theorem State.loadFails_goes (s : State) (c : Cause) (a : Nat) : Goes (s.loadFails c a) := by
  unfold State.loadFails
  split
  exacts [s.trap_goes _ _, s.failGlobal_goes _ _]

theorem State.storeFails_goes (s : State) (c : Cause) (a : Nat) : Goes (s.storeFails c a) := by
  unfold State.storeFails
  split
  exacts [s.trap_goes _ _, s.pageFault_goes _ _, s.failGlobal_goes _ _]

/-! ## Checks -/

theorem State.withLocal_goes {a : Word} {align n : Nat} {k : Nat → Out} (h : ∀ o, Goes (k o)) : Goes (s.withLocal a align n k) := by
  unfold State.withLocal
  repeat' split
  exacts [s.trap_goes _ _, s.trap_goes _ _, h _]

theorem onObject_goes {ss : List Reg} {a : Reg} {k : Nat → Out} (h : ∀ o, Goes (k o)) : Goes (onObject ss a k s) :=
  State.cellOnly_goes (State.withRegs_goes (State.withLocal_goes h))

theorem State.notHanded_goes {k : Out} (h : Goes k) : Goes (s.notHanded k) := by
  unfold State.notHanded
  split
  exacts [s.trap_goes _ _, h]

theorem State.inRange55_goes {x : Word} {k : Out} (h : Goes k) : Goes (s.inRange55 x k) := by
  unfold State.inRange55
  split
  exacts [s.failGlobal_goes _ _, h]

theorem State.headOnly_goes {l : Level} {k : Out} (h : Goes k) : Goes (s.headOnly l k) := by
  unfold State.headOnly
  split
  exacts [State.withLevel_goes h, s.trap_goes _ _]

theorem State.stAccess_goes {d : Reg} {n : BitVec 12} {w : Bool} {k : Out} (h : Goes k) : Goes (s.stAccess d n w k) := by
  unfold State.stAccess
  split
  · exact s.trap_goes _ _
  · refine State.withLevel_goes (State.withRegs_goes ?_)
    split
    exacts [s.trap_goes _ _, h]

/-! ## Loads, stores and atomics -/

theorem State.loadGlobal_goes {i : Instr} {sort : MsgKind} {run wide : Bool} {ps : List (Nat × Nat)} {bad : Option (Cause × Nat)}
    {k : List (List Byte × List Byte) → State → Out} (hk : ∀ r t, Goes (k r t)) : Goes (s.loadGlobal i sort run wide ps bad k) := by
  have ends (r : List (List Byte × List Byte)) (t : State) : Goes (match bad with
      | some (c, a) => t.loadFails c a
      | none => k r t) := by
    split
    exacts [t.loadFails_goes _ _, hk r t]
  have stays (t : State) : Goes (if run then t.reissue else if t.hart.waits .data then .next t else t.waitOn .data i) := by
    repeat' split
    exacts [t.reissue_goes, goes_next _, t.waitOn_goes _ _]
  unfold State.loadGlobal
  dsimp only
  split
  · exact ends _ _
  split
  · exact ends _ _
  split
  · exact stays _
  split
  · exact stays _
  split
  · exact s.failGlobal_goes _ _
  split
  exacts [ends _ _, ends _ _]

theorem State.loadScalar_goes {i : Instr} {wide : Bool} {a : Word} {n : Nat} {signed : Bool} {d : Reg} {after : State → State} :
    Goes (s.loadScalar i wide a n signed d after) := State.loadGlobal_goes fun _ _ => State.writeS_goes _ _ _

theorem State.loadElems_goes {i : Instr} {w : EW} {d : Reg} {addrs : List Nat} : Goes (s.loadElems i w d addrs) := by
  unfold State.loadElems
  exact State.loadGlobal_goes fun _ _ => State.done_goes _ _

theorem State.stageStores_goes (s : State) (t : Task) (rs : List StoreRec) : Goes (s.stageStores t rs) := by
  unfold State.stageStores
  split
  exacts [goes_next _, State.done_goes _ _]

theorem State.performStores_goes (s : State) (rs : List StoreRec) (rel : Bool) : Goes (s.performStores rs rel) := by
  unfold State.performStores
  extract_lets wait table
  split
  · exact s.done_goes _
  split
  · exact s.reissue_goes
  split
  exacts [State.finish_goes _, State.reissue_goes _]

theorem State.storeChecked_goes (s : State) (rs : List StoreRec) (rel : Bool) (bad : Option (Cause × Nat)) : Goes (s.storeChecked rs rel bad) := by
  have pass : Goes (match bad with
      | some (c, a) => s.storeFails c a
      | none => s.performStores rs rel) := by
    split
    exacts [s.storeFails_goes _ _, s.performStores_goes _ _]
  unfold State.storeChecked
  dsimp only
  split
  · split
    exacts [s.reissue_goes, s.finish_goes]
  split
  · exact s.reissue_goes
  · split
    exacts [s.failGlobal_goes _ _, s.reissue_goes]
  · repeat' split
    exacts [s.reissue_goes, s.storeFails_goes _ _, s.reissue_goes, s.storeFails_goes _ _, s.performStores_goes _ _]
  · split
    exacts [pass, State.reissue_goes _]

theorem State.storeGlobal_goes (s : State) (rs : List StoreRec) (rel : Bool) (bad : Option (Cause × Nat)) : Goes (s.storeGlobal rs rel bad) := by
  unfold State.storeGlobal
  repeat' split
  exacts [s.storeFails_goes _ _, s.stageStores_goes _ _, s.storeChecked_goes _ _ _, s.storeChecked_goes _ _ _]

theorem State.storeDevices_goes (s : State) (rs : List StoreRec) (bad : Option (Cause × Nat)) : Goes (s.storeDevices rs bad) := by
  unfold State.storeDevices
  dsimp only
  split
  · exact s.storeFails_goes _ _
  · exact s.storeFails_goes _ _
  split
  · exact s.reissue_goes
  split
  exacts [s.reissue_goes, State.finish_goes _]

theorem State.store_goes (s : State) (rs : List StoreRec) (rel : Bool) (bad : Option (Cause × Nat)) : Goes (s.store rs rel bad) := by
  unfold State.store
  split
  exacts [s.storeDevices_goes _ _, s.storeGlobal_goes _ _ _]

theorem State.storeScalar_goes {a : Word} {n : Nat} {v : Word} {k : AccKind} {sc : Scope} : Goes (s.storeScalar a n v k sc) := by
  unfold State.storeScalar
  split
  exacts [s.store_goes _ _ _, s.store_goes _ _ _]

theorem execStv_goes {d a : Reg} {off : Word} : Goes (execStv d a off s) := by
  refine State.withRegs_goes ?_
  dsimp only
  split
  exacts [s.store_goes _ _ _, s.store_goes _ _ _]

theorem execPf_goes {a : Reg} {off : Word} : Goes (execPf a off s) := by
  refine State.withRegs_goes ?_
  dsimp only
  split
  exacts [s.finish_goes, State.finish_goes _]

theorem amo_goes {i : Instr} {f : Word → Word → Word → Word} {sc : Scope} {d a b : Reg} : Goes (amo i f sc d a b s) := by
  refine State.withRegs_goes (State.notReplay_goes ?_)
  dsimp only
  split
  · exact s.loadFails_goes _ _
  split
  · exact State.waitOn_goes _ _ _
  split
  · exact goes_next _
  split
  · exact goes_next _
  split
  · exact s.failGlobal_goes _ _
  split
  · exact goes_next _
  split
  · exact State.failGlobal_goes _ _ _
  · split
    exacts [State.writeS_goes _ _ _, goes_next _]
  · exact State.answerFails_goes _ _ _ _

theorem execAmoAdd_goes {sc : Scope} {d a b : Reg} : Goes (execAmoAdd sc d a b s) := amo_goes

theorem execAmoAnd_goes {sc : Scope} {d a b : Reg} : Goes (execAmoAnd sc d a b s) := amo_goes

theorem execAmoOr_goes {sc : Scope} {d a b : Reg} : Goes (execAmoOr sc d a b s) := amo_goes

theorem execAmoXor_goes {sc : Scope} {d a b : Reg} : Goes (execAmoXor sc d a b s) := amo_goes

theorem execAmoMin_goes {sc : Scope} {d a b : Reg} : Goes (execAmoMin sc d a b s) := amo_goes

theorem execAmoMax_goes {sc : Scope} {d a b : Reg} : Goes (execAmoMax sc d a b s) := amo_goes

theorem execAmoMinn_goes {sc : Scope} {d a b : Reg} : Goes (execAmoMinn sc d a b s) := amo_goes

theorem execAmoMaxn_goes {sc : Scope} {d a b : Reg} : Goes (execAmoMaxn sc d a b s) := amo_goes

theorem execAmoSwp_goes {sc : Scope} {d a b : Reg} : Goes (execAmoSwp sc d a b s) := amo_goes

theorem execAmoCas_goes {sc : Scope} {d a b : Reg} : Goes (execAmoCas sc d a b s) := amo_goes

theorem execFence_goes {sc : Scope} : Goes (execFence sc s) := by
  unfold execFence
  split
  exacts [State.finish_goes _, s.reissue_goes]

theorem execLdv_goes {d a : Reg} {off : Word} : Goes (execLdv d a off s) := by
  unfold execLdv
  exact State.withRegs_goes (State.loadGlobal_goes fun _ _ => State.done_goes _ _)

theorem execVsca_goes {w : EW} {d a b : Reg} : Goes (execVsca w d a b s) := by
  unfold execVsca
  exact State.withRegs_goes (State.store_goes _ _ _ _)

/-! ## Full/empty words -/

theorem fullEmpty_goes {i : Instr} {ss : List Reg} {a : Reg} {off : Word} {try_ need : Bool} {k : Nat → State → Out} (hk : ∀ o t, Goes (k o t)) :
    Goes (fullEmpty i ss a off try_ need k s) := by
  unfold fullEmpty
  split
  · exact s.trap_goes _ _
  refine State.cellOnly_goes (State.withRegs_goes (State.withLocal_goes fun o => ?_))
  repeat' split
  exacts [hk _ _, s.done_goes _, s.waitOn_goes _ _, s.trap_goes _ _, goes_next _]

theorem execLdfeK_goes {t : Bool} {d a : Reg} {off : Word} : Goes (execLdfeK t d a off s) := fullEmpty_goes fun _ _ => State.writeS_goes _ _ _

theorem execLdfeE_goes {t : Bool} {d a : Reg} {off : Word} : Goes (execLdfeE t d a off s) := fullEmpty_goes fun _ _ => State.writeS_goes _ _ _

theorem execStfe_goes {t : Bool} {d a : Reg} {off : Word} : Goes (execStfe t d a off s) := fullEmpty_goes fun _ _ => State.finish_goes _

theorem execStfer_goes {t : Bool} {d a : Reg} : Goes (execStfer t d a s) := by
  unfold execStfer
  dsimp only
  split
  · repeat' split
    exacts [s.done_goes _, s.trap_goes _ _, s.done_goes _, s.trap_goes _ _, goes_next _, goes_next _]
  refine State.cellOnly_goes (State.withRegs_goes (State.notReplay_goes ?_))
  repeat' split
  exacts [s.trap_goes _ _, s.trap_goes _ _, goes_next _]

/-! ## Control -/

theorem branch_goes {c : Word → Word → Bool} {a b : Reg} {off : Word} : Goes (branch c a b off s) := by
  refine State.withRegs_goes ?_
  split
  exacts [goes_next _, s.finish_goes]

theorem execBlt_goes {a b : Reg} {off : Word} : Goes (execBlt a b off s) := by
  unfold execBlt
  exact branch_goes

theorem execBge_goes {a b : Reg} {off : Word} : Goes (execBge a b off s) := by
  unfold execBge
  exact branch_goes

theorem execBltn_goes {a b : Reg} {off : Word} : Goes (execBltn a b off s) := by
  unfold execBltn
  exact branch_goes

theorem execBgen_goes {a b : Reg} {off : Word} : Goes (execBgen a b off s) := by
  unfold execBgen
  exact branch_goes

theorem execCalli_goes {d a : Reg} : Goes (execCalli d a s) := by
  refine State.withRegs_goes ?_
  dsimp only
  split
  exacts [s.trap_goes _ _, goes_next _]

/-! ## Queues of the engines -/

theorem State.matIssue_goes {i : Instr} {ss : List Reg} {checks : List (Bool × Cause × Word)} {op : MatOp} {e : Option (Nat × Nat)} :
    Goes (s.matIssue i ss checks op e) := by
  refine State.cellOnly_goes (State.withRegs_goes ?_)
  dsimp only
  split
  · exact goes_next _
  split
  · exact State.trap_goes _ _ _
  split
  exacts [State.finish_goes _, State.waitOn_goes _ _ _]

theorem State.copyIssue_goes {i : Instr} {ss : List Reg} {checks : List Byte → List (Bool × Cause × Word)} {read : List Byte}
    {inReplay : List Byte → Bool} {op : List Byte → CopyOp} {obj : Word} {total : List Byte → Nat} :
    Goes (s.copyIssue i ss checks read inReplay op obj total) := by
  refine State.cellOnly_goes (State.withRegs_goes ?_)
  split
  · exact goes_next _
  extract_lets k bs
  repeat' split
  exacts [State.trap_goes _ _ _, goes_next _, State.finish_goes _, State.waitOn_goes _ _ _]

theorem execMlds_goes {d a : Reg} : Goes (execMlds d a s) := by
  unfold execMlds
  exact State.matIssue_goes

theorem execMswp_goes : Goes (execMswp s) := by
  unfold execMswp
  exact State.matIssue_goes

theorem execMstr_goes {d a b : Reg} : Goes (execMstr d a b s) := by
  unfold execMstr
  exact State.matIssue_goes

theorem execMacz_goes {a : Reg} : Goes (execMacz a s) := by
  unfold execMacz
  exact State.matIssue_goes

theorem execMacrd_goes {d a b : Reg} : Goes (execMacrd d a b s) := by
  unfold execMacrd
  exact State.matIssue_goes

theorem execMfmt_goes {a : Reg} : Goes (execMfmt a s) := by
  unfold execMfmt
  exact State.matIssue_goes

theorem execTcopy_goes {d a b : Reg} : Goes (execTcopy d a b s) := by
  unfold execTcopy
  exact State.copyIssue_goes

theorem packIssue_goes {i : Instr} {un : Bool} {f : StFmt} {d a b : Reg} : Goes (packIssue i un f d a b s) := by
  unfold packIssue
  exact State.copyIssue_goes

theorem execTpack_goes {f : StFmt} {d a b : Reg} : Goes (execTpack f d a b s) := packIssue_goes

theorem execTunpk_goes {f : StFmt} {d a b : Reg} : Goes (execTunpk f d a b s) := packIssue_goes

theorem execMwait_goes : Goes (execMwait s) := by
  refine State.cellOnly_goes ?_
  split
  exacts [s.reissue_goes, s.finish_goes]

/-! ## Barriers, tasks and records -/

theorem execBwait_goes {t : Bool} {d a b : Reg} : Goes (execBwait t d a b s) := by
  unfold execBwait
  split
  · repeat' split
    exacts [s.trap_goes _ _, State.finish_goes _, goes_next _]
  refine onObject_goes fun o => ?_
  dsimp only
  repeat' split
  exacts [State.writeS_goes _ _ _, s.writeS_goes _ _, State.finish_goes _, State.waitOn_goes _ _ _]

theorem execTend_goes : Goes (execTend s) := by
  refine State.cellOnly_goes (State.notHanded_goes ?_)
  split
  · exact goes_next _
  dsimp only
  split
  · exact s.reissue_goes
  split
  · exact s.storeFails_goes _ _
  split
  · exact s.reissue_goes
  split
  exacts [s.reissue_goes, goes_next _]

theorem State.abandonTask_goes {n : Nat} : Goes (s.abandonTask n) := by
  refine State.cellOnly_goes (State.notHanded_goes ?_)
  split
  exacts [goes_next _, goes_next _]

theorem execTspawn_goes {d a : Reg} : Goes (execTspawn d a s) := by
  have send (t : State) : Goes (if t.acked || t.hart.replay then (t.mapHart fun h => { h with req := .sent }).reissue else t.reissue) := by
    split
    exacts [State.reissue_goes _, t.reissue_goes]
  refine State.cellOnly_goes (State.withRegs_goes ?_)
  split
  · exact s.writeS_goes _ _
  · exact s.reissue_goes
  dsimp only
  split
  exacts [send _, State.withLocal_goes fun _ => send _]

theorem execEvget_goes {d a : Reg} : Goes (execEvget d a s) := by
  refine State.cellOnly_goes (State.withRegs_goes (State.notReplay_goes (State.withLocal_goes fun o => ?_)))
  repeat' split
  exacts [s.writeS_goes _ _, s.writeS_goes _ _, State.writeS_goes _ _ _, State.reissue_goes _]

theorem execTbar_goes {t : Bool} {d a b : Reg} : Goes (execTbar t d a b s) := by
  have ends (u : State) : Goes (if t then u.writeS d 1 else u.finish) := by
    split
    exacts [u.writeS_goes _ _, u.finish_goes]
  unfold execTbar
  extract_lets
  split
  · split
    exacts [ends _, goes_next _]
  refine State.cellOnly_goes (State.withRegs_goes ?_)
  extract_lets
  repeat' split
  exacts [s.trap_goes _ _, s.trap_goes _ _, s.trap_goes _ _, ends _, s.trap_goes _ _, State.writeS_goes _ _ _, State.waitOn_goes _ _ _]

theorem execYield_goes : Goes (execYield s) := by
  unfold execYield
  split
  exacts [s.finish_goes, s.reissue_goes]

theorem execSleep_goes {a : Reg} : Goes (execSleep a s) := by
  refine State.withRegs_goes ?_
  repeat' split
  exacts [s.finish_goes, goes_next _, s.waitOn_goes _ _]

/-! ## Fields -/

theorem State.answerSelf_goes (s : State) (v : Word) : Goes (s.answerSelf v) := State.reissue_goes _

theorem State.sendAsk_goes (s : State) (i : Instr) (p : IWord) (h o : Nat) (ask : FieldAsk) : Goes (s.sendAsk i p h o ask) := by
  unfold State.sendAsk
  split
  exacts [s.reissue_goes, State.reissue_goes _]

theorem State.control_goes {i : Instr} {d : Reg} {handle : Word} {o : Nat} {ask : FieldAsk} {none_ : Word} {query : Bool} :
    Goes (s.control i d handle o ask none_ query) := by
  unfold State.control
  repeat' split
  exacts [State.writeS_goes _ _ _, State.writeS_goes _ _ _, s.reissue_goes, s.reissue_goes, s.answerSelf_goes _, s.sendAsk_goes _ _ _ _ _]

theorem State.declAtIssue_goes (s : State) (i : Instr) (x : Word) : Goes (s.declAtIssue i x) := by
  unfold State.declAtIssue
  split
  · split
    · exact s.reissue_goes
    · dsimp only
      repeat' split
      exacts [State.answerSelf_goes _ _, State.answerSelf_goes _ _, State.sendAsk_goes _ _ _ _ _ _]
    · exact State.answerSelf_goes _ _
    · exact State.answerSelf_goes _ _
  · exact s.answerSelf_goes _

theorem execFdecl_goes {d a : Reg} : Goes (execFdecl d a s) := by
  refine State.cellOnly_goes (State.withRegs_goes (State.notReplay_goes ?_))
  split
  · exact s.writeS_goes _ _
  · exact s.reissue_goes
  dsimp only
  repeat' split
  exacts [s.trap_goes _ _, s.reissue_goes, s.declAtIssue_goes _ _]

theorem execFstop_goes {d a b : Reg} : Goes (execFstop d a b s) := by
  refine State.cellOnly_goes (State.withRegs_goes (State.notReplay_goes ?_))
  dsimp only
  split
  exacts [State.withLocal_goes fun _ => State.control_goes, State.control_goes]

theorem State.blockRequest_goes {i : Instr} {d : Reg} {x : Word} {ok : Word → Bool} {ask : List Word → FieldAsk} :
    Goes (s.blockRequest i d x ok ask) := by
  unfold State.blockRequest
  dsimp only
  split
  · refine State.withLocal_goes fun o => ?_
    dsimp only
    split
    exacts [s.trap_goes _ _, State.withLocal_goes fun _ => State.control_goes]
  · exact State.control_goes

theorem execFwaitb_goes {t : Bool} {d a b : Reg} : Goes (execFwaitb t d a b s) := by
  refine State.cellOnly_goes (State.withRegs_goes ?_)
  split
  · exact State.writeS_goes _ _ _
  repeat' split
  exacts [s.writeS_goes _ _, State.writeS_goes _ _ _, s.writeS_goes _ _, goes_next _, s.waitOn_goes _ _]

theorem execSget_goes {d a b : Reg} : Goes (execSget d a b s) := by
  refine State.cellOnly_goes (State.withRegs_goes ?_)
  repeat' split
  exacts [s.trap_goes _ _, s.trap_goes _ _, State.writeS_goes _ _ _, s.waitOn_goes _ _]

theorem execSput_goes {a : Reg} : Goes (execSput a s) := by
  refine State.cellOnly_goes (State.withRegs_goes ?_)
  split
  · exact s.trap_goes _ _
  dsimp only
  repeat' split
  exacts [s.trap_goes _ _, s.reissue_goes, goes_next _, s.reissue_goes]

theorem execRngf_goes {d a : Reg} : Goes (execRngf d a s) := by
  refine State.cellOnly_goes (State.withRegs_goes ?_)
  split
  · exact s.trap_goes _ _
  dsimp only
  repeat' split
  exacts [s.trap_goes _ _, s.writeS_goes _ _, s.waitOn_goes _ _, goes_next _, State.writeS_goes _ _ _, State.trap_goes _ _ _]

/-! ## Random numbers -/

theorem execBern_goes {d a b : Reg} : Goes (execBern d a b s) := by
  refine State.cellOnly_goes (State.withRegs_goes ?_)
  dsimp only
  split
  exacts [s.done_goes _, s.writeS_goes _ _, s.writeS_goes _ _]

theorem execSamp_goes {d a b : Reg} : Goes (execSamp d a b s) := by
  refine State.cellOnly_goes (State.withRegs_goes ?_)
  dsimp only
  split
  · exact s.trap_goes _ _
  refine State.withLocal_goes fun o => ?_
  repeat' split
  exacts [State.reissue_goes _, s.writeS_goes _ _, s.done_goes _]

/-! ## System instructions -/

theorem execTrap_goes {k : BitVec 6} : Goes (execTrap k s) := by
  unfold execTrap
  split
  exacts [s.trap_goes _ _, s.trap_goes _ _]

theorem execEret_goes : Goes (execEret s) := by
  unfold execEret
  split
  exacts [s.trap_goes _ _, goes_next _]

/-- A write to state registers completes, or is refused by a trap. -/
theorem writes_goes (o : Option State) : Goes (match o with
    | none => s.trap .illegalReg s.firstWord
    | some t => t.finish) := by
  split
  exacts [s.trap_goes _ _, State.finish_goes _]

theorem execView_goes {o : ViewOp} : Goes (execView o s) := by
  unfold execView
  dsimp only
  split
  exacts [State.withRegs_goes (writes_goes _), writes_goes _]

theorem execWfi_goes : Goes (execWfi s) := by
  unfold execWfi
  repeat' split
  exacts [s.finish_goes, goes_next _, s.waitOn_goes _ _]

theorem execIdent_goes {d : Reg} {sel : BitVec 6} : Goes (execIdent d sel s) := by
  refine State.withRegs_goes ?_
  split
  exacts [s.writeS_goes _ _, s.writeS_goes _ _, s.trap_goes _ _]

theorem execPool_goes {d : Reg} {src dst : BitVec 3} {m : BitVec 5} : Goes (execPool d src dst m s) := by
  have ends (t : State) : Goes (match t.hart.req with
      | .answered v => t.writeS d v
      | _ => t.reissue) := by
    split
    exacts [t.writeS_goes _ _, t.reissue_goes]
  refine State.cellOnly_goes (State.withRegs_goes ?_)
  split
  · exact s.writeS_goes _ _
  dsimp only
  split
  · split
    exacts [State.reissue_goes _, ends _]
  · exact ends _

theorem execPoolq_goes {d : Reg} {sel : BitVec 6} : Goes (execPoolq d sel s) := by
  refine State.cellOnly_goes (State.withRegs_goes ?_)
  dsimp only
  split
  · exact s.writeS_goes _ _
  · exact s.writeS_goes _ _
  · exact State.writeS_goes _ _ _
  · exact s.writeS_goes _ _
  · exact s.writeS_goes _ _
  · split
    exacts [s.writeS_goes _ _, s.trap_goes _ _]

theorem State.clean_goes {p : LineKey → Bool} : Goes (s.clean p) := by
  unfold State.clean
  dsimp only
  split
  exacts [State.finish_goes _, State.reissue_goes _]

theorem execInv_goes {a : Reg} : Goes (execInv a s) := by
  refine State.withRegs_goes (State.inRange55_goes ?_)
  split
  exacts [s.finish_goes, State.finish_goes _]

theorem ptst_goes {kind : Nat} {a b : Reg} : Goes (ptst kind a b s) := by
  refine State.withLevel_goes (State.withRegs_goes (State.notReplay_goes ?_))
  dsimp only
  split
  · exact s.trap_goes _ _
  split
  · exact s.failGlobal_goes _ _
  split
  · split
    · exact s.reissue_goes
    split
    exacts [State.reissue_goes _, State.failGlobal_goes _ _ _, s.reissue_goes, State.answerFails_goes _ _ _ _]
  · split
    exacts [s.reissue_goes, s.finish_goes]

theorem execGenb_goes {d a : Reg} : Goes (execGenb d a s) := by
  refine State.withLevel_goes (State.withRegs_goes (State.notReplay_goes ?_))
  dsimp only
  repeat' split
  exacts [s.writeS_goes _ _, s.reissue_goes, s.writeS_goes _ _, State.reissue_goes _, State.writeS_goes _ _ _]

theorem execLaunch_goes {d a : Reg} : Goes (execLaunch d a s) := by
  refine State.headOnly_goes (State.withRegs_goes ?_)
  dsimp only
  split
  · exact s.reissue_goes
  split
  · exact s.writeS_goes _ _
  split
  · exact s.reissue_goes
  · split
    exacts [s.reissue_goes, State.writeS_goes _ _ _]
  · exact State.writeS_goes _ _ _

theorem execFsvc_goes {d a b : Reg} : Goes (execFsvc d a b s) := by
  refine State.headOnly_goes (State.withRegs_goes ?_)
  dsimp only
  repeat' split
  exacts [s.trap_goes _ _, s.reissue_goes, State.writeS_goes _ _ _]

/-! ## The end of a wait -/

theorem resume_goes (i : Instr) : Goes (resume i s) := by
  cases i with
  | ld | ldAcq | ldStr => exact State.withRegs_goes State.loadScalar_goes
  | ldv => exact execLdv_goes
  | ldvs | vgat => exact State.withRegs_goes State.loadElems_goes
  | amoAdd => exact execAmoAdd_goes
  | amoAnd => exact execAmoAnd_goes
  | amoOr => exact execAmoOr_goes
  | amoXor => exact execAmoXor_goes
  | amoMin => exact execAmoMin_goes
  | amoMax => exact execAmoMax_goes
  | amoMinn => exact execAmoMinn_goes
  | amoMaxn => exact execAmoMaxn_goes
  | amoSwp => exact execAmoSwp_goes
  | amoCas => exact execAmoCas_goes
  | ldfeK => exact execLdfeK_goes
  | ldfeE => exact execLdfeE_goes
  | stfe => exact execStfe_goes
  | stfer => exact execStfer_goes
  | tcopy => exact execTcopy_goes
  | tpack => exact execTpack_goes
  | tunpk => exact execTunpk_goes
  | mlds => exact execMlds_goes
  | mswp => exact execMswp_goes
  | mstr => exact execMstr_goes
  | macz => exact execMacz_goes
  | macrd => exact execMacrd_goes
  | mfmt => exact execMfmt_goes
  | bwait => exact execBwait_goes
  | tbar => exact execTbar_goes
  | fwaitb => exact execFwaitb_goes
  | sget => exact execSget_goes
  | rngf => exact execRngf_goes
  | sleep => exact execSleep_goes
  | wfi => exact execWfi_goes
  | _ => exact goes_next _

theorem State.waitSlot_goes (s : State) : Goes s.waitSlot := by
  unfold State.waitSlot
  split
  exacts [resume_goes _, goes_next _]

theorem execWaitComplete_goes {c : Nat} {k : Slot} : Goes (execWaitComplete c k s) := by
  unfold execWaitComplete
  repeat' split
  exacts [goes_next _, s.waitSlot_goes, goes_next _, goes_next _]

/-! ## Events -/

theorem execPlaceRequest_goes {d sl e : Nat} {l : LineKey} : Goes (execPlaceRequest d sl e l s) := by
  unfold execPlaceRequest
  dsimp only
  repeat' split
  exacts [goes_next _, goes_next _, goes_next _, goes_next _]

theorem execPageFault_goes {c : Nat} {k : Slot} {va kind : Nat} {park : Bool} : Goes (execPageFault c k va kind park s) := by
  unfold execPageFault
  dsimp only
  split
  exacts [goes_next _, goes_next _]

theorem execChuckStart_goes {c : Nat} {k : Slot} : Goes (execChuckStart c k s) := by
  unfold execChuckStart
  dsimp only
  repeat' split
  exacts [goes_next _, goes_next _, goes_next _, goes_next _]

theorem execSensorReading_goes {d n : Nat} {r : Int} : Goes (execSensorReading d n r s) := by
  unfold execSensorReading
  split
  exacts [goes_next _, goes_next _]

theorem execHotSpotMove_goes {l t x y : Nat} : Goes (execHotSpotMove l t x y s) := by
  unfold execHotSpotMove
  split
  · exact goes_next _
  split
  · exact goes_next _
  split
  · exact goes_next _
  split
  · split
    · exact goes_next _
    split
    · exact goes_next _
    split
    exacts [goes_next _, goes_next _]
  · split
    exacts [goes_next _, goes_next _]

theorem execSwapGraceExpire_goes {l t : Nat} : Goes (execSwapGraceExpire l t s) := by
  unfold execSwapGraceExpire
  split
  · exact goes_next _
  split
  exacts [goes_next _, goes_next _]

theorem execLaunchAccept_goes {d : List Word} : Goes (execLaunchAccept d s) := by
  unfold execLaunchAccept
  split
  exacts [goes_next _, goes_next _]

theorem execBoot_goes : Goes (execBoot s) := by
  unfold execBoot
  dsimp only
  repeat' split
  exacts [goes_next _, goes_next _, goes_next _]

theorem execMeasureExtend_goes {st f : IWord} {d : BitVec 256} : Goes (execMeasureExtend st f d s) := by
  unfold execMeasureExtend
  split
  exacts [goes_next _, goes_next _]

theorem execLinkStateChange_goes {l : Nat} {up : Bool} {n r p : Nat} : Goes (execLinkStateChange l up n r p s) := by
  unfold execLinkStateChange
  extract_lets x
  split
  exacts [goes_next _, goes_next _]

theorem execLinkEntryReceive_goes {l : Nat} {e : List Byte} : Goes (execLinkEntryReceive l e s) := by
  unfold execLinkEntryReceive
  extract_lets x
  split
  exacts [goes_next _, goes_next _]

theorem execSqt_goes {q : Nat} {v : BitVec 16} : Goes (execSqt q v s) := by
  unfold execSqt
  extract_lets x
  split
  exacts [goes_next _, goes_next _]

theorem execCqh_goes {q : Nat} {v : BitVec 16} : Goes (execCqh q v s) := by
  unfold execCqh
  split
  exacts [goes_next _, goes_next _]

theorem execQcfg_goes {q : Nat} {v : Word} : Goes (execQcfg q v s) := by
  unfold execQcfg
  split
  exacts [goes_next _, goes_next _]

theorem execHostSubmission_goes {q : Nat} {e : List Word} {h : List Byte} : Goes (execHostSubmission q e h s) := by
  unfold execHostSubmission
  extract_lets x
  split
  · exact goes_next _
  split
  exacts [goes_next _, goes_next _]

theorem execInboundDma_goes {p : Nat} {w : Bool} {pa : Nat} {bs : List Byte} : Goes (execInboundDma p w pa bs s) := by
  unfold execInboundDma
  split
  exacts [goes_next _, goes_next _]

theorem execOperatingPointPatch_goes {v m : Nat} : Goes (execOperatingPointPatch v m s) := by
  unfold execOperatingPointPatch
  extract_lets dies
  split
  exacts [goes_next _, goes_next _]

theorem execLinkControlFlit_goes {l : Nat} {v : BitVec 16} : Goes (execLinkControlFlit l v s) := by
  unfold execLinkControlFlit
  split
  exacts [goes_next _, goes_next _]

/-! ## Any instruction, any step -/

theorem exec_goes (i : Instr) (s : State) : Goes (exec i s) := by
  cases i with
  | add | sub | mul | mulh | mulhn | div | divn | rem | remn | and | or | xor | andn | orn | shl | shr | sra | rol | ror | min | max | minn
    | maxn | ceq | cne | clt | cle | cltn | clen | addi | li | abs | clz | ctz | popc | sext | zext | bext | bins | sel | lea | shlImm
    | shrImm | sraImm | rolImm | rorImm | loop | call | vadd | vsub | vmul | vmac | vmin | vmax | vand | vor | vxor | vshl | vshr | vsra
    | vabs | vneg | vminU | vmaxU | vcmpEq | vcmpNe | vcmpLt | vcmpLe | vcmpLtU | vcmpLeU | vsel | mand | mor | mnot | mpopc | vperm
    | vbcast | vextr | vins | vslideUp | vslideDn | vzipLo | vzipHi | vunzipEv | vunzipOd | vredsum | vredmax | vredmin | vredmaxU
    | vredminU | vfadd | vfsub | vfmul | vfma | vfmax | vfmin | vfrcp | vfexp2 | vfredsum | vfredmax | vfredmin | vfcmpEq | vfcmpLt
    | vfcmpLe | vfcmpUn | vcvt | vquant | vdeq | vsclg | vscls | fadd | fsub | fmul | fdiv | fmin | fmax | fsgn | fsqrt | fabs | fneg
    | fclass | frnd | fma | fms | fnma | fcmpEq | fcmpLt | fcmpLe | fcmpUn | fcmpNe | fcvt | tick | ienb | idis => exact State.withRegs_goes (goes_next _)
  | mstat | rng => exact State.cellOnly_goes (State.withRegs_goes (goes_next _))
  | ldfeK => exact execLdfeK_goes
  | ldfeE => exact execLdfeE_goes
  | stfe => exact execStfe_goes
  | stfer => exact execStfer_goes
  | feset | feclr => exact State.cellOnly_goes (State.withRegs_goes (State.withLocal_goes fun _ => State.finish_goes _))
  | beq | bne => exact branch_goes
  | blt => exact execBlt_goes
  | bge => exact execBge_goes
  | bltn => exact execBltn_goes
  | bgen => exact execBgen_goes
  | calli => exact execCalli_goes
  | ld | ldAcq | ldStr => exact State.withRegs_goes State.loadScalar_goes
  | st | stRel | stStr => exact State.withRegs_goes State.storeScalar_goes
  | ldl => exact State.cellOnly_goes (State.withRegs_goes (State.withLocal_goes fun _ => State.writeS_goes _ _ _))
  | stl | stvl => exact State.cellOnly_goes (State.withRegs_goes (State.withLocal_goes fun _ => State.finish_goes _))
  | ldvl => exact State.cellOnly_goes (State.withRegs_goes (State.withLocal_goes fun _ => State.done_goes _ _))
  | ldv => exact execLdv_goes
  | stv => exact execStv_goes
  | ldvs | vgat => exact State.withRegs_goes State.loadElems_goes
  | vsca => exact execVsca_goes
  | pf => exact execPf_goes
  | amoAdd => exact execAmoAdd_goes
  | amoAnd => exact execAmoAnd_goes
  | amoOr => exact execAmoOr_goes
  | amoXor => exact execAmoXor_goes
  | amoMin => exact execAmoMin_goes
  | amoMax => exact execAmoMax_goes
  | amoMinn => exact execAmoMinn_goes
  | amoMaxn => exact execAmoMaxn_goes
  | amoSwp => exact execAmoSwp_goes
  | amoCas => exact execAmoCas_goes
  | fence => exact execFence_goes
  | mlds => exact execMlds_goes
  | mswp => exact execMswp_goes
  | mstr => exact execMstr_goes
  | macz => exact execMacz_goes
  | macrd => exact execMacrd_goes
  | mfmt => exact execMfmt_goes
  | mwait => exact execMwait_goes
  | tend => exact execTend_goes
  | tcopy => exact execTcopy_goes
  | tpack => exact execTpack_goes
  | tunpk => exact execTunpk_goes
  | bini | bexp => exact onObject_goes fun _ => State.finish_goes _
  | barv | btest => exact onObject_goes fun _ => State.writeS_goes _ _ _
  | bwait => exact execBwait_goes
  | waitw => exact State.abandonTask_goes
  | tabt => exact State.cellOnly_goes (State.withRegs_goes State.abandonTask_goes)
  | tspawn => exact execTspawn_goes
  | evget => exact execEvget_goes
  | tbar => exact execTbar_goes
  | yield => exact execYield_goes
  | sleep => exact execSleep_goes
  | fdecl => exact execFdecl_goes
  | fstop => exact execFstop_goes
  | fstart | fpause | cplc => exact State.cellOnly_goes (State.withRegs_goes (State.notReplay_goes State.control_goes))
  | fphase => exact State.cellOnly_goes (State.withRegs_goes State.control_goes)
  | snap | fmig => exact State.cellOnly_goes (State.withRegs_goes (State.notReplay_goes State.blockRequest_goes))
  | fwaitb => exact execFwaitb_goes
  | sget => exact execSget_goes
  | sput => exact execSput_goes
  | rngf => exact execRngf_goes
  | bern => exact execBern_goes
  | samp => exact execSamp_goes
  | trap => exact execTrap_goes
  | eret => exact execEret_goes
  | wfi => exact execWfi_goes
  | pool => exact execPool_goes
  | poolq => exact execPoolq_goes
  | view => exact execView_goes
  | inv => exact execInv_goes
  | genb => exact execGenb_goes
  | launch => exact execLaunch_goes
  | fsvc => exact execFsvc_goes
  | ident => exact execIdent_goes
  | stget => exact State.stAccess_goes (State.writeS_goes _ _ _)
  | stset | stswp => exact State.stAccess_goes (writes_goes _)
  | cln => exact State.withRegs_goes (State.inRange55_goes State.clean_goes)
  | clnp => exact State.withLevel_goes (State.withRegs_goes (State.notReplay_goes (State.inRange55_goes State.clean_goes)))
  | ptstGrant | ptstRetract | ptstHold | ptstMove => exact ptst_goes
  | halt => exact State.withLevel_goes (goes_next _)
  | waitComplete => exact execWaitComplete_goes
  | placeRequest => exact execPlaceRequest_goes
  | pageFault => exact execPageFault_goes
  | chuckStart => exact execChuckStart_goes
  | sensorReading => exact execSensorReading_goes
  | hotSpotMove => exact execHotSpotMove_goes
  | swapGraceExpire => exact execSwapGraceExpire_goes
  | launchAccept => exact execLaunchAccept_goes
  | boot => exact execBoot_goes
  | measureExtend => exact execMeasureExtend_goes
  | linkStateChange => exact execLinkStateChange_goes
  | linkEntryReceive => exact execLinkEntryReceive_goes
  | sqt => exact execSqt_goes
  | cqh => exact execCqh_goes
  | qcfg => exact execQcfg_goes
  | hostSubmission => exact execHostSubmission_goes
  | inboundDma => exact execInboundDma_goes
  | operatingPointPatch => exact execOperatingPointPatch_goes
  | linkControlFlit => exact execLinkControlFlit_goes
  | _ => exact goes_next _

theorem State.issueBytes_goes (s : State) (bs : List Byte) : Goes (s.issueBytes bs) := by
  unfold State.issueBytes
  dsimp only
  split
  exacts [exec_goes _ _, State.trap_goes _ _ _]

theorem State.runSlot_goes (s : State) : Goes s.runSlot := by
  unfold State.runSlot
  dsimp only
  split
  · exact exec_goes _ _
  split
  · exact s.failGlobal_goes _ _
  split
  · exact goes_next _
  split
  exacts [s.issueBytes_goes _, goes_next _]

theorem State.fetchSlot_goes (s : State) : Goes s.fetchSlot := by
  unfold State.fetchSlot
  dsimp only
  repeat' split
  exacts [goes_next _, s.failGlobal_goes _ _, s.issueBytes_goes _]

theorem State.slot_goes (s : State) : Goes s.slot := by
  unfold State.slot
  repeat' split
  exacts [goes_next _, goes_next _, goes_next _, goes_next _, s.runSlot_goes, s.fetchSlot_goes, s.waitSlot_goes, goes_next _]

theorem State.cycle_goes (s : State) : Goes s.cycle := by
  obtain ⟨t, ht⟩ := s.slot_goes
  exact ⟨t.advance, by simp [State.cycle, ht]⟩

theorem State.event_goes (s : State) (i : Instr) : Goes (s.event i) := by
  obtain ⟨t, ht⟩ := exec_goes i s
  unfold State.event
  split
  · exact goes_next _
  · simp [ht, Goes]

theorem State.agendum_goes (s : State) (a : Agendum) : Goes (s.agendum a) := by
  cases a with
  | ev i => exact s.event_goes i
  | turn | memoryError | localError | freeTag | coreRelease | correctedError => exact goes_next _

theorem step_goes (s : State) : Goes (step s) := by
  unfold step
  repeat' split
  exacts [State.agendum_goes _ _, goes_next _, s.cycle_goes]

/-- Settles O58: every instruction by the branches of its operations, a step by those of `step`. -/
theorem everythingGoesOn : Obligations.EverythingGoesOn := by
  unfold Obligations.EverythingGoesOn
  exact ⟨exec_goes, step_goes⟩

end Sys2Proof.Machine

namespace Sys2Proof.Machine

/-! ## O57: the slot of a hart that takes part, where nothing else is due -/

section
variable {s : State}

/-- With nothing on the agenda and nothing due, a step is the slot and the end of the cycle. -/
theorem step_eq_cycle (ha : s.agenda = []) (hd : s.due = none) : step s = s.cycle := by
  simp only [step, ha, hd]

/-- What the slot answers, with the end of the cycle where it goes on. -/
def endCycle (o : Out) : Out :=
  match o with
  | .next t => .next t.advance
  | r => r

theorem State.cycle_eq : s.cycle = endCycle s.slot := rfl

/-- The slot is what the hart's state asks for, where no failure, no limit and no interrupt comes first. -/
theorem State.slot_eq (act : s.active = true) (part : s.isCore = true ∨ s.runs s.cell = true) (hg : s.globalFault = none) (hl : s.rlimExpire = none)
    (hp : s.takePending = none) : s.slot = match s.hart.st with
      | .run => s.runSlot
      | .wait .fetch => s.fetchSlot
      | .wait _ => s.waitSlot
      | _ => .next s := by
  have skip : (!s.active || (!s.isCore && !s.runs s.cell)) = false := by
    rcases part with h | h <;> simp [act, h]
  unfold State.slot
  rw [skip, hg, hl, hp]
  rfl

theorem State.issueBytes_ok {bs : List Byte} {i : Instr} (h : decodeBytes bs = .ok i) :
    s.issueBytes bs = exec i ((s.countIssue ((wordsOfBytes bs).headD 0)).mapHart fun h => h.issue i ((wordsOfBytes bs).headD 0) bs.length) := by
  simp only [State.issueBytes, h]

theorem State.issueBytes_error {bs : List Byte} {e : _} (h : decodeBytes bs = .error e) :
    s.issueBytes bs = exec (.illegalEncoding ((wordsOfBytes bs).headD 0))
      (s.mapHart fun h => { h.settle with st := .run, ir := (wordsOfBytes bs).headD 0 }) := by
  simp only [State.issueBytes, h]; rfl

theorem State.runSlot_again {i : Instr} (ha : s.hart.again = true) (hi : s.hart.winstr = some i) : s.runSlot = exec i s := by
  simp only [State.runSlot, ha, hi]

/-- A hart that does not issue again fetches: from CODE, or by misses. -/
theorem State.runSlot_fetch (ha : s.hart.again = false) (hpc : s.hart.pc.toNat < 2 ^ 55) : s.runSlot =
    if s.isCore then .next s.fetchWait
    else match s.cell.fetch s.asid (s.gen s.asid) s.hart.level s.hart.pc.toNat with
      | some bs => s.issueBytes bs
      | none => .next s.fetchWait := by
  unfold State.runSlot
  dsimp only
  rw [ha]
  exact if_neg (by omega)

theorem State.fetchSlot_woken (hw : s.hart.woken = true) (ha : s.answeredHere = true) (hc : ∀ c a, s.hart.check ≠ .failed c a) :
    s.fetchSlot = s.issueBytes s.hart.buf := by
  unfold State.fetchSlot
  dsimp only
  split
  · simp_all
  split
  · exact absurd ‹_› (hc _ _)
  · rfl

end

/-- Settles O57: the step is the slot, and the slot runs the instruction again, issues the bytes of CODE or of the fetch, or begins the fetch. -/
theorem stepRunsDecoded : Obligations.StepRunsDecoded := by
  unfold Obligations.StepRunsDecoded
  intro s ha hd act part hg hl hp h runs issues
  have slot := State.slot_eq act part hg hl hp
  have cycle {o : Out} (e : s.slot = o) : step s = endCycle o := by rw [step_eq_cycle ha hd, State.cycle_eq, e]
  have issue {bs : List Byte} (e : s.slot = s.issueBytes bs) : issues bs s :=
    ⟨fun i hi => cycle (e.trans (State.issueBytes_ok hi)), fun _ hx => cycle (e.trans (State.issueBytes_error hx))⟩
  have running (hr : h.st = .run) : s.slot = s.runSlot := by rw [slot, show s.hart.st = .run from hr]
  refine ⟨fun i hr hag hi => ?again, fun bs hr hag hpc hcell hf => ?code, fun hr hag hpc hf => ?fetch, fun hw hwk han hck => ?fetched⟩
  case again => exact cycle ((running hr).trans (State.runSlot_again hag hi))
  case code =>
    refine issue ((running hr).trans ((State.runSlot_fetch hag hpc).trans ?_))
    rw [hcell, hf]; rfl
  case fetch =>
    refine cycle (o := .next s.fetchWait) ((running hr).trans ((State.runSlot_fetch hag hpc).trans ?_))
    rcases hf with hf | hf
    · rw [hf]; rfl
    · rw [hf]; split <;> rfl
  case fetched =>
    refine issue (slot.trans ?_)
    rw [show s.hart.st = .wait .fetch from hw]
    exact State.fetchSlot_woken hwk han hck

end Sys2Proof.Machine

namespace Sys2Proof.Machine

/-! ## O34, O35: commands that enter an engine's queue (R24, R109, R228, R242) -/

/-- The checks of a command let it in where none of them fails. -/
theorem firstFail_eq_none {l : List (Bool × Cause × Word)} (h : ∀ x ∈ l, x.1 = false) : firstFail l = none := by
  induction l with
  | nil => rfl
  | cons x l ih =>
    obtain ⟨b, r⟩ := x
    obtain rfl : b = false := h _ (List.mem_cons_self ..)
    exact ih fun y hy => h y (List.mem_cons_of_mem _ hy)

theorem rangeChecks_pass {c : Cell} {a n align : Nat} {o : Word} (al : a % align = 0) (ha : a + n ≤ c.localSize) (ho : o.toNat % 16 = 0)
    (hf : o.toNat + 16 ≤ c.localSize) : ∀ x ∈ rangeChecks c a n align o, x.1 = false := by
  simp only [rangeChecks, List.forall_mem_cons, List.not_mem_nil, false_implies, implies_true, and_true]
  simp [al, ho, ha, hf]

theorem tileCheck_pass {c : Cell} {t : Word} (hb : 1 ≤ c.count 5) (ht : tileOff t + 16 * tileRows t ≤ 4096 * c.count 5) :
    (tileCheck c t).1 = false := by
  simp [tileCheck, Cell.matSize, Nat.not_lt.2 ht, show c.count 5 ≠ 0 by omega]

section
variable {s p : State} {no o n : Nat}

/-- An instruction that completes with an expectation on an object: its hart's registers stay, and the object is stored. -/
theorem expect_finish (hc : p.cur = .cell no) (hr : p.hart.st = .run) (fits : o + 16 ≤ p.cell.localSize) :
    ∃ t, (p.mapCell fun c => c.expect o n).finish = .next t ∧ HartKept p.hart t.hart ∧
      Stored p t o (expectWords n (p.cell.lword o) (p.cell.lword (o + 8))).1 (expectWords n (p.cell.lword o) (p.cell.lword (o + 8))).2 := by
  have step : (p.mapCell fun c => c.expect o n) = p.mapCell fun c => c.lwrite o
      (objBytes (expectWords n (p.cell.lword o) (p.cell.lword (o + 8))).1 (expectWords n (p.cell.lword o) (p.cell.lword (o + 8))).2) :=
    congrArg (fun c => { p with cell := c }) (Cell.objStep_eq fits (expectWords n))
  rw [step, State.finish_eq, hart_lwrite hc hr]
  exact ⟨_, rfl, by rw [State.hart_setHart]; exact .complete _, object_stored hc _ _⟩

/-- The command of the issuing hart, at its entry (R109, R229). -/
def State.matEntry (s : State) (op : MatOp) : MatCmd :=
  ⟨s.cell.slot, op, s.cell.cycle, none, false, 0, false, 0, [], [], s.releases.1, s.releases.2⟩

/-- The matrix queue with the command in it, its hart's reservation used up. -/
def Cell.enterM (c : Cell) (q : MatCmd) : Cell := { c with mq := c.mq ++ [q], mresv := c.mresv.filter (· != q.slot) }

/-- The bytes that a command brings are expected of its object (R228). -/
def Cell.expects (c : Cell) : Option (Nat × Nat) → Cell
  | some (o, n) => c.expect o n
  | none => c

/-- A matrix command has entered: its hart goes on, and of the cell its queue alone is new, and where the command brings bytes, LOCAL. -/
def MatEntered (s : State) (op : MatOp) (u : State) : Prop :=
  HartKept s.hart u.hart ∧ u = { s with cell := u.cell } ∧
    u.cell = { s.cell with harts := u.cell.harts, loc := u.cell.loc, mq := u.cell.mq, mresv := u.cell.mresv } ∧
    u.cell.mq = s.cell.mq ++ [s.matEntry op] ∧ u.cell.mresv = s.cell.mresv.filter (· != s.cell.slot) ∧
    ∀ k, k ≠ s.cell.slot → u.cell.hart k = { s.cell.hart k with woken := (u.cell.hart k).woken }

variable {i : Instr} {ss : List Reg} {checks : List (Bool × Cause × Word)} {op : MatOp}

theorem State.not_queued (hr : s.hart.st = .run) (resv : List Slot) (closed : Bool) : s.queued resv closed = false := by
  simp [State.queued, Hart.waits, hr]

/-- A command that passes its checks enters a queue with an entry free. -/
theorem State.matIssue_eq (hc : s.cur = .cell no) (v : InView s ss []) (hr : s.hart.st = .run) (opened : s.cell.mclosed = false)
    (room : s.cell.mUsed < 2) (pass : ∀ x ∈ checks, x.1 = false) (expect : Option (Nat × Nat)) :
    s.matIssue i ss checks op expect = (s.mapCell fun c => (c.enterM (s.matEntry op)).expects expect).finish := by
  have cell : s.isCore = false := by simp [State.isCore, hc]
  have enters : s.cell.mayEnterM s.cell.slot = true := by simp [Cell.mayEnterM, opened, room]
  refine (State.cellOnly_cell cell).trans ((State.withRegs_inView v).trans ((if_neg (by simp [State.not_queued hr])).trans ?_))
  rw [firstFail_eq_none pass]
  refine (if_pos enters).trans ?_
  cases expect with
  | none => rfl
  | some e => simp only [State.mapCell, Cell.expects, Cell.enterM, State.matEntry]

/-- A command that brings nothing. -/
theorem matIssue_enters (hc : s.cur = .cell no) (v : InView s ss []) (hr : s.hart.st = .run) (opened : s.cell.mclosed = false)
    (room : s.cell.mUsed < 2) (pass : ∀ x ∈ checks, x.1 = false) :
    ∃ u, s.matIssue i ss checks op none = .next u ∧ MatEntered s op u ∧ u.cell.loc = s.cell.loc := by
  have hart : (s.mapCell fun c => c.enterM (s.matEntry op)).hart = s.hart := by
    rw [State.hart_cell hc]; exact State.hart_setCell hc rfl
  refine ⟨_, (State.matIssue_eq hc v hr opened room pass none).trans (State.finish_eq (s.mapCell fun c => c.enterM (s.matEntry op))), ?_,
    State.setHart_cell_loc _ _⟩
  rw [hart, State.mapCell, State.setHart_setCell hc (c := s.cell.enterM (s.matEntry op)) rfl]
  refine ⟨?_, rfl, rfl, rfl, rfl, fun k hk => ?_⟩
  · rw [State.hart_setCell hc (c := (s.cell.enterM (s.matEntry op)).setHart s.cell.slot s.hart.complete) rfl, Cell.hart_setHart]; exact .complete _
  · rw [Cell.hart_setHart_ne _ _ hk]; rfl

/-- A command that brings `n` bytes: they are expected of its object (R114, R228). -/
theorem matIssue_expects (hc : s.cur = .cell no) (v : InView s ss []) (hr : s.hart.st = .run) (opened : s.cell.mclosed = false)
    (room : s.cell.mUsed < 2) (fits : o + 16 ≤ s.cell.localSize) (pass : ∀ x ∈ checks, x.1 = false) :
    ∃ u, s.matIssue i ss checks op (some (o, n)) = .next u ∧ MatEntered s op u ∧ LocalKept s.cell u.cell o 16 ∧
      ObjectHolds s.cell u.cell o (expectWords n (s.cell.lword o) (s.cell.lword (o + 8))) := by
  have hart : (s.mapCell fun c => c.enterM (s.matEntry op)).hart = s.hart := by
    rw [State.hart_cell hc]; exact State.hart_setCell hc rfl
  obtain ⟨u, hu, kept, ⟨only, cell, others⟩, localKept, sb, holds⟩ :=
    expect_finish (p := s.mapCell fun c => c.enterM (s.matEntry op)) (n := n) hc (hart ▸ hr) fits
  refine ⟨u, (State.matIssue_eq hc v hr opened room pass _).trans hu, ⟨hart ▸ kept, only, ?_, ?_, ?_, others⟩, localKept, holds⟩
  · rw [sb] at cell; rw [cell]; rfl
  · rw [cell]; rfl
  · rw [cell]; rfl

end

theorem State.mstat_word {u lb sb na ow f g : Nat} (hu : u ≤ 2) (hl : lb < 2) (hs : sb < 2) (hn : na < 2) (ho : ow < 2) (hf : f < 64) :
    let v : Word := BitVec.ofNat 64 (u + 4 * lb + 8 * sb + 16 * na + 32 * ow + 2 ^ 16 * f + 2 ^ 24 * g)
    v.extractLsb' 0 2 = BitVec.ofNat 2 u ∧ (v.getLsbD 5 = decide (ow = 1)) ∧ (v.getLsbD 4 = decide (na = 1)) ∧
      v.extractLsb' 16 6 = BitVec.ofNat 6 f ∧ v.extractLsb' 24 6 = BitVec.ofNat 6 g := by
  have bit (n : Nat) (hn : n < 64) (x : Nat) : (BitVec.ofNat 64 x).getLsbD n = decide (x / 2 ^ n % 2 = 1) := by
    rw [BitVec.getLsbD_ofNat, decide_eq_true hn, Bool.true_and, Nat.testBit_eq_decide_div_mod_eq]
  refine ⟨BitVec.eq_of_toNat_eq ?_, ?_, ?_, BitVec.eq_of_toNat_eq ?_, BitVec.eq_of_toNat_eq ?_⟩
  · rw [fieldOf_extract, fieldOf, BitVec.toNat_ofNat, BitVec.toNat_ofNat]; omega
  · rw [bit 5 (by decide)]; simp only [decide_eq_decide]; omega
  · rw [bit 4 (by decide)]; simp only [decide_eq_decide]; omega
  · rw [fieldOf_extract, fieldOf, BitVec.toNat_ofNat, BitVec.toNat_ofNat]; omega
  · rw [fieldOf_extract, fieldOf, BitVec.toNat_ofNat, BitVec.toNat_ofNat]; omega

theorem fieldOf_lt (x : Word) (i n : Nat) : fieldOf x i n < 2 ^ n := Nat.mod_lt _ (Nat.two_pow_pos n)

theorem boolNat_lt (b : Bool) : boolNat b < 2 := by cases b <;> decide

theorem Cell.owns_iff {c : Cell} {k : Slot} : c.owns k = true ↔ ∃ q ∈ c.mq, q.slot = k := by simp [Cell.owns]

/-- Settles O34: the checks of each command pass by its operands' limits, and a queue with an entry free takes it. -/
theorem matrixCommands : Obligations.MatrixCommands := by
  unfold Obligations.MatrixCommands
  refine ⟨fun s d a b no hc v hr opened room banks => ?commands, fun s d no hc v => ?status⟩
  case commands =>
    intro h c o x t word object range tile enters
    simp only [InView, List.all_cons, List.all_nil, Bool.and_true, Bool.and_eq_true] at v
    obtain ⟨⟨hd, ha, hb⟩, -⟩ := v
    have brings {i : Instr} {ss : List Reg} {checks : List (Bool × Cause × Word)} {op : MatOp} {n : Nat} (view : ss.all s.hart.sOk = true)
        (e : exec i s = s.matIssue i ss checks op (some (o, n))) (fits : object) (pass : ∀ x ∈ checks, x.1 = false) : enters i op (some n) := by
      obtain ⟨u, hu, ⟨kept, only, cell, queue, resv, others⟩, loc, holds⟩ := matIssue_expects (i := i) (op := op) (n := n) hc ⟨view, rfl⟩ hr opened room fits.2 pass
      exact ⟨u, e.trans hu, kept, only, cell, queue, resv, others, loc, holds⟩
    have plain {i : Instr} {ss : List Reg} {checks : List (Bool × Cause × Word)} {op : MatOp} (view : ss.all s.hart.sOk = true)
        (e : exec i s = s.matIssue i ss checks op none) (pass : ∀ x ∈ checks, x.1 = false) : enters i op none := by
      obtain ⟨u, hu, ⟨kept, only, cell, queue, resv, others⟩, loc⟩ := matIssue_enters (i := i) (op := op) hc ⟨view, rfl⟩ hr opened room pass
      exact ⟨u, e.trans hu, kept, only, cell, queue, resv, others, loc⟩
    have hbank : (s.cell.count 5 == 0) = false := beq_eq_false_iff_ne.2 (by omega)
    refine ⟨fun obj al => ?mlds, ?mswp, fun obj hx ht al => ?mstr, fun ht => ?macz, fun obj hx ht al => ?macrd, fun hw => ?mfmt⟩
    case mlds =>
      refine brings (ss := [d, a]) (by simp [hd, ha]) rfl obj fun y hy => ?_
      rcases List.mem_append.1 hy with hy | hy
      · exact rangeChecks_pass al.1 al.2 obj.1 obj.2 y hy
      · rw [List.mem_singleton.1 hy]; exact hbank
    case mswp => exact plain (ss := []) rfl rfl fun y hy => by rw [List.mem_singleton.1 hy]; exact hbank
    case mstr =>
      have hsrc : fieldOf x 0 17 = x.toNat := by rw [fieldOf_zero]; exact Nat.mod_eq_of_lt hx
      have high : fieldOf x 17 47 = 0 := by rw [fieldOf, Nat.div_eq_of_lt hx, Nat.zero_mod]
      rw [← hsrc]
      refine brings (ss := [d, a, b]) (by simp [hd, ha, hb]) rfl obj (List.forall_mem_append.2 ⟨List.forall_mem_append.2 ⟨?_, ?_⟩, ?_⟩)
      · simp only [List.forall_mem_cons, List.not_mem_nil, false_implies, implies_true, and_true]
        exact ⟨by simpa [x] using high, by simpa [t] using ht.1⟩
      · exact rangeChecks_pass (hsrc ▸ al.1) (hsrc ▸ al.2) obj.1 obj.2
      · exact List.forall_mem_singleton.2 (tileCheck_pass banks ht.2)
    case macz =>
      refine plain (ss := [a]) (by simp [ha]) rfl ?_
      simp only [List.forall_mem_cons, List.not_mem_nil, false_implies, implies_true, and_true]
      exact ⟨by simpa [x] using ht.1, tileCheck_pass banks ht.2⟩
    case macrd =>
      refine brings (ss := [d, a, b]) (by simp [hd, ha, hb]) rfl obj (List.forall_mem_append.2 ⟨List.forall_mem_append.2 ⟨?_, ?_⟩, ?_⟩)
      · simp only [List.forall_mem_cons, List.not_mem_nil, false_implies, implies_true, and_true]
        exact ⟨by simpa [x, t] using hx, by simpa [t] using ht.1⟩
      · exact rangeChecks_pass al.1 al.2 obj.1 obj.2
      · exact List.forall_mem_singleton.2 (tileCheck_pass banks ht.2)
    case mfmt => exact plain (ss := [a]) (by simp [ha]) rfl fun y hy => by rw [List.mem_singleton.1 hy]; simpa using hw
  case status =>
    intro mine
    have cell : s.isCore = false := by simp [State.isCore, hc]
    have own : s.cell.owns s.cell.slot = true ↔ mine := Cell.owns_iff
    refine ⟨fun hu => ⟨_, .of_writeS ((State.cellOnly_cell cell).trans (State.withRegs_inView v)), ?_⟩, fun h => ?_, fun h => ?_⟩
    · obtain ⟨used, owner, narrow, wide, act⟩ := State.mstat_word (g := fieldOf s.cell.fmtWord 8 6) hu (boolNat_lt s.cell.loadBusy)
        (boolNat_lt s.cell.streamBusy) (boolNat_lt s.cell.narrow) (boolNat_lt (s.cell.owns s.cell.slot)) (fieldOf_lt s.cell.fmtWord 0 6)
      refine ⟨used, ?_, ?_, wide.trans ?_, act.trans ?_⟩
      · rw [owner, ← own]; cases s.cell.owns s.cell.slot <;> decide
      · rw [narrow]; cases s.cell.narrow <;> rfl
      · exact BitVec.eq_of_toNat_eq (by rw [fieldOf_extract, BitVec.toNat_ofNat]; exact Nat.mod_eq_of_lt (fieldOf_lt _ _ _))
      · exact BitVec.eq_of_toNat_eq (by rw [fieldOf_extract, BitVec.toNat_ofNat]; exact Nat.mod_eq_of_lt (fieldOf_lt _ _ _))
    · exact (State.cellOnly_cell cell).trans (if_neg (mt own.1 h))
    · exact (State.cellOnly_cell cell).trans (if_pos (own.2 h))

end Sys2Proof.Machine

namespace Sys2Proof.Machine

section
variable {s : State} {no o n : Nat} {i : Instr} {ss : List Reg} {op : CopyOp}

/-- The copy queue with the command in it, its hart's reservation used up. -/
def Cell.enterC (c : Cell) (q : CopyCmd) : Cell := { c with cq := c.cq ++ [q], cresv := c.cresv.filter (· != q.slot) }

/-- A copy command has entered with an expectation of `n` bytes on its object: its hart goes on, and of the cell its queue and LOCAL alone are new. -/
def CopyEntered (s : State) (op : CopyOp) (o n : Nat) (u : State) : Prop :=
  HartKept s.hart u.hart ∧ u = { s with cell := u.cell, cmdNo := s.cmdNo + 1 } ∧
    u.cell = { s.cell with harts := u.cell.harts, loc := u.cell.loc, cq := u.cell.cq, cresv := u.cell.cresv } ∧
    u.cell.cq = s.cell.cq ++ [s.copyCmd op o] ∧ u.cell.cresv = s.cell.cresv.filter (· != s.cell.slot) ∧
    (∀ k, k ≠ s.cell.slot → u.cell.hart k = { s.cell.hart k with woken := (u.cell.hart k).woken }) ∧ LocalKept s.cell u.cell o 16 ∧
    ObjectHolds s.cell u.cell o (expectWords n (s.cell.lword o) (s.cell.lword (o + 8)))

/-- A command of a hart outside REPLAY that passes its checks enters a queue with an entry free. -/
theorem State.copyIssue_enters {checks : List Byte → List (Bool × Cause × Word)} {read : List Byte} {inReplay : List Byte → Bool}
    {op : List Byte → CopyOp} {obj : Word} {total : List Byte → Nat} (hc : s.cur = .cell no) (v : InView s ss []) (hr : s.hart.st = .run)
    (opened : s.cell.cclosed = false) (room : s.cell.cUsed < 2) (direct : Direct s.hart) (fits : obj.toNat + 16 ≤ s.cell.localSize)
    (pass : ∀ x ∈ checks read, x.1 = false) :
    ∃ u, s.copyIssue i ss checks read inReplay op obj total = .next u ∧ CopyEntered s (op read) obj.toNat (total read) u := by
  have cell : s.isCore = false := by simp [State.isCore, hc]
  have enters : s.cell.mayEnterC s.cell.slot = true := by simp [Cell.mayEnterC, opened, room]
  have waits : s.hart.waits .queue = false := by simp [Hart.waits, hr]
  let q := s.copyCmd (op read) obj.toNat
  let p : State := { s with cmdNo := s.cmdNo + 1, cell := s.cell.enterC q }
  have hart : p.hart = s.hart := by rw [State.hart_cell hc, State.hart_cell (s := p) hc]; rfl
  obtain ⟨u, hu, kept, ⟨only, cell', others⟩, localKept, sb, holds⟩ :=
    expect_finish (p := p) (n := total read) hc (hart ▸ hr) fits
  refine ⟨u, ?_, hart ▸ kept, only, ?_, ?_, ?_, others, localKept, holds⟩
  · refine (State.cellOnly_cell cell).trans ((State.withRegs_inView v).trans ((if_neg (by simp [State.not_queued hr])).trans ?_))
    dsimp only
    rw [waits, if_neg Bool.false_ne_true, firstFail_eq_none pass]
    dsimp only
    rw [if_neg (by simp [show s.hart.replay = false from direct]), if_pos enters]
    exact hu
  · rw [sb] at cell'; rw [cell']; rfl
  · rw [cell']; rfl
  · rw [cell']; rfl

end

/-- Settles O35: the checks pass by the operands' limits, and a queue with an entry free takes the command. -/
theorem copyCommands : Obligations.CopyCommands := by
  unfold Obligations.CopyCommands
  intro s f d a b no hc v hr opened room direct h c o x w word al fits enters
  have entry {i : Instr} {checks : List Byte → List (Bool × Cause × Word)} {read : List Byte} {inReplay : List Byte → Bool}
      {op : List Byte → CopyOp} {total : List Byte → Nat}
      (e : exec i s = s.copyIssue i [d, a, b] checks read inReplay op (h.S d) total) (pass : ∀ x ∈ checks read, x.1 = false) :
      enters i (op read) (total read) := by
    obtain ⟨u, hu, kept, only, cell, queue, resv, others, loc, holds⟩ :=
      State.copyIssue_enters (i := i) (inReplay := inReplay) (op := op) (total := total) hc v hr opened room direct fits pass
    exact ⟨u, e.trans hu, kept, only, cell, ⟨_, queue, rfl, rfl, rfl, rfl, rfl, rfl, rfl, rfl, rfl, rfl, rfl, rfl⟩, resv, others, loc, holds⟩
  refine ⟨fun ax fx legal targets => ?tcopy, fun al' fl f1 f2 one => ?pack⟩
  case tcopy =>
    have e : exec (.tcopy d a b) s = execTcopy d a b s := rfl
    unfold execTcopy at e
    refine entry e ?_
    have unless_kind {p : Bool} (h : (tileOf (leWords (s.cell.loc.read x.toNat 64))).kind = 2 → p = false) :
        ((tileOf (leWords (s.cell.loc.read x.toNat 64))).kind == 2 && p) = false := by
      rw [Bool.and_eq_false_imp]
      exact fun k => h (beq_iff_eq.1 k)
    simp only [List.forall_mem_cons, List.not_mem_nil, false_implies, implies_true, and_true]
    refine ⟨by simpa using ax, by simpa using al, by simpa using fx, by simpa using fits, ?_, ?_, ?_⟩
    · exact congrArg (!·) legal
    · exact unless_kind fun k => by simpa using (targets k).1
    · exact unless_kind fun k => congrArg (!·) (targets k).2
  case pack =>
    have pass : ∀ y ∈ [(o % 16 != 0, Cause.misaligned, h.S d), (packLoc w % 32 != 0, .misaligned, BitVec.ofNat 64 (packLoc w)),
       (decide (s.cell.localSize < o + 16), .access, h.S d),
       (packCount w != 0 && decide (s.cell.localSize < packLoc w + 32 * packCount w), .access, BitVec.ofNat 64 (packLoc w)),
       (fieldOf w 17 15 != 0 || fieldOf w 48 16 != 0 || packCount w == 0, .engine, w)], y.1 = false := by
      simp only [List.forall_mem_cons, List.not_mem_nil, false_implies, implies_true, and_true]
      refine ⟨by simpa using al, by simpa [packLoc] using al', by simpa using fits, ?_, ?_⟩
      · simp only [Bool.and_eq_false_imp, decide_eq_false_iff_not]
        exact fun _ => Nat.not_lt.2 fl
      · simp [packCount, f1, f2]
        omega
    have e : exec (.tpack f d a b) s = packIssue (.tpack f d a b) false f d a b s := rfl
    have k : exec (.tunpk f d a b) s = packIssue (.tunpk f d a b) true f d a b s := rfl
    unfold packIssue at e k
    exact ⟨entry e pass, entry k pass⟩

end Sys2Proof.Machine

namespace Sys2Proof.Machine

/-! ## Cells read back after one of them is put -/

section
variable {s : State} {c : Cell} {n : Nat}

@[simp] theorem State.restCell_putCell (c : Cell) (n : Nat) : (s.putCell c).restCell n = s.restCell n := by
  simp [State.restCell, State.railAt, State.dieAt]

theorem State.cellAt_putCell (s : State) (c : Cell) : (s.putCell c).cellAt c.no = c := by
  unfold State.putCell
  split
  · simp [State.cellAt]
  · simp [State.cellAt, *, assocGet_assocSet]

theorem State.cellAt_putCell_ne (h : n ≠ c.no) : (s.putCell c).cellAt n = s.cellAt n := by
  have rest : (s.putCell c).restCell n = s.restCell n := State.restCell_putCell c n
  unfold State.putCell at rest ⊢
  split at rest
  · rename_i e
    rw [if_pos e]
    simp only [State.cellAt, rest, if_neg h, if_neg (e ▸ h)]
  · rename_i e
    rw [if_neg e]
    simp only [State.cellAt, rest, assocGet_assocSet_ne _ _ h]

/-- A cell put is the only cell that is new. -/
theorem cellSet_putCell (s : State) (c : Cell) : CellSet s (s.putCell c) c :=
  ⟨s.cellAt_putCell c, fun _ => State.cellAt_putCell_ne⟩

end

/-! ## The queues of the engines: entries handed out (R24) -/

/-- What handing out entries may change of a cell: who waits, who holds an entry, and which waits have ended. -/
structure Dealt (c e : Cell) : Prop where
  cell : e = { c with harts := e.harts, mwait := e.mwait, mresv := e.mresv, cwait := e.cwait, cresv := e.cresv }
  hart : ∀ k, e.hart k = { c.hart k with woken := (e.hart k).woken }

namespace Dealt
variable {c e f : Cell}

theorem refl (c : Cell) : Dealt c c := ⟨rfl, fun _ => rfl⟩

theorem trans (h : Dealt c e) (k : Dealt e f) : Dealt c f :=
  ⟨by rw [k.cell, h.cell], fun j => by rw [k.hart j, h.hart j]⟩

theorem of_hart {k : Slot} (h : e = { c with mwait := e.mwait, mresv := e.mresv, cwait := e.cwait, cresv := e.cresv }) : Dealt c (e.wake k) := by
  refine ⟨by rw [h]; rfl, fun j => ?_⟩
  have hart : e.hart j = c.hart j := by rw [h]; rfl
  by_cases hj : j = k
  · subst hj; rw [Cell.wake, Cell.hart_setHart, hart]
  · rw [Cell.wake, Cell.hart_setHart_ne _ _ hj, hart]

theorem reserveM (c : Cell) : Dealt c c.reserveM := by
  unfold Cell.reserveM
  split
  · exact .refl c
  · split
    exacts [.refl c, .of_hart rfl]

theorem reserveC (c : Cell) : Dealt c c.reserveC := by
  unfold Cell.reserveC
  split
  · exact .refl c
  · split
    exacts [.refl c, .of_hart rfl]

theorem serveQueues (c : Cell) : Dealt c c.serveQueues :=
  (reserveM c).trans ((reserveM _).trans ((reserveC _).trans (reserveC _)))

end Dealt
end Sys2Proof.Machine

namespace Sys2Proof.Machine

/-! ## O46: re-division (R45 to R49) -/

/-- The cell as a re-division leaves it: the queues open, their entries handed out, and the code with the hart that still asks. -/
def Cell.afterRediv (c : Cell) (r : Rediv) (code : Nat) : Cell := { c with rediv := none }.reopen.poolAnswer r.slot r.ticket code

theorem Cell.poolAnswer_eq (c : Cell) (k : Slot) (ticket code : Nat) :
    c.poolAnswer k ticket code = { c with harts := (c.poolAnswer k ticket code).harts } := by
  unfold Cell.poolAnswer
  split <;> rfl

/-- Of the cell, a re-division that ends leaves all but its queues and its harts. -/
theorem Cell.afterRediv_eq (c : Cell) (r : Rediv) (code : Nat) : ∃ mw mr cw cr hs, c.afterRediv r code =
    { c with rediv := none, mclosed := false, cclosed := false, mwait := mw, mresv := mr, cwait := cw, cresv := cr, harts := hs } := by
  have dealt := Dealt.serveQueues { c with rediv := none, mclosed := false, cclosed := false }
  exact ⟨_, _, _, _, _, (Cell.poolAnswer_eq _ _ _ _).trans (by rw [Cell.reopen, dealt.cell])⟩

/-- The hart that asks for the code of its `pool` has it. -/
theorem Cell.afterRediv_answers (c : Cell) (r : Rediv) (code : Nat) (h : (c.hart r.slot).asksPool r.ticket = true) :
    ((c.afterRediv r code).hart r.slot).req = .answered (BitVec.ofNat 64 code) := by
  have dealt := (Dealt.serveQueues { c with rediv := none, mclosed := false, cclosed := false }).hart r.slot
  have asks : ({ c with rediv := none }.reopen.hart r.slot).asksPool r.ticket = true := by
    rw [Cell.reopen, dealt]
    exact h
  rw [Cell.afterRediv, Cell.poolAnswer, if_pos asks, Cell.hart_setHart]

/-- With no other `pool` waiting, the cell that a re-division leaves is put. -/
theorem State.endRediv_eq (s : State) {c : Cell} {r : Rediv} {code : Nat} (hq : c.redivQ = []) : s.endRediv c r code = s.putCell (c.afterRediv r code) := by
  obtain ⟨_, _, _, _, _, h⟩ := c.afterRediv_eq r code
  have none : (c.afterRediv r code).redivQ = [] := by rw [h]; exact hq
  rw [State.endRediv, ← Cell.afterRediv, State.nextRediv, none]
  rfl

/-- A step that ends a re-division with a code, said of the cell as it leaves it. -/
theorem endRediv_ends {s : State} {n : Nat} {c : Cell} {i : Instr} {r : Rediv} {code : Nat} {p : Cell → Prop} (hn : c.no = n) (hq : c.redivQ = [])
    (hi : exec i s = .next (s.endRediv c r code)) (hh : (c.hart r.slot).asksPool r.ticket = ((s.cellAt n).hart r.slot).asksPool r.ticket)
    (hp : ∀ mw mr cw cr hs, p { c with rediv := none, mclosed := false, cclosed := false, mwait := mw, mresv := mr, cwait := cw, cresv := cr, harts := hs }) :
    ∃ t, exec i s = .next t ∧ t.mem = s.mem ∧ (t.cellAt n).rediv = none ∧
      (((s.cellAt n).hart r.slot).asksPool r.ticket = true → ((t.cellAt n).hart r.slot).req = .answered (BitVec.ofNat 64 code)) ∧ p (t.cellAt n) := by
  obtain ⟨mw, mr, cw, cr, hs, h⟩ := c.afterRediv_eq r code
  have no : (c.afterRediv r code).no = n := by rw [h]; exact hn
  have at_ : (s.putCell (c.afterRediv r code)).cellAt n = c.afterRediv r code := no ▸ s.cellAt_putCell _
  refine ⟨_, hi.trans (congrArg _ (s.endRediv_eq hq)), State.putCell_mem s _, ?_, fun a => ?_, ?_⟩
  · rw [at_, h]
  · rw [at_]; exact c.afterRediv_answers r code (hh ▸ a)
  · rw [at_, h]; exact hp ..

/-! ## The bank map after a switch that takes banks from FREE -/

theorem Cell.banks_setBank (c : Cell) {b : Nat} (hb : b < 32) (r i a : Nat) :
    (c.setBank b r i).banks.toList.getD a 0 = if a = b then BitVec.ofNat 8 (r + 8 * i) else c.banks.toList.getD a 0 := by
  rw [Cell.setBank, dif_pos hb]
  simp only [Vector.toList_set, List.getD_eq_getElem?_getD, List.getElem?_set]
  by_cases h : b = a
  · subst h; simp [hb]
  · simp [h, Ne.symm h]

theorem Cell.raiseHigh_banks (c : Cell) : c.raiseHigh.banks = c.banks := by
  unfold Cell.raiseHigh
  generalize List.foldl _ _ _ = w
  rfl

/-- Banks that are not in a list keep their entries where the list's are set. -/
theorem Cell.banks_foldl_other {r b : Nat} {g : Nat × Nat → Nat} (ps : List (Nat × Nat)) : ∀ (c : Cell), (∀ p ∈ ps, p.1 < 32) → (∀ p ∈ ps, p.1 ≠ b) →
    (ps.foldl (fun d p => d.setBank p.1 r (g p)) c).banks.toList.getD b 0 = c.banks.toList.getD b 0 := by
  induction ps with
  | nil => exact fun _ _ _ => rfl
  | cons p ps ih =>
    intro c hb hn
    rw [List.foldl_cons, ih _ (fun q hq => hb q (List.mem_cons_of_mem _ hq)) (fun q hq => hn q (List.mem_cons_of_mem _ hq)),
      Cell.banks_setBank _ (hb p List.mem_cons_self), if_neg (hn p List.mem_cons_self).symm]

/-- Each bank of a list without repetition has the entry it is set to. -/
theorem Cell.banks_foldl_mem {r : Nat} {g : Nat × Nat → Nat} (ps : List (Nat × Nat)) : ∀ (c : Cell), (∀ p ∈ ps, p.1 < 32) → (ps.map Prod.fst).Nodup →
    ∀ q ∈ ps, (ps.foldl (fun d p => d.setBank p.1 r (g p)) c).banks.toList.getD q.1 0 = BitVec.ofNat 8 (r + 8 * g q) := by
  induction ps with
  | nil => simp
  | cons p ps ih =>
    intro c hb hn q hq
    have hb' : ∀ p ∈ ps, p.1 < 32 := fun x hx => hb x (List.mem_cons_of_mem _ hx)
    obtain ⟨fresh, rest⟩ := List.nodup_cons.1 hn
    rw [List.foldl_cons]
    rcases List.mem_cons.1 hq with rfl | hq
    · rw [Cell.banks_foldl_other ps _ hb' fun x hx e => fresh (by rw [← e]; exact List.mem_map_of_mem hx), Cell.banks_setBank _ (hb q List.mem_cons_self), if_pos rfl]
    · exact ih _ hb' rest q hq

/-- A switch that takes banks from FREE and moves nothing: the banks taken have the next indices of their role, and the others keep theirs. -/
theorem Cell.switchBanks_banks {c : Cell} {r : Rediv} (hs : r.src = 0) (hd : r.dst ≠ 0) (hm : r.moves = []) (hn : r.take.Nodup) (hb : ∀ b ∈ r.take, b < 32) :
    (∀ b, b ∉ r.take → (c.switchBanks r).banks.toList.getD b 0 = c.banks.toList.getD b 0) ∧
      ∀ j b, r.take[j]? = some b → (c.switchBanks r).banks.toList.getD b 0 = BitVec.ofNat 8 (r.dst + 8 * (c.count r.dst + j)) := by
  have banks : (c.switchBanks r).banks =
      ((r.take.zip (List.range r.take.length)).foldl (fun d p => d.setBank p.1 r.dst (if r.dst = 0 then 0 else c.count r.dst + p.2)) c).banks := by
    simp only [Cell.switchBanks, Cell.raiseHigh_banks, hs, hm, Cell.top, if_pos, List.foldl_nil]
  have first : (r.take.zip (List.range r.take.length)).map Prod.fst = r.take := List.map_fst_zip (by simp)
  have small : ∀ p ∈ r.take.zip (List.range r.take.length), p.1 < 32 := fun p hp => hb _ (first ▸ List.mem_map_of_mem hp)
  rw [banks]
  refine ⟨fun b h => Cell.banks_foldl_other _ c small fun p hp e => h (e ▸ first ▸ List.mem_map_of_mem hp), fun j b h => ?_⟩
  have mem : (b, j) ∈ r.take.zip (List.range r.take.length) := by
    obtain ⟨hj, rfl⟩ := List.getElem?_eq_some_iff.1 h
    exact List.mem_iff_getElem.2 ⟨j, by simpa using hj, by simp⟩
  rw [Cell.banks_foldl_mem _ c small (first.symm ▸ hn) _ mem, if_neg hd]

/-- Only its banks are other than the cell's. -/
def Cell.Rebanked (c d : Cell) : Prop := d = { c with banks := d.banks }

theorem Cell.Rebanked.setBank {c d : Cell} (h : c.Rebanked d) (b r i : Nat) : c.Rebanked (d.setBank b r i) := by
  unfold Cell.setBank
  split
  · rw [Cell.Rebanked, h]
  · exact h

theorem Cell.Rebanked.foldl {c d : Cell} (h : c.Rebanked d) {l : List Nat} {r i : Nat → Nat} : c.Rebanked (l.foldl (fun d b => d.setBank b (r b) (i b)) d) :=
  foldl_keeps h fun _ _ k => k.setBank _ _ _

theorem Cell.Rebanked.foldlPair {c d : Cell} (h : c.Rebanked d) {l : List (Nat × Nat)} {b r i : Nat × Nat → Nat} :
    c.Rebanked (l.foldl (fun d p => d.setBank (b p) (r p) (i p)) d) :=
  foldl_keeps h fun _ _ k => k.setBank _ _ _

/-- A switch whose source is not LOCAL leaves the cell's number, its waiting `pool`s and its harts. -/
theorem Cell.switchBanks_keeps (c : Cell) {r : Rediv} (hs : r.src ≠ 3) : (c.switchBanks r).no = c.no ∧ (c.switchBanks r).redivQ = c.redivQ ∧
    (c.switchBanks r).harts = c.harts := by
  have h : c.Rebanked _ := (((show c.Rebanked c from rfl).foldl (l := c.top r.src r.m) (r := fun _ => 0) (i := fun _ => 0)).foldlPair (l := r.moves)
    (b := Prod.snd) (r := fun _ => 3) (i := fun p => c.bankIndex p.1)).foldlPair (l := r.take.zip (List.range r.take.length))
    (b := Prod.fst) (r := fun _ => r.dst) (i := fun p => if r.dst = 0 then 0 else c.count r.dst + p.2)
  unfold Cell.switchBanks
  dsimp only
  rw [h, if_neg hs]
  unfold Cell.raiseHigh
  generalize List.foldl _ _ _ = w
  exact ⟨rfl, rfl, rfl⟩

/-! ## The wheel (R27, R28, R405) -/

theorem Hart.raiseIp_bit (h : Hart) : (h.raiseIp .s 2).ts.ip.getLsbD 2 = true := by
  simp [Hart.raiseIp, Hart.setBlock, Hart.block]

theorem Cell.giveNotice_eq {c : Cell} (h : c.notice = true) : c.giveNotice = { c.setHart 0 ((c.hart 0).raiseIp .s 2) with notice := false } := if_pos h

/-- A step that puts a cell. -/
theorem sets_of_putCell {s : State} {i : Instr} {f : Cell} (h : exec i s = .next (s.putCell f)) : ∃ t, exec i s = .next t ∧ CellSet s t f ∧ t.mem = s.mem :=
  ⟨_, h, cellSet_putCell s f, State.putCell_mem s f⟩

/-- An event that comes about is what its unit does. -/
theorem next_getD {s : State} {o : Option State} {t : State} (h : o = some t) : (.next (o.getD s) : Out) = .next t := by rw [h]; rfl

/-- Settles O46: each unit of the cell by the condition of its guard; a re-division that ends by the cell it leaves. -/
theorem poolEvents : Obligations.PoolEvents := by
  unfold Obligations.PoolEvents
  intro s c hn e sets ends
  have no : e.no = c := hn.cellAt_no c
  refine ⟨fun r hr => ⟨fun hp hd => ?handshake, fun hp hs hq hb hw => ?timeout, fun g hp hc hf => ?relocation, fun hp hc hb hw => ?switch⟩,
    fun hc hd => ?divider, fun hc hd => ?cap, fun h => ?notice⟩
  case handshake =>
    have shakes : s.poolHandshake c = if r.moves.isEmpty then some (s.putCell { e with rediv := some { r with phase := r.afterMoves } })
        else some (s.putCell { e with rediv := some { r with phase := .relocate 0 }, cclosed := true }) := by
      unfold State.poolHandshake
      dsimp only
      rw [show (s.cellAt c).rediv = some r from hr]
      exact if_pos (by simp [hp]; exact hd)
    refine ⟨fun hm => sets_of_putCell (next_getD (shakes.trans (if_pos (by simp [hm])))), fun hm => sets_of_putCell (next_getD (shakes.trans (if_neg (by simpa using hm))))⟩
  case timeout =>
    have out : s.matTimeout c = some (s.endRediv e r 4) := by
      unfold State.matTimeout
      dsimp only
      rw [show (s.cellAt c).rediv = some r from hr]
      exact if_pos (by simp [hp, hs]; exact ⟨hq, hb⟩)
    exact endRediv_ends (i := .matDrainTimeout c) (p := fun f => f.banks = e.banks ∧ f.mclosed = false) no hw (next_getD out) rfl
      fun _ _ _ _ _ => ⟨rfl, rfl⟩
  case relocation =>
    refine sets_of_putCell (next_getD ?_)
    unfold State.relocate
    dsimp only
    rw [show (s.cellAt c).rediv = some r from hr]
    dsimp only
    rw [hp]
    exact if_neg (by simp; exact ⟨hc, hf⟩)
  case switch =>
    have switches : s.poolSwitch c = some (if s.accept e r.src r.dst r.m = 0 then s.endRediv (e.switchBanks r) r 0
        else s.endRediv e r (s.accept e r.src r.dst r.m)) := by
      unfold State.poolSwitch
      dsimp only
      rw [show (s.cellAt c).rediv = some r from hr]
      exact if_pos (by simp [hp]; exact ⟨hc, hb⟩)
    refine ⟨fun ha => ?refused, fun ha hs hd hm htake hlt => ?done⟩
    case refused =>
      exact endRediv_ends (i := .poolSwitch c) (p := fun f => f.banks = e.banks ∧ f.loc = e.loc) no hw
        (next_getD (switches.trans (congrArg some (if_neg ha)))) rfl fun _ _ _ _ _ => ⟨rfl, rfl⟩
    case done =>
      obtain ⟨other, taken⟩ := Cell.switchBanks_banks (c := e) hs hd hm htake hlt
      obtain ⟨no', queue, harts⟩ := e.switchBanks_keeps (r := r) (by rw [hs]; decide)
      refine endRediv_ends (i := .poolSwitch c) (p := fun f => ∀ b, b < 32 → (b ∉ r.take → f.banks.toList.getD b 0 = e.banks.toList.getD b 0) ∧
          ∀ j, r.take[j]? = some b → f.banks.toList.getD b 0 = BitVec.ofNat 8 (r.dst + 8 * (e.count r.dst + j)))
        (no'.trans no) (queue.trans hw) (next_getD (switches.trans (congrArg some (if_pos ha)))) ?_
        fun _ _ _ _ _ b _ => ⟨other b, fun j => taken j b⟩
      rw [Cell.hart, harts]; rfl
  case divider =>
    refine sets_of_putCell (next_getD (if_pos ?_))
    simp only [Bool.and_eq_true, decide_eq_true_eq, Bool.or_eq_true, Option.isSome_iff_ne_none, bne_iff_ne]
    exact ⟨hc, hd⟩
  case cap =>
    refine ⟨_, next_getD (if_pos (by simp; exact ⟨hc, hd⟩)), State.putCell_mem s _, ?_⟩
    have at_ : (s.putCell (s.capped e)).cellAt c = s.capped e := no ▸ s.cellAt_putCell _
    refine ⟨?_, fun d hd => State.cellAt_putCell_ne (no.symm ▸ hd), fun k => ?_, fun ⟨k, hk, hr, hp⟩ => ?_⟩
    all_goals rw [at_]
    · rfl
    · simp [State.capped, Cell.hart]
    · have fresh : ((List.finRange 16).any fun k => decide (k.val < e.nres) && (s.removedSlots e).getLsbD k.val && !(e.hart k).paused) = true :=
        List.any_eq_true.2 ⟨k, List.mem_finRange k, by simp [hk, hr, hp]⟩
      exact (congrArg (e.notice || ·) fresh).trans (Bool.or_true _)
  case notice =>
    rw [Cell.giveNotice_eq h]
    exact ⟨(congrArg (fun g : Hart => g.ts.ip.getLsbD 2) (Cell.hart_setHart e 0 _)).trans (Hart.raiseIp_bit _), rfl⟩

end Sys2Proof.Machine

namespace Sys2Proof.Machine

/-! ## O51: the controller steps the clock as a window's results act (R407) -/

/-- A change of the ceiling moves the rail to the point that it then allows, whether or not that is a new one. -/
theorem Rail.retarget_goal (x : Rail) (clamp : Nat × Nat) (tick : Nat) : (x.retarget clamp tick).goal = x.goalFor clamp := by
  unfold Rail.retarget
  split
  · exact Eq.symm ‹_›
  · rfl

/-- A change of the ceiling does not make another rail of it. -/
theorem Rail.retarget_key (x : Rail) (clamp : Nat × Nat) (tick : Nat) :
    (x.retarget clamp tick).die = x.die ∧ (x.retarget clamp tick).rail = x.rail := by
  unfold Rail.retarget
  split
  · exact ⟨rfl, rfl⟩
  · unfold Rail.toward Rail.turnClock
    exact ⟨rfl, rfl⟩

/-- 1,024 alarms in the last windows lower the ceiling by 2 (R407). -/
theorem Rail.autoStep_alarms {x : Rail} (ha : x.auto_ = true) (hb : x.busy = false) (hr : 1024 ≤ (x.window.filter id).length) (clamp : Nat × Nat)
    (tick : Nat) : x.autoStep clamp tick = { x with amax := max (x.mown - 2) 8 }.retarget clamp tick := by
  unfold Rail.autoStep
  rw [ha, hb]
  exact if_pos hr

/-- A rail as the module's reset leaves it, but for a controller that has raised its alarm in 1,024 of its last windows and holds the results of one
more, above the threshold and due. -/
def alarmedRail : Rail := { Rail.reset 0 0 with rthr := 0, pend := some (0, 1, 0), window := List.replicate 1024 true }

def alarmedState : State := { State.reset with rails := [alarmedRail] }

theorem alarmedState_railAt : alarmedState.railAt 0 0 = alarmedRail := rfl

theorem alarmedState_numbered : Numbered alarmedState := canonical_reset.1

/-- As the window's results act, the rail leaves clock step 90 for 88 or less. -/
theorem alarmedState_steps {t : State} (h : exec (.currentWindow 0 0 0) alarmedState = .next t) : (t.railAt 0 0).goal.2 ≤ 88 := by
  have acts : exec (.currentWindow 0 0 0) alarmedState = .next (alarmedState.putRail
      (({ alarmedRail with pend := none }.windowEnd 1 0).autoStep (alarmedState.clampOf 0 0) alarmedState.tbase)) := rfl
  obtain rfl := Host.Outcome.next.inj (acts.symm.trans h)
  have raised : 1024 ≤ (({ alarmedRail with pend := none }.windowEnd 1 0).window.filter id).length := by
    show 1024 ≤ ((true :: (List.replicate 1024 true).take 4095).filter id).length
    rw [List.take_replicate, List.filter_cons_of_pos rfl, List.filter_replicate_of_pos rfl, List.length_cons, List.length_replicate]
    decide
  rw [Rail.autoStep_alarms (by rfl) (by rfl) raised, State.railAt_putRail, Rail.retarget_goal]
  · exact Nat.le_trans (Nat.min_le_left _ _) (Nat.min_le_right _ _)
  · exact (Rail.retarget_key _ _ _).1.trans rfl
  · exact (Rail.retarget_key _ _ _).2.trans rfl

/-- Refutes O51: the results of a window act on the point of the rail too. Where a controller that may step the clock has seen 1,024 alarms, the same event
lowers its ceiling and begins the change, so the goal is not what it was. -/
theorem not_powerEvents : ¬ Obligations.PowerEvents := by
  unfold Obligations.PowerEvents
  intro h
  obtain ⟨-, -, -, -, acts, -⟩ := h alarmedState 0 0 alarmedState_numbered
  obtain ⟨t, ht, -, -, -, -, same, -⟩ := acts 0 1 0 0 rfl (Nat.zero_le _)
  have goal : (t.railAt 0 0).goal = alarmedRail.goal := congrArg (fun p : Word × Nat × Nat × (Nat × Nat) × Nat => p.2.2.2.1) same
  have low := alarmedState_steps ht
  rw [goal] at low
  exact absurd low (by decide)

end Sys2Proof.Machine

namespace Sys2Proof.Machine

/-! ## O26: a Headstock hart's load of a device register looks at the answers it holds (R337) -/

/-- The load of the device register at `deviceBase` through window B, its address written out in the operand. -/
def deviceLoad : Instr := .ld .x64 1 ⟨0, none, BitVec.ofNat 64 (6 * 2 ^ 52 + deviceBase)⟩

/-- A Headstock hart at level F that waits for its data and holds an answer for the register's line, a failure. -/
def failedReader : State :=
  let failed : Got := ⟨(6 * 2 ^ 52 + deviceBase) / 128, [], [], false, some .access⟩
  { State.reset with cur := .core 0, cores := [(0, { Hart.core 0 with st := .wait .data, got := [failed] })] }

/-- The load of the register takes the access failure of that answer as its own: the hart, which has no trap vector, stops. -/
theorem failedReader_stops : ∃ t, exec deviceLoad failedReader = .next t ∧ t.hart.stopped = true := by
  refine ⟨_, rfl, ?_⟩
  decide

/-- Refutes O26: a Headstock hart that waits for a device register has no miss under way, and yet may hold the answer of an earlier one: where an answer
for the register's own line is a failure, the load fails with it and its hart does not complete. -/
theorem not_loadsFromLines : ¬ Obligations.LoadsFromLines := by
  unfold Obligations.LoadsFromLines
  intro h
  obtain ⟨-, -, -, -, -, -, device⟩ := h.1 failedReader .x64 .x64 .w8 .cell 1 0 0 ⟨0, none, BitVec.ofNat 64 (6 * 2 ^ 52 + deviceBase)⟩ 0
  have reads := (device rfl (by decide) rfl (by decide) rfl (by decide)).2 rfl rfl
  obtain ⟨t, stops, stopped⟩ := failedReader_stops
  obtain rfl := Host.Outcome.next.inj (stops.symm.trans reads)
  exact absurd stopped (by decide)

end Sys2Proof.Machine

namespace Sys2Proof.Machine

/-! ## O53: a launch that waits for its context entry is not judged (R419) -/

/-- A line of window A. -/
def tableKey : LineKey := ⟨0, 0, (2 ^ 54 + 2 ^ 16) / 128⟩

/-- The first cell of die 1 holds the words of a line registered that die 1 owns, while the stack of die 0 refreshes itself. -/
def ownedTable : State :=
  let held : CLine := ⟨tableKey, zeros 128, zeros 4, ⟨true, true, false, false⟩, false, 1, 1⟩
  { State.reset with
    cur := .cell 128, cell := { Cell.reset 128 with cache := [held] }, dies := [{ Die.reset 0 with refresh := true }],
    mem := { State.reset.mem with lines := [⟨tableKey, zeros 128, zeros 4, ⟨true, true, false, false⟩, false, false⟩] },
    coh := [⟨tableKey, .x, 1, 0, none, [⟨1, .m, none, 0, false, false, none⟩], [], []⟩] }

theorem ownedTable_numbered : Numbered ownedTable :=
  ⟨fun _ h => Agent.cell.inj h, fun _ h => absurd h (List.not_mem_nil)⟩

/-- A descriptor of kind 0, lead die 0 and ASID 1, whose team table of one entry is that line's first bytes. -/
def waitingDesc : List Word := [BitVec.ofNat 64 (2 ^ 16 + 2 ^ 48)] ++ List.replicate 13 0 ++ [BitVec.ofNat 64 (2 ^ 54 + 2 ^ 16), 0]

/-- Its tables can be read, the cell of die 1 giving up its words for that. -/
theorem ownedTable_reads : (ownedTable.readTables waitingDesc).1 = .ok ⟨[[0, 0, 0, 0]], [[]], [], []⟩ ∧
    ((ownedTable.readTables waitingDesc).2.cell.cache.map (·.regs)) = [0] := by
  decide

/-- The context entry of ASID 1 lies on that stack, so the launch waits and the module stays. -/
theorem ownedTable_waits : exec (.launchAccept waitingDesc) ownedTable = .next ownedTable := by
  have waits : ownedTable.acceptLaunch waitingDesc = none := by decide
  show Host.Outcome.next (((ownedTable.acceptLaunch waitingDesc).map Prod.snd).getD ownedTable) = _
  rw [waits]
  rfl

/-- Refutes O53: a descriptor whose context entry lies on a stack in self-refresh is not answered, and the request leaves the module as it was, while the
state in which its tables have been read has moved on: the words that a cell held registered of the table's line are given up there. -/
theorem not_swapEvents : ¬ Obligations.SwapEvents := by
  unfold Obligations.SwapEvents
  intro h
  obtain ⟨-, -, -, accepts, -⟩ := h ownedTable ownedTable_numbered
  obtain ⟨read, givenUp⟩ := ownedTable_reads
  obtain ⟨t, ht, -, same, -⟩ := (accepts waitingDesc _ (ownedTable.readTables waitingDesc).2 (by decide) (Prod.ext read rfl)).1 (by decide)
  obtain rfl := Host.Outcome.next.inj (ownedTable_waits.symm.trans ht)
  have kept := (congrArg (fun e : Cell => e.cache.map (·.regs)) same).trans givenUp
  exact absurd kept (by decide)

end Sys2Proof.Machine

namespace Sys2Proof.Machine

/-! ## Harts of cells, read back where one of them is put -/

section
variable {s t : State} {c n m : Nat} {k j : Slot} {h : Hart} {e : Cell}

theorem Numbered.cellAt_putCell (hn : Numbered s) (he : e.no = (s.cellAt n).no) : (s.putCell e).cellAt n = e := by
  have := s.cellAt_putCell e
  rwa [he, hn.cellAt_no] at this

theorem Numbered.cellAt_setHartAt (hn : Numbered s) : (s.setHartAt n k h).cellAt n = (s.cellAt n).setHart k h :=
  hn.cellAt_putCell rfl

theorem Numbered.cellAt_setHartAt_ne (hn : Numbered s) (d : m ≠ n) : (s.setHartAt n k h).cellAt m = s.cellAt m :=
  State.cellAt_putCell_ne (by rwa [Cell.setHart_no, hn.cellAt_no])

theorem Numbered.hartSet (hn : Numbered s) : HartSet s (s.setHartAt n k h) n k h := by
  refine ⟨by rw [State.hartAt, hn.cellAt_setHartAt, Cell.hart_setHart], fun m j d => ?_⟩
  by_cases hm : m = n
  · subst hm
    rw [State.hartAt, hn.cellAt_setHartAt, Cell.hart_setHart_ne _ _ (fun e => d (by rw [e])), State.hartAt]
  · rw [State.hartAt, hn.cellAt_setHartAt_ne hm, State.hartAt]

theorem Numbered.banksKept_setHartAt (hn : Numbered s) : BanksKept s (s.setHartAt n k h) := by
  intro m
  by_cases hm : m = n
  · subst hm
    rw [hn.cellAt_setHartAt]
    exact ⟨rfl, rfl, rfl, rfl⟩
  · rw [hn.cellAt_setHartAt_ne hm]
    exact ⟨rfl, rfl, rfl, rfl⟩

theorem BanksKept.refl (s : State) : BanksKept s s := fun _ => ⟨rfl, rfl, rfl, rfl⟩

theorem BanksKept.trans {u : State} (h1 : BanksKept s t) (h2 : BanksKept t u) : BanksKept s u := fun m =>
  ⟨(h2 m).1.trans (h1 m).1, (h2 m).2.1.trans (h1 m).2.1, (h2 m).2.2.1.trans (h1 m).2.2.1, (h2 m).2.2.2.trans (h1 m).2.2.2⟩

/-! ## The cell in focus -/

theorem Numbered.cellAt_focus (hn : Numbered s) (hc : s.cur = .cell c) : s.cellAt c = s.cell := if_pos (hn.1 c hc).symm

theorem Numbered.hartAt_focus (hn : Numbered s) (hc : s.cur = .cell c) : s.hartAt c s.cell.slot = s.hart := by
  rw [State.hartAt, hn.cellAt_focus hc, State.hart_cell hc]

/-- The issuing hart put is a hart of the cell in focus put. -/
theorem Numbered.setHart_focus (hn : Numbered s) (hc : s.cur = .cell c) : s.setHart h = s.setHartAt c s.cell.slot h := by
  rw [State.setHartAt, hn.cellAt_focus hc, State.putCell, if_pos (by rfl), State.setHart, hc]

theorem Numbered.setHart_othersKept (hn : Numbered s) (hc : s.cur = .cell c) (h : Hart) : OthersKept s (s.setHart h) := by
  refine ⟨by simp, by simp [State.setHart, hc, Cell.setHart_no], by simp [State.setHart, hc], fun m j d => ?_⟩
  rw [hn.setHart_focus hc]
  exact hn.hartSet.2 m j (hn.1 c hc ▸ d)

theorem Numbered.setHart_banksKept (hn : Numbered s) (hc : s.cur = .cell c) (h : Hart) : BanksKept s (s.setHart h) := by
  rw [hn.setHart_focus hc]
  exact hn.banksKept_setHartAt

/-- Where only the cell in focus is new, and of its harts only the one in its slot. -/
theorem othersKept_of_cell (hs : t = { s with cell := t.cell }) (hno : t.cell.no = s.cell.no) (hslot : t.cell.slot = s.cell.slot)
    (hh : ∀ j, j ≠ s.cell.slot → t.cell.hart j = s.cell.hart j) : OthersKept s t := by
  refine ⟨by rw [hs], hno, hslot, fun m j d => ?_⟩
  by_cases hm : m = s.cell.no
  · have hj : j ≠ s.cell.slot := fun e => d (by rw [hm, e])
    rw [State.hartAt, State.hartAt, State.cellAt, if_pos (hm.trans hno.symm), State.cellAt, if_pos hm, hh j hj]
  · have rest : t.cellAt m = s.cellAt m := by
      rw [State.cellAt, if_neg (fun e => hm (e.trans hno)), State.cellAt, if_neg hm, hs]
      rfl
    rw [State.hartAt, State.hartAt, rest]

end

/-! ## Misses leave (R320) -/

/-- A miss as it leaves at an instant, with its number. -/
def Miss.leaving (m : Miss) (id t : Nat) : Miss :=
  { m with id := id, phase := match m.agent with
    | .cell _ => .out
    | .core _ => .look t }

/-- Misses as they leave one behind the other. -/
def leavingFrom (t : Nat) : Nat → List Miss → List Miss
  | _, [] => []
  | id, m :: ms => m.leaving id t :: leavingFrom t (id + 1) ms

theorem leavingFrom_ids (t : Nat) (ms : List Miss) : ∀ id, (leavingFrom t id ms).map (fun m => m.id) = (List.range ms.length).map (id + ·) := by
  induction ms with
  | nil => intro id; rfl
  | cons m ms ih =>
    intro id
    rw [leavingFrom, List.map_cons, ih, List.length_cons, List.range_succ_eq_map, List.map_cons, List.map_map]
    refine congrArg₂ List.cons rfl (List.map_congr_left fun i _ => ?_)
    exact Nat.succ_add_eq_add_succ id i

theorem mem_leavingFrom {t : Nat} {x : Miss} {ms : List Miss} : ∀ {id}, x ∈ leavingFrom t id ms → ∃ m ∈ ms, ∃ i, x = m.leaving i t := by
  induction ms with
  | nil => intro id h; cases h
  | cons m ms ih =>
    intro id h
    rcases List.mem_cons.mp h with rfl | h
    · exact ⟨m, List.mem_cons_self .., id, rfl⟩
    · obtain ⟨y, hy, r⟩ := ih h
      exact ⟨y, List.mem_cons_of_mem _ hy, r⟩

theorem leavingFrom_of_mem {t : Nat} {x : Miss} {ms : List Miss} : ∀ {id}, x ∈ ms → ∃ i, x.leaving i t ∈ leavingFrom t id ms := by
  induction ms with
  | nil => intro id h; cases h
  | cons m ms ih =>
    intro id h
    rcases List.mem_cons.mp h with rfl | h
    · exact ⟨id, List.mem_cons_self ..⟩
    · obtain ⟨i, hi⟩ := ih (id := id + 1) h
      exact ⟨i, List.mem_cons_of_mem _ hi⟩

theorem State.sendPacket_eq (s : State) (p : Packet) (t : Nat) : s.sendPacket p t = { s with net := (s.sendPacket p t).net } := by
  unfold State.sendPacket
  dsimp only
  split <;> rfl

theorem State.sendMiss_eq (s : State) (t : Nat) (m : Miss) : s.sendMiss t m =
    { s with cmdNo := s.cmdNo + 1, mem := { s.mem with misses := s.mem.misses ++ [m.leaving s.cmdNo t] }, net := (s.sendMiss t m).net } := by
  unfold State.sendMiss Miss.leaving
  dsimp only
  split
  · rfl
  · exact State.sendPacket_eq _ _ _

theorem State.sendMisses_eq (t : Nat) (ms : List Miss) : ∀ s : State, ∃ net, ms.foldl (fun s m => s.sendMiss t m) s =
    { s with cmdNo := s.cmdNo + ms.length, mem := { s.mem with misses := s.mem.misses ++ leavingFrom t s.cmdNo ms }, net := net } := by
  induction ms with
  | nil => exact fun s => ⟨s.net, by rw [leavingFrom, List.append_nil]; rfl⟩
  | cons m ms ih =>
    intro s
    obtain ⟨net, h⟩ := ih (s.sendMiss t m)
    refine ⟨net, ?_⟩
    rw [List.foldl_cons, h, State.sendMiss_eq, List.length_cons, leavingFrom]
    simp only [List.append_assoc, List.singleton_append, Nat.add_assoc, Nat.add_comm 1]

/-- The issuing hart's misses leave at one instant. -/
theorem State.sendHere_eq (s : State) (ms : List Miss) : ∃ net t, s.sendHere ms =
    { s with cmdNo := s.cmdNo + ms.length, mem := { s.mem with misses := s.mem.misses ++ leavingFrom t s.cmdNo ms }, net := net } := by
  obtain ⟨net, h⟩ := State.sendMisses_eq (match s.cur with | .cell _ => s.cell.missLeaves | .core _ => s.instant) ms s
  exact ⟨net, _, h⟩

/-- The issuing hart asks: its misses leave, and it waits for their numbers. -/
theorem State.askHere_eq (s : State) (ms : List Miss) : ∃ net t, s.askHere ms =
    State.setHart { s with cmdNo := s.cmdNo + ms.length, mem := { s.mem with misses := s.mem.misses ++ leavingFrom t s.cmdNo ms }, net := net }
      { s.hart with asks := s.hart.asks ++ (leavingFrom t s.cmdNo ms).map (fun m => m.id) } := by
  obtain ⟨net, t, h⟩ := s.sendHere_eq ms
  refine ⟨net, t, ?_⟩
  rw [State.askHere, h, leavingFrom_ids]
  rfl

end Sys2Proof.Machine

namespace Sys2Proof.Machine

/-! ## O43: fetches (R137) -/

section
variable {s : State} {c : Nat}

theorem State.setHart_away (s : State) (a : Nat) (b : MemSys) (d : Net) (g : Hart) :
    State.setHart { s with cmdNo := a, mem := b, net := d } g = { s.setHart g with cmdNo := a, mem := b, net := d } := by
  unfold State.setHart
  dsimp only
  split <;> rfl

theorem Hart.mem_fetchParts {h : Hart} {p : Nat × Nat} (m : p ∈ h.fetchParts) :
    p.1 = h.pc.toNat ∨ 112 ≤ h.pc.toNat % 128 ∧ p.1 = (h.pc.toNat / 128 + 1) * 128 := by
  unfold Hart.fetchParts at m
  dsimp only at m
  rcases List.mem_cons.mp m with rfl | m
  · exact .inl rfl
  · split at m
    · cases m
    · cases List.mem_singleton.mp m
      exact .inr ⟨by omega, rfl⟩

/-- The misses of a fetch that begins. -/
def State.fetchMisses (s : State) : List Miss :=
  (s.hart.fetchParts.filter fun p => (s.codeGot p.1).isNone).map fun p => s.hartMiss .miss .fetch p 0

/-- A hart as its fetch begins. -/
def State.fetching (s : State) : Hart :=
  { s.hart.settle with st := .wait .fetch, since := none, got := s.hart.fetchParts.filterMap fun p => s.codeGot p.1 }

/-- A fetch that begins: its misses leave, and its hart waits for them. -/
theorem State.fetchWait_eq (s : State) : ∃ n net t, s.fetchWait =
    State.setHart { s with cmdNo := n, mem := { s.mem with misses := s.mem.misses ++ leavingFrom t s.cmdNo s.fetchMisses }, net := net }
      { s.fetching with asks := (leavingFrom t s.cmdNo s.fetchMisses).map fun m => m.id } := by
  obtain ⟨net, t, h⟩ := (s.setHart s.fetching).askHere_eq s.fetchMisses
  refine ⟨s.cmdNo + s.fetchMisses.length, net, t, ?_⟩
  have e : s.fetchWait = (s.setHart s.fetching).askHere s.fetchMisses := rfl
  rw [e, h, State.hart_setHart, State.setHart_mem, State.setHart_cmdNo]
  simp only [State.setHart_away, State.setHart_setHart]
  rfl

theorem instructionFetch_waits (hc : s.cur = .cell c) (hn : Numbered s) (act : s.active = true) (run : s.hart.st = .run) (fresh : s.hart.again = false)
    (low : s.hart.pc.toNat < 2 ^ 55) (code : s.cell.fetch s.asid (s.gen s.asid) s.hart.level s.hart.pc.toNat = none) :
    exec (.instructionFetch c s.cell.slot) s = .next s.fetchWait := by
  have core : s.isCore = false := by simp [State.isCore, hc]
  show Host.Outcome.next (if _ then _ else _) = _
  rw [if_pos]
  simp [core, hn.1 c hc, act, run, fresh, code]
  exact low

/-- A fetch that CODE does not serve misses its lines and waits. -/
theorem fetch_misses (hc : s.cur = .cell c) (hn : Numbered s) (act : s.active = true) (run : s.hart.st = .run) (fresh : s.hart.again = false)
    (low : s.hart.pc.toNat < 2 ^ 55) (code : s.cell.fetch s.asid (s.gen s.asid) s.hart.level s.hart.pc.toNat = none) :
    ∃ t ms, exec (.instructionFetch c s.cell.slot) s = .next t ∧ t.hart.st = .wait .fetch ∧ t.hart.pc = s.hart.pc ∧ t.hart.win = s.hart.win ∧
      SpecialsKept s.hart t.hart ∧ OthersKept s t ∧ BanksKept s t ∧ t.mem = { s.mem with misses := s.mem.misses ++ ms } ∧
      t.hart.asks = ms.map (fun (m : Miss) => m.id) ∧
      (∀ m ∈ ms, m.kind = .fetch ∧ m.agent = .cell c ∧ m.slot = s.cell.slot ∧ m.asid = s.asid ∧
        (m.va = s.hart.pc.toNat ∨ 112 ≤ s.hart.pc.toNat % 128 ∧ m.va = (s.hart.pc.toNat / 128 + 1) * 128)) ∧
      (s.cell.codeLine? s.asid (s.gen s.asid) s.hart.level (s.hart.pc.toNat / 128) = none → ∃ m ∈ ms, m.va = s.hart.pc.toNat) := by
  obtain ⟨n, net, t, e⟩ := s.fetchWait_eq
  have away : Numbered { s with cmdNo := n, mem := { s.mem with misses := s.mem.misses ++ leavingFrom t s.cmdNo s.fetchMisses }, net := net } := hn
  refine ⟨s.fetchWait, leavingFrom t s.cmdNo s.fetchMisses, instructionFetch_waits hc hn act run fresh low code, ?_⟩
  rw [e, State.hart_setHart, State.setHart_mem]
  refine ⟨rfl, rfl, rfl, by simp [SpecialsKept, BlocksKept, State.fetching, Hart.settle], away.setHart_othersKept hc _, away.setHart_banksKept hc _, rfl, rfl,
    fun m hm => ?_, fun none => ?_⟩
  · obtain ⟨x, hx, i, rfl⟩ := mem_leavingFrom hm
    obtain ⟨p, hp, rfl⟩ := List.mem_map.mp hx
    exact ⟨rfl, hc, rfl, rfl, Hart.mem_fetchParts (List.mem_of_mem_filter hp)⟩
  · have core : s.isCore = false := by simp [State.isCore, hc]
    have first : s.hartMiss .miss .fetch (s.hart.pc.toNat, Nat.min 20 (128 - s.hart.pc.toNat % 128)) 0 ∈ s.fetchMisses :=
      List.mem_map_of_mem (List.mem_filter.mpr ⟨List.mem_cons_self .., by simp [State.codeGot, core, none]⟩)
    obtain ⟨i, hi⟩ := leavingFrom_of_mem first
    exact ⟨_, hi, rfl⟩

end
end Sys2Proof.Machine

namespace Sys2Proof.Machine

/-! ## O43: the answers of a hart's misses (R137, R346) -/

section
variable {s : State} {c : Nat} {k : Slot} {m : Miss} {g : Got}

/-- The misses of a hart go on one by one; here it has one. -/
theorem State.hartMisses_one {p : Miss → Bool} (hm : s.mem.misses = [m]) (ha : m.agent = .cell c) (hk : m.slot = k) (hp : p m = true) :
    s.hartMisses c k p = (s.missAct s.instant m).getD s := by
  unfold State.hartMisses
  rw [hm, List.filter_cons_of_pos (by simp [ha, hk, hp]), List.filter_nil]
  cases h : s.missAct s.instant m <;> simp [h]

theorem State.missAct_come {t u : Nat} (hp : m.phase = .come u g) : s.missAct t m = s.comeStep m u g := by
  unfold State.missAct
  rw [hp]

theorem State.missAct_ask {t : Nat} (hp : m.phase = .ask) : s.missAct t m = s.askStep t m := by
  unfold State.missAct
  rw [hp]

/-- A hart that waits for a miss is handed its answer. -/
theorem State.handOver_eq {r : Got} {ready : Nat} {f : Hart → Hart} (ha : m.agent = .cell c) (hw : m.id ∈ (s.hartAt c m.slot).asks) :
    s.handOver m r ready f = (s.setHartAt c m.slot (f ((s.hartAt c m.slot).gets m r ready))).dropMiss m := by
  have hart : s.missHart m = s.hartAt c m.slot := by simp only [State.missHart, ha]
  unfold State.handOver State.setMissHart
  rw [hart, ha]
  exact congrArg (fun t : State => t.dropMiss m) (if_pos (by simpa using hw))

theorem State.dropMiss_mem_of_one {t : State} (ht : t.mem = s.mem) (hm : s.mem.misses = [m]) : (t.dropMiss m).mem = { s.mem with misses := [] } := by
  simp [State.dropMiss, ht, hm]

theorem Cell.addCode_eq (e : Cell) (choice : Nat) (keep : List Nat) (l : CLine) : e.addCode choice keep l = { e with code := (e.addCode choice keep l).code } := by
  unfold Cell.addCode
  dsimp only
  split <;> rfl

/-- The hart of a fetch whose one line has come has its instruction, where the line holds it whole. -/
theorem Hart.fetched_whole {h : Hart} (hw : h.st = .wait .fetch) (ha : h.asks = []) (hg : h.answer h.pc.toNat = some g) (ok : g.fault = none)
    (whole : instrLen (g.data.drop (h.pc.toNat % 128)) ≤ (g.data.drop (h.pc.toNat % 128)).length) :
    h.fetched = { h with woken := true, check := .passed,
                         buf := (g.data.drop (h.pc.toNat % 128)).take (instrLen (g.data.drop (h.pc.toNat % 128))) } := by
  unfold Hart.fetched
  simp only [hw, ha, hg, ok, if_pos whole]
  rfl

/-- The line of a fetch that has come to the cell enters CODE, and its hart is handed it. -/
theorem State.fetchCome_line {u : Nat} {l : OLine} (ha : m.agent = .cell c) (ok : g.fault = none) (held : g.held = true)
    (free : (s.cellAt c).storesCode (m.va / 128) = false) (hl : s.line? (s.missKey m) = some l) :
    ∃ code, s.fetchCome m u g = some ((s.putCell { s.cellAt c with code := code }).handOver m { g with data := l.data, sb := l.sb }
      ((s.cellAt c).cycleFrom u + 3) Hart.fetched) := by
  unfold State.fetchCome State.readyAt
  simp only [ha, ok, held, free, hl]
  exact ⟨_, by rw [Cell.addCode_eq]; rfl⟩

theorem code_banksKept (hn : Numbered s) (code : List CLine) : BanksKept s (s.putCell { s.cellAt c with code := code }) := by
  intro n
  by_cases h : n = c
  · subst h
    rw [hn.cellAt_putCell (n := n) (by rfl)]
    exact ⟨rfl, rfl, rfl, rfl⟩
  · rw [State.cellAt_putCell_ne (by simpa [hn.cellAt_no] using h)]
    exact ⟨rfl, rfl, rfl, rfl⟩

theorem code_hartAt (hn : Numbered s) (code : List CLine) (n : Nat) (j : Slot) : (s.putCell { s.cellAt c with code := code }).hartAt n j = s.hartAt n j := by
  by_cases h : n = c
  · subst h
    rw [State.hartAt, hn.cellAt_putCell (n := n) (by rfl)]
    rfl
  · rw [State.hartAt, State.cellAt_putCell_ne (by simpa [hn.cellAt_no] using h), State.hartAt]

/-- A line that comes delivers the instruction's bytes. -/
theorem codeLineFill_delivers {u : Nat} {l : OLine} (hn : Numbered s) (hm : s.mem.misses = [m]) (ha : m.agent = .cell c) (hk : m.slot = k)
    (kind : m.kind = .fetch) (va : m.va = (s.hartAt c k).pc.toNat) (hp : m.phase = .come u g) (ok : g.fault = none) (held : g.held = true)
    (line : g.line = m.va / 128) (hw : (s.hartAt c k).st = .wait .fetch) (asks : (s.hartAt c k).asks = [m.id]) (none : (s.hartAt c k).got = [])
    (free : (s.cellAt c).storesCode (m.va / 128) = false) (hl : s.line? (s.missKey m) = some l)
    (whole : instrLen (l.data.drop (m.va % 128)) ≤ (l.data.drop (m.va % 128)).length) :
    ∃ t, exec (.codeLineFill c k) s = .next t ∧ t.mem = { s.mem with misses := [] } ∧ BanksKept s t ∧
      HartSet s t c k { s.hartAt c k with woken := true, buf := (l.data.drop (m.va % 128)).take (instrLen (l.data.drop (m.va % 128))), check := .passed,
                                          asks := [], got := [{ g with data := l.data, sb := l.sb }],
                                          ready := max (s.hartAt c k).ready ((s.cellAt c).cycleFrom u + 3) } := by
  subst hk
  obtain ⟨code, come⟩ := State.fetchCome_line (u := u) ha ok held free hl
  have step : s.missAct s.instant m = s.fetchCome m u g := by
    rw [State.missAct_come hp]
    simp only [State.comeStep, kind]
  have put := hn.putCell { s.cellAt c with code := code }
  have hart := code_hartAt hn (c := c) code
  rw [State.handOver_eq ha (by rw [hart, asks]; exact List.mem_singleton_self _), hart] at come
  have got : Hart.fetched ((s.hartAt c m.slot).gets m { g with data := l.data, sb := l.sb } ((s.cellAt c).cycleFrom u + 3)) = _ :=
    Hart.fetched_whole (g := { g with data := l.data, sb := l.sb }) hw (by simp [Hart.gets, asks])
      (by simp [Hart.gets, Hart.answer, none, line, va]) ok (by rw [va] at whole; exact whole)
  have run : exec (.codeLineFill c m.slot) s = .next (s.hartMisses c m.slot fun m => m.hasCome .fetch) := rfl
  rw [State.hartMisses_one hm ha rfl (by simp [Miss.hasCome, kind, hp]), step, come] at run
  refine ⟨_, run, ?_, ?_, ?_⟩
  · exact State.dropMiss_mem_of_one (by simp [State.setHartAt]) hm
  · exact (code_banksKept hn code).trans put.banksKept_setHartAt
  · obtain ⟨this, others⟩ := put.hartSet (n := c) (k := m.slot) (h := Hart.fetched _)
    refine ⟨this.trans (got.trans ?_), fun n j d => (others n j d).trans (hart n j)⟩
    simp [Hart.gets, asks, none, va]

end
end Sys2Proof.Machine

namespace Sys2Proof.Machine

section
variable {s : State} {c : Nat} {k : Slot} {m : Miss}

theorem State.askStep_wait {t : Nat} (hw : (s.missPlace m).1 = .wait) : s.askStep t m = none := by
  unfold State.askStep
  split <;> simp_all

/-- The die has the line of an address, with rights for the access: it is performed there. -/
theorem State.locate_line {core : Bool} {asid va : Nat} {lv : Level} {n : Need} {l : OLine} (ha : asid ≠ 0) (hv : va < 2 ^ 55)
    (hl : s.line? ⟨asid, s.gen asid, va / 128⟩ = some l) (hp : l.perm.allows lv n = true) : s.locate core asid lv n va = (.ok (.line l), s) := by
  unfold State.locate
  rw [if_neg (Nat.not_le.mpr hv), if_neg (by simp [ha]), hl]
  exact if_pos hp

theorem State.line?_key {k : LineKey} {l : OLine} (h : s.line? k = some l) : l.key = k := by
  have := List.find?_some h
  simpa using this

theorem State.hartAt_sendPacket (s : State) (p : Packet) (t n : Nat) (j : Slot) : (s.sendPacket p t).hartAt n j = s.hartAt n j := by
  rw [State.sendPacket_eq]
  rfl

/-- A miss of a fetch that finds its line on the die is answered with it. -/
theorem heldRetry_fetch {l : OLine} (hm : s.mem.misses = [m]) (ha : m.agent = .cell c) (hk : m.slot = k) (hp : m.phase = .ask) (kind : m.kind = .fetch)
    (asid : m.asid ≠ 0) (va : m.va < 2 ^ 55) (hl : s.line? ⟨m.asid, s.gen m.asid, m.va / 128⟩ = some l) (may : l.perm.allows m.level .fetch = true)
    (has : (s.cohLine l.key).readable (dieOf c) = true) : ∃ t, exec (.heldRetry c k) s = .next t ∧
      t.mem = { s.mem with misses := [{ m with phase := .back ⟨m.va / 128, l.data, l.sb, true, none⟩ }] } ∧ ∀ n j, t.hartAt n j = s.hartAt n j := by
  have place : s.missPlace m = (.ok (.line l), s) := by
    unfold State.missPlace
    simp only [kind, MissKind.need, State.locate_line asid va hl may]
    rfl
  have step : s.askStep s.instant m = some (s.answerMiss s.instant m ⟨m.va / 128, l.data, l.sb, true, none⟩) := by
    have die : m.die = dieOf c := by simp only [Miss.die, ha]
    have line : s.line? l.key = some l := by rw [State.line?_key hl, hl]
    unfold State.askStep
    rw [place]
    simp [State.serveLine, CohLine.serves, MissKind.owns, MissKind.need, MissKind.publishes, State.gotOf, kind, die, has, line]
  have run : exec (.heldRetry c k) s = .next (s.hartMisses c k fun m => m.phase == .ask) := rfl
  rw [State.hartMisses_one hm ha hk (by simp [hp]), State.missAct_ask hp, step] at run
  refine ⟨_, run, ?_, fun n j => ?_⟩
  · simp only [State.answerMiss, ha, Option.getD_some]
    rw [State.sendPacket_eq]
    simp [State.putMiss, hm]
  · simp only [State.answerMiss, ha, Option.getD_some, State.hartAt_sendPacket]
    rfl

theorem heldRetry_waits (hm : s.mem.misses = [m]) (ha : m.agent = .cell c) (hk : m.slot = k) (hp : m.phase = .ask) (hw : (s.missPlace m).1 = .wait) :
    exec (.heldRetry c k) s = .next s := by
  have run : exec (.heldRetry c k) s = .next (s.hartMisses c k fun m => m.phase == .ask) := rfl
  rwa [State.hartMisses_one hm ha hk (by simp [hp]), State.missAct_ask hp, State.askStep_wait hw] at run

/-! ## O43: waits completed (R19) -/

theorem isCore_focus (hc : s.cur = .cell c) : s.isCore = false := by simp [State.isCore, hc]

/-- In its hart's slot a waiting instruction runs. -/
theorem waitComplete_resumes (hc : s.cur = .cell c) (hn : Numbered s) {e : WaitCause} {i : Instr} (act : s.active = true) (ne : e ≠ .fetch)
    (hw : s.hart.st = .wait e) (hi : s.hart.winstr = some i) : exec (.waitComplete c s.cell.slot) s = resume i s := by
  have run : exec (.waitComplete c s.cell.slot) s = execWaitComplete c s.cell.slot s := rfl
  have slot : s.waitSlot = resume i s := by simp only [State.waitSlot, hi]
  rw [run, ← slot]
  unfold execWaitComplete
  rw [if_pos (by simp [isCore_focus hc, hn.1 c hc, act]), hw]
  cases e with
  | fetch => exact absurd rfl ne
  | _ => rfl

theorem waitComplete_exec (hc : s.cur = .cell c) (hn : Numbered s) {i : Instr} {d a b : Reg} {w : MW} {sc : Scope} {o : MemOp} {off : Word}
    (act : s.active = true) (hw : ∃ e, e ≠ WaitCause.fetch ∧ s.hart.st = .wait e) (hi : s.hart.winstr = some i)
    (mem : i ∈ ([.ld w d o, .amoAdd sc d a b, .ldfeK false d a off, .mlds d a, .tcopy d a b, .bwait false d a b, .tbar false d a b,
      .fwaitb false d a b, .sget d a b, .stfer false d a, .sleep a, .wfi] : List Instr)) : exec (.waitComplete c s.cell.slot) s = exec i s := by
  obtain ⟨e, ne, hw⟩ := hw
  refine (waitComplete_resumes hc hn act ne hw hi).trans ?_
  simp only [List.mem_cons, List.not_mem_nil, or_false] at mem
  rcases mem with rfl | rfl | rfl | rfl | rfl | rfl | rfl | rfl | rfl | rfl | rfl | rfl <;> rfl

end
end Sys2Proof.Machine

namespace Sys2Proof.Machine

/-! ## O43: what completes a wait (R19) -/

/-- The waiting instruction completes: the memory system, the other harts and the issuing hart's special registers are as they were. -/
def Completes (s : State) (o : Out) (p : State → Prop) : Prop :=
  ∃ t, o = .next t ∧ t.mem = s.mem ∧ OthersKept s t ∧ SpecialsKept s.hart t.hart ∧ FlagsKept s.hart t.hart ∧ WentOn s.hart t.hart ∧ p t

section
variable {s : State} {c : Nat} {o : Out}

theorem completes_finish (hc : s.cur = .cell c) (hn : Numbered s) (h : o = s.finish) :
    Completes s o fun t => t = s.setHart s.hart.complete ∧ t.hart.win = s.hart.win ∧ t.hart.winSb = s.hart.winSb := by
  obtain ⟨went, specials, flags, win, winSb⟩ := HartKept.complete s.hart
  refine ⟨_, h.trans s.finish_eq, State.setHart_mem _ _, hn.setHart_othersKept hc _, ?_⟩
  beta_reduce
  rw [State.hart_setHart]
  exact ⟨specials, flags, went, rfl, win, winSb⟩

theorem completes_writeS {d : Reg} {v : Word} (hc : s.cur = .cell c) (hn : Numbered s) (h : o = s.writeS d v) :
    Completes s o fun t => WroteScalar s.hart t.hart d v := by
  obtain ⟨went, specials, flags, wrote⟩ := s.hart.completed_setS d v
  refine ⟨_, h.trans (s.writeS_eq d v), State.setHart_mem _ _, hn.setHart_othersKept hc _, ?_⟩
  beta_reduce
  rw [State.hart_setHart]
  exact ⟨specials, flags, went, wrote⟩

/-- An acquire and a new state of the issuing hart leave the other harts. -/
theorem Acquired.othersKept {t : State} (h : Acquired s t) : OthersKept s t ∧ t.mem = s.mem ∧ RegisteredOnly t.cell := by
  obtain ⟨same, cell, harts, registered⟩ := h
  exact ⟨othersKept_of_cell same (by rw [cell]) (by rw [cell]; rfl) harts, by rw [same], registered⟩

theorem completes_acquire (hc : s.cur = .cell c) (h : o = s.acquire.finish) :
    Completes s o fun t => RegisteredOnly t.cell ∧ t.hart.win = s.hart.win ∧ t.hart.winSb = s.hart.winSb := by
  obtain ⟨went, specials, flags, win, winSb⟩ := HartKept.complete s.hart
  rw [State.finish_eq, State.hart_acquire hc] at h
  obtain ⟨others, mem, registered⟩ := (acquire_acquired hc s.hart.complete).othersKept
  refine ⟨_, h, mem, others, ?_⟩
  beta_reduce
  rw [State.hart_setHart]
  exact ⟨specials, flags, went, registered, win, winSb⟩

theorem completes_acquire_writeS {d : Reg} {v : Word} (hc : s.cur = .cell c) (h : o = s.acquire.writeS d v) :
    Completes s o fun t => WroteScalar s.hart t.hart d v := by
  obtain ⟨went, specials, flags, wrote⟩ := s.hart.completed_setS d v
  rw [State.writeS_eq, State.hart_acquire hc] at h
  obtain ⟨others, mem, -⟩ := (acquire_acquired hc (s.hart.setS d v).complete).othersKept
  refine ⟨_, h, mem, others, ?_⟩
  beta_reduce
  rw [State.hart_setHart]
  exact ⟨specials, flags, went, wrote⟩

/-- What completes where arrivals at team barriers have been struck out completes. -/
theorem Completes.of_tbarDone {done : List TbarDone} {p : State → Prop} (hc : s.cur = .cell c)
    (h : Completes { s with cell := { s.cell with tbarDone := done } } o p) : Completes s o p := by
  obtain ⟨t, run, mem, ⟨cur, no, slot, others⟩, kept⟩ := h
  have hart : State.hart { s with cell := { s.cell with tbarDone := done } } = s.hart := by
    rw [State.hart_cell hc]
    exact State.hart_setCell hc rfl
  rw [hart] at kept
  refine ⟨t, run, mem, ⟨cur, no, slot, fun n k d => (others n k d).trans ?_⟩, kept⟩
  unfold State.hartAt State.cellAt
  split <;> rfl

end
end Sys2Proof.Machine

namespace Sys2Proof.Machine

section
variable {s : State} {c : Nat}

/-! ## Loads whose answers have come (R188, R320) -/

theorem two_pow_eight_mul (n : Nat) : 256 ^ n = 2 ^ (8 * n) := by rw [Nat.pow_mul]

/-- Bytes extended are the word that a load gives. -/
theorem extended_eq {signed : Bool} {n : Nat} {bs : List Byte} (hn : n ≤ 8) (h : bs.length ≤ n) : extended signed n bs = loadedWord signed n bs := by
  have lt : leNat bs < 2 ^ (8 * n) := by
    rw [← two_pow_eight_mul]
    exact Nat.lt_of_lt_of_le (leNat_lt bs) (Nat.pow_le_pow_right (by decide) h)
  have small : leNat bs < 2 ^ 64 := Nat.lt_of_lt_of_le lt (Nat.pow_le_pow_right (by decide) (by omega))
  have low : ((BitVec.ofNat 64 (leNat bs)).setWidth (8 * n)).toNat = leNat bs := by
    rw [BitVec.toNat_setWidth, BitVec.toNat_ofNat, Nat.mod_eq_of_lt small, Nat.mod_eq_of_lt lt]
  unfold extended loadedWord
  cases signed
  · exact BitVec.eq_of_toNat_eq (by simp [zeroExt, low, BitVec.toNat_setWidth, Nat.mod_eq_of_lt small])
  · simp only [if_true, signExt, BitVec.signExtend, BitVec.toInt_eq_toNat_cond, low]
    push_cast
    rfl

theorem MW.signed_eq (w : MW) : MW.signed w = (w == .i8 || w == .i16 || w == .i32) := by cases w <;> rfl

theorem Hart.got_ne_nil {h : Hart} {a : Nat} {g : Got} (hg : h.answer a = some g) : h.got ≠ [] := by
  intro e
  rw [Hart.answer, e] at hg
  cases hg

/-- A load of one part that waits, and whose answer has come, takes it. -/
theorem State.loadGlobal_came {i : Instr} {sort : MsgKind} {wide : Bool} {x : Word} {n : Nat} {g : Got} {k : List (List Byte × List Byte) → State → Out}
    (hw : s.hart.st = .wait .data) (came : Came s x n g) : s.loadGlobal i sort false wide [(x.toNat, n)] none k = k [g.slice x.toNat n] s := by
  obtain ⟨-, answered, device, answer, ok⟩ := came
  have asked : s.hart.got.isEmpty = false := by simpa using Hart.got_ne_nil answer
  have heads : s.unanswered [(x.toNat, n)] = [] := by simp [State.unanswered, device, answer, lineHeads]
  have parts : s.takeParts [(x.toNat, n)] = ([g.slice x.toNat n], s) := by simp [State.takeParts, device, answer]
  unfold State.loadGlobal
  simp [asked, answered, heads, parts, Hart.waits, hw, Hart.firstFault, answer, ok]

theorem addrBad_aligned {x : Word} {n : Nat} (h : Aligned x n) : addrBad x.toNat n = none := by
  unfold addrBad
  rw [if_neg (by simp [h.1]), if_neg (Nat.not_le.mpr h.2)]

theorem execLd_came {w : MW} {d : Reg} {m : MemOp} {g : Got} (hw : s.hart.st = .wait .data) (v : InView s (d :: regsOf m) [])
    (came : Came s (s.hart.address m) (MW.bytes w) g) : execLd w d m s =
      s.writeS d (loadedWord (w == .i8 || w == .i16 || w == .i32) (MW.bytes w)
        ((g.data.drop ((s.hart.address m).toNat % 128)).take (MW.bytes w))) := by
  unfold execLd State.loadScalar onePart
  rw [State.withRegs_inView v]
  dsimp only
  rw [addrBad_aligned came.1]
  refine (State.loadGlobal_came hw came).trans ?_
  rw [← MW.signed_eq, ← extended_eq (by cases w <;> decide) (List.length_take_le ..)]
  rfl

/-! ## What each wait completes as -/

theorem execSleep_due {a : Reg} (v : InView s [a] []) (due : (s.hart.S a).toNat ≤ s.tbase) : execSleep a s = s.finish := by
  unfold execSleep
  rw [State.withRegs_inView v, if_pos due]

theorem execWfi_pending (p : s.hart.anyPending s.tbase = true) : execWfi s = s.finish := if_pos p

theorem execBwait_woken {d a b : Reg} (hw : s.hart.st = .wait .barrier) (woken : s.hart.woken = true) (ok : ∀ e x, s.hart.check ≠ .failed e x) :
    execBwait false d a b s = s.acquire.finish := by
  unfold execBwait
  rw [if_pos (by simp [Hart.waits, hw])]
  split
  · exact absurd ‹_› (ok _ _)
  · exact if_pos woken

theorem execFwaitb_answered {d a b : Reg} {v : Word} (hc : s.cur = .cell c) (view : InView s [d, a, b] []) (h : s.hart.req = .answered v) :
    execFwaitb false d a b s = (if v = 1 then s.acquire else s).writeS d v := by
  unfold execFwaitb
  rw [State.cellOnly_cell (isCore_focus hc), State.withRegs_inView view, h]

theorem execStfer_accepted {d a : Reg} (hw : s.hart.st = .wait .remote) (h : s.hart.req = .answered 1) : execStfer false d a s = s.finish := by
  unfold execStfer
  dsimp only
  rw [if_pos (by simp [Hart.waits, hw]), h]
  exact (if_pos rfl).trans (s.done_eq _)

theorem State.setHart_self (hc : s.cur = .cell c) : s.setHart s.hart = s := by
  have cell : s.cell.setHart s.cell.slot (s.cell.hart s.cell.slot) = s.cell := by simp [Cell.setHart, Cell.hart]
  rw [State.hart_cell hc, State.setHart, hc]
  dsimp only
  rw [cell, ← hc]

theorem Cell.full_eq (e : Cell) (x : Nat) : e.full x = fullBit e x := by
  unfold Cell.full fullBit Cell.lsb
  rw [show x % 32 / 8 = x / 8 % 4 by omega]

theorem execLdfeK_full {d a : Reg} {off : Word} (hc : s.cur = .cell c) (hw : s.hart.st = .wait .fullEmpty) (view : InView s [d, a] [])
    (al : (s.hart.offset a off).toNat % 8 = 0) (fits : (s.hart.offset a off).toNat + 8 ≤ s.cell.localSize) (ok : ∀ e x, s.hart.check ≠ .failed e x)
    (full : fullBit s.cell (s.hart.offset a off).toNat = true) :
    execLdfeK false d a off s = s.writeS d (BitVec.ofNat 64 (leNat (s.cell.loc.read (s.hart.offset a off).toNat 8))) := by
  unfold execLdfeK fullEmpty
  simp only [Hart.waits, hw]
  split
  · exact absurd ‹_› (ok _ _)
  · rw [State.cellOnly_cell (isCore_focus hc), State.withRegs_inView view, State.withLocal, if_neg (by simp [al]), if_neg (by omega)]
    rw [if_pos (by rw [Cell.full_eq, full]; rfl)]
    have same : s.mapHart (fun h => h.setTry false true) = s := State.setHart_self hc
    rw [same]
    rfl

end
end Sys2Proof.Machine

namespace Sys2Proof.Machine

/-! ## Traps and interrupts entered (R281) -/

/-- The status of a trap block as a trap or an interrupt from a level leaves it. -/
def enteredStat (stat : Word) (l : Level) : Word := setField (setField (setField stat 2 2 l.code) 1 1 (fieldOf stat 0 1)) 0 1 0

section
variable (stat : Word) (l : Level)

theorem enteredStat_ie : (enteredStat stat l).getLsbD 0 = false := by
  rw [enteredStat, getLsbD_setField _ _ _ _ (by decide)]
  rfl

theorem enteredStat_pie : (enteredStat stat l).getLsbD 1 = stat.getLsbD 0 := by
  rw [enteredStat, getLsbD_setField _ _ _ _ (by decide), if_neg (by decide), getLsbD_setField _ _ _ _ (by decide), if_pos (by decide)]
  have h : fieldOf stat 0 1 < 2 ^ 1 := fieldOf_lt stat 0 1
  rw [getLsbD_zero]
  interval_cases fieldOf stat 0 1 <;> rfl

theorem enteredStat_level : fieldOf (enteredStat stat l) 2 2 = l.code := by
  have bits : (enteredStat stat l).extractLsb' 2 2 = BitVec.ofNat 2 l.code := by
    refine BitVec.eq_of_getLsbD_eq fun i hi => ?_
    rw [BitVec.getLsbD_extractLsb', enteredStat, getLsbD_setField _ _ _ _ (by omega), if_neg (by omega), getLsbD_setField _ _ _ _ (by omega),
      if_neg (by omega), getLsbD_setField _ _ _ _ (by omega), if_pos (by omega), BitVec.getLsbD_ofNat, Nat.add_sub_cancel_left]
  rw [← fieldOf_extract, bits]
  cases l <;> rfl

end

section
variable (h : Hart) (m : Level) (cause val pc : Word)

theorem Hart.enter_level : (h.enter m cause val pc).level = m := by cases m <;> rfl
theorem Hart.enter_st : (h.enter m cause val pc).st = .run := by cases m <;> rfl
theorem Hart.enter_pc : (h.enter m cause val pc).pc = addrOf (h.block m).vec := by cases m <;> rfl
theorem Hart.enter_win : (h.enter m cause val pc).win = h.win := by cases m <;> rfl
theorem Hart.enter_hand : (h.enter m cause val pc).hand = h.hand := by cases m <;> rfl
theorem Hart.enter_stopped : (h.enter m cause val pc).stopped = h.stopped := by cases m <;> rfl
theorem Hart.enter_engErr : (h.enter m cause val pc).engErr = h.engErr := by cases m <;> rfl

theorem Hart.enter_block : (h.enter m cause val pc).block m =
    { h.block m with cause := cause, val := val, pc := addrOf pc, stat := enteredStat (h.block m).stat h.level } := by cases m <;> rfl

theorem Hart.enter_block_ne {n : Level} (d : n ≠ m) : (h.enter m cause val pc).block n = h.block n := by
  cases m with
  | u => cases n with
    | u => exact absurd rfl d
    | s => rfl
    | f => rfl
  | s => cases n with
    | u => rfl
    | s => exact absurd rfl d
    | f => rfl
  | f => cases n with
    | u => rfl
    | s => rfl
    | f => exact absurd rfl d

theorem Hart.vectored_self (v : (h.block m).vec ≠ 0) : h.vectored m = some m := by
  cases m <;> exact if_pos (by simpa [Hart.block] using v)

end

/-! ## Waits abandoned (R21) -/

section
variable (e : Cell) (k : Slot)

theorem Cell.setWaiter_hart (o : Nat) (b : Bool) (j : Slot) : (e.setWaiter o k b).hart j = e.hart j := rfl

/-- A hart whose wait is abandoned holds nothing of an instruction; whether it reads as woken is no matter. -/
theorem Cell.abandon_hart : ∃ st w, (e.abandon k).hart k = { (e.hart k).settle with st := st, woken := w } := by
  have dealt (c : Cell) : ∃ w, (c.leaveQueues k).hart k = { c.hart k with woken := w } := ⟨_, (Dealt.serveQueues _).hart k⟩
  unfold Cell.abandon
  dsimp only
  split
  all_goals
    obtain ⟨w, hw⟩ := dealt (Cell.setHart _ k _)
    rw [hw, Cell.hart_setHart]
    exact ⟨_, w, rfl⟩

theorem Cell.abandon_slot : (e.abandon k).slot = e.slot := by
  have queues (c : Cell) : (c.leaveQueues k).cycle = c.cycle := by
    unfold Cell.leaveQueues
    rw [(Dealt.serveQueues _).cell]
  have cycle : (e.abandon k).cycle = e.cycle := by
    unfold Cell.abandon
    dsimp only
    split <;> exact queues _
  unfold Cell.slot
  simp only [cycle]

end
end Sys2Proof.Machine

namespace Sys2Proof.Machine

section
variable {s : State} {c : Nat}

/-! ## O43: interrupts, timers and limits (R21, R71, R88, R282) -/

/-- The wait of the issuing hart abandoned: it alone is another hart. -/
theorem State.leaveWait_focus (hc : s.cur = .cell c) (hn : Numbered s) :
    s.leaveWait c s.cell.slot = { s with cell := s.cell.abandon s.cell.slot } := by
  rw [State.leaveWait, hn.cellAt_focus hc, State.putCell, if_pos]
  exact Cell.abandon_no ..

theorem State.hart_abandon (hc : s.cur = .cell c) : ∃ st w, State.hart { s with cell := s.cell.abandon s.cell.slot } =
    { s.hart.settle with st := st, woken := w } := by
  rw [State.hart_setCell hc (Cell.abandon_slot ..), State.hart_cell hc]
  exact Cell.abandon_hart ..

/-- A takeable interrupt enters its level. -/
theorem interruptTaken_enters {m : Level} {bit : Nat} (hc : s.cur = .cell c) (hn : Numbered s) (act : s.active = true) (run : s.hart.st = .run)
    (fresh : s.hart.again = false) (gang : s.gangAt s.cell = false) (take : s.hart.takeable s.tbase = some (m, bit)) (vec : (s.hart.block m).vec ≠ 0) :
    ∃ t, exec (.interruptTaken c s.cell.slot) s = .next t ∧ t.mem = s.mem ∧ t.hart.level = m ∧ t.hart.st = .run ∧
      t.hart.pc = addrOf (s.hart.block m).vec ∧ t.hart.win = s.hart.win ∧ (t.hart.block m).cause = BitVec.ofNat 64 (2 ^ 63 + bit) ∧
      (t.hart.block m).val = 0 ∧ (t.hart.block m).pc = addrOf s.hart.pc ∧ (t.hart.block m).stat.getLsbD 0 = false ∧
      (t.hart.block m).stat.getLsbD 1 = (s.hart.block m).stat.getLsbD 0 ∧ fieldOf (t.hart.block m).stat 2 2 = s.hart.level.code ∧
      ∀ n, n ≠ m → t.hart.block n = s.hart.block n := by
  obtain ⟨st, w, hart⟩ := State.hart_abandon hc
  have block (n : Level) : ({ s.hart.settle with st := st, woken := w } : Hart).block n = s.hart.block n := by cases n <;> rfl
  have taken : s.takePending = some (({ s with cell := s.cell.abandon s.cell.slot } : State).setHart
      (({ s.hart.settle with st := st, woken := w } : Hart).enter m (BitVec.ofNat 64 (2 ^ 63 + bit)) 0 s.hart.pc)) := by
    have may : s.interruptible = true := by simp [State.interruptible, hc, Hart.interruptible, gang, run, fresh]
    unfold State.takePending
    rw [if_neg (by simp [act, may]), take, hc]
    simp only [Option.map_some, State.leaveWait_focus hc hn, State.takeInterrupt, hart]
    rw [Hart.vectored_self _ _ (by rwa [block]), ← hc]
  have exe : exec (.interruptTaken c s.cell.slot) s = .next (if !s.isCore && c == s.cell.no && s.cell.slot == s.cell.slot then s.takePending.getD s else s) := rfl
  rw [if_pos (by simp [isCore_focus hc, hn.1 c hc]), taken] at exe
  refine ⟨_, exe, State.setHart_mem _ _, ?_⟩
  rw [Option.getD_some, State.hart_setHart, Hart.enter_block, block]
  exact ⟨Hart.enter_level .., Hart.enter_st .., (Hart.enter_pc ..).trans (by rw [block]), Hart.enter_win .., rfl, rfl, rfl, enteredStat_ie .., enteredStat_pie ..,
    enteredStat_level .., fun n d => (Hart.enter_block_ne _ _ _ _ _ d).trans (block n)⟩

/-- The timer bit of `xip` is derived from the time base. -/
theorem Hart.ip_timer (h : Hart) (m : Level) (tick : Nat) (clear : (h.block m).ip.getLsbD 0 = false) :
    (h.ip m tick).getLsbD 0 = true ↔ h.tcmp ≠ 0 ∧ h.tcmp.toNat ≤ tick ∧ m = if h.ts.del.getLsbD 32 then .u else .s := by
  have target : h.idel 0 = if h.ts.del.getLsbD 32 then .u else .s := rfl
  have bit (b : Bool) : (if b then (1 : Word) else 0).getLsbD 0 = b := by cases b <;> rfl
  rw [Hart.ip, BitVec.getLsbD_or, clear, Bool.false_or, bit, ← target, Hart.timerDue]
  simp only [Bool.and_eq_true, bne_iff_ne, decide_eq_true_eq, beq_iff_eq, and_assoc, eq_comm (a := m)]

/-- The limit of a wait traps where `limitTrap` says so. -/
theorem fwlLimit_traps {x : Word} (hc : s.cur = .cell c) (hn : Numbered s) (act : s.active = true) (h : s.limitTrap = nextOf (s.trap .feLimit x)) :
    exec (.fwlLimit c s.cell.slot) s = s.trap .feLimit x := by
  have run : exec (.fwlLimit c s.cell.slot) s =
    .next (if !s.isCore && c == s.cell.no && s.cell.slot == s.cell.slot && s.active then s.limitTrap.getD s else s) := rfl
  rw [run, if_pos (by simp [isCore_focus hc, hn.1 c hc, act]), h]
  rfl

theorem limitTrap_eq {t0 : Nat} (hc : s.cur = .cell c) (hw : s.hart.st = .wait .fullEmpty) (hs : s.hart.since = some t0)
    (past : t0 + s.hart.fwl.toNat ≤ s.tbase) : (s.isCore || !s.limitPast) = false ∧ s.hart.waits .fullEmpty = true := by
  simp [isCore_focus hc, State.limitPast, hs, past, Hart.waits, hw]

theorem limitTrap_full {d a : Reg} {off : Word} {t0 : Nat} {i : Instr} (hc : s.cur = .cell c) (hw : s.hart.st = .wait .fullEmpty) (hs : s.hart.since = some t0)
    (past : t0 + s.hart.fwl.toNat ≤ s.tbase) (hi : s.hart.winstr = some i) (needs : i = .ldfeK false d a off ∨ i = .ldfeE false d a off)
    (empty : s.cell.full (s.hart.offset a off).toNat = false) : s.limitTrap = nextOf (s.trap .feLimit (s.hart.offset a off)) := by
  obtain ⟨go, waits⟩ := limitTrap_eq hc hw hs past
  unfold State.limitTrap
  rcases needs with rfl | rfl <;> simp [go, hi, waits, empty]

theorem limitTrap_empty {d a : Reg} {off : Word} {t0 : Nat} (hc : s.cur = .cell c) (hw : s.hart.st = .wait .fullEmpty) (hs : s.hart.since = some t0)
    (past : t0 + s.hart.fwl.toNat ≤ s.tbase) (hi : s.hart.winstr = some (.stfe false d a off))
    (full : s.cell.full (s.hart.offset a off).toNat = true) : s.limitTrap = nextOf (s.trap .feLimit (s.hart.offset a off)) := by
  obtain ⟨go, waits⟩ := limitTrap_eq hc hw hs past
  unfold State.limitTrap
  simp [go, hi, waits, full]

end
end Sys2Proof.Machine

namespace Sys2Proof.Machine

section
variable {s : State} {c : Nat}

theorem State.takeTrap_vectored {code : Nat} {v pc : Word} {m : Level} (h : s.hart.vectored (s.hart.target code) = some m) :
    s.takeTrap code v pc = s.setHart (s.hart.enter m (BitVec.ofNat 64 code) v pc) := by
  unfold State.takeTrap
  dsimp only
  rw [h]

theorem State.postStop_keeps (s : State) (hart why : Nat) : (s.postStop hart why).mem = s.mem ∧ (s.postStop hart why).cur = s.cur ∧
    (s.postStop hart why).cell = s.cell := by
  unfold State.postStop
  split
  · rw [State.notice_eq]
    exact ⟨rfl, rfl, rfl⟩
  · exact ⟨rfl, rfl, rfl⟩

/-- A hart that stops is the only hart of a cell that is new, and no memory changes. -/
theorem State.stopHart_keeps (hc : s.cur = .cell c) (why : Nat) : (s.stopHart why).mem = s.mem ∧ (s.stopHart why).hart = s.hart.stop := by
  obtain ⟨mem, cur, cell⟩ := State.postStop_keeps (s.mapHart Hart.stop) s.hartId why
  refine ⟨mem.trans (State.setHart_mem _ _), ?_⟩
  have focus : (s.stopHart why).cur = .cell c := cur.trans ((State.setHart_cur _ _).trans hc)
  rw [State.hart_cell focus, State.stopHart, cell]
  exact (State.hart_cell ((State.setHart_cur _ _).trans hc)).symm.trans (State.hart_setHart ..)

theorem Hart.stop_keeps (h : Hart) : h.stop.win = h.win ∧ h.stop.stopped = true := by
  unfold Hart.stop Hart.endTask
  split <;> exact ⟨rfl, rfl⟩

/-- The issuing hart as the limit of its routine has cut it off, with nothing of its instruction left. -/
def Hart.cutOff (h : Hart) (x : Hand) (st : HartState) (w : Bool) : Hart := { h.settle with st := st, woken := w, hand := some { x with tick := none } }

theorem rlimExpire_traps {x : Hand} {f : Field} {t0 : Nat} (hc : s.cur = .cell c) (hx : s.hart.hand = some x)
    (hf : s.field? x.launch x.team x.handle = some f) (tick : x.tick = some t0) (lim : f.rlim ≠ 0) (past : t0 + f.rlim ≤ s.tbase) :
    ∃ (st : HartState) (w : Bool) (u : State), u.cur = .cell c ∧ u.mem = s.mem ∧ u.hart = s.hart.cutOff x st w ∧
      s.rlimExpire = some (u.takeTrap 10 (BitVec.ofNat 64 x.site) s.hart.pc) := by
  obtain ⟨st, w, hart⟩ := State.hart_abandon hc
  refine ⟨st, w, ({ s with cell := s.cell.abandon s.cell.slot } : State).setHart (s.hart.cutOff x st w), (State.setHart_cur ..).trans hc,
    State.setHart_mem .., State.hart_setHart .., ?_⟩
  unfold State.rlimExpire
  rw [hx, Option.bind_some, hf, Option.bind_some, tick]
  dsimp only
  rw [if_neg (by simpa using ⟨lim, past⟩)]
  have cut : (s.mapCell fun c => c.abandon c.slot) = { s with cell := s.cell.abandon s.cell.slot } := rfl
  rw [cut, State.mapHart_eq, hart, State.hart_setHart]
  rfl

/-- The routine limit traps, or stops a hart that has no handler for it. -/
theorem rlimExpire_enters {x : Hand} {f : Field} {t0 : Nat} (hc : s.cur = .cell c) (hn : Numbered s) (act : s.active = true) (hx : s.hart.hand = some x)
    (hf : s.field? x.launch x.team x.handle = some f) (tick : x.tick = some t0) (lim : f.rlim ≠ 0) (past : t0 + f.rlim ≤ s.tbase) :
    ∃ t, exec (.rlimExpire c s.cell.slot) s = .next t ∧ t.hart.win = s.hart.win ∧ t.mem = s.mem ∧
      (t.hart.hand = some { x with tick := none } ∨ t.hart.stopped = true) ∧
      ∀ m, s.hart.vectored (s.hart.target 10) = some m → t.hart.level = m ∧ t.hart.pc = addrOf (s.hart.block m).vec ∧ t.hart.stopped = s.hart.stopped ∧
        (t.hart.block m).cause = 10 ∧ (t.hart.block m).val = BitVec.ofNat 64 x.site := by
  obtain ⟨st, w, u, cur, mem, hart, expire⟩ := rlimExpire_traps hc hx hf tick lim past
  have run : exec (.rlimExpire c s.cell.slot) s =
    .next (if !s.isCore && c == s.cell.no && s.cell.slot == s.cell.slot && s.active then s.rlimExpire.getD s else s) := rfl
  rw [if_pos (by simp [isCore_focus hc, hn.1 c hc, act]), expire] at run
  refine ⟨_, run, ?_⟩
  rw [Option.getD_some]
  have same : u.hart.vectored (u.hart.target 10) = s.hart.vectored (s.hart.target 10) := by rw [hart]; rfl
  cases hv : s.hart.vectored (s.hart.target 10) with
  | none =>
    obtain ⟨kept, stopped⟩ := State.stopHart_keeps cur 1
    obtain ⟨win, stop⟩ := u.hart.stop_keeps
    have stops : u.takeTrap 10 (BitVec.ofNat 64 x.site) s.hart.pc = u.stopHart 1 := by
      unfold State.takeTrap
      dsimp only
      rw [same, hv]
    rw [stops, stopped, kept, win, hart]
    exact ⟨rfl, mem, .inr (by rw [← hart]; exact stop), fun m h => nomatch h⟩
  | some m =>
    have block : u.hart.block m = s.hart.block m := by rw [hart]; cases m <;> rfl
    rw [State.takeTrap_vectored (same.trans hv), State.hart_setHart, State.setHart_mem]
    refine ⟨(Hart.enter_win ..).trans (by rw [hart]; rfl), mem, .inl ((Hart.enter_hand ..).trans (by rw [hart]; rfl)), fun n h => ?_⟩
    cases h
    rw [Hart.enter_block, Hart.enter_level, Hart.enter_pc, block, Hart.enter_stopped]
    exact ⟨rfl, rfl, by rw [hart]; rfl, rfl, rfl⟩

end
end Sys2Proof.Machine

namespace Sys2Proof.Machine

/-! ## Words of LOCAL stored, and their state bits (R103, R249) -/

section
variable (e : Cell) (o : Nat) (bs : List Byte)

theorem Cell.lwrite_byte {x : Nat} (hx : ¬ Awaited e x) : (e.lwrite o bs).loc.byte x = (e.loc.write o bs).byte x := (e.lwrite_retested o bs).loc x hx

theorem Cell.lwrite_localKept {n : Nat} (hn : bs.length = n) : LocalKept e (e.lwrite o bs) o n := fun x h hx => by
  rw [Cell.lwrite_byte e o bs hx, Mem.byte_write_other _ _ _ _ (hn ▸ h)]

theorem Cell.lwrite_localHolds (n v : Nat) : LocalHolds e (e.lwrite o (leBytes n v)) o n v := fun i hi hx => by
  rw [Cell.lwrite_byte e o _ hx, Mem.byte_write, length_leBytes, if_pos (by omega), Nat.add_sub_cancel_left, leBytes_getD _ _ _ hi]

theorem Cell.setFull_eq (b : Bool) : e.setFull o b = { e with locSb := (e.setFull o b).locSb } := by
  unfold Cell.setFull
  split <;> rfl

/-- A state bit added to the four of a granule is set. -/
theorem fullBit_added : ∀ a < 16, ∀ i < 4, a.testBit i = false → (BitVec.ofNat 8 (a + 2 ^ i)).getLsbD i = true := by decide

theorem Cell.setFull_fullBit (h : fullBit e o = false) : fullBit (e.setFull o true) o = true := by
  have index : o % 32 / 8 = o / 8 % 4 := by omega
  have clear : ((e.lsb o).toNat % 16).testBit (o / 8 % 4) = false := by
    rw [show (16 : Nat) = 2 ^ 4 by rfl, Nat.testBit_mod_two_pow]
    have : (e.lsb o).toNat.testBit (o / 8 % 4) = false := h
    rw [this, Bool.and_false]
  unfold Cell.setFull
  rw [if_neg (by rw [Cell.full_eq, h]; decide)]
  simp only [if_true, fullBit, Mem.byte_put, index]
  exact fullBit_added _ (Nat.mod_lt _ (by decide)) _ (Nat.mod_lt _ (by decide)) clear

end

/-! ## O43: remote stores (R117, R386) -/

section
variable {e : Cell} {o : Nat} {v : Word}

theorem Cell.tryRemote_small (h : e.localSize < o + 8) : e.tryRemote o v = (2, e) := if_pos h

theorem Cell.tryRemote_full (h : o + 8 ≤ e.localSize) (full : fullBit e o = true) : e.tryRemote o v = (0, e) := by
  unfold Cell.tryRemote
  rw [if_neg (by omega), if_pos (by rw [Cell.full_eq, full])]

/-- The attempt is accepted: the word and its state bit are stored. -/
theorem Cell.tryRemote_empty (h : o + 8 ≤ e.localSize) (empty : fullBit e o = false) :
    ∃ f, e.tryRemote o v = (1, f) ∧ f.no = e.no ∧ fullBit f o = true ∧ LocalHolds e f o 8 v.toNat ∧ LocalKept e f o 8 := by
  have loc : ((e.lwrite o (leBytes 8 v.toNat)).setFull o true).loc = (e.lwrite o (leBytes 8 v.toNat)).loc := by rw [Cell.setFull_eq]
  have bit : fullBit (e.lwrite o (leBytes 8 v.toNat)) o = false := by rw [fullBit, (e.lwrite_retested o _).locSb]; exact empty
  refine ⟨(e.lwrite o (leBytes 8 v.toNat)).setFull o true, ?_, ?_, Cell.setFull_fullBit _ _ bit, fun i hi hx => ?_, fun x out hx => ?_⟩
  · unfold Cell.tryRemote
    rw [if_neg (by omega), if_neg (by rw [Cell.full_eq, empty]; decide)]
  · rw [Cell.setFull_eq, Cell.lwrite_no]
  · rw [loc]
    exact Cell.lwrite_localHolds e o 8 _ i hi hx
  · rw [loc]
    exact Cell.lwrite_localKept e o _ (length_leBytes ..) x out hx

end

section
variable {s : State} {c : Nat} {k : Slot} {r : RemoteFe} {rs : List RemoteFe}

theorem State.sendPacket_remote (s : State) (p : Packet) (t : Nat) : (s.sendPacket p t).net.remote = s.net.remote := by
  unfold State.sendPacket
  dsimp only
  split <;> rfl

theorem State.sendPacket_cellAt (s : State) (p : Packet) (t n : Nat) : (s.sendPacket p t).cellAt n = s.cellAt n := by
  rw [State.sendPacket_eq]
  rfl

theorem State.countDiverted_eq (s : State) (d : Nat) : s.countDiverted d = { s with mem := (s.countDiverted d).mem } := rfl

theorem State.putRemote_remote {x : RemoteFe} (hr : s.net.remote = r :: rs) (d : ∀ q ∈ rs, q.id ≠ r.id) (hx : x.id = r.id) :
    (s.putRemote x).net.remote = x :: rs := by
  have others : rs.map (fun q => if q.id == x.id then x else q) = rs := by
    refine (List.map_congr_left fun q hq => ?_).trans (List.map_id rs)
    rw [if_neg (by rw [hx]; simpa using d q hq)]
    rfl
  simp only [State.putRemote, hr, List.map_cons, others, if_pos (show (r.id == x.id) = true by simp [hx])]

/-- The answer goes back from the cell that the attempt has come to; no cell is another for it. -/
theorem State.answerRemote_keeps (hr : s.net.remote = r :: rs) (d : ∀ q ∈ rs, q.id ≠ r.id) (v : Nat) :
    (s.answerRemote r v).net.remote = { r with travel := r.dest != r.cell, answer := some v } :: rs ∧ ∀ n, (s.answerRemote r v).cellAt n = s.cellAt n := by
  have put : (s.putRemote { r with travel := r.dest != r.cell, answer := some v }).net.remote = _ := State.putRemote_remote hr d rfl
  unfold State.answerRemote
  dsimp only
  split
  · exact ⟨(State.sendPacket_remote ..).trans put, fun n => State.sendPacket_cellAt ..⟩
  · exact ⟨put, fun n => rfl⟩

end
end Sys2Proof.Machine

namespace Sys2Proof.Machine

section
variable {s : State} {c : Nat} {k : Slot} {r : RemoteFe} {rs : List RemoteFe}

theorem Numbered.putCell_self (hn : Numbered s) (n m : Nat) : (s.putCell (s.cellAt n)).cellAt m = s.cellAt m := by
  by_cases h : m = n
  · subst h
    exact hn.cellAt_putCell rfl
  · exact State.cellAt_putCell_ne (by rwa [hn.cellAt_no])

/-- Another state with the same cells. -/
theorem Numbered.of_cells {t : State} (hn : Numbered s) (hcur : t.cur = s.cur) (hcell : t.cell = s.cell) (ho : t.others = s.others) : Numbered t := by
  unfold Numbered
  rw [hcur, hcell, ho]
  exact hn

/-! ### A refused store is sent again -/

/-- The attempt of the remote store that hart `k` of cell `n`, of a team, has in its registers. -/
def State.attemptOf (s : State) (n : Nat) (k : Slot) (v : Serving) (d a : Reg) : RemoteFe :=
  let h := s.hartAt n k
  let p := peerRef (h.S a)
  let dest := s.teamCell v.launch v.team p.tx p.ty
  let far := match dest with
    | some m => m != n
    | none => false
  { id := s.cmdNo, cell := n, slot := k, launch := v.launch, team := v.team, tx := p.tx, ty := p.ty, dest := dest.getD n, off := p.off, value := h.S d,
    travel := far, answer := if dest.isNone then some 2 else none }

theorem State.sendRemote_sends (hn : Numbered s) {v : Serving} {d a : Reg} (w : (s.hartAt c k).st = .wait .remote)
    (i : (s.hartAt c k).winstr = some (.stfer false d a)) (hv : (s.cellAt c).serving = some v) (quiet : s.attempting c k = false)
    (idle : (s.hartAt c k).req ≠ .sent) (held : (s.hartAt c k).held = []) (rel : (s.hartAt c k).relAfter = []) :
    ∃ u, s.sendRemote c k = some u ∧ HartSet s u c k { s.hartAt c k with req := .sent } ∧ BanksKept s u ∧
      u.net.remote = s.net.remote ++ [s.attemptOf c k v d a] := by
  have store : (s.hartAt c k).remoteStore = some (d, a) := by unfold Hart.remoteStore; rw [w, i]
  have go : (s.attempting c k || (s.hartAt c k).req == .sent || !(s.hartAt c k).held.isEmpty ||
      (s.hartAt c k).relAfter.any (fun i => ((s.cellAt c).outstanding k).contains i)) = false := by simp [quiet, idle, held, rel]
  let sent : State := { s with net := { s.net with remote := s.net.remote ++ [s.attemptOf c k v d a] }, cmdNo := s.cmdNo + 1 }
  let far := (s.attemptOf c k v d a).travel
  let p := sent.packetFrom s.cmdNo .attempt 8 (some (v.launch, v.team)) c [(s.attemptOf c k v d a).dest]
  let t := if far then sent.sendPacket p (s.cellAt c).begins else sent
  have same : t = { sent with net := t.net } ∧ t.net.remote = sent.net.remote := by
    by_cases hf : far = true
    · rw [show t = sent.sendPacket p (s.cellAt c).begins from if_pos hf]
      exact ⟨State.sendPacket_eq .., State.sendPacket_remote ..⟩
    · rw [show t = sent from if_neg hf]
      exact ⟨rfl, rfl⟩
  obtain ⟨ht, hr⟩ := same
  have numbered : Numbered t := by
    rw [ht]
    exact hn.of_cells rfl rfl rfl
  have cells (n) : t.cellAt n = s.cellAt n := by rw [ht]; rfl
  have run : s.sendRemote c k = some (t.setHartAt c k { s.hartAt c k with req := .sent }) := by
    unfold State.sendRemote
    dsimp only
    rw [show (s.cellAt c).hart k = s.hartAt c k from rfl, store, hv, Option.bind_some, Option.bind_some, go]
    rfl
  refine ⟨_, run, ⟨numbered.hartSet.1, fun m j d => ?_⟩, fun m => ?_, ?_⟩
  · rw [numbered.hartSet.2 m j d, State.hartAt, cells, State.hartAt]
  · rw [← cells]
    exact numbered.banksKept_setHartAt m
  · rw [State.setHartAt, State.putCell_net, hr]

theorem execStferResend_eq {u : State} (run : s.resend c k = some u) : exec (.stferResend c k) s = .next u := by
  show execStferResend c k s = _
  rw [execStferResend, run, Option.getD_some]

theorem execStferResend_sends (hn : Numbered s) {v : Serving} {d a : Reg} (w : (s.hartAt c k).st = .wait .remote)
    (i : (s.hartAt c k).winstr = some (.stfer false d a)) (none : s.net.remote = []) (hv : (s.cellAt c).serving = some v)
    (held : (s.hartAt c k).held = []) (rel : (s.hartAt c k).relAfter = []) (refused : (s.hartAt c k).req = .answered 0)
    (inside : ∀ t0, (s.hartAt c k).since = some t0 → s.tbase < t0 + (s.hartAt c k).fwl.toNat) :
    ∃ u r, exec (.stferResend c k) s = .next u ∧ HartSet s u c k { s.hartAt c k with req := .sent } ∧ BanksKept s u ∧ u.net.remote = [r] ∧
      r = s.attemptOf c k v d a := by
  have quiet : s.attempting c k = false := by
    unfold State.attempting
    simp [none, refused]
  obtain ⟨u, sent, set, banks, remote⟩ := State.sendRemote_sends hn w i hv quiet (by simp [refused]) held rel
  have run : s.resend c k = some u := by
    unfold State.resend
    dsimp only
    rw [i, sent]
    cases hs : (s.hartAt c k).since with
    | none => simp [refused]
    | some t0 => simp [refused, inside t0 hs]
  exact ⟨u, _, execStferResend_eq run, set, banks, by rw [remote, none, List.nil_append], rfl⟩

/-- The attempt names the target, travels where it is another cell, and fails at once where the team has none there. -/
theorem State.attemptOf_dest (s : State) (n : Nat) (k : Slot) (v : Serving) (d a : Reg) :
    match s.teamCell v.launch v.team (peerRef ((s.hartAt n k).S a)).tx (peerRef ((s.hartAt n k).S a)).ty with
    | some m => (s.attemptOf n k v d a).dest = m ∧ (s.attemptOf n k v d a).answer = none ∧ ((s.attemptOf n k v d a).travel = true ↔ m ≠ n)
    | none => (s.attemptOf n k v d a).answer = some 2 := by
  unfold State.attemptOf
  split
  · next h => simp [h]
  · next h => simp [h]

/-! ### The answer reaches its hart -/

theorem execStferAnswer_eq {u : State} (run : s.remoteAnswer c k = some u) : exec (.stferAnswer c k) s = .next u := by
  show execStferAnswer c k s = _
  rw [execStferAnswer, run, Option.getD_some]

theorem execStferAnswer_answers (hn : Numbered s) {v : Nat} (hr : s.net.remote = r :: rs) (hcell : r.cell = c) (hslot : r.slot = k)
    (there : r.travel = false) (answered : r.answer = some v) : ∃ u, exec (.stferAnswer c k) s = .next u ∧ u.net.remote = rs ∧ BanksKept s u ∧
      HartSet s u c k { s.hartAt c k with req := .answered (BitVec.ofNat 64 v)
                                          since := if v = 0 then some ((s.hartAt c k).since.getD s.tbase) else (s.hartAt c k).since } := by
  have mine : (r.cell == c && r.slot == k && r.answer.isSome && !r.travel) = true := by simp [hcell, hslot, there, answered]
  let t : State := { s with net := { s.net with remote := rs } }
  have numbered : Numbered t := hn.of_cells rfl rfl rfl
  have run : s.remoteAnswer c k = some (t.setHartAt c k { s.hartAt c k with
      req := .answered (BitVec.ofNat 64 v), since := if v = 0 then some ((s.hartAt c k).since.getD s.tbase) else (s.hartAt c k).since }) := by
    unfold State.remoteAnswer
    dsimp only
    rw [hr, List.find?_cons_of_pos (by exact mine), Option.bind_some, answered, Option.map_some, List.eraseP_cons_of_pos (by exact mine)]
    rfl
  refine ⟨_, execStferAnswer_eq run, ?_, fun m => numbered.banksKept_setHartAt m, numbered.hartSet⟩
  rw [State.setHartAt, State.putCell_net]

/-! ### An attempt at its target -/

theorem State.attempt_head (hr : s.net.remote = r :: rs) (hcell : r.cell = c) (hslot : r.slot = k) (there : r.travel = false)
    (open_ : r.answer = none) : s.net.remote.find? (fun r => r.cell == c && r.slot == k && r.answer.isNone && !r.travel) = some r := by
  rw [hr, List.find?_cons_of_pos (by simp [hcell, hslot, there, open_])]

section
variable (hr : s.net.remote = r :: rs) (d : ∀ q ∈ rs, q.id ≠ r.id)
  (head : s.net.remote.find? (fun r => r.cell == c && r.slot == k && r.answer.isNone && !r.travel) = some r)
include head

theorem State.attempt_busy (target : s.remoteTarget r = some r.dest) (busy : (s.cellAt r.dest).bankFree r.off = false) : s.attempt c k = none := by
  unfold State.attempt
  rw [head, Option.bind_some]
  simp [target, busy]

include hr d

theorem State.attempt_here (hn : Numbered s) (target : s.remoteTarget r = some r.dest) (free : (s.cellAt r.dest).bankFree r.off = true)
    {v : Nat} {f : Cell} (tried : (s.cellAt r.dest).tryRemote r.off r.value = (v, f)) (hno : f.no = (s.cellAt r.dest).no) :
    ∃ u, s.attempt c k = some u ∧ u.cellAt r.dest = f ∧ u.net.remote = { r with travel := r.dest != r.cell, answer := some v } :: rs := by
  have run : s.attempt c k = some ((s.putCell f).answerRemote r v) := by
    unfold State.attempt
    rw [head, Option.bind_some]
    simp [target, free, tried]
  obtain ⟨remote, cells⟩ := State.answerRemote_keeps (s := s.putCell f) ((congrArg Net.remote (s.putCell_net f)).trans hr) d v
  exact ⟨_, run, (cells _).trans (hn.cellAt_putCell hno), remote⟩

theorem State.attempt_moved {m : Nat} (target : s.remoteTarget r = some m) (moved : m ≠ r.dest) : ∃ u, s.attempt c k = some u ∧
    (∀ n, u.cellAt n = s.cellAt n) ∧ u.net.remote = { r with dest := m, travel := true } :: rs := by
  have put : ((s.countDiverted (dieOf r.dest)).putRemote { r with dest := m, travel := true }).net.remote = _ :=
    State.putRemote_remote (s := s.countDiverted (dieOf r.dest)) hr d rfl
  have run : ∃ p t, s.attempt c k = some (((s.countDiverted (dieOf r.dest)).putRemote { r with dest := m, travel := true }).sendPacket p t) := by
    unfold State.attempt
    rw [head, Option.bind_some, target]
    exact ⟨_, _, if_neg moved⟩
  obtain ⟨p, t, run⟩ := run
  exact ⟨_, run, fun n => State.sendPacket_cellAt .., (State.sendPacket_remote ..).trans put⟩

theorem State.attempt_unplaced (target : s.remoteTarget r = none) : ∃ u, s.attempt c k = some u ∧ (∀ n, u.cellAt n = s.cellAt n) ∧
    (∀ t, s.team? r.launch r.team = some t → t.image ≠ [] → u.net.remote = { r with travel := r.dest != r.cell, answer := some 0 } :: rs) ∧
    (s.team? r.launch r.team = none → u.net.remote = { r with travel := r.dest != r.cell, answer := some 2 } :: rs) := by
  have keeps := State.answerRemote_keeps (s := s.countDiverted (dieOf r.dest)) (hr := hr) d
  cases ht : s.team? r.launch r.team with
  | none =>
    have run : s.attempt c k = some ((s.countDiverted (dieOf r.dest)).answerRemote r 2) := by
      unfold State.attempt
      rw [head, Option.bind_some, target]
      simp [ht]
    exact ⟨_, run, (keeps _).2, by simp, fun _ => (keeps _).1⟩
  | some t =>
    have run : s.attempt c k = some ((s.countDiverted (dieOf r.dest)).answerRemote r (if t.image = [] then 2 else 0)) := by
      unfold State.attempt
      rw [head, Option.bind_some, target]
      by_cases saved : t.image = [] <;> simp [ht, saved]
    refine ⟨_, run, (keeps _).2, fun t' h saved => (keeps _).1.trans ?_, by simp⟩
    cases h
    rw [if_neg saved]

end

end

/-! ### A team barrier passed (R253) -/

theorem execTbar_woken {s : State} {c : Nat} {d a b : Reg} (hc : s.cur = .cell c) (hw : s.hart.st = .wait .teamBarrier) (woken : s.hart.woken = true) :
    Completes s (execTbar false d a b s) fun t => RegisteredOnly t.cell ∧ t.hart.win = s.hart.win ∧ t.hart.winSb = s.hart.winSb := by
  let w : IWord := BitVec.ofNat 32 (s.hart.S a).toNat
  let t : State := { s with cell := { s.cell with tbarDone := s.cell.tbarDone.erase ⟨w, s.cell.slot⟩ } }
  have run : execTbar false d a b s = t.acquire.finish := by
    unfold execTbar
    dsimp only
    rw [if_pos (by simp [Hart.waits, hw]), if_pos woken]
    rfl
  have hart : t.hart = s.hart := by
    rw [State.hart_cell hc]
    exact State.hart_setCell hc rfl
  have done := completes_acquire (s := t) hc run
  rw [hart] at done
  exact done.of_tbarDone hc

end Sys2Proof.Machine

namespace Sys2Proof.Machine

/-! ## O43: what each wait is completed as, in its hart's slot -/

section
variable {s : State} {c : Nat}

/-- A waiting instruction, in its hart's slot, completes as it does when it runs. -/
theorem waitComplete_completes (hc : s.cur = .cell c) (hn : Numbered s) {e : WaitCause} {i : Instr} {o : Out} {p : State → Prop} (act : s.active = true)
    (ne : e ≠ .fetch) (w : s.hart.st = .wait e ∧ s.hart.winstr = some i) (run : resume i s = o) (done : Completes s o p) :
    Completes s (exec (.waitComplete c s.cell.slot) s) p := by
  rw [waitComplete_resumes hc hn act ne w.1 w.2, run]
  exact done

theorem completes_fwaitb {d a b : Reg} {v : Word} (hc : s.cur = .cell c) (hn : Numbered s) (view : InView s [d, a, b] []) (h : s.hart.req = .answered v) :
    Completes s (execFwaitb false d a b s) fun t => WroteScalar s.hart t.hart d v := by
  have run := execFwaitb_answered hc view h
  by_cases one : v = 1
  · rw [if_pos one] at run
    exact completes_acquire_writeS hc run
  · rw [if_neg one] at run
    exact completes_writeS hc hn run

theorem completes_wakes (hc : s.cur = .cell c) (hn : Numbered s) (act : s.active = true) :
    let h := s.hart
    let waits (e : WaitCause) (i : Instr) : Prop := h.st = .wait e ∧ h.winstr = some i
    let completes := Completes s (exec (.waitComplete c s.cell.slot) s)
    let quiet (t : State) : Prop := t.hart.win = h.win ∧ t.hart.winSb = h.winSb
    (∀ a, waits .sleep (.sleep a) → InView s [a] [] → (h.S a).toNat ≤ s.tbase → completes fun t => t = s.setHart h.complete ∧ quiet t) ∧
    (waits .wfi .wfi → h.anyPending s.tbase = true → completes fun t => t = s.setHart h.complete ∧ quiet t) ∧
    (∀ d a b, waits .barrier (.bwait false d a b) → h.woken = true → (∀ e x, h.check ≠ .failed e x) → completes fun t => RegisteredOnly t.cell ∧ quiet t) ∧
    (∀ d a b, waits .teamBarrier (.tbar false d a b) → h.woken = true → completes fun t => RegisteredOnly t.cell ∧ quiet t) ∧
    (∀ d a b v, waits .boundary (.fwaitb false d a b) → InView s [d, a, b] [] → h.req = .answered v → completes fun t => WroteScalar h t.hart d v) ∧
    (∀ d a, waits .remote (.stfer false d a) → h.req = .answered 1 → completes fun t => t = s.setHart h.complete ∧ quiet t) ∧
    (∀ d a off, waits .fullEmpty (.ldfeK false d a off) → InView s [d, a] [] → (h.offset a off).toNat % 8 = 0 →
      (h.offset a off).toNat + 8 ≤ s.cell.localSize → (∀ e x, h.check ≠ .failed e x) → fullBit s.cell (h.offset a off).toNat = true →
      completes fun t => WroteScalar h t.hart d (BitVec.ofNat 64 (leNat (s.cell.loc.read (h.offset a off).toNat 8)))) ∧
    (∀ w d m g, waits .data (.ld w d m) → InView s (d :: regsOf m) [] → Came s (h.address m) (MW.bytes w) g →
      completes fun t => WroteScalar h t.hart d (loadedWord (w == .i8 || w == .i16 || w == .i32) (MW.bytes w)
        ((g.data.drop ((h.address m).toNat % 128)).take (MW.bytes w)))) := by
  refine ⟨fun a w view due => ?_, fun w pending => ?_, fun d a b w woken ok => ?_, fun d a b w woken => ?_, fun d a b v w view answered => ?_,
    fun d a w accepted => ?_, fun d a off w view al fits ok full => ?_, fun x d m g w view came => ?_⟩
  · exact waitComplete_completes hc hn act (by decide) w rfl (completes_finish hc hn (execSleep_due view due))
  · exact waitComplete_completes hc hn act (by decide) w rfl (completes_finish hc hn (execWfi_pending pending))
  · exact waitComplete_completes hc hn act (by decide) w rfl (completes_acquire hc (execBwait_woken w.1 woken ok))
  · exact waitComplete_completes hc hn act (by decide) w rfl (execTbar_woken hc w.1 woken)
  · exact waitComplete_completes hc hn act (by decide) w rfl (completes_fwaitb hc hn view answered)
  · exact waitComplete_completes hc hn act (by decide) w rfl (completes_finish hc hn (execStfer_accepted w.1 accepted))
  · exact waitComplete_completes hc hn act (by decide) w rfl (completes_writeS hc hn (execLdfeK_full hc w.1 view al fits ok full))
  · exact waitComplete_completes hc hn act (by decide) w rfl (completes_writeS hc hn (execLd_came w.1 view came))

end

/-! ## O43: what an attempt of a remote store comes to -/

section
variable {s : State} {c : Nat} {k : Slot} {r : RemoteFe} {rs : List RemoteFe}

theorem stferAttempt_comes (hn : Numbered s) (hr : s.net.remote = r :: rs) (hcell : r.cell = c) (hslot : r.slot = k) (there : r.travel = false)
    (d : ∀ q ∈ rs, q.id ≠ r.id) (fresh : r.answer = none) : ∃ u, exec (.stferAttempt c k) s = .next u ∧
    let e := s.cellAt r.dest
    let f := u.cellAt r.dest
    let reply (v : Nat) : Prop := u.net.remote = { r with travel := r.dest != r.cell, answer := some v } :: rs
    (s.remoteTarget r = some r.dest → e.bankFree r.off = false → u = s) ∧
    (s.remoteTarget r = some r.dest → e.bankFree r.off = true →
      (e.localSize < r.off + 8 → f = e ∧ reply 2) ∧
      (r.off + 8 ≤ e.localSize → fullBit e r.off = true → f = e ∧ reply 0) ∧
      (r.off % 8 = 0 → r.off + 8 ≤ e.localSize → fullBit e r.off = false → fullBit f r.off = true ∧ LocalHolds e f r.off 8 r.value.toNat ∧
        LocalKept e f r.off 8 ∧ reply 1)) ∧
    (∀ m, s.remoteTarget r = some m → m ≠ r.dest → f = e ∧ u.net.remote = { r with dest := m, travel := true } :: rs) ∧
    (s.remoteTarget r = none → f = e ∧
      (∀ t, s.team? r.launch r.team = some t → t.image ≠ [] → reply 0) ∧ (s.team? r.launch r.team = none → reply 2)) := by
  have head := State.attempt_head hr hcell hslot there fresh
  have run : exec (.stferAttempt c k) s = .next ((s.attempt c k).getD s) := rfl
  refine ⟨_, run, ?_⟩
  rcases target : s.remoteTarget r with _ | m
  · obtain ⟨u, attempt, cells, saved, gone⟩ := State.attempt_unplaced hr d head target
    rw [attempt, Option.getD_some]
    exact ⟨nofun, nofun, nofun, fun _ => ⟨cells _, saved, gone⟩⟩
  · by_cases here : m = r.dest
    · subst here
      refine ⟨fun _ busy => by rw [State.attempt_busy head target busy]; rfl, fun _ free => ?_, fun m h ne => absurd (Option.some.inj h).symm ne, nofun⟩
      have at_ := fun {v f} => State.attempt_here (v := v) (f := f) hr d head hn target free
      refine ⟨fun small => ?_, fun fits full => ?_, fun _ fits empty => ?_⟩
      · obtain ⟨u, attempt, cell, reply⟩ := at_ (Cell.tryRemote_small small) rfl
        rw [attempt, Option.getD_some]
        exact ⟨cell, reply⟩
      · obtain ⟨u, attempt, cell, reply⟩ := at_ (Cell.tryRemote_full fits full) rfl
        rw [attempt, Option.getD_some]
        exact ⟨cell, reply⟩
      · obtain ⟨f, tried, no, bit, holds, kept⟩ := Cell.tryRemote_empty (v := r.value) fits empty
        obtain ⟨u, attempt, cell, reply⟩ := at_ tried no
        rw [attempt, Option.getD_some, cell]
        exact ⟨bit, holds, kept, reply⟩
    · obtain ⟨u, attempt, cells, remote⟩ := State.attempt_moved hr d head target here
      rw [attempt, Option.getD_some]
      refine ⟨fun h => absurd (Option.some.inj h) here, fun h => absurd (Option.some.inj h) here, fun n h _ => ?_, nofun⟩
      cases h
      exact ⟨cells _, remote⟩

end

/-- Settles O43: each event by the lemma about its own effect. -/
theorem hartEvents : Obligations.HartEvents := by
  unfold Obligations.HartEvents
  intro s c k hc hn hk
  subst hk
  have focus := hn.hartAt_focus hc
  have cell := hn.cellAt_focus hc
  refine ⟨fetch_misses hc hn, ?_, fun m hm ha hk hp => ⟨heldRetry_waits hm ha hk hp, fun l kind asid va hl may has =>
      heldRetry_fetch hm ha hk hp kind asid va hl may has⟩, fun i d a b w sc m off => waitComplete_exec hc hn, completes_wakes hc hn,
    fun m bit => interruptTaken_enters hc hn, ⟨rfl, fun m => Hart.ip_timer s.hart m s.tbase⟩, ?_, fun x f t0 act hx hf => rlimExpire_enters hc hn act hx hf,
    fun w => rfl, ?_, ?_⟩
  · intro m l u g hm ha hk kind va hp ok held line hw asks none free hl bs whole
    obtain ⟨t, run, mem, banks, set⟩ := codeLineFill_delivers hn hm ha hk kind (by rwa [focus]) hp ok held line (by rwa [focus]) (by rwa [focus])
      (by rwa [focus]) (by rwa [cell]) hl whole
    rw [focus, cell] at set
    exact ⟨t, run, mem, banks, set⟩
  · intro d a off t0 i act hw hs past hi
    refine ⟨fun needs empty => ?_, fun e full => ?_⟩
    · exact fwlLimit_traps hc hn act (limitTrap_full hc hw hs past hi needs empty)
    · subst e
      exact fwlLimit_traps hc hn act (limitTrap_empty hc hw hs past hi full)
  · intro d a v hw hi quiet serving held rel refused inside
    obtain ⟨u, r, run, set, banks, remote, rfl⟩ := execStferResend_sends hn (c := c) (k := s.cell.slot) (by rwa [focus]) (by rwa [focus]) quiet (by rwa [cell])
      (by rwa [focus]) (by rwa [focus]) (by rwa [focus]) (by rwa [focus])
    have dest := s.attemptOf_dest c s.cell.slot v d a
    rw [focus] at set dest
    refine ⟨u, _, run, set, banks, remote, ?_, ?_⟩
    · have off : (peerRef (s.hart.S a)).off = (s.hart.S a).toNat % 2 ^ 17 := by simp [peerRef, fieldOf]
      simp only [State.attemptOf, focus, off]
    · exact dest
  · intro r rs hr hcell hslot there d
    refine ⟨fun v answered => ?_, stferAttempt_comes hn hr hcell hslot there d⟩
    have answers := execStferAnswer_answers hn hr hcell hslot there answered
    rwa [focus] at answers

end Sys2Proof.Machine

namespace Sys2Proof.Machine

/-! ## O45: the matrix engine starts, credits and retires its commands (R229, R230) -/

section
variable {s : State} {c : Nat} {q : MatCmd} {qs : List MatCmd}

/-- The engine with its first command started. -/
def Cell.startMat (e : Cell) (q : MatCmd) (qs : List MatCmd) (str narrow : Bool) : Cell :=
  { e with mq := { q with start := some e.cycle, narrow := str && narrow, fmtWord := e.fmtWord, plane := e.aplane } :: qs,
           narrow := if str then str && narrow else e.narrow }

/-- A stream command. -/
def MatOp.streams (o : MatOp) : Bool :=
  match o with
  | .mstr _ _ _ _ => true
  | _ => false

theorem matrixStart_starts (hq : (s.cellAt c).mq = q :: qs) (idle : ∀ r ∈ q :: qs, r.start = none) (entered : q.entered < (s.cellAt c).cycle)
    (free : (s.cellAt c).mfree ≤ (s.cellAt c).cycle) (follows : (s.cellAt c).follows q.slot q.after q.upto = true) :
    s.matrixStart c = some (s.putCell (match q.op with
      | .mswp => { (s.cellAt c).startMat q qs q.op.streams (s.alarmAt c) with aplane := !(s.cellAt c).aplane }
      | .mfmt w => { (s.cellAt c).startMat q qs q.op.streams (s.alarmAt c) with fmtWord := w }
      | _ => (s.cellAt c).startMat q qs q.op.streams (s.alarmAt c))) := by
  have first : q.start.isNone = true := by rw [idle q (List.mem_cons_self ..)]; rfl
  have quiet (p : MatCmd → Bool) : ((s.cellAt c).mq.any fun r => r.start.isSome && p r) = false := by
    rw [hq]
    exact List.any_eq_false.mpr fun r hr => by simp [idle r hr]
  unfold State.matrixStart
  dsimp only
  rw [hq, List.find?_cons_of_pos (by exact first)]
  dsimp only
  rw [if_neg]
  · simp only [mapFirst, first, if_true]
    unfold Cell.startMat MatOp.streams
    cases q.op <;> simp
  · simp [Cell.loadBusy, Cell.streamBusy, quiet, entered, free, follows]

theorem matrixRetire_retires {t0 : Nat} (hq : (s.cellAt c).mq = q :: qs) (start : q.start = some t0) (past : q.lastCycle t0 < (s.cellAt c).cycle)
    (mwait : (s.cellAt c).mwait = []) (cwait : (s.cellAt c).cwait = []) :
    s.matrixRetire c = some (s.putCell { s.cellAt c with mq := qs, mfree := q.lastCycle t0 + 2 }) := by
  have queues (e : Cell) (hm : e.mwait = []) (hc : e.cwait = []) : e.serveQueues = e := by
    have m : e.reserveM = e := by unfold Cell.reserveM; rw [hm]
    have c : e.reserveC = e := by unfold Cell.reserveC; rw [hc]
    unfold Cell.serveQueues
    simp only [m, c]
  unfold State.matrixRetire
  dsimp only
  rw [hq, List.find?_cons_of_pos (by simp [start, past]), Option.map_some, List.eraseP_cons_of_pos (by simp [start, past]), start]
  exact congrArg (fun f => some (s.putCell f)) (queues _ mwait cwait)

end

/-! ## Objects credited (R114) -/

section
variable (e : Cell) (o n : Nat) (bad : Bool)

/-- A credit touches LOCAL, and which waits have ended. -/
theorem Cell.credit_retested : ∃ m, Retested { e with loc := m } (e.credit o n bad) := by
  unfold Cell.credit Cell.objStep
  split
  · exact ⟨_, Cell.lwrite_retested ..⟩
  · exact ⟨e.loc, Retested.refl _⟩

theorem Cell.credit_cell : e.credit o n bad = { e with harts := (e.credit o n bad).harts, loc := (e.credit o n bad).loc } := by
  obtain ⟨m, h⟩ := Cell.credit_retested e o n bad
  rw [h.cell]

theorem Cell.credit_credits (fits : o + 16 ≤ e.localSize) : Credited e (e.credit o n bad) o n bad ∧ LocalKept e (e.credit o n bad) o 16 := by
  unfold Cell.credit Credited
  rw [Cell.objStep_eq fits]
  refine ⟨⟨fun i hi hx => ?_, fun i hi hx => ?_⟩, Cell.lwrite_localKept e o _ (length_objBytes ..)⟩
  · rw [Cell.lwrite_byte _ _ _ hx, (byte_objBytes _ _ _ _ hi).1]
    rfl
  · rw [Cell.lwrite_byte _ _ _ hx, (byte_objBytes _ _ _ _ hi).2]
    rfl

end

section
variable {s : State} {c : Nat}

theorem matrixPieceCredit_credits {k : Credit} {ks : List Credit} (hn : Numbered s) (hk : (s.cellAt c).credits = k :: ks) (cmd : k.cmd = none)
    (due : k.cycle < (s.cellAt c).cycle) (fits : k.obj + 16 ≤ (s.cellAt c).localSize) : ∃ t, exec (.matrixPieceCredit c) s = .next t ∧
      (t.cellAt c).credits = ks ∧ Credited (s.cellAt c) (t.cellAt c) k.obj k.bytes k.bad ∧ LocalKept (s.cellAt c) (t.cellAt c) k.obj 16 ∧
      t.mem = s.mem ∧ ∀ d, d ≠ c → t.cellAt d = s.cellAt d := by
  let e : Cell := { s.cellAt c with credits := ks }
  have run : s.matrixCredit c = some (s.putCell (e.credit k.obj k.bytes k.bad)) := by
    unfold State.matrixCredit
    dsimp only
    rw [hk, List.find?_cons_of_pos (by simp [cmd, due]), Option.map_some, List.eraseP_cons_of_pos (by simp [cmd, due])]
  have no : (e.credit k.obj k.bytes k.bad).no = c := (Cell.credit_no ..).trans (hn.cellAt_no c)
  have put : (s.putCell (e.credit k.obj k.bytes k.bad)).cellAt c = e.credit k.obj k.bytes k.bad := hn.cellAt_putCell (Cell.credit_no ..)
  refine ⟨_, next_getD run, ?_⟩
  rw [put]
  refine ⟨by rw [Cell.credit_cell], Cell.credit_credits e _ _ _ fits |>.1, Cell.credit_credits e _ _ _ fits |>.2, State.putCell_mem .., fun d hd => ?_⟩
  exact State.cellAt_putCell_ne (by rwa [no])

theorem copyStart_starts {q : CopyCmd} {qs : List CopyCmd} (hq : (s.cellAt c).cq = q :: qs) (idle : ∀ r ∈ q :: qs, r.started = false)
    (entered : q.entered < (s.cellAt c).cycle) (free : (s.cellAt c).cfree ≤ (s.cellAt c).cycle) (rediv : (s.cellAt c).rediv = none) :
    s.copyStart c = some (s.putCell { s.cellAt c with cq := { q with started := true, portTo := (s.cellAt c).cycle - 1 } :: qs }) := by
  have first : (!q.started) = true := by rw [idle q (List.mem_cons_self ..)]; rfl
  have all : ((q :: qs).all fun r => !r.started || r.allIssued) = true := List.all_eq_true.mpr fun r hr => by simp [idle r hr]
  unfold State.copyStart
  dsimp only
  rw [hq, List.find?_cons_of_pos (by exact first)]
  dsimp only
  rw [if_pos (by simp [all, free, entered, Cell.relocating, rediv]), mapFirst, if_pos first]

end
end Sys2Proof.Machine

namespace Sys2Proof.Machine

/-! ## Cells as the memory system leaves them: nothing but their caches, and nothing of their harts but failures reported, changes -/

/-- A cell without its caches and its harts. -/
def Cell.rest (c : Cell) : Cell := { c with cache := [], code := [], harts := Vector.replicate 16 Hart.reset }

@[simp] theorem Cell.mapCache_rest (c : Cell) (g : CLine → CLine) : (c.mapCache g).rest = c.rest := rfl

/-- The cells' numbers are their own, and all but their caches and harts is as `f` says. -/
def CellsAre (f : Nat → Cell) (s : State) : Prop := Numbered s ∧ ∀ n, (s.cellAt n).rest = f n

/-- Every state that an answer may hold has such cells. -/
def CellsAreOpt (f : Nat → Cell) (o : Option State) : Prop := ∀ t, o = some t → CellsAre f t

section
variable {f : Nat → Cell} {s t : State}

theorem CellsAre.of_pair {α : Type} {p : α × State} {x : α} (h : CellsAre f p.2) (e : p = (x, t)) : CellsAre f t := by
  rw [e] at h
  exact h

theorem CellsAreOpt.none : CellsAreOpt f none := by
  rintro _ ⟨⟩

theorem CellsAreOpt.some (h : CellsAre f s) : CellsAreOpt f (some s) := fun _ e => Option.some.inj e ▸ h

theorem CellsAreOpt.map {o : Option State} {g : State → State} (h : CellsAreOpt f o) (k : ∀ t, CellsAre f t → CellsAre f (g t)) :
    CellsAreOpt f (o.map g) := by
  cases o with
  | none => exact .none
  | some t => exact .some (k t (h t rfl))

theorem CellsAre.foldl {α : Type} {l : List α} {g : State → α → State} (h : CellsAre f s) (k : ∀ t x, CellsAre f t → CellsAre f (g t x)) :
    CellsAre f (l.foldl g s) := foldl_keeps h k

theorem CellsAre.foldlSnd {α β : Type} {l : List β} {g : α × State → β → α × State} {b : α × State} (h : CellsAre f b.2)
    (k : ∀ r x, CellsAre f r.2 → CellsAre f (g r x).2) : CellsAre f (l.foldl g b).2 :=
  foldl_keeps (P := fun r : α × State => CellsAre f r.2) h k

theorem Numbered.cellsAre (hn : Numbered s) : CellsAre (fun n => (s.cellAt n).rest) s := ⟨hn, fun _ => rfl⟩

theorem CellsAre.putCell {c : Cell} (h : CellsAre f s) (hc : c.rest = f c.no) : CellsAre f (s.putCell c) := by
  refine ⟨h.1.putCell c, fun n => ?_⟩
  by_cases e : n = c.no
  · rw [e, State.cellAt_putCell, hc]
  · rw [State.cellAt_putCell_ne e, h.2]

theorem CellsAre.setHartAt {n : Nat} {k : Slot} {g : Hart} (h : CellsAre f s) : CellsAre f (s.setHartAt n k g) := by
  refine h.putCell ?_
  rw [Cell.setHart_no, h.1.cellAt_no]
  exact h.2 n

theorem assocGet_map {α : Type} (g : α → α) (n : Nat) (l : List (Nat × α)) : assocGet n (l.map fun p => (p.1, g p.2)) = (assocGet n l).map g := by
  unfold assocGet
  rw [List.find?_map, Option.map_map, Option.map_map]
  rfl

/-- Every cell's caches changed. -/
theorem CellsAre.mapCells {g : Cell → Cell} (h : CellsAre f s) (k : ∀ c, (g c).rest = c.rest) : CellsAre f (s.mapCells g) := by
  have no (c : Cell) : (g c).no = c.no := by
    have same := congrArg Cell.no (k c)
    exact same
  refine ⟨⟨fun n hn => (no _).trans (h.1.1 n hn), fun p hp => ?_⟩, fun n => (?_ : _ = (s.cellAt n).rest).trans (h.2 n)⟩
  · obtain ⟨q, hq, rfl⟩ := List.mem_map.1 hp
    exact (no _).trans (h.1.2 q hq)
  · have rest : (s.mapCells g).restCell n = s.restCell n := rfl
    unfold State.cellAt
    rw [rest]
    simp only [State.mapCells, no, assocGet_map]
    split
    · exact k s.cell
    · cases assocGet n s.others with
      | none => rfl
      | some c => exact k c

theorem CellsAre.notice {b l : Nat} (h : CellsAre f s) : CellsAre f (s.notice b l) := by
  rw [State.notice_eq]
  exact h

theorem CellsAre.putPhysLine {kept : Bool} {pa : Nat} {bs sb : List Byte} (h : CellsAre f s) : CellsAre f (s.putPhysLine kept pa bs sb) := by
  unfold State.putPhysLine
  repeat' split
  all_goals exact h

theorem CellsAre.putLine {l : OLine} (h : CellsAre f s) : CellsAre f (s.putLine l) := h

theorem CellsAre.registerPt {rs : List PtReg} (h : CellsAre f s) : CellsAre f (s.registerPt rs) := h

theorem CellsAre.fillEntry {asid page : Nat} {w : Word} {pa : Nat} {ls : List Nat} (h : CellsAre f s) : CellsAre f (s.fillEntry asid page w pa ls).2 :=
  h

theorem CellsAre.askAgent {asid page : Nat} (h : CellsAre f s) : CellsAre f (s.askAgent asid page).2 := by
  unfold State.askAgent
  split
  · exact h
  split
  · exact h
  split
  · exact h
  split
  · exact h
  split
  · exact h
  split
  · dsimp only
    exact h.fillEntry
  · dsimp only
    exact h
  all_goals exact h

theorem CellsAre.window {core : Bool} {lv : Level} {n : Need} {va : Nat} (h : CellsAre f s) : CellsAre f (s.window core lv n va).2 := by
  unfold State.window
  dsimp only
  split
  · exact h
  split
  · split
    · exact h
    split
    · exact h.putLine
    all_goals exact h
  · repeat' split
    all_goals exact h
  · exact h

theorem CellsAre.miss {asid : Nat} {lv : Level} {n : Need} {va : Nat} (h : CellsAre f s) : CellsAre f (s.miss asid lv n va).2 := by
  unfold State.miss
  dsimp only
  split
  · split
    · exact h.askAgent.of_pair ‹_›
    split
    · exact h.askAgent.of_pair ‹_›
    split
    · exact h.askAgent.of_pair ‹_›
    split
    · exact (h.askAgent.of_pair ‹_›).putLine
    split
    · split
      · exact h.askAgent.of_pair ‹_›
      · exact (h.askAgent.of_pair ‹_›).putLine
    all_goals exact h.askAgent.of_pair ‹_›
  all_goals exact h.askAgent.of_pair ‹_›

theorem CellsAre.locate {core : Bool} {asid : Nat} {lv : Level} {n : Need} {va : Nat} (h : CellsAre f s) :
    CellsAre f (s.locate core asid lv n va).2 := by
  unfold State.locate
  split
  · exact h
  split
  · exact h.window
  split
  · split
    exacts [h, h.miss]
  · exact h.miss

theorem CellsAre.storeLine {n : Option Nat} {key : LineKey} {o : Nat} {bs sb : List Byte} (h : CellsAre f s) :
    CellsAre f (s.storeLine n key o bs sb) := by
  unfold State.storeLine
  split
  · exact h
  dsimp only
  exact h.putLine.mapCells (by simp)

theorem CellsAre.storeMem {pa : Nat} {kept : Bool} {bs sb : List Byte} (h : CellsAre f s) : CellsAre f (s.storeMem pa kept bs sb) := by
  unfold State.storeMem
  split
  exacts [h.putPhysLine, h, h]

theorem CellsAre.allocate {n : Nat} {key : LineKey} (h : CellsAre f s) : CellsAre f (s.allocate n key) := by
  unfold State.allocate
  dsimp only
  split
  · split
    exacts [h, h.putCell ((h.2 n).trans (by rw [h.1.cellAt_no]))]
  · exact h

theorem CellsAre.register {n : Option Nat} {key : LineKey} {m : BitVec 16} (h : CellsAre f s) : CellsAre f (s.register n key m) := by
  unfold State.register
  dsimp only
  split
  · split
    exacts [h.allocate, h]
  refine .mapCells ?_ (by simp)
  split
  exacts [h.allocate, h]

theorem CellsAre.returnWords {key : LineKey} (h : CellsAre f s) : CellsAre f (s.returnWords key) := h.mapCells (by simp)

theorem CellsAre.agentFor {l : OLine} (h : CellsAre f s) : CellsAre f (s.agentFor l) := by
  unfold State.agentFor
  dsimp only
  split
  · exact h
  split
  exacts [h.fillEntry, h]

theorem CellsAre.writeBackLine {through : Bool} {l : OLine} (h : CellsAre f s) : CellsAre f (s.writeBackLine through l) := by
  unfold State.writeBackLine
  split
  · exact h
  split
  · exact h
  dsimp only
  split
  exacts [h.agentFor.putLine.returnWords, h.agentFor.putLine.returnWords.putPhysLine]

theorem CellsAre.cleanLines {through : Bool} {p : LineKey → Bool} (h : CellsAre f s) : CellsAre f (s.cleanLines through p) := by
  unfold State.cleanLines
  refine h.foldl fun t x h1 => ?_
  split
  exacts [h1.writeBackLine, h1]

theorem CellsAre.dropCopies {p : LineKey → Bool} (h : CellsAre f s) : CellsAre f (s.dropCopies p) :=
  h.mapCells (g := fun c => { c with cache := c.cache.filter fun l => !p l.key }) fun _ => rfl

theorem CellsAre.sendPacket {p : Packet} {t : Nat} (h : CellsAre f s) : CellsAre f (s.sendPacket p t) := by
  unfold State.sendPacket
  dsimp only
  repeat' split
  all_goals exact h

theorem CellsAre.stampMsg {t : Nat} {k : LineKey} {m : Sent} (h : CellsAre f s) : CellsAre f (s.stampMsg t k m).2 := by
  unfold State.stampMsg
  split
  · exact h
  dsimp only
  split
  exacts [h, h.sendPacket]

theorem CellsAre.putCoh {t : Nat} {l : CohLine} (h : CellsAre f s) : CellsAre f (s.putCoh t l) := by
  unfold State.putCoh
  dsimp only
  split
  exacts [h, h.foldlSnd (fun r x h1 => h1.stampMsg)]

theorem CellsAre.recallWords {die : Nat} {k : LineKey} (h : CellsAre f s) : CellsAre f (s.recallWords die k) := by
  unfold State.recallWords
  refine h.mapCells fun c => ?_
  split <;> rfl

theorem CellsAre.cohWrite {d : Nat} {k : LineKey} (h : CellsAre f s) : CellsAreOpt f (s.cohWrite d k) := by
  unfold State.cohWrite
  dsimp only
  split
  · exact .some h
  split
  · exact .some h.putCoh
  split
  exacts [.none, .some ((h.foldl (fun t x h1 => h1.recallWords)).putCoh)]

theorem CellsAre.putUnit {u : FaultUnit} (h : CellsAre f s) : CellsAre f (s.putUnit u) := h

theorem CellsAre.faultNotice {u : FaultUnit} (h : CellsAre f s) : CellsAre f (s.faultNotice u) := by
  unfold State.faultNotice
  split
  exacts [h.notice, h]

theorem CellsAre.markDropped {d asid page : Nat} (h : CellsAre f s) : CellsAre f (s.markDropped d asid page) := h

theorem CellsAre.recordFault {cell : Nat} {k : Slot} {asid page kind : Nat} {wr prec park : Bool} (h : CellsAre f s) :
    CellsAre f (s.recordFault cell k asid page kind wr prec park) := by
  unfold State.recordFault
  dsimp only
  split
  · exact h.askAgent.putUnit
  split
  · exact h.askAgent.putUnit.faultNotice
  split
  exacts [h.askAgent, h.askAgent.putUnit.faultNotice.markDropped]

theorem CellsAre.recordAccess {cell : Nat} {k : Slot} {asid page kind : Nat} {park : Bool} (h : CellsAre f s) :
    CellsAre f (s.recordAccess cell k asid page kind park) :=
  h.recordFault

theorem CellsAre.dropDerived {line : Nat} (h : CellsAre f s) : CellsAre f (s.dropDerived line) := h

theorem CellsAre.putTable {pa : Nat} {bs : List Byte} (h : CellsAre f s) : CellsAre f (s.putTable pa bs) := by
  unfold State.putTable
  split
  · exact (h.window.of_pair ‹_›).storeLine
  · exact h.window.of_pair ‹_›

theorem CellsAre.drainParked {p : LineKey → Bool} (h : CellsAre f s) : CellsAre f (s.drainParked p) := by
  unfold State.drainParked
  dsimp only
  refine h.foldl fun t x h1 => ?_
  split
  · split
    exacts [h1.putPhysLine, h1]
  · exact h1

theorem CellsAre.performRetract {p : PtStore} (h : CellsAre f s) : CellsAre f (s.performRetract p) :=
  h.drainParked.cleanLines.dropCopies.dropDerived.putTable

theorem CellsAre.storeTable {die pa : Nat} {bs : List Byte} (h : CellsAre f s) : CellsAreOpt f (s.storeTable die pa bs) := by
  unfold State.storeTable
  dsimp only
  split
  exacts [.none, h.cohWrite.map (fun t h1 => h1.performRetract)]

theorem CellsAre.storeFor {who : Party} {p : Place} {va : Nat} {bs sb : List Byte} (h : CellsAre f s) : CellsAreOpt f (s.storeFor who p va bs sb) := by
  unfold State.storeFor
  split
  · dsimp only
    split
    exacts [h.storeTable, h.cohWrite.map (fun t h1 => h1.register.storeLine)]
  · exact .some h.storeMem
  · exact .some h

theorem CellsAre.storeAt {asid : Nat} {lv : Level} {va : Nat} (h : CellsAre f s) : CellsAre f (s.storeAt asid lv va).2 := by
  unfold State.storeAt
  split
  · exact h.locate.of_pair ‹_›
  · exact h.locate.of_pair ‹_›
  · exact h.locate

theorem CellsAre.writePiece {who : Party} {asid : Nat} {lv : Level} {va : Nat} {bs sb : List Byte} (h : CellsAre f s) :
    CellsAre f (s.writePiece who asid lv va bs sb).2 := by
  unfold State.writePiece
  split
  · split
    · exact ((h.storeAt.of_pair ‹_›).storeFor) _ ‹_›
    · exact h.storeAt.of_pair ‹_›
  all_goals exact h.storeAt.of_pair ‹_›

theorem CellsAre.performRec {who : Party} {asid : Nat} {r : StoreRec} (h : CellsAre f s) : CellsAre f (s.performRec who asid r).2 := h.writePiece

theorem CellsAre.heldFails {n : Nat} {k : Slot} {c : Cause} {a : Nat} (h : CellsAre f s) : CellsAre f (s.heldFails n k c a) := by
  unfold State.heldFails
  dsimp only
  refine .setHartAt ?_
  split
  exacts [h.recordAccess, h]

theorem CellsAre.drainHeld {n : Nat} {k : Slot} {done : Nat → Bool} {rs : List StoreRec} (h : CellsAre f s) :
    CellsAre f (drainHeld n k done rs s).2 := by
  induction rs generalizing s with
  | nil => exact h
  | cons r rs ih =>
    unfold Machine.drainHeld
    split
    · exact h
    split
    · exact h
    refine ih ?_
    have k := h.performRec.of_pair ‹_›
    split
    exacts [k.heldFails, k]

theorem CellsAre.drainCell {n : Nat} (h : CellsAre f s) : CellsAre f (s.drainCell n) := by
  unfold State.drainCell
  refine h.foldl fun t x h1 => ?_
  dsimp only
  split
  exacts [h1, h1.drainHeld.setHartAt]

end
end Sys2Proof.Machine

namespace Sys2Proof.Machine

/-! ## Granules written in LOCAL (R243) -/

/-- A byte of a list, by its little-endian value. -/
theorem leNat_byte (bs : List Byte) : ∀ i < bs.length, BitVec.ofNat 8 (leNat bs / 256 ^ i) = bs.getD i 0 := by
  induction bs with
  | nil => exact fun i h => absurd h (Nat.not_lt_zero i)
  | cons b r ih =>
    intro i h
    have low := b.isLt
    cases i with
    | zero =>
      refine BitVec.eq_of_toNat_eq ?_
      simp only [leNat, BitVec.toNat_ofNat, List.getD_cons_zero, Nat.pow_zero, Nat.div_one]
      omega
    | succ i =>
      rw [leNat, Nat.pow_succ, Nat.mul_comm _ 256, ← Nat.div_div_eq_div_mul, List.getD_cons_succ, ← ih i (by simpa using h)]
      congr 2
      omega

/-- The bytes that a piece's next granule takes. -/
def Push.granule (p : Push) : List Byte :=
  (p.bytes.drop ((granuleAt p.off p.bytes.length p.wrote).1 - p.off)).take (granuleAt p.off p.bytes.length p.wrote).2

section
variable (e : Cell) (p : Push)

theorem Push.length_granule : p.granule.length = (granuleAt p.off p.bytes.length p.wrote).2 := by
  rw [granule, List.length_take, List.length_drop]
  unfold granuleAt
  dsimp only
  have : p.off ≤ Nat.max p.off ((p.off / 32 + p.wrote) * 32) := Nat.le_max_left ..
  have : Nat.min (p.off + p.bytes.length) ((p.off / 32 + p.wrote + 1) * 32) ≤ p.off + p.bytes.length := Nat.min_le_left ..
  omega

theorem Cell.writeGranule_eq (plain : p.sb = []) : e.writeGranule p = e.lwrite (granuleAt p.off p.bytes.length p.wrote).1 p.granule := by
  unfold Cell.writeGranule
  rw [if_pos (by rw [plain]; rfl)]
  rfl

/-- A granule written in LOCAL, of a cell. -/
structure Wrote (f : Cell) : Prop where
  holds : LocalHolds e f (granuleAt p.off p.bytes.length p.wrote).1 (granuleAt p.off p.bytes.length p.wrote).2 (leNat p.granule)
  kept : LocalKept e f (granuleAt p.off p.bytes.length p.wrote).1 (granuleAt p.off p.bytes.length p.wrote).2

theorem Cell.writeGranule_wrote (plain : p.sb = []) : Wrote e p (e.writeGranule p) := by
  rw [Cell.writeGranule_eq e p plain]
  refine ⟨fun i hi hx => ?_, Cell.lwrite_localKept e _ _ p.length_granule⟩
  rw [← p.length_granule] at hi
  rw [Cell.lwrite_byte _ _ _ hx, Mem.byte_write, if_pos (by omega), Nat.add_sub_cancel_left, leNat_byte _ i hi]

/-- A granule written touches LOCAL and which waits have ended. -/
theorem Cell.writeGranule_retested (plain : p.sb = []) : ∃ m, Retested { e with loc := m } (e.writeGranule p) := by
  rw [Cell.writeGranule_eq e p plain]
  exact ⟨_, Cell.lwrite_retested ..⟩

theorem Cell.writeGranule_cell (plain : p.sb = []) :
    e.writeGranule p = { e with harts := (e.writeGranule p).harts, loc := (e.writeGranule p).loc } := by
  obtain ⟨m, h⟩ := Cell.writeGranule_retested e p plain
  rw [h.cell]

end

theorem Cell.writeGranule_no (e : Cell) (p : Push) (plain : p.sb = []) : (e.writeGranule p).no = e.no := by rw [Cell.writeGranule_cell e p plain]

theorem Cell.writeGranule_pushes (e : Cell) (p : Push) (plain : p.sb = []) : (e.writeGranule p).pushes = e.pushes := by
  rw [Cell.writeGranule_cell e p plain]

/-! ## Statements about a cell's LOCAL -/

section
variable {e f g : Cell} {o n v : Nat} {bad : Bool}

theorem LocalHolds.of_loc (h : LocalHolds e f o n v) (loc : g.loc = f.loc) : LocalHolds e g o n v := by
  unfold LocalHolds
  rw [loc]
  exact h

theorem LocalKept.of_loc (h : LocalKept e f o n) (loc : g.loc = f.loc) : LocalKept e g o n := by
  unfold LocalKept
  rw [loc]
  exact h

theorem Credited.of_loc (h : Credited e f o n bad) (loc : g.loc = f.loc) : Credited e g o n bad := ⟨h.1.of_loc loc, h.2.of_loc loc⟩

end

/-- Nothing that LOCAL does not await before is awaited after waits were tested again. -/
theorem Retested.awaited {e f : Cell} {m : Mem} (h : Retested { e with loc := m } f) {x : Nat} (hx : ¬ Awaited e x) : ¬ Awaited f x :=
  fun ⟨k, o, p, a, low, high⟩ => hx ⟨k, o, p, h.awaits a, low, high⟩

theorem Cell.writeGranule_localSize (e : Cell) (p : Push) (plain : p.sb = []) : (e.writeGranule p).localSize = e.localSize := by
  rw [Cell.writeGranule_cell e p plain]
  rfl

/-- An object apart from a granule that has been written is credited as it was before. -/
theorem Wrote.credit {e w : Cell} {p : Push} (wrote : Wrote e p w) (quiet : ∀ x, ¬ Awaited e x → ¬ Awaited w x) {o : Nat} (n : Nat) (bad : Bool)
    (fits : o + 16 ≤ w.localSize)
    (apart : o + 16 ≤ (granuleAt p.off p.bytes.length p.wrote).1 ∨
      (granuleAt p.off p.bytes.length p.wrote).1 + (granuleAt p.off p.bytes.length p.wrote).2 ≤ o)
    (still : ∀ x, o ≤ x → x < o + 16 → ¬ Awaited e x) : Credited e (w.credit o n bad) o n bad ∧
      LocalHolds e (w.credit o n bad) (granuleAt p.off p.bytes.length p.wrote).1 (granuleAt p.off p.bytes.length p.wrote).2 (leNat p.granule) := by
  obtain ⟨credited, kept⟩ := Cell.credit_credits w o n bad fits
  have word (j : Nat) (hj : j ≤ 8) : w.loc.read (o + j) 8 = e.loc.read (o + j) 8 :=
    Mem.read_congr fun x low high => wrote.kept x (by omega) (still x (by omega) (by omega))
  have words : Credited e (w.credit o n bad) o n bad ↔ ObjectHolds e (w.credit o n bad) o
      (creditWords n bad (BitVec.ofNat 64 (leNat (w.loc.read (o + 0) 8))) (BitVec.ofNat 64 (leNat (w.loc.read (o + 8) 8)))) := by
    rw [word 0 (by omega), word 8 (by omega)]
    rfl
  refine ⟨words.mpr ⟨fun i hi hx => credited.1 i hi (quiet _ hx), fun i hi hx => credited.2 i hi (quiet _ hx)⟩, fun i hi hx => ?_⟩
  rw [kept _ (by omega) (quiet _ hx), wrote.holds i hi hx]

end Sys2Proof.Machine

namespace Sys2Proof.Machine

/-! ## O45: pieces credited and commands retired (R243, R298) -/

section
variable {s : State} {c : Nat} {p : Push} {ps : List Push}

/-- The retirement of a command and the stores it lets go leave LOCAL and the pieces of a cell. -/
theorem State.copyRetire_keeps (hn : Numbered s) : Numbered (s.copyRetire c) ∧ ((s.copyRetire c).cellAt c).loc = (s.cellAt c).loc ∧
    ((s.copyRetire c).cellAt c).pushes = (s.cellAt c).pushes := by
  unfold State.copyRetire
  dsimp only
  split
  · next gone =>
    let e : Cell := { s.cellAt c with cq := (s.cellAt c).cq.filter fun q => !(q.started && q.allIssued && !((s.cellAt c).pushes.any fun p => p.cmd == q.id)) }
    have dealt := (Dealt.serveQueues e).cell
    have put := hn.cellAt_putCell (n := c) (e := e.serveQueues) (by rw [dealt])
    have drained := (hn.putCell e.serveQueues).cellsAre.drainCell (n := c)
    have same := drained.2 c
    have loc := congrArg Cell.loc same
    have pushes := congrArg Cell.pushes same
    refine ⟨drained.1, loc.trans ?_, pushes.trans ?_⟩
    all_goals
      beta_reduce
      rw [put, dealt]
      rfl
  · exact ⟨hn, rfl, rfl⟩

/-- A piece of a cell is credited. -/
theorem State.creditPiece_credits (hn : Numbered s) (hp : (s.cellAt c).pushes = p :: ps) (ok : p.fault = none) (bad : Bool) :
    Numbered (s.creditPiece c p bad) ∧ ((s.creditPiece c p bad).cellAt c).pushes = ps ∧
      ((s.creditPiece c p bad).cellAt c).loc = (({ s.cellAt c with pushes := ps } : Cell).credit p.obj p.size bad).loc := by
  let e : Cell := ({ s.cellAt c with pushes := ps } : Cell).credit p.obj p.size bad
  have run : s.creditPiece c p bad = (s.putCell e).copyRetire c := by
    unfold State.creditPiece
    dsimp only
    rw [hp, List.eraseP_cons_of_pos (by simp)]
    unfold Cell.reportFault
    rw [ok]
  have put := hn.cellAt_putCell (n := c) (e := e) (Cell.credit_no ..)
  obtain ⟨numbered, loc, pushes⟩ := State.copyRetire_keeps (c := c) (hn.putCell e)
  rw [run]
  refine ⟨numbered, ?_, ?_⟩
  · rw [pushes, put]
    exact congrArg Cell.pushes (Cell.credit_cell ..)
  · rw [loc, put]

theorem State.creditPiece_credited (hn : Numbered s) (hp : (s.cellAt c).pushes = p :: ps) (ok : p.fault = none) (bad : Bool)
    (fits : p.obj + 16 ≤ (s.cellAt c).localSize) : Credited (s.cellAt c) ((s.creditPiece c p bad).cellAt c) p.obj p.size bad ∧
      LocalKept (s.cellAt c) ((s.creditPiece c p bad).cellAt c) p.obj 16 := by
  obtain ⟨-, -, loc⟩ := State.creditPiece_credits hn hp ok bad
  obtain ⟨credited, kept⟩ := Cell.credit_credits { s.cellAt c with pushes := ps } p.obj p.size bad fits
  exact ⟨Credited.of_loc credited loc, LocalKept.of_loc kept loc⟩

theorem State.pieceCredit_done {bad : Bool} (hp : (s.cellAt c).pushes = p :: ps) (done : p.state = .done bad) (ready : p.ready < (s.cellAt c).cycle) :
    s.pieceCredit c = some (s.creditPiece c p bad) := by
  unfold State.pieceCredit
  dsimp only
  rw [hp, List.findSome?_cons, done]
  dsimp only
  rw [if_pos ready]

theorem copyPieceCredit_credits {bad : Bool} (hn : Numbered s) (hp : (s.cellAt c).pushes = p :: ps) (ok : p.fault = none)
    (fits : p.obj + 16 ≤ (s.cellAt c).localSize) (done : p.state = .done bad) (ready : p.ready < (s.cellAt c).cycle) :
    ∃ t, exec (.copyPieceCredit c) s = .next t ∧ (t.cellAt c).pushes = ps ∧ Credited (s.cellAt c) (t.cellAt c) p.obj p.size bad ∧
      LocalKept (s.cellAt c) (t.cellAt c) p.obj 16 := by
  have run : exec (.copyPieceCredit c) s = .next ((s.pieceCredit c <|> s.ownWrite c).getD s) := rfl
  rw [State.pieceCredit_done hp done ready] at run
  exact ⟨_, run, (State.creditPiece_credits hn hp ok bad).2.1, State.creditPiece_credited hn hp ok bad fits⟩

/-- The cell publishes the one piece that it can credit, and then its held stores. -/
theorem forcedPublish_credits {bad : Bool} (hn : Numbered s) (hp : (s.cellAt c).pushes = [p]) (ok : p.fault = none)
    (fits : p.obj + 16 ≤ (s.cellAt c).localSize) (done : p.state = .done bad) (ready : p.ready < (s.cellAt c).cycle) :
    ∃ t, exec (.forcedPublish c) s = .next t ∧ (t.cellAt c).pushes = [] ∧ Credited (s.cellAt c) (t.cellAt c) p.obj p.size bad := by
  have run : exec (.forcedPublish c) s = .next (s.publish c) := rfl
  have publish : s.publish c = (s.creditPiece c p bad).drainCell c := by
    unfold State.publish
    rw [hp, List.length_singleton, State.creditAll, State.pieceCredit_done hp done ready]
    rfl
  rw [publish] at run
  obtain ⟨numbered, pushes, -⟩ := State.creditPiece_credits hn hp ok bad
  have same := (numbered.cellsAre.drainCell (n := c)).2 c
  have loc := congrArg Cell.loc same
  have rest := congrArg Cell.pushes same
  exact ⟨_, run, rest.trans pushes, (State.creditPiece_credited hn hp ok bad fits).1.of_loc loc⟩

/-! ## O45: granules of a cell's own pieces (R243) -/

theorem State.pieceCredit_none (hp : (s.cellAt c).pushes = p :: ps) (own : p.state = .own) (none : ∀ r ∈ ps, ∀ bad, r.state ≠ .done bad) :
    s.pieceCredit c = Option.none := by
  unfold State.pieceCredit
  dsimp only
  refine List.findSome?_eq_none_iff.mpr fun r hr => ?_
  rw [hp] at hr
  split
  · next bad h =>
    rcases List.mem_cons.mp hr with rfl | hr
    · rw [own] at h
      cases h
    · exact absurd h (none r hr bad)
  · rfl

theorem Cell.ownNext_head {e : Cell} (hp : e.pushes = p :: ps) (own : p.state = .own) (ready : p.ready ≤ e.cycle) : e.ownNext = some p := by
  unfold Cell.ownNext
  rw [hp, List.find?_cons_of_pos]
  simp [own, ready]

theorem State.ownWrite_head (hp : (s.cellAt c).pushes = p :: ps) (own : p.state = .own) (ready : p.ready ≤ (s.cellAt c).cycle)
    (takes : (s.cellAt c).takesPiece p = true) (free : (s.cellAt c).bankFree (granuleAt p.off p.bytes.length p.wrote).1 = true) :
    s.ownWrite c = (if p.lastWrite then some ((s.putCell ((s.cellAt c).writeGranule p)).creditPiece c p false)
      else some ((s.putCell ((s.cellAt c).writeGranule p)).mapPush c p fun x => { x with wrote := x.wrote + 1, ready := (s.cellAt c).cycle + 1 })) := by
  unfold State.ownWrite
  dsimp only
  rw [Cell.ownNext_head hp own ready, Option.bind_some, if_neg (by simp [takes]), if_neg (by simp [free])]

/-- A piece changed in the cell that holds it. -/
theorem State.mapPush_head (hn : Numbered s) (hp : (s.cellAt c).pushes = p :: ps) (f : Push → Push) :
    (s.mapPush c p f).cellAt c = { s.cellAt c with pushes := f p :: ps } := by
  unfold State.mapPush
  refine (hn.cellAt_putCell (by rfl)).trans ?_
  rw [hp, mapFirst, if_pos (by simp)]

theorem copyPieceCredit_writes (hn : Numbered s) (hp : (s.cellAt c).pushes = p :: ps) (own : p.state = .own) (ready : p.ready ≤ (s.cellAt c).cycle)
    (others : ∀ r ∈ ps, ∀ bad, r.state ≠ .done bad) (plain : p.sb = []) (takes : (s.cellAt c).takesPiece p = true)
    (free : (s.cellAt c).bankFree (granuleAt p.off p.bytes.length p.wrote).1 = true) (more : p.lastWrite = false) :
    ∃ t, exec (.copyPieceCredit c) s = .next t ∧ t.mem = s.mem ∧
      (t.cellAt c).pushes = { p with wrote := p.wrote + 1, ready := (s.cellAt c).cycle + 1 } :: ps ∧ Wrote (s.cellAt c) p (t.cellAt c) := by
  have run : exec (.copyPieceCredit c) s = .next ((s.pieceCredit c <|> s.ownWrite c).getD s) := rfl
  rw [State.pieceCredit_none hp own others, State.ownWrite_head hp own ready takes free, if_neg (by simp [more])] at run
  have put := hn.cellAt_putCell (n := c) (Cell.writeGranule_no (s.cellAt c) p plain)
  have pushes : ((s.putCell ((s.cellAt c).writeGranule p)).cellAt c).pushes = p :: ps := by rw [put, Cell.writeGranule_pushes _ _ plain, hp]
  have mapped := State.mapPush_head (hn.putCell _) pushes fun x => { x with wrote := x.wrote + 1, ready := (s.cellAt c).cycle + 1 }
  obtain ⟨holds, kept⟩ := Cell.writeGranule_wrote (s.cellAt c) p plain
  refine ⟨_, run, ?_, ?_⟩
  · exact (State.putCell_mem ..).trans (State.putCell_mem ..)
  · have loc := congrArg Cell.loc (mapped.trans (by rw [put]))
    exact ⟨congrArg Cell.pushes mapped, holds.of_loc loc, kept.of_loc loc⟩

theorem copyPieceCredit_ends (hn : Numbered s) (hp : (s.cellAt c).pushes = p :: ps) (ok : p.fault = none) (own : p.state = .own)
    (ready : p.ready ≤ (s.cellAt c).cycle) (others : ∀ r ∈ ps, ∀ bad, r.state ≠ .done bad) (plain : p.sb = [])
    (takes : (s.cellAt c).takesPiece p = true) (free : (s.cellAt c).bankFree (granuleAt p.off p.bytes.length p.wrote).1 = true) (last : p.lastWrite = true)
    (fits : p.obj + 16 ≤ (s.cellAt c).localSize)
    (apart : p.obj + 16 ≤ (granuleAt p.off p.bytes.length p.wrote).1 ∨
      (granuleAt p.off p.bytes.length p.wrote).1 + (granuleAt p.off p.bytes.length p.wrote).2 ≤ p.obj)
    (still : ∀ x, p.obj ≤ x → x < p.obj + 16 → ¬ Awaited (s.cellAt c) x) :
    ∃ t, exec (.copyPieceCredit c) s = .next t ∧ (t.cellAt c).pushes = ps ∧ Credited (s.cellAt c) (t.cellAt c) p.obj p.size false ∧
      LocalHolds (s.cellAt c) (t.cellAt c) (granuleAt p.off p.bytes.length p.wrote).1 (granuleAt p.off p.bytes.length p.wrote).2 (leNat p.granule) := by
  have run : exec (.copyPieceCredit c) s = .next ((s.pieceCredit c <|> s.ownWrite c).getD s) := rfl
  rw [State.pieceCredit_none hp own others, State.ownWrite_head hp own ready takes free, if_pos last] at run
  let w : Cell := (s.cellAt c).writeGranule p
  have put : (s.putCell w).cellAt c = w := hn.cellAt_putCell (Cell.writeGranule_no _ _ plain)
  have held : ((s.putCell w).cellAt c).pushes = p :: ps := by
    rw [put]
    exact (Cell.writeGranule_pushes _ _ plain).trans hp
  obtain ⟨-, pushes, loc⟩ := State.creditPiece_credits (hn.putCell w) held ok false
  obtain ⟨holds, kept⟩ := Cell.writeGranule_wrote (s.cellAt c) p plain
  obtain ⟨m, retested⟩ := Cell.writeGranule_retested (s.cellAt c) p plain
  have wrote : Wrote (s.cellAt c) p { w with pushes := ps } := ⟨holds, kept⟩
  obtain ⟨credited, granule⟩ := wrote.credit (fun x hx => retested.awaited hx) p.size false
    (fits.trans (Cell.writeGranule_localSize _ _ plain).ge) apart still
  rw [put] at loc
  exact ⟨_, run, pushes, credited.of_loc loc, granule.of_loc loc⟩

end
end Sys2Proof.Machine

namespace Sys2Proof.Machine

/-! ## O45: pushes performed at their targets (R245, R389) -/

section
variable {s : State} {c n : Nat} {p : Push}

theorem State.mapPush_cellAt (hn : Numbered s) (f : Push → Push) :
    (s.mapPush n p f).cellAt n = { s.cellAt n with pushes := mapFirst (· == p) f (s.cellAt n).pushes } := hn.cellAt_putCell rfl

theorem State.mapPush_cellAt_ne (hn : Numbered s) {d : Nat} (h : d ≠ n) (f : Push → Push) : (s.mapPush n p f).cellAt d = s.cellAt d :=
  State.cellAt_putCell_ne (by rwa [hn.cellAt_no])

/-- A push disposed of in another cell than its sender's: it leaves that cell's input, and its credit sets out. -/
theorem State.pushDone_far (hn : Numbered s) (far : n ≠ c) (bad : Bool) :
    let f := fun (x : Push) => { x with state := .credit bad, bytes := [], sb := [] }
    (s.pushDone n c p bad).mem = s.mem ∧ (∀ d, d ≠ n → (s.pushDone n c p bad).cellAt d = s.cellAt d) ∧
      (s.pushDone n c p bad).cellAt n = { s.cellAt n with pushes := mapFirst (· == p) f (s.cellAt n).pushes } ∧
      (s.net.closed = [] → ∃ q, (s.pushDone n c p bad).net.sends = s.net.sends ++ [(q, (s.cellAt c).begins)] ∧ q.id = p.id ∧ q.kind = .pieceCredit ∧
        q.dsts = [portOf n]) := by
  intro f
  let t : State := (s.takeOut c p.id).mapPush n p f
  have out : Numbered (s.takeOut c p.id) := hn
  have run : s.pushDone n c p bad = t.sendPacket (t.packetFrom p.id .pieceCredit 0 none c [n]) (t.cellAt c).begins := if_neg far
  have cells (d : Nat) : (s.pushDone n c p bad).cellAt d = t.cellAt d := by rw [run, State.sendPacket_cellAt]
  have mem : (s.pushDone n c p bad).mem = t.mem := by rw [run, State.sendPacket_eq]
  refine ⟨mem.trans (State.putCell_mem ..), fun d h => (cells d).trans (State.mapPush_cellAt_ne out h f), (cells n).trans (State.mapPush_cellAt out f),
    fun open_ => ?_⟩
  have net : t.net = (s.takeOut c p.id).net := State.putCell_net ..
  have same : t.cellAt c = s.cellAt c := State.mapPush_cellAt_ne out far.symm f
  have closed : t.net.closed = [] := by rw [net]; exact open_
  have dsts : (t.packetFrom p.id .pieceCredit 0 none c [n]).dsts.filter (fun x => t.net.isOpen (dieOfNode x)) = [portOf n] := by
    simp [State.packetFrom, State.packetOf, Net.isOpen, closed]
  refine ⟨{ t.packetFrom p.id .pieceCredit 0 none c [n] with dsts := [portOf n] }, ?_, rfl, rfl, rfl⟩
  rw [run, same]
  unfold State.sendPacket
  dsimp only
  rw [dsts, if_neg (by simp)]
  dsimp only
  rw [net]
  rfl

/-- What a push's target cell does with the next granule. -/
theorem State.pushPerform_writes (pick : s.pushFor c = some (n, p)) (takes : (s.cellAt c).takesPush p = true)
    (free : (s.cellAt c).bankFree (granuleAt p.off p.bytes.length p.wrote).1 = true) :
    s.pushPerform c = (if p.lastWrite then some ((s.putCell (((s.cellAt c).writeGranule p).credit p.robj p.size false)).pushDone n c p false)
      else some ((s.putCell ((s.cellAt c).writeGranule p)).mapPush n p fun x => { x with wrote := x.wrote + 1, ready := (s.cellAt c).cycle + 1 })) := by
  unfold State.pushPerform
  rw [pick, Option.bind_some]
  dsimp only
  rw [if_neg (by simp [takes]), if_neg (by simp [free])]

theorem pushPerform_granule (hn : Numbered s) (pick : s.pushFor c = some (n, p)) (far : n ≠ c) (plain : p.sb = [])
    (takes : (s.cellAt c).takesPush p = true) (free : (s.cellAt c).bankFree (granuleAt p.off p.bytes.length p.wrote).1 = true)
    (more : p.lastWrite = false) : ∃ t, exec (.pushPerform c) s = .next t ∧ Wrote (s.cellAt c) p (t.cellAt c) ∧ t.mem = s.mem ∧
      (t.cellAt n).loc = (s.cellAt n).loc ∧ (t.cellAt n).pushes =
        mapFirst (· == p) (fun x => { x with wrote := x.wrote + 1, ready := (s.cellAt c).cycle + 1 }) (s.cellAt n).pushes := by
  have run : exec (.pushPerform c) s = .next ((s.pushPerform c).getD s) := rfl
  rw [State.pushPerform_writes pick takes free, if_neg (by simp [more])] at run
  have no := Cell.writeGranule_no (s.cellAt c) p plain
  have put : Numbered (s.putCell ((s.cellAt c).writeGranule p)) := hn.putCell _
  have other : (s.putCell ((s.cellAt c).writeGranule p)).cellAt n = s.cellAt n := State.cellAt_putCell_ne (by rwa [no, hn.cellAt_no])
  have here := (State.mapPush_cellAt_ne (p := p) put far.symm fun x => { x with wrote := x.wrote + 1, ready := (s.cellAt c).cycle + 1 }).trans
    (hn.cellAt_putCell no)
  have there := State.mapPush_cellAt (n := n) (p := p) put fun x => { x with wrote := x.wrote + 1, ready := (s.cellAt c).cycle + 1 }
  rw [other] at there
  have loc := congrArg Cell.loc there
  have pushes := congrArg Cell.pushes there
  refine ⟨_, run, ?_, (State.putCell_mem ..).trans (State.putCell_mem ..), loc, pushes⟩
  rw [Option.getD_some, here]
  exact Cell.writeGranule_wrote _ _ plain

theorem pushPerform_last (hn : Numbered s) (pick : s.pushFor c = some (n, p)) (far : n ≠ c) (plain : p.sb = [])
    (takes : (s.cellAt c).takesPush p = true) (free : (s.cellAt c).bankFree (granuleAt p.off p.bytes.length p.wrote).1 = true)
    (last : p.lastWrite = true)
    (apart : p.robj + 16 ≤ (granuleAt p.off p.bytes.length p.wrote).1 ∨
      (granuleAt p.off p.bytes.length p.wrote).1 + (granuleAt p.off p.bytes.length p.wrote).2 ≤ p.robj)
    (still : ∀ x, p.robj ≤ x → x < p.robj + 16 → ¬ Awaited (s.cellAt c) x) : ∃ t, exec (.pushPerform c) s = .next t ∧
      (LocalHolds (s.cellAt c) (t.cellAt c) (granuleAt p.off p.bytes.length p.wrote).1 (granuleAt p.off p.bytes.length p.wrote).2 (leNat p.granule) ∧
        t.mem = s.mem ∧ (t.cellAt n).loc = (s.cellAt n).loc ∧ (t.cellAt n).pushes =
          mapFirst (· == p) (fun x => { x with state := .credit false, bytes := [], sb := [] }) (s.cellAt n).pushes) ∧
      Credited (s.cellAt c) (t.cellAt c) p.robj p.size false ∧
      (s.net.closed = [] → ∃ q, t.net.sends = s.net.sends ++ [(q, (s.cellAt c).begins)] ∧ q.id = p.id ∧ q.kind = .pieceCredit ∧ q.dsts = [portOf n]) := by
  have run : exec (.pushPerform c) s = .next ((s.pushPerform c).getD s) := rfl
  rw [State.pushPerform_writes pick takes free, if_pos last] at run
  let f : Cell := ((s.cellAt c).writeGranule p).credit p.robj p.size false
  have no : f.no = (s.cellAt c).no := (Cell.credit_no ..).trans (Cell.writeGranule_no _ _ plain)
  have here : (s.putCell f).cellAt c = f := hn.cellAt_putCell no
  have other : (s.putCell f).cellAt n = s.cellAt n := State.cellAt_putCell_ne (by rwa [no, hn.cellAt_no])
  have begins : f.begins = (s.cellAt c).begins := by
    have same : f = _ := Cell.credit_cell ((s.cellAt c).writeGranule p) p.robj p.size false
    rw [same, Cell.writeGranule_cell _ _ plain]
    rfl
  obtain ⟨mem, cells, sender, sends⟩ := State.pushDone_far (p := p) (hn.putCell f) far false
  rw [here, begins, State.putCell_net] at sends
  rw [other] at sender
  have fits : p.robj + 16 ≤ (s.cellAt c).localSize := by
    unfold Cell.takesPush at takes
    simp only [Bool.and_eq_true, Cell.objOk, decide_eq_true_eq] at takes
    exact takes.2
  obtain ⟨m, retested⟩ := Cell.writeGranule_retested (s.cellAt c) p plain
  obtain ⟨credited, granule⟩ := (Cell.writeGranule_wrote (s.cellAt c) p plain).credit (fun x hx => retested.awaited hx) p.size false
    (fits.trans (Cell.writeGranule_localSize _ _ plain).ge) apart still
  have target := (cells c far.symm).trans here
  have loc := congrArg Cell.loc sender
  have pushes := congrArg Cell.pushes sender
  refine ⟨_, run, ⟨?_, mem.trans (State.putCell_mem ..), loc, pushes⟩, ?_, sends⟩
  all_goals rw [Option.getD_some, target]
  exacts [granule, credited]

/-! ## O45: a push whose team is not served (R386) -/

theorem teamDelivery_fails {ps : List Push} (hn : Numbered s) (hp : (s.cellAt c).pushes = p :: ps) (peer : p.state = .peer) (none : p.serving = none)
    (far : p.cell ≠ c) : ∃ t, exec (.teamDelivery c) s = .next t ∧
      (t.cellAt c).pushes = { p with state := .credit true, bytes := [], sb := [] } :: ps ∧ t.mem = (s.countDiverted (dieOf p.cell)).mem ∧
      ∀ d, d ≠ c → t.cellAt d = s.cellAt d := by
  have target : s.pushTarget p = Option.none := by unfold State.pushTarget; rw [none, Option.bind_none]
  have run : s.teamDelivery c = some ((s.countDiverted (dieOf p.cell)).pushDone c p.cell p true) := by
    unfold State.teamDelivery
    rw [hp, List.find?_cons_of_pos (by simp [peer, target]), Option.map_some]
    dsimp only
    rw [none]
  have counted : Numbered (s.countDiverted (dieOf p.cell)) := hn
  obtain ⟨mem, cells, sender, -⟩ := State.pushDone_far (p := p) counted far.symm true
  refine ⟨_, next_getD run, ?_, mem, fun d h => cells d h⟩
  refine (congrArg Cell.pushes sender).trans ?_
  have same : ((s.countDiverted (dieOf p.cell)).cellAt c).pushes = p :: ps := hp
  dsimp only
  rw [same, mapFirst, if_pos (by simp)]

end
end Sys2Proof.Machine

namespace Sys2Proof.Machine

/-! ## O45: pieces of copies issued (R243, R247) -/

section
variable {s : State} {c : Nat} {q : CopyCmd} {qs : List CopyCmd}

/-- Bytes inside one line are one piece. -/
theorem linePieces_line {a n : Nat} (fits : a % 128 + n ≤ 128) (some_ : 1 ≤ n) : linePieces a n = [(a, n)] := by
  have whole : Nat.min n (128 - a % 128) = n := Nat.min_eq_left (by omega)
  unfold linePieces pieces
  rw [if_neg (by omega)]
  dsimp only
  rw [whole, Nat.sub_self]
  exact congrArg (List.cons (a, n)) (if_pos rfl)

/-- A piece's access of one line leaves, and the piece waits for its answer. -/
theorem State.askPiece_line (n : Nat) (q : CopyCmd) (size : Nat) (p : Nat × Nat) : s.askPiece n q false size [p] =
    (pieceOf q size (.asked [s.cmdNo]) none, s.sendMiss (s.cellAt n).missLeaves (q.miss n false (s.hartAt n q.slot).replay p)) := rfl

/-- The running command reads nothing of LOCAL for its next piece, and pushes nothing: the piece is issued. -/
theorem State.pieceIssue_issues {r : List Push × State} (run : (s.cellAt c).running = some q) (port : q.portTo < (s.cellAt c).cycle)
    (reads : q.source = (0, 0)) (follows : (s.cellAt c).follows q.slot q.after q.upto = true) (local_ : q.op.pushes = false)
    (next : s.nextPiece c q = r) (cells : r.2.cellAt c = s.cellAt c) : ∃ cfree, s.pieceIssue c = some (r.2.putCell
      (({ s.cellAt c with pushes := (s.cellAt c).pushes ++ r.1, cfree := cfree } : Cell).mapCmd q.id fun _ => { q.step with portTo := (s.cellAt c).cycle })) := by
  unfold State.pieceIssue
  dsimp only
  rw [run]
  dsimp only
  rw [if_neg (by simp [port, reads, follows, local_, granules]), next, cells, reads]
  exact ⟨_, rfl⟩

/-- A command's own record changed, where no other has its number. -/
theorem Cell.mapCmd_head {e : Cell} (hq : e.cq = q :: qs) (other : ∀ r ∈ qs, r.id ≠ q.id) (f : CopyCmd → CopyCmd) :
    (e.mapCmd q.id f).cq = f q :: qs := by
  have rest : qs.map (fun x => if x.id == q.id then f x else x) = qs := by
    refine (List.map_congr_left fun x hx => ?_).trans (List.map_id qs)
    rw [if_neg (by simpa using other x hx)]
    rfl
  simp only [Cell.mapCmd, hq, List.map_cons, rest, beq_self_eq_true, if_true]

theorem pieceIssue_asks {a n off : Nat} (hn : Numbered s) (hq : (s.cellAt c).cq = q :: qs) (other : ∀ r ∈ qs, r.id ≠ q.id)
    (run : (s.cellAt c).running = some q) (port : q.portTo < (s.cellAt c).cycle) (reads : q.source = (0, 0))
    (follows : (s.cellAt c).follows q.slot q.after q.upto = true) (local_ : q.op.pushes = false)
    (next : s.nextPiece c q = ([{ (s.askPiece c q false n (linePieces a n)).1 with off := off }], (s.askPiece c q false n (linePieces a n)).2))
    (fits : a % 128 + n ≤ 128) (some_ : 1 ≤ n) : ∃ t, s.pieceIssue c = some t ∧
      BanksKept s t ∧ (t.cellAt c).cq = { q.step with portTo := (s.cellAt c).cycle } :: qs ∧ ∃ p m, (t.cellAt c).pushes = (s.cellAt c).pushes ++ [p] ∧
        t.mem = { s.mem with misses := s.mem.misses ++ [m] } ∧ p.cmd = q.id ∧ p.obj = q.obj ∧ p.size = n ∧ p.off = off ∧ p.state = .asked [m.id] ∧
        p.wrote = 0 ∧ p.fault = none ∧
        (m.kind, m.agent, m.slot, m.asid, m.level, m.va, m.size) = (.pieceIn, .cell c, q.slot, q.asid, q.level, a, n) := by
  rw [linePieces_line fits some_, State.askPiece_line] at next
  let m : Miss := q.miss c false (s.hartAt c q.slot).replay (a, n)
  have sent := s.sendMiss_eq (s.cellAt c).missLeaves m
  have cells (d : Nat) : (s.sendMiss (s.cellAt c).missLeaves m).cellAt d = s.cellAt d := by rw [sent]; rfl
  have numbered : Numbered (s.sendMiss (s.cellAt c).missLeaves m) := by rw [sent]; exact hn
  obtain ⟨cfree, issued⟩ := State.pieceIssue_issues run port reads follows local_ next (cells c)
  have put := numbered.cellAt_putCell (n := c)
    (e := ({ s.cellAt c with pushes := (s.cellAt c).pushes ++ [{ pieceOf q n (.asked [s.cmdNo]) none with off := off }], cfree := cfree } : Cell).mapCmd q.id
      fun _ => { q.step with portTo := (s.cellAt c).cycle }) (by rw [cells]; rfl)
  refine ⟨_, issued, fun d => ?_, ?_, { pieceOf q n (.asked [s.cmdNo]) none with off := off }, m.leaving s.cmdNo (s.cellAt c).missLeaves, ?_, ?_,
    rfl, rfl, rfl, rfl, rfl, rfl, rfl, rfl⟩
  · by_cases hd : d = c
    · subst hd
      rw [put]
      exact ⟨rfl, rfl, rfl, rfl⟩
    · rw [State.cellAt_putCell_ne (by simpa [Cell.mapCmd, hn.cellAt_no] using hd), cells]
      exact ⟨rfl, rfl, rfl, rfl⟩
  · rw [put]
    exact Cell.mapCmd_head (e := { s.cellAt c with pushes := _, cfree := cfree }) hq other _
  · rw [put]
    rfl
  · rw [State.putCell_mem, sent]

/-- The first command of the queue runs. -/
theorem Cell.running_head {e : Cell} (hq : e.cq = q :: qs) (started : q.started = true) (more : q.allIssued = false) : e.running = some q := by
  unfold Cell.running
  rw [hq, List.find?_cons_of_pos]
  simp [started, more]

end
end Sys2Proof.Machine

namespace Sys2Proof.Machine

section
variable {s : State} {c : Nat} {q : CopyCmd} {qs : List CopyCmd}

/-- The engine has asked for a piece of a command: one line's bytes, for a LOCAL offset. -/
def PieceAsked (s t : State) (c : Nat) (q : CopyCmd) (qs : List CopyCmd) (a n off : Nat) : Prop :=
  BanksKept s t ∧ (t.cellAt c).cq = { q.step with portTo := (s.cellAt c).cycle } :: qs ∧ ∃ p m, (t.cellAt c).pushes = (s.cellAt c).pushes ++ [p] ∧
    t.mem = { s.mem with misses := s.mem.misses ++ [m] } ∧ p.cmd = q.id ∧ p.obj = q.obj ∧ p.size = n ∧ p.off = off ∧ p.state = .asked [m.id] ∧
    p.wrote = 0 ∧ p.fault = none ∧
    (m.kind, m.agent, m.slot, m.asid, m.level, m.va, m.size) = (.pieceIn, .cell c, q.slot, q.asid, q.level, a, n)

theorem copyPieceIssue_asks {ws : List Word} {o : Nat} (hn : Numbered s) (hq : (s.cellAt c).cq = q :: qs) (started : q.started = true)
    (follows : (s.cellAt c).follows q.slot q.after q.upto = true) (port : q.portTo < (s.cellAt c).cycle) (other : ∀ r ∈ qs, r.id ≠ q.id)
    (op : q.op = .tile ws o) (more : q.run < (tileOf ws).n1 * (tileOf ws).n2) (kind : (tileOf ws).kind = 0)
    (fits : (q.piece (tileOf ws)).1 % 128 + (q.piece (tileOf ws)).2.2 ≤ 128) (some_ : 1 ≤ (q.piece (tileOf ws)).2.2) :
    ∃ t, exec (.copyPieceIssue c) s = .next t ∧ PieceAsked s t c q qs (q.piece (tileOf ws)).1 (q.piece (tileOf ws)).2.2 (q.piece (tileOf ws)).2.1 := by
  have running := Cell.running_head hq started (by simp [CopyCmd.allIssued, op, more])
  have field : fieldOf (ws.getD 0 0) 0 2 = 0 := kind
  obtain ⟨t, run, asked⟩ := pieceIssue_asks (a := (q.piece (tileOf ws)).1) (n := (q.piece (tileOf ws)).2.2) (off := (q.piece (tileOf ws)).2.1) hn hq other
    running port (by simp [CopyCmd.source, op, kind]) follows (by simp only [CopyOp.pushes, op, field]; rfl)
    (by unfold State.nextPiece; rw [op]; exact if_pos kind) fits some_
  have exe : exec (.copyPieceIssue c) s = .next (if (s.cellAt c).packing then s else (s.pieceIssue c).getD s) := rfl
  rw [if_neg (by simp [Cell.packing, running, op]), run] at exe
  exact ⟨t, exe, asked⟩

theorem packBlock_asks {f : StFmt} {addr loc n : Nat} (hn : Numbered s) (hq : (s.cellAt c).cq = q :: qs) (started : q.started = true)
    (follows : (s.cellAt c).follows q.slot q.after q.upto = true) (port : q.portTo < (s.cellAt c).cycle) (other : ∀ r ∈ qs, r.id ≠ q.id)
    (op : q.op = .pack f true addr loc n) (more : q.run < n) (fits : (addr + q.run * blockBytes f) % 2 ^ 64 % 128 + blockBytes f ≤ 128) :
    ∃ t, exec (.packBlock c) s = .next t ∧ PieceAsked s t c q qs ((addr + q.run * blockBytes f) % 2 ^ 64) (blockBytes f) (loc + 32 * q.run) := by
  have running := Cell.running_head hq started (by simp [CopyCmd.allIssued, op, more])
  have block : 1 ≤ blockBytes f := by unfold blockBytes; split <;> decide
  obtain ⟨t, run, asked⟩ := pieceIssue_asks (a := (addr + q.run * blockBytes f) % 2 ^ 64) (n := blockBytes f) (off := loc + 32 * q.run) hn hq other
    running port (by simp [CopyCmd.source, op]) follows (by rw [op]; rfl) (by unfold State.nextPiece; rw [op]; rfl) fits block
  have exe : exec (.packBlock c) s = .next (if (s.cellAt c).packing then (s.pieceIssue c).getD s else s) := rfl
  rw [if_pos (by simp [Cell.packing, running, op]), run] at exe
  exact ⟨t, exe, asked⟩

end

/-! ## O45: answers to a piece's accesses (R112, R243, R244) -/

section
variable {s : State} {c u : Nat} {p : Push} {ps : List Push} {q : CopyCmd} {m : Miss} {g : Got}

/-- Pieces whose one access is answered: the next of the cell is the first. -/
theorem State.copyAnswer_head {t : State} (hp : (s.cellAt c).pushes = p :: ps) (asked : p.state = .asked [m.id]) (h : s.pieceAnswer c p = some t) :
    s.copyAnswer c = some t := by
  have first : ((p :: ps).find? fun q => q.cmd == p.cmd && q.waits) = some p := by
    rw [List.find?_cons_of_pos]
    simp [Push.waits, asked]
  unfold State.copyAnswer
  dsimp only
  rw [hp, List.findSome?_cons, if_pos (by rw [first]; simp), h]

/-- The piece of a cell becomes another, and its access is done with. -/
def State.settlePiece (s : State) (c : Nat) (m : Miss) (p : Push) (f : Push → Push) : State :=
  (s.dropMiss m).putCell { (s.dropMiss m).cellAt c with pushes := mapFirst (· == p) f ((s.dropMiss m).cellAt c).pushes }

theorem Numbered.settlePiece (hn : Numbered s) (hp : (s.cellAt c).pushes = p :: ps) (f : Push → Push) :
    (s.settlePiece c m p f).mem = (s.dropMiss m).mem ∧ ((s.settlePiece c m p f).cellAt c).pushes = f p :: ps ∧ BanksKept s (s.settlePiece c m p f) := by
  have dropped : Numbered (s.dropMiss m) := hn
  have cells (d : Nat) : (s.dropMiss m).cellAt d = s.cellAt d := rfl
  have put := dropped.cellAt_putCell (n := c)
    (e := { (s.dropMiss m).cellAt c with pushes := mapFirst (· == p) f ((s.dropMiss m).cellAt c).pushes }) rfl
  refine ⟨State.putCell_mem .., (congrArg Cell.pushes put).trans ?_, fun d => ?_⟩
  · dsimp only
    rw [cells, hp, mapFirst, if_pos (by simp)]
  · by_cases hd : d = c
    · subst hd
      unfold State.settlePiece
      rw [put]
      exact ⟨rfl, rfl, rfl, rfl⟩
    · unfold State.settlePiece
      rw [State.cellAt_putCell_ne (by simpa [cells, hn.cellAt_no] using hd), cells]
      exact ⟨rfl, rfl, rfl, rfl⟩

/-- The first piece's answer is the cell's: the piece is settled, and its miss is done with. -/
theorem copyAnswer_settles {f : Push → Push} (hn : Numbered s) (hp : (s.cellAt c).pushes = p :: ps) (asked : p.state = .asked [m.id])
    (hm : s.mem.misses = [m]) (answer : s.pieceAnswer c p = some (s.settlePiece c m p f)) : ∃ t, s.copyAnswer c = some t ∧
      t.mem = { s.mem with misses := [] } ∧ (t.cellAt c).pushes = f p :: ps ∧ BanksKept s t := by
  obtain ⟨mem, pushes, banks⟩ := hn.settlePiece (m := m) hp f
  exact ⟨_, State.copyAnswer_head hp asked answer, mem.trans (State.dropMiss_mem_of_one rfl hm), pushes, banks⟩

section
variable (hm : s.mem.misses = [m]) (come : m.phase = .come u g) (asked : p.state = .asked [m.id])
  (cmd : ((s.cellAt c).cq.find? fun x => x.id == p.cmd) = some q)
include hm come asked

theorem State.pieceMisses_one : s.pieceMisses p = some [(m, u, g)] := by
  have find : (s.mem.misses.find? fun x => x.id == m.id) = some m := by rw [hm, List.find?_cons_of_pos (by simp)]
  unfold State.pieceMisses
  rw [asked]
  simp [find, come]

include cmd

theorem State.pieceAnswer_brings (ok : g.fault = none) (kind : m.kind = .pieceIn) : s.pieceAnswer c p = some (s.settlePiece c m p fun x =>
    { x with state := .own, bytes := (q.brought [(m, u, g)]).1, sb := (q.brought [(m, u, g)]).2, ready := (s.cellAt c).cycleFrom u + 2 }) := by
  unfold State.pieceAnswer
  rw [State.pieceMisses_one hm come asked, Option.bind_some, cmd, Option.bind_some]
  simp [ok, kind, State.settlePiece]

theorem State.pieceAnswer_fails {f : Cause} (bad : g.fault = some f) : s.pieceAnswer c p = some (s.settlePiece c m p fun x =>
    { x with state := .done true, bytes := [], sb := [], ready := (s.cellAt c).cycleFrom u, fault := some (q.reports f m.va m) }) := by
  unfold State.pieceAnswer
  rw [State.pieceMisses_one hm come asked, Option.bind_some, cmd, Option.bind_some]
  simp [bad, State.settlePiece]

end

end
end Sys2Proof.Machine

namespace Sys2Proof.Machine

/-! ## Lines stored into (R189, R359, R361) -/

section
variable {s t : State} {n : Option Nat} {d : Nat} {key : LineKey} {l : OLine}

theorem State.stampMsg_mem (s : State) (t : Nat) (k : LineKey) (m : Sent) : (s.stampMsg t k m).2.mem = s.mem := by
  unfold State.stampMsg
  split
  · rfl
  · dsimp only
    split
    · rfl
    · rw [State.sendPacket_eq]

theorem State.putCoh_mem (s : State) (t : Nat) (x : CohLine) : (s.putCoh t x).mem = s.mem := by
  unfold State.putCoh
  dsimp only
  split
  · rfl
  · exact foldl_keeps (P := fun r : List Sent × State => r.2.mem = s.mem) rfl fun r m h => (State.stampMsg_mem ..).trans h

theorem State.recallWords_mem (s : State) (die : Nat) (k : LineKey) : (s.recallWords die k).mem = s.mem := rfl

/-- A die that owns a line, or may have it at once, takes it; memory is as it was. -/
theorem State.cohWrite_takes (settled : Settled s key) (own : Ownable s d key) : ∃ t, s.cohWrite d key = some t ∧ t.mem = s.mem := by
  obtain ⟨open_, quiet⟩ := settled
  have still : (s.cohLine key).underWay = false := by
    unfold State.cohLine
    split
    · rfl
    · next x h =>
      obtain ⟨msgs, busy⟩ := quiet x (List.mem_of_find?_eq_some h) (by simpa using List.find?_some h)
      simp [CohLine.underWay, msgs, busy]
  unfold State.cohWrite
  dsimp only
  split
  · exact ⟨_, rfl, rfl⟩
  split
  · exact ⟨_, rfl, State.putCoh_mem ..⟩
  · next notM notE =>
    have free : (s.cohLine key).evicting d = false ∧ (s.cohLine key).missing d = false :=
      own.resolve_left (by simp [CohLine.writable, notM, notE])
    rw [if_neg (by simp [still, free, State.homeCut, open_])]
    exact ⟨_, rfl, (State.putCoh_mem ..).trans (foldl_keeps (P := fun u : State => u.mem = s.mem) rfl fun u y h => (State.recallWords_mem ..).trans h)⟩

theorem State.allocate_mem (s : State) (n : Nat) (key : LineKey) : (s.allocate n key).mem = s.mem := by
  unfold State.allocate
  dsimp only
  split
  · split
    · rfl
    · exact State.putCell_mem ..
  · rfl

theorem State.register_mem (s : State) (n : Option Nat) (key : LineKey) (m : BitVec 16) : (s.register n key m).mem = s.mem := by
  unfold State.register
  dsimp only
  cases n with
  | none => split <;> rfl
  | some i =>
    have same := s.allocate_mem i key
    split
    exacts [same, same]

theorem State.line?_of_mem (h : t.mem = s.mem) (k : LineKey) : t.line? k = s.line? k := by
  unfold State.line?
  rw [h]

theorem onDie_of_mem (lines : t.mem.lines = s.mem.lines) (gens : t.mem.gens = s.mem.gens) (asid va : Nat) : onDie t asid va = onDie s asid va := by
  unfold onDie State.line? State.gen
  rw [lines, gens]

theorem State.line?_putLine (s : State) (l : OLine) (k : LineKey) : (s.putLine l).line? k = if k = l.key then some l else s.line? k := by
  unfold State.line? State.putLine
  dsimp only
  split
  · next h => rw [List.find?_cons_of_pos (by simp [h])]
  · next h =>
    refine find?_cons_filter _ (by simpa using Ne.symm h) fun y hy => ?_
    have : y.key = k := by simpa using hy
    simpa [this] using h

/-- A line's record after bytes of it are stored. -/
def OLine.stored (l : OLine) (o : Nat) (bs sb : List Byte) : OLine :=
  { l with data := patch l.data o bs, sb := patchSb l.sb o (if l.kept then sb else sb.map fun _ => 0), dirty := true }

theorem State.storeLine_mem {o : Nat} {bs sb : List Byte} (h : s.line? key = some l) : (s.storeLine n key o bs sb).mem = (s.putLine (l.stored o bs sb)).mem := by
  unfold State.storeLine
  rw [h]
  rfl

/-- The bytes of the dies after bytes of a line have been stored. -/
theorem onDieIs_putLine {asid a : Nat} {bs sb : List Byte} (h : s.line? ⟨asid, s.gen asid, a / 128⟩ = some l) (fits : a % 128 + bs.length ≤ 128)
    (len : l.data.length = 128) : OnDieIs (s.putLine (l.stored (a % 128) bs sb)) (Machine.stored asid a bs.length (leNat bs) (onDie s)) := by
  intro b va
  have key : (l.stored (a % 128) bs sb).key = ⟨asid, s.gen asid, a / 128⟩ := (State.line?_key h :)
  have gen : (s.putLine (l.stored (a % 128) bs sb)).gen b = s.gen b := rfl
  unfold onDie Machine.stored
  rw [State.line?_putLine, gen, key]
  by_cases same : b = asid ∧ va / 128 = a / 128
  · obtain ⟨rfl, line⟩ := same
    rw [if_pos (by rw [line])]
    simp only [Option.map_some, true_and, OLine.stored]
    rw [patch_getD (by omega)]
    by_cases inside : a ≤ va ∧ va < a + bs.length
    · rw [if_pos (by omega), if_pos inside, show va % 128 - a % 128 = va - a by omega, leNat_byte _ _ (by omega)]
    · rw [if_neg (by omega), if_neg inside, line, h]
      rfl
  · rw [if_neg (fun e => same ⟨congrArg LineKey.asid e, congrArg LineKey.line e⟩), if_neg (fun e => same ⟨e.1, by omega⟩)]

end

/-- Cells of which nothing but caches and harts is new keep their banks. -/
theorem banksKept_of_rest {s t : State} (rest : ∀ n, (t.cellAt n).rest = (s.cellAt n).rest) : BanksKept s t := by
  intro n
  have loc := congrArg Cell.loc (rest n)
  have locSb := congrArg Cell.locSb (rest n)
  have mat := congrArg Cell.mat (rest n)
  have matSb := congrArg Cell.matSb (rest n)
  exact ⟨loc, locSb, mat, matSb⟩

/-! ## O45: a piece stored (R243) -/

section
variable {s : State} {c u : Nat} {p : Push} {ps : List Push} {q : CopyCmd} {m : Miss} {g : Got} {l : OLine}

theorem State.storeAt_line {asid va : Nat} {lv : Level} (ha : asid ≠ 0) (hv : va < 2 ^ 55) (hl : s.line? ⟨asid, s.gen asid, va / 128⟩ = some l)
    (may : l.perm.allows lv .store = true) : s.storeAt asid lv va = (.ok (.line l), s) := by
  unfold State.storeAt
  rw [State.locate_line ha hv hl may]

/-- A cell's store into a line that its die may have is performed. -/
theorem State.writePiece_line {asid va : Nat} {lv : Level} {bs sb : List Byte} (hn : Numbered s) (ha : asid ≠ 0) (hv : va < 2 ^ 55)
    (hl : s.line? ⟨asid, s.gen asid, va / 128⟩ = some l) (may : l.perm.allows lv .store = true)
    (settled : Settled s l.key) (own : Ownable s (dieOf c) l.key) : ∃ t,
      s.writePiece (.cell c) asid lv va bs sb = (.ok (), t) ∧ CellsAre (fun n => (s.cellAt n).rest) t ∧
        t.mem = (s.putLine (l.stored (va % 128) bs sb)).mem := by
  obtain ⟨w, takes, mem⟩ := State.cohWrite_takes settled own
  have key := State.line?_key hl
  let t : State := (w.register (some c) l.key (wordMask (va % 128) bs.length)).storeLine (some c) l.key (va % 128) bs sb
  have place : s.storeFor (.cell c) (.line l) va bs sb = some t := by
    unfold State.storeFor
    dsimp only
    rw [if_neg (by simp [State.tableStore, key, ha])]
    exact congrArg (Option.map _) takes
  have line : (w.register (some c) l.key (wordMask (va % 128) bs.length)).line? l.key = some l := by
    rw [State.line?_of_mem ((State.register_mem ..).trans mem), key, hl]
  have cells := (hn.cellsAre.cohWrite (d := dieOf c) (k := l.key)) w takes
  refine ⟨t, ?_, cells.register.storeLine, (State.storeLine_mem line).trans ?_⟩
  · unfold State.writePiece
    rw [State.storeAt_line ha hv hl may]
    dsimp only
    rw [place]
  · unfold State.putLine
    rw [State.register_mem, mem]

theorem copyAnswer_stores (hn : Numbered s) (hp : (s.cellAt c).pushes = p :: ps) (asked : p.state = .asked [m.id])
    (cmd : ((s.cellAt c).cq.find? fun x => x.id == p.cmd) = some q) (hm : s.mem.misses = [m]) (come : m.phase = .come u g) (ok : g.fault = none)
    (kind : m.kind = .pieceOut) (ha : m.asid ≠ 0) (hv : m.va < 2 ^ 55) (fits : m.va % 128 + m.size ≤ 128) (size : p.bytes.length = m.size)
    (hl : s.line? ⟨m.asid, s.gen m.asid, m.va / 128⟩ = some l) (may : l.perm.allows m.level .store = true) (len : l.data.length = 128)
    (settled : Settled s l.key) (own : Ownable s (dieOf c) l.key) : ∃ t, s.copyAnswer c = some t ∧
      ((t.cellAt c).pushes = { p with state := .done false, bytes := [], sb := [], ready := (s.cellAt c).cycleFrom u } :: ps ∧ BanksKept s t ∧
        t.mem.misses = []) ∧ OnDieIs t (stored m.asid m.va m.size (leNat p.bytes) (onDie s)) ∧ t.mem.phys = s.mem.phys := by
  obtain ⟨w, written, ⟨numbered, rest⟩, mem⟩ := State.writePiece_line (bs := p.bytes) (sb := p.sb) hn ha hv hl may settled own
  let f (x : Push) : Push := { x with state := .done false, bytes := [], sb := [], ready := (s.cellAt c).cycleFrom u }
  have good : s.storesBad [m] = none := by
    unfold State.storesBad
    rw [List.findSome?_cons, State.storeAt_line ha hv hl may]
    rfl
  have parts : s.storeParts c [m] p.bytes p.sb = some w := by
    unfold State.storeParts
    rw [List.take_of_length_le size.le, written]
    rfl
  have run : s.pieceAnswer c p = some (w.settlePiece c m p f) := by
    unfold State.pieceAnswer
    rw [State.pieceMisses_one hm come asked, Option.bind_some, cmd, Option.bind_some]
    simp [ok, kind, State.settlePiece, good, parts, f]
  have same := congrArg Cell.pushes (rest c)
  have pushes : (w.cellAt c).pushes = p :: ps := same.trans hp
  have banks : BanksKept s w := banksKept_of_rest rest
  obtain ⟨settles, becomes, kept⟩ := numbered.settlePiece (m := m) pushes f
  have dropped : (w.dropMiss m).mem.misses = [] := by
    unfold State.dropMiss
    rw [mem]
    simp [State.putLine, hm]
  refine ⟨_, State.copyAnswer_head hp asked run, ⟨becomes, banks.trans kept, by rw [settles, dropped]⟩, fun b va => ?_, ?_⟩
  · rw [← size, ← onDieIs_putLine (sb := p.sb) hl (size ▸ fits) len b va]
    refine onDie_of_mem ?_ ?_ b va
    all_goals
      rw [settles]
      unfold State.dropMiss
      rw [mem]
  · rw [settles]
    unfold State.dropMiss
    rw [mem]
    rfl

end
end Sys2Proof.Machine

namespace Sys2Proof.Machine

/-! ## O45: a failure reported acts in its hart's slot (R244) -/

section
variable {s : State} {c : Nat}

theorem copyGlobalFault_traps {f : Cause × Nat} {fs : List (Cause × Nat)} {m : Level} (hc : s.cur = .cell c) (hn : Numbered s) (act : s.active = true)
    (alone : s.attempting c s.cell.slot = false) (failed : s.hart.engErr = f :: fs) (direct : Direct s.hart) (cause : f.1 ≠ .fieldRoutine)
    (takes : s.hart.takesFaults = true) (vec : s.hart.vectored (s.hart.target 9) = some m) : ∃ t, exec (.copyGlobalFault c) s = .next t ∧
      t.hart.level = m ∧ t.hart.pc = addrOf (s.hart.block m).vec ∧ (t.hart.block m).cause = 9 ∧ (t.hart.block m).val = BitVec.ofNat 64 f.2 ∧
      (t.hart.block m).pc = addrOf s.hart.pc ∧ t.hart.win = s.hart.win ∧ t.hart.engErr = fs := by
  obtain ⟨st, w, hart⟩ := State.hart_abandon hc
  have no : s.cell.no = c := hn.1 c hc
  let g : Hart := { s.hart.settle with st := st, woken := w, engErr := fs }
  have block (n : Level) : g.block n = s.hart.block n := by cases n <;> rfl
  let u : State := ({ s with cell := s.cell.abandon s.cell.slot } : State).setHart g
  have left : (s.leaveWait s.cell.no s.cell.slot).mapHart (fun h => { h with engErr := h.engErr.drop 1 }) = u := by
    rw [no, State.leaveWait_focus hc hn, State.mapHart_eq, hart]
    have rest : s.hart.settle.engErr.drop 1 = fs := by
      show s.hart.engErr.drop 1 = fs
      rw [failed]
      rfl
    simp only [rest]
    rfl
  have uhart : u.hart = g := State.hart_setHart ..
  have same : u.hart.vectored (u.hart.target 9) = some m := by
    rw [uhart]
    exact vec
  have fault : s.globalFault = some (u.setHart (g.enter m (BitVec.ofNat 64 9) (BitVec.ofNat 64 f.2) s.hart.pc)) := by
    unfold State.globalFault
    rw [if_neg (by simp [isCore_focus hc, act, takes, no, alone]), failed, List.head?_cons, Option.map_some]
    dsimp only
    rw [left, if_neg, if_neg (by simp [cause]), State.takeTrap_vectored same, uhart]
    · rfl
    · rw [uhart]
      have : g.replay = s.hart.replay := rfl
      rw [this, direct]
      decide
  have run : exec (.copyGlobalFault c) s = .next (if c = s.cell.no then s.globalFault.getD s else s) := rfl
  rw [if_pos no.symm, fault] at run
  refine ⟨_, run, ?_⟩
  rw [Option.getD_some, State.hart_setHart, Hart.enter_block, block]
  exact ⟨Hart.enter_level .., (Hart.enter_pc ..).trans (by rw [block]), rfl, rfl, rfl, Hart.enter_win .., Hart.enter_engErr ..⟩

end

/-- Settles O45: each step of an engine by the lemma about its own effect. -/
theorem engineEvents : Obligations.EngineEvents := by
  unfold Obligations.EngineEvents
  intro s c hn
  refine ⟨?_, ?_, ?_, ?_, ?_, ?_, ?_, ?_, ?_, ?_, ?_⟩
  · intro q qs hq idle entered free follows
    have start := matrixStart_starts hq idle entered free follows
    refine ⟨fun op => ?_, fun w op => ?_, fun o src tile m op => ?_, fun o src op => ?_⟩
    all_goals
      rw [op] at start
      exact sets_of_putCell (next_getD start)
  · intro q qs t0 hq start past mwait cwait
    exact sets_of_putCell (next_getD (matrixRetire_retires hq start past mwait cwait))
  · intro k ks hk cmd due fits
    exact matrixPieceCredit_credits hn hk cmd due fits
  · intro q qs hq idle entered free rediv
    exact sets_of_putCell (next_getD (copyStart_starts hq idle entered free rediv))
  · intro q qs hq started follows port other
    refine ⟨fun ws o op more kind fits some_ => ?_, fun f addr loc n op more fits some_ => ?_⟩
    · exact copyPieceIssue_asks hn hq started follows port other op more kind fits some_
    · exact packBlock_asks hn hq started follows port other op more fits
  · intro p ps q m u g hp asked cmd hm come
    refine ⟨fun ws o op ok kind => ?_, fun f addr loc n op size ok kind => ?_, fun l ok kind ha hv fits size hl may len settled own => ?_,
      fun f ws o bad op => ?_⟩
    · obtain ⟨t, run, mem, pushes, banks⟩ := copyAnswer_settles hn hp asked hm (State.pieceAnswer_brings hm come asked cmd ok kind)
      refine ⟨t, run, pushes.trans ?_, banks, by rw [mem]⟩
      simp [CopyCmd.brought, op, Got.slice]
    · obtain ⟨t, run, mem, pushes, banks⟩ := copyAnswer_settles hn hp asked hm (State.pieceAnswer_brings hm come asked cmd ok kind)
      refine ⟨t, run, pushes.trans ?_, banks, by rw [mem]⟩
      simp [CopyCmd.brought, op, Got.slice, blockBytes, size]
    · exact copyAnswer_stores hn hp asked cmd hm come ok kind ha hv fits size hl may len settled own
    · obtain ⟨t, run, mem, pushes, banks⟩ := copyAnswer_settles hn hp asked hm (State.pieceAnswer_fails hm come asked cmd bad)
      refine ⟨t, run, mem, pushes.trans ?_, banks, by rw [mem]⟩
      simp [CopyCmd.reports, op]
  · intro p ps hp ok al fits ready
    refine ⟨fun bad done past => copyPieceCredit_credits hn hp ok fits done past, fun own others plain takes free begun => ⟨fun more => ?_,
      fun last apart still => copyPieceCredit_ends hn hp ok own ready others plain takes free last fits apart still⟩⟩
    obtain ⟨t, run, mem, pushes, holds, kept⟩ := copyPieceCredit_writes hn hp own ready others plain takes free more
    exact ⟨t, run, mem, pushes, holds, kept⟩
  · intro n p pick far plain takes begun g bs becomes free
    refine ⟨fun more => ?_, fun last apart still => pushPerform_last hn pick far plain takes free last apart still⟩
    obtain ⟨t, run, ⟨holds, -⟩, mem, loc, pushes⟩ := pushPerform_granule hn pick far plain takes free more
    exact ⟨t, run, holds, mem, loc, pushes⟩
  · intro p bad hp done ready ok al fits
    exact forcedPublish_credits hn hp ok fits done ready
  · intro p ps hp peer none far
    exact teamDelivery_fails hn hp peer none far
  · intro f fs m hc act alone failed direct cause takes vec
    exact copyGlobalFault_traps hc hn act alone failed direct cause takes vec

end Sys2Proof.Machine

namespace Sys2Proof.Machine

/-! ## O20: where instructions trap (R39, R136, R191, R275, R276, R292, R293, R390) -/

section
variable {s : State} {ss vs : List Reg} {i : Instr} {l : List Instr}

/-- The check of these s and v indices comes before all else the instruction does. -/
def Checked (s : State) (ss vs : List Reg) (i : Instr) : Prop := ∃ k, exec i s = s.withRegs ss vs k

theorem Checked.traps (h : Checked s ss vs i) (v : ¬ InView s ss vs) : exec i s = s.trap .illegalReg s.firstWord := by
  obtain ⟨k, e⟩ := h
  exact e.trans (State.withRegs_outside v)

theorem traps_outside (h : ∀ i ∈ l, Checked s ss vs i) : ∀ i ∈ l, ¬ InView s ss vs → exec i s = s.trap .illegalReg s.firstWord :=
  fun i hi => (h i hi).traps

/-- The index check is a matter of which indices are named, not of their order. -/
theorem State.withRegs_congr {ss' vs' : List Reg} (hs : ∀ r, r ∈ ss ↔ r ∈ ss') (hv : ∀ r, r ∈ vs ↔ r ∈ vs') (k : Out) :
    s.withRegs ss vs k = s.withRegs ss' vs' k := by
  have all {l l' : List Reg} (h : ∀ r, r ∈ l ↔ r ∈ l') (p : Reg → Bool) : l.all p = l'.all p := by
    rw [Bool.eq_iff_iff, List.all_eq_true, List.all_eq_true]
    simp only [h]
  rw [State.withRegs, State.withRegs, all hs, all hv]

/-- The instruction is refused on a Headstock hart before all else it does (R390). -/
def OnCells (s : State) (i : Instr) : Prop := ∃ k, exec i s = s.cellOnly k

theorem traps_on_core (c : s.isCore = true) (h : s.hart.st = .run → ∀ i ∈ l, OnCells s i) :
    ∀ i ∈ l, s.hart.st = .run → exec i s = s.trap .illegal s.firstWord := by
  intro i hi r
  obtain ⟨k, e⟩ := h r i hi
  exact e.trans (if_pos c)

/-- An instruction of cells alone, whose next check is of these indices (LOG 46). -/
def CellChecked (s : State) (ss vs : List Reg) (i : Instr) : Prop := ∃ k, exec i s = s.cellOnly (s.withRegs ss vs k)

theorem CellChecked.onCells (h : CellChecked s ss vs i) : OnCells s i := by
  obtain ⟨k, e⟩ := h
  exact ⟨_, e⟩

theorem CellChecked.checked (h : CellChecked s ss vs i) (c : s.isCore = false) : Checked s ss vs i := by
  obtain ⟨k, e⟩ := h
  exact ⟨k, e.trans (State.cellOnly_cell c)⟩

theorem checked_on_cell (c : s.isCore = false) (h : ∀ i ∈ l, CellChecked s ss vs i) :
    ∀ i ∈ l, ¬ InView s ss vs → exec i s = s.trap .illegalReg s.firstWord :=
  traps_outside fun i hi => (h i hi).checked c

theorem State.withLevel_below {m : Level} {k : Out} (h : s.hart.level.code < m.code) : s.withLevel m k = s.trap .privilege s.firstWord :=
  if_neg (Nat.not_le.2 h)

theorem State.headOnly_cell {m : Level} {k : Out} (c : s.isCore = false) : s.headOnly m k = s.trap .privilege s.firstWord := by simp [State.headOnly, c]

theorem State.headOnly_core {m : Level} {k : Out} (c : s.isCore = true) : s.headOnly m k = s.withLevel m k := if_pos c

/-- A Headstock hart's own instruction on a cell's hart, or below its level (R292, R293). -/
theorem State.headOnly_refused {m : Level} {k : Out} (h : s.isCore = false ∨ s.hart.level.code < m.code) :
    s.headOnly m k = s.trap .privilege s.firstWord := by
  cases c : s.isCore
  · exact State.headOnly_cell c
  · exact (State.headOnly_core c).trans (State.withLevel_below (h.resolve_left (by simp [c])))

theorem Level.lt_f {m : Level} (h : m ≠ .f) : m.code < Level.f.code := by cases m <;> simp_all [Level.code]

theorem Level.s_le {m : Level} (h : m ≠ .u) : Level.s.code ≤ m.code := by cases m <;> simp_all [Level.code]

/-! An instruction that can wait makes its checks where its hart does not wait yet. -/

section
variable {t : Bool} {d a b : Reg} {off : Word} (r : s.hart.st = .run)
include r

theorem waits_run (c : WaitCause) : s.hart.waits c = false := by simp [Hart.waits, r]

theorem fullEmpty_run {need : Bool} {f : Nat → State → Out} :
    ∃ k, fullEmpty i ss a off t need f s = s.cellOnly (s.withRegs ss [] k) := by
  simp only [fullEmpty, waits_run r]
  exact ⟨_, rfl⟩

theorem ldfeK_run : CellChecked s [d, a] [] (.ldfeK t d a off) :=
  (fullEmpty_run r : ∃ k, execLdfeK t d a off s = s.cellOnly (s.withRegs [d, a] [] k))
theorem ldfeE_run : CellChecked s [d, a] [] (.ldfeE t d a off) :=
  (fullEmpty_run r : ∃ k, execLdfeE t d a off s = s.cellOnly (s.withRegs [d, a] [] k))
theorem stfe_run : CellChecked s [d, a] [] (.stfe t d a off) :=
  (fullEmpty_run r : ∃ k, execStfe t d a off s = s.cellOnly (s.withRegs [d, a] [] k))
theorem stfer_run : CellChecked s [d, a] [] (.stfer t d a) := ⟨_, if_neg (by simp [waits_run r])⟩
theorem bwait_run : CellChecked s (tryReg t d ++ [a, b]) [] (.bwait t d a b) := ⟨_, if_neg (by simp [waits_run r])⟩
theorem tbar_run : CellChecked s (tryReg t d ++ [a, b]) [] (.tbar t d a b) := ⟨_, if_neg (by simp [waits_run r])⟩

end

end

section
variable {s : State} {ss vs : List Reg} {x : Word} {align n : Nat} {k : Nat → Out}

/-- A LOCAL access of a cell's hart whose indices are in view and whose offset a check of R191 refuses traps with that offset. -/
theorem withLocal_misaligned (c : s.isCore = false) (v : InView s ss vs) (h : x.toNat % align ≠ 0) :
    s.cellOnly (s.withRegs ss vs (s.withLocal x align n k)) = s.trap .misaligned x := by
  rw [State.cellOnly_cell c, State.withRegs_inView v]
  exact if_pos (by simpa using h)

theorem withLocal_outside (c : s.isCore = false) (v : InView s ss vs) (h : x.toNat % align = 0) (o : s.cell.localSize < x.toNat + n) :
    s.cellOnly (s.withRegs ss vs (s.withLocal x align n k)) = s.trap .access x := by
  rw [State.cellOnly_cell c, State.withRegs_inView v, State.withLocal, if_neg (by simpa using h), if_pos o]

/-- One that both checks pass is made at its offset. -/
theorem withLocal_inside (c : s.isCore = false) (v : InView s ss vs) (h : x.toNat % align = 0) (fits : x.toNat + n ≤ s.cell.localSize) :
    s.cellOnly (s.withRegs ss vs (s.withLocal x align n k)) = k x.toNat := by
  rw [State.cellOnly_cell c, State.withRegs_inView v, State.withLocal, if_neg (by simpa using h), if_neg (Nat.not_lt.2 fits)]

end

section
variable {s : State} {d : Reg} {n : BitVec 12} {m : Level} {w wr : Bool} {k : Out}

theorem State.stAccess_unlisted (h : stateReg s.isCore n.toNat = none) : s.stAccess d n w k = s.trap .illegalReg s.firstWord := by
  rw [State.stAccess, h]

theorem State.stAccess_below (h : stateReg s.isCore n.toNat = some (m, wr)) (l : s.hart.level.code < m.code) :
    s.stAccess d n w k = s.trap .privilege s.firstWord := by
  rw [State.stAccess, h]
  exact State.withLevel_below l

/-- A write that the register does not take is the illegal-register trap, whether or not S(d) is in view. -/
theorem State.stAccess_refused (h : stateReg s.isCore n.toNat = some (m, wr)) (l : m.code ≤ s.hart.level.code)
    (f : wr = true → k = s.trap .illegalReg s.firstWord) : s.stAccess d n true k = s.trap .illegalReg s.firstWord := by
  rw [State.stAccess, h]
  refine (State.withLevel_ok l).trans ?_
  by_cases v : InView s [d] []
  · rw [State.withRegs_inView v]
    cases wr
    · rfl
    · exact f rfl
  · exact State.withRegs_outside v

/-- `stset` and `stswp` of a register whose own rule refuses the value. -/
theorem stset_refused (h : stateReg s.isCore n.toNat = some (m, wr)) (l : m.code ≤ s.hart.level.code)
    (f : s.writeSt n.toNat (s.hart.S d) = none) : exec (.stset d n) s = s.trap .illegalReg s.firstWord :=
  State.stAccess_refused h l fun _ => by rw [f]

theorem stswp_refused (h : stateReg s.isCore n.toNat = some (m, wr)) (l : m.code ≤ s.hart.level.code)
    (f : (s.mapHart fun h => h.setS d (s.readSt n.toNat)).writeSt n.toNat (s.hart.S d) = none) :
    exec (.stswp d n) s = s.trap .illegalReg s.firstWord :=
  State.stAccess_refused h l fun _ => by rw [f]

/-- A `ppl` above the block's own level is refused (R278). -/
theorem State.writeSt_stat {x : Word} (h : m.code < x.toNat / 4 % 4) : s.writeSt (0x100 * (m.code + 1)) x = none := by
  have ppl : fieldOf x 2 2 = x.toNat / 4 % 4 := rfl
  rw [show 0x100 * (m.code + 1) = 0x100 * (m.code + 1) + 0 from rfl, writeSt_block s m (by omega), TrapBlock.write, if_pos, Option.map_none]
  simp [ppl, h]

/-- Views that the window does not hold are refused (R38). -/
theorem State.writeSt_views {x : Word} (h : Hart.viewsFit s.hart.wsize (x &&& viewsMask) = false) : s.writeSt 4 x = none :=
  if_neg (by simp [State.viewsOk, h])

end

/-- The slots of two groups beside a destination, by whether a group takes two of them (R204). -/
theorem mem_groupRegs_pair (f : FF) (d a b r : Reg) :
    r ∈ d :: groupRegs f a ++ groupRegs f b ↔ r ∈ [d, a, b] ++ if f = .f32 then [a + 1, b + 1] else [] := by
  cases f <;> simp [groupRegs, wideSpec]
  tauto

/-- Settles O20: each instruction is its checks in the order of R136, and the first that fails decides. -/
theorem instructionTraps : Obligations.InstructionTraps := by
  unfold Obligations.InstructionTraps
  refine ⟨?outside, ?core, ?registers, ?levels, ?offsets⟩
  case outside =>
    intro s d a b c w mw sw sc f rm sat tr fm fn sf imm off m k p p3 q3 k5 r
    refine ⟨traps_outside ?_, traps_outside ?_, traps_outside ?_, traps_outside ?_, traps_outside ?_, traps_outside ?_, traps_outside ?twice,
      traps_outside ?_, traps_outside ?_, traps_outside ?_, State.withRegs_outside, fun v => ⟨State.withRegs_outside v, State.withRegs_outside v⟩,
      fun v => ⟨State.withRegs_outside v, State.withRegs_outside v⟩, fun v => ⟨State.withRegs_outside v, State.withRegs_outside v⟩,
      State.withRegs_outside, ?quant, fun u => ⟨traps_outside ?levelled, fun v => (State.withLevel_ok (Level.s_le u)).trans (State.withRegs_outside v)⟩,
      fun core => ⟨fun u v => ?launch, fun top v => ?fsvc⟩, fun cell => ⟨checked_on_cell cell ?cell3, checked_on_cell cell ?cell2,
        checked_on_cell cell ?cell1, fun v => ?scalar, fun v => ?vector⟩⟩
    case quant =>
      intro v
      rw [show exec (.vquant fm f rm sat d a b) s = s.withRegs [] (d :: groupRegs f a ++ groupRegs f b) _ from rfl,
        State.withRegs_congr (fun _ => .rfl) (mem_groupRegs_pair f d a b)]
      exact State.withRegs_outside v
    case launch => exact (State.headOnly_core core).trans ((State.withLevel_ok (Level.s_le u)).trans (State.withRegs_outside v))
    case fsvc => exact (State.headOnly_core core).trans ((State.withLevel_ok (by rw [top])).trans (State.withRegs_outside v))
    case scalar =>
      exact ⟨(State.cellOnly_cell cell).trans (State.withRegs_outside v), (State.cellOnly_cell cell).trans (State.withRegs_outside v)⟩
    case vector =>
      exact ⟨(State.cellOnly_cell cell).trans (State.withRegs_outside v), (State.cellOnly_cell cell).trans (State.withRegs_outside v)⟩
    case cell3 =>
      repeat refine List.forall_mem_cons.2 ⟨⟨_, rfl⟩, ?_⟩
      refine List.forall_mem_cons.2 ⟨bwait_run r, List.forall_mem_cons.2 ⟨tbar_run r, ?_⟩⟩
      repeat refine List.forall_mem_cons.2 ⟨⟨_, rfl⟩, ?_⟩
      exact List.forall_mem_nil _
    case cell2 =>
      refine List.forall_mem_cons.2 ⟨ldfeK_run r, List.forall_mem_cons.2 ⟨ldfeE_run r,
        List.forall_mem_cons.2 ⟨stfe_run r, List.forall_mem_cons.2 ⟨stfer_run r, ?_⟩⟩⟩⟩
      repeat refine List.forall_mem_cons.2 ⟨⟨_, rfl⟩, ?_⟩
      refine List.forall_mem_cons.2 ⟨bwait_run r, List.forall_mem_cons.2 ⟨tbar_run r, ?_⟩⟩
      repeat refine List.forall_mem_cons.2 ⟨⟨_, rfl⟩, ?_⟩
      exact List.forall_mem_nil _
    case cell1 =>
      repeat refine List.forall_mem_cons.2 ⟨⟨_, rfl⟩, ?_⟩
      exact List.forall_mem_nil _
    case twice =>
      repeat refine List.forall_mem_cons.2 ⟨⟨_, State.withRegs_congr (fun _ => .rfl) (fun _ => by simp) _⟩, ?_⟩
      exact List.forall_mem_nil _
    case levelled =>
      repeat refine List.forall_mem_cons.2 ⟨⟨_, State.withLevel_ok (Level.s_le u)⟩, ?_⟩
      exact List.forall_mem_nil _
    all_goals
      repeat refine List.forall_mem_cons.2 ⟨⟨_, rfl⟩, ?_⟩
      exact List.forall_mem_nil _
  case core =>
    intro s w tr f d a b m off p q k x core
    refine traps_on_core core fun r => List.forall_mem_append.2 ⟨?_, ?_⟩
    · refine List.forall_mem_cons.2 ⟨(ldfeK_run r).onCells, List.forall_mem_cons.2 ⟨(ldfeE_run r).onCells,
        List.forall_mem_cons.2 ⟨(stfe_run r).onCells, List.forall_mem_cons.2 ⟨(stfer_run r).onCells, ?_⟩⟩⟩⟩
      repeat refine List.forall_mem_cons.2 ⟨⟨_, rfl⟩, ?_⟩
      refine List.forall_mem_cons.2 ⟨(bwait_run r).onCells, ?_⟩
      repeat refine List.forall_mem_cons.2 ⟨⟨_, rfl⟩, ?_⟩
      exact List.forall_mem_cons.2 ⟨(tbar_run r).onCells, List.forall_mem_nil _⟩
    · repeat refine List.forall_mem_cons.2 ⟨⟨_, rfl⟩, ?_⟩
      exact List.forall_mem_nil _
  case registers =>
    intro s d n
    refine ⟨fun h => ⟨State.stAccess_unlisted h, State.stAccess_unlisted h, State.stAccess_unlisted h⟩,
      fun l w h low => ⟨State.stAccess_below h low, State.stAccess_below h low, State.stAccess_below h low⟩,
      fun l h ok => ⟨State.stAccess_refused h ok nofun, State.stAccess_refused h ok nofun⟩, fun m ok hn bad => ?_, fun hn bad => ?_⟩
    · have listed : stateReg s.isCore n.toNat = some (m, true) := hn ▸ stateReg_block (o := 0) (.inl (by decide))
      exact ⟨stset_refused listed ok (hn ▸ State.writeSt_stat bad), fun _ => stswp_refused listed ok (hn ▸ State.writeSt_stat bad)⟩
    · subst hn
      exact stset_refused (m := .u) rfl (Nat.zero_le _) (State.writeSt_views bad)
  case levels =>
    intro s d a b
    refine ⟨fun h => State.withLevel_below (Level.lt_f h), fun h => ?_, fun h => ?_, fun h => ?_⟩
    · have low : s.hart.level.code < Level.s.code := by rw [h]; decide
      repeat refine List.forall_mem_cons.2 ⟨State.withLevel_below low, ?_⟩
      exact List.forall_mem_nil _
    · exact State.headOnly_refused (h.imp_right fun u => by rw [u]; decide)
    · exact State.headOnly_refused (h.imp_right Level.lt_f)
  case offsets =>
    intro s w d a m off cell
    exact ⟨fun v => ⟨fun al => ⟨withLocal_misaligned cell v al, withLocal_misaligned cell v al⟩,
        fun al o => ⟨withLocal_outside cell v al o, withLocal_outside cell v al o⟩⟩,
      fun v => ⟨fun al => ⟨withLocal_misaligned cell v al, withLocal_misaligned cell v al⟩,
        fun al o => ⟨withLocal_outside cell v al o, withLocal_outside cell v al o⟩⟩⟩

end Sys2Proof.Machine

namespace Sys2Proof.Machine

/-! ## O21: a vector store to LOCAL clears the error marks of its granules (R32, R193) -/

@[simp] theorem State.setHart_cell_locBad (s : State) (h : Hart) : (s.setHart h).cell.locBad = s.cell.locBad := by
  unfold State.setHart; split <;> rfl

theorem Retested.locBad {c e : Cell} (h : Retested c e) : e.locBad = c.locBad := by rw [h.cell]

theorem OnlyLocal.locBad {s t : State} (h : OnlyLocal s t) : t.cell.locBad = s.cell.locBad := by
  obtain ⟨-, cell, -⟩ := h
  rw [cell]

theorem Cell.lwriteSb_locBad (c : Cell) (a : Nat) (bs sb : List Byte) :
    (c.lwriteSb a bs sb).locBad = c.locBad.filter fun g => g < a / 32 || a / 32 + sb.length ≤ g :=
  (Cell.lwrite_retested _ _ _).locBad

section
variable {s : State} {d a : Reg} {off : Word} (cell : s.isCore = false) (v : InView s [a] [d]) (al : (s.hart.S a + off).toNat % 64 = 0)
  (fits : (s.hart.S a + off).toNat + 64 ≤ s.cell.localSize)
include cell v al fits

/-- An aligned `stvl` inside LOCAL stores the slot and its sideband bytes and completes. -/
theorem exec_stvl : exec (.stvl d a off) s =
    (s.mapCell fun c => c.lwriteSb (s.hart.S a + off).toNat (leBytes 64 (s.hart.V d).toNat) [s.hart.sb d 0, s.hart.sb d 1]).finish :=
  withLocal_inside cell v al fits

/-- It leaves no error mark on the granules it writes, and every other mark. -/
theorem stvl_locBad {t : State} (run : exec (.stvl d a off) s = .next t) : t.cell.locBad =
    s.cell.locBad.filter fun g => g < (s.hart.S a + off).toNat / 32 || (s.hart.S a + off).toNat / 32 + 2 ≤ g := by
  rw [exec_stvl cell v al fits, State.finish_eq] at run
  cases run
  rw [State.setHart_cell_locBad, State.mapCell, Cell.lwriteSb_locBad]
  rfl

end

/-- A cell all of whose banks are LOCAL, with an error mark on granule 0 and a resident hart in every slot. -/
def markedCell : Cell :=
  { Cell.reset 0 with
    banks := Vector.replicate 32 3, locBad := [0],
    harts := Vector.replicate 16 { Hart.resident 8192 (viewsReset 8192) 0x1000 0x2000 with st := .run } }

/-- Refutes O21: `stvl` of v0 to offset 0 of `markedCell` clears the mark on granule 0, which is neither LOCAL's bytes nor its sideband, so more
of the cell is new than `OnlyLocal` allows. -/
theorem not_localAccesses : ¬ Obligations.LocalAccesses := by
  unfold Obligations.LocalAccesses
  intro ⟨_, stores⟩
  let s : State := { State.reset with cell := markedCell }
  have view : InView s [0] [0] := by decide
  have al : (s.hart.S 0 + 0).toNat % 64 = 0 := by decide
  have fits : (s.hart.S 0 + 0).toNat + 64 ≤ s.cell.localSize := by decide
  obtain ⟨-, vector⟩ := stores s .i8 0 ⟨0, none, 0⟩ 0 0 0 rfl
  obtain ⟨t, run, only, -⟩ := vector view al fits
  have kept : t.cell.locBad = [0] := only.locBad
  have cleared : t.cell.locBad = [] := (stvl_locBad rfl view al fits run).trans (by decide)
  rw [kept] at cleared
  exact absurd cleared (by decide)

end Sys2Proof.Machine

namespace Sys2Proof.Machine

/-! ## O40: `pool` and `poolq` (R44, R45, R49, R51, R286, R287) -/

/-! ### The module with another cell in focus -/

/-- The module with `e` in the place of the cell in focus. -/
def State.withCell (s : State) (e : Cell) : State := { s with cell := e }

/-- What stands behind both checks of an instruction of cells is done where they pass. -/
theorem State.cellRegs_inView {s : State} {no : Nat} {ss vs : List Reg} (hc : s.cur = .cell no) (v : InView s ss vs) (k : Out) :
    s.cellOnly (s.withRegs ss vs k) = k :=
  (State.cellOnly_cell (by simp [State.isCore, hc])).trans (State.withRegs_inView v)

section
variable {s : State} {e : Cell} {no : Nat} (hc : s.cur = .cell no) (slot : e.slot = s.cell.slot)
include hc slot

theorem State.hart_withCell : (s.withCell e).hart = e.hart s.cell.slot := State.hart_setCell hc slot

theorem State.setHart_withCell (g : Hart) : (s.withCell e).setHart g = s.withCell (e.setHart s.cell.slot g) := State.setHart_setCell hc slot g

theorem State.writeS_withCell (d : Reg) (v : Word) : (s.withCell e).writeS d v =
    .next (s.withCell (e.setHart s.cell.slot ((e.hart s.cell.slot).setS d v).complete)) := by
  rw [State.writeS_eq, State.hart_withCell hc slot, State.setHart_withCell hc slot]

theorem State.reissue_withCell : (s.withCell e).reissue =
    .next (s.withCell (e.setHart s.cell.slot { e.hart s.cell.slot with again := true, st := .run })) := by
  rw [State.reissue, State.mapHart_eq, State.hart_withCell hc slot, State.setHart_withCell hc slot]

theorem hart_withCell_setHart (g : Hart) : (s.withCell (e.setHart s.cell.slot g)).hart = g :=
  (State.hart_withCell hc (e := e.setHart s.cell.slot g) slot).trans (Cell.hart_setHart _ _ _)

end

/-- Where the issuing hart alone is new of the harts of the cell put. -/
theorem othersKept_withCell {s : State} {e : Cell} {h g : Hart} (no : e.no = s.cell.no) (slot : e.slot = s.cell.slot)
    (harts : e.harts = (s.cell.setHart s.cell.slot g).harts) : OthersKept s (s.withCell (e.setHart s.cell.slot h)) :=
  othersKept_of_cell rfl no slot fun k hk => by
    have other : e.hart k = (s.cell.setHart s.cell.slot g).hart k := by rw [Cell.hart, harts]; rfl
    exact (Cell.hart_setHart_ne _ _ hk).trans (other.trans (Cell.hart_setHart_ne _ _ hk))

/-! ### A hart that asks for a re-division -/

/-- The hart whose `pool` has taken its ticket and waits for its code (R49). -/
def Hart.asking (h : Hart) (i : Instr) (ticket : Nat) : Hart := { h with req := .sent, winstr := some i, ticket := ticket }

/-- Its code has come. -/
def Hart.answered (h : Hart) (v : Word) : Hart := { h with req := .answered v }

/-- The cell after it has given the ticket. -/
def Cell.nextTicket (c : Cell) : Cell := { c with poolNo := c.poolNo + 1 }

/-- The cell in which a hart asks in its slot. -/
def Cell.ticketed (c : Cell) (i : Instr) : Cell := c.nextTicket.setHart c.slot ((c.hart c.slot).asking i c.poolNo)

/-- The request of a `pool` at its first issue. -/
def Cell.poolReq (c : Cell) (src dst : BitVec 3) (m : BitVec 5) : PoolReq := ⟨c.slot, c.poolNo, src.toNat, dst.toNat, m.toNat⟩

/-- What is counted over a cell's harts does not see a hart put that counts as the one it replaces. -/
theorem Cell.map_setHart {α : Type} (c : Cell) {k : Slot} {g : Hart} {f : Hart → α} (e : f g = f (c.hart k)) :
    (c.setHart k g).harts.toList.map f = c.harts.toList.map f := by
  rw [Cell.setHart, Vector.toList_set, List.map_set, e]
  have : f (c.hart k) = (c.harts.toList.map f)[k.val]'(by simp) := by simp [Cell.hart]
  rw [this, List.set_getElem_self]

/-- The ticket changes none of what admission tests (R44). -/
theorem accept_ticketed {s : State} {c e : Cell} {i : Instr} (src dst m : Nat) :
    (s.withCell e).accept (c.ticketed i) src dst m = s.accept c src dst m := by
  have mins : (c.ticketed i).harts.toList.flatMap Hart.minimums = c.harts.toList.flatMap Hart.minimums := by
    rw [List.flatMap_def, List.flatMap_def]
    exact congrArg List.flatten (Cell.map_setHart c.nextTicket rfl)
  have stage : (c.ticketed i).stageUsed = c.stageUsed := congrArg (List.foldl (· + ·) 0) (Cell.map_setHart c.nextTicket rfl)
  have role : (s.withCell e).roleMin (c.ticketed i) src = s.roleMin c src := by
    unfold State.roleMin
    rw [mins]
    rfl
  unfold State.accept
  rw [role, stage]
  rfl

/-- The hart that asks under a ticket has the code it is answered with. -/
theorem Cell.poolAnswer_ticketed (c : Cell) {d : Reg} {src dst : BitVec 3} {m : BitVec 5} (code : Nat) :
    (c.ticketed (.pool d src dst m)).poolAnswer c.slot c.poolNo code =
      c.nextTicket.setHart c.slot (((c.hart c.slot).asking (.pool d src dst m) c.poolNo).answered (BitVec.ofNat 64 code)) := by
  rw [Cell.ticketed, Cell.poolAnswer, Cell.hart_setHart, if_pos (by simp [Hart.asksPool, Hart.asking]), Cell.setHart_setHart]
  rfl

/-! ### The start of a re-division (R44, R45) -/

section
variable {s : State} {c : Cell} {r : PoolReq}

theorem startRediv_refused (h : s.accept c r.src r.dst r.m ≠ 0) :
    s.startRediv c r = c.poolAnswer r.slot r.ticket (s.accept c r.src r.dst r.m) := by
  unfold State.startRediv
  split
  · exact absurd ‹_› h
  · exact absurd ‹_› h
  · rfl

theorem startRediv_unplaced (h : s.accept c r.src r.dst r.m = 0) (p : c.placement r.src r.dst r.m = none) :
    s.startRediv c r = c.poolAnswer r.slot r.ticket 5 := by
  rw [State.startRediv, h, p]
  rfl

/-- Where it starts, the handshake touches none of the cell's harts and banks (R46). -/
theorem startRediv_starts {take : List Nat} {moves : List (Nat × Nat)} (h : s.accept c r.src r.dst r.m = 0)
    (p : c.placement r.src r.dst r.m = some (take, moves)) : let e := s.startRediv c r
    e.no = c.no ∧ e.slot = c.slot ∧ e.banks = c.banks ∧ e.harts = c.harts ∧
      e.rediv = some ⟨r.slot, r.ticket, r.src, r.dst, r.m, .handshake, c.cycle, take, moves⟩ := by
  have shrinks (k : Nat) : ∃ code cache cc mc, c.beginShrink r.src r.m k = { c with code := code, cache := cache, cclosed := cc, mclosed := mc } := by
    unfold Cell.beginShrink
    dsimp only
    repeat' split
    all_goals exact ⟨_, _, _, _, rfl⟩
  obtain ⟨code, cache, cc, mc, e⟩ := shrinks (Config.choice (s.tbase + c.cycle))
  rw [State.startRediv, h, p]
  dsimp only
  rw [e]
  exact ⟨rfl, rfl, rfl, rfl, rfl⟩

end

/-! ### `pool`, by the state of its request -/

/-- What a `pool` does once its request is made: it completes in the slot that finds its code, and issues again otherwise (R49). -/
def State.poolSlot (s : State) (d : Reg) : Out :=
  match s.hart.req with
  | .answered v => s.writeS d v
  | _ => s.reissue

/-- What it does with the request it makes at its first issue: one behind another waits in order, and the others start or are refused (R44, R49). -/
def State.poolMade (s : State) (r : PoolReq) (d : Reg) : Out :=
  if s.cell.rediv.isSome || !s.cell.redivQ.isEmpty then (s.withCell { s.cell with redivQ := s.cell.redivQ ++ [r] }).reissue
  else (s.withCell (s.startRediv s.cell r)).poolSlot d

section
variable {s : State} {d : Reg} {src dst : BitVec 3} {m : BitVec 5} {no : Nat} (hc : s.cur = .cell no) (v : InView s [d] [])
include hc v

theorem exec_pool_none (h : src = dst ∨ m = 0) : exec (.pool d src dst m) s = s.writeS d 0 := by
  change s.cellOnly (s.withRegs [d] [] _) = _
  rw [State.cellRegs_inView hc v, if_pos (by simpa using h)]

variable (ne : src ≠ dst) (some_ : m ≠ 0)
include ne some_

theorem exec_pool_made (h : s.hart.req ≠ .idle) : exec (.pool d src dst m) s = s.poolSlot d := by
  change s.cellOnly (s.withRegs [d] [] _) = _
  rw [State.cellRegs_inView hc v, if_neg (by simpa [ne] using some_)]
  dsimp only
  split
  · exact absurd ‹_› h
  · rfl

theorem exec_pool_first (h : s.hart.req = .idle) :
    exec (.pool d src dst m) s = (s.withCell (s.cell.ticketed (.pool d src dst m))).poolMade (s.cell.poolReq src dst m) d := by
  have issued : ((s.withCell s.cell.nextTicket).mapHart fun g => g.asking (.pool d src dst m) s.cell.poolNo) =
      s.withCell (s.cell.ticketed (.pool d src dst m)) := by
    have slot : s.cell.nextTicket.slot = s.cell.slot := rfl
    rw [State.mapHart_eq, State.setHart_withCell hc slot, State.hart_withCell hc slot]
    rfl
  change s.cellOnly (s.withRegs [d] [] _) = _
  rw [State.cellRegs_inView hc v, if_neg (by simpa [ne] using some_), h, ← issued]
  rfl

end

/-! ### Completed, or issued again -/

/-- `pool` or `poolq` has completed with a value: no bank and no re-division has changed. -/
def PoolDone (s : State) (i : Instr) (d : Reg) (v : Word) : Prop :=
  ∃ t, exec i s = .next t ∧ WentOn s.hart t.hart ∧ SpecialsKept s.hart t.hart ∧ FlagsKept s.hart t.hart ∧ WroteScalar s.hart t.hart d v ∧
    OthersKept s t ∧ t.cell.banks = s.cell.banks ∧ t.cell.rediv = s.cell.rediv ∧ t.mem = s.mem

/-- `pool` issues again in its hart's next slot, with its hart and its cell as `p` says. -/
def PoolAgain (s : State) (i : Instr) (p : Hart → Cell → Prop) : Prop :=
  ∃ t, exec i s = .next t ∧ t = { s with cell := t.cell } ∧ OthersKept s t ∧ t.hart.again = true ∧ t.hart.st = .run ∧ t.hart.pc = s.hart.pc ∧
    t.hart.win = s.hart.win ∧ t.cell.banks = s.cell.banks ∧ p t.hart t.cell

/-- A hart that completes after it has asked ends as any does that writes the value. -/
theorem Hart.completed_asked (h : Hart) (i : Instr) (n : Nat) (d : Reg) (v : Word) :
    let g := (((h.asking i n).answered v).setS d v).complete
    WentOn h g ∧ SpecialsKept h g ∧ FlagsKept h g ∧ WroteScalar h g d v := by
  obtain ⟨-, specials, flags, wrote⟩ := ((h.asking i n).answered v).completed_setS d v
  exact ⟨.of_same (by simp [Hart.asking, Hart.answered]), specials, flags, wrote⟩

section
variable {s : State} {i : Instr} {d : Reg} {v : Word} {no : Nat} (hc : s.cur = .cell no)
include hc

/-- A hart of the cell in focus that completes: of the cell's other parts no bank and no re-division is new. -/
theorem poolDone_withCell {e : Cell} {g : Hart} (run : exec i s = .next (s.withCell (e.setHart s.cell.slot g)))
    (cell : e.no = s.cell.no ∧ e.slot = s.cell.slot ∧ e.banks = s.cell.banks ∧ e.rediv = s.cell.rediv ∧ e.harts = s.cell.harts)
    (hart : WentOn s.hart g ∧ SpecialsKept s.hart g ∧ FlagsKept s.hart g ∧ WroteScalar s.hart g d v) : PoolDone s i d v := by
  obtain ⟨no, slot, banks, rediv, harts⟩ := cell
  obtain ⟨went, specials, flags, wrote⟩ := hart
  have same : e.harts = (s.cell.setHart s.cell.slot (s.cell.hart s.cell.slot)).harts := by simp [harts, Cell.setHart, Cell.hart]
  refine ⟨_, run, ?_, ?_, ?_, ?_, othersKept_withCell no slot same, banks, rediv, rfl⟩
  all_goals rw [hart_withCell_setHart hc slot]
  exacts [went, specials, flags, wrote]

theorem ScalarResult.poolDone (h : ScalarResult s i d v) : PoolDone s i d v := by
  obtain ⟨t, run, only, hart⟩ := h
  obtain ⟨g, rfl⟩ : ∃ g, t = s.setHart g := ⟨_, only⟩
  rw [State.hart_setHart] at hart
  exact poolDone_withCell hc (run.trans (congrArg _ (State.setHart_withCell hc (e := s.cell) rfl g))) ⟨rfl, rfl, rfl, rfl, rfl⟩ hart

/-- An asking hart that finds its code completes with it. -/
theorem poolDone_answered {j : Instr} {n : Nat}
    (run : exec i s = (s.withCell (s.cell.nextTicket.setHart s.cell.slot ((s.hart.asking j n).answered v))).poolSlot d) : PoolDone s i d v := by
  have slot : (s.cell.nextTicket.setHart s.cell.slot ((s.hart.asking j n).answered v)).slot = s.cell.slot := rfl
  rw [State.poolSlot, State.hart_withCell hc slot, Cell.hart_setHart] at run
  replace run := run.trans (State.writeS_withCell hc slot d v)
  rw [Cell.hart_setHart, Cell.setHart_setHart] at run
  exact poolDone_withCell hc run ⟨rfl, rfl, rfl, rfl, rfl⟩ (s.hart.completed_asked j n d v)

/-- An asking hart that issues again. -/
theorem poolAgain_withCell {e : Cell} {p : Hart → Cell → Prop} {j : Instr} {n : Nat} (run : exec i s = (s.withCell e).reissue)
    (cell : e.no = s.cell.no ∧ e.slot = s.cell.slot ∧ e.banks = s.cell.banks ∧ e.harts = (s.cell.setHart s.cell.slot (s.hart.asking j n)).harts)
    (hp : ∀ g f, g.req = .sent → f.rediv = e.rediv → f.redivQ = e.redivQ → p g f) : PoolAgain s i p := by
  obtain ⟨no, slot, banks, harts⟩ := cell
  have hart : e.hart s.cell.slot = s.hart.asking j n := by simp [Cell.hart, harts, Cell.setHart]
  rw [State.reissue_withCell hc slot, hart] at run
  refine ⟨_, run, rfl, othersKept_withCell no slot harts, ?_⟩
  rw [hart_withCell_setHart hc slot]
  exact ⟨rfl, rfl, rfl, rfl, banks, hp _ _ rfl rfl rfl⟩

end

section
variable {s : State} {d : Reg} {src dst : BitVec 3} {m : BitVec 5} {no : Nat} (hc : s.cur = .cell no) (v : InView s [d] [])
  (ne : src ≠ dst) (some_ : m ≠ 0)
include hc v ne some_

theorem pool_answered {x : Word} (h : s.hart.req = .answered x) : ScalarResult s (.pool d src dst m) d x :=
  .of_writeS ((exec_pool_made hc v ne some_ (by simp [h])).trans (by rw [State.poolSlot, h]))

theorem pool_sent (h : s.hart.req = .sent) : exec (.pool d src dst m) s = .next (s.setHart { s.hart with again := true, st := .run }) :=
  (exec_pool_made hc v ne some_ (by simp [h])).trans (by rw [State.poolSlot, h]; rfl)

variable (idle : s.hart.req = .idle)
include idle

/-- With a re-division under way or waiting, the request waits behind it. -/
theorem pool_queued (h : s.cell.rediv ≠ none ∨ s.cell.redivQ ≠ []) : PoolAgain s (.pool d src dst m) fun g e =>
    g.req = .sent ∧ e.rediv = s.cell.rediv ∧ e.redivQ = s.cell.redivQ ++ [s.cell.poolReq src dst m] := by
  have behind : ((s.withCell (s.cell.ticketed (.pool d src dst m))).cell.rediv.isSome ||
      !(s.withCell (s.cell.ticketed (.pool d src dst m))).cell.redivQ.isEmpty) = true := by
    change (s.cell.rediv.isSome || !s.cell.redivQ.isEmpty) = true
    simpa [Option.isSome_iff_ne_none] using h
  have run := (exec_pool_first hc v ne some_ idle).trans (if_pos behind)
  refine poolAgain_withCell (j := .pool d src dst m) (n := s.cell.poolNo) hc run ⟨rfl, rfl, rfl, ?_⟩ fun g f sent rediv queue => ⟨sent, rediv, queue⟩
  rw [State.hart_cell hc]
  rfl

variable (free : s.cell.rediv = none) (first : s.cell.redivQ = [])
include free first

/-- With none, it starts or is refused. -/
theorem exec_pool_alone : exec (.pool d src dst m) s = (s.withCell
    ((s.withCell (s.cell.ticketed (.pool d src dst m))).startRediv (s.cell.ticketed (.pool d src dst m)) (s.cell.poolReq src dst m))).poolSlot d := by
  refine (exec_pool_first hc v ne some_ idle).trans (if_neg ?_)
  change ¬(s.cell.rediv.isSome || !s.cell.redivQ.isEmpty) = true
  simp [free, first]

/-- One that is answered a code at once completes with it in the same slot. -/
theorem pool_coded {code : Nat} (h : (s.withCell (s.cell.ticketed (.pool d src dst m))).startRediv (s.cell.ticketed (.pool d src dst m))
      (s.cell.poolReq src dst m) = (s.cell.ticketed (.pool d src dst m)).poolAnswer s.cell.slot s.cell.poolNo code) :
    PoolDone s (.pool d src dst m) d (BitVec.ofNat 64 code) := by
  have run := exec_pool_alone hc v ne some_ idle free first
  rw [h, Cell.poolAnswer_ticketed, ← State.hart_cell hc] at run
  exact poolDone_answered hc run

theorem pool_refused (h : s.accept s.cell src.toNat dst.toNat m.toNat ≠ 0) :
    PoolDone s (.pool d src dst m) d (BitVec.ofNat 64 (s.accept s.cell src.toNat dst.toNat m.toNat)) := by
  refine pool_coded hc v ne some_ idle free first ?_
  rw [startRediv_refused (by rw [accept_ticketed]; exact h), accept_ticketed]
  rfl

theorem pool_unplaced (h : s.accept s.cell src.toNat dst.toNat m.toNat = 0) (p : s.cell.placement src.toNat dst.toNat m.toNat = none) :
    PoolDone s (.pool d src dst m) d 5 :=
  pool_coded hc v ne some_ idle free first (startRediv_unplaced (by rw [accept_ticketed]; exact h) p)

theorem pool_starts {take : List Nat} {moves : List (Nat × Nat)} (h : s.accept s.cell src.toNat dst.toNat m.toNat = 0)
    (p : s.cell.placement src.toNat dst.toNat m.toNat = some (take, moves)) : PoolAgain s (.pool d src dst m) fun g e => g.req = .sent ∧
      e.rediv = some ⟨s.cell.slot, s.cell.poolNo, src.toNat, dst.toNat, m.toNat, .handshake, s.cell.cycle, take, moves⟩ := by
  have run := exec_pool_alone hc v ne some_ idle free first
  obtain ⟨no, slot, banks, harts, rediv⟩ := startRediv_starts (s := s.withCell (s.cell.ticketed (.pool d src dst m)))
    (c := s.cell.ticketed (.pool d src dst m)) (r := s.cell.poolReq src dst m) (by rw [accept_ticketed]; exact h) p
  generalize State.startRediv _ _ _ = e at run no slot banks harts rediv
  have asks : (e.hart s.cell.slot).req = .sent := by
    rw [Cell.hart, harts]
    exact congrArg Hart.req (Cell.hart_setHart _ _ _)
  rw [State.poolSlot, State.hart_withCell hc slot, asks] at run
  refine poolAgain_withCell (j := .pool d src dst m) (n := s.cell.poolNo) hc run ⟨no, slot, banks, harts.trans ?_⟩ fun g f sent e _ =>
    ⟨sent, e.trans rediv⟩
  rw [State.hart_cell hc]
  rfl

end

/-! ### `poolq` (R51) -/

/-- A byte of a word of the bank map (R51). -/
theorem Cell.bankWord_byte (c : Cell) {n j : Nat} (hn : n < 4) (hj : j < 8) :
    (c.bankWord n).extractLsb' (8 * j) 8 = c.banks.toList.getD (8 * n + j) 0 := by
  have len : ((c.banks.toList.drop (8 * n)).take 8).length = 8 := by simp; omega
  have small := leNat_lt ((c.banks.toList.drop (8 * n)).take 8)
  have byte := leNat_byte ((c.banks.toList.drop (8 * n)).take 8) j (by omega)
  have at_ : ((c.banks.toList.drop (8 * n)).take 8).getD j 0 = c.banks.toList.getD (8 * n + j) 0 := by
    simp [List.getD_eq_getElem?_getD, hj]
  rw [← at_, ← byte, Cell.bankWord]
  rw [len] at small
  refine BitVec.eq_of_toNat_eq ?_
  rw [BitVec.extractLsb'_toNat, BitVec.toNat_ofNat, BitVec.toNat_ofNat, Nat.shiftRight_eq_div_pow,
    Nat.mod_eq_of_lt (small.trans_eq (by norm_num)), Nat.pow_mul]

/-- The cell with other high-water marks. -/
def Cell.withHigh (c : Cell) (w : Word) : Cell := { c with high := w }

theorem Cell.withHigh_kept (c : Cell) (w : Word) : (c.withHigh w).no = c.no ∧ (c.withHigh w).slot = c.slot ∧ (c.withHigh w).banks = c.banks ∧
    (c.withHigh w).rediv = c.rediv ∧ (c.withHigh w).harts = c.harts := ⟨rfl, rfl, rfl, rfl, rfl⟩

theorem Cell.slot_withHigh (c : Cell) (w : Word) : (c.withHigh w).slot = c.slot := rfl

theorem Cell.hart_withHigh (c : Cell) (w : Word) (k : Slot) : (c.withHigh w).hart k = c.hart k := rfl

theorem Cell.setHart_withHigh (c : Cell) (w : Word) (k : Slot) (g : Hart) :
    (c.withHigh w).setHart k g = { c with harts := ((c.withHigh w).setHart k g).harts, high := w } := rfl

section
variable {s : State} {d : Reg} {no : Nat} (hc : s.cur = .cell no) (v : InView s [d] [])
include hc v

theorem poolq_reads : ScalarResult s (.poolq d 0) d s.cell.profile ∧ ScalarResult s (.poolq d 1) d s.cell.high ∧
    ScalarResult s (.poolq d 3) d s.cell.quota ∧ ScalarResult s (.poolq d 4) d (s.minimums s.cell) := by
  have issued := State.cellRegs_inView hc v
  exact ⟨.of_writeS (issued _), .of_writeS (issued _), .of_writeS (issued _), .of_writeS (issued _)⟩

theorem poolq_banks {n : Nat} (hn : n < 4) : ScalarResult s (.poolq d (BitVec.ofNat 6 (5 + n))) d (s.cell.bankWord n) := by
  refine .of_writeS ((State.cellRegs_inView hc v _).trans ?_)
  interval_cases n <;> rfl

/-- The read of the high-water marks sets them to the profile. -/
theorem exec_poolq_high : exec (.poolq d 2) s =
    .next (s.withCell ((s.cell.withHigh s.cell.profile).setHart s.cell.slot (s.hart.setS d s.cell.high).complete)) := by
  refine (State.cellRegs_inView hc v _).trans
    ((State.writeS_withCell hc (s.cell.slot_withHigh s.cell.profile) d s.cell.high).trans ?_)
  rw [State.hart_cell hc, Cell.hart_withHigh]

end

/-- The cell has its hart and its high-water marks anew (R51). -/
theorem poolq_marks {s : State} {d : Reg} {no : Nat} (hc : s.cur = .cell no) (v : InView s [d] []) :
    ∃ t, exec (.poolq d 2) s = .next t ∧ t = { s with cell := t.cell } ∧ t.cell = { s.cell with harts := t.cell.harts, high := s.cell.profile } ∧
      (∀ k, k ≠ s.cell.slot → t.cell.hart k = s.cell.hart k) ∧ WentOn s.hart t.hart ∧ SpecialsKept s.hart t.hart ∧ FlagsKept s.hart t.hart ∧
      WroteScalar s.hart t.hart d s.cell.high := by
  refine ⟨_, exec_poolq_high hc v, rfl, s.cell.setHart_withHigh _ _ _, fun k hk => (Cell.hart_setHart_ne _ _ hk).trans (s.cell.hart_withHigh _ k), ?_⟩
  rw [hart_withCell_setHart hc (s.cell.slot_withHigh _)]
  exact s.hart.completed_setS d s.cell.high

theorem poolq_done {s : State} {d : Reg} {no : Nat} (hc : s.cur = .cell no) (v : InView s [d] []) {sel : BitVec 6} (le : sel.toNat ≤ 8) :
    ∃ x, PoolDone s (.poolq d sel) d x := by
  obtain ⟨profile, high, quota, minimums⟩ := poolq_reads hc v
  obtain ⟨n, hn, rfl⟩ : ∃ n, n ≤ 8 ∧ sel = BitVec.ofNat 6 n := ⟨sel.toNat, le, by simp⟩
  rcases Nat.lt_or_ge n 5 with low | bank
  · interval_cases n
    · exact ⟨_, profile.poolDone hc⟩
    · exact ⟨_, high.poolDone hc⟩
    · exact ⟨_, poolDone_withCell hc (exec_poolq_high hc v) (s.cell.withHigh_kept _) (s.hart.completed_setS d s.cell.high)⟩
    · exact ⟨_, quota.poolDone hc⟩
    · exact ⟨_, minimums.poolDone hc⟩
  · obtain ⟨k, rfl⟩ := Nat.exists_eq_add_of_le bank
    exact ⟨_, (poolq_banks hc v (by omega)).poolDone hc⟩

/-- Settles O40: `pool` by whether it asks for banks and how far its request has come, `poolq` by its selector. -/
theorem poolInstructions : Obligations.PoolInstructions := by
  unfold Obligations.PoolInstructions
  intro s d src dst m no hc v
  obtain ⟨profile, high, quota, minimums⟩ := poolq_reads hc v
  exact ⟨fun h => .of_writeS (exec_pool_none hc v h), fun ne some_ => ⟨fun _ => pool_answered hc v ne some_, pool_sent hc v ne some_,
    fun idle free first => ⟨pool_refused hc v ne some_ idle free first, pool_unplaced hc v ne some_ idle free first,
      fun _ _ => pool_starts hc v ne some_ idle free first⟩, pool_queued hc v ne some_⟩,
    fun _ => poolq_done hc v, profile, high, quota, minimums, fun n hn => ⟨_, poolq_banks hc v hn, fun j hj => s.cell.bankWord_byte hn hj⟩,
    poolq_marks hc v⟩

end Sys2Proof.Machine

namespace Sys2Proof.Machine

/-! ## What a store leaves of the module (R189, R359) -/

/-- A cell without its CACHE. -/
def Cell.cold (c : Cell) : Cell := { c with cache := [] }

/-- Cells differ in their CACHEs alone, and beside them nothing but memory, the records of lines and what travels does. -/
structure CachesOnly (s t : State) : Prop where
  same : t = { s with cell := t.cell, others := t.others, mem := t.mem, coh := t.coh, net := t.net, cmdNo := t.cmdNo }
  closed : t.net.closed = s.net.closed
  cell : t.cell.cold = s.cell.cold
  cells : ∀ n, (t.cellAt n).cold = (s.cellAt n).cold
  numbered : Numbered s → Numbered t

/-- Each cell changed in its CACHE alone. -/
theorem State.cellAt_mapCells {g : Cell → Cell} (k : ∀ c, (g c).cold = c.cold) (s : State) (n : Nat) :
    ((s.mapCells g).cellAt n).cold = (s.cellAt n).cold := by
  have no : (g s.cell).no = s.cell.no := by
    have same := congrArg Cell.no (k s.cell)
    exact same
  have rest : (s.mapCells g).restCell n = s.restCell n := rfl
  unfold State.cellAt
  rw [rest]
  simp only [State.mapCells, no, assocGet_map]
  split
  · exact k s.cell
  · cases assocGet n s.others with
    | none => rfl
    | some c => exact k c

namespace CachesOnly
variable {s u v : State}

theorem refl (s : State) : CachesOnly s s := ⟨rfl, rfl, rfl, fun _ => rfl, id⟩

theorem trans (h : CachesOnly s u) (k : CachesOnly u v) : CachesOnly s v :=
  ⟨by rw [k.same, h.same], k.closed.trans h.closed, k.cell.trans h.cell, fun n => (k.cells n).trans (h.cells n), k.numbered ∘ h.numbered⟩

/-- Memory, the records of lines and what travels can be anything, as long as the links stay as they are. -/
theorem away (h : CachesOnly s u) {mem : MemSys} {coh : List CohLine} {net : Net} {cmdNo : Nat} (closed : net.closed = u.net.closed) :
    CachesOnly s { u with mem := mem, coh := coh, net := net, cmdNo := cmdNo } :=
  ⟨by rw [h.same], closed.trans h.closed, h.cell, h.cells, h.numbered⟩

theorem mapCells (h : CachesOnly s u) {g : Cell → Cell} (k : ∀ c, (g c).cold = c.cold) : CachesOnly s (u.mapCells g) := by
  have no (c : Cell) : (g c).no = c.no := by
    have same := congrArg Cell.no (k c)
    exact same
  refine h.trans ⟨rfl, rfl, k _, State.cellAt_mapCells k u, fun hn => ⟨fun n hc => (no _).trans (hn.1 n hc), fun p hp => ?_⟩⟩
  obtain ⟨q, hq, rfl⟩ := List.mem_map.1 hp
  exact (no _).trans (hn.2 q hq)

theorem putCell (h : CachesOnly s u) {n : Nat} {c : Cell} (no : (u.cellAt n).no = n) (k : c.cold = (u.cellAt n).cold) :
    CachesOnly s (u.putCell c) := by
  have hno : c.no = n := by
    have same := congrArg Cell.no k
    exact same.trans no
  refine h.trans ⟨?_, by simp, ?_, fun m => ?_, fun hn => hn.putCell c⟩
  · unfold State.putCell; split <;> rfl
  · unfold State.putCell
    split
    · next e =>
      rw [k, State.cellAt, if_pos (hno.symm.trans e)]
    · rfl
  · by_cases hm : m = n
    · subst hm; rw [← hno, State.cellAt_putCell, k, hno]
    · rw [State.cellAt_putCell_ne (hno ▸ hm)]

theorem stampMsg (h : CachesOnly s u) {t : Nat} {k : LineKey} {m : Sent} : CachesOnly s (u.stampMsg t k m).2 := by
  unfold State.stampMsg
  split
  · exact h
  · dsimp only
    split
    · exact h
    · rw [State.sendPacket_eq]
      refine h.away ?_
      unfold State.sendPacket
      dsimp only
      split <;> rfl

theorem putCoh (h : CachesOnly s u) {t : Nat} {l : CohLine} : CachesOnly s (u.putCoh t l) := by
  unfold State.putCoh
  dsimp only
  split
  · exact h.away rfl
  · refine CachesOnly.away ?_ rfl
    exact foldl_keeps (P := fun r : List Sent × State => CachesOnly s r.2) h fun r m k => k.stampMsg

theorem recallWords (h : CachesOnly s u) {die : Nat} {k : LineKey} : CachesOnly s (u.recallWords die k) := by
  refine h.mapCells fun c => ?_
  split <;> rfl

theorem cohWrite (h : CachesOnly s u) {d : Nat} {k : LineKey} (e : u.cohWrite d k = some v) : CachesOnly s v := by
  unfold State.cohWrite at e
  dsimp only at e
  split at e
  · exact Option.some.inj e ▸ h
  split at e
  · exact Option.some.inj e ▸ h.putCoh
  split at e
  · cases e
  · exact Option.some.inj e ▸ (foldl_keeps (P := CachesOnly s) h fun w y k => k.recallWords).putCoh

/-- A party of a cell allocates a line in the cell's own CACHE. -/
theorem allocate (h : CachesOnly s u) {n : Nat} (no : (u.cellAt n).no = n) {k : LineKey} : CachesOnly s (u.allocate n k) := by
  unfold State.allocate
  dsimp only
  split
  · split
    · exact h
    · exact h.putCell no rfl
  · exact h

theorem register (h : CachesOnly s u) {n : Option Nat} (no : ∀ i, n = some i → (u.cellAt i).no = i) {k : LineKey} {m : BitVec 16} :
    CachesOnly s (u.register n k m) := by
  unfold State.register
  dsimp only
  cases n with
  | none =>
    dsimp only
    split
    · exact h
    · exact h.mapCells fun c => rfl
  | some i =>
    have first := h.allocate (no i rfl) (k := k)
    dsimp only
    split
    · exact first
    · exact first.mapCells fun c => rfl

theorem storeLine (h : CachesOnly s u) {n : Option Nat} {k : LineKey} {o : Nat} {bs sb : List Byte} : CachesOnly s (u.storeLine n k o bs sb) := by
  unfold State.storeLine
  dsimp only
  split
  · exact h
  · exact CachesOnly.mapCells (h.away rfl) fun c => rfl

/-! What follows of the cells and of the issuing hart. -/

theorem cur (h : CachesOnly s u) : u.cur = s.cur := by rw [h.same]
theorem cores (h : CachesOnly s u) : u.cores = s.cores := by rw [h.same]
theorem launches (h : CachesOnly s u) : u.launches = s.launches := by rw [h.same]
theorem fields (h : CachesOnly s u) : u.fields = s.fields := by rw [h.same]
theorem tbase (h : CachesOnly s u) : u.tbase = s.tbase := by rw [h.same]

theorem no_cell (h : CachesOnly s u) {n : Nat} (no : (s.cellAt n).no = n) : (u.cellAt n).no = n := by
  have same := congrArg Cell.no (h.cells n)
  exact same.trans no

theorem slot (h : CachesOnly s u) : u.cell.slot = s.cell.slot := by
  have same := congrArg Cell.slot h.cell
  exact same

theorem cell_no (h : CachesOnly s u) : u.cell.no = s.cell.no := by
  have same := congrArg Cell.no h.cell
  exact same

theorem hartAt (h : CachesOnly s u) (n : Nat) (k : Slot) : u.hartAt n k = s.hartAt n k := by
  have same := congrArg (fun c => Cell.hart c k) (h.cells n)
  exact same

theorem hart (h : CachesOnly s u) : u.hart = s.hart := by
  have same := congrArg (fun c => Cell.hart c s.cell.slot) h.cell
  unfold State.hart
  rw [h.cur, h.cores, h.slot]
  split
  exacts [same, rfl]

theorem banksKept (h : CachesOnly s u) : BanksKept s u := banksKept_of_rest fun n => by
  have same := congrArg Cell.rest (h.cells n)
  exact same

/-- The issuing hart of a cell completes behind the store. -/
theorem othersKept_setHart (h : CachesOnly s u) {no : Nat} (hc : s.cur = .cell no) (hn : Numbered s) (g : Hart) : OthersKept s (u.setHart g) := by
  obtain ⟨cur, no_, slot_, others⟩ := (h.numbered hn).setHart_othersKept (h.cur.trans hc) g
  refine ⟨cur.trans h.cur, no_.trans h.cell_no, slot_.trans h.slot, fun n k d => (others n k ?_).trans (h.hartAt n k)⟩
  rwa [h.cell_no, h.slot]

theorem sweepHart (h : CachesOnly s u) (n : Nat) (k : Slot) : u.sweepHart n k = s.sweepHart n k := by
  have nres := congrArg Cell.nres (h.cells n)
  have field : u.cellField n = s.cellField n := by
    unfold State.cellField State.placed State.team? State.launch?
    rw [h.fields, h.launches]
  unfold State.sweepHart
  rw [field, show (u.cellAt n).nres = (s.cellAt n).nres from nres]

theorem parkKind (h : CachesOnly s u) : u.parkKind = s.parkKind := by
  unfold State.parkKind
  rw [h.sweepHart, h.cell_no, h.slot]

theorem banksKept_setHart (h : CachesOnly s u) (hn : Numbered s) {no : Nat} (hc : s.cur = .cell no) (g : Hart) : BanksKept s (u.setHart g) :=
  h.banksKept.trans ((h.numbered hn).setHart_banksKept (h.cur.trans hc) g)

end CachesOnly

end Sys2Proof.Machine

namespace Sys2Proof.Machine

/-! ## Lines that a die has, or may have at once (R361, R364) -/

/-- The die takes a store of the line now: it owns the line, or nothing about the line is in flight and the die may have it. -/
def Yields (s : State) (d : Nat) (k : LineKey) : Prop := (s.cohLine k).writable d = true ∨ Settled s k ∧ Ownable s d k

/-- The dies of a line's record, as they stand in the list of records. -/
theorem State.cohLine_dieState (s : State) (k : LineKey) (d : Nat) :
    (s.cohLine k).dieState d = ((s.coh.find? fun l => l.key == k).getD (.reset k)).dieState d := by
  unfold State.cohLine
  split
  · next h => rw [h]; rfl
  · next h => rw [h]; rfl

/-- Whether a die takes a store depends on the records of lines and the links alone. -/
theorem Yields.congr {s t : State} {d : Nat} {k : LineKey} (h : Yields s d k) (closed : t.net.closed = s.net.closed)
    (find : (t.coh.find? fun l => l.key == k) = s.coh.find? fun l => l.key == k) (mem : ∀ x ∈ t.coh, x.key = k → x ∈ s.coh) : Yields t d k := by
  have states : (t.cohLine k).dieState = (s.cohLine k).dieState := funext fun e => by rw [t.cohLine_dieState, s.cohLine_dieState, find]
  have writable : (t.cohLine k).writable d = (s.cohLine k).writable d := by unfold CohLine.writable; rw [states]
  have evicting : (t.cohLine k).evicting d = (s.cohLine k).evicting d := by unfold CohLine.evicting; rw [states]
  have missing : (t.cohLine k).missing d = (s.cohLine k).missing d := by unfold CohLine.missing; rw [states]
  unfold Yields Ownable Settled
  rw [writable, evicting, missing, closed]
  exact h.imp id fun ⟨⟨links, quiet⟩, own⟩ => ⟨⟨links, fun x hx e => quiet x (mem x hx e) e⟩, own⟩

theorem CohLine.dieState_setDie (l : CohLine) (d : Nat) : (l.setDie d .m).dieState d = .m := by
  simp [CohLine.dieState, CohLine.die, CohLine.setDie, CohLine.putDie]

theorem State.putCoh_coh (s : State) (t : Nat) (l : CohLine) (busy : l.idle = false) : ∃ ms, (s.putCoh t l).coh =
    { l with msgs := ms } :: s.coh.filter fun m => m.key != l.key := by
  unfold State.putCoh
  rw [if_neg (by simp [busy])]
  exact ⟨_, rfl⟩

section
variable {s t u : State} {d : Nat} {j k : LineKey}

/-- A record put that has the die in M: the die takes a store of its line, and of every line that it took one of before. -/
theorem Yields.putCoh (h : Yields s d j) (links : u.net.closed = s.net.closed) (coh : u.coh = s.coh) {t : Nat} {l : CohLine}
    (owned : l.dieState d = .m) : Yields (u.putCoh t l) d j := by
  have busy : l.idle = false := by
    cases hd : l.dies with
    | nil => simp [CohLine.dieState, CohLine.die, hd] at owned
    | cons y ys => simp [CohLine.idle, hd]
  obtain ⟨ms, put⟩ := u.putCoh_coh t l busy
  by_cases e : l.key = j
  · left
    unfold CohLine.writable
    rw [State.cohLine_dieState, put, List.find?_cons_of_pos (by simpa using e)]
    exact Bool.or_eq_true_iff.mpr (.inl (beq_iff_eq.mpr owned))
  · refine h.congr (((CachesOnly.refl u).putCoh).closed.trans links) ?_ fun x hx hk => ?_
    · rw [put, coh]
      exact find?_cons_filter _ (by simpa using e) fun y hy => by
        have : y.key = j := by simpa using hy
        simpa [this] using Ne.symm e
    · rw [put, coh] at hx
      rcases List.mem_cons.mp hx with rfl | hx
      · exact absurd hk e
      · exact List.mem_of_mem_filter hx

/-- A die that takes a line for a store still takes one of every line that it took one of before. -/
theorem Yields.cohWrite (h : Yields s d j) (e : s.cohWrite d k = some t) : Yields t d j := by
  unfold State.cohWrite at e
  dsimp only at e
  split at e
  · exact Option.some.inj e ▸ h
  split at e
  · next exclusive =>
    refine Option.some.inj e ▸ h.putCoh rfl rfl ?_
    rw [CohLine.dirtied, if_pos exclusive, CohLine.dieState_setDie]
  split at e
  · cases e
  · refine Option.some.inj e ▸ h.putCoh ?_ ?_ (CohLine.dieState_setDie _ d)
    · exact foldl_keeps (P := fun u : State => u.net.closed = s.net.closed) rfl fun u y h => h
    · exact foldl_keeps (P := fun u : State => u.coh = s.coh) rfl fun u y h => h

/-- A die takes a line that it may store into; memory is as it was. -/
theorem Yields.takes (h : Yields s d k) : ∃ t, s.cohWrite d k = some t ∧ t.mem = s.mem := by
  rcases h with own | ⟨settled, own⟩
  · unfold State.cohWrite
    dsimp only
    split
    · exact ⟨_, rfl, rfl⟩
    split
    · exact ⟨_, rfl, State.putCoh_mem ..⟩
    · next notM notE => exact absurd own (by simp [CohLine.writable, notM, notE])
  · exact State.cohWrite_takes settled own

theorem State.allocate_coh (s : State) (n : Nat) (k : LineKey) : (s.allocate n k).coh = s.coh := by
  unfold State.allocate
  dsimp only
  split
  · split
    · rfl
    · exact State.putCell_coh ..
  · rfl

theorem State.register_coh (s : State) (n : Option Nat) (k : LineKey) (m : BitVec 16) : (s.register n k m).coh = s.coh := by
  unfold State.register
  dsimp only
  cases n with
  | none => split <;> rfl
  | some i =>
    have same := s.allocate_coh i k
    split
    exacts [same, same]

theorem State.storeLine_coh (s : State) (n : Option Nat) (k : LineKey) (o : Nat) (bs sb : List Byte) : (s.storeLine n k o bs sb).coh = s.coh := by
  unfold State.storeLine
  dsimp only
  split <;> rfl

/-- Whether a die takes a store hears of nothing but the records of lines and the links. -/
theorem Yields.of_coh (h : Yields s d k) (coh : t.coh = s.coh) (links : t.net.closed = s.net.closed) : Yields t d k :=
  h.congr links (by rw [coh]) fun _ hx _ => coh ▸ hx

end

/-! ## A store performed (R66, R189, R359) -/

section
variable {s t : State} {who : Party} {asid : Nat} {l : OLine}

/-- A party's store at a line of its own address space, or of window A outside the page tables, is performed where its die may have the line. -/
theorem State.writePiece_stores {va : Nat} {lv : Level} {bs sb : List Byte} (place : s.storeAt asid lv va = (.ok (.line l), s))
    (line : s.line? ⟨asid, s.gen asid, va / 128⟩ = some l) (plain : s.tableStore asid va = false) (y : Yields s who.die l.key)
    (no : ∀ n, who.cell? = some n → (s.cellAt n).no = n) : ∃ t, s.writePiece who asid lv va bs sb = (.ok (), t) ∧ CachesOnly s t ∧
      t.mem = (s.putLine (l.stored (va % 128) bs sb)).mem ∧ ∀ k, Yields s who.die k → Yields t who.die k := by
  obtain ⟨w, takes, mem⟩ := y.takes
  have key := State.line?_key line
  have taken := (CachesOnly.refl s).cohWrite takes
  let r : State := w.register who.cell? l.key (wordMask (va % 128) bs.length)
  have registered : CachesOnly s r := taken.register fun i hi => taken.no_cell (no i hi)
  have written : CachesOnly s (r.storeLine who.cell? l.key (va % 128) bs sb) := registered.storeLine
  have found : r.line? l.key = some l := by rw [State.line?_of_mem ((State.register_mem ..).trans mem), key, line]
  have stores : s.storeFor who (.line l) va bs sb = some (r.storeLine who.cell? l.key (va % 128) bs sb) := by
    unfold State.storeFor
    dsimp only
    rw [if_neg (by simp [key, plain]), takes]
    rfl
  refine ⟨_, ?_, written, (State.storeLine_mem found).trans ?_, fun k h => (h.cohWrite takes).of_coh ?_ (written.closed.trans taken.closed.symm)⟩
  · unfold State.writePiece
    rw [place]
    dsimp only
    rw [stores]
  · unfold State.putLine
    rw [State.register_mem, mem]
  · rw [State.storeLine_coh, State.register_coh]

end

end Sys2Proof.Machine

namespace Sys2Proof.Machine

/-! ## Stores performed in order (R70, R193) -/

/-- On-die bytes with those of a store's record laid over them. -/
def laid (asid : Nat) (r : StoreRec) (f : Nat → Nat → Option Byte) : Nat → Nat → Option Byte := fun b va =>
  if b = asid ∧ r.addr ≤ va ∧ va < r.addr + r.bytes.length then some (r.bytes.getD (va - r.addr) 0) else f b va

theorem laid_eq_stored (asid : Nat) (r : StoreRec) (f : Nat → Nat → Option Byte) :
    laid asid r f = stored asid r.addr r.bytes.length (leNat r.bytes) f := by
  funext b va
  unfold laid stored
  split
  · next h => rw [leNat_byte _ _ (by omega)]
  · rfl

/-- The low bytes of a number, laid over, are the number stored. -/
theorem laid_leBytes (asid a n v : Nat) (sb : List Byte) (k : AccKind) (sc : Scope) (after : List Nat) (lv : Level) (f : Nat → Nat → Option Byte) :
    laid asid ⟨a, leBytes n v, sb, k, sc, after, lv⟩ f = stored asid a n v f := by
  funext b va
  unfold laid stored
  simp only [length_leBytes]
  split
  · next h => rw [leBytes_getD n v _ (by omega)]
  · rfl

/-- The line of a store's address, in an address space that has lines of its own, takes the store of a die's party. -/
def Takes (s : State) (d asid : Nat) (r : StoreRec) : Prop :=
  asid ≠ 0 ∧ r.addr < 2 ^ 55 ∧ r.addr % 128 + r.bytes.length ≤ 128 ∧ ∃ l, s.line? ⟨asid, s.gen asid, r.addr / 128⟩ = some l ∧
    l.perm.allows r.level .store = true ∧ l.data.length = 128 ∧ Yields s d l.key

section
variable {s : State} {who : Party} {asid : Nat}

/-- A store performed lies over its line's bytes, and every line that took a store takes one still. -/
theorem Takes.performRec {r : StoreRec} (h : Takes s who.die asid r) (no : ∀ n, who.cell? = some n → (s.cellAt n).no = n) :
    ∃ t, s.performRec who asid r = (.ok (), t) ∧ CachesOnly s t ∧ MemoryKept s t ∧ OnDieIs t (laid asid r (onDie s)) ∧
      ∀ q, Takes s who.die asid q → Takes t who.die asid q := by
  obtain ⟨ha, low, fits, l, line, may, len, y⟩ := h
  have key := State.line?_key line
  obtain ⟨t, written, caches, mem, yields⟩ := State.writePiece_stores (bs := r.bytes) (sb := r.sb) (State.storeAt_line ha low line may) line
    (by simp [State.tableStore, ha]) y no
  refine ⟨t, written, caches, by rw [MemoryKept, mem]; rfl, fun b va => ?_, fun q ⟨_, qlow, qfits, m, qline, qmay, qlen, qy⟩ => ⟨ha, qlow, qfits, ?_⟩⟩
  · rw [laid_eq_stored, ← onDieIs_putLine (sb := r.sb) line fits len b va]
    exact onDie_of_mem (by rw [mem]) (by rw [mem]) b va
  · have found (k : LineKey) : t.line? k = if k = l.key then some (l.stored (r.addr % 128) r.bytes r.sb) else s.line? k :=
      (State.line?_of_mem mem k).trans (s.line?_putLine _ k)
    have gen : t.gen asid = s.gen asid := by unfold State.gen; rw [mem]; rfl
    rw [gen, found]
    by_cases e : (⟨asid, s.gen asid, q.addr / 128⟩ : LineKey) = l.key
    · have same : m = l := Option.some.inj (qline.symm.trans (by rw [e, key, line]))
      subst same
      exact ⟨_, if_pos e, qmay, (length_patch (by omega)).trans len, yields _ qy⟩
    · exact ⟨m, (if_neg e).trans qline, qmay, qlen, yields _ qy⟩

/-- The store's place is its line. -/
theorem Takes.place {d : Nat} {r : StoreRec} (h : Takes s d asid r) : ∃ l, s.storeAt asid r.level r.addr = (.ok (.line l), s) := by
  obtain ⟨ha, low, -, l, line, may, -, -⟩ := h
  exact ⟨l, State.storeAt_line ha low line may⟩

/-- A store of the issuing hart into a line that takes it. -/
theorem Takes.of_storable {r : StoreRec} {l : OLine} (h : Storable s l r.addr) (low : r.addr < 2 ^ 55) (fits : r.addr % 128 + r.bytes.length ≤ 128)
    (level : r.level = s.hart.level) : Takes s s.myDie s.asid r := by
  obtain ⟨⟨ha, line, may, len, settled⟩, own⟩ := h
  exact ⟨ha, low, fits, l, line, level ▸ may, len, .inr ⟨settled, own⟩⟩

theorem State.performAll_cons (s : State) (who : Party) (asid : Nat) (r : StoreRec) (rs : List StoreRec) {t : State}
    (h : s.performRec who asid r = (.ok (), t)) : s.performAll who asid (r :: rs) = t.performAll who asid rs := by
  unfold State.performAll
  rw [List.foldl_cons, Option.bind_some, h]

/-- Stores that their lines take are performed in order. -/
theorem State.performAll_takes (rs : List StoreRec) : ∀ s : State, (∀ r ∈ rs, Takes s who.die asid r) →
    (∀ n, who.cell? = some n → (s.cellAt n).no = n) → ∃ t, s.performAll who asid rs = some t ∧ CachesOnly s t ∧ MemoryKept s t ∧
      OnDieIs t (rs.foldl (fun f r => laid asid r f) (onDie s)) := by
  induction rs with
  | nil => exact fun s _ _ => ⟨s, rfl, .refl s, rfl, fun _ _ => rfl⟩
  | cons r rs ih =>
    intro s takes no
    obtain ⟨t, performed, caches, mem, die, kept⟩ := (takes r (List.mem_cons_self ..)).performRec no
    obtain ⟨u, rest, caches', mem', die'⟩ := ih t (fun q hq => kept q (takes q (List.mem_cons_of_mem _ hq))) fun n hn => caches.no_cell (no n hn)
    have same : onDie t = laid asid r (onDie s) := funext fun b => funext fun va => die b va
    refine ⟨u, (s.performAll_cons who asid r rs performed).trans rest, caches.trans caches', ?_, ?_⟩
    · rw [MemoryKept, mem', mem]
    · rw [List.foldl_cons, ← same]
      exact die'

end

/-! ## The issuing hart's stores (R66, R70, R196) -/

section
variable {s : State} {no : Nat}

/-- The stores of a cell's hart that their lines take are performed, and the hart goes on behind them. -/
theorem State.performAll_here {rs : List StoreRec} (hc : s.cur = .cell no) (hn : Numbered s) (takes : ∀ r ∈ rs, Takes s s.myDie s.asid r) :
    ∃ t, s.performAll s.party s.asid rs = some t ∧ CachesOnly s t ∧ ∀ g, OthersKept s (t.setHart g) ∧ BanksKept s (t.setHart g) ∧
      MemoryKept s (t.setHart g) ∧ OnDieIs (t.setHart g) (rs.foldl (fun f r => laid s.asid r f) (onDie s)) := by
  have party : s.party = .cell no := by simp [State.party, hc]
  have die : s.myDie = dieOf no := by simp [State.myDie, hc]
  rw [party]
  obtain ⟨t, performed, caches, mem, onDie_⟩ := State.performAll_takes (who := .cell no) rs s (fun r hr => die ▸ takes r hr) fun n _ => hn.cellAt_no n
  refine ⟨t, performed, caches, fun g => ⟨caches.othersKept_setHart hc hn g, caches.banksKept_setHart hn hc g, ?_, fun b va => ?_⟩⟩
  · rw [MemoryKept, State.setHart_mem, mem]
  · exact (onDie_of_mem (by rw [State.setHart_mem]) (by rw [State.setHart_mem]) b va).trans (onDie_ b va)

end

end Sys2Proof.Machine

namespace Sys2Proof.Machine

/-! ## O32: how a task ends (R67, R70, R250) -/

section
variable {s : State} {no : Nat} {k : Task}

theorem execTend_rests (core : s.isCore = false) (free : s.hart.hand = none) (idle : s.hart.task = none) : execTend s = s.parks := by
  unfold execTend State.notHanded
  rw [State.cellOnly_cell core, free, idle]

theorem State.abandonTask_rests (core : s.isCore = false) (free : s.hart.hand = none) (idle : s.hart.task = none) (detail : Nat) :
    s.abandonTask detail = s.parks := by
  unfold State.abandonTask State.notHanded
  rw [State.cellOnly_cell core, free, idle]

theorem State.abandonTask_ends (core : s.isCore = false) (free : s.hart.hand = none) (task : s.hart.task = some k) (detail : Nat) :
    s.abandonTask detail = .next (s.setHart ((s.hart.parkAt .run).endTask (.failed 0x20 detail))) := by
  unfold State.abandonTask State.notHanded
  rw [State.cellOnly_cell core, free, task]
  rfl

/-- A hart that abandons its task: the pc stays, the end check counts, and nothing staged is performed. -/
theorem Hart.abandoned {h : Hart} (task : h.task = some k) (detail : Nat) : let g := (h.parkAt .run).endTask (.failed 0x20 detail)
    g.st = .park false ∧ g.win = h.win ∧ SpecialsKept { h with task := g.task, engErr := [] } g ∧ g.pc = h.pc ∧ g.lcnt = h.complete.lcnt ∧
      g.task = some { k with stage := [], spawns := [], checks := [], ending := some (.failed 0x20 detail) } := by
  have held : (h.parkAt .run).task = some k := by simp [Hart.parkAt, task]
  dsimp only
  unfold Hart.endTask
  rw [held]
  simp [Hart.parkAt, Hart.settle, SpecialsKept, BlocksKept]

theorem execTend_commits (hc : s.cur = .cell no) (hn : Numbered s) (free : s.hart.hand = none) (task : s.hart.task = some k) (checked : k.checks = [])
    (plain : k.spawns = []) (acked : s.acked = true) (retired : ∀ q ∈ s.cell.cq, q.owner ≠ some (k.launch, k.node, k.attempt))
    (takes : ∀ r ∈ k.stage, Takes s s.myDie s.asid r) : ∃ t, s.commit k = some t ∧ CachesOnly s t ∧
      execTend s = .next (t.setHart ((s.hart.parkAt .run).report k (hartNo no s.cell.slot) 0 0 0 none (s.sweepHart s.cell.no s.cell.slot))) ∧
      ∀ g, OthersKept s (t.setHart g) ∧ BanksKept s (t.setHart g) ∧ MemoryKept s (t.setHart g) ∧
        OnDieIs (t.setHart g) (k.stage.foldl (fun f r => laid s.asid r f) (onDie s)) := by
  obtain ⟨t, performed, caches, kept⟩ := State.performAll_here hc hn takes
  have core : s.isCore = false := by simp [State.isCore, hc]
  have mine : (s.cell.cq.any fun q => q.owner == some (k.launch, k.node, k.attempt)) = false := by simpa using retired
  have good : s.stageBad k = none := by
    refine List.findSome?_eq_none_iff.mpr fun r hr => ?_
    obtain ⟨l, place⟩ := (takes r hr).place
    simp [State.firstBad, place]
  have here : s.stageParked k = false := by
    refine List.any_eq_false.mpr fun r hr => ?_
    obtain ⟨l, place⟩ := (takes r hr).place
    simp [State.anyParked, place]
  have commits : s.commit k = some t := performed
  refine ⟨t, commits, caches, ?_, kept⟩
  unfold execTend State.notHanded
  rw [State.cellOnly_cell core, free, task]
  simp only [checked, acked, mine, good, here, commits, plain, List.isEmpty_nil, List.foldl_nil, Bool.not_true, Bool.or_false, Bool.false_eq_true,
    if_false]
  rw [State.mapHart_eq, caches.hart, caches.sweepHart, caches.cell_no, caches.slot, State.hartId, caches.cur, hc]
  simp only [caches.slot]

end

/-- Settles O32: `waitw` and `tabt` by whether the hart holds a task, `tend` by the stores of its STAGE performed in order. -/
theorem taskEnds : Obligations.TaskEnds := by
  unfold Obligations.TaskEnds
  intro s a no hc hn v free
  have core : s.isCore = false := by simp [State.isCore, hc]
  have tabt : exec (.tabt a) s = s.abandonTask ((s.hart.S a).toNat % 2 ^ 24) := by
    show execTabt a s = _
    rw [execTabt, State.cellOnly_cell core, State.withRegs_inView v]
  refine ⟨fun idle => ⟨execTend_rests core free idle, State.abandonTask_rests core free idle 0, tabt.trans (State.abandonTask_rests core free idle _)⟩,
    fun k task => ?_⟩
  intro ended
  have ends {i : Instr} {detail : Nat} (run : exec i s = s.abandonTask detail) : ended i detail := by
    refine ⟨_, run.trans (State.abandonTask_ends core free task detail), by simp [OnlyHart], ?_⟩
    rw [State.hart_setHart]
    exact Hart.abandoned task detail
  refine ⟨ends rfl, ends tabt, fun checked plain acked retired storable => ?_⟩
  obtain ⟨t, -, -, run, kept⟩ := execTend_commits hc hn free task checked plain acked retired fun r hr => by
    obtain ⟨fits, low, level, l, hl⟩ := storable r hr
    exact .of_storable hl low fits level
  obtain ⟨others, banks, mem, die⟩ := kept ((s.hart.parkAt .run).report k (hartNo no s.cell.slot) 0 0 0 none (s.sweepHart s.cell.no s.cell.slot))
  refine ⟨_, run, others, banks, mem, die, ?_⟩
  rw [State.hart_setHart]
  exact ⟨rfl, rfl, by simp [Hart.report, Hart.parkAt, Hart.settle], rfl, rfl, rfl⟩

end Sys2Proof.Machine

namespace Sys2Proof.Machine

/-! ## Elements of a v slot, and their addresses (R193) -/

theorem elemsOf_eq (w : Nat) : ∀ n x, elemsOf w n x = (List.range n).map fun e => x / 2 ^ (w * e) % 2 ^ w := by
  intro n
  induction n with
  | zero => exact fun _ => rfl
  | succ n ih =>
    intro x
    rw [elemsOf, ih, List.range_succ_eq_map, List.map_cons, List.map_map]
    refine congrArg₂ List.cons (by simp) (List.map_congr_left fun e _ => ?_)
    show x / 2 ^ w / 2 ^ (w * e) % 2 ^ w = x / 2 ^ (w * (e + 1)) % 2 ^ w
    rw [Nat.div_div_eq_div_mul, ← Nat.pow_add, Nat.mul_succ, Nat.add_comm w]

theorem velem_toNat (w : Nat) (x : BitVec 512) (e : Nat) : (velem w x e).toNat = x.toNat / 2 ^ (w * e) % 2 ^ w := by
  rw [velem, BitVec.extractLsb'_toNat, Nat.shiftRight_eq_div_pow]

theorem Hart.elems_eq (h : Hart) (w : Nat) (i : Reg) : h.elems w i = (List.range (512 / w)).map fun e => (velem w (h.V i) e).toNat := by
  rw [Hart.elems, elemsOf_eq]
  exact List.map_congr_left fun e _ => (velem_toNat w _ e).symm

theorem sInt_toNat {w : Nat} (hw : 0 < w) (x : BitVec w) : sInt w x.toNat = x.toInt := by
  have half : 2 ^ w = 2 * 2 ^ (w - 1) := by rw [← Nat.pow_succ', Nat.succ_eq_add_one, Nat.sub_add_cancel hw]
  rw [sInt, BitVec.toInt_eq_toNat_cond]
  by_cases h : 2 ^ (w - 1) ≤ x.toNat
  · rw [if_pos h, if_neg (by omega), Int.natCast_pow, Int.cast_ofNat_Int]
  · rw [if_neg h, if_pos (by omega)]

theorem indexAddrs_eq (h : Hart) (w : EW) (a b : Reg) : indexAddrs w (h.S a) (h.elems w.bits b) =
    (List.range (512 / w.bits)).map fun e => (elemAddr h w a b e).toNat := by
  have wide : 0 < w.bits := by cases w <;> decide
  rw [indexAddrs, Hart.elems_eq, List.map_map]
  refine List.map_congr_left fun e _ => ?_
  simp only [Function.comp, sInt_toNat wide, elemAddr, BitVec.ofInt_mul, BitVec.signExtend]
  rw [BitVec.ofInt_natCast]

/-- Elements whose addresses are all good are all taken. -/
theorem splitBad_good {n : Nat} : ∀ {as : List Nat}, (∀ a ∈ as, addrBad a n = none) → splitBad n as = (as, none) := by
  intro as
  induction as with
  | nil => exact fun _ => rfl
  | cons a as ih =>
    intro good
    rw [splitBad, good a (List.mem_cons_self ..)]
    dsimp only
    rw [ih fun x hx => good x (List.mem_cons_of_mem _ hx)]

/-! ## Stores as they issue (R188, R193, R195) -/

/-- The record of a store of the issuing hart. -/
def Hart.storeRec (h : Hart) (x : Nat) (bs sb : List Byte) (k : AccKind) (sc : Scope) : StoreRec := ⟨x, bs, sb, k, sc, [], h.level⟩

/-- The records of the elements of `vsca`. -/
def Hart.scatter (h : Hart) (w : EW) (d a b : Reg) : List StoreRec := (List.range (512 / w.bits)).map fun e =>
  h.storeRec (elemAddr h w a b e).toNat (leBytes (w.bits / 8) (velem w.bits (h.V d) e).toNat) [] .weak .cell

section
variable {s : State} {d a b : Reg} {off : Word} {sc : Scope}

theorem State.storeScalar_aligned {x v : Word} {n : Nat} {k : AccKind} (al : Aligned x n) :
    s.storeScalar x n v k sc = s.store [s.hart.storeRec x.toNat (leBytes n v.toNat) [] k sc] (k == .rel) none := by
  rw [State.storeScalar, addrBad_aligned al]
  rfl

theorem exec_st {w : MW} {m : MemOp} (v : InView s (d :: regsOf m) []) (al : Aligned (s.hart.address m) (MW.bytes w)) : exec (.st w d m) s =
    s.store [s.hart.storeRec (s.hart.address m).toNat (leBytes (MW.bytes w) (s.hart.S d).toNat) [] .weak .cell] false none :=
  (State.withRegs_inView v).trans (State.storeScalar_aligned al)

theorem exec_stRel {w : SW} (v : InView s [d, a] []) (al : Aligned (s.hart.offset a off) (SW.bytes w)) : exec (.stRel w sc d a off) s =
    s.store [s.hart.storeRec (s.hart.offset a off).toNat (leBytes (SW.bytes w) (s.hart.S d).toNat) [] .rel sc] true none :=
  (State.withRegs_inView v).trans (State.storeScalar_aligned al)

theorem exec_stStr {w : SW} (v : InView s [d, a] []) (al : Aligned (s.hart.offset a off) (SW.bytes w)) : exec (.stStr w sc d a off) s =
    s.store [s.hart.storeRec (s.hart.offset a off).toNat (leBytes (SW.bytes w) (s.hart.S d).toNat) [] .strong sc] false none :=
  (State.withRegs_inView v).trans (State.storeScalar_aligned al)

theorem exec_stv (v : InView s [a] [d]) (al : Aligned (s.hart.offset a off) 64) : exec (.stv d a off) s =
    s.store [s.hart.storeRec (s.hart.offset a off).toNat (leBytes 64 (s.hart.V d).toNat) [s.hart.sb d 0, s.hart.sb d 1] .weak .cell] false none := by
  show execStv d a off s = _
  rw [execStv, State.withRegs_inView v]
  dsimp only
  rw [addrBad_aligned al]
  rfl

theorem exec_vsca {w : EW} (v : InView s [a] [d, b]) (al : ∀ e, e < 512 / w.bits → Aligned (elemAddr s.hart w a b e) (w.bits / 8)) :
    exec (.vsca w d a b) s = s.store (s.hart.scatter w d a b) false none := by
  have good : splitBad (w.bits / 8) (indexAddrs w (s.hart.S a) (s.hart.elems w.bits b)) =
      ((List.range (512 / w.bits)).map fun e => (elemAddr s.hart w a b e).toNat, none) := by
    rw [indexAddrs_eq]
    refine splitBad_good fun x hx => ?_
    obtain ⟨e, he, rfl⟩ := List.mem_map.1 hx
    exact addrBad_aligned (al e (List.mem_range.1 he))
  show execVsca w d a b s = _
  rw [execVsca, State.withRegs_inView v]
  dsimp only
  rw [good, Hart.elems_eq, List.zip_map', List.map_map]
  rfl

/-- A store of a cell's hart is one to global memory. -/
theorem State.store_cell (core : s.isCore = false) (rs : List StoreRec) (rel : Bool) (bad : Option (Cause × Nat)) :
    s.store rs rel bad = s.storeGlobal rs rel bad := by
  simp [State.store, core]

theorem State.store_replay {k : Task} (core : s.isCore = false) (task : s.hart.task = some k) (replay : k.replay = true) (rs : List StoreRec) (rel : Bool) :
    s.store rs rel none = s.stageStores k rs := by
  rw [State.store_cell core, State.storeGlobal, task]
  simp [replay]

end

/-! ## Write checks leave (R189, R190) -/

/-- What a miss says but its number and how far it has come is as it was made. -/
theorem leavingFrom_map {α : Type} {t : Nat} {f : Miss → α} (hf : ∀ m i, f (m.leaving i t) = f m) (ms : List Miss) :
    ∀ id, (leavingFrom t id ms).map f = ms.map f := by
  induction ms with
  | nil => exact fun _ => rfl
  | cons m ms ih =>
    intro id
    rw [leavingFrom, List.map_cons, List.map_cons, ih, hf]

/-- The first parts in each line: one for each line, in the order of their last parts. -/
theorem lineHeads_lines (ps : List (Nat × Nat)) : (lineHeads ps).map (fun p => p.1 / 128) = (ps.map fun p => p.1 / 128).dedup := by
  rw [lineHeads, List.map_filterMap]
  refine (List.filterMap_congr fun l hl => ?_).trans (List.filterMap_some ..)
  obtain ⟨q, hq, rfl⟩ := List.mem_map.1 (List.mem_dedup.1 hl)
  cases h : ps.find? fun p => p.1 / 128 == q.1 / 128 with
  | none => exact absurd (List.find?_eq_none.1 h q hq) (by simp)
  | some p => simpa using List.find?_some h

/-! ## O27: stores of a REPLAY task (R66, R187, R190) -/

section
variable {s : State} {k : Task} {rs : List StoreRec}

/-- The lines for which a write check of some stores leaves: those that have a word not registered and no check under way. -/
def State.unchecked (s : State) (k : Task) (rs : List StoreRec) : List Nat :=
  (rs.filter fun r => !s.registeredHere r.addr r.bytes.length && !k.checks.contains (r.addr / 128)).map fun r => r.addr / 128

theorem State.stageStores_enters {no : Nat} (hc : s.cur = .cell no) (hn : Numbered s) (task : s.hart.task = some k) (replay : k.replay = true)
    (room : s.cell.stageUsed + stageBytes rs ≤ s.cell.count 6 * 4096) : ∃ t ms, s.stageStores k rs = .next t ∧
      t.hart = ({ s.hart with task := some { k with stage := k.stage ++ rs, checks := (k.checks ++ s.unchecked k rs).dedup } }).complete ∧
      OthersKept s t ∧ BanksKept s t ∧ t.mem = { s.mem with misses := s.mem.misses ++ ms } ∧
      ms.map (fun (m : Miss) => (m.kind, m.agent, m.slot, m.asid, m.task, m.va / 128)) =
        (s.unchecked k rs).dedup.map fun l => (.replay, s.cur, s.cell.slot, s.asid, some (k.launch, k.node, k.attempt), l) := by
  have attempt : s.hart.attempt = some (k.launch, k.node, k.attempt) := by simp [Hart.attempt, task, replay]
  let new := rs.filter fun r => !s.registeredHere r.addr r.bytes.length && !k.checks.contains (r.addr / 128)
  obtain ⟨net, t, sent⟩ := s.sendHere_eq (s.checksOf .replay new)
  have away : Numbered { s with cmdNo := s.cmdNo + (s.checksOf .replay new).length,
                                mem := { s.mem with misses := s.mem.misses ++ leavingFrom t s.cmdNo (s.checksOf .replay new) }, net := net } := hn
  refine ⟨_, leavingFrom t s.cmdNo (s.checksOf .replay new), ?_, State.hart_setHart _ _, away.setHart_othersKept hc _, away.setHart_banksKept hc _,
    State.setHart_mem .., ?_⟩
  · rw [State.stageStores, if_neg (Nat.not_lt.2 room)]
    dsimp only
    rw [sent, State.done_eq]
    rfl
  · rw [leavingFrom_map fun _ _ => rfl, State.checksOf, List.map_map]
    have lines : (lineHeads (new.map fun r => (r.addr, r.bytes.length))).map (fun p => p.1 / 128) = (s.unchecked k rs).dedup := by
      rw [lineHeads_lines, List.map_map]
      rfl
    rw [← lines, List.map_map, ← attempt]
    rfl

/-- A store that STAGE has no room for ends the attempt. -/
theorem State.stageStores_overflows (full : s.cell.count 6 * 4096 < s.cell.stageUsed + stageBytes rs) :
    s.stageStores k rs = .next (s.setHart (s.hart.endTask (.again 0x11))) := by
  rw [State.stageStores, if_pos full]
  rfl

theorem Hart.endTask_parks {h : Hart} (task : h.task = some k) (e : EndKind) : (h.endTask e).st = .park false ∧ (h.endTask e).win = h.win ∧
    (h.endTask e).task = some { k with stage := [], spawns := [], checks := [], ending := some e } := by
  rw [Hart.endTask, task]
  exact ⟨rfl, rfl, rfl⟩

/-- A scalar store takes sixteen bytes of STAGE. -/
theorem stageBytes_scalar {r : StoreRec} (h : r.bytes.length ≠ 64) : stageBytes [r] = 16 := by
  simp [stageBytes, StoreRec.stageBytes, h]

theorem MW.bytes_ne (w : MW) : MW.bytes w ≠ 64 := by cases w <;> decide

end

/-- Settles O27: every form of a store enters STAGE as its records do, or overflows it. -/
theorem stagedStores : Obligations.StagedStores := by
  unfold Obligations.StagedStores
  refine ⟨fun s w sw ew sc d a b m off k core hn task replay => ?_, fun s w d m k core task replay v al full => ?_⟩
  · obtain ⟨no, hc⟩ : ∃ no, s.cur = .cell no := by
      cases hc : s.cur with
      | cell no => exact ⟨no, rfl⟩
      | core no => simp [State.isCore, hc] at core
    intro h x staged one
    have enters {i : Instr} {rs : List StoreRec} {rel : Bool} (run : exec i s = s.store rs rel none) : staged i rs := fun room => by
      obtain ⟨t, ms, enter, rest⟩ := State.stageStores_enters hc hn task replay room
      exact ⟨t, ms, (run.trans (State.store_replay core task replay rs rel)).trans enter, rest⟩
    exact ⟨fun v al => enters (exec_st v al), fun v al => ⟨enters (exec_stRel v al), enters (exec_stStr v al)⟩, fun v al => enters (exec_stv v al),
      fun v al => enters (exec_vsca v al)⟩
  · have scalar (r : StoreRec) (hr : r.bytes.length = MW.bytes w) : s.cell.count 6 * 4096 < s.cell.stageUsed + stageBytes [r] := by
      rw [stageBytes_scalar (hr ▸ MW.bytes_ne w)]
      exact full
    refine ⟨_, ((exec_st v al).trans (State.store_replay core task replay _ false)).trans (State.stageStores_overflows (scalar _ ?_)), by simp [OnlyHart], ?_⟩
    · exact length_leBytes ..
    · rw [State.hart_setHart]
      exact Hart.endTask_parks task _

end Sys2Proof.Machine

namespace Sys2Proof.Machine

/-! ## The issuing hart put, of a cell or of a Headstock core -/

section
variable {s : State} {n : Nat}

theorem State.hartAt_setHart_core (hc : s.cur = .core n) (g : Hart) (c : Nat) (k : Slot) : (s.setHart g).hartAt c k = s.hartAt c k := by
  unfold State.setHart
  rw [hc]
  rfl

theorem State.setHart_coreOnly (hc : s.cur = .core n) (g : Hart) : CoreOnly s (s.setHart g) n := by
  refine ⟨State.setHart_cur .., ?_, State.hartAt_setHart_core hc g⟩
  rw [State.hart_setHart]
  unfold State.setHart
  rw [hc]

theorem State.setHart_banksKept_core (hc : s.cur = .core n) (g : Hart) : BanksKept s (s.setHart g) := by
  unfold State.setHart
  rw [hc]
  exact fun c => ⟨rfl, rfl, rfl, rfl⟩

theorem Numbered.setHart_mineOnly (hn : Numbered s) (g : Hart) : MineOnly s (s.setHart g) ∧ BanksKept s (s.setHart g) := by
  unfold MineOnly
  split
  · next no hc => exact ⟨hn.setHart_othersKept hc g, hn.setHart_banksKept hc g⟩
  · next no hc => exact ⟨State.setHart_coreOnly hc g, State.setHart_banksKept_core hc g⟩

/-- The hart of a core completes behind a store. -/
theorem CachesOnly.coreOnly_setHart {u : State} (h : CachesOnly s u) (hc : s.cur = .core n) (g : Hart) :
    CoreOnly s (u.setHart g) n ∧ BanksKept s (u.setHart g) := by
  have hu := h.cur.trans hc
  obtain ⟨cur, cores, harts⟩ := State.setHart_coreOnly hu g
  exact ⟨⟨cur.trans h.cur, h.cores ▸ cores, fun c k => (harts c k).trans (h.hartAt c k)⟩, h.banksKept.trans (State.setHart_banksKept_core hu g)⟩

end

/-! ## O28: stores outside REPLAY (R187 to R196) -/

section
variable {s t : State} {rs : List StoreRec} {r : StoreRec} {rel : Bool}

theorem State.storeGlobal_direct (direct : Direct s.hart) (rs : List StoreRec) (rel : Bool) (bad : Option (Cause × Nat)) :
    s.storeGlobal rs rel bad = s.storeChecked rs rel bad := by
  unfold State.storeGlobal
  split
  · next k task => rw [if_neg (by simpa [Direct, Hart.replay, task] using direct)]
  · rfl

/-- One store that reaches no device register. -/
theorem State.store_one (direct : Direct s.hart) (memory : ¬ (s.isCore = true ∧ s.hart.level = .f ∧ deviceVa r.addr = true)) :
    s.store [r] rel none = s.storeChecked [r] rel none := by
  rw [State.store, if_neg (by simpa [and_assoc] using memory), State.storeGlobal_direct direct]

/-- The hart of a store whose write check has been sent. -/
def Hart.checking (h : Hart) (ids : List Nat) (p : Nat × Nat) : Hart := { h with asks := h.asks ++ ids, check := .sent [p], again := true, st := .run }

theorem State.storeChecked_asks (fresh : s.hart.req ≠ .sent) (idle : s.hart.check = .idle) (out : s.registeredHere r.addr r.bytes.length = false) :
    ∃ w net t, s.storeChecked [r] rel none = .next (State.setHart
        { s with cmdNo := s.cmdNo + 1, net := net,
                 mem := { s.mem with misses := s.mem.misses ++ leavingFrom t s.cmdNo [s.hartMiss .request .check (r.addr, r.bytes.length) w] } }
        (s.hart.checking ((leavingFrom t s.cmdNo [s.hartMiss .request .check (r.addr, r.bytes.length) w]).map fun m => m.id) (r.addr, r.bytes.length))) := by
  have check : ∃ w, s.checksOf .check [r] = [s.hartMiss .request .check (r.addr, r.bytes.length) w] := by
    simp [State.checksOf, lineHeads]
  obtain ⟨w, check⟩ := check
  obtain ⟨net, t, sent⟩ := s.askHere_eq (s.checksOf .check [r])
  refine ⟨w, net, t, ?_⟩
  unfold State.storeChecked
  rw [if_neg (by simpa using fresh), idle]
  simp only [List.filter_cons, List.filter_nil, out, Bool.not_false, if_true, List.isEmpty_cons, Bool.false_eq_true, if_false]
  rw [sent, check]
  simp only [State.reissue, State.mapHart_eq, State.hart_setHart, State.setHart_setHart]
  rfl

/-- A store whose words are not registered sends its write check and issues again. -/
theorem asks_check {i : Instr} (hn : Numbered s) (run : exec i s = s.storeChecked [r] rel none) (fresh : s.hart.req ≠ .sent) (idle : s.hart.check = .idle)
    (out : s.registeredHere r.addr r.bytes.length = false) : Asks s i .run .check [(r.addr, r.bytes.length)] ∧
      ∃ t, exec i s = .next t ∧ t.hart.check = .sent [(r.addr, r.bytes.length)] ∧ t.hart.again = true := by
  obtain ⟨w, net, t, sent⟩ := State.storeChecked_asks (rel := rel) fresh idle out
  have away : Numbered { s with cmdNo := s.cmdNo + 1, net := net, mem := { s.mem with
    misses := s.mem.misses ++ leavingFrom t s.cmdNo [s.hartMiss .request .check (r.addr, r.bytes.length) w] } } := hn
  refine ⟨⟨_, leavingFrom t s.cmdNo [s.hartMiss .request .check (r.addr, r.bytes.length) w], run.trans sent, ?_⟩, _, run.trans sent, ?_⟩
  all_goals rw [State.hart_setHart]
  · obtain ⟨mine, banks⟩ := away.setHart_mineOnly (s.hart.checking _ _)
    exact ⟨rfl, rfl, by simp [SpecialsKept, BlocksKept, Hart.checking], by simp [FlagsKept, Hart.checking], by simp [LoopKept, Hart.checking], rfl, rfl,
      rfl, mine, banks, State.setHart_mem .., leavingFrom_map (fun _ _ => rfl) _ _⟩
  · exact ⟨rfl, rfl⟩

/-! ### Stores that have passed -/

theorem State.firstBad_none {asid : Nat} {lv : Level} {ps : List (Nat × Nat)} (good : ∀ p ∈ ps, ∃ x, (s.storeAt asid lv p.1).1 = .ok x) :
    s.firstBad asid lv ps = none := by
  induction ps with
  | nil => rfl
  | cons p ps ih =>
    obtain ⟨x, hx⟩ := good p (List.mem_cons_self ..)
    rw [State.firstBad, hx]
    exact ih fun q hq => good q (List.mem_cons_of_mem _ hq)

theorem State.anyParked_none {asid : Nat} {lv : Level} {ps : List (Nat × Nat)} (good : ∀ p ∈ ps, ∃ x, (s.storeAt asid lv p.1).1 = .ok x) :
    s.anyParked asid lv ps = false := by
  refine List.any_eq_false.mpr fun p hp => ?_
  obtain ⟨x, hx⟩ := good p hp
  simp [hx]

/-- Every word of the stores is registered to the cell, or their write check has passed (R189). -/
def State.cleared (s : State) (rs : List StoreRec) : Prop :=
  s.hart.check = .passed ∧ s.answeredHere = true ∨ s.hart.check = .idle ∧ ∀ r ∈ rs, s.registeredHere r.addr r.bytes.length = true

theorem State.storeChecked_performs (fresh : s.hart.req ≠ .sent) (clear : s.cleared rs)
    (good : ∀ r ∈ rs, ∃ x, (s.storeAt s.asid s.hart.level r.addr).1 = .ok x) : s.storeChecked rs rel none = s.performStores rs rel := by
  have pieces : ∀ p ∈ rs.map (fun r => (r.addr, r.bytes.length)), ∃ x, (s.storeAt s.asid s.hart.level p.1).1 = .ok x := fun p hp => by
    obtain ⟨r, hr, rfl⟩ := List.mem_map.1 hp
    exact good r hr
  unfold State.storeChecked
  rw [if_neg (by simpa using fresh)]
  rcases clear with ⟨passed, answered⟩ | ⟨idle, registered⟩
  · rw [passed]
    simp [answered, State.firstBad_none pieces, State.anyParked_none pieces]
  · rw [idle]
    have none_ : (rs.filter fun r => !s.registeredHere r.addr r.bytes.length) = [] := List.filter_eq_nil_iff.mpr fun r hr => by simp [registered r hr]
    simp [none_]

/-- With nothing held and nothing to follow, stores outside the page tables are performed now. -/
theorem State.performStores_now (held : s.hart.held = []) (after : s.hart.relAfter = []) (pushed : s.outstanding = [])
    (plain : ∀ r ∈ rs, s.tableStore s.asid r.addr = false) (performed : s.performAll s.party s.asid rs = some t) : s.performStores rs rel = t.finish := by
  have all : (rs.filter fun r => !s.tableStore s.asid r.addr) = rs := List.filter_eq_self.mpr fun r hr => by simp [plain r hr]
  have none_ : (rs.filter fun r => s.tableStore s.asid r.addr) = [] := List.filter_eq_nil_iff.mpr fun r hr => by simp [plain r hr]
  unfold State.performStores
  simp [held, after, pushed, all, none_, performed]

/-- The line of a store that is performed by itself. -/
theorem Takes.performAll_line {who : Party} {asid : Nat} {l : OLine} (h : Takes s who.die asid r) (no : ∀ n, who.cell? = some n → (s.cellAt n).no = n)
    (line : s.line? ⟨asid, s.gen asid, r.addr / 128⟩ = some l) (performed : s.performAll who asid [r] = some t) :
    t.line? l.key = some (l.stored (r.addr % 128) r.bytes r.sb) := by
  obtain ⟨ha, low, -, l', line', may, -, y⟩ := h
  obtain rfl : l' = l := Option.some.inj (line'.symm.trans line)
  obtain ⟨u, written, -, mem, -⟩ := State.writePiece_stores (bs := r.bytes) (sb := r.sb) (State.storeAt_line ha low line may) line
    (by simp [State.tableStore, ha]) y no
  obtain rfl : u = t := Option.some.inj ((State.performAll_cons s who asid r [] written).symm.trans performed)
  rw [State.line?_of_mem mem, State.line?_putLine, if_pos (by rfl)]

section
variable {no : Nat} {i : Instr}

/-- The stores of a cell's hart that are cleared are performed, and the hart goes on with its registers. -/
theorem store_performs (hc : s.cur = .cell no) (hn : Numbered s) (direct : Direct s.hart) (fresh : s.hart.req ≠ .sent) (held : s.hart.held = [])
    (after : s.hart.relAfter = []) (pushed : s.outstanding = []) (clear : s.cleared rs) (level : ∀ r ∈ rs, r.level = s.hart.level)
    (takes : ∀ r ∈ rs, Takes s s.myDie s.asid r) (run : exec i s = s.store rs rel none) : ∃ t, s.performAll s.party s.asid rs = some t ∧
      exec i s = .next (t.setHart s.hart.complete) ∧ HartKept s.hart (t.setHart s.hart.complete).hart ∧ OthersKept s (t.setHart s.hart.complete) ∧
      BanksKept s (t.setHart s.hart.complete) ∧ MemoryKept s (t.setHart s.hart.complete) ∧
      OnDieIs (t.setHart s.hart.complete) (rs.foldl (fun f r => laid s.asid r f) (onDie s)) := by
  obtain ⟨t, performed, caches, kept⟩ := State.performAll_here hc hn takes
  obtain ⟨others, banks, mem, die⟩ := kept s.hart.complete
  have good (r : StoreRec) (hr : r ∈ rs) : ∃ x, (s.storeAt s.asid s.hart.level r.addr).1 = .ok x := by
    obtain ⟨l, place⟩ := (takes r hr).place
    exact ⟨_, by rw [← level r hr, place]⟩
  have plain (r : StoreRec) (hr : r ∈ rs) : s.tableStore s.asid r.addr = false := by simp [State.tableStore, (takes r hr).1]
  refine ⟨t, performed, ?_, by rw [State.hart_setHart]; exact .complete _, others, banks, mem, die⟩
  rw [run, State.store_cell (by simp [State.isCore, hc]), State.storeGlobal_direct direct, State.storeChecked_performs fresh clear good,
    State.performStores_now held after pushed plain performed, State.finish_eq, caches.hart]

/-- A store of a Headstock hart to a line of ASID 0 that the Headstock may have. -/
theorem storeAt_core {l : OLine} {x : Nat} (served : ServedCore s l .store x) (low : x < 2 ^ 55) :
    s.storeAt 0 s.hart.level x = (.ok (.line l), s) := by
  obtain ⟨level, gen, line, -, -, -, place⟩ := served
  unfold State.storeAt State.locate
  rw [if_neg (Nat.not_le.mpr low)]
  rcases place with ⟨below, may⟩ | ⟨above, window⟩
  · rw [if_neg (by simpa using below), gen, line]
    simp [may]
  · rw [if_pos (by simpa using above)]
    unfold State.window
    dsimp only
    rw [if_neg (by simp [level]), window, line]
    rfl

/-- The store of a Headstock hart whose write check has passed is performed, and the hart goes on with its registers. -/
theorem store_performs_core {l : OLine} (hc : s.cur = .core no) (direct : Direct s.hart) (fresh : s.hart.req ≠ .sent) (held : s.hart.held = [])
    (after : s.hart.relAfter = []) (passed : s.hart.check = .passed) (answered : s.answeredHere = true) (level : r.level = s.hart.level)
    (served : ServedCore s l .store r.addr) (low : r.addr < 2 ^ 55) (fits : r.addr % 128 + r.bytes.length ≤ 128)
    (plain : s.tableStore 0 r.addr = false) (run : exec i s = s.store [r] rel none) : ∃ t, exec i s = .next t ∧ HartKept s.hart t.hart ∧
      CoreOnly s t no ∧ BanksKept s t ∧ MemoryKept s t ∧ OnDieIs t (laid 0 r (onDie s)) := by
  have place := storeAt_core served low
  obtain ⟨-, gen, line, len, settled, own, range⟩ := served
  have asid : s.asid = 0 := by simp [State.asid, hc]
  have line0 : s.line? ⟨0, s.gen 0, r.addr / 128⟩ = some l := by rw [gen, line]
  obtain ⟨t, written, caches, mem, -⟩ := State.writePiece_stores (who := .engine 54) (bs := r.bytes) (sb := r.sb) (level ▸ place) line0 plain
    (.inr ⟨settled, own⟩) (fun _ h => by cases h)
  have performed : s.performAll s.party s.asid [r] = some t := by
    rw [asid, show s.party = .engine 54 by simp [State.party, hc]]
    exact State.performAll_cons s _ 0 r [] written
  have memory : ¬ (s.isCore = true ∧ s.hart.level = .f ∧ deviceVa r.addr = true) := by
    rintro ⟨-, -, device⟩
    simp only [deviceVa, Bool.and_eq_true, beq_iff_eq, decide_eq_true_eq] at device
    rcases range with h | h <;> omega
  obtain ⟨only, banks⟩ := caches.coreOnly_setHart hc s.hart.complete
  refine ⟨t.setHart s.hart.complete, ?_, by rw [State.hart_setHart]; exact .complete _, only, banks, ?_, fun b va => ?_⟩
  · rw [run, State.store_one direct memory, State.storeChecked_performs fresh (.inl ⟨passed, answered⟩)
        (fun q hq => by rw [List.mem_singleton.1 hq, asid, place]; exact ⟨_, rfl⟩),
      State.performStores_now held after (by simp [State.outstanding, State.isCore, hc]) (fun q hq => by rw [List.mem_singleton.1 hq, asid, plain])
        performed, State.finish_eq, caches.hart]
  · rw [MemoryKept, State.setHart_mem, mem]
    rfl
  · rw [laid_eq_stored, ← onDieIs_putLine (sb := r.sb) line0 fits len b va]
    exact onDie_of_mem (by rw [State.setHart_mem, mem]) (by rw [State.setHart_mem, mem]) b va

/-! ### Device registers (R337) -/

theorem leBytes_getD_self (n x : Nat) : ((List.range n).map fun i => (leBytes n x).getD i 0) = leBytes n x := by
  refine List.ext_getElem (by simp) fun i hi _ => ?_
  have lt : i < (leBytes n x).length := by simpa using hi
  rw [List.getElem_map, List.getElem_range, List.getD_eq_getElem?_getD, List.getElem?_eq_getElem lt, Option.getD_some]

/-- Eight bytes written at a register's own address are the register written. -/
theorem State.devWrite_word (s : State) {a : Nat} (al : a % 8 = 0) (v : Word) : s.devWrite a (leBytes 8 v.toNat) = s.regWrite a v := by
  have whole : ((List.range 8).map fun i => if a ≤ a + i && a + i < a + 8 then (leBytes 8 v.toNat).getD (a + i - a) 0 else
      (leBytes 8 (s.peek a &&& ~~~ (clearBits (regAt a))).toNat).getD i 0) = leBytes 8 v.toNat := by
    refine (List.map_congr_left fun i hi => ?_).trans (leBytes_getD_self 8 v.toNat)
    rw [if_pos (by simpa using List.mem_range.1 hi), Nat.add_sub_cancel_left]
  have base : a / 8 * 8 + 8 * 0 = a := by omega
  unfold State.devWrite
  rw [length_leBytes, al, show List.range ((0 + 8 + 7) / 8) = [0] from rfl, List.foldl_cons, List.foldl_nil]
  dsimp only
  rw [base, whole, ofNat_leNat_leBytes_8]

/-- A store of eight bytes at level F through window B writes the device register that its address names. -/
theorem store_device {x v : Word} (core : s.isCore = true) (level : s.hart.level = .f) (device : deviceVa x.toNat = true) (al : x.toNat % 8 = 0)
    (k : AccKind) (sc : Scope) : s.store [s.hart.storeRec x.toNat (leBytes 8 v.toNat) [] k sc] rel none =
      let u := s.regWrite (x.toNat % 2 ^ 52) v
      .next (u.setHart u.hart.complete) := by
  rw [State.store, if_pos (by simp [core, level, Hart.storeRec, device])]
  unfold State.storeDevices
  simp only [Hart.storeRec, List.filter_cons, List.filter_nil, device, Bool.not_true, Bool.false_eq_true, if_false, if_true, List.map_nil, State.firstBad,
    State.anyParked, List.any_nil, State.performAll, List.foldl_nil, List.foldl_cons]
  rw [State.devWrite_word s (by omega), State.finish_eq]

end
end

/-- A naturally aligned access of a power of two up to 128 bytes lies in one line. -/
theorem Aligned.fits {x : Word} {n : Nat} (al : Aligned x n) (hn : n ∣ 128) : x.toNat % 128 + n ≤ 128 := by
  obtain ⟨m, hm⟩ := hn
  obtain ⟨q, hq⟩ := Nat.dvd_of_mod_eq_zero al.1
  have low : x.toNat % 128 = n * (q % m) := by rw [hq, hm, Nat.mul_mod_mul_left]
  have lt : q % m < m := Nat.mod_lt _ (Nat.pos_of_ne_zero fun e => by simp [e] at hm)
  rw [low, hm, ← Nat.mul_succ]
  exact Nat.mul_le_mul_left n lt

theorem MW.bytes_dvd (w : MW) : MW.bytes w ∣ 128 := by cases w <;> decide
theorem SW.bytes_dvd (w : SW) : SW.bytes w ∣ 128 := by cases w <;> decide
theorem EW.bytes_dvd (w : EW) : w.bits / 8 ∣ 128 := by cases w <;> decide

section
variable {s : State} {l : OLine} {x : Word} {no n : Nat}

/-- A store of the issuing hart that may be performed takes its line. -/
theorem Takes.of_aligned {bs sb : List Byte} {k : AccKind} {sc : Scope} (al : Aligned x bs.length) (dvd : bs.length ∣ 128) (may : Storable s l x.toNat) :
    Takes s s.myDie s.asid (s.hart.storeRec x.toNat bs sb k sc) := .of_storable may al.2 (al.fits dvd) rfl

/-- Sideband bytes of the two granules of an aligned vector, after its store. -/
theorem OLine.stored_sb {bs : List Byte} {sb : Nat → Byte} (len : l.sb.length = 4) (al : x.toNat % 64 = 0) {g : Nat} (hg : g < 2) :
    (l.stored (x.toNat % 128) bs [sb 0, sb 1]).sb.getD (x.toNat % 128 / 32 + g) 0 = if l.kept then sb g else 0 := by
  have room : x.toNat % 128 / 32 + 2 ≤ 4 := by omega
  unfold OLine.stored patchSb
  dsimp only
  rw [patch_getD (by split <;> simp [len] <;> omega)]
  obtain rfl | rfl : g = 0 ∨ g = 1 := by omega
  all_goals cases l.kept <;> simp

end

/-- Settles O28: a store waits for its write check, or is performed where it is cleared, on a cell and on a Headstock core. -/
theorem performedStores : Obligations.PerformedStores := by
  unfold Obligations.PerformedStores
  refine ⟨fun s w sw sc d a m off hn direct fresh idle => ?_, fun s w sw ew sc d a b m off l no hc hn direct fresh held after pushed => ?_,
    fun s w sw sc d a m off l no hc direct fresh held after => ?_⟩
  · intro h x y checks
    have sends {i : Instr} {x n : Nat} {bs : List Byte} {k : AccKind} {sc : Scope} {rel : Bool} (len : bs.length = n)
        (memory : ¬ (s.isCore = true ∧ s.hart.level = .f ∧ deviceVa x = true)) (run : exec i s = s.store [s.hart.storeRec x bs [] k sc] rel none) :
        checks i x n := by
      subst len
      exact asks_check hn (run.trans (State.store_one direct memory)) fresh idle
    exact ⟨fun v al memory => sends (length_leBytes ..) memory (exec_st v al),
      fun v al memory => ⟨sends (length_leBytes ..) memory (exec_stStr v al), sends (length_leBytes ..) memory (exec_stRel v al)⟩⟩
  · intro h x y did may
    have one {i : Instr} {rel : Bool} {l : OLine} {x : Word} {n v : Nat} {sb : List Byte} {k : AccKind} {sc : Scope} {p : State → Prop} (dvd : n ∣ 128)
        (ok : may l x n) (run : exec i s = s.store [s.hart.storeRec x.toNat (leBytes n v) sb k sc] rel none)
        (extra : ∀ t, s.performAll s.party s.asid [s.hart.storeRec x.toNat (leBytes n v) sb k sc] = some t → p (t.setHart s.hart.complete)) :
        did i (stored s.asid x.toNat n v (onDie s)) p := by
      obtain ⟨al, storable, clear⟩ := ok
      obtain ⟨t, performed, ran, kept, others, banks, mem, die⟩ := store_performs hc hn direct fresh held after pushed
        (clear.imp id fun ⟨idle, reg⟩ => ⟨idle, fun r hr => by rw [List.mem_singleton.1 hr]; simpa [Hart.storeRec] using reg⟩)
        (fun r hr => by rw [List.mem_singleton.1 hr]; rfl)
        (fun r hr => by
          rw [List.mem_singleton.1 hr]
          exact .of_aligned (by rwa [length_leBytes]) (by rwa [length_leBytes]) storable) run
      refine ⟨_, ran, kept, others, banks, mem, ?_, extra t performed⟩
      rw [← laid_leBytes s.asid x.toNat n v sb k sc [] s.hart.level]
      exact die
    refine ⟨fun v ok => one (MW.bytes_dvd w) ok (exec_st v ok.1) fun _ _ => trivial,
      fun v ok => ⟨one (SW.bytes_dvd sw) ok (exec_stStr v ok.1) fun _ _ => trivial, one (SW.bytes_dvd sw) ok (exec_stRel v ok.1) fun _ _ => trivial⟩,
      fun v ok len => one (by decide) ok (exec_stv v ok.1) fun t performed => ?_, fun ls v ok => ?_⟩
    · obtain ⟨al, storable, -⟩ := ok
      have takes := Takes.of_aligned (bs := leBytes 64 (s.hart.V d).toNat) (sb := [s.hart.sb d 0, s.hart.sb d 1]) (k := .weak) (sc := .cell)
        (by rwa [length_leBytes]) (by rw [length_leBytes]; decide) storable
      have line := Takes.performAll_line (who := s.party) (by simpa [State.party, State.myDie, hc, Party.die] using takes)
        (fun n _ => hn.cellAt_no n) storable.1.2.1 performed
      exact ⟨_, (State.line?_of_mem (State.setHart_mem ..) _).trans line, fun g hg => OLine.stored_sb len al.1 hg⟩
    · have each (r : StoreRec) (hr : r ∈ s.hart.scatter ew d a b) : ∃ e < 512 / ew.bits, r =
          s.hart.storeRec (elemAddr s.hart ew a b e).toNat (leBytes (ew.bits / 8) (velem ew.bits (s.hart.V d) e).toNat) [] .weak .cell := by
        obtain ⟨e, he, rfl⟩ := List.mem_map.1 hr
        exact ⟨e, List.mem_range.1 he, rfl⟩
      have first : 0 < 512 / ew.bits := by cases ew <;> decide
      have clear : s.cleared (s.hart.scatter ew d a b) := by
        rcases (ok 0 first).2.2 with passed | ⟨idle, -⟩
        · exact .inl passed
        · refine .inr ⟨idle, fun r hr => ?_⟩
          obtain ⟨e, he, rfl⟩ := each r hr
          rcases (ok e he).2.2 with ⟨passed, -⟩ | ⟨-, registered⟩
          · exact absurd (idle.symm.trans passed) (by decide)
          · simpa [Hart.storeRec] using registered
      obtain ⟨t, -, ran, kept, others, banks, mem, die⟩ := store_performs hc hn direct fresh held after pushed clear
        (fun r hr => by obtain ⟨e, -, rfl⟩ := each r hr; rfl)
        (fun r hr => by
          obtain ⟨e, he, rfl⟩ := each r hr
          obtain ⟨al, storable, -⟩ := ok e he
          exact .of_aligned (by rwa [length_leBytes]) (by rw [length_leBytes]; exact EW.bytes_dvd ew) storable)
        (exec_vsca v fun e he => (ok e he).1)
      refine ⟨_, ran, kept, others, banks, mem, ?_, trivial⟩
      rw [Hart.scatter, List.foldl_map] at die
      simpa only [Hart.storeRec, laid_leBytes] using die
  · intro h x y may did
    have one {i : Instr} {rel : Bool} {x : Word} {n : Nat} {k : AccKind} {sc : Scope} (dvd : n ∣ 128) (ok : may x n)
        (run : exec i s = s.store [s.hart.storeRec x.toNat (leBytes n (s.hart.S d).toNat) [] k sc] rel none) : did i x.toNat n := by
      obtain ⟨al, served, passed, answered, plain⟩ := ok
      have table : s.tableStore 0 x.toNat = false := by
        rcases plain with low | unregistered
        · simp only [State.tableStore, decide_eq_false (by omega : ¬ 2 ^ 54 ≤ x.toNat), Bool.and_false, Bool.false_and]
        · rw [State.tableStore, unregistered, Bool.and_false]
      obtain ⟨t, ran, kept, only, banks, mem, die⟩ := store_performs_core hc direct fresh held after passed answered rfl served al.2
        (by rw [Hart.storeRec, length_leBytes]; exact al.fits dvd) table run
      refine ⟨t, ran, kept, only, banks, mem, ?_⟩
      rw [← laid_leBytes 0 x.toNat n _ [] k sc [] s.hart.level]
      exact die
    refine ⟨fun v => ⟨fun ok => one (MW.bytes_dvd w) ok (exec_st v ok.1), fun level al device wide => ?_⟩,
      fun v ok => ⟨one (SW.bytes_dvd sw) ok (exec_stStr v ok.1), one (SW.bytes_dvd sw) ok (exec_stRel v ok.1)⟩⟩
    subst wide
    exact (exec_st (w := .x64) v al).trans (store_device (by simp [State.isCore, hc]) level device al.1 _ _)

end Sys2Proof.Machine

namespace Sys2Proof.Machine

/-! ## The graph engine of a machine with one launch (R58, R63, R64, R72, R251) -/

section
variable {s : State} {l : Launch}

theorem State.putLaunch_one {m : Launch} (one : s.launches = [l]) (id : m.id = l.id) : s.putLaunch m = { s with launches := [m] } := by
  simp [State.putLaunch, one, id]

section
variable (one : s.launches = [l])
include one

theorem State.launch?_one : s.launch? l.id = some l := by simp [State.launch?, one]

/-- What an event does that makes of the launch another. -/
theorem State.launchEvent {m : Launch} {o : Option State} (h : o = some (s.putLaunch m)) (id : m.id = l.id) :
    o.getD s = { s with launches := [m] } := by
  rw [h, Option.getD_some, State.putLaunch_one one id]

/-- The launches of a lead die are the one launch. -/
theorem State.launches_ofLead {p : Launch → Bool} (h : p l = true) : s.launches.filter p = [l] := by
  rw [one, List.filter_cons_of_pos h, List.filter_nil]

theorem exec_starvationRecord {t : Team} {t0 : Nat} (team : l.team? t.no = some t) (starve : t.starve = some t0) (first : t.starved = false)
    (due : t0 + 10000 ≤ s.tbase) (starving : s.starving l t = true) (free : ∀ r ∈ l.heldRecs, r.kind = 3 → r.team ≠ t.no) :
    exec (.starvationRecord l.id t.no) s =
      .next { s with launches := [{ l.putTeam { t with starved := true } with heldRecs := l.heldRecs ++ [engineRec l t.no 3] }] } := by
  have none_ : (l.heldRecs.any fun r => r.kind == 3 && r.team == t.no) = false := by
    simpa only [List.any_eq_false, Bool.and_eq_true, beq_iff_eq, not_and] using free
  have record : s.starvation l.id t.no = some (s.putLaunch
      { l.putTeam { t with starved := true } with heldRecs := l.heldRecs ++ [engineRec l t.no 3] }) := by
    unfold State.starvation
    rw [State.launch?_one one, Option.bind_some, team, Option.bind_some, starve]
    dsimp only
    rw [if_pos (by simp only [first, due, starving, none_]; rfl)]
  exact congrArg Host.Outcome.next (State.launchEvent one record rfl)

theorem exec_launchDrained (first : l.drained = false) (idle : s.idleLaunch l = true) : exec (.launchDrained l.id) s =
    .next { s with launches := [{ l with drained := true, heldRecs := l.heldRecs ++ [engineRec l 0xFF 4] }] } := by
  have record : s.launchDrained l.id = some (s.putLaunch { l with drained := true, heldRecs := l.heldRecs ++ [engineRec l 0xFF 4] }) := by
    unfold State.launchDrained
    rw [State.launch?_one one, Option.bind_some, if_pos (by rw [first, idle]; rfl)]
  exact congrArg Host.Outcome.next (State.launchEvent one record rfl)

theorem exec_gangStart (waits : l.gangWait = true) (due : l.start ≤ s.tbase) :
    exec (.gangStart l.id) s = .next { s with launches := [{ l with gangWait := false }] } := by
  have start : s.gangStart l.id = some (s.putLaunch { l with gangWait := false }) := by
    unfold State.gangStart
    rw [State.launch?_one one, Option.bind_some, if_pos (by simp [waits, due])]
  exact congrArg Host.Outcome.next (State.launchEvent one start rfl)

/-- The one launch is served with its candidate. -/
theorem exec_dispatch {n : Node} {team c : Nat} {k : Slot} (hn : Numbered s) (goes : l.gangWait = false) (resolved : l.unresolved = [])
    (candidate : s.candidate l = some (n, team, c)) (slot : s.eligibleSlot (s.cellAt c) = some k) : ∃ t, exec (.dispatch l.lead) s = .next t ∧
      t.launches = [{ l.putNode { n with st := .running } with age := 0, pointer := (c + 1) % 663552 }] ∧
      HartSet s t c k { s.hartAt c k with chosen := some (taskOf l n team) } := by
  let u : State := { s with launches := [{ l.putNode { n with st := .running } with age := 0, pointer := (c + 1) % 663552 }],
                            lastServed := assocSet l.lead l.id s.lastServed }
  have servable : s.servable l.lead = [(l, n, team, c)] := by
    unfold State.servable
    rw [State.launches_ofLead one (by simp [goes]), List.filterMap_cons, candidate]
    rfl
  have serves : s.serve l.lead [(l, n, team, c)] l n team c = u.setHartAt c k { u.hartAt c k with chosen := some (taskOf l n team) } := by
    unfold State.serve
    rw [slot]
    simp only [one, List.map_cons, List.map_nil, beq_self_eq_true, if_true]
    rfl
  have dispatched : s.dispatch l.lead = some (u.setHartAt c k { u.hartAt c k with chosen := some (taskOf l n team) }) := by
    unfold State.dispatch
    rw [State.launches_ofLead one (by simp), List.findSome?_cons, resolved, servable, ← serves]
    rfl
  have numbered : Numbered u := hn
  refine ⟨_, congrArg (fun o : Option State => Host.Outcome.next (o.getD s)) dispatched, State.putCell_launches .., ?_⟩
  exact numbered.hartSet

/-- The engine answers a `tspawn` that finds no index left. -/
theorem exec_spawnAdd_full {c : Nat} {k : Slot} (asks : s.spawner l.id = some (c, k)) (full : l.capacity ≤ l.next) :
    EventSets s (.spawnAdd l.id) c k { s.hartAt c k with req := .answered (BitVec.allOnes 64) } := by
  have answer : s.spawnAdd l.id = some (s.setHartAt c k { s.hartAt c k with req := .answered (BitVec.allOnes 64) }) := by
    unfold State.spawnAdd
    rw [State.launch?_one one, Option.bind_some, asks, Option.map_some]
    dsimp only
    rw [if_pos full]
  exact congrArg (fun o : Option State => Host.Outcome.next (o.getD s)) answer

/-- The engine answers the `tspawn` of a REPLAY task with the next index, and leaves the node with the attempt. -/
theorem exec_spawnAdd_replay {c : Nat} {k : Slot} {t : Task} (hn : Numbered s) (asks : s.spawner l.id = some (c, k)) (room : l.next < l.capacity)
    (task : (s.hartAt c k).task = some t) (replay : t.replay = true) : ∃ u, exec (.spawnAdd l.id) s = .next u ∧
      u.launches = [{ l with next := l.next + 1 }] ∧ u.mem = s.mem ∧ HartSet s u c k { s.hartAt c k with
        req := .answered (BitVec.ofNat 64 l.next), task := some { t with spawns := t.spawns ++ [⟨l.next, leWords (s.hartAt c k).buf⟩] } } := by
  let v : State := { s with launches := [{ l with next := l.next + 1 }] }
  have answer : s.spawnAdd l.id = some (v.setHartAt c k { s.hartAt c k with
      req := .answered (BitVec.ofNat 64 l.next), task := some { t with spawns := t.spawns ++ [⟨l.next, leWords (s.hartAt c k).buf⟩] } }) := by
    unfold State.spawnAdd
    rw [State.launch?_one one, Option.bind_some, asks, Option.map_some]
    dsimp only
    rw [if_neg (Nat.not_le.2 room), task]
    dsimp only
    rw [if_pos replay, State.putLaunch_one one (by rfl)]
  have numbered : Numbered v := hn
  refine ⟨_, congrArg (fun o : Option State => Host.Outcome.next (o.getD s)) answer, State.putCell_launches .., State.putCell_mem .., ?_⟩
  exact numbered.hartSet

end
end
end Sys2Proof.Machine

namespace Sys2Proof.Machine

/-! ## The Chuck starts a hart, and reports its attempt (R64, R67 to R70) -/

theorem Hart.S_setS_ne (h : Hart) {i j : Reg} (x : Word) (d : j ≠ i) : (h.setS i x).S j = h.S j := by
  have apart : j.toNat ≠ i.toNat := fun e => d (BitVec.eq_of_toNat_eq e)
  have read : (h.setS i x).win.read (h.sAddr j.toNat) 8 = h.win.read (h.sAddr j.toNat) 8 :=
    Mem.read_congr fun a _ _ => Hart.win_setS h i x a (by unfold Hart.sAddr at *; omega)
  unfold Hart.S Hart.sRaw
  rw [show (h.setS i x).sAddr j.toNat = h.sAddr j.toNat by simp [Hart.sAddr, Hart.sbase], read]

/-- Slots 1 to n hold the words written to them in turn. -/
theorem Hart.S_setSlots (h : Hart) (f : Nat → Word) {j : Nat} : ∀ {n : Nat}, j < n → n < 256 →
    ((List.range n).foldl (fun g i => g.setS (BitVec.ofNat 8 (i + 1)) (f i)) h).S (BitVec.ofNat 8 (j + 1)) = f j := by
  intro n
  induction n with
  | zero => exact fun hj => absurd hj (Nat.not_lt_zero j)
  | succ n ih =>
    intro hj hn
    rw [List.range_succ, List.foldl_append, List.foldl_cons, List.foldl_nil]
    have slot (i : Nat) (hi : i < 256) : (BitVec.ofNat 8 i).toNat = i := by rw [BitVec.toNat_ofNat]; exact Nat.mod_eq_of_lt hi
    by_cases e : j = n
    · subst e
      rw [Hart.S_setS_self, if_neg fun z => by simpa [slot (j + 1) hn] using congrArg BitVec.toNat z]
    · rw [Hart.S_setS_ne _ _ fun z => e (by simpa [slot (j + 1) (by omega), slot (n + 1) hn] using congrArg BitVec.toNat z)]
      exact ih (by omega) (by omega)

section
variable {s : State} {l : Launch} {c : Nat} {k : Slot} {t : Task} {n : Node}

/-- The registers that a Chuck writes: six arguments, the node's index and the attempt. -/
def Hart.given (h : Hart) (n : Node) (t : Task) : Hart :=
  (((List.range 6).foldl (fun g j => g.setS (BitVec.ofNat 8 (j + 1)) (if j < n.argc then n.word (2 + j) else 0)) h).setS 7
    (BitVec.ofNat 64 t.node)).setS 8 (BitVec.ofNat 64 t.attempt)

theorem Hart.startTask_eq (h : Hart) : h.startTask l n t = { (h.given n t).settle with
    pc := BitVec.ofNat 64 (l.imageBase + n.entry), level := .u, st := .run, task := some t, chosen := none } := rfl

theorem Hart.given_arg (h : Hart) (n : Node) (t : Task) {j : Nat} (hj : j < 6) :
    (h.given n t).S (BitVec.ofNat 8 (j + 1)) = if j < n.argc then n.word (2 + j) else 0 := by
  have apart (i : Reg) (hi : 6 < i.toNat) : BitVec.ofNat 8 (j + 1) ≠ i := fun z => by
    have := congrArg BitVec.toNat z
    rw [BitVec.toNat_ofNat] at this
    omega
  unfold Hart.given
  rw [Hart.S_setS_ne _ _ (apart 8 (by decide)), Hart.S_setS_ne _ _ (apart 7 (by decide))]
  exact Hart.S_setSlots h (fun j => if j < n.argc then n.word (2 + j) else 0) hj (by decide)

theorem Hart.given_node (h : Hart) (n : Node) (t : Task) : (h.given n t).S 7 = BitVec.ofNat 64 t.node := by
  unfold Hart.given
  rw [Hart.S_setS_ne _ _ (by decide), Hart.S_setS_self, if_neg (by decide)]

theorem Hart.given_attempt (h : Hart) (n : Node) (t : Task) : (h.given n t).S 8 = BitVec.ofNat 64 t.attempt := by
  unfold Hart.given
  rw [Hart.S_setS_self, if_neg (by decide)]

theorem Hart.given_traps (h : Hart) (n : Node) (t : Task) : (h.given n t).ts = h.ts ∧ (h.given n t).tf = h.tf := by
  unfold Hart.given
  rw [Hart.setS_ts, Hart.setS_ts, Hart.setS_tf, Hart.setS_tf]
  exact foldl_keeps (P := fun g : Hart => g.ts = h.ts ∧ g.tf = h.tf) ⟨rfl, rfl⟩ fun g j k => by rwa [Hart.setS_ts, Hart.setS_tf]

/-- What a hart that its Chuck starts goes on with. -/
theorem Hart.startTask_runs (h : Hart) : let g := h.startTask l n t
    g.st = .run ∧ g.level = .u ∧ g.task = some t ∧ g.chosen = none ∧ g.pc = BitVec.ofNat 64 (l.imageBase + n.entry) ∧
      (∀ j, j < 6 → g.S (BitVec.ofNat 8 (j + 1)) = if j < n.argc then n.word (2 + j) else 0) ∧
      g.S 7 = BitVec.ofNat 64 t.node ∧ g.S 8 = BitVec.ofNat 64 t.attempt ∧ g.ts = h.ts ∧ g.tf = h.tf := by
  have args := fun j (hj : j < 6) => h.given_arg n t hj
  have node := h.given_node n t
  have attempt := h.given_attempt n t
  obtain ⟨ts, tf⟩ := h.given_traps n t
  rw [Hart.startTask_eq]
  generalize h.given n t = a at *
  exact ⟨rfl, rfl, rfl, rfl, rfl, args, node, attempt, ts, tf⟩

section
variable (one : s.launches = [l]) (launch : t.launch = l.id) (node : l.node? t.node = some n)
include one launch node

theorem exec_chuckStart (hn : Numbered s) (chosen : (s.hartAt c k).chosen = some t) : ∃ u, exec (.chuckStart c k) s = .next u ∧ u.mem = s.mem ∧
    u.launches = s.launches ∧ RegisteredOnly (u.cellAt c) ∧ HartSet s u c k ((s.hartAt c k).startTask l n t) := by
  let e : Cell := (s.cellAt c).acquireDrop.setHart k ((s.hartAt c k).startTask l n t)
  have starts : exec (.chuckStart c k) s = .next (s.putCell e) := by
    show execChuckStart c k s = _
    unfold execChuckStart
    dsimp only
    rw [show ((s.cellAt c).hart k).chosen = some t from chosen]
    dsimp only
    rw [launch, State.launch?_one one]
    dsimp only
    rw [node]
    rfl
  have put : (s.putCell e).cellAt c = e := hn.cellAt_putCell rfl
  refine ⟨_, starts, State.putCell_mem .., State.putCell_launches .., ?_, ?_, fun m j d => ?_⟩
  · rw [put]
    exact RegisteredOnly.acquireDrop (s.cellAt c)
  · rw [State.hartAt, put, Cell.hart_setHart]
  · by_cases same : m = c
    · subst same
      rw [State.hartAt, put, Cell.hart_setHart_ne _ _ fun z => d (by rw [z])]
      rfl
    · rw [State.hartAt, State.cellAt_putCell_ne (by rw [show e.no = (s.cellAt c).no from rfl, hn.cellAt_no]; exact same), State.hartAt]

/-- An ended attempt whose commands have retired is reported, where its end sets no STAGE minimum. -/
theorem State.taskAbort_reports {e : EndKind} {o : Report} (task : (s.hartAt c k).task = some t) (ended : t.ending = some e)
    (idle : (s.cellAt c).taskIdle t k = true) (out : abortOutcome l t e ((s.cellAt c).count 6) = o) (unset : o.stage = 0) :
    s.taskAbort c k = some (s.setHartAt c k ((s.hartAt c k).report t (hartNo c k) o.kind o.reason o.detail o.page
      (s.sweepHart c k && !(s.hartAt c k).stopped))) := by
  unfold State.taskAbort
  dsimp only
  rw [show ((s.cellAt c).hart k).task = some t from task]
  dsimp only
  rw [ended]
  dsimp only
  rw [idle, launch, State.launch?_one one]
  dsimp only
  rw [if_neg (by decide), node]
  dsimp only
  rw [out, if_pos unset]
  rfl

/-- The reason of a record that says how an attempt ended (R67). -/
def EndKind.reason : EndKind → Nat
  | .parkOn _ => 0x10
  | .again r => r
  | .failed r _ => r

/-- The hart whose ended attempt is reported parks, with its record held. -/
theorem exec_taskAbort {e : EndKind} {o : Report} (hn : Numbered s) (task : (s.hartAt c k).task = some t) (ended : t.ending = some e)
    (idle : (s.cellAt c).taskIdle t k = true) (out : abortOutcome l t e ((s.cellAt c).count 6) = o) (unset : o.stage = 0) :
    ∃ u, exec (.taskAbort c k e.reason) s = .next u ∧ u.mem = s.mem ∧ u.launches = s.launches ∧
      HartSet s u c k ((s.hartAt c k).report t (hartNo c k) o.kind o.reason o.detail o.page (s.sweepHart c k && !(s.hartAt c k).stopped)) := by
  have same : exec (.taskAbort c k e.reason) s = .next ((s.taskAbort c k).getD s) := by
    show execTaskAbort c k e.reason s = _
    unfold execTaskAbort
    rw [task, Option.bind_some, ended]
    cases e <;> exact congrArg Host.Outcome.next (if_pos (beq_self_eq_true _))
  rw [State.taskAbort_reports one launch node task ended idle out unset] at same
  exact ⟨_, same, State.putCell_mem .., State.putCell_launches .., hn.hartSet⟩

end
end
end Sys2Proof.Machine

namespace Sys2Proof.Machine

/-! ## A record accepted (R65, R67, R69) -/

/-- The launch with its first held record in the ring. -/
def Launch.accepted (l : Launch) (r : TaskRecord) (rs : List TaskRecord) : Launch :=
  { l with heldRecs := rs, ring := l.ring ++ [r], written := l.written + 1 }

/-- Where the launch's next record is written. -/
def Launch.ringAt (l : Launch) : Nat := l.ringBase + 16 * (l.written % l.ringCap)

section
variable {s t : State} {l : Launch} {r : TaskRecord} {rs : List TaskRecord} {n : Node}

/-- What a state of nodes is made of keeps the instant, and with it the rank of what becomes ready. -/
theorem CachesOnly.now (h : CachesOnly s t) : t.now = s.now := by
  have begins := congrArg Cell.begins h.cell
  have instant : t.instant = s.instant := by
    unfold State.instant
    rw [h.cur, h.tbase, show t.cell.begins = s.cell.begins from begins]
  unfold State.now
  rw [instant]

/-- An engine's write inside one line that its die may have is made. -/
theorem State.writeNoted_line {die asid va : Nat} {bs : List Byte} {told : Bool} {o : OLine} (ha : asid ≠ 0) (low : va < 2 ^ 55)
    (fits : va % 128 + bs.length ≤ 128) (some_ : 1 ≤ bs.length) (line : s.line? ⟨asid, s.gen asid, va / 128⟩ = some o)
    (may : o.perm.allows .s .store = true) (y : Yields s die o.key) :
    ∃ t, s.writeNoted ⟨die, asid, va, bs, told⟩ = some t ∧ CachesOnly s t ∧ t.mem = (s.putLine (o.stored (va % 128) bs [])).mem := by
  obtain ⟨t, written, caches, mem, -⟩ := State.writePiece_stores (who := .engine die) (bs := bs) (sb := []) (State.storeAt_line ha low line may) line
    (by simp [State.tableStore, ha]) y (fun _ h => by cases h)
  have whole : s.writeGlobal (.engine die) asid .s va bs = (.ok (), t) := by
    unfold State.writeGlobal
    rw [linePieces_line fits some_, List.foldl_cons, List.foldl_nil]
    dsimp only
    rw [List.take_length, written]
  refine ⟨t, ?_, caches, mem⟩
  unfold State.writeNoted
  dsimp only
  rw [whole]

/-- The launch whose first held record the engine has taken. -/
def Launch.taken (l : Launch) (rs : List TaskRecord) : Launch := { l with heldRecs := rs }

/-- The engine writes the launch's own record first, and settles its node. -/
theorem exec_recordWrite (one : s.launches = [l]) (held : l.heldRecs = r :: rs) (room : l.ring.length < l.ringCap)
    (wrote : (s.putLaunch (l.taken rs)).writeNoted ⟨l.lead, l.asid, l.ringAt, r.bytes, true⟩ = some t) (launches : t.launches = [l.taken rs]) :
    exec (.recordWrite l.lead) s = .next ((t.putLaunch (l.accepted r rs)).settleRec (l.accepted r rs) r) := by
  have before : (s.putLaunch (l.taken rs)).launch? l.id = some (l.taken rs) :=
    State.launch?_one (l := l.taken rs) (by rw [State.putLaunch_one one (by rfl)])
  have after : t.launch? l.id = some (l.taken rs) := State.launch?_one (l := l.taken rs) launches
  have put : (s.putLaunch (l.taken rs)).ringPut l.id r = some ((t.putLaunch (l.accepted r rs)).settleRec (l.accepted r rs) r) := by
    unfold State.ringPut
    rw [before, Option.bind_some]
    refine (congrArg (fun o => Option.bind o _) wrote).trans ?_
    rw [Option.bind_some]
    dsimp only
    rw [after]
    rfl
  have accepts : s.acceptRec l = some ((t.putLaunch (l.accepted r rs)).settleRec (l.accepted r rs) r) := by
    unfold State.acceptRec
    rw [if_neg (by simpa [Launch.room] using room), held]
    exact put
  have records : s.recordWrite l.lead = some ((t.putLaunch (l.accepted r rs)).settleRec (l.accepted r rs) r) := by
    unfold State.recordWrite
    rw [State.launches_ofLead one (by simp), List.findSome?_cons, accepts]
  exact congrArg (fun o : Option State => Host.Outcome.next (o.getD s)) records

/-- Whatever a record does to its node. -/
theorem State.settleRec_node (node : l.node? r.node = some n) :
    (r.kind = 1 → s.settleRec l r = s.putLaunch (l.putNode { n with st := .done })) ∧
    (∀ p, r.kind = 2 → r.page = some p → s.settleRec l r = s.parkNode l { n with attempt := n.attempt + 1 } (dieOf (r.hart / 16)) p) ∧
    (r.kind = 2 → r.page = none → s.settleRec l r = s.readyNode l { n with attempt := n.attempt + 1 }) := by
  unfold State.settleRec
  rw [node]
  dsimp only
  refine ⟨fun kind => ?_, fun p kind page => ?_, fun kind page => ?_⟩
  · rw [if_neg (by omega), if_pos kind]
  · rw [if_neg (by omega), if_neg (by omega), if_pos kind, page]
  · rw [if_neg (by omega), if_neg (by omega), if_pos kind, page]

/-- What accepting a record leaves: its bytes in the ring's line, the launch with its node settled, and the nodes that park. -/
def Recorded (s t : State) (l : Launch) (r : TaskRecord) (rs : List TaskRecord) (n : Node) (w : List ParkedNode) : Prop :=
  OnDieIs t (stored l.asid l.ringAt 16 (leNat r.bytes) (onDie s)) ∧ t.mem = { s.mem with lines := t.mem.lines, waitList := s.mem.waitList ++ w } ∧
    BanksKept s t ∧ t.launches = [{ l.putNode n with heldRecs := rs, ring := l.ring ++ [r], written := l.written + 1 }]

/-- A record's bytes written, its launch with a node of another state, and nodes parked. -/
theorem Recorded.of_write {u : State} {o : OLine} {m : Node} {w : List ParkedNode} (bytes : r.bytes.length = 16) (fits : l.ringAt % 128 + 16 ≤ 128)
    (line : s.line? ⟨l.asid, s.gen l.asid, l.ringAt / 128⟩ = some o) (len : o.data.length = 128) (kept : BanksKept s t)
    (mem : t.mem = (s.putLine (o.stored (l.ringAt % 128) r.bytes [])).mem)
    (settled : u = { t with launches := [(l.accepted r rs).putNode m], mem := { t.mem with waitList := t.mem.waitList ++ w } }) :
    Recorded s u l r rs m w := by
  subst settled
  refine ⟨fun b va => ?_, ?_, kept, rfl⟩
  · have die := onDieIs_putLine (sb := []) line (by rwa [bytes]) len b va
    rw [bytes] at die
    rw [← die]
    exact onDie_of_mem (congrArg MemSys.lines mem) (congrArg MemSys.gens mem) b va
  · dsimp only
    rw [mem]
    rfl

theorem State.readyNode_pool {m : Node} (one : s.launches = [l]) (room : s.poolUsed l.lead < poolPlaces) :
    s.readyNode l m = { s with launches := [l.putNode { m with st := .ready s.now none }] } := by
  unfold State.readyNode
  rw [if_pos room, State.putLaunch_one one (by rfl)]

/-- The engine takes a launch's first held record: it is written, and its node is done, parks or becomes ready. -/
theorem recordWrite_records {o : OLine} (one : s.launches = [l]) (held : l.heldRecs = r :: rs) (room : l.ring.length < l.ringCap)
    (node : l.node? r.node = some n) (ha : l.asid ≠ 0) (low : l.ringAt < 2 ^ 55) (fits : l.ringAt % 128 + 16 ≤ 128) (bytes : r.bytes.length = 16)
    (line : s.line? ⟨l.asid, s.gen l.asid, l.ringAt / 128⟩ = some o) (may : o.perm.allows .s .store = true) (len : o.data.length = 128)
    (settled : Settled s o.key) (own : Ownable s l.lead o.key) :
    let writes (m : Node) (w : List ParkedNode) : Prop := ∃ t, exec (.recordWrite l.lead) s = .next t ∧ Recorded s t l r rs m w
    (r.kind = 1 → writes { n with st := .done } []) ∧
    (∀ p, r.kind = 2 → r.page = some p → writes { n with attempt := n.attempt + 1, st := .parked } [⟨dieOf (r.hart / 16), l.id, n.index, l.asid, p⟩]) ∧
    (r.kind = 2 → r.page = none → s.poolUsed l.lead < 4096 → writes { n with attempt := n.attempt + 1, st := .ready s.now none } []) := by
  have taken : s.putLaunch (l.taken rs) = { s with launches := [l.taken rs] } := State.putLaunch_one one rfl
  obtain ⟨t, wrote, caches, mem⟩ := State.writeNoted_line (s := { s with launches := [l.taken rs] }) (told := true) ha low (by rwa [bytes])
    (by rw [bytes]; decide) line may (.inr ⟨settled, own⟩)
  have launches : t.launches = [l.taken rs] := caches.launches
  have accepted : t.putLaunch (l.accepted r rs) = { t with launches := [l.accepted r rs] } := State.putLaunch_one launches rfl
  have run := exec_recordWrite one held room (taken ▸ wrote) launches
  rw [accepted] at run
  have kept : BanksKept s t := caches.banksKept
  obtain ⟨done, parks, ready⟩ := State.settleRec_node (s := { t with launches := [l.accepted r rs] }) (l := l.accepted r rs) node
  refine ⟨fun kind => ⟨_, run, ?_⟩, fun p kind page => ⟨_, run, ?_⟩, fun kind page pool => ⟨_, run, ?_⟩⟩
  · refine .of_write bytes fits line len kept mem ?_
    rw [done kind, State.putLaunch_one (l := l.accepted r rs) rfl (by rfl), List.append_nil]
  · refine .of_write bytes fits line len kept mem ?_
    rw [parks p kind page, State.parkNode, State.putLaunch_one (l := l.accepted r rs) rfl (by rfl)]
    rfl
  · refine .of_write bytes fits line len kept mem ?_
    have used : ({ t with launches := [l.accepted r rs] } : State).poolUsed l.lead = s.poolUsed l.lead := by
      unfold State.poolUsed
      rw [State.launches_ofLead one (by simp), State.launches_ofLead (l := l.accepted r rs) rfl (by simp [Launch.accepted])]
      simp [Launch.accepted]
    have now : ({ t with launches := [l.accepted r rs] } : State).now = s.now := caches.now
    rw [ready kind page, State.readyNode_pool (l := l.accepted r rs) rfl (by rw [← used] at pool; exact pool), now, List.append_nil]

end
end Sys2Proof.Machine

namespace Sys2Proof.Machine

/-! ## An episode of a team barrier ends (R253) -/

/-- A masked slot finds the episode of a word ended. -/
def Cell.ended (w : IWord) (mask : BitVec 16) (c : Cell) (k : Slot) : Cell :=
  if !mask.getLsbD k.val then c
  else
    let c := { c with tbarDone := c.tbarDone ++ [⟨w, k⟩] }
    if (c.hart k).tbarWord == some w then c.setHart k { c.hart k with woken := true } else c

section
variable {c : Cell} {w : IWord} {mask : BitVec 16} {j k : Slot}

theorem Cell.endEpisode_eq {t : Tbar} (h : (c.tbars.find? fun t => t.word == w) = some t) : c.endEpisode w =
    (List.finRange 16).foldl (Cell.ended w t.mask) { c.acquireDrop with tbars := c.tbars.filter fun u => u.word != w } := by
  unfold Cell.endEpisode
  rw [h]
  rfl

theorem Cell.ended_cache_tbars_no : (c.ended w mask k).cache = c.cache ∧ (c.ended w mask k).tbars = c.tbars ∧ (c.ended w mask k).no = c.no := by
  unfold Cell.ended
  split
  · exact ⟨rfl, rfl, rfl⟩
  · dsimp only
    split <;> exact ⟨rfl, rfl, rfl⟩

theorem Cell.ended_hart (j : Slot) : (c.ended w mask k).hart j = c.hart j ∨ (c.ended w mask k).hart j = { c.hart j with woken := true } := by
  unfold Cell.ended
  split
  · exact .inl rfl
  · dsimp only
    split
    · by_cases e : j = k
      · subst e
        exact .inr (Cell.hart_setHart ..)
      · exact .inl (Cell.hart_setHart_ne _ _ e)
    · exact .inl rfl

theorem Cell.ended_tbarWord (j : Slot) : ((c.ended w mask k).hart j).tbarWord = (c.hart j).tbarWord := by
  rcases Cell.ended_hart (c := c) (w := w) (mask := mask) (k := k) j with h | h
  · rw [h]
  · rw [h]
    rfl

theorem Cell.ended_keeps (h : ((c.hart j).tbarWord = some w → (c.hart j).woken = true) ∧ ⟨w, j⟩ ∈ c.tbarDone) :
    (((c.ended w mask k).hart j).tbarWord = some w → ((c.ended w mask k).hart j).woken = true) ∧ ⟨w, j⟩ ∈ (c.ended w mask k).tbarDone := by
  obtain ⟨woken, done⟩ := h
  refine ⟨fun waits => ?_, ?_⟩
  · rw [Cell.ended_tbarWord] at waits
    rcases Cell.ended_hart (c := c) (w := w) (mask := mask) (k := k) j with h | h
    · rw [h, woken waits]
    · rw [h]
  · unfold Cell.ended
    split
    · exact done
    · dsimp only
      split <;> exact List.mem_append_left _ done

/-- The slot itself finds the episode ended, and its wait with it. -/
theorem Cell.ended_self (masked : mask.getLsbD k.val = true) :
    (((c.ended w mask k).hart k).tbarWord = some w → ((c.ended w mask k).hart k).woken = true) ∧ ⟨w, k⟩ ∈ (c.ended w mask k).tbarDone := by
  unfold Cell.ended
  rw [if_neg (by simp [masked])]
  dsimp only
  split
  · refine ⟨fun _ => ?_, List.mem_append_right _ (List.mem_singleton_self _)⟩
    rw [Cell.hart_setHart]
  · next idle => exact ⟨fun waits => absurd (beq_iff_eq.2 waits) idle, List.mem_append_right _ (List.mem_singleton_self _)⟩

theorem Cell.endEpisode_no (c : Cell) (w : IWord) : (c.endEpisode w).no = c.no := by
  cases h : c.tbars.find? fun t => t.word == w with
  | none => unfold Cell.endEpisode; rw [h]
  | some t =>
    rw [Cell.endEpisode_eq h]
    exact foldl_keeps (P := fun e : Cell => e.no = c.no) rfl fun e k he => Cell.ended_cache_tbars_no.2.2.trans he

/-- No slot has an episode of the word, and CACHE keeps registered words alone. -/
theorem Cell.endEpisode_drops (arrived : c.arrived w = true) : (∀ e ∈ (c.endEpisode w).tbars, e.word ≠ w) ∧ RegisteredOnly (c.endEpisode w) := by
  obtain ⟨t, found⟩ : ∃ t, (c.tbars.find? fun t => t.word == w) = some t := by
    cases h : c.tbars.find? fun t => t.word == w with
    | none => rw [Cell.arrived, h] at arrived; cases arrived
    | some t => exact ⟨t, rfl⟩
  rw [Cell.endEpisode_eq found]
  refine foldl_keeps (P := fun e : Cell => (∀ u ∈ e.tbars, u.word ≠ w) ∧ RegisteredOnly e)
    ⟨fun u hu => by simpa using (List.mem_filter.1 hu).2, RegisteredOnly.acquireDrop c⟩ fun e k ⟨gone, only⟩ => ?_
  obtain ⟨cache, tbars, -⟩ := Cell.ended_cache_tbars_no (c := e) (w := w) (mask := t.mask) (k := k)
  exact ⟨by rwa [tbars], by unfold RegisteredOnly at *; rwa [cache]⟩

/-- Each slot of the mask finds the episode ended. -/
theorem Cell.endEpisode_wakes {t : Tbar} (found : (c.tbars.find? fun t => t.word == w) = some t) (masked : t.mask.getLsbD k.val = true) :
    ((c.hart k).tbarWord = some w → ((c.endEpisode w).hart k).woken = true) ∧ ⟨w, k⟩ ∈ (c.endEpisode w).tbarDone := by
  have waits : ((c.endEpisode w).hart k).tbarWord = (c.hart k).tbarWord := by
    rw [Cell.endEpisode_eq found]
    exact foldl_keeps (P := fun e : Cell => (e.hart k).tbarWord = (c.hart k).tbarWord) rfl fun e j he => (Cell.ended_tbarWord k).trans he
  obtain ⟨as, bs, parts⟩ := List.append_of_mem (List.mem_finRange k)
  have ends : (((c.endEpisode w).hart k).tbarWord = some w → ((c.endEpisode w).hart k).woken = true) ∧ ⟨w, k⟩ ∈ (c.endEpisode w).tbarDone := by
    rw [Cell.endEpisode_eq found, parts, List.foldl_append, List.foldl_cons]
    exact foldl_keeps (P := fun e : Cell => ((e.hart k).tbarWord = some w → (e.hart k).woken = true) ∧ ⟨w, k⟩ ∈ e.tbarDone) (Cell.ended_self masked)
      fun e j => Cell.ended_keeps
  exact ⟨fun h => ends.1 (waits.trans h), ends.2⟩

end

section
variable {s : State} {w : IWord}

/-- Cells that differ have their episodes end one after the other. -/
theorem endEpisodes (hn : Numbered s) {cs : List Nat} (distinct : cs.Nodup) :
    let u := cs.foldl (fun s i => s.putCell ((s.cellAt i).endEpisode w)) s
    u.mem = s.mem ∧ (∀ c ∈ cs, u.cellAt c = (s.cellAt c).endEpisode w) ∧ ∀ c, c ∉ cs → u.cellAt c = s.cellAt c := by
  induction cs generalizing s with
  | nil => exact ⟨rfl, fun c hc => absurd hc List.not_mem_nil, fun _ _ => rfl⟩
  | cons i is ih =>
    obtain ⟨fresh, distinct⟩ := List.nodup_cons.1 distinct
    obtain ⟨mem, ended, kept⟩ := ih (hn.putCell ((s.cellAt i).endEpisode w)) distinct
    have first : (s.putCell ((s.cellAt i).endEpisode w)).cellAt i = (s.cellAt i).endEpisode w := hn.cellAt_putCell (Cell.endEpisode_no ..)
    have rest (c : Nat) (d : c ≠ i) : (s.putCell ((s.cellAt i).endEpisode w)).cellAt c = s.cellAt c :=
      State.cellAt_putCell_ne (by rwa [Cell.endEpisode_no, hn.cellAt_no])
    refine ⟨mem.trans (State.putCell_mem ..), fun c hc => ?_, fun c hc => ?_⟩
    · rcases List.mem_cons.1 hc with rfl | hc
      · exact (kept c fresh).trans first
      · rw [List.foldl_cons, ended c hc, rest c fun e => fresh (e ▸ hc)]
    · obtain ⟨d, hc⟩ := not_or.1 (mt List.mem_cons.2 hc)
      exact (kept c hc).trans (rest c d)

theorem tbarComplete_ends {id team : Nat} (hn : Numbered s) (some_ : s.groupCells id team w ≠ []) (distinct : (s.groupCells id team w).Nodup)
    (all : ∀ c ∈ s.groupCells id team w, (s.cellAt c).arrived w = true ∧ (s.cellAt c).released w = true) :
    ∃ u, exec (.tbarComplete id team w) s = .next u ∧ u.mem = s.mem ∧ ∀ c ∈ s.groupCells id team w, u.cellAt c = (s.cellAt c).endEpisode w := by
  have completes : s.tbarComplete id team w = some ((s.groupCells id team w).foldl (fun s i => s.putCell ((s.cellAt i).endEpisode w)) s) := by
    unfold State.tbarComplete
    dsimp only
    rw [if_pos (by simpa [some_] using all)]
  obtain ⟨mem, ended, -⟩ := endEpisodes hn distinct (w := w)
  exact ⟨_, congrArg (fun o : Option State => Host.Outcome.next (o.getD s)) completes, mem, ended⟩

end

/-- Settles O44: each event of the graph engine, of a Chuck and of a team barrier by what it makes of the one launch, the harts and the cells. -/
theorem graphEvents : Obligations.GraphEvents := by
  unfold Obligations.GraphEvents
  intro s l hn one
  refine ⟨fun n team c k goes resolved candidate slot => exec_dispatch one hn goes resolved candidate slot, fun c k t n chosen launch node => ?_,
    fun r rs o n held room node ha low fits bytes line may len settled own =>
      recordWrite_records one held room node ha low fits bytes line may len settled own,
    fun c k t n r d task ended idle launch node going => ?_, fun c k t n p task ended idle launch node more => ?_,
    fun t t0 team starve first due starving free => exec_starvationRecord one team starve first due starving free,
    fun first idle => exec_launchDrained one first idle, fun waits due => exec_gangStart one waits due,
    fun c k asks => ⟨fun full => exec_spawnAdd_full one asks full, fun room t task replay => exec_spawnAdd_replay one hn asks room task replay⟩,
    fun team w some_ distinct all => ?_⟩
  · obtain ⟨u, run, mem, launches, only, put, others⟩ := exec_chuckStart one launch node hn chosen
    refine ⟨u, run, mem, launches, only, others, ?_⟩
    rw [put]
    exact Hart.startTask_runs _
  · obtain ⟨u, run, mem, -, put, others⟩ := exec_taskAbort one launch node hn task ended idle rfl rfl
    refine ⟨u, run, mem, put.trans ?_, others⟩
    rw [going, Bool.not_false, Bool.and_true]
    rfl
  · have out : abortOutcome l t (.parkOn p) ((s.cellAt c).count 6) = ⟨2, 0x10, 0, some p, 0⟩ := if_neg (Nat.ne_of_lt more)
    obtain ⟨u, run, mem, launches, put, -⟩ := exec_taskAbort one launch node hn task ended idle out rfl
    refine ⟨u, run, launches.trans one, mem, ?_⟩
    rw [put]
    rfl
  · obtain ⟨u, run, mem, ends⟩ := tbarComplete_ends hn some_ distinct all
    refine ⟨u, run, mem, fun c hc => ?_⟩
    obtain ⟨gone, only⟩ := Cell.endEpisode_drops (all c hc).1
    rw [ends c hc]
    refine ⟨gone, only, fun k ⟨e, head, word, masked⟩ => ?_⟩
    have found : ((s.cellAt c).tbars.find? fun t => t.word == w) = some e := by
      cases h : (s.cellAt c).tbars with
      | nil => simp [h] at head
      | cons x xs =>
        obtain rfl : x = e := by simpa [h] using head
        exact List.find?_cons_of_pos (by simpa using word)
    obtain ⟨wakes, done⟩ := Cell.endEpisode_wakes found masked
    refine ⟨fun waits => ?_, done⟩
    rw [State.hartAt, ends c hc]
    exact wakes waits

end Sys2Proof.Machine

namespace Sys2Proof.Machine

/-! ## Cells changed one after the other -/

/-- Nothing of the module but its cells is new. -/
structure CellsOnly (s t : State) : Prop where
  same : t = { s with cell := t.cell, others := t.others }
  numbered : Numbered s → Numbered t

/-- Nothing of the module but its cells is new, and every CACHE is as it was. -/
structure CacheKept (s t : State) : Prop extends CellsOnly s t where
  cache : Numbered s → ∀ n, (t.cellAt n).cache = (s.cellAt n).cache

/-- Each cell of a list becomes what `g` makes of it. -/
def State.eachCell (s : State) (g : Cell → Cell) (cs : List Nat) : State := cs.foldl (fun s n => s.putCell (g (s.cellAt n))) s

namespace CellsOnly
variable {s t u : State}

theorem refl (s : State) : CellsOnly s s := ⟨rfl, id⟩

theorem trans (h : CellsOnly s t) (k : CellsOnly t u) : CellsOnly s u := ⟨by rw [k.same, h.same], k.numbered ∘ h.numbered⟩

theorem putCell (s : State) (c : Cell) : CellsOnly s (s.putCell c) := ⟨by unfold State.putCell; split <;> rfl, fun hn => hn.putCell c⟩

theorem eachCell (s : State) (g : Cell → Cell) (cs : List Nat) : CellsOnly s (s.eachCell g cs) :=
  foldl_keeps (P := CellsOnly s) (.refl s) fun t _ h => h.trans (.putCell t _)

theorem clientCredit (s : State) (f : Field) (cl : Client) (n : Nat) (bad : Bool) : CellsOnly s (s.clientCredit f cl n bad) := by
  unfold State.clientCredit
  split
  exacts [.putCell s _, .refl s]

theorem bindSweeps (s : State) (cs : List Nat) (hsw : Nat) (on : Bool) : CellsOnly s (s.bindSweeps cs hsw on) :=
  .eachCell s (fun c => c.bindSweep hsw on) cs

theorem mapTeam (s : State) (id team : Nat) (f : Hart → Hart) : CellsOnly s (s.mapTeam id team f) := by
  unfold State.mapTeam
  split
  · exact .refl s
  split
  exacts [.eachCell s (fun c => { c with harts := c.harts.map f }) _, .refl s]

theorem mem (h : CellsOnly s t) : t.mem = s.mem := by rw [h.same]
theorem coh (h : CellsOnly s t) : t.coh = s.coh := by rw [h.same]
theorem net (h : CellsOnly s t) : t.net = s.net := by rw [h.same]
theorem fields (h : CellsOnly s t) : t.fields = s.fields := by rw [h.same]
theorem launches (h : CellsOnly s t) : t.launches = s.launches := by rw [h.same]

theorem onDie (h : CellsOnly s t) : Machine.onDie t = Machine.onDie s := funext fun a => funext fun va => onDie_of_mem (by rw [h.mem]) (by rw [h.mem]) a va

end CellsOnly

section
variable {s t u : State} {g : Cell → Cell}

/-- A cell that stands in the list several times is changed as often. -/
theorem State.cellAt_eachCell (no : ∀ e, (g e).no = e.no) (cs : List Nat) (n : Nat) : ∀ {s : State}, Numbered s →
    (s.eachCell g cs).cellAt n = g^[cs.count n] (s.cellAt n) := by
  induction cs with
  | nil => exact fun _ => rfl
  | cons i is ih =>
    intro s hn
    refine (ih (hn.putCell _)).trans ?_
    by_cases e : i = n
    · subst e
      rw [hn.cellAt_putCell (no _), List.count_cons_self, Function.iterate_succ_apply]
    · rw [State.cellAt_putCell_ne (by rw [no, hn.cellAt_no]; exact Ne.symm e), List.count_cons_of_ne e]

/-- A part of a cell that `g` leaves alone is as it was. -/
theorem State.part_eachCell {α : Type} (part : Cell → α) (hn : Numbered s) (no : ∀ e, (g e).no = e.no) (kept : ∀ e, part (g e) = part e) (cs : List Nat)
    (n : Nat) : part ((s.eachCell g cs).cellAt n) = part (s.cellAt n) := by
  rw [State.cellAt_eachCell no cs n hn]
  exact Function.Iterate.rec (fun e => part e = part (s.cellAt n)) rfl (fun e h => (kept e).trans h) _

/-- A cell outside the list is as it was. -/
theorem State.cellAt_eachCell_outside (hn : Numbered s) (no : ∀ e, (g e).no = e.no) {cs : List Nat} {n : Nat} (out : n ∉ cs) :
    (s.eachCell g cs).cellAt n = s.cellAt n := by
  rw [State.cellAt_eachCell no cs n hn, List.count_eq_zero_of_not_mem out, Function.iterate_zero_apply]

/-- A cell of the list has been changed, last of all, by `g`. -/
theorem State.cellAt_eachCell_inside (hn : Numbered s) (no : ∀ e, (g e).no = e.no) {cs : List Nat} {n : Nat} (mem : n ∈ cs) :
    ∃ e, (s.eachCell g cs).cellAt n = g e := by
  obtain ⟨m, count⟩ := Nat.exists_eq_succ_of_ne_zero (List.count_pos_iff.2 mem).ne'
  rw [State.cellAt_eachCell no cs n hn, count, Function.iterate_succ_apply']
  exact ⟨_, rfl⟩

/-- A change that makes nothing more of a cell when made again is made once. -/
theorem State.cellAt_eachCell_once (hn : Numbered s) (no : ∀ e, (g e).no = e.no) (again : ∀ e, g (g e) = g e) {cs : List Nat} {n : Nat} (mem : n ∈ cs) :
    (s.eachCell g cs).cellAt n = g (s.cellAt n) := by
  obtain ⟨m, count⟩ := Nat.exists_eq_succ_of_ne_zero (List.count_pos_iff.2 mem).ne'
  rw [State.cellAt_eachCell no cs n hn, count, Function.iterate_succ_apply, Function.iterate_fixed (again _)]

theorem Cell.bindSweep_cell (c : Cell) (hsw : Nat) (on : Bool) : c.bindSweep hsw on = { c with harts := (c.bindSweep hsw on).harts } := by
  unfold Cell.bindSweep
  refine foldl_keeps (P := fun e : Cell => e = { c with harts := e.harts }) rfl fun e k h => ?_
  have put (x : Hart) : e.setHart k x = { c with harts := (e.setHart k x).harts } := by rw [h]; rfl
  dsimp only
  repeat' split
  exacts [put _, h, put _, h]

namespace CacheKept

theorem refl (s : State) : CacheKept s s := ⟨.refl s, fun _ _ => rfl⟩

theorem trans (h : CacheKept s t) (k : CacheKept t u) : CacheKept s u :=
  ⟨h.toCellsOnly.trans k.toCellsOnly, fun hn n => (k.cache (h.numbered hn) n).trans (h.cache hn n)⟩

theorem eachCell (s : State) (no : ∀ e, (g e).no = e.no) (kept : ∀ e, (g e).cache = e.cache) (cs : List Nat) : CacheKept s (s.eachCell g cs) :=
  ⟨.eachCell s g cs, fun hn n => State.part_eachCell Cell.cache hn no kept cs n⟩

theorem bindSweeps (s : State) (cs : List Nat) (hsw : Nat) (on : Bool) : CacheKept s (s.bindSweeps cs hsw on) :=
  .eachCell s (g := fun c => c.bindSweep hsw on) (fun e => by rw [e.bindSweep_cell]) (fun e => by rw [e.bindSweep_cell]) cs

theorem clientCredit (s : State) (f : Field) (cl : Client) (n : Nat) (bad : Bool) : CacheKept s (s.clientCredit f cl n bad) := by
  unfold State.clientCredit
  split
  · exact .eachCell s (g := fun c => c.credit cl.obj n bad) (fun e => Cell.credit_no ..) (fun e => by rw [Cell.credit_cell]) [cl.cell]
  · exact .refl s

end CacheKept

end

end Sys2Proof.Machine

namespace Sys2Proof.Machine

/-! ## O49: requests served at their origin cells, and their answers (R83, R257 to R265) -/

section
variable {s u : State} {f : Field} {l : Launch} {r : FieldReq} {v : Word} {n : Nat}

/-- The answer to a request that waits is on its way, and of the module no more than the fields is new. -/
def RequestServed (s : State) (r : FieldReq) (v : Word) (n : Nat) (fs : List Field) : Prop :=
  ∃ t, exec (.fieldRequestServe r.origin) s = .next t ∧ (t.mem = s.mem ∧ t.cell = s.cell ∧ t.others = s.others ∧ t.launches = s.launches) ∧
    t.fields = fs ∧ t.net.asks = [{ r with answer := some (v, n) }]

section
variable (one : s.net.asks = [r]) (waits : r.answer = none) (field : s.field? r.launch r.team r.handle = some f) (launch : s.launch? r.launch = some l)
include one waits field launch

theorem exec_fieldRequestServe (serves : s.serveField l f r = ((v, n), u)) (plain : ∀ ws, r.ask ≠ .decl ws)
    (only : u = { s with fields := u.fields, cmdNo := u.cmdNo }) : RequestServed s r v n u.fields := by
  have ask : s.serveAsk r = some ((v, n), u) := by
    unfold State.serveAsk
    split
    · next ws h => exact absurd h (plain ws)
    · rw [launch, field, ← serves]
  have net : u.net = s.net := by rw [only]
  have served : s.fieldServe r.origin = some { u with net := { u.net with asks := [{ r with answer := some (v, n) }] } } := by
    unfold State.fieldServe
    dsimp only
    rw [one, List.find?_cons_of_pos (by simp [waits]), Option.bind_some, ask, Option.map_some]
    dsimp only
    rw [net, one, mapFirst, if_pos (by simp [waits])]
  refine ⟨_, next_getD served, ?_, rfl, rfl⟩
  rw [only]
  exact ⟨rfl, rfl, rfl, rfl⟩

theorem serve_start (ask : r.ask = .start) (idle : f.st = .idle) (holds : s.viewsHold f = true) :
    RequestServed s r 0 0 (s.putField { f with st := .sweeping, swapPause := false, todo := f.phaseSites f.phase }).fields := by
  refine exec_fieldRequestServe one waits field launch (u := s.putField _) ?_ (by simp [ask]) rfl
  unfold State.serveField
  rw [ask]
  simp [idle, holds]

theorem serve_start_narrow (ask : r.ask = .start) (idle : f.st = .idle) (narrow : s.viewsHold f = false) : RequestServed s r 4 0 s.fields := by
  refine exec_fieldRequestServe one waits field launch (u := s) ?_ (by simp [ask]) rfl
  unfold State.serveField
  rw [ask]
  simp [idle, narrow]

theorem serve_pause (ask : r.ask = .pause) (sweeps : f.st = .sweeping) : RequestServed s r 0 0 (s.putField { f with st := .pausing }).fields := by
  refine exec_fieldRequestServe one waits field launch (u := s.putField _) ?_ (by simp [ask]) rfl
  unfold State.serveField
  rw [ask]
  simp [sweeps]

/-- A stop that loses neither a switch nor a snapshot. -/
theorem serve_stop (ask : r.ask = .stop) (going : f.stops = false) (commit : f.commit = none) (snaps : f.snaps = []) :
    RequestServed s r 0 (f.n * f.size) (s.putField { f with st := if f.st == .idle then .ending else .stopping, stop := some r.client }).fields := by
  refine exec_fieldRequestServe one waits field launch (u := s.putField _) ?_ (by simp [ask]) rfl
  unfold State.serveField
  rw [ask]
  simp [going, commit, snaps, boolNat]

theorem serve_phase (ask : r.ask = .phase false) : RequestServed s r (BitVec.ofNat 64 f.phase) 0 s.fields := by
  refine exec_fieldRequestServe one waits field launch (u := s) ?_ (by simp [ask]) rfl
  unfold State.serveField
  rw [ask]
  rfl

section
variable {b buf : Nat} {w : IWord}

theorem serve_snap_stopped (ask : r.ask = .snap b buf) (stops : f.stops = true) : RequestServed s r 9 0 s.fields := by
  refine exec_fieldRequestServe one waits field launch (u := s) ?_ (by simp [ask]) rfl
  unfold State.serveField
  rw [ask]
  exact if_pos stops

theorem serve_snap_late (ask : r.ask = .snap b buf) (going : f.stops = false) (late : b ≤ f.phase) : RequestServed s r 5 0 s.fields := by
  refine exec_fieldRequestServe one waits field launch (u := s) ?_ (by simp [ask]) rfl
  unfold State.serveField
  rw [ask]
  simp [going, late]

theorem serve_snap (ask : r.ask = .snap b buf) (going : f.stops = false) (ahead : f.phase < b) (room : f.snaps.length < 2) :
    RequestServed s r 0 (f.n * f.size) (s.putField { f with snaps := f.snaps ++ [⟨s.cmdNo, b, buf, r.client, none⟩] }).fields := by
  refine exec_fieldRequestServe one waits field launch (u := { s.putField _ with cmdNo := s.cmdNo + 1 }) ?_ (by simp [ask]) rfl
  unfold State.serveField
  rw [ask]
  simp [going, ahead, room]

theorem serve_cplc (ask : r.ask = .cplc b) (going : f.stops = false) (ahead : f.phase < b) (commit : f.commit = none) :
    RequestServed s r 0 0 (s.putField { f with commit := some b }).fields := by
  refine exec_fieldRequestServe one waits field launch (u := s.putField _) ?_ (by simp [ask]) rfl
  unfold State.serveField
  rw [ask]
  simp [going, ahead, commit]

theorem serve_mig_refused (ask : r.ask = .mig b w) (going : f.stops = false) (refused : s.moveRefused f l w = true) : RequestServed s r 3 0 s.fields := by
  refine exec_fieldRequestServe one waits field launch (u := s) ?_ (by simp [ask]) rfl
  unfold State.serveField
  rw [ask]
  simp [going, refused]

theorem serve_mig (ask : r.ask = .mig b w) (going : f.stops = false) (fits : s.moveRefused f l w = false) (move : f.move = none) (ahead : f.phase < b) :
    RequestServed s r 0 (f.n * f.size) (s.putField { f with move := some ⟨b, w, r.client⟩ }).fields := by
  refine exec_fieldRequestServe one waits field launch (u := s.putField _) ?_ (by simp [ask]) rfl
  unfold State.serveField
  rw [ask]
  simp [going, fits, move, ahead.ne', Nat.not_lt.2 ahead.le]

end
end

/-- The first answer reaches its hart, whose cell serves the team still. -/
theorem exec_fieldAnswer {rs : List FieldReq} {a : Word × Nat} (hn : Numbered s) (asks : s.net.asks = r :: rs) (answer : r.answer = some a)
    (sent : (s.hartAt r.client.cell r.client.slot).req = .sent) (serves : s.clientServes r.client r.launch r.team = true) :
    ∃ t, exec (.fieldAnswer r.client.cell r.client.slot) s = .next t ∧ t.net.asks = rs ∧ t.mem = s.mem ∧ HartSet s t r.client.cell r.client.slot
      { s.hartAt r.client.cell r.client.slot with req := .answered a.1, buf := leBytes 8 a.2 ++ leBytes 8 r.client.obj } := by
  let u : State := { s with net := { s.net with asks := rs } }
  have hart : u.hartAt r.client.cell r.client.slot = s.hartAt r.client.cell r.client.slot := rfl
  have serves' : u.clientServes r.client r.launch r.team = true := serves
  have reaches : s.fieldAnswer r.client.cell r.client.slot = some (u.setHartAt r.client.cell r.client.slot
      { s.hartAt r.client.cell r.client.slot with req := .answered a.1, buf := leBytes 8 a.2 ++ leBytes 8 r.client.obj }) := by
    unfold State.fieldAnswer
    dsimp only
    rw [asks, List.find?_cons_of_pos (by simp [answer]), Option.bind_some, answer, Option.map_some, List.eraseP_cons_of_pos (by simp [answer])]
    exact congrArg some (if_pos (by rw [hart, sent, serves']; rfl))
  have numbered : Numbered u := hn
  exact ⟨_, next_getD reaches, congrArg Net.asks (State.putCell_net ..), State.putCell_mem .., numbered.hartSet⟩

end

/-! ## O49: the Spindle hands a site (R85, R86, R89) -/

section
variable (h : Hart) (f : Field) (l : Launch) (i : Nat) (b0 : Word) (tick : Nat)

/-- What the Spindle writes into s1 to s8 of a hart. -/
def Field.slots (f : Field) (i : Nat) (b0 : Word) : List Word :=
  let w (n : Nat) : Word := BitVec.ofNat 64 n
  [w i, w (f.value i), w ((f.word 7).toNat + (if f.bank then fieldOf (f.word 8) 0 32 else 0) + i * fieldOf (f.word 8) 32 16), b0, w f.phase,
    w (f.places i).length, w f.handle, w (f.present i)]

/-- The s slots of a hart that a site is handed to, written. -/
def Hart.handSlots (h : Hart) (f : Field) (i : Nat) (b0 : Word) : Hart :=
  (List.range 8).foldl (fun g j => g.setS (BitVec.ofNat 8 (j + 1)) ((f.slots i b0).getD j 0)) h

theorem Hart.handSite_eq : h.handSite f l i b0 tick = { ((h.handSlots f i b0).setRun (f.gather i)).settle with
    pc := BitVec.ofNat 64 (l.imageBase + fieldOf (f.word 12) 0 32), level := .u, st := .run,
    hand := some ⟨f.launch, f.team, f.handle, i, some tick⟩ } := rfl

theorem Hart.handSlots_views : (h.handSlots f i b0).views = h.views :=
  foldl_keeps (P := fun g : Hart => g.views = h.views) rfl fun _ _ k => (Hart.setS_views ..).trans k

/-- A run of bytes is written from v0 on: what lies below is as it was. -/
theorem Hart.setRun_below (bs : List Byte) : (h.setRun bs).views = h.views ∧ ∀ a < h.vAddr 0, (h.setRun bs).win.byte a = h.win.byte a := by
  refine foldl_keeps (P := fun g : Hart => g.views = h.views ∧ ∀ a < h.vAddr 0, g.win.byte a = h.win.byte a) ⟨rfl, fun _ _ => rfl⟩
    fun g j ⟨views, below⟩ => ⟨views, fun a ha => ?_⟩
  refine (g.win_setV _ _ a (.inl ?_)).trans (below a ha)
  unfold Hart.vAddr Hart.vbase at *
  rw [views]
  omega

/-- s slots that lie below v0 keep their words. -/
theorem Hart.S_setRun {m : Nat} (below : h.sAddr m ≤ h.vAddr 0) (bs : List Byte) {j : Reg} (hj : j.toNat < m) : (h.setRun bs).S j = h.S j := by
  obtain ⟨views, kept⟩ := h.setRun_below bs
  have addr : (h.setRun bs).sAddr j.toNat = h.sAddr j.toNat := by unfold Hart.sAddr Hart.sbase; rw [views]
  unfold Hart.S Hart.sRaw
  rw [addr, Mem.read_congr fun a _ high => kept a (by unfold Hart.sAddr at *; omega)]

/-- The registers of a hart that a site is handed to, where its views do not overlap. -/
theorem Hart.S_handSite (below : h.sAddr 9 ≤ h.vAddr 0) {j : Nat} (hj : j < 8) :
    (h.handSite f l i b0 tick).S (BitVec.ofNat 8 (j + 1)) = (f.slots i b0).getD j 0 := by
  have apart : (h.handSlots f i b0).sAddr 9 ≤ (h.handSlots f i b0).vAddr 0 := by
    unfold Hart.sAddr Hart.vAddr Hart.sbase Hart.vbase at *
    rwa [Hart.handSlots_views]
  have slot : (BitVec.ofNat 8 (j + 1)).toNat < 9 := by rw [BitVec.toNat_ofNat]; omega
  have run := Hart.S_setRun (h.handSlots f i b0) apart (f.gather i) slot
  rw [Hart.handSite_eq]
  generalize (h.handSlots f i b0).setRun (f.gather i) = g at *
  exact run.trans (h.S_setSlots (fun k => (f.slots i b0).getD k 0) hj (by decide))

end

section
variable {s : State} {f : Field} {l : Launch} {c i : Nat} {k : Slot}

theorem exec_spindleHand (hn : Numbered s) (launch : s.launch? f.launch = some l) (here : s.cellField c = some f) (sweeps : f.sweeps = true)
    (still : f.moving = false) (counter : f.replayed = false) (next : (f.todo.find? fun i => (s.fieldCells f).getD (f.siteHome i).1 0 == c) = some i)
    (parked : (s.cellAt c).parkedSweep f.hsw = some k) : ∃ t, exec (.spindleHand c) s = .next t ∧
      t.fields = (s.putField { f with todo := f.todo.filter (· != i), handed := f.handed ++ [i] }).fields ∧ t.mem = s.mem ∧
      HartSet s t c k { (s.hartAt c k).handSite f l i (f.counterBlock i f.sweep 0) s.tbase with engErr := [] } := by
  have block : s.block c k f i 0 = (some (f.counterBlock i f.sweep 0, none), s) := by
    unfold State.block
    exact if_pos (by rw [counter]; rfl)
  have hands : s.spindle c = some ((s.putField { f with todo := f.todo.filter (· != i), handed := f.handed ++ [i] }).setHartAt c k
      { (s.hartAt c k).handSite f l i (f.counterBlock i f.sweep 0) s.tbase with engErr := [] }) := by
    unfold State.spindle
    rw [here, Option.bind_some, if_neg (by simp [sweeps, still])]
    dsimp only
    rw [next, Option.bind_some, parked, Option.bind_some, launch, Option.bind_some, block]
    rfl
  have numbered : Numbered (s.putField { f with todo := f.todo.filter (· != i), handed := f.handed ++ [i] }) := hn
  exact ⟨_, next_getD hands, State.putCell_fields .., State.putCell_mem .., numbered.hartSet⟩

end
end Sys2Proof.Machine

namespace Sys2Proof.Machine

/-! ## O49: the boundary of a phase (R82, R83, R93, R95) -/

theorem Hart.fieldAt_eq (h : Hart) (handle p : Nat) : h.fieldAt handle p = h ∨ h.fieldAt handle p = { h with req := .answered 1, woken := true } := by
  unfold Hart.fieldAt
  split
  · split
    exacts [.inr rfl, .inl rfl]
  · exact .inl rfl

/-- A hart that waits for a boundary completes where its field has reached it. -/
theorem Hart.fieldAt_waits {h : Hart} {handle p : Nat} {y : Bool} {d a b : Reg} (st : h.st = .wait .boundary) (i : h.winstr = some (.fwaitb y d a b))
    (field : (h.S a).toNat = handle) (idle : h.req = .idle) :
    h.fieldAt handle p = if (h.S b).toNat ≤ p then { h with req := .answered 1, woken := true } else h := by
  unfold Hart.fieldAt
  rw [st, i]
  dsimp only
  by_cases reached : (h.S b).toNat ≤ p
  · rw [if_pos reached, if_pos (by simp [field, reached, idle])]
  · rw [if_neg reached, if_neg (by simp [reached])]

/-- A hart that has completed waits no more. -/
theorem Hart.fieldAt_fieldAt (h : Hart) (handle p : Nat) : (h.fieldAt handle p).fieldAt handle p = h.fieldAt handle p := by
  rcases h.fieldAt_eq handle p with e | e
  · rw [e, e]
  · rw [e]
    unfold Hart.fieldAt
    split
    · exact if_neg (by simp)
    · rfl

/-- Every hart of a cell changed. -/
def Cell.mapHarts (f : Hart → Hart) (c : Cell) : Cell := { c with harts := c.harts.map f }

theorem Cell.hart_mapHarts (f : Hart → Hart) (c : Cell) (k : Slot) : (c.mapHarts f).hart k = f (c.hart k) := by simp [Cell.hart, Cell.mapHarts]

theorem State.mapTeam_eq (s : State) (id team : Nat) (f : Hart → Hart) : s.mapTeam id team f = s.eachCell (Cell.mapHarts f) (s.teamCells id team) := by
  unfold State.mapTeam State.team? State.teamCells
  cases s.launch? id with
  | none => rfl
  | some l =>
    dsimp only [Option.bind_some]
    cases l.team? team with
    | none => rfl
    | some t =>
      dsimp only
      split <;> rfl

theorem State.teamCells_congr {s t : State} (launches : t.launches = s.launches) (id team : Nat) : t.teamCells id team = s.teamCells id team := by
  unfold State.teamCells State.launch?
  rw [launches]

section
variable {s : State} {id team n : Nat} {f : Hart → Hart}

/-- All but the harts of a cell is as it was. -/
theorem State.part_mapTeam {α : Type} (part : Cell → α) (hn : Numbered s) (kept : ∀ e : Cell, part (e.mapHarts f) = part e) :
    part ((s.mapTeam id team f).cellAt n) = part (s.cellAt n) := by
  rw [State.mapTeam_eq]
  exact State.part_eachCell part hn (g := Cell.mapHarts f) (fun _ => rfl) kept _ n

theorem State.hartAt_mapTeam (hn : Numbered s) (again : ∀ h, f (f h) = f h) (mem : n ∈ s.teamCells id team) (k : Slot) :
    (s.mapTeam id team f).hartAt n k = f (s.hartAt n k) := by
  have twice (e : Cell) : (e.mapHarts f).mapHarts f = e.mapHarts f := by
    have once : f ∘ f = f := funext again
    unfold Cell.mapHarts
    rw [Vector.map_map, once]
  rw [State.mapTeam_eq, State.hartAt, State.cellAt_eachCell_once hn (g := Cell.mapHarts f) (fun _ => rfl) twice mem, Cell.hart_mapHarts]
  rfl

theorem State.hartAt_mapTeam_outside (hn : Numbered s) (out : n ∉ s.teamCells id team) (k : Slot) :
    (s.mapTeam id team f).hartAt n k = s.hartAt n k := by
  rw [State.mapTeam_eq, State.hartAt, State.cellAt_eachCell_outside hn (g := Cell.mapHarts f) (fun _ => rfl) out]
  rfl

end

section
variable {s : State} {f : Field}

/-- The cells of a field's placement make an acquire where the coupling bank is switched (R95). -/
def State.switched (s : State) (f : Field) : State :=
  if f.commit == some (f.phase + 1) then s.eachCell Cell.acquireDrop (s.liveCells f) else s

theorem State.switched_only (s : State) (f : Field) : CellsOnly s (s.switched f) := by
  unfold State.switched
  split
  exacts [.eachCell .., .refl s]

/-- What an acquire leaves of a cell is as it was. -/
theorem State.part_switched {α : Type} (part : Cell → α) (hn : Numbered s) (kept : ∀ e : Cell, part e.acquireDrop = part e) (f : Field) (n : Nat) :
    part ((s.switched f).cellAt n) = part (s.cellAt n) := by
  unfold State.switched
  split
  exacts [State.part_eachCell part hn (g := Cell.acquireDrop) (fun _ => rfl) kept _ n, rfl]

theorem State.phaseBarrier_eq (field : s.field? f.launch f.team f.handle = some f) (sweeps : f.sweeps = true) (todo : f.todo = [])
    (handed : f.handed = []) (still : f.moving = false) : s.phaseBarrier f.launch f.team f.handle =
      some (((s.putField f.advance).switched f).mapTeam f.launch f.team fun h => h.fieldAt f.handle (f.phase + 1)) := by
  unfold State.phaseBarrier
  rw [field, Option.bind_some, if_pos (by simp [sweeps, todo, handed, still])]
  rfl

/-- A field at the boundary that ends its phase. -/
theorem Field.advance_eq (f : Field) : let b := f.phase + 1
    let st := if f.st = .pausing then FieldState.idle else if f.st = .stopping then FieldState.ending else f.st
    f.advance = { f with
      phase := b, st := st,
      snaps := f.snaps.map (fun x => if x.b == b then { x with marked := some (List.range f.n) } else x),
      bank := if f.commit = some b then !f.bank else f.bank, commit := if f.commit = some b then none else f.commit,
      todo := if st = .sweeping then f.phaseSites b else [] } := by
  unfold Field.advance
  cases f.st <;> simp

/-- What the cells of the module are once P has advanced. -/
structure Advanced (s : State) (f : Field) (t : State) : Prop where
  acquired : f.commit = some (f.phase + 1) → ∀ n ∈ s.liveCells f, RegisteredOnly (t.cellAt n)
  cache : f.commit ≠ some (f.phase + 1) → ∀ n, (t.cellAt n).cache = (s.cellAt n).cache
  loc : ∀ n, (t.cellAt n).loc = (s.cellAt n).loc
  hart : ∀ n k, t.hartAt n k = s.hartAt n k ∨ t.hartAt n k = { s.hartAt n k with req := .answered 1, woken := true }
  team : ∀ n ∈ s.teamCells f.launch f.team, ∀ k, t.hartAt n k = (s.hartAt n k).fieldAt f.handle (f.phase + 1)

theorem Numbered.advanced (hn : Numbered s) (f : Field) :
    Advanced s f (((s.putField f.advance).switched f).mapTeam f.launch f.team fun h => h.fieldAt f.handle (f.phase + 1)) := by
  let u : State := (s.putField f.advance).switched f
  have numbered : Numbered (s.putField f.advance) := hn
  have only : CellsOnly (s.putField f.advance) u := (s.putField f.advance).switched_only f
  have hu : Numbered u := only.numbered numbered
  have cells : u.teamCells f.launch f.team = s.teamCells f.launch f.team := State.teamCells_congr only.launches ..
  have harts (n : Nat) (k : Slot) : u.hartAt n k = s.hartAt n k := State.part_switched (fun c => c.hart k) numbered (fun _ => rfl) f n
  have team (n : Nat) (mem : n ∈ s.teamCells f.launch f.team) (k : Slot) :
      (u.mapTeam f.launch f.team fun h => h.fieldAt f.handle (f.phase + 1)).hartAt n k = (s.hartAt n k).fieldAt f.handle (f.phase + 1) := by
    rw [State.hartAt_mapTeam hu (fun h => h.fieldAt_fieldAt ..) (cells ▸ mem), harts]
  refine ⟨fun commit n mem => ?_, fun commit n => ?_, fun n => ?_, fun n k => ?_, team⟩
  · have switch : u = (s.putField f.advance).eachCell Cell.acquireDrop (s.liveCells f) := if_pos (beq_iff_eq.2 commit)
    obtain ⟨e, acquired⟩ := State.cellAt_eachCell_inside numbered (g := Cell.acquireDrop) (fun _ => rfl) mem
    unfold RegisteredOnly
    rw [State.part_mapTeam Cell.cache hu fun _ => rfl, show u.cellAt n = e.acquireDrop by rw [switch, acquired]]
    exact RegisteredOnly.acquireDrop e
  · have stays : u = s.putField f.advance := if_neg (by simpa using commit)
    rw [State.part_mapTeam Cell.cache hu fun _ => rfl, stays]
    rfl
  · exact (State.part_mapTeam Cell.loc hu fun _ => rfl).trans (State.part_switched Cell.loc numbered (fun _ => rfl) f n)
  · by_cases mem : n ∈ s.teamCells f.launch f.team
    · rw [team n mem k]
      exact (s.hartAt n k).fieldAt_eq ..
    · exact .inl ((State.hartAt_mapTeam_outside hu (cells ▸ mem) k).trans (harts n k))

end

/-! ## O49: moves (R98, R99) -/

/-- The field in its new placement. -/
def Field.moved (f : Field) (m : Move) : Field := { f with place := m.word, move := none }

/-- A move is refused at its boundary (R98). -/
def State.moveFails (s : State) (f : Field) (m : Move) : Bool :=
  let new := s.fieldCells (f.moved m)
  s.fewBanks (f.moved m) new || s.otherField f new || s.fewHarts f new || !s.viewsHold (f.moved m)

/-- The cells that a move brings in. -/
def State.broughtIn (s : State) (f : Field) (m : Move) : List Nat := (s.fieldCells (f.moved m)).filter fun n => !(s.fieldCells f).contains n

/-- The field placed anew, with its sweep harts bound. -/
def State.rebound (s : State) (f : Field) (m : Move) : State :=
  ((s.putField (f.moved m)).bindSweeps ((s.fieldCells f).filter fun n => !(s.fieldCells (f.moved m)).contains n) f.hsw false).bindSweeps
    (s.broughtIn f m) f.hsw true

/-- Each site of a field credited to a client. -/
def State.creditSites (s : State) (f : Field) (cl : Client) : State := (List.range f.n).foldl (fun s _ => s.clientCredit f cl f.size false) s

theorem CacheKept.creditSites (s : State) (f : Field) (cl : Client) : CacheKept s (s.creditSites f cl) :=
  foldl_keeps (P := CacheKept s) (.refl s) fun t _ h => h.trans (.clientCredit t ..)

section
variable {s : State} {f : Field} {m : Move}

theorem State.mem_broughtIn {n : Nat} : n ∈ s.broughtIn f m ↔ n ∈ s.fieldCells (f.moved m) ∧ n ∉ s.fieldCells f := by simp [State.broughtIn]

section
variable (field : s.field? f.launch f.team f.handle = some f) (move : f.move = some m) (due : m.b ≤ f.phase)
  (copied : ∀ x ∈ f.snaps, x.marked = none) (placed : s.fieldPlaced f = true)
include field move due copied placed

/-- A move at its boundary. -/
theorem State.fieldMove_eq : s.fieldMove f.launch f.team f.handle = some (
    if s.moveFails f m then (s.putField { f with move := none }).clientCredit f m.client (f.n * f.size) true
    else ((s.rebound f m).eachCell Cell.acquireDrop (s.broughtIn f m)).creditSites f m.client) := by
  have moving : f.moving = true := by
    unfold Field.moving
    rw [move]
    exact decide_eq_true due
  have marks : (f.snaps.any fun x => x.marked.isSome) = false := by simpa using copied
  unfold State.fieldMove
  rw [field, Option.bind_some, move]
  dsimp only
  rw [if_neg (by simp [moving, placed, marks])]
  cases fails : s.moveFails f m
  · exact if_neg (c := s.moveFails f m = true) (by simp [fails])
  · exact if_pos (c := s.moveFails f m = true) fails

theorem exec_fieldMove_refused (bad : s.moveFails f m = true) : ∃ t, exec (.fieldMove f.launch f.team f.handle) s = .next t ∧
    CacheKept (s.putField { f with move := none }) t := by
  have moves := State.fieldMove_eq field move due copied placed
  rw [if_pos bad] at moves
  exact ⟨_, next_getD moves, .clientCredit ..⟩

/-- The cells brought in acquire once their sweep harts are bound, and credits come behind: no CACHE but theirs is new. -/
theorem exec_fieldMove_made (hn : Numbered s) (good : s.moveFails f m = false) : ∃ t, exec (.fieldMove f.launch f.team f.handle) s = .next t ∧
    CellsOnly (s.putField (f.moved m)) t ∧ (∀ n ∈ s.broughtIn f m, RegisteredOnly (t.cellAt n)) ∧
    ∀ n, n ∉ s.broughtIn f m → (t.cellAt n).cache = (s.cellAt n).cache := by
  let u : State := s.rebound f m
  have moves := State.fieldMove_eq field move due copied placed
  rw [if_neg (by simp [good])] at moves
  have numbered : Numbered (s.putField (f.moved m)) := hn
  have bound : CacheKept (s.putField (f.moved m)) u := (CacheKept.bindSweeps ..).trans (.bindSweeps ..)
  have hu : Numbered u := bound.numbered numbered
  have acquires : CellsOnly u (u.eachCell Cell.acquireDrop (s.broughtIn f m)) := .eachCell ..
  have credited := CacheKept.creditSites (u.eachCell Cell.acquireDrop (s.broughtIn f m)) f m.client
  refine ⟨_, next_getD moves, (bound.toCellsOnly.trans acquires).trans credited.toCellsOnly, fun n new => ?_, fun n out => ?_⟩
  · obtain ⟨e, acquired⟩ := State.cellAt_eachCell_inside hu (g := Cell.acquireDrop) (fun _ => rfl) new
    unfold RegisteredOnly
    rw [credited.cache (acquires.numbered hu), acquired]
    exact RegisteredOnly.acquireDrop e
  · rw [credited.cache (acquires.numbered hu), State.cellAt_eachCell_outside hu (g := Cell.acquireDrop) (fun _ => rfl) out]
    exact bound.cache numbered n

end
end

end Sys2Proof.Machine

namespace Sys2Proof.Machine

/-! ## O49: sites copied and written back (R93, R94, R97) -/

/-- A site's value as a store for a client. -/
def Field.siteRec (f : Field) (cl : Client) (va i : Nat) : StoreRec := ⟨va, leBytes f.size (f.value i), [], .weak, .cell, [], cl.level⟩

/-- The place of a site in its field's initial image. -/
def Field.home (f : Field) (i : Nat) : Nat := (f.init + i * f.size) % 2 ^ 64

theorem Field.size_pos (f : Field) : 1 ≤ f.size := by
  unfold Field.size siteSize
  repeat' split
  all_goals decide

section
variable {s t : State} {f : Field} {cl : Client} {asid va i : Nat}

/-- What a line takes of a store hangs on no cell. -/
theorem Takes.of_cellsOnly {d : Nat} {r : StoreRec} (h : Takes s d asid r) (only : CellsOnly s t) : Takes t d asid r := by
  obtain ⟨ha, low, fits, l, line, may, len, yields⟩ := h
  have gen : t.gen asid = s.gen asid := by unfold State.gen; rw [only.mem]
  exact ⟨ha, low, fits, l, by rw [gen, State.line?_of_mem only.mem, line], may, len, yields.of_coh only.coh (by rw [only.net])⟩

/-- A line that a client may store into, and that its die may have, takes a site. -/
theorem Takes.siteRec {o : OLine} (space : asid ≠ 0) (low : va < 2 ^ 55) (inside : va % 128 + f.size ≤ 128)
    (line : s.line? ⟨asid, s.gen asid, va / 128⟩ = some o) (may : o.perm.allows cl.level .store = true) (len : o.data.length = 128)
    (settled : Settled s o.key) (own : Ownable s (dieOf cl.cell) o.key) : Takes s (dieOf cl.cell) asid (f.siteRec cl va i) :=
  ⟨space, low, by simpa [Field.siteRec] using inside, o, line, may, len, .inr ⟨settled, own⟩⟩

/-- A site whose line takes it is stored, and its size credited. -/
theorem siteStore_stores (hn : Numbered s) (space : s.asidOf f.launch = asid) (takes : Takes s (dieOf cl.cell) asid (f.siteRec cl va i)) :
    ∃ w, s.siteStore f cl va i = some (w.clientCredit f cl f.size false) ∧ CachesOnly s w ∧
      Machine.onDie w = stored asid va f.size (f.value i) (onDie s) ∧ ∀ q, Takes s (dieOf cl.cell) asid q → Takes w (dieOf cl.cell) asid q := by
  obtain ⟨l, place⟩ := takes.place
  obtain ⟨w, performed, caches, -, die, kept⟩ := takes.performRec (who := .cell cl.cell) fun n _ => hn.cellAt_no n
  have fits : va % 128 + f.size ≤ 128 := by
    obtain ⟨-, -, inside, -⟩ := takes
    simpa [Field.siteRec] using inside
  have piece := linePieces_line fits f.size_pos
  have probed : s.probe asid cl.level [(va, f.size)] = (none, s) := by
    unfold State.probe
    rw [show s.storeAt asid cl.level va = (.ok (.line l), s) from place]
    rfl
  have written : s.writeGlobal (.cell cl.cell) asid cl.level va (leBytes f.size (f.value i)) = (.ok (), w) := by
    unfold State.writeGlobal
    rw [length_leBytes, piece, List.foldl_cons, List.foldl_nil]
    dsimp only
    rw [List.take_of_length_le (length_leBytes ..).le]
    exact performed
  refine ⟨w, ?_, caches, ?_, kept⟩
  · unfold State.siteStore
    dsimp only
    rw [space, piece, probed]
    dsimp only
    rw [written]
  · rw [← laid_leBytes asid va f.size (f.value i) [] .weak .cell [] cl.level]
    exact funext fun a => funext fun x => die a x

/-- Sites whose lines take them are stored in order, each credited. -/
theorem siteStores_store (addr : Nat → Nat) (is : List Nat) : ∀ {s : State}, Numbered s → s.asidOf f.launch = asid →
    (∀ i ∈ is, Takes s (dieOf cl.cell) asid (f.siteRec cl (addr i) i)) →
    ∃ t, is.foldl (fun r i => r.bind fun s => s.siteStore f cl (addr i) i) (some s) = some t ∧ t.fields = s.fields ∧
      onDie t = is.foldl (fun g i => stored asid (addr i) f.size (f.value i) g) (onDie s) := by
  induction is with
  | nil => exact fun _ _ _ => ⟨_, rfl, rfl, rfl⟩
  | cons i is ih =>
    intro s hn space takes
    obtain ⟨w, first, caches, die, kept⟩ := siteStore_stores hn space (takes i (List.mem_cons_self ..))
    have credited : CellsOnly w (w.clientCredit f cl f.size false) := .clientCredit ..
    have space' : (w.clientCredit f cl f.size false).asidOf f.launch = asid := by
      rw [← space]
      unfold State.asidOf State.launch?
      rw [credited.launches, caches.launches]
    obtain ⟨t, rest, fields, onDie_⟩ := ih (credited.numbered (caches.numbered hn)) space' fun j hj =>
      (kept _ (takes j (List.mem_cons_of_mem _ hj))).of_cellsOnly credited
    refine ⟨t, ?_, fields.trans (credited.fields.trans caches.fields), ?_⟩
    · rw [List.foldl_cons, Option.bind_some, first]
      exact rest
    · rw [onDie_, credited.onDie, die, List.foldl_cons]

/-- The client's object takes the credit of a site, behind stores that touch no cell but its CACHE. -/
theorem CachesOnly.credits (caches : CachesOnly s t) (hn : Numbered s) (fits : cl.obj + 16 ≤ (s.cellAt cl.cell).localSize)
    (serves : s.clientServes cl f.launch f.team = true) (n : Nat) (bad : Bool) :
    Credited (s.cellAt cl.cell) ((t.clientCredit f cl n bad).cellAt cl.cell) cl.obj n bad := by
  have cold := caches.cells cl.cell
  have serving : (t.cellAt cl.cell).serving = (s.cellAt cl.cell).serving := by
    have same := congrArg Cell.serving cold
    exact same
  have size : (t.cellAt cl.cell).localSize = (s.cellAt cl.cell).localSize := by
    have same := congrArg Cell.localSize cold
    exact same
  have serves' : t.clientServes cl f.launch f.team = true := by
    unfold State.clientServes at *
    rwa [serving]
  have credit : Credited (t.cellAt cl.cell).cold ((t.cellAt cl.cell).credit cl.obj n bad) cl.obj n bad :=
    (Cell.credit_credits (t.cellAt cl.cell) cl.obj n bad (size ▸ fits)).1
  unfold State.clientCredit
  rw [if_pos serves', (caches.numbered hn).cellAt_putCell (Cell.credit_no ..)]
  rw [cold] at credit
  exact credit

/-- The one site that a field's one snapshot marks is copied, and the snapshot is done. -/
theorem exec_backgroundCopy {c : Nat} {x : Snap} (hn : Numbered s) (field : s.field? f.launch f.team f.handle = some f) (here : s.cellField c = some f)
    (one : f.snaps = [x]) (marked : x.marked = some [i]) (home : (s.fieldCells f).getD (f.siteHome i).1 0 = c) (space : s.asidOf f.launch = asid)
    (takes : Takes s (dieOf x.client.cell) asid (f.siteRec x.client ((x.buf + i * f.size) % 2 ^ 64) i))
    (fits : x.client.obj + 16 ≤ (s.cellAt x.client.cell).localSize) (serves : s.clientServes x.client f.launch f.team = true) :
    ∃ t, exec (.backgroundCopy c) s = .next t ∧ t.fields = (s.putField { f with snaps := [] }).fields ∧
      onDie t = stored asid ((x.buf + i * f.size) % 2 ^ 64) f.size (f.value i) (onDie s) ∧
      Credited (s.cellAt x.client.cell) (t.cellAt x.client.cell) x.client.obj f.size false := by
  obtain ⟨w, stores, caches, die, -⟩ := siteStore_stores hn space takes
  let v : State := w.clientCredit f x.client f.size false
  have only : CellsOnly w v := .clientCredit ..
  have fields : v.fields = s.fields := only.fields.trans caches.fields
  have found : v.field? f.launch f.team f.handle = some f := by
    unfold State.field? at *
    rwa [fields]
  have mark : s.markedOn f c = some (x, i) := by
    unfold State.markedOn
    dsimp only
    rw [one, List.findSome?_cons, marked, Option.getD_some, List.find?_cons_of_pos (by rw [home]; exact beq_self_eq_true c)]
    rfl
  have copies : s.background c = some (v.putField { f with snaps := [] }) := by
    unfold State.background State.copyMark
    rw [here, Option.bind_some, mark, Option.bind_some, stores, Option.map_some]
    dsimp only
    rw [found]
    simp [one, marked, v]
  refine ⟨_, next_getD copies, ?_, only.onDie.trans die, caches.credits hn fits serves f.size false⟩
  unfold State.putField
  rw [fields]

/-- A field with no snapshot and no move pending is gone: its handle is free. -/
theorem State.dropField_only (snaps : f.snaps = []) (move : f.move = none) :
    CellsOnly { s with fields := s.fields.filter fun g => !f.same g } (s.dropField f) := by
  unfold State.dropField
  dsimp only
  rw [snaps, move]
  exact (CellsOnly.bindSweeps ..).trans (.mapTeam ..)

/-- Every site of a field that ends is written back, and the field is gone. -/
theorem exec_fieldWriteBack (hn : Numbered s) (field : s.field? f.launch f.team f.handle = some f) (stop : f.stop = some cl) (ending : f.st = .ending)
    (move : f.move = none) (snaps : f.snaps = []) (placed : s.fieldPlaced f = true) (space : s.asidOf f.launch = asid)
    (takes : ∀ i < f.n, Takes s (dieOf cl.cell) asid (f.siteRec cl (f.home i) i)) :
    ∃ t, exec (.fieldWriteBack f.launch f.team f.handle) s = .next t ∧ t.fields = s.fields.filter (fun x => !f.same x) ∧
      onDie t = (List.range f.n).foldl (fun g i => stored asid (f.home i) f.size (f.value i) g) (onDie s) := by
  obtain ⟨t, stores, fields, die⟩ := siteStores_store (cl := cl) f.home (List.range f.n) hn space fun i hi => takes i (List.mem_range.1 hi)
  have only := State.dropField_only (s := t) snaps move
  have ends : s.writeBackField f.launch f.team f.handle = some (t.dropField f) := by
    unfold State.writeBackField
    rw [field, Option.bind_some, stop]
    dsimp only
    rw [if_neg (by simp [ending, placed, snaps, Field.moving, move])]
    exact congrArg (Option.map fun s => s.dropField f) stores
  refine ⟨_, next_getD ends, only.fields.trans (congrArg _ fields), only.onDie.trans die⟩

end

/-- Settles O49: each request by what its field answers, and each step of a field by the lemma about its own effect. -/
theorem fieldEvents : Obligations.FieldEvents := by
  unfold Obligations.FieldEvents
  intro s f l hn field launch
  refine ⟨?_, fun r rs a asks answer sent serves => exec_fieldAnswer hn asks answer sent serves, ?_, ?_, ?_, ?_⟩
  · intro r one waits hl ht hh
    have field' : s.field? r.launch r.team r.handle = some f := by rw [hl, ht, hh, field]
    have launch' : s.launch? r.launch = some l := by rw [hl, launch]
    refine ⟨serve_start one waits field' launch', serve_start_narrow one waits field' launch', serve_pause one waits field' launch',
      fun ask idle commit snaps => ?_, fun ask sweeps commit snaps => ?_, serve_phase one waits field' launch',
      fun _ _ => serve_snap_stopped one waits field' launch', fun _ _ => serve_snap_late one waits field' launch',
      fun _ _ => serve_snap one waits field' launch', fun _ => serve_cplc one waits field' launch',
      fun _ _ => serve_mig_refused one waits field' launch', fun _ _ => serve_mig one waits field' launch'⟩
    · have stopped := serve_stop one waits field' launch' ask (by simp [Field.stops, idle]) commit snaps
      rwa [idle] at stopped
    · have stopped := serve_stop one waits field' launch' ask (by simp [Field.stops, sweeps]) commit snaps
      rwa [sweeps] at stopped
  · intro c i k here sweeps still counter next parked below
    obtain ⟨t, run, fields, mem, hand, others⟩ := exec_spindleHand hn launch here sweeps still counter next parked
    have slots {j : Nat} (hj : j < 8) := Hart.S_handSite (s.hartAt c k) f l i (f.counterBlock i f.sweep 0) s.tbase below hj
    refine ⟨t, run, fields, mem, others, ?_⟩
    rw [hand]
    exact ⟨rfl, rfl, rfl, rfl, slots (j := 0) (by decide), slots (j := 1) (by decide), slots (j := 3) (by decide), slots (j := 4) (by decide),
      slots (j := 5) (by decide), slots (j := 6) (by decide), slots (j := 7) (by decide)⟩
  · intro sweeps todo handed still
    have only : CellsOnly (s.putField f.advance) (((s.putField f.advance).switched f).mapTeam f.launch f.team fun h => h.fieldAt f.handle (f.phase + 1)) :=
      ((s.putField f.advance).switched_only f).trans (.mapTeam ..)
    obtain ⟨acquired, cache, loc, hart, team⟩ := hn.advanced f
    refine ⟨_, next_getD (State.phaseBarrier_eq field sweeps todo handed still), only.mem, only.launches, ?_, acquired, cache, loc, hart,
      fun u _ _ n hm k y d a a' st i handle idle => ?_⟩
    · rw [only.fields, Field.advance_eq]
      rfl
    · rw [team n hm k, Hart.fieldAt_waits st i handle idle]
  · intro m move due copied placed g bad
    cases fails : s.moveFails f m with
    | true =>
      have refused : bad = true := fails
      obtain ⟨t, run, kept⟩ := exec_fieldMove_refused field move due copied placed fails
      refine ⟨t, run, kept.mem, kept.fields.trans ?_, fun n => ⟨fun ⟨made, _⟩ => absurd (made.symm.trans refused) (by decide), fun _ => kept.cache hn n⟩⟩
      rw [if_pos refused]
      rfl
    | false =>
      have made : bad = false := fails
      obtain ⟨t, run, only, acquired, kept⟩ := exec_fieldMove_made field move due copied placed hn fails
      refine ⟨t, run, only.mem, only.fields.trans ?_, fun n => ⟨fun ⟨_, new, old⟩ => acquired n (State.mem_broughtIn.2 ⟨new, old⟩),
        fun out => kept n fun brought => ?_⟩⟩
      · rw [if_neg (by simp [made])]
        rfl
      · obtain ⟨new, old⟩ := State.mem_broughtIn.1 brought
        rcases out with refused | out | stays
        exacts [absurd (made.symm.trans refused) (by decide), out new, old stays]
  · refine ⟨fun c x i here one marked home served _ fits serves => ?_, fun cl stop ending move snaps placed served => ?_⟩
    · obtain ⟨low, inside, space, o, line, may, len, settled, own⟩ := served
      obtain ⟨t, run, fields, die, credited⟩ := exec_backgroundCopy hn field here one marked home rfl
        (.siteRec space low inside line may len settled own) fits serves
      exact ⟨t, run, fields, fun a va => congrFun (congrFun die a) va, credited⟩
    · have takes (i : Nat) (hi : i < f.n) : Takes s (dieOf cl.cell) (s.asidOf f.launch) (f.siteRec cl (f.home i) i) := by
        obtain ⟨low, inside, space, o, line, may, len, settled, own⟩ := served i hi
        exact .siteRec space low inside line may len settled own
      obtain ⟨t, run, fields, die⟩ := exec_fieldWriteBack hn field stop ending move snaps placed rfl takes
      exact ⟨t, run, fields, fun a va => congrFun (congrFun die a) va⟩

end Sys2Proof.Machine

namespace Sys2Proof.Machine

/-! ## O23: the arithmetic of barrier objects (R113, R114) -/

/-- A field set reads back. -/
theorem extractLsb'_setField (x : Word) (v : Nat) {s n : Nat} (hs : s + n ≤ 64) : (setField x s n v).extractLsb' s n = BitVec.ofNat n v := by
  refine BitVec.eq_of_getLsbD_eq fun i hi => ?_
  rw [BitVec.getLsbD_extractLsb', getLsbD_setField x s n v (by omega), if_pos (by omega), BitVec.getLsbD_ofNat, Nat.add_sub_cancel_left]

/-- A field apart from the one that is set stays. -/
theorem extractLsb'_setField_apart (x : Word) (v : Nat) {s n p m : Nat} (hp : p + m ≤ 64) (apart : p + m ≤ s ∨ s + n ≤ p) :
    (setField x s n v).extractLsb' p m = x.extractLsb' p m := by
  refine BitVec.eq_of_getLsbD_eq fun i hi => ?_
  rw [BitVec.getLsbD_extractLsb', BitVec.getLsbD_extractLsb', getLsbD_setField x s n v (by omega), if_neg (by omega)]

theorem fieldOf_setField (x : Word) {s n v : Nat} (hs : s + n ≤ 64) (hv : v < 2 ^ n) : fieldOf (setField x s n v) s n = v := by
  rw [← fieldOf_extract, extractLsb'_setField x v hs, BitVec.toNat_ofNat, Nat.mod_eq_of_lt hv]

theorem fieldOf_setField_apart (x : Word) (v : Nat) {s n p m : Nat} (hp : p + m ≤ 64) (apart : p + m ≤ s ∨ s + n ≤ p) :
    fieldOf (setField x s n v) p m = fieldOf x p m := by
  rw [← fieldOf_extract, extractLsb'_setField_apart x v hp apart, fieldOf_extract]

/-- The first word of an object is its two counts. -/
theorem toNat_eq_counts (w : Word) : w.toNat = fieldOf w 0 32 + fieldOf w 32 32 * 2 ^ 32 := by
  have := w.isLt
  unfold fieldOf
  omega

/-- The second word of an object whose phase turns (R114). -/
def turnedWord (w1 : Word) : Word := setField (setField w1 0 1 (1 - fieldOf w1 0 1)) 32 16 0

theorem turnedWord_phase (w1 : Word) : (turnedWord w1).getLsbD 0 = !w1.getLsbD 0 := by
  have bit : fieldOf w1 0 1 = 0 ∨ fieldOf w1 0 1 = 1 := by have := fieldOf_lt w1 0 1; omega
  rw [turnedWord, getLsbD_setField _ _ _ _ (by decide), if_neg (by decide), getLsbD_setField _ _ _ _ (by decide), if_pos (by decide), getLsbD_zero]
  rcases bit with h | h <;> rw [h] <;> rfl

theorem turnedWord_waiters (w1 : Word) : (turnedWord w1).extractLsb' 32 16 = 0 := extractLsb'_setField _ 0 (by decide)

/-- A turn touches nothing of the second word but the phase and the waiters. -/
theorem turnedWord_kept (w1 : Word) {p m : Nat} (hp : p + m ≤ 64) (out : 1 ≤ p ∧ p + m ≤ 32 ∨ 48 ≤ p) :
    (turnedWord w1).extractLsb' p m = w1.extractLsb' p m := by
  rw [turnedWord, extractLsb'_setField_apart _ _ hp (by omega), extractLsb'_setField_apart _ _ hp (by omega)]

section
variable {w0 w1 : Word}

theorem settleWords_met (some_ : fieldOf w0 0 32 ≠ 0) (met : fieldOf w0 0 32 ≤ fieldOf w0 32 32) :
    (settleWords w0 w1).1.toNat = (fieldOf w0 32 32 - fieldOf w0 0 32) * 2 ^ 32 ∧ (settleWords w0 w1).2 = turnedWord w1 := by
  have lt := fieldOf_lt w0 32 32
  unfold settleWords
  rw [if_pos (by simp [some_, met])]
  refine ⟨?_, rfl⟩
  rw [toNat_eq_counts, fieldOf_setField _ (by decide) (by decide), fieldOf_setField_apart _ _ (by decide) (by decide),
    fieldOf_setField _ (by decide) (by omega), Nat.zero_add]

theorem settleWords_short (short : fieldOf w0 0 32 = 0 ∨ fieldOf w0 32 32 < fieldOf w0 0 32) : settleWords w0 w1 = (w0, w1) := by
  unfold settleWords
  refine if_neg ?_
  simp only [Bool.and_eq_true, bne_iff_ne, decide_eq_true_eq]
  omega

/-- Whether or not the phase turns, the fields of the second word outside the phase and the waiters are as before. -/
theorem settleWords_kept (w0 w1 : Word) {p m : Nat} (hp : p + m ≤ 64) (out : 1 ≤ p ∧ p + m ≤ 32 ∨ 48 ≤ p) :
    (settleWords w0 w1).2.extractLsb' p m = w1.extractLsb' p m := by
  by_cases met : fieldOf w0 0 32 ≠ 0 ∧ fieldOf w0 0 32 ≤ fieldOf w0 32 32
  · rw [(settleWords_met met.1 met.2).2, turnedWord_kept w1 hp out]
  · rw [settleWords_short (by omega)]

end

/-- The second word with one more error counted, where a credit is bad. -/
def countedWord (bad : Bool) (w1 : Word) : Word := if bad then setField w1 16 16 (Nat.min (fieldOf w1 16 16 + 1) 0xFFFF) else w1

theorem countedWord_errors (bad : Bool) (w1 : Word) :
    fieldOf (countedWord bad w1) 16 16 = if bad then min (fieldOf w1 16 16 + 1) 0xFFFF else fieldOf w1 16 16 := by
  unfold countedWord
  split
  · exact fieldOf_setField w1 (by decide) (Nat.lt_of_le_of_lt (Nat.min_le_right _ _) (by decide))
  · rfl

/-- The count of errors alone is new. -/
theorem countedWord_kept (bad : Bool) (w1 : Word) {p m : Nat} (hp : p + m ≤ 64) (out : p + m ≤ 16 ∨ 32 ≤ p) :
    (countedWord bad w1).extractLsb' p m = w1.extractLsb' p m := by
  unfold countedWord
  split
  · exact extractLsb'_setField_apart w1 _ hp out
  · rfl

theorem countedWord_phase (bad : Bool) (w1 : Word) : (countedWord bad w1).getLsbD 0 = w1.getLsbD 0 := by
  have same := congrArg BitVec.toNat (countedWord_kept bad w1 (p := 0) (m := 1) (by decide) (by decide))
  rw [fieldOf_extract, fieldOf_extract] at same
  rw [getLsbD_zero, getLsbD_zero, same]

/-- Settles O23: the counts that `settleWords` compares are those that an expectation or a credit has set; what is no field of the step stays. -/
theorem barrierArithmetic : Obligations.BarrierArithmetic := by
  unfold Obligations.BarrierArithmetic
  intro w0 w1 n bad e r e' r' errors x c turned
  have he : fieldOf w0 0 32 = e := fieldOf_zero w0 32
  have hr : fieldOf w0 32 32 = r := Nat.mod_eq_of_lt (by have := w0.isLt; omega)
  have errs : fieldOf w1 16 16 = errors := (fieldOf_extract w1 16 16).symm
  have turns (v : Word) : turned (turnedWord v) ↔ (!v.getLsbD 0) = !w1.getLsbD 0 := by
    simp only [turned, turnedWord_phase, turnedWord_waiters, and_true]
  -- The first words that are settled, by their counts.
  have xe : fieldOf (setField w0 0 32 e') 0 32 = e' := fieldOf_setField w0 (by decide) (by omega)
  have xr : fieldOf (setField w0 0 32 e') 32 32 = r := (fieldOf_setField_apart w0 _ (by decide) (by decide)).trans hr
  have ce : fieldOf (setField w0 32 32 r') 0 32 = e := (fieldOf_setField_apart w0 _ (by decide) (by decide)).trans he
  have cr : fieldOf (setField w0 32 32 r') 32 32 = r' := fieldOf_setField w0 (by decide) (by omega)
  have hx : x = settleWords (setField w0 0 32 e') w1 := by
    change settleWords (setField w0 0 32 (min (fieldOf w0 0 32 + n) 0xFFFFFFFF)) w1 = _
    rw [he]
  have hc : c = settleWords (setField w0 32 32 r') (countedWord bad w1) := by
    change settleWords (setField w0 32 32 (min (fieldOf w0 32 32 + n) 0xFFFFFFFF)) (countedWord bad w1) = _
    rw [hr]
  have xkept {p m : Nat} (hp : p + m ≤ 64) (out : 1 ≤ p ∧ p + m ≤ 32 ∨ 48 ≤ p) : x.2.extractLsb' p m = w1.extractLsb' p m := by
    rw [hx, settleWords_kept _ _ hp out]
  have ckept {p m : Nat} (hp : p + m ≤ 64) (out : 1 ≤ p ∧ p + m ≤ 32 ∨ 48 ≤ p) :
      c.2.extractLsb' p m = (countedWord bad w1).extractLsb' p m := by rw [hc, settleWords_kept _ _ hp out]
  refine ⟨fun some_ met => ?_, fun short => ?_, fun some_ met => ?_, fun short => ?_, ?_, xkept (by decide) (by decide), ?_, xkept (by decide) (by decide), ?_⟩
  · obtain ⟨counts, second⟩ := settleWords_met (w1 := w1) (xe ▸ some_) (xe.symm ▸ xr.symm ▸ met)
    rw [← hx] at counts second
    refine ⟨by rw [counts, xe, xr], ?_, congrArg BitVec.toNat (xkept (by decide) (by decide))⟩
    rw [second, turns]
  · rw [hx, settleWords_short (.inr (by rwa [xe, xr]))]
    exact ⟨by rw [toNat_eq_counts, xe, xr], rfl⟩
  · obtain ⟨counts, second⟩ := settleWords_met (w1 := countedWord bad w1) (ce ▸ some_) (ce.symm ▸ cr.symm ▸ met)
    rw [← hc] at counts second
    refine ⟨by rw [counts, ce, cr], ?_⟩
    rw [second, turns, countedWord_phase]
  · rw [hc, settleWords_short (by rwa [ce, cr])]
    exact ⟨by rw [toNat_eq_counts, ce, cr], countedWord_phase bad w1, countedWord_kept bad w1 (by decide) (by decide)⟩
  · rw [ckept (by decide) (by decide), fieldOf_extract, countedWord_errors, errs]
  · exact (ckept (by decide) (by decide)).trans (countedWord_kept bad w1 (by decide) (by decide))
  · exact (ckept (by decide) (by decide)).trans (countedWord_kept bad w1 (by decide) (by decide))

end Sys2Proof.Machine

namespace Sys2Proof.Machine

/-! ## O25: a load whose miss is under way does not look at CACHE again (R19, R106) -/

/-- The load of the word at address 0. -/
def zeroLoad : Instr := .ld .x64 1 ⟨0, none, 0⟩

/-- A launch in address space 5. -/
def cachedLaunch : Launch :=
  { id := 1, desc := [], asid := 5, lead := 0, lw := 0, lh := 0, prio := 0, nres := 16, wsize := 8192, teams := [], nodes := [], next := 0, pointer := 0,
    age := 0, ring := [], written := 0, heldRecs := [], spills := 0, gangWait := false, drained := false, ended := false }

/-- A cell of that launch whose harts wait for miss 7 of the load, while CACHE has come to hold the load's line, all of its bytes 7. -/
def lateReader : State :=
  let waiting : Hart := { Hart.resident 8192 (viewsReset 8192) 0x1000 0x2000 with st := .wait .data, winstr := some zeroLoad, asks := [7] }
  let line : CLine := ⟨⟨5, 0, 0⟩, List.replicate 128 7, zeros 4, ⟨true, true, true, true⟩, false, BitVec.allOnes 16, 0⟩
  { State.reset with
    cell := { Cell.reset 0 with serving := some ⟨1, 0, 0, 0⟩, nres := 16, harts := Vector.replicate 16 waiting, cache := [line] }
    launches := [cachedLaunch] }

/-- The hart stays in its wait: its miss has not been answered. -/
theorem lateReader_waits : exec zeroLoad lateReader = .next lateReader := rfl

/-- Refutes O25: a hart whose load has missed waits for the miss, and goes on waiting where CACHE comes to hold the line meanwhile, as it does for the miss
of another hart: nothing in the statement says that the hart has no miss under way. -/
theorem not_loadsFromCache : ¬ Obligations.LoadsFromCache := by
  unfold Obligations.LoadsFromCache
  intro h
  obtain ⟨scalar, -⟩ := h lateReader .x64 .x64 .w8 1 0 0 ⟨0, none, 0⟩ 0 (by decide)
  obtain ⟨t, run, -, ⟨goes, -⟩, -⟩ := scalar (List.replicate 8 7) [0] (by decide) ⟨by decide, false, by decide⟩
  obtain rfl := Host.Outcome.next.inj (lateReader_waits.symm.trans run)
  exact absurd goes (by decide)

end Sys2Proof.Machine

namespace Sys2Proof.Machine

/-! ## O22: full/empty words (R71, R103, R116, R198 to R200) -/

theorem Hart.setTry_eq (h : Hart) (tr ok : Bool) : h.setTry tr ok = { h with fetry := if tr then flagWord ok else h.fetry } := by
  cases tr <;> rfl

/-- A hart that completes with `fetry` and a scalar written; s0 takes nothing. -/
theorem Hart.completed_setTry (h : Hart) (tr ok : Bool) (d : Reg) (v : Word) : let g := ((h.setTry tr ok).setS d v).complete
    (WentOn h g ∧ SpecialsKept h g ∧ g.fflags = h.fflags ∧ g.rngs = h.rngs) ∧ g.fetry = (if tr then flagWord ok else h.fetry) ∧
      WroteScalar h g d v := by
  obtain ⟨-, specials, ⟨fflags, rngs, fetry⟩, wrote⟩ := (h.setTry tr ok).completed_setS d v
  rw [Hart.setTry_eq] at specials fflags rngs fetry wrote ⊢
  exact ⟨⟨.of_same (by simp), specials, fflags, rngs⟩, fetry, wrote⟩

/-- Whether a hart's wait has ended is nothing that its completion keeps. -/
theorem Hart.complete_awoken (h : Hart) (w : Bool) : { h with woken := w }.complete = h.complete := rfl

/-! ### State bits -/

theorem fullBit_of_locSb {c e : Cell} (h : e.locSb = c.locSb) (y : Nat) : fullBit e y = fullBit c y := by unfold fullBit; rw [h]

/-- A state bit set or cleared among the four of a granule is as it is said, and the other three stay. -/
theorem stateBit_changed : ∀ a < 16, ∀ i < 4, ∀ b : Bool, a.testBit i = !b → ∀ j < 4,
    (BitVec.ofNat 8 (if b then a + 2 ^ i else a - 2 ^ i)).getLsbD j = if j = i then b else a.testBit j := by decide

/-- The state bit of a word is as it is set, and every other word's stays. -/
theorem Cell.fullBit_setFull (e : Cell) (o : Nat) (b : Bool) (y : Nat) : fullBit (e.setFull o b) y = if y / 8 = o / 8 then b else fullBit e y := by
  have index : o % 32 / 8 = o / 8 % 4 := by omega
  have low (j : Nat) (hj : j < 4) : ((e.lsb o).toNat % 16).testBit j = (e.lsb o).getLsbD j := by
    rw [show (16 : Nat) = 2 ^ 4 by rfl, Nat.testBit_mod_two_pow, decide_eq_true hj, Bool.true_and]
    rfl
  have same (h : y / 8 = o / 8) : fullBit e y = fullBit e o := by
    unfold fullBit
    rw [show y / 32 = o / 32 by omega, h]
  unfold Cell.setFull
  rw [Cell.full_eq]
  split
  · next now =>
    split
    · next h => rw [same h, beq_iff_eq.1 now]
    · rfl
  · next now =>
    have was : ((e.lsb o).toNat % 16).testBit (o / 8 % 4) = !b := by
      rw [low _ (Nat.mod_lt _ (by decide))]
      have ne : (e.lsb o).getLsbD (o / 8 % 4) ≠ b := fun h => now (beq_iff_eq.2 h)
      cases b <;> simpa using ne
    by_cases granule : y / 32 = o / 32
    · simp only [fullBit, Mem.byte_put, granule, if_true, index]
      rw [stateBit_changed _ (Nat.mod_lt _ (by decide)) _ (Nat.mod_lt _ (by decide)) b was _ (Nat.mod_lt _ (by decide)),
        low _ (Nat.mod_lt _ (by decide))]
      by_cases h : y / 8 = o / 8
      · rw [if_pos (by rw [h]), if_pos h]
      · rw [if_neg (by omega), if_neg h, Cell.lsb]
    · rw [if_neg (by omega)]
      simp only [fullBit, Mem.byte_put, if_neg granule]

theorem Cell.setFull_setHart (e : Cell) (k : Slot) (h : Hart) (o : Nat) (b : Bool) : (e.setHart k h).setFull o b = (e.setFull o b).setHart k h := by
  unfold Cell.setFull
  split
  · next now => rw [if_pos (show (e.full o == b) = true from now)]
  · next now => rw [if_neg (show ¬ (e.full o == b) = true from now)]; rfl

theorem Cell.setFull_self {e : Cell} {o : Nat} {b : Bool} (h : fullBit e o = b) : e.setFull o b = e := by
  unfold Cell.setFull
  rw [if_pos (by rw [Cell.full_eq, h, beq_self_eq_true])]

/-! ### What an access leaves -/

/-- Which bytes belong to waiters words depends on what the harts await alone. -/
theorem awaited_congr {c e : Cell} (h : ∀ k, (e.hart k).awaits = (c.hart k).awaits) (y : Nat) : Awaited e y ↔ Awaited c y := by
  unfold Awaited
  simp only [h]

/-- The access completes: of the module nothing but LOCAL, its sideband and the issuing hart is new, and of the state bits none but the word's own. -/
def WordKept (s t : State) (x : Nat) (after : Bool) : Prop :=
  OnlyLocal s t ∧ WentOn s.hart t.hart ∧ SpecialsKept s.hart t.hart ∧ t.hart.fflags = s.hart.fflags ∧ t.hart.rngs = s.hart.rngs ∧
    fullBit t.cell x = after ∧ ∀ y, y / 8 ≠ x / 8 → fullBit t.cell y = fullBit s.cell y

section
variable {s : State} {no : Nat}

/-- An access that leaves the word's state bit at `b`, writes no byte of LOCAL, and completes with `fetry` and a scalar written. -/
theorem wordKept_setFull (hc : s.cur = .cell no) (x : Nat) (b tr ok : Bool) (d : Reg) (v : Word) :
    let t := (s.mapCell fun c => c.setFull x b).setHart ((s.hart.setTry tr ok).setS d v).complete
    WordKept s t x b ∧ t.hart.fetry = (if tr then flagWord ok else s.hart.fetry) ∧ WroteScalar s.hart t.hart d v ∧ t.cell.loc = s.cell.loc := by
  obtain ⟨⟨went, specials, fflags, rngs⟩, fetry, wrote⟩ := s.hart.completed_setTry tr ok d v
  have cell := Cell.setFull_eq s.cell x b
  have slot : (s.cell.setFull x b).slot = s.cell.slot := by rw [cell]; rfl
  have hart (k : Slot) : (s.cell.setFull x b).hart k = s.cell.hart k := by rw [cell]; rfl
  intro t
  have put : t = { s with cell := (s.cell.setFull x b).setHart s.cell.slot ((s.hart.setTry tr ok).setS d v).complete } := State.setHart_setCell hc slot _
  have bits (y : Nat) : fullBit t.cell y = if y / 8 = x / 8 then b else fullBit s.cell y := by
    rw [← Cell.fullBit_setFull, put]
    exact fullBit_of_locSb rfl y
  have only : OnlyLocal s t := by
    rw [put]
    refine ⟨rfl, ?_, fun k hk => ?_⟩
    · dsimp only; rw [cell]; rfl
    · dsimp only; rw [Cell.hart_setHart_ne _ _ hk, hart]
  have is : t.hart = ((s.hart.setTry tr ok).setS d v).complete := State.hart_setHart ..
  rw [WordKept, is]
  refine ⟨⟨only, went, specials, fflags, rngs, by rw [bits, if_pos rfl], fun y hy => by rw [bits, if_neg hy]⟩, fetry, wrote, ?_⟩
  rw [put]
  dsimp only
  rw [cell]
  rfl

/-- The word stored and its state bit set: as of any store to LOCAL, waiters words and ended waits may be new beside it. -/
theorem wordKept_store (hc : s.cur = .cell no) (x : Nat) (tr : Bool) (v : Word) :
    ∃ t, ((s.mapHart fun h => h.setTry tr true).mapCell fun c => (c.lwrite x (leBytes 8 v.toNat)).setFull x true).finish = .next t ∧
      WordKept s t x true ∧ t.hart.fetry = (if tr then flagWord true else s.hart.fetry) ∧ t.hart.win = s.hart.win ∧
      LocalHolds s.cell t.cell x 8 v.toNat ∧ LocalKept s.cell t.cell x 8 := by
  obtain ⟨⟨went, specials, fflags, rngs⟩, fetry, win, -⟩ := s.hart.completed_setTry tr true 0#8 0
  rw [Hart.setS_zero] at went specials fflags rngs fetry win
  let c := s.cell.setHart s.cell.slot (s.hart.setTry tr true)
  obtain ⟨e, he⟩ : ∃ e, c.lwrite x (leBytes 8 v.toNat) = e := ⟨_, rfl⟩
  have r : Retested { c with loc := c.loc.write x (leBytes 8 v.toNat) } e := he ▸ c.lwrite_retested x _
  have holds : LocalHolds c e x 8 v.toNat := he ▸ c.lwrite_localHolds x 8 v.toNat
  have keeps : LocalKept c e x 8 := he ▸ c.lwrite_localKept x _ (length_leBytes ..)
  have tried : (s.mapHart fun h => h.setTry tr true) = { s with cell := c } := by
    rw [State.mapHart_eq, State.setHart, hc]
  have others {k : Slot} (hk : k ≠ s.cell.slot) : c.hart k = s.cell.hart k := Cell.hart_setHart_ne _ _ hk
  -- An attempt's flag is no part of what a hart awaits.
  have awaits (k : Slot) : (c.hart k).awaits = (s.cell.hart k).awaits := by
    by_cases hk : k = s.cell.slot
    · rw [hk, Cell.hart_setHart, ← State.hart_cell hc, Hart.setTry_eq]; rfl
    · rw [others hk]
  have awaited (y : Nat) : Awaited c y ↔ Awaited s.cell y := awaited_congr awaits y
  have cell := Cell.setFull_eq e x true
  have slot : (e.setFull x true).slot = s.cell.slot := by rw [cell]; exact r.slot
  have hart (k : Slot) : (e.setFull x true).hart k = e.hart k := by rw [cell]; rfl
  have mine : { s with cell := e.setFull x true }.hart.complete = (s.hart.setTry tr true).complete := by
    rw [State.hart_setCell hc slot, hart, r.hart, Hart.complete_awoken]
    exact congrArg Hart.complete (Cell.hart_setHart ..)
  have run : ((s.mapHart fun h => h.setTry tr true).mapCell fun c => (c.lwrite x (leBytes 8 v.toNat)).setFull x true).finish =
      .next ({ s with cell := (e.setFull x true).setHart s.cell.slot (s.hart.setTry tr true).complete }) := by
    rw [tried, ← mine, ← State.setHart_setCell hc slot, ← he]
    rfl
  have is : State.hart { s with cell := (e.setFull x true).setHart s.cell.slot (s.hart.setTry tr true).complete } = (s.hart.setTry tr true).complete :=
    (State.hart_setCell hc (c := (e.setFull x true).setHart s.cell.slot (s.hart.setTry tr true).complete) slot).trans (Cell.hart_setHart ..)
  have bits (y : Nat) : fullBit ((e.setFull x true).setHart s.cell.slot (s.hart.setTry tr true).complete) y =
      if y / 8 = x / 8 then true else fullBit s.cell y := by
    rw [← fullBit_of_locSb (show e.locSb = s.cell.locSb from r.locSb), ← Cell.fullBit_setFull]
    exact fullBit_of_locSb rfl y
  have loc : (e.setFull x true).loc = e.loc := by rw [cell]
  refine ⟨_, run, ?_⟩
  rw [WordKept, is]
  dsimp only
  refine ⟨⟨⟨rfl, ?_, fun k hk => ?_⟩, went, specials, fflags, rngs, by rw [bits, if_pos rfl], fun y hy => by rw [bits, if_neg hy]⟩, fetry, win,
    fun j hj hx => ?_, fun y out hy => ?_⟩
  · dsimp only
    rw [cell, r.cell]
    rfl
  · dsimp only
    rw [Cell.hart_setHart_ne _ _ hk, hart, r.hart, ← others hk]
    rfl
  · exact (congrArg (Mem.byte · _) loc).trans (holds j hj fun h => hx ((awaited _).1 h))
  · exact (congrArg (Mem.byte · _) loc).trans (keeps y out fun h => hy ((awaited _).1 h))

end

/-! ### The accesses of a hart that no failure has reached -/

section
variable {s : State} {no : Nat} {tr need : Bool} {d a : Reg} {off : Word} {i : Instr} {ss : List Reg} {k : Nat → State → Out}
variable (hc : s.cur = .cell no) (v : InView s ss []) (good : ∀ c y, s.hart.check ≠ .failed c y) (al : (s.hart.S a + off).toNat % 8 = 0)
  (fits : (s.hart.S a + off).toNat + 8 ≤ s.cell.localSize)
include hc v good al fits

/-- An access to a word that its checks pass: by the word's state, by whether it is a `.try`, and by whether its hart waits already. -/
theorem fullEmpty_eq : fullEmpty i ss a off tr need k s =
    if fullBit s.cell (s.hart.S a + off).toNat = need then k (s.hart.S a + off).toNat (s.mapHart fun h => h.setTry tr true)
    else if tr then s.done fun h => h.setTry true false
    else if !s.hart.waits .fullEmpty then s.waitOn .fullEmpty i
    else if s.limitPast then s.trap .feLimit (BitVec.ofNat 64 (s.hart.S a + off).toNat)
    else .next s := by
  unfold fullEmpty
  split
  · exact absurd ‹_› (good _ _)
  · refine (withLocal_inside (isCore_focus hc) v al fits).trans ?_
    simp only [Cell.full_eq, beq_iff_eq]

/-- A `.try` that meets the other state completes with `fetry` 0. -/
theorem fullEmpty_refused (other : fullBit s.cell (s.hart.S a + off).toNat ≠ need) (run : exec i s = fullEmpty i ss a off true need k s) :
    ∃ t, exec i s = .next t ∧ WordKept s t (s.hart.S a + off).toNat (fullBit s.cell (s.hart.S a + off).toNat) ∧ t.hart.fetry = 0 ∧
      t.hart.win = s.hart.win ∧ t.cell.loc = s.cell.loc := by
  obtain ⟨kept, fetry, ⟨win, -⟩, loc⟩ := wordKept_setFull hc (s.hart.S a + off).toNat (fullBit s.cell (s.hart.S a + off).toNat) true false 0#8 0
  refine ⟨_, run.trans ?_, kept, fetry, win, loc⟩
  rw [fullEmpty_eq hc v good al fits, if_neg other, if_pos rfl, State.done_eq, Hart.setS_zero]
  exact congrArg (fun c => Host.Outcome.next (State.setHart { s with cell := c } _)) (Cell.setFull_self rfl).symm

/-- Any other enters the wait for the word, and stays in it until its limit has passed. -/
theorem fullEmpty_waits (other : fullBit s.cell (s.hart.S a + off).toNat ≠ need) (run : exec i s = fullEmpty i ss a off false need k s) :
    (s.hart.st = .run → WaitsFor s i .fullEmpty) ∧
      (s.hart.st = .wait .fullEmpty → (∀ t0, s.hart.since = some t0 → s.tbase < t0 + s.hart.fwl.toNat) → exec i s = .next s) := by
  have eq := run.trans (fullEmpty_eq hc v good al fits)
  rw [if_neg other, if_neg Bool.false_ne_true] at eq
  refine ⟨fun st => eq.trans (if_pos (by rw [waits_run st]; rfl)), fun st limit => eq.trans ?_⟩
  have within : s.limitPast = false := by
    unfold State.limitPast
    split
    · next t0 since => exact decide_eq_false (Nat.not_le.2 (limit t0 since))
    · rfl
  rw [if_neg (by simp [Hart.waits, st]), within, if_neg Bool.false_ne_true]

end

section
variable {s : State} {no x : Nat} {tr : Bool} {d a : Reg} {off : Word}

theorem exec_ldfeK : exec (.ldfeK tr d a off) s =
    fullEmpty (.ldfeK tr d a off) [d, a] a off tr true (fun o s => s.writeS d (s.cell.lword o)) s := rfl

theorem exec_ldfeE : exec (.ldfeE tr d a off) s =
    fullEmpty (.ldfeE tr d a off) [d, a] a off tr true (fun o s => (s.mapCell fun c => c.setFull o false).writeS d (s.cell.lword o)) s := rfl

theorem exec_stfe : exec (.stfe tr d a off) s = fullEmpty (.stfe tr d a off) [d, a] a off tr false
    (fun o s => (s.mapCell fun c => (c.lwrite o (leBytes 8 (s.hart.S d).toNat)).setFull o true).finish) s := rfl

/-- The attempt's flag, and then the state bit, put in a cell's hart and its cell. -/
theorem State.writeS_setFull (hc : s.cur = .cell no) (b : Bool) (d : Reg) (w : Word) :
    ((s.mapHart fun h => h.setTry tr true).mapCell fun c => c.setFull x b).writeS d w =
      .next ((s.mapCell fun c => c.setFull x b).setHart ((s.hart.setTry tr true).setS d w).complete) := by
  have slot : (s.cell.setFull x b).slot = s.cell.slot := by rw [Cell.setFull_eq]; rfl
  have bit : ((s.mapHart fun h => h.setTry tr true).mapCell fun c => c.setFull x b) =
      (s.mapCell fun c => c.setFull x b).setHart (s.hart.setTry tr true) := by
    rw [State.mapHart_eq, State.mapCell, State.mapCell, State.setHart_setCell hc slot, State.setHart, hc]
    dsimp only
    rw [Cell.setFull_setHart]
  rw [bit, State.writeS_eq, State.hart_setHart, State.setHart_setHart]

end

/-- Settles O22: each form by the state of its word, and `stfer` by the answer to its attempt. -/
theorem fullEmptyWords : Obligations.FullEmptyWords := by
  unfold Obligations.FullEmptyWords
  refine ⟨fun s tr d a off no hc v => ?_, fun s d a w => ?_⟩
  · intro x full h word good al fits kept tried
    have va : InView s [a] [] := by
      simp only [InView, List.all_cons, List.all_nil, Bool.and_true, Bool.and_eq_true] at v ⊢
      exact ⟨v.1.2, trivial⟩
    have loads {i : Instr} (after : Bool) (need : full = true)
        (run : exec i s = fullEmpty i [d, a] a off tr true (fun o s => (s.mapCell fun c => c.setFull o after).writeS d (s.cell.lword o)) s) :
        ∃ t, exec i s = .next t ∧ kept t after ∧ tried t 1 ∧ WroteScalar h t.hart d word ∧ t.cell.loc = s.cell.loc := by
      obtain ⟨keeps, fetry, wrote, loc⟩ := wordKept_setFull hc x after tr true d word
      refine ⟨_, run.trans ?_, keeps, fetry, wrote, loc⟩
      rw [fullEmpty_eq hc v good al fits, if_pos need]
      have same : (s.mapHart fun h => h.setTry tr true).cell.lword x = word := by
        rw [State.mapHart_eq, Cell.lword, Cell.lread, State.setHart_cell_loc]
      rw [same]
      exact State.writeS_setFull hc after d word
    have sets {i : Instr} (b : Bool) (run : exec i s = setState b a off s) :
        ∃ t, exec i s = .next t ∧ kept t b ∧ t.hart.fetry = h.fetry ∧ t.hart.win = h.win ∧ t.cell.loc = s.cell.loc := by
      obtain ⟨keeps, fetry, ⟨win, -⟩, loc⟩ := wordKept_setFull hc x b false true 0#8 0
      refine ⟨_, run.trans ?_, keeps, fetry, win, loc⟩
      refine (withLocal_inside (isCore_focus hc) va al fits).trans ?_
      have hart : (s.mapCell fun c => c.setFull x b).hart = s.hart := by
        rw [State.mapCell, State.hart_setCell hc (by rw [Cell.setFull_eq]; rfl), Cell.setFull_eq, State.hart_cell hc]
        rfl
      rw [Hart.setS_zero]
      exact (State.finish_eq _).trans (congrArg (fun g => Host.Outcome.next ((s.mapCell fun c => c.setFull x b).setHart g.complete)) hart)
    have absent (empty : full = false) : full ≠ true := fun e => Bool.false_ne_true (empty.symm.trans e)
    have present (need : full = true) : full ≠ false := fun e => Bool.false_ne_true (e.symm.trans need)
    refine ⟨fun need => ?_, fun need => loads false need rfl, fun empty => ?_, sets true rfl, sets false rfl, fun t => ?_, fun t => ?_⟩
    · have keeps : s.mapCell (fun c => c.setFull x true) = s := congrArg (fun c => { s with cell := c }) (Cell.setFull_self need)
      obtain ⟨kept_, fetry, wrote, loc⟩ := wordKept_setFull hc x true tr true d word
      refine ⟨_, ?_, kept_, fetry, wrote, loc⟩
      refine exec_ldfeK.trans ((fullEmpty_eq hc v good al fits).trans ((if_pos need).trans ?_))
      rw [keeps, State.writeS_eq, State.mapHart_eq, State.hart_setHart, State.setHart_setHart, Cell.lword, Cell.lread, State.setHart_cell_loc]
    · obtain ⟨t, run, kept_, fetry, win, holds, loc⟩ := wordKept_store hc x tr (h.S d)
      refine ⟨t, (exec_stfe.trans ((fullEmpty_eq hc v good al fits).trans (if_pos empty))).trans ?_, kept_, fetry, win, holds, loc⟩
      have same : (s.mapHart fun h => h.setTry tr true).hart.S d = h.S d := by
        rw [State.mapHart_eq, State.hart_setHart, Hart.setTry_eq]
        rfl
      rw [same]
      exact run
    · subst t
      exact ⟨fun empty => ⟨fullEmpty_refused hc v good al fits (absent empty) exec_ldfeK,
          fullEmpty_refused hc v good al fits (absent empty) exec_ldfeE⟩,
        fun need => fullEmpty_refused hc v good al fits (present need) exec_stfe⟩
    · subst t
      exact ⟨fun empty => ⟨fullEmpty_waits hc v good al fits (absent empty) exec_ldfeK,
          fullEmpty_waits hc v good al fits (absent empty) exec_ldfeE⟩,
        fun need => fullEmpty_waits hc v good al fits (present need) exec_stfe⟩
  · have waits : s.hart.waits .remote = true := by simp [Hart.waits, w]
    have slot (tr : Bool) : exec (.stfer tr d a) s = _ := if_pos waits
    refine ⟨fun accepted => ⟨?_, ?_⟩, fun refused => ?_⟩
    · exact (execStfer_accepted w accepted).trans (State.finish_eq s)
    · refine (slot true).trans ?_
      rw [accepted]
      exact (if_pos rfl).trans (s.done_eq _)
    · refine (slot true).trans ?_
      rw [refused]
      exact (if_neg (by decide)).trans ((if_neg (by decide)).trans ((if_pos rfl).trans (s.done_eq _)))

end Sys2Proof.Machine

namespace Sys2Proof.Machine

/-! ## O38: control requests about fields (R81, R257 to R266) -/

theorem State.notReplay_direct {s : State} (direct : Direct s.hart) (k : Out) : s.notReplay k = k := by
  unfold State.notReplay
  split
  · next t task => exact if_neg (by simpa [Direct, Hart.replay, task] using direct)
  · rfl

/-- What stands behind the three checks of a command of cells is done where they pass. -/
theorem State.command_checked {s : State} {no : Nat} {ss : List Reg} (hc : s.cur = .cell no) (v : InView s ss []) (direct : Direct s.hart) (k : Out) :
    s.cellOnly (s.withRegs ss [] (s.notReplay k)) = k :=
  (State.cellRegs_inView hc v _).trans (State.notReplay_direct direct k)

/-! ### A request leaves -/

/-- The issuing hart's request about a placement of its team, as it leaves for the origin cell. -/
def State.fieldReq (s : State) (v : Serving) (place : IWord) (handle obj : Nat) (ask : FieldAsk) : FieldReq :=
  ⟨⟨s.cell.no, s.cell.slot, s.hart.level, obj⟩, v.launch, v.team, handle, (s.groupCells v.launch v.team place).getD 0 0, ask, none⟩

/-- A hart whose request is on its way. -/
def Hart.requesting (h : Hart) (i : Instr) : Hart := { h with req := .sent, winstr := some i, buf := [], again := true, st := .run }

/-- The instruction has sent this request, and its hart issues it again; nothing else of the module is new. -/
def SendsReq (s : State) (i : Instr) (r : FieldReq) : Prop :=
  ∃ t, exec i s = .next t ∧ t = ({ s with net := t.net }).setHart t.hart ∧ t.hart = s.hart.requesting i ∧
    t.net = { s.net with asks := s.net.asks ++ [r] }

theorem State.reissue_eq (s : State) : s.reissue = .next (s.setHart { s.hart with again := true, st := .run }) := rfl

theorem sendsReq_of {s : State} {i : Instr} {r : FieldReq}
    (run : exec i s = .next (({ s with net := { s.net with asks := s.net.asks ++ [r] } } : State).setHart (s.hart.requesting i))) : SendsReq s i r := by
  have net : (({ s with net := { s.net with asks := s.net.asks ++ [r] } } : State).setHart (s.hart.requesting i)).net =
      { s.net with asks := s.net.asks ++ [r] } := State.setHart_net ..
  refine ⟨_, run, ?_, State.hart_setHart .., net⟩
  rw [net, State.hart_setHart]

section
variable {s : State} {no : Nat} {i : Instr} {d : Reg} {v : Serving} {f : Field} {handle : Word} {obj : Nat} {ask : FieldAsk} {none_ : Word} {query : Bool}

theorem State.sendAsk_eq (serving : s.cell.serving = some v) (place : IWord) (n : Nat) : s.sendAsk i place n obj ask =
    .next (({ s with net := { s.net with asks := s.net.asks ++ [s.fieldReq v place n obj ask] } } : State).setHart (s.hart.requesting i)) := by
  unfold State.sendAsk
  rw [serving]
  simp only [State.reissue_eq, State.mapHart_eq, State.hart_setHart, State.setHart_setHart]
  rfl

theorem State.control_sends (idle : s.hart.req = .idle) (ready : query = true ∨ s.acked = true) (field : s.myField handle = some f) :
    s.control i d handle obj ask none_ query = s.sendAsk i f.place f.handle obj ask := by
  unfold State.control
  rw [idle, field]
  exact if_neg (by rcases ready with h | h <;> simp [h])

theorem State.control_waits (idle : s.hart.req = .idle) (pushed : s.acked = false) : s.control i d handle obj ask none_ false = s.reissue := by
  unfold State.control
  rw [idle]
  exact if_pos (by simp [pushed])

theorem State.control_answered {w : Word} (answered : s.hart.req = .answered w) :
    s.control i d handle obj ask none_ query = (if query then s.acquire else s).takeAnswer d w := by
  unfold State.control
  rw [answered]

end

/-! ### What a hart reads at its first issue goes with it -/

/-- The issuing hart with what its first issue has read. -/
def State.buffered (s : State) (bs : List Byte) : State := s.setHart { s.hart with buf := bs }

theorem State.hart_buffered (s : State) (bs : List Byte) : (s.buffered bs).hart = { s.hart with buf := bs } := State.hart_setHart ..

section
variable {s : State} {no : Nat} (hc : s.cur = .cell no) (bs : List Byte)
include hc

theorem State.buffered_eq : s.buffered bs = { s with cell := s.cell.setHart s.cell.slot { s.hart with buf := bs } } := by
  rw [State.buffered, State.setHart, hc]

theorem State.acked_buffered : (s.buffered bs).acked = s.acked := by
  have outstanding : (s.buffered bs).outstanding = s.outstanding := by rw [State.buffered_eq hc]; rfl
  rw [State.acked, State.hart_buffered, outstanding, State.acked]

theorem State.myField_buffered (x : Word) : (s.buffered bs).myField x = s.myField x := by rw [State.buffered_eq hc]; rfl

/-- A request that leaves behind the read of its block leaves of the module what one does that has no block. -/
theorem State.sendAsk_buffered {v : Serving} (serving : s.cell.serving = some v) {i : Instr} (place : IWord) (n obj : Nat) (ask : FieldAsk) :
    (s.buffered bs).sendAsk i place n obj ask =
      .next (({ s with net := { s.net with asks := s.net.asks ++ [s.fieldReq v place n obj ask] } } : State).setHart (s.hart.requesting i)) := by
  have req : (s.buffered bs).fieldReq v place n obj ask = s.fieldReq v place n obj ask := by
    rw [State.fieldReq, State.hart_buffered, State.buffered_eq hc]
    rfl
  have hart : (s.buffered bs).hart.requesting i = s.hart.requesting i := by rw [State.hart_buffered]; rfl
  rw [State.sendAsk_eq (v := v) (by rw [State.buffered_eq hc]; exact serving), req, hart, State.buffered_eq hc]
  simp only [State.setHart, hc, Cell.setHart_setHart, Cell.slot_setHart]

end

/-! ### The request block of `snap` and `fmig` (R262) -/

section
variable {s : State} {no : Nat} {i : Instr} {d : Reg} {v : Serving} {f : Field} {x : Word} {ok : Word → Bool} {ask : List Word → FieldAsk}

/-- The handle of a field that is one of the cell's team is less than 16. -/
theorem State.myField_lt (field : s.myField x = some f) : x.toNat < 16 := by
  unfold State.myField at field
  obtain ⟨v, -, named⟩ := Option.bind_eq_some_iff.1 field
  by_contra big
  rw [if_neg big] at named
  cases named

theorem fieldOf_of_lt {x : Word} {n m : Nat} (lt : x.toNat < 2 ^ n) : fieldOf x n m = 0 := by
  rw [fieldOf, Nat.div_eq_of_lt lt, Nat.zero_mod]

theorem ofNat_fieldOf_of_lt {x : Word} {n : Nat} (lt : x.toNat < 2 ^ n) : BitVec.ofNat 64 (fieldOf x 0 n) = x := by
  rw [fieldOf_zero, Nat.mod_eq_of_lt lt, BitVec.ofNat_toNat, BitVec.setWidth_eq]

/-- A block that its checks pass is read whole at the first issue, and its request is made of it. -/
theorem State.blockRequest_first (idle : s.hart.req = .idle) (first : s.hart.again = false) (al : x.toNat % 32 = 0)
    (fits : x.toNat + 32 ≤ s.cell.localSize) (bs : List Byte) (read : s.cell.loc.read x.toNat 32 = bs)
    (field : s.myField ((leWords bs).getD 0 0) = some f) (small : ((leWords bs).getD 3 0).toNat < 2 ^ 17) (good : ok ((leWords bs).getD 2 0) = true)
    (obj : ((leWords bs).getD 3 0).toNat % 16 = 0) (objFits : ((leWords bs).getD 3 0).toNat + 16 ≤ s.cell.localSize) :
    s.blockRequest i d x ok ask =
      (s.buffered bs).control i d ((leWords bs).getD 0 0) ((leWords bs).getD 3 0).toNat (ask (leWords bs)) 8 false := by
  have low : ((leWords bs).getD 0 0).toNat < 2 ^ 4 := State.myField_lt field
  unfold State.blockRequest State.withBlock State.withLocal
  rw [if_pos (by simp [idle, first]), if_neg (by simp [al]), if_neg (Nat.not_lt.2 fits)]
  simp only [Cell.lread, read]
  rw [if_neg (by rw [fieldOf_of_lt low, fieldOf_of_lt small, good]; decide), if_neg (by simpa using obj), if_neg (Nat.not_lt.2 objFits)]
  change (s.buffered bs).control i d (BitVec.ofNat 64 (fieldOf ((leWords (s.buffered bs).hart.buf).getD 0 0) 0 4))
    ((leWords (s.buffered bs).hart.buf).getD 3 0).toNat (ask (leWords (s.buffered bs).hart.buf)) 8 false = _
  rw [State.hart_buffered]
  dsimp only
  rw [ofNat_fieldOf_of_lt low]

/-- An answer that has come ends the request, whatever its block was. -/
theorem State.blockRequest_answered {w : Word} (answered : s.hart.req = .answered w) : s.blockRequest i d x ok ask = s.takeAnswer d w := by
  unfold State.blockRequest
  rw [if_neg (by simp [answered])]
  exact State.control_answered answered

end

/-! ### The descriptor of `fdecl` (R81, R259) -/

section
variable {s : State} {no : Nat} {v : Serving} {l : Launch} {o : OLine} {x : Word} {i : Instr}

/-- A line on the dies, which the reader's die may read, is read as it stands there. -/
theorem State.readWords_line {die asid va : Nat} {lv : Level} (space : asid ≠ 0) (low : va < 2 ^ 55) (al : va % 128 = 0)
    (line : s.line? ⟨asid, s.gen asid, va / 128⟩ = some o) (may : o.perm.allows lv .load = true) (len : o.data.length = 128)
    (readable : (s.cohLine o.key).readable die = true) : s.readWords die asid lv va 16 = (.ok (leWords o.data), s) := by
  have coh : s.cohRead die o.key = some s := if_pos readable
  have piece : s.readPiece die asid lv va 128 = (.ok (o.data, sbSlice o.sb (va % 128) 128), s) := by
    unfold State.readPiece
    rw [State.locate_line space low line may]
    dsimp only
    rw [coh]
    dsimp only [State.readPlace]
    rw [al, List.drop_zero, List.take_of_length_le (by omega)]
  unfold State.readWords State.readGlobal
  rw [linePieces_line (by omega) (by decide), List.foldl_cons, List.foldl_nil]
  dsimp only
  rw [piece]
  rfl

theorem State.answerSelf_eq (s : State) (w : Word) :
    s.answerSelf w = .next (s.setHart { s.hart with req := .answered w, buf := [], again := true, st := .run }) := by
  simp only [State.answerSelf, State.reissue_eq, State.mapHart_eq, State.hart_setHart, State.setHart_setHart]

/-- The issuing cell's own checks of a descriptor that it has read, in order. -/
theorem State.declAtIssue_line (serving : s.cell.serving = some v) (launch : s.launchOf s.cell = some l) (space : s.asid ≠ 0) (low : x.toNat < 2 ^ 55)
    (al : x.toNat % 128 = 0) (line : s.line? ⟨s.asid, s.gen s.asid, x.toNat / 128⟩ = some o) (may : o.perm.allows s.hart.level .load = true)
    (len : o.data.length = 128) (readable : (s.cohLine o.key).readable (dieOf s.cell.no) = true) : s.declAtIssue i x =
      let f := fieldFrom v.launch v.team (leWords o.data)
      if !f.inRange l then s.answerSelf 1 else if !subgroupLegal l.lw l.lh f.place then s.answerSelf 3
      else s.sendAsk i f.place 16 0 (.decl (leWords o.data)) := by
  unfold State.declAtIssue
  rw [launch, serving]
  dsimp only
  rw [State.readWords_line space low al line may len readable]
  rfl

end

/-! ### The answer (R257) -/

section
variable {s : State} {no : Nat} {i : Instr} {d : Reg} {w : Word}

/-- An answer that announces no bytes is written. -/
theorem State.takeAnswer_plain (none_ : leNat (s.hart.buf.take 8) = 0) : s.takeAnswer d w = s.writeS d w := by
  unfold State.takeAnswer
  dsimp only
  rw [if_pos none_]

theorem Hart.completed_awoken (h : Hart) (b : Bool) (d : Reg) (w : Word) : ({ h with woken := b }.setS d w).complete = (h.setS d w).complete := by
  unfold Hart.setS
  split <;> rfl

/-- Bytes that the answer announces are expected of the object that it names, whether or not the hart itself awaits that one. -/
theorem takeAnswer_expects (hc : s.cur = .cell no) (some_ : leNat (s.hart.buf.take 8) ≠ 0) (fits : leNat (s.hart.buf.drop 8) + 16 ≤ s.cell.localSize)
    (run : exec i s = s.takeAnswer d w) : let o := leNat (s.hart.buf.drop 8)
    let v := expectWords (leNat (s.hart.buf.take 8)) (s.cell.lword o) (s.cell.lword (o + 8))
    ∃ t, exec i s = .next t ∧ OnlyLocal s t ∧ WentOn s.hart t.hart ∧ WroteScalar s.hart t.hart d w ∧ LocalKept s.cell t.cell o 16 ∧
      ObjectHolds s.cell t.cell o v := by
  intro o v
  obtain ⟨went, -, -, wrote⟩ := s.hart.completed_setS d w
  have r := s.cell.lwrite_retested o (objBytes v.1 v.2)
  have step : (s.mapCell fun c => c.expect o (leNat (s.hart.buf.take 8))) = s.mapCell fun c => c.lwrite o (objBytes v.1 v.2) :=
    congrArg (fun c => { s with cell := c }) (Cell.objStep_eq fits _)
  have hart : (s.mapCell fun c => c.lwrite o (objBytes v.1 v.2)).hart = { s.hart with woken := ((s.cell.lwrite o (objBytes v.1 v.2)).hart s.cell.slot).woken } := by
    rw [State.hart_cell hc]
    exact (State.hart_setCell hc r.slot).trans (r.hart _)
  unfold State.takeAnswer at run
  dsimp only at run
  rw [if_neg some_, step, State.writeS_eq, hart, Hart.completed_awoken] at run
  obtain ⟨only, kept, -, holds⟩ := object_stored (g := (s.hart.setS d w).complete) hc v.1 v.2
  refine ⟨_, run, only, ?_, ?_, kept, holds⟩
  all_goals rw [State.hart_setHart]
  exacts [went, wrote]

/-- An acquire changes nothing of LOCAL or MATRIX. -/
theorem Acquired.banksKept {t : State} (h : Acquired s t) : BanksKept s t := by
  obtain ⟨same, cell, -, -⟩ := h
  have no : t.cell.no = s.cell.no := by rw [cell]
  intro c
  by_cases mine : c = s.cell.no
  · rw [State.cellAt, if_pos (mine.trans no.symm), State.cellAt, if_pos mine, cell]
    exact ⟨rfl, rfl, rfl, rfl⟩
  · have rest : t.cellAt c = s.cellAt c := by
      rw [State.cellAt, if_neg (fun e => mine (e.trans no)), State.cellAt, if_neg mine, same]
      rfl
    rw [rest]
    exact ⟨rfl, rfl, rfl, rfl⟩

end

/-- Settles O38: each request by how far it has come, at its first issue, behind what is not yet acknowledged, and answered. -/
theorem fieldRequests : Obligations.FieldRequests := by
  unfold Obligations.FieldRequests
  intro s d a b no hc view direct h x
  have two {k : Out} : s.cellOnly (s.withRegs [d, a] [] (s.notReplay k)) = k := by
    refine State.command_checked hc ?_ direct k
    simp only [InView, List.all_cons, List.all_nil, Bool.and_true, Bool.and_eq_true] at view ⊢
    exact ⟨⟨view.1.1, view.1.2.1⟩, trivial⟩
  have three {k : Out} : s.cellOnly (s.withRegs [d, a, b] [] (s.notReplay k)) = k := State.command_checked hc view direct k
  refine ⟨fun f v serving field idle => ?_, fun f v serving idle first al fits => ?_,
    fun l v o serving launch idle al low space line may len readable => ?_, fun w answered => ?_⟩
  · intro sends o
    have sent {i : Instr} {ask : FieldAsk} {obj : Nat} (run : exec i s = s.sendAsk i f.place f.handle obj ask) : sends i ask obj :=
      sendsReq_of (run.trans (State.sendAsk_eq serving ..))
    have stop (checked : h.again = true ∨ o % 16 = 0 ∧ o + 16 ≤ s.cell.localSize) :
        exec (.fstop d a b) s = s.control (.fstop d a b) d x o .stop 8 false := by
      refine three.trans ?_
      rcases checked with again | ⟨al, fits⟩
      · exact if_neg (by rw [show s.hart.again = true from again]; simp)
      · dsimp only
        split
        · rw [State.withLocal, if_neg (by simpa using al), if_neg (Nat.not_lt.2 fits)]
        · rfl
    refine ⟨sent ((State.cellRegs_inView hc view _).trans (State.control_sends idle (.inl rfl) field)), fun acked => ⟨?_, ?_, ?_, fun checked => ?_⟩,
      fun pushed again i hi => ?_⟩
    · exact sent (two.trans (State.control_sends idle (.inr acked) field))
    · exact sent (two.trans (State.control_sends idle (.inr acked) field))
    · exact sent (three.trans (State.control_sends idle (.inr acked) field))
    · exact sent ((stop checked).trans (State.control_sends idle (.inr acked) field))
    · have same : ({ h with again := true, st := .run } : Hart) = { h with st := .run } :=
        congrArg (fun b => ({ h with again := b, st := .run } : Hart)) again.symm
      have waits : exec i s = s.reissue := by
        simp only [List.mem_cons, List.not_mem_nil, or_false] at hi
        rcases hi with rfl | rfl | rfl | rfl
        · exact two.trans (State.control_waits idle pushed)
        · exact two.trans (State.control_waits idle pushed)
        · exact (stop (.inl again)).trans (State.control_waits idle pushed)
        · exact three.trans (State.control_waits idle pushed)
      rw [waits, State.reissue_eq, same]
  · intro bs w sends field small obj objFits
    have idle_ : (s.buffered bs).hart.req = .idle := by rw [State.hart_buffered]; exact idle
    have sent {i : Instr} {ok : Word → Bool} {ask : List Word → FieldAsk} (run : exec i s = s.blockRequest i d x ok ask) (good : ok (w 2) = true) :
        sends i (ask (leWords bs)) := by
      have read := run.trans (State.blockRequest_first idle first al fits bs rfl field small good obj objFits)
      refine ⟨fun pushed => ?_, fun acked => sendsReq_of ?_⟩
      · rw [read, State.control_waits idle_ ((State.acked_buffered hc bs).trans pushed), State.reissue_eq, State.hart_buffered, State.buffered,
          State.setHart_setHart]
      · rw [read, State.control_sends idle_ (.inr ((State.acked_buffered hc bs).trans acked)) ((State.myField_buffered hc bs _).trans field),
          State.sendAsk_buffered hc bs serving]
        rfl
    have snap_ : exec (.snap d a) s = s.blockRequest (.snap d a) d x (fun w => fieldOf w 55 9 == 0)
        fun ws => .snap (ws.getD 1 0).toNat (ws.getD 2 0).toNat := two
    have fmig_ : exec (.fmig d a) s = s.blockRequest (.fmig d a) d x (fun w => fieldOf w 32 32 == 0)
        fun ws => .mig (ws.getD 1 0).toNat (BitVec.ofNat 32 (ws.getD 2 0).toNat) := two
    refine ⟨fun low => sent snap_ ?_, fun low => sent fmig_ ?_⟩
    · exact beq_iff_eq.2 (fieldOf_of_lt (n := 55) low)
    · exact beq_iff_eq.2 (fieldOf_of_lt (n := 32) low)
  · intro f answers
    have issued : exec (.fdecl d a) s = if !s.acked then s.reissue else s.declAtIssue (.fdecl d a) x := by
      refine two.trans ?_
      rw [idle]
      exact if_neg (by simpa using al)
    refine ⟨fun pushed => issued.trans (if_pos (by simp [pushed])), fun acked => ?_⟩
    have decl := issued.trans (if_neg (by simp [acked]))
    rw [State.declAtIssue_line serving launch space low al line may len readable] at decl
    dsimp only at decl
    refine ⟨fun out => ?_, fun within illegal => ?_, fun within legal => ?_⟩
    · exact (decl.trans (if_pos (by rw [out]; rfl))).trans (s.answerSelf_eq 1)
    · exact (decl.trans ((if_neg (by rw [within]; decide)).trans (if_pos (by rw [illegal]; rfl)))).trans (s.answerSelf_eq 3)
    · exact sendsReq_of ((decl.trans ((if_neg (by rw [within]; decide)).trans (if_neg (by rw [legal]; decide)))).trans (State.sendAsk_eq serving ..))
  · have written : exec (.fdecl d a) s = s.writeS d w := by
      refine two.trans ?_
      rw [answered]
    have answer : ∀ i ∈ ([.fstart d a, .fpause d a, .fstop d a b, .snap d a, .cplc d a b, .fmig d a] : List Instr), exec i s = s.takeAnswer d w := by
      intro i hi
      simp only [List.mem_cons, List.not_mem_nil, or_false] at hi
      rcases hi with rfl | rfl | rfl | rfl | rfl | rfl
      · exact two.trans (State.control_answered answered)
      · exact two.trans (State.control_answered answered)
      · exact three.trans ((if_neg (by simp [show s.hart.req = .answered w from answered])).trans (State.control_answered answered))
      · exact two.trans (State.blockRequest_answered answered)
      · exact three.trans (State.control_answered answered)
      · exact two.trans (State.blockRequest_answered answered)
    refine ⟨.of_writeS written, fun none_ => ⟨fun i hi => .of_writeS ((answer i hi).trans (State.takeAnswer_plain none_)), ?_⟩, ?_⟩
    · have run : exec (.fphase d a b) s = s.acquire.writeS d w := by
        refine (State.cellRegs_inView hc view _).trans ((State.control_answered answered).trans ?_)
        exact State.takeAnswer_plain (s := s.acquire) (by rw [State.hart_acquire hc]; exact none_)
      obtain ⟨t, ran, ⟨went, specials, flags, acquired⟩, wrote⟩ := passed_writeS hc run
      obtain ⟨others, mem, registered⟩ := acquired.othersKept
      exact ⟨t, ran, went, specials, flags, wrote, others, acquired.banksKept, mem, registered⟩
    · intro n o word some_ fits i hi
      refine takeAnswer_expects hc some_ fits (answer i ?_)
      simp only [List.mem_cons, List.not_mem_nil, or_false] at hi ⊢
      rcases hi with rfl | rfl | rfl <;> simp

end Sys2Proof.Machine

namespace Sys2Proof.Machine

/-! ## O29: atomics (R106, R197, R320, R390) -/

/-- The atomics, each with its new word from the old one, S(b) and S(d). -/
def amoForms (sc : Scope) (d a b : Reg) : List (Instr × (Word → Word → Word → Word)) :=
  [(.amoAdd sc d a b, fun o y _ => o + y), (.amoAnd sc d a b, fun o y _ => o &&& y), (.amoOr sc d a b, fun o y _ => o ||| y),
    (.amoXor sc d a b, fun o y _ => o ^^^ y), (.amoMin sc d a b, fun o y _ => minS o y), (.amoMax sc d a b, fun o y _ => maxS o y),
    (.amoMinn sc d a b, fun o y _ => minU o y), (.amoMaxn sc d a b, fun o y _ => maxU o y), (.amoSwp sc d a b, fun _ y _ => y),
    (.amoCas sc d a b, fun o y c => if o = c then y else o)]

theorem exec_amoForms {sc : Scope} {d a b : Reg} (s : State) : ∀ r ∈ amoForms sc d a b, exec r.1 s = amo r.1 r.2 sc d a b s := by
  unfold amoForms
  simp only [List.forall_mem_cons]
  exact ⟨rfl, rfl, rfl, rfl, rfl, rfl, rfl, rfl, rfl, rfl, by simp⟩

/-- The extrema, as comparisons of bit vectors. -/
theorem minS_eq (o y : Word) : minS o y = if o.sle y then o else y := by simp only [minS, BitVec.sle, decide_eq_true_eq]
theorem maxS_eq (o y : Word) : maxS o y = if o.sle y then y else o := by simp only [maxS, BitVec.sle, decide_eq_true_eq]
theorem minU_eq (o y : Word) : minU o y = if o ≤ y then o else y := rfl
theorem maxU_eq (o y : Word) : maxU o y = if o ≤ y then y else o := rfl

/-! ### The miss leaves -/

/-- What a hart's new state leaves beside its misses is as from the state before it. -/
theorem State.setHart_sent (s : State) (h g : Hart) (no : Nat) (mem : MemSys) (net : Net) :
    ({ s.setHart h with cmdNo := no, mem := mem, net := net } : State).setHart g =
      ({ s with cmdNo := no, mem := mem, net := net } : State).setHart g := by
  cases hc : s.cur <;> simp [State.setHart, hc, assocSet_assocSet, Cell.setHart, Cell.slot]

/-- A hart that waits for the misses it has sent. -/
def Hart.awaitingData (h : Hart) (i : Instr) (now : Nat) (ids : List Nat) : Hart :=
  { h with asks := h.asks ++ ids, st := .wait .data, winstr := some i, woken := false, since := some (h.since.getD now) }

section
variable {s : State} {sc : Scope} {d a b : Reg} {i : Instr} {f : Word → Word → Word → Word} {x : Nat}

/-- The miss of an atomic of the issuing hart, as it leaves. -/
def State.amoMiss (s : State) (wide : Bool) (x t : Nat) : List Miss := leavingFrom t s.cmdNo [s.hartMiss .miss (.amo wide) (x, 8) 0]

/-- The state with the miss of an atomic on its way. -/
def State.amoSent (s : State) (ms : List Miss) (net : Net) : State :=
  { s with cmdNo := s.cmdNo + 1, mem := { s.mem with misses := s.mem.misses ++ ms }, net := net }

/-- With no answer yet, the miss of an atomic leaves: CACHE serves none. -/
theorem State.askLines_amo (device : s.deviceHere x = false) (none_ : s.hart.got = []) (wide : Bool) : ∃ net t,
    s.askLines .miss (.amo wide) [(x, 8)] =
      (s.amoSent (s.amoMiss wide x t) net).setHart { s.hart with asks := s.hart.asks ++ (s.amoMiss wide x t).map fun m => m.id } := by
  have heads : s.unanswered [(x, 8)] = [(x, 8)] := by simp [State.unanswered, device, Hart.answer, none_, lineHeads]
  have miss : (MissKind.amo wide == MissKind.load false) = false := by cases wide <;> rfl
  obtain ⟨net, t, sent⟩ := (s.setHart s.hart).askHere_eq [s.hartMiss .miss (.amo wide) (x, 8) 0]
  have asked : s.askLines .miss (.amo wide) [(x, 8)] = (s.setHart s.hart).askHere [s.hartMiss .miss (.amo wide) (x, 8) 0] := by
    unfold State.askLines
    simp only [heads, miss, Bool.false_eq_true, if_false, List.filterMap_cons, List.filterMap_nil, List.filter_cons, List.filter_nil, Option.isNone_none,
      if_true, List.map_cons, List.map_nil, List.append_nil, State.mapHart_eq]
  refine ⟨net, t, asked.trans (sent.trans ?_)⟩
  rw [State.setHart_sent, State.hart_setHart, State.setHart_cmdNo, State.setHart_mem]
  rfl

/-- Its hart waits for the answer. -/
theorem State.waitOn_amo (device : s.deviceHere x = false) (none_ : s.hart.got = []) (wide : Bool) : ∃ net t,
    (s.askLines .miss (.amo wide) [(x, 8)]).waitOn .data i =
      .next ((s.amoSent (s.amoMiss wide x t) net).setHart (s.hart.awaitingData i s.tbase ((s.amoMiss wide x t).map fun m => m.id))) := by
  obtain ⟨net, t, sent⟩ := State.askLines_amo device none_ wide
  refine ⟨net, t, ?_⟩
  unfold State.waitOn
  rw [sent, State.mapHart_eq, State.hart_setHart, State.setHart_setHart, State.setHart_tbase]
  rfl

theorem asks_amo (hn : Numbered s) (view : InView s [d, a, b] []) (direct : Direct s.hart) (al : Aligned (s.hart.S a) 8)
    (device : s.deviceHere (s.hart.S a).toNat = false) (st : s.hart.st = .run) (none_ : s.hart.got = []) (run : exec i s = amo i f sc d a b s) :
    Asks s i (.wait .data) (.amo (sc != .cell)) [((s.hart.S a).toNat, 8)] := by
  obtain ⟨net, t, sent⟩ := State.waitOn_amo (i := i) device none_ (sc != .cell)
  have first : amo i f sc d a b s = (s.askLines .miss (.amo (sc != .cell)) [((s.hart.S a).toNat, 8)]).waitOn .data i := by
    unfold amo
    rw [State.withRegs_inView view, State.notReplay_direct direct]
    dsimp only
    rw [addrBad_aligned al]
    exact if_pos (by rw [waits_run st]; rfl)
  have away : Numbered (s.amoSent (s.amoMiss (sc != .cell) (s.hart.S a).toNat t) net) := hn
  refine ⟨_, s.amoMiss (sc != .cell) (s.hart.S a).toNat t, (run.trans first).trans sent, ?_⟩
  rw [State.hart_setHart]
  obtain ⟨mine, banks⟩ := away.setHart_mineOnly (s.hart.awaitingData i s.tbase _)
  exact ⟨rfl, rfl, by simp [SpecialsKept, BlocksKept, Hart.awaitingData], by simp [FlagsKept, Hart.awaitingData], by simp [LoopKept, Hart.awaitingData],
    rfl, rfl, rfl, mine, banks, State.setHart_mem .., leavingFrom_map (fun _ _ => rfl) _ _⟩

end

/-! ### The word is read and written in one step -/

namespace CachesOnly
variable {s u : State}

/-- The focused cell's CACHE alone is new. -/
theorem mapCell (h : CachesOnly s u) {g : Cell → Cell} (k : ∀ c, (g c).cold = c.cold) : CachesOnly s (u.mapCell g) := by
  have no : (g u.cell).no = u.cell.no := by
    have same := congrArg Cell.no (k u.cell)
    exact same
  refine h.trans ⟨rfl, rfl, k _, fun n => ?_, fun hn => ⟨fun n hc => no.trans (hn.1 n hc), hn.2⟩⟩
  have rest : (u.mapCell g).restCell n = u.restCell n := rfl
  unfold State.cellAt
  rw [rest]
  simp only [State.mapCell, no]
  split
  exacts [k _, rfl]

theorem forget (h : CachesOnly s u) {k : LineKey} {m : BitVec 16} : CachesOnly s (u.forget k m) := by
  unfold State.forget
  split
  · exact h
  · exact h.mapCell fun c => rfl

theorem acquireAt (h : CachesOnly s u) {sc : Scope} : CachesOnly s (u.acquireAt sc) := by
  unfold State.acquireAt State.acquire
  split
  · exact h
  split
  · exact h
  · exact h.mapCell fun c => rfl

/-- Behind a store, of the harts none but the issuing one changes with it. -/
theorem mineOnly_setHart (h : CachesOnly s u) (hn : Numbered s) (g : Hart) : MineOnly s (u.setHart g) ∧ BanksKept s (u.setHart g) := by
  unfold MineOnly
  split
  · next hc => exact ⟨h.othersKept_setHart hc hn g, h.banksKept_setHart hn hc g⟩
  · next hc => exact h.coreOnly_setHart hc g

end CachesOnly

theorem State.forget_mem (s : State) (k : LineKey) (m : BitVec 16) : (s.forget k m).mem = s.mem := by
  unfold State.forget
  split <;> rfl

theorem State.acquireAt_mem (s : State) (sc : Scope) : (s.acquireAt sc).mem = s.mem := by
  unfold State.acquireAt State.acquire
  split
  · rfl
  · split <;> rfl

/-- An acquire at a scope wider than the cell's leaves the cell's CACHE with registered words alone. -/
theorem State.acquireAt_registeredOnly {s : State} {sc : Scope} (wide : sc ≠ .cell) (cell : s.isCore = false) (g : Hart) :
    RegisteredOnly ((s.acquireAt sc).setHart g).cell := by
  have drops : s.acquireAt sc = s.mapCell Cell.acquireDrop := by
    unfold State.acquireAt State.acquire
    rw [if_neg (by simpa using wide), if_neg (by simp [cell])]
  rw [RegisteredOnly, State.setHart_cell_cache, drops]
  exact RegisteredOnly.acquireDrop s.cell

/-- The line of an address of the issuing hart, where its atomic is performed: outside the page tables, and its die takes a store of it. -/
structure AmoServed (s : State) (l : OLine) (x : Nat) : Prop where
  place : s.find .amo x = (.ok (.line l), s)
  line : s.line? ⟨s.asid, s.gen s.asid, x / 128⟩ = some l
  len : l.data.length = 128
  plain : s.tableStore s.asid x = false
  yields : Yields s s.myDie l.key

section
variable {s : State} {l : OLine} {x : Nat}

theorem AmoServed.of_cell (low : x < 2 ^ 55) (served : Served s l .amo x) (own : Ownable s s.myDie l.key) : AmoServed s l x := by
  obtain ⟨space, line, may, len, settled⟩ := served
  exact ⟨State.locate_line space low line may, line, len, by simp [State.tableStore, space], .inr ⟨settled, own⟩⟩

theorem AmoServed.of_core {n : Nat} (hc : s.cur = .core n) (low : x < 2 ^ 55) (served : ServedCore s l .amo x)
    (plain : x < 2 ^ 54 ∨ s.registered (x % 2 ^ 52 / 128) = false) : AmoServed s l x := by
  obtain ⟨level, gen, line, len, settled, own, place⟩ := served
  have asid : s.asid = 0 := by simp [State.asid, hc]
  have die : s.myDie = 54 := by simp [State.myDie, hc]
  refine ⟨?_, by rw [asid, gen, line], len, ?_, die ▸ .inr ⟨settled, own⟩⟩
  · unfold State.find State.locate
    rw [if_neg (Nat.not_le.mpr low), asid]
    rcases place with ⟨below, may⟩ | ⟨above, window⟩
    · rw [if_neg (by simpa using below), gen, line]
      exact if_pos may
    · rw [if_pos (by simpa using above)]
      unfold State.window
      dsimp only
      rw [if_neg (by simp [level]), window, line]
      rfl
  · rcases plain with below | out
    · have under : decide (2 ^ 54 ≤ x) = false := decide_eq_false (Nat.not_le.2 below)
      rw [State.tableStore, under, Bool.and_false, Bool.false_and, Bool.false_and]
    · rw [State.tableStore, out, Bool.and_false]

/-- The new word lies at the word's place, and nothing of the module but that line, CACHEs and what travels is new. -/
theorem AmoServed.amoStore (h : AmoServed s l x) (v : Word) : ∃ t, s.amoStore (.line l) x v = some t ∧ CachesOnly s t ∧
    t.mem = (s.putLine (l.stored (x % 128) (leBytes 8 v.toNat) [])).mem := by
  obtain ⟨-, line, -, plain, yields⟩ := h
  obtain ⟨w, takes, mem⟩ := yields.takes
  have key := State.line?_key line
  have caches := (CachesOnly.refl s).cohWrite takes
  let r : State := w.register none l.key (wordMask (x % 128) (leBytes 8 v.toNat).length)
  have found : r.line? l.key = some l := by rw [State.line?_of_mem ((State.register_mem ..).trans mem), key, line]
  have stores : s.storeFor (.engine s.myDie) (.line l) x (leBytes 8 v.toNat) [] = some (r.storeLine none l.key (x % 128) (leBytes 8 v.toNat) []) := by
    unfold State.storeFor
    dsimp only
    rw [if_neg (by simp [key, plain]), show (Party.engine s.myDie).die = s.myDie from rfl, takes]
    rfl
  have registered : CachesOnly s r := caches.register fun _ hi => by cases hi
  refine ⟨(r.storeLine none l.key (x % 128) (leBytes 8 v.toNat) []).forget l.key (wordMask (x % 128) 8), ?_, ?_, ?_⟩
  · unfold State.amoStore
    dsimp only
    rw [stores]
    rfl
  · exact registered.storeLine.forget
  · rw [State.forget_mem, State.storeLine_mem found]
    unfold State.putLine
    rw [State.register_mem, mem]

end

section
variable {s : State} {sc : Scope} {d a b : Reg} {i : Instr} {f : Word → Word → Word → Word} {l : OLine} {g : Got}

/-- The little-endian word at an address of a line. -/
def OLine.word (l : OLine) (x : Nat) : Word := BitVec.ofNat 64 (leNat ((l.data.drop (x % 128)).take 8))

/-- An atomic whose answer has come, behind what was to be acknowledged and published, reads and writes the word. -/
theorem amo_came (view : InView s [d, a, b] []) (direct : Direct s.hart) (hw : s.hart.st = .wait .data) (acked : s.acked = true)
    (came : Came s (s.hart.S a) 8 g) (published : sc = .cell ∨ s.mustPublish s.cur s.asid (s.hart.S a).toNat 8 = none)
    (place : s.find .amo (s.hart.S a).toNat = (.ok (.line l), s)) {t : State}
    (stores : s.amoStore (.line l) (s.hart.S a).toNat (f (l.word (s.hart.S a).toNat) (s.hart.S b) (s.hart.S d)) = some t) :
    amo i f sc d a b s = (t.acquireAt sc).writeS d (l.word (s.hart.S a).toNat) := by
  obtain ⟨al, answered, device, answer, ok⟩ := came
  have heads : s.unanswered [((s.hart.S a).toNat, 8)] = [] := by simp [State.unanswered, device, answer, lineHeads]
  have sound : s.hart.firstFault [((s.hart.S a).toNat, 8)] = none := by simp [Hart.firstFault, answer, ok]
  have shown : (if sc == .cell then some s else s.forcePublish s.cur s.asid (s.hart.S a).toNat 8) = some s := by
    split
    · rfl
    · next wide =>
      have none_ := published.resolve_left (by simpa using wide)
      unfold State.forcePublish
      rw [none_]
  unfold amo
  rw [State.withRegs_inView view, State.notReplay_direct direct]
  dsimp only
  rw [addrBad_aligned al]
  dsimp only
  rw [if_neg (by simp [Hart.waits, hw]), if_neg (by simp [answered, acked]), heads, if_neg (by simp), sound]
  dsimp only
  rw [shown]
  dsimp only
  rw [place]
  dsimp only [State.takePart, State.loadPlace, State.readPlace]
  rw [OLine.word] at stores ⊢
  rw [stores]

/-- What an atomic that reads `old` and stores `v` leaves of the module. -/
theorem amo_performs (hn : Numbered s) (fits : (s.hart.S a).toNat % 128 + 8 ≤ 128) (served : AmoServed s l (s.hart.S a).toNat) {old v : Word}
    (run : ∀ t, s.amoStore (.line l) (s.hart.S a).toNat v = some t → exec i s = (t.acquireAt sc).writeS d old) :
    ∃ t, exec i s = .next t ∧ WentOn s.hart t.hart ∧ SpecialsKept s.hart t.hart ∧ FlagsKept s.hart t.hart ∧ WroteScalar s.hart t.hart d old ∧
      MineOnly s t ∧ BanksKept s t ∧ MemoryKept s t ∧ OnDieIs t (stored s.asid (s.hart.S a).toNat 8 v.toNat (onDie s)) ∧
      (sc ≠ .cell → s.isCore = false → RegisteredOnly t.cell) := by
  obtain ⟨u, performed, caches, mem⟩ := served.amoStore v
  obtain ⟨went, specials, flags, wrote⟩ := s.hart.completed_setS d old
  obtain ⟨mine, banks⟩ := (caches.acquireAt (sc := sc)).mineOnly_setHart hn (s.hart.setS d old).complete
  have after : ((u.acquireAt sc).setHart (s.hart.setS d old).complete).mem =
      (s.putLine (l.stored ((s.hart.S a).toNat % 128) (leBytes 8 v.toNat) [])).mem := by
    rw [State.setHart_mem, State.acquireAt_mem, mem]
  refine ⟨(u.acquireAt sc).setHart (s.hart.setS d old).complete, ?_, ?_⟩
  · exact (run u performed).trans (by rw [State.writeS_eq, (caches.acquireAt (sc := sc)).hart])
  rw [State.hart_setHart]
  refine ⟨went, specials, flags, wrote, mine, banks, ?_, fun c va => ?_, fun wide cell => State.acquireAt_registeredOnly wide ?_ _⟩
  · rw [MemoryKept, after]
    rfl
  · rw [← laid_leBytes s.asid (s.hart.S a).toNat 8 v.toNat [] .weak .cell [] .u, laid_eq_stored]
    rw [← onDieIs_putLine (sb := []) served.line (by rwa [length_leBytes]) served.len c va]
    exact onDie_of_mem (by rw [after]) (by rw [after]) c va
  · rw [State.isCore, caches.cur]
    exact cell

end

/-- Settles O29: the miss at the first issue, and the word read and written once it is answered, on a cell and on a Headstock core. -/
theorem atomics : Obligations.Atomics := by
  unfold Obligations.Atomics
  intro s sc d a b hn view direct al device h x y
  refine ⟨fun st _ none_ i hi => ?_, fun l g hw acked came published served => ?_⟩
  · obtain ⟨r, hr, rfl⟩ : ∃ r ∈ amoForms sc d a b, r.1 = i := List.mem_map.1 hi
    exact asks_amo hn view direct al device st none_ (exec_amoForms s r hr)
  · intro old r hr
    have placed : AmoServed s l x := by
      cases hc : s.cur with
      | cell n =>
        rw [if_neg (by simp [State.isCore, hc])] at served
        exact .of_cell al.2 served.1 served.2
      | core n =>
        rw [if_pos (by simp [State.isCore, hc])] at served
        exact .of_core hc al.2 served.1 served.2
    have values : ∃ q ∈ amoForms sc d a b, (q.1, q.2 (l.word x) y (h.S d)) = r := by
      refine List.mem_map.1 ?_
      simp only [amoForms, List.map_cons, List.map_nil, minS_eq, maxS_eq, minU_eq, maxU_eq]
      exact hr
    obtain ⟨q, hq, rfl⟩ := values
    exact amo_performs hn (al.fits (by decide)) placed fun t stores =>
      (exec_amoForms s q hq).trans (amo_came view direct hw acked came published placed.place stores)

end Sys2Proof.Machine
